-- ==== Sys2Proof/Word.lean ====
section
/-! DEFINITION. The word types of the JW480 (spec 00 R3, 02 R30). -/

namespace Sys2Proof

/-- One byte of memory, scratchpad or an instruction. -/
abbrev Byte := BitVec 8

/-- A vector register lane, an instruction word, a program counter (spec 02 R25, R30). -/
abbrev W32 := BitVec 32

/-- A scalar register, a system register, an address (spec 02 R30, 07 R160). -/
abbrev W64 := BitVec 64

end Sys2Proof
end

