-- ==== Sys2Proof/Syntax.lean ====
section
/-! DEFINITION. The syntax: the 96-bit instruction word's fields (spec 02 R25, R26, R30, R34), and one
constructor for every row of spec/opcode_table.json, the instructions first and then the device's own events. -/

namespace Sys2Proof

/-- The kinds of an operand field (spec 02 R30), in the order of their codes 0 to 7. -/
inductive Kind where
  | vec | scalar | pred | acc | imm | karg | special | none
  deriving DecidableEq, Repr

/-- A 12-bit operand field: KIND and IDX (spec 02 R30). -/
structure Operand where
  kind : Kind
  idx : BitVec 9
  deriving DecidableEq, Repr

/-- GRD: the polarity bit [13] and the predicate number [12:10] (spec 02 R28). -/
structure Guard where
  neg : Bool
  pred : BitVec 3
  deriving DecidableEq, Repr

/-- The fields every instruction word has beside its OPC (spec 02 R26). `rsv` is bits [95:93]. -/
structure Fields where
  grd : Guard
  dst : Operand
  sa : Operand
  sb : Operand
  imm : BitVec 32
  mod : BitVec 6
  la : BitVec 4
  bnd : Bool
  rsv : BitVec 3
  deriving DecidableEq, Repr

/-- What an uncorrectable soft error strikes (spec 02 R42, 14 R245, 19 R371, 28 R486, 07 R137). -/
inductive SoftTarget where
  /-- register v`reg` of a lane of a warp of a resident cohort -/
  | vreg (cohort warp reg lane : Nat)
  /-- scalar s`reg` of a warp of a resident cohort -/
  | sreg (cohort warp reg : Nat)
  /-- element (m, n) of accumulator tile `tile`: its Z when `z`, else its Pacc -/
  | acc (core tile m n : Nat) (z : Bool)
  /-- the cached weight table at position `entry` of a core's weight-table cache -/
  | wtable (core entry : Nat)
  /-- the data still to come of an outstanding operation's reply -/
  | reply (op : Nat)
  /-- a scratchpad byte of a cohort -/
  | scratch (cohort offset : Nat)
  /-- saved or control state of a context, at a line address -/
  | control (ctx addr : Nat)
  /-- Rotunda's structures under an outstanding world command -/
  | world (op : Nat)
  deriving DecidableEq, Repr

/-- One constructor for every row of spec/opcode_table.json. An instruction carries the fields of its word; an
event carries what names the agent or the outstanding operation it concerns. -/
inductive Instr where
  /-- NOP (R114). Does nothing; IMM is ignored, and with BND = 1 it ends the run. -/
  | nop (f : Fields)
  /-- BRA (R115). Each thread whose guard holds branches to PC plus the signed offset, and the group is partitioned by next PC. -/
  | bra (f : Fields)
  /-- BRX (R116). Each guard-holding thread branches to an absolute target read per thread, and the group is partitioned by target. -/
  | brx (f : Fields)
  /-- CALL (R117). Writes PC + 1 to the link register of each guard-holding thread, then branches as BRA. -/
  | call (f : Fields)
  /-- CALLX (R117). Reads the target, writes PC + 1 to the link register, then branches as BRX. -/
  | callx (f : Fields)
  /-- RET (R116). Branches to a target read per thread, exactly as BRX does; it is marked as a return for tools. -/
  | ret (f : Fields)
  /-- VBRA (R118). Takes one .ANY or .ALL decision over the group's voters and moves the whole group without splitting it. -/
  | vbra (f : Fields)
  /-- REFORM (R120). Files each guard-holding thread into the bin keyed by (cohort, PC + 1), and frees the entry or keeps it for members whose guard failed. -/
  | reform (f : Fields)
  /-- WCONV (R121). Each guard-holding thread becomes warp-waiting until every live thread of its home warp reaches the same WCONV. -/
  | wconv (f : Fields)
  /-- EXIT (R122). Each guard-holding thread becomes finished, and the run ends. -/
  | exit (f : Fields)
  /-- YIELD (R123). Ends the run, and the group is not a candidate for the next n arbitration rounds. -/
  | yield (f : Fields)
  /-- LOOPD (R119). Decrements the warp's scalar counter and branches the warp's threads while the new value is nonzero. -/
  | loopd (f : Fields)
  /-- SADD (R199). Warp-scope scalar addition, wrapped or saturated. -/
  | sadd (f : Fields)
  /-- SSUB (R199). Warp-scope scalar subtraction, wrapped or saturated. -/
  | ssub (f : Fields)
  /-- SMUL (R199). Warp-scope scalar multiplication, wrapped or saturated. -/
  | smul (f : Fields)
  /-- SMULH (R199). Writes the upper n bits of the 2n-bit scalar product. -/
  | smulh (f : Fields)
  /-- SDIV (R200). Long-class scalar division, truncated toward zero, with defined results for a zero divisor and for overflow. -/
  | sdiv (f : Fields)
  /-- SREM (R200). Long-class scalar remainder, which takes the sign of the dividend. -/
  | srem (f : Fields)
  /-- SAND (R199). Scalar bitwise AND. -/
  | sand (f : Fields)
  /-- SOR (R199). Scalar bitwise OR. -/
  | sor (f : Fields)
  /-- SXOR (R199). Scalar bitwise XOR. -/
  | sxor (f : Fields)
  /-- SSHL (R201). Scalar left shift; a count at or above n gives 0. -/
  | sshl (f : Fields)
  /-- SSHR (R201). Scalar right shift, arithmetic under signed types and logical under unsigned types. -/
  | sshr (f : Fields)
  /-- SMIN (R199). Writes the smaller of two scalars, compared as t. -/
  | smin (f : Fields)
  /-- SMAX (R199). Writes the larger of two scalars, compared as t. -/
  | smax (f : Fields)
  /-- SCMP (R202). Compares two scalars under the OPT condition and writes the result to a predicate of the warp's guard-holding threads. -/
  | scmp (f : Fields)
  /-- SSEL (R203). Writes a when the third scalar source is nonzero, and b otherwise. -/
  | ssel (f : Fields)
  /-- SMOV (R199). Copies a scalar value. -/
  | smov (f : Fields)
  /-- SMOVI (R203). Writes the 32-bit immediate sign-extended (.SX), zero-extended (.ZX) or into bits [63:32] (.HI). -/
  | smovi (f : Fields)
  /-- SCLZ (R199). Counts the leading zero bits of a scalar. -/
  | sclz (f : Fields)
  /-- SPOPC (R199). Counts the one bits of a scalar. -/
  | spopc (f : Fields)
  /-- SADDR (R203). Computes base + index × 2^shift + offset, wrapped to 64 bits. -/
  | saddr (f : Fields)
  /-- IADD (R206). Per-thread 32-bit integer addition. -/
  | iadd (f : Fields)
  /-- ISUB (R206). Per-thread 32-bit integer subtraction. -/
  | isub (f : Fields)
  /-- IMUL (R206). Per-thread multiplication, giving the low half (.LO) or the high half (.HI) of the product. -/
  | imul (f : Fields)
  /-- IMAD (R206). Per-thread multiply–add, exact before wrapping or saturating. -/
  | imad (f : Fields)
  /-- IDIV (R206). Long-class per-thread division under the rules of R200. -/
  | idiv (f : Fields)
  /-- IREM (R206). Long-class per-thread remainder under the rules of R200. -/
  | irem (f : Fields)
  /-- IMIN (R206). Per-thread minimum. -/
  | imin (f : Fields)
  /-- IMAX (R206). Per-thread maximum. -/
  | imax (f : Fields)
  /-- IABS (R206). Per-thread absolute value. -/
  | iabs (f : Fields)
  /-- INEG (R206). Per-thread negation. -/
  | ineg (f : Fields)
  /-- IAND (R206). Per-thread bitwise AND. -/
  | iand (f : Fields)
  /-- IOR (R206). Per-thread bitwise OR. -/
  | ior (f : Fields)
  /-- IXOR (R206). Per-thread bitwise XOR. -/
  | ixor (f : Fields)
  /-- INOT (R206). Per-thread bitwise NOT. -/
  | inot (f : Fields)
  /-- ISHL (R206). Per-thread left shift. -/
  | ishl (f : Fields)
  /-- ISHR (R206). Per-thread right shift, arithmetic or logical as t is. -/
  | ishr (f : Fields)
  /-- IROT (R206). Per-thread left rotation by the count mod 32. -/
  | irot (f : Fields)
  /-- ICMP (R206). Per-thread comparison, written to a predicate. -/
  | icmp (f : Fields)
  /-- ISEL (R206). Per-thread selection of a or b by a predicate. -/
  | isel (f : Fields)
  /-- IPOPC (R206). Per-thread count of one bits. -/
  | ipopc (f : Fields)
  /-- ICLZ (R206). Per-thread count of leading zero bits. -/
  | iclz (f : Fields)
  /-- IBFX (R207). Extracts a bit field, sign- or zero-extended. -/
  | ibfx (f : Fields)
  /-- IBFI (R207). Inserts a bit field into a base value. -/
  | ibfi (f : Fields)
  /-- IADDC (R208). Adds with a carry-in predicate and writes a carry-out predicate. -/
  | iaddc (f : Fields)
  /-- IDOT4 (R209). Forms the dot product of four byte pairs plus a 32-bit addend. -/
  | idot4 (f : Fields)
  /-- LEA (R210). Forms a 64-bit address in a vector register pair. -/
  | lea (f : Fields)
  /-- FADD (R222). Floating-point addition, rounded once. -/
  | fadd (f : Fields)
  /-- FSUB (R222). Floating-point subtraction, rounded once. -/
  | fsub (f : Fields)
  /-- FMUL (R222). Floating-point multiplication, rounded once. -/
  | fmul (f : Fields)
  /-- FFMA (R222). Fused multiply–add with one rounding. -/
  | ffma (f : Fields)
  /-- FMIN (R224). Returns the lesser operand exactly, with −0 below +0 and NaN rules. -/
  | fmin (f : Fields)
  /-- FMAX (R224). Returns the greater operand exactly. -/
  | fmax (f : Fields)
  /-- FCMP (R225). Floating-point comparison under OPT, written to a predicate. -/
  | fcmp (f : Fields)
  /-- FRCP (R222). Long-class reciprocal, rounded once. -/
  | frcp (f : Fields)
  /-- FRSQ (R226). Long-class reciprocal square root, rounded once. -/
  | frsq (f : Fields)
  /-- FSQRT (R226). Long-class square root, rounded once. -/
  | fsqrt (f : Fields)
  /-- FDIV (R222). Long-class division, rounded once. -/
  | fdiv (f : Fields)
  /-- FEXP2 (R227). Faithful base-2 exponential in F32. -/
  | fexp2 (f : Fields)
  /-- FLOG2 (R227). Faithful base-2 logarithm in F32. -/
  | flog2 (f : Fields)
  /-- FSIN (R227). Faithful sine in F32, with exact argument reduction. -/
  | fsin (f : Fields)
  /-- FCOS (R227). Faithful cosine in F32, with exact argument reduction. -/
  | fcos (f : Fields)
  /-- FFRC (R228). Writes the fractional part a − floor(a), rounded. -/
  | ffrc (f : Fields)
  /-- FRINT (R228). Rounds to an integer value under the rounding code. -/
  | frint (f : Fields)
  /-- FCLASS (R229). Writes a one-hot class mask of the operand. -/
  | fclass (f : Fields)
  /-- FLDEXP (R222). Multiplies by 2^k, rounding only for subnormals or overflow. -/
  | fldexp (f : Fields)
  /-- HFMA2 (R230). Packed two-element fused multiply–add. -/
  | hfma2 (f : Fields)
  /-- HADD2 (R230). Packed two-element addition. -/
  | hadd2 (f : Fields)
  /-- HMUL2 (R230). Packed two-element multiplication. -/
  | hmul2 (f : Fields)
  /-- CVT (R232). Converts between floating formats with one rounding. -/
  | cvt (f : Fields)
  /-- CVTFI (R233). Converts a float to an integer type under R190. -/
  | cvtfi (f : Fields)
  /-- CVTIF (R234). Converts an integer to a float format with one rounding. -/
  | cvtif (f : Fields)
  /-- CVTN (R235). Rounds two values and packs them at chosen positions of DST. -/
  | cvtn (f : Fields)
  /-- CVTW (R236). Widens one narrow element to a float or a 32-bit integer. -/
  | cvtw (f : Fields)
  /-- PRMB (R237). Builds each byte of DST from an eight-byte pool, with sign fill. -/
  | prmb (f : Fields)
  /-- SCLX (R238). Computes the E8 scale code that fits |a| within M of a target format. -/
  | sclx (f : Fields)
  /-- MOV (R212). Copies a vector value unchanged. -/
  | mov (f : Fields)
  /-- MOVI (R212). Writes the 32-bit immediate to a vector register. -/
  | movi (f : Fields)
  /-- MOVS (R212). Writes the low or high half of the warp's scalar to each thread. -/
  | movs (f : Fields)
  /-- RDL (R214). Reads one lane's vector register into the warp's scalar, extended. -/
  | rdl (f : Fields)
  /-- SHFL (R215). Each thread reads a register of another lane of its home warp. -/
  | shfl (f : Fields)
  /-- VOTE (R216). Writes the .ANY, .ALL or .BALLOT result of the voters' predicates to the warp's scalar. -/
  | vote (f : Fields)
  /-- PLOP (R217). Writes a three-input lookup-table function of predicates. -/
  | plop (f : Fields)
  /-- P2V (R217). Converts a predicate to 1 or 0, or to an all-ones mask or 0. -/
  | p2v (f : Fields)
  /-- V2P (R217). Sets a predicate when a vector value is nonzero. -/
  | v2p (f : Fields)
  /-- RDSP (R218). Reads a special register into a vector or scalar destination. -/
  | rdsp (f : Fields)
  /-- MATCH (R216). Gives each voter a mask of the voters of its warp holding an equal value. -/
  | matchv (f : Fields)
  /-- LD (R271). Per-thread global load of width w, optionally an acquire. -/
  | ld (f : Fields)
  /-- ST (R272). Per-thread posted global store, performed and stamped at the home. -/
  | st (f : Fields)
  /-- SLD (R273). Warp-scope global load into a scalar. -/
  | sld (f : Fields)
  /-- SST (R273). Warp-scope global store of a scalar. -/
  | sst (f : Fields)
  /-- LDS (R274). Per-thread scratchpad load. -/
  | lds (f : Fields)
  /-- STS (R274). Per-thread scratchpad store. -/
  | sts (f : Fields)
  /-- LDK (R275). Reads bytes of the launch's kernel-argument bank. -/
  | ldk (f : Fields)
  /-- PREF (R276). Prefetches a line into the caches its scope names, silently dropping failures. -/
  | pref (f : Fields)
  /-- EVICT (R277). Demotes or drops a line in the caches its scope names. -/
  | evict (f : Fields)
  /-- ACOPY (R283). Queues an asynchronous copy in the direction DIR with transform XF, returning a future. -/
  | acopy (f : Fields)
  /-- AGATH (R288). Queues a first-fault element gather from a tensor into scratchpad. -/
  | agath (f : Fields)
  /-- ASCAT (R288). Queues an element scatter from scratchpad, with every element checked first. -/
  | ascat (f : Fields)
  /-- ABLKG (R289). Queues a first-fault block gather. -/
  | ablkg (f : Fields)
  /-- ABLKS (R289). Queues a block scatter. -/
  | ablks (f : Fields)
  /-- AXPOSE (R290). Queues a transpose of a matrix inside scratchpad. -/
  | axpose (f : Fields)
  /-- SUBS (R291). Subscribes a stream of the cohort to a stream descriptor. -/
  | subs (f : Fields)
  /-- SLOTW (R292). Blocks until the stream's next item is FULL, then takes its slot. -/
  | slotw (f : Fields)
  /-- SLOTF (R293). Moves a HELD stream slot to DONE. -/
  | slotf (f : Fields)
  /-- FTEST (R295). Writes 1 when a future register is not pending, without waiting. -/
  | ftest (f : Fields)
  /-- FCANCEL (R296). Asks the engine to stop the command whose future is named. -/
  | fcancel (f : Fields)
  /-- FWAIT (R297). Blocks until all or any of the named future registers are not pending. -/
  | fwait (f : Fields)
  /-- RFENCE (R298). Drops every entry of the core's record cache. -/
  | rfence (f : Fields)
  /-- ATOM (R335). Per-thread indivisible global atomic that returns the old value. -/
  | atom (f : Fields)
  /-- ATOMS (R335). Per-thread indivisible scratchpad atomic. -/
  | atoms (f : Fields)
  /-- SATOM (R335). Warp-scope global atomic on a scalar address. -/
  | satom (f : Fields)
  /-- REDC (R337). Posts counted reduction contributions toward a ready word. -/
  | redc (f : Fields)
  /-- FENCE (R340). Waits for the warp's earlier accesses within the scope's reach, then raises the view to H. -/
  | fence (f : Fields)
  /-- BAR (R341). The warp arrives at a named barrier and waits for the pass. -/
  | bar (f : Fields)
  /-- BAR_ARV (R341). The warp arrives at a named barrier and continues. -/
  | barArv (f : Fields)
  /-- BAR_WT (R341). Waits for the pass of the phase in which the warp last arrived. -/
  | barWt (f : Fields)
  /-- WAITC (R343). Registers a condition monitor on a word, or polls it, and blocks until the condition holds. -/
  | waitc (f : Fields)
  /-- SUCCOK (R344). Marks the cohort as signalled, allowing successors to be admitted. -/
  | succok (f : Fields)
  /-- WAITPRED (R345). Blocks until the launch's predecessor completes, then raises the view to its C. -/
  | waitpred (f : Fields)
  /-- MBXPUT (R348). Reserves a ring slot, writes a 64-byte message and publishes it in reservation order. -/
  | mbxput (f : Fields)
  /-- MBXGET (R349). Claims the oldest published mailbox slot and reads its message. -/
  | mbxget (f : Fields)
  /-- MMCFG (R380). Claims the matrix unit, or reconfigures it, with shape, formats, .INF and joint set. -/
  | mmcfg (f : Fields)
  /-- MMCFG_REL (R381). Waits for the queue to drain, then releases ownership of the matrix unit. -/
  | mmcfgRel (f : Fields)
  /-- MMZERO (R382). Queues a command that writes +0 to Z, Pacc or both of the tiles it acts on. -/
  | mmzero (f : Fields)
  /-- MMREADY (R383). Operand fence that completes once the warp's scratchpad and register writes are made. -/
  | mmready (f : Fields)
  /-- MMLOOP (R384). Queues STEPS K-steps reading plane blocks from scratchpad. -/
  | mmloop (f : Fields)
  /-- MMSCALE (R385). Queues a fold of Pacc into Z with row and column scales. -/
  | mmscale (f : Fields)
  /-- MMDRAIN (R387). Queues a move of accumulator rows into vector registers. -/
  | mmdrain (f : Fields)
  /-- MMSTORE (R388). Queues a store of accumulator rows to scratchpad. -/
  | mmstore (f : Fields)
  /-- MMLOAD (R389). Queues a load of accumulator rows from vector registers. -/
  | mmload (f : Fields)
  /-- MMWAIT (R390). Blocks until the warp's matrix commands have completed. -/
  | mmwait (f : Fields)
  /-- MMSTAT (R391). Reads the matrix unit's status, optionally clearing the sticky bits. -/
  | mmstat (f : Fields)
  /-- WSPAWN (R468). Reserves entity indices and queues spawn entries. -/
  | wspawn (f : Fields)
  /-- WKILL (R468). Queues kill entries for handles. -/
  | wkill (f : Fields)
  /-- WADDC (R469). Queues component-add entries with their values. -/
  | waddc (f : Fields)
  /-- WREMC (R468). Queues component-removal entries. -/
  | wremc (f : Fields)
  /-- WSYNC (R470). Submits a sync of a world and blocks until it completes. -/
  | wsync (f : Fields)
  /-- WQRY (R471). Opens a query cursor that pins the current versions of the matching tables. -/
  | wqry (f : Fields)
  /-- WNEXT (R472). Writes the cursor record of the next chunk to scratchpad. -/
  | wnext (f : Fields)
  /-- WCLOSE (R473). Closes a cursor and releases its pins. -/
  | wclose (f : Fields)
  /-- WRES (R474). Resolves handles and writes 16-byte results to scratchpad. -/
  | wres (f : Fields)
  /-- WCOL (R475). Resolves handles to component element addresses. -/
  | wcol (f : Fields)
  /-- TSPAWN (R429). Files work-graph records into a node's bin; it seals the task. -/
  | tspawn (f : Fields)
  /-- WDNEXT (R431). Takes one item of a distribution table, scored against the core. -/
  | wdnext (f : Fields)
  /-- RESQ (R432). Reads the core's residency table entry for a granule. -/
  | resq (f : Fields)
  /-- RESPIN (R433). Pins or unpins a granule in the core's residency table. -/
  | respin (f : Fields)
  /-- ASDECL (R434). Declares an atomic set for the context. -/
  | asdecl (f : Fields)
  /-- ASSEAL (R435). Seals the issuing task. -/
  | asseal (f : Fields)
  /-- ASSTAT (R436). Reads the status of a set or of the task. -/
  | asstat (f : Fields)
  /-- REGGROW (R438). Warp-wide request to grow the vector allocation. -/
  | reggrow (f : Fields)
  /-- REGSHR (R438). Warp-wide shrink of the vector allocation. -/
  | regshr (f : Fields)
  /-- PRIO (R439). Sets the cohort's priority, up to the launch's PRIO. -/
  | prio (f : Fields)
  /-- LAUNCH (R440). Submits a launch record to Belfry from the device; it seals the task. -/
  | launch (f : Fields)
  /-- TEXS (R503). Samples a texture at level of detail 0. -/
  | texs (f : Fields)
  /-- TEXL (R503). Samples with a given level of detail or a cone footprint. -/
  | texl (f : Fields)
  /-- TEXG (R503). Gathers one channel of the four linear taps. -/
  | texg (f : Fields)
  /-- TEXQ (R504). Queries a level's size, the level count and the format. -/
  | texq (f : Fields)
  /-- TWFENCE (R506). Drops every entry of the core's weight-table cache. -/
  | twfence (f : Fields)
  /-- RAYQ (R508). Runs a BVH ray query per thread and writes the result records. -/
  | rayq (f : Fields)
  /-- TEXD (R505). Decodes one latent texel through Lantern. -/
  | texd (f : Fields)
  /-- TRAP (R164). Raises the software trap for the guard-holding threads. -/
  | trap (f : Fields)
  /-- TRET (R165). Ends the handler for each handler thread and resumes it at TPC or TRPC. -/
  | tret (f : Fields)
  /-- RDTRAP (R166). Reads one doubleword of the head trap record. -/
  | rdtrap (f : Fields)
  /-- PREEMPT (R168). Pre-emption point that names live state and stops the thread when a request is pending. -/
  | preempt (f : Fields)
  /-- CTXSAVE (R169). Runs the save phase on a user context. -/
  | ctxsave (f : Fields)
  /-- CTXLOAD (R169). Runs the load phase on a saved user context. -/
  | ctxload (f : Fields)
  /-- RDSR (R171). Reads a system register. -/
  | rdsr (f : Fields)
  /-- WRSR (R171). Writes a system register. -/
  | wrsr (f : Fields)
  /-- CAPRD (R173). Reads 8 bytes of the function's capability list. -/
  | caprd (f : Fields)
  /-- RDCYC (R174). Reads the core's cycle counter. -/
  | rdcyc (f : Fields)
  /-- EBUD (R175). Reads the context's remaining energy allowance. -/
  | ebud (f : Fields)
  /-- ERESV (R176). Reserves energy for the cohort, or releases the reservation. -/
  | eresv (f : Fields)
  /-- HCALL (R177). Posts a hypervisor call and waits for its reply. -/
  | hcall (f : Fields)
  /-- ARBITRATION_ROUND (R100). An issue slot chooses the next ready group or drawable bin by priority, fullness, age and round robin. -/
  | arbitrationRound (core : Nat) (slot : Nat)
  /-- RUN_FORCED_BOUNDARY (R43). The 24th instruction of a run ends the run. -/
  | runForcedBoundary (core : Nat) (slot : Nat)
  /-- BIN_AGE_EXPIRY (R98). A bin whose age exceeds BINAGE becomes drawable. -/
  | binAgeExpiry (core : Nat) (bin : Nat)
  /-- YIELD_BACKOFF_EXPIRY (R123). After n arbitration rounds a yielded group becomes a candidate again. -/
  | yieldBackoffExpiry (core : Nat) (entry : Nat)
  /-- HANG_TRAP (R107). A spin count reaching HANGLIM while home-warp threads are starved queues trap 0x07. -/
  | hangTrap (core : Nat) (entry : Nat)
  /-- REGGROW_GRANT (R93). The core grants a pending REGGROW from its free vector units, oldest first. -/
  | reggrowGrant (core : Nat)
  /-- REGGROW_FAILURE (R93). With every warp waiting and no request fitting, the youngest request fails and writes 0. -/
  | reggrowFailure (core : Nat)
  /-- BREAKPOINT (R135). Before fetch, a PC matching an enabled BKPTn raises trap 0x0D, except for an exempt thread. -/
  | breakpoint (core : Nat) (slot : Nat)
  /-- TRAP_DELIVERY (R132). With no handler active, the head record of a warp's queue is delivered and its threads enter at TVEC. -/
  | trapDelivery (cohort : Nat) (warp : Nat)
  /-- LONG_INSTRUCTION_COMPLETION (R42). A long instruction's reply writes its destination, marking it poisoned on an uncorrectable soft error. -/
  | longInstructionCompletion (op : Nat)
  /-- COHORT_SAVE (R139). With every warp at rest and nothing outstanding, the save engine writes the named and control state to a save slot. -/
  | cohortSave (cohort : Nat)
  /-- PFALL_EXPIRY (R144). A cohort not at rest within PFALL runs is stopped at run boundaries and saved whole. -/
  | pfallExpiry (cohort : Nat)
  /-- COHORT_RESUME (R148). Belfry resumes a saved cohort on a core that fits it. -/
  | cohortResume (cohort : Nat) (core : Nat)
  /-- WARP_RETIREMENT (R104). Once every thread is finished and its replies have arrived, the warp returns its resources. -/
  | warpRetirement (cohort : Nat) (warp : Nat)
  /-- COHORT_RETIREMENT (R90). After the cohort's global writes have replied, the core records its stamp, releases its resources and reports to Belfry. -/
  | cohortRetirement (cohort : Nat)
  /-- LAUNCH_ACCEPTANCE (R395). Belfry claims a launch message, reads the record and arguments once and assigns the sequence number and age stamps. -/
  | launchAcceptance (ctx : Nat) (mailbox : Nat)
  /-- DISPATCH_DECISION (R397). Belfry admits the head of the queue of highest effective priority and oldest age to a fitting core. -/
  | dispatchDecision
  /-- RECORD_ARRIVAL (R407). Belfry's agent accepts a spawned record into its node's bin. -/
  | recordArrival (op : Nat)
  /-- BIN_TIMER_EXPIRY (R408). TIMER dispatcher-local cycles after its oldest record arrived, a bin emits a batch. -/
  | binTimerExpiry (launch : Nat) (node : Nat)
  /-- RESIDENCY_REPORT (R412). An agent reports residency-table changes to Belfry for placement. -/
  | residencyReport (core : Nat)
  /-- UNDO_RESTORE (R418). Once a wounded task's accesses have replied, its undo records are restored in reverse, its sets released and the task re-queued. -/
  | undoRestore (cohort : Nat)
  /-- SET_HANDOFF (R417). A released set is acquired by the oldest waiting task. -/
  | setHandoff (ctx : Nat) (decl : Nat)
  /-- SEAL_RECORD (R420). Belfry's agent records a task's seal, releasing held irrevocable actions. -/
  | sealRecord (cohort : Nat)
  /-- HOME_LOAD_REQUEST (R301). A miss at the home grants a lease window and returns data and the write stamp. -/
  | homeLoadRequest (op : Nat) (part : Nat)
  /-- STORE_PERFORM (R303). A store, scatter element or contribution performs at the home and takes a stamp above every granted lease. -/
  | storePerform (op : Nat) (part : Nat)
  /-- ATOMIC_PERFORM (R313). A global atomic reads, modifies and writes its location at the home indivisibly. -/
  | atomicPerform (op : Nat) (part : Nat)
  /-- WAITC_POLL (R312). Every 256 core cycles a polling WAITC reads its word at the home. -/
  | waitcPoll (op : Nat)
  /-- L2_EVICTION (R248). An L2 slice evicts a line, writing dirty data to HBM and raising its stamp floor. -/
  | l2Eviction (line : Nat)
  /-- REMOTE_DATA_CACHE_FILL (R249). A fill reply installs a line in the remote-data cache and serves the waiting requests. -/
  | remoteDataCacheFill (op : Nat) (part : Nat)
  /-- REDC_CONTRIBUTION (R338). The home counts a contribution toward the line's open round. -/
  | redcContribution (op : Nat) (part : Nat)
  /-- MAILBOX_RESERVE (R348). At the header's home, a producer reserves a slot once the ring has room. -/
  | mailboxReserve (op : Nat)
  /-- MAILBOX_TAIL_ADVANCE (R348). Once TAIL equals the reserved index and the message has replied, TAIL advances. -/
  | mailboxTailAdvance (op : Nat)
  /-- MAILBOX_HEAD_RELEASE (R349). Once HEAD equals the claimed index, HEAD advances. -/
  | mailboxHeadRelease (op : Nat)
  /-- STREAM_FILL_START (R262). The filler starts the lowest unfilled item in an EMPTY slot. -/
  | streamFillStart (cohort : Nat) (stream : Nat)
  /-- STREAM_FILL_COMPLETE (R262). A filled slot becomes FULL in item order and enters the residency table. -/
  | streamFillComplete (cohort : Nat) (stream : Nat) (slot : Nat)
  /-- STREAM_STORE_START (R262). The storer starts writing a DONE slot back. -/
  | streamStoreStart (cohort : Nat) (stream : Nat) (slot : Nat)
  /-- STREAM_STORE_COMPLETE (R262). Once every storer write has replied, the slot returns to EMPTY. -/
  | streamStoreComplete (cohort : Nat) (stream : Nat) (slot : Nat)
  /-- ENGINE_COMMAND_COMPLETION (R279). An engine command completes, writing its future's value and raising the warp's view and H. -/
  | engineCommandCompletion (op : Nat)
  /-- MATRIX_COMMAND_START (R361). The sequencer starts the next queued matrix command after the previous one completes. -/
  | matrixCommandStart (core : Nat)
  /-- MATRIX_COMMAND_COMPLETION (R361). A matrix command makes its last write and completes. -/
  | matrixCommandCompletion (core : Nat)
  /-- MATRIX_OWNERSHIP_GRANT (R380). A stalled MMCFG claim is granted, by age, when the unit becomes free. -/
  | matrixOwnershipGrant (core : Nat)
  /-- SYNC_START (R451). Rotunda starts the next sync of a world, sorts its entries by key and checks space. -/
  | syncStart (ctx : Nat) (world : Nat)
  /-- SYNC_STALL_RELEASE (R453). A stalled sync resumes once CPREV is 0, then applies, compacts and publishes. -/
  | syncStallRelease (ctx : Nat) (world : Nat)
  /-- WORLD_REGISTRATION (R442). A nonzero write to WORLDn makes Rotunda validate the descriptor and create table 0. -/
  | worldRegistration (ctx : Nat) (world : Nat) (addr : Nat)
  /-- WORLD_DEREGISTRATION (R442). A zero write to WORLDn requests deregistration of the world. -/
  | worldDeregistration (ctx : Nat) (world : Nat)
  /-- DEREGISTRATION_EFFECT (R442). Deregistration takes effect once no cursor is open and no sync is running. -/
  | deregistrationEffect (ctx : Nat) (world : Nat)
  /-- SAVE_PHASE_COMPLETION (R152). The save phase ends with the context SAVED and the CTXSAVE status written. -/
  | savePhaseCompletion (ctx : Nat)
  /-- LOAD_PHASE_COMPLETION (R152). The load phase ends with the context ACTIVE and its cohorts eligible to resume. -/
  | loadPhaseCompletion (ctx : Nat)
  /-- CTXCTL_CREATE (R512). CTXCTL 1 moves a FREE context to ACTIVE. -/
  | ctxctlCreate (ctx : Nat)
  /-- TLBINV_COMPLETE (R157). Once the entries are dropped and every access using them has replied, BUSY clears. -/
  | tlbinvComplete (fn : Nat)
  /-- HCALL_POST (R515). Once the ring has room, a 32-byte call record is written and TAIL advances. -/
  | hcallPost (op : Nat)
  /-- HCALL_REPLY (R515). A TAG write delivers the reply value to the calling warp. -/
  | hcallReply (tag : Nat) (value : Nat)
  /-- REGISTER_WRITE (R512). A BAR0 write to a register with no behaviour of its own stores a checked value. -/
  | registerWrite (fn : Nat) (off : Nat) (value : Nat)
  /-- HOST_WRITE (R321). A host write performs at the home with Vreq 0 and removes every cached copy. -/
  | hostWrite (fn : Nat) (off : Nat) (data : List (BitVec 8))
  /-- HOST_READ (R513). A BAR2 read is served at the home with Vreq 0. -/
  | hostRead (fn : Nat) (off : Nat) (len : Nat)
  /-- FIRMWARE_ACTIVATION (R519). Once the controller has no command in flight, the new image becomes active. -/
  | firmwareActivation (controller : Nat)
  /-- SPARE_SUBSTITUTION (R147). Once every cohort of a drained core is saved or retired, a spare takes its logical number. -/
  | spareSubstitution (core : Nat)
  /-- FETCH_FAULT (R25). A fetch at a PC that fails translation or finds X = 0 raises the memory fault before any field is examined. -/
  | fetchFault (core : Nat) (slot : Nat)
  /-- UNASSIGNED_OPCODE (R45). An instruction word whose OPC names an unassigned, group-14 or unclaimed group-15 slot raises the illegal-instruction trap. -/
  | unassignedOpcode (core : Nat) (slot : Nat)
  /-- NODE_REGISTRATION (R81). The loader registers a node entry with Belfry, creating the node that TSPAWN checks and bins. -/
  | nodeRegistration (ctx : Nat) (addr : Nat)
  /-- ATS_INVALIDATION (R514). A host invalidation request completes after the accesses that used the entry have replied. -/
  | atsInvalidation (pasid : Nat) (addr : Nat)
  /-- GET_VERSION (R516). SPDM request answered over DOE. -/
  | getVersion
  /-- GET_CAPABILITIES (R516). SPDM request answered over DOE. -/
  | getCapabilities
  /-- NEGOTIATE_ALGORITHMS (R516). SPDM request answered over DOE. -/
  | negotiateAlgorithms
  /-- GET_DIGESTS (R516). SPDM request answered over DOE. -/
  | getDigests
  /-- GET_CERTIFICATE (R516). SPDM request answered over DOE. -/
  | getCertificate (slot : Nat)
  /-- CHALLENGE (R516). SPDM challenge signed with the Ed25519 identity key. -/
  | challenge (nonce : Nat)
  /-- GET_MEASUREMENTS (R516). Reports the SHA-512 measurements of the controllers' active firmware. -/
  | getMeasurements (index : Nat)
  /-- FIRMWARE_IMAGE_ACCEPT (R519). A signed image is verified and accepted into the inactive slot. -/
  | firmwareImageAccept (controller : Nat) (image : List (BitVec 8)) (signature : Nat)
  /-- LANE_RECALIBRATION (R520). A port recalibrates one lane while carrying traffic on the other three. -/
  | laneRecalibration (port : Nat) (lane : Nat)
  /-- PSEUDO_CHANNEL_RETIREMENT (R520). An HBM pseudo-channel is retired after its data has been copied. -/
  | pseudoChannelRetirement (stack : Nat) (channel : Nat)
  /-- ROW_SPARING (R520). An HBM row is spared after its data has been copied. -/
  | rowSparing (stack : Nat) (row : Nat)
  /-- CORE_DRAIN (R520). A core is drained by pre-empting its cohorts. -/
  | coreDrain (core : Nat)
  /-- MODULE_REMOVAL (R520). A module leaves its tray; requests to it fail with cause 1 and others are rerouted. -/
  | moduleRemoval (peer : Nat)
  /-- MODULE_REPLACEMENT (R520). A replacement module takes the module number after its memory is restored. -/
  | moduleReplacement (peer : Nat)
  /-- ROUTE_CHANGE (R517). After the loss of a lane, port or module, the fabric reroutes within 500 µs. -/
  | routeChange (port : Nat)
  /-- FABRIC_TIMEOUT (R517). A request undelivered within 2 ms fails under R127: one of an operation's parts by its index, or, past the last, the step it has to make at a mailbox's header. -/
  | fabricTimeout (op : Nat) (part : Nat) (cause : Nat)
  /-- MODULE_RESET (R300). Resets stamps, floors and the age-stamp counter. -/
  | moduleReset
  /-- MODULE_NUMBER_ASSIGNMENT (R511). The fabric manager sets the module's MODULE number, which %module then returns. -/
  | moduleNumberAssignment (number : Nat)
  /-- FUNCTION_RESET (R22). A reset of one PCI Express function, after which that function's capability list may be built anew. -/
  | functionReset (fn : Nat) (withheld : List (Nat))
  /-- INTSTAT_CLEAR (R511). Write-one-to-clear of interrupt status bits. -/
  | intstatClear (fn : Nat) (mask : Nat)
  /-- VFPRE_PREEMPT (R153). Pre-empts a virtual function, saving every ACTIVE context to VFSAVE. -/
  | vfprePreempt (vf : Nat)
  /-- VFPRE_RESUME (R153). Resumes a pre-empted virtual function's contexts. -/
  | vfpreResume (vf : Nat)
  /-- TLBINV_PAGE (R157). TLBINV mode 0 invalidates one page's TLB entries. -/
  | tlbinvPage (fn : Nat) (ctx : Nat) (page : Nat)
  /-- TLBINV_CONTEXT (R157). TLBINV mode 1 invalidates a whole context's TLB entries. -/
  | tlbinvContext (fn : Nat) (ctx : Nat)
  /-- TLBINV_FUNCTION (R157). TLBINV mode 2 invalidates a whole function's TLB entries. -/
  | tlbinvFunction (fn : Nat)
  /-- SOFT_ERROR_MARK (R371). An uncorrectable soft error arises of itself in an accumulator element, register, cached weight table or saved or control state and marks it. -/
  | softErrorMark (target : SoftTarget)
  /-- EGRANT (R518). Adds energy to the allowance, first paying off EDEBT. -/
  | egrant (ctx : Nat) (amount : Nat)
  /-- ENERGY_DEBIT (R518). The power manager debits a cohort's measured energy from its reservation, the allowance or EDEBT. -/
  | energyDebit (cohort : Nat) (amount : Nat)
  /-- CTXCTL_PREEMPT (R512). CTXCTL 3 requests pre-emption of every resident cohort of the context. -/
  | ctxctlPreempt (ctx : Nat)
  /-- CTXCTL_RESET (R512). CTXCTL 2 ends every cohort unsaved and returns the context to FREE. -/
  | ctxctlReset (ctx : Nat)
  deriving DecidableEq, Repr

end Sys2Proof
end

