-- ==== Sys2Proof/WellFormed.lean ====
section
/-! DEFINITION. Legal encodings: which operand kinds, MOD codes and IMM fields each instruction accepts, and the
checks of spec 02 R48 in their order. `WellFormed` is what the checks 1, 4, 5, 7, 8 and 9, which read the word alone,
leave; checks 3, 6 and 10 also read the function's capabilities, the warp's allocation and the context. -/

namespace Sys2Proof

/-! ## Fields of IMM (spec 02 R34) -/

/-- Bits [hi:lo] of IMM as a number. -/
def Fields.immBits (f : Fields) (hi lo : Nat) : Nat := (f.imm.toNat / 2 ^ lo) % 2 ^ (hi + 1 - lo)

/-- OPT, IMM[31:24] of forms R and C. -/
def Fields.opt (f : Fields) : Nat := f.immBits 31 24

/-- The rounding code, IMM[14:12]. -/
def Fields.rc (f : Fields) : Nat := f.immBits 14 12

/-- SAT, IMM[15]. -/
def Fields.sat (f : Fields) : Bool := f.immBits 15 15 = 1

/-- The type code or mode, MOD. -/
def Fields.modn (f : Fields) : Nat := f.mod.toNat

/-- The kind a KIND code names (spec 02 R30). -/
def Kind.ofCode : Nat → Kind
  | 0 => .vec | 1 => .scalar | 2 => .pred | 3 => .acc | 4 => .imm | 5 => .karg | 6 => .special | _ => .none

/-- The code of a kind (spec 02 R30). -/
def Kind.code : Kind → Nat
  | .vec => 0 | .scalar => 1 | .pred => 2 | .acc => 3 | .imm => 4 | .karg => 5 | .special => 6 | .none => 7

/-- A 12-bit operand field read as KIND and IDX (spec 02 R30). -/
def Operand.ofNat (n : Nat) : Operand := { kind := Kind.ofCode (n / 512 % 8), idx := BitVec.ofNat 9 n }

/-- The third source of form C, IMM[11:0] (spec 02 R34). -/
def Fields.third (f : Fields) : Operand := Operand.ofNat (f.immBits 11 0)

/-- The field value 0xE00 of an unused operand field (spec 02 R31). -/
def Operand.unused : Operand := { kind := .none, idx := 0 }

/-! ## Operand positions -/

/-- What one operand position accepts: the kinds; the alignment of a vector index (2 for a pair, 4 for a quad) and
whether vz is taken whatever the alignment; the alignment and the highest index of a scalar; and whether kind 5 is
read in a scalar position (spec 02 R31, R32; 15 R268, R278; 17 R332, R334). -/
structure Pos where
  kinds : List Kind
  valign : Nat := 1
  vz : Bool := false
  salign : Nat := 1
  smax : Nat := 511
  scalarPos : Bool := false
  deriving DecidableEq, Repr

/-- Check 4 of spec 02 R48: the kind and the register alignment of one position. An even scalar index above 63 in a pair or
oct position fails both the position's rule (check 4) and the range of R30 (check 5): that check 4, the earlier, is the one
reported is the model's reading (DEDUCED, log 55). -/
def Pos.accepts (p : Pos) (o : Operand) : Bool :=
  p.kinds.contains o.kind &&
    match o.kind with
    | .vec => o.idx.toNat % p.valign = 0 || (p.vz && o.idx.toNat = 255)
    | .scalar => o.idx.toNat % p.salign = 0 && o.idx.toNat ≤ p.smax
    | .none => o.idx.toNat = 0
    | .pred | .acc | .imm | .karg | .special => true

/-- Check 5 of spec 02 R48: IDX inside the range R30 gives the kind, and even for kind 5 in a scalar position. -/
def Pos.inRange (p : Pos) (o : Operand) : Bool :=
  match o.kind with
  | .vec => o.idx.toNat ≤ 255
  | .scalar => o.idx.toNat ≤ 63
  | .pred => o.idx.toNat ≤ 7
  | .acc => o.idx.toNat ≤ 3
  | .imm => true
  | .karg => !p.scalarPos || o.idx.toNat % 2 = 0
  | .special => o.idx.toNat ≤ 23
  | .none => o.idx.toNat = 0

/-- Check 6 of spec 02 R48 for a warp whose allocation is `alloc`. A pair or quad starts at a multiple of its size,
and an allocation is a multiple of 8, so its first register decides (spec 04 R91, 15 R269). -/
def Operand.allocated (o : Operand) (alloc : Nat) : Bool :=
  match o.kind with
  | .vec => o.idx.toNat < alloc || o.idx.toNat = 255
  | .scalar | .pred | .acc | .imm | .karg | .special | .none => true

/-- A field that must hold 0xE00. -/
def posNone : Pos := { kinds := [.none] }
/-- A vector source of groups 2 to 5, "V" (spec 11 R204, 12 R219). -/
def posV : Pos := { kinds := [.vec, .scalar, .imm, .karg] }
/-- A scalar source, "S" (spec 11 R197, 23 R427). -/
def posS : Pos := { kinds := [.scalar, .imm, .karg], scalarPos := true }
/-- An address or offset: kind 1, or kind 5 in a scalar position (spec 23 R427, 20 R377). -/
def posAddr : Pos := { kinds := [.scalar, .karg], scalarPos := true }
/-- A vector destination. -/
def posVd : Pos := { kinds := [.vec] }
/-- A scalar register. -/
def posSd : Pos := { kinds := [.scalar] }
/-- A predicate. -/
def posP : Pos := { kinds := [.pred] }
/-- An even scalar pair from s0 to s60 (spec 15 R278). -/
def posPair : Pos := { kinds := [.scalar], salign := 2, smax := 60 }
/-- Eight scalars s(8k) to s(8k+7), k = 0 to 6 (spec 17 R332). -/
def posOct : Pos := { kinds := [.scalar], salign := 8, smax := 48 }
/-- A global base or a handle: a vector pair, kind 1, or kind 5 in a scalar position (spec 15 R270, 26 R464). -/
def posBase : Pos := { kinds := [.vec, .scalar, .karg], valign := 2, scalarPos := true }
/-- The index of form M (spec 15 R268). -/
def posIdx : Pos := { kinds := [.vec, .scalar, .none] }
/-- A vector data destination of `n` registers; vz discards it (spec 15 R268). -/
def posVout (n : Nat) : Pos := { kinds := [.vec], valign := n, vz := true }
/-- A run of vector registers that starts at a multiple of `n` (spec 20 R377, 29 R499). -/
def posRun (n : Nat) : Pos := { kinds := [.vec], valign := n }
/-- A scratchpad base: a vector or a scalar (spec 15 R268). -/
def posSp : Pos := { kinds := [.vec, .scalar] }
/-- A branch target (spec 05 R110). -/
def posTarget : Pos := { kinds := [.vec, .scalar, .karg] }
/-- A world or cursor number: one word, so no scalar position (spec 26 R464, 02 R32). -/
def posNum : Pos := { kinds := [.scalar, .imm, .karg] }
/-- A vector or a scalar destination. -/
def posVSd : Pos := { kinds := [.vec, .scalar] }
/-- An accumulator tile. -/
def posAcc : Pos := { kinds := [.acc] }

/-! ## Encodings -/

/-- The encoding rules of one instruction: its positions; the third source of form C; whether the form has a rounding
code (R and C); the capabilities the word needs; whether MOD and IMM hold accepted values; and whether a user context
may issue it (spec 02 R34, R47, R48). -/
structure Enc where
  dst : Pos := posNone
  sa : Pos := posNone
  sb : Pos := posNone
  third : Option Pos := none
  formRC : Bool := false
  caps : List Nat := []
  modOk : Bool
  immOk : Bool
  priv : Bool := false
  deriving DecidableEq, Repr

/-- The operand fields of a word with the positions they fill. -/
def Enc.slots (e : Enc) (f : Fields) : List (Pos × Operand) :=
  [(e.dst, f.dst), (e.sa, f.sa), (e.sb, f.sb)] ++
    match e.third with
    | some p => [(p, f.third)]
    | none => []

/-- The first check of spec 02 R48 that fails, for a function with capabilities `cap`, an allocation `alloc` and a
context that is a user context or not. Check 2 is the decoder's. -/
def Enc.firstFail (e : Enc) (f : Fields) (cap : Nat → Bool) (alloc : Nat) (user : Bool) : Option Nat :=
  if f.rsv ≠ 0 then some 1
  else if !(e.caps.all cap) then some 3
  else if !((e.slots f).all fun x => x.1.accepts x.2) then some 4
  else if !((e.slots f).all fun x => x.1.inRange x.2) then some 5
  else if !((e.slots f).all fun x => x.2.allocated alloc) then some 6
  else if e.formRC && f.rc > 4 then some 7
  else if !e.modOk then some 8
  else if !e.immOk then some 9
  else if e.priv && user then some 10
  else none

/-! ## Type codes (spec 02 R39) -/

/-- Codes of binary8 types. -/
def codesB8 : List Nat := [8, 9, 10, 11, 12, 13, 14, 16, 17, 18, 19, 20, 21, 22]
/-- Codes of binary4 types. -/
def codesB4 : List Nat := [24, 25, 26]
/-- Codes of every floating type. -/
def codesFloat : List Nat := [0, 1, 2] ++ codesB8 ++ codesB4
/-- Codes of the integer types of group 4 (spec 12 R231). -/
def codesInt : List Nat := [3, 4, 30, 31, 28, 29, 32, 33]

/-- Capability 0x0005 when a code names a binary4 type (spec 01 R24, 02 R48 check 3). -/
def b4Cap (code : Nat) : List Nat := if codesB4.contains code then [5] else []

/-! ## IMM of each form -/

/-- IMM of form R: OPT accepted, bits [23:16] and [11:0] zero, SAT and a rounding code only where they are defined. -/
def immR (optOk sat rnd : Bool) (f : Fields) : Bool :=
  optOk && f.immBits 23 16 = 0 && f.immBits 11 0 = 0 && (sat || !f.sat) && (rnd || f.rc = 0)

/-- IMM of form C: as form R, with the third source in [11:0]. -/
def immC (optOk sat rnd : Bool) (f : Fields) : Bool :=
  optOk && f.immBits 23 16 = 0 && (sat || !f.sat) && (rnd || f.rc = 0)

/-- IMM of form M: bits [31:29] zero; ACQ, scope and retention only where the table has them. -/
def immM (acq scope ret : Bool) (f : Fields) : Bool :=
  f.immBits 31 29 = 0 && (acq || f.immBits 28 28 = 0) && (scope || f.immBits 27 26 = 0) &&
    (ret || f.immBits 25 24 = 0)

/-- Only the bits of `mask` may be nonzero. -/
def immMask (mask : Nat) (f : Fields) : Bool := f.imm &&& ~~~(BitVec.ofNat 32 mask) = 0

/-! ## Group encodings -/

/-- A source position under a type code: kind 4 is accepted under no floating code but F32, F16 and BF16 (spec 02 R31). -/
def Pos.under (code : Nat) (p : Pos) : Pos :=
  if (codesB8 ++ codesB4).contains code then { p with kinds := p.kinds.filter (· ≠ .imm) } else p

/-- Form R with the type code of its destination in MOD (group 4). -/
def encR4 (types : List Nat) (dst sa sb : Pos) (optOk sat rnd : Bool) (f : Fields) : Enc :=
  { dst, sa, sb, formRC := true, caps := b4Cap f.modn, modOk := types.contains f.modn,
    immOk := immR optOk sat rnd f }

/-- Form R with the type code of its sources in MOD (groups 1 to 3). A MOD that the instruction does not accept still names
the type for check 4, which comes before check 8. -/
def encR (types : List Nat) (dst sa sb : Pos) (optOk sat rnd : Bool) (f : Fields) : Enc :=
  encR4 types dst (sa.under f.modn) (sb.under f.modn) optOk sat rnd f

/-- Form C with the type code of its sources in MOD. -/
def encC (types : List Nat) (dst sa sb third : Pos) (optOk sat rnd : Bool) (f : Fields) : Enc :=
  { dst, sa := sa.under f.modn, sb := sb.under f.modn, third := some (third.under f.modn), formRC := true
    caps := b4Cap f.modn, modOk := types.contains f.modn, immOk := immC optOk sat rnd f }

/-- Form R whose MOD is a mode (groups 0, 5, 11 and 13). -/
def encRMode (modes : Nat) (dst sa sb : Pos) (optOk : Bool) (f : Fields) : Enc :=
  { dst, sa, sb, formRC := true, modOk := f.modn < modes, immOk := immR optOk false false f }

/-- A form without a rounding code: MOD below `modes`, IMM inside `mask`. -/
def encI (modes mask : Nat) (dst sa sb : Pos) (f : Fields) : Enc :=
  { dst, sa, sb, modOk := f.modn < modes, immOk := immMask mask f }

/-- Scalar types of group 1. -/
def tS : List Nat := [3, 4, 5, 6]
/-- 32-bit types of group 2. -/
def tI : List Nat := [3, 4]
/-- Standard float types of group 3. -/
def tF : List Nat := [0, 1, 2]

/-- A two-source scalar instruction (spec 11 R198). -/
def encScalar2 (sat : Bool) (f : Fields) : Enc := encR tS posSd posS posS (f.opt = 0) sat false f
/-- A one-source scalar instruction. -/
def encScalar1 (f : Fields) : Enc := encR tS posSd posS posNone (f.opt = 0) false false f
/-- A two-source vector integer instruction (spec 11 R205). -/
def encInt2 (sat : Bool) (f : Fields) : Enc := encR tI posVd posV posV (f.opt = 0) sat false f
/-- A one-source vector integer instruction. -/
def encInt1 (sat : Bool) (f : Fields) : Enc := encR tI posVd posV posNone (f.opt = 0) sat false f
/-- A two-source float instruction (spec 12 R221). -/
def encFloat2 (sat rnd : Bool) (f : Fields) : Enc := encR tF posVd posV posV (f.opt = 0) sat rnd f
/-- A one-source float instruction. -/
def encFloat1 (types : List Nat) (sat rnd : Bool) (f : Fields) : Enc :=
  encR types posVd posV posNone (f.opt = 0) sat rnd f

/-- The source type code of a group-4 word, OPT[5:0] (spec 12 R231). -/
def Fields.src (f : Fields) : Nat := f.opt % 64

/-- OPT of a group-4 word: the source listed, bit [6] zero, .INF only with a binary8 type (spec 12 R231). -/
def optConv (srcs : List Nat) (b8 : Bool) (f : Fields) : Bool :=
  srcs.contains f.src && f.opt / 64 % 2 = 0 && (b8 || f.opt < 128)

/-- The position of a group-4 source read as type code `src` (spec 12 R219). -/
def posConv (src : Nat) : Pos := posV.under src

/-- A group-4 conversion with a source type in OPT. -/
def encConv (dsts srcs : List Nat) (sb : Pos) (b8 satOk rndOk : Bool) (f : Fields) : Enc :=
  { encR4 dsts posVd (posConv f.src) sb (optConv srcs b8 f) satOk rndOk f with
    caps := b4Cap f.modn ++ b4Cap f.src }

/-- CVTN: INF, POS and SRC of OPT (spec 12 R235). -/
def optCvtn (f : Fields) : Bool :=
  let pos := f.opt / 4 % 4
  f.opt % 4 ≠ 3 && f.opt / 16 % 8 = 0 && (f.opt < 128 || codesB8.contains f.modn) &&
    (if [1, 2].contains f.modn then pos = 0 else if codesB8.contains f.modn then pos ≤ 1 else true)

/-- Registers a group-6 access of MOD takes in a vector image (spec 15 R269). -/
def memRegs (mod : Nat) : Nat := if mod = 3 then 2 else if mod = 4 then 4 else 1

/-- A group-6 encoding in form M (spec 15 R268). -/
def encM (mods : List Nat) (dst sa sb : Pos) (acq scope ret : Bool) (f : Fields) : Enc :=
  { dst, sa, sb, modOk := mods.contains f.modn, immOk := immM acq scope ret f }

/-- MOD of ATOM, ATOMS and SATOM: type [5:4] and operation [3:0]; FADD only with type 0 (spec 17 R333). -/
def atomMods (f : Fields) : Bool :=
  let op := f.modn % 16
  op ≤ 9 || (op = 10 && f.modn / 16 = 0)

/-- Whether an atomic's type is 64 bits wide (spec 17 R333). -/
def atom64 (f : Fields) : Bool := f.modn / 32 = 1

/-- Whether an atomic takes two operands: CAS, INCW or ADDB (spec 17 R334). -/
def atomTwo (f : Fields) : Bool := [7, 8, 9].contains (f.modn % 16)

/-- The operand position SB of ATOM and ATOMS, and of SATOM when `warp` (spec 17 R334). R334 lists kind 0, "the thread's
register", with no exception for SATOM, which acts for a warp and has no thread: SATOM accepts no kind 0 (DESIGN CHOICE, log
88). -/
def posAtom (warp : Bool) (f : Fields) : Pos :=
  if warp then
    if atomTwo f then posPair else { kinds := [.scalar, .imm, .karg], scalarPos := true }
  else if atomTwo f then
    { kinds := [.vec, .scalar], valign := if atom64 f then 4 else 2, salign := 2, smax := 60 }
  else { kinds := [.vec, .scalar, .imm, .karg], valign := if atom64 f then 2 else 1, scalarPos := atom64 f }

/-- ATOM and ATOMS (spec 17 R332). -/
def encAtom (base : Pos) (acq scope ret : Bool) (f : Fields) : Enc :=
  { dst := posVout (if atom64 f then 2 else 1), sa := base, sb := posAtom false f, modOk := atomMods f,
    immOk := immM acq scope ret f }

/-- REDC's value position (spec 17 R332). -/
def posRedc (f : Fields) : Pos :=
  { kinds := [.vec, .scalar, .imm, .karg], valign := if atom64 f then 2 else 1, scalarPos := atom64 f }

/-- BAR, BAR.ARV and BAR.WT: the mode IMM[5:4] is the constructor's; mode 3 reads as the plain BAR and fails check 9
(spec 17 R341). -/
def encBar (mode : Nat) (f : Fields) : Enc :=
  { modOk := f.modn = 0, immOk := immMask 0x3F3F f && f.immBits 5 4 = mode }

/-- The encoding rules of every instruction; `none` for the device's own events, which have no word. No rule says in which
position WAITC reads a kind-5 comparand (17 R332, R343; 02 R32): it is a scalar position here under every type, so that an odd
IDX fails check 5 (DESIGN CHOICE, log 89). -/
def encOf : Instr → Option Enc
  -- group 0 (spec 05 R110)
  | .nop f => some (encI 1 0xFFFFFFFF posNone posNone posNone f)
  | .bra f => some (encI 1 0xFFFFFFFF posNone posNone posNone f)
  | .brx f => some (encRMode 1 posNone posTarget posNone (f.opt = 0) f)
  | .call f => some (encI 1 0xFFFFFFFF posVd posNone posNone f)
  | .callx f => some (encRMode 1 posVd posTarget posNone (f.opt = 0) f)
  | .ret f => some (encRMode 1 posNone posTarget posNone (f.opt = 0) f)
  | .vbra f => some (encI 2 0xFFFFFFFF posNone posP posNone f)
  | .reform f => some (encI 1 0 posNone posNone posNone f)
  | .wconv f => some (encI 1 0 posNone posNone posNone f)
  | .exit f => some (encI 1 0 posNone posNone posNone f)
  | .yield f => some (encI 1 0xFFFF posNone posNone posNone f)
  | .loopd f => some (encI 1 0xFFFFFFFF posSd posNone posNone f)
  -- group 1 (spec 11 R198)
  | .sadd f | .ssub f | .smul f => some (encScalar2 true f)
  | .smulh f | .sdiv f | .srem f | .sand f | .sor f | .sxor f | .sshl f | .sshr f | .smin f | .smax f =>
    some (encScalar2 false f)
  | .scmp f => some (encR tS posP posS posS (f.opt ≤ 5) false false f)
  | .ssel f => some (encC tS posSd posS posS posS (f.opt = 0) false false f)
  | .smov f | .sclz f | .spopc f => some (encScalar1 f)
  | .smovi f => some (encI 3 0xFFFFFFFF posSd posNone posNone f)
  | .saddr f => some (encC [6] posSd posS posS posS (f.opt < 64) false false f)
  -- group 2 (spec 11 R205)
  | .iadd f | .isub f => some (encInt2 true f)
  | .imul f => some (encR tI posVd posV posV (f.opt ≤ 1) (f.opt = 0) false f)
  | .imad f => some (encC tI posVd posV posV posV (f.opt = 0) true false f)
  | .idiv f | .irem f | .imin f | .imax f | .iand f | .ior f | .ixor f | .ishl f | .ishr f | .irot f | .ibfx f =>
    some (encInt2 false f)
  | .iabs f | .ineg f => some (encInt1 true f)
  | .inot f | .ipopc f | .iclz f => some (encInt1 false f)
  | .icmp f => some (encR tI posP posV posV (f.opt ≤ 5) false false f)
  | .isel f => some (encC tI posVd posV posV posP (f.opt = 0) false false f)
  | .ibfi f => some (encC tI posVd posV posV posV (f.opt = 0) false false f)
  | .iaddc f => some (encC [4] posVd posV posV posP (f.opt < 8) false false f)
  | .idot4 f => some (encC [28, 29] posVd posV posV posV (f.opt ≤ 1) true false f)
  | .lea f => some (encC tI (posVout 2) { kinds := [.scalar, .vec], valign := 2 } posV posV (f.opt < 64) false false f)
  -- group 3 (spec 12 R221)
  | .fadd f | .fsub f | .fmul f | .fdiv f | .fldexp f => some (encFloat2 true true f)
  | .ffma f => some (encC tF posVd posV posV posV (f.opt = 0) true true f)
  | .fmin f | .fmax f => some (encFloat2 false false f)
  | .fcmp f => some (encR tF posP posV posV (f.opt < 8) false false f)
  | .frcp f => some (encFloat1 tF true true f)
  | .frsq f | .fsqrt f | .ffrc f | .frint f => some (encFloat1 tF false true f)
  | .fexp2 f | .flog2 f | .fsin f | .fcos f => some (encFloat1 [0] false false f)
  | .fclass f => some (encFloat1 tF false false f)
  | .hfma2 f => some (encC [1, 2] posVd posV posV posV (f.opt = 0) true true f)
  | .hadd2 f | .hmul2 f => some (encR [1, 2] posVd posV posV (f.opt = 0) true true f)
  -- group 4 (spec 12 R231)
  | .cvt f =>
    some (encConv codesFloat codesFloat posNone (codesB8.contains f.modn || codesB8.contains f.src) true true f)
  | .cvtfi f => some (encConv codesInt codesFloat posNone (codesB8.contains f.src) true true f)
  | .cvtif f => some (encConv codesFloat codesInt posNone (codesB8.contains f.modn) true true f)
  | .cvtn f => some (encR4 ([1, 2] ++ codesB8 ++ codesB4) posVd posV posV (optCvtn f) true true f)
  | .cvtw f =>
    let intDst := [3, 4].contains f.modn
    some (encConv [0, 1, 2, 3, 4]
      (if intDst then [28, 29, 32, 33] else codesB8 ++ codesB4 ++ [28, 29, 32, 33]) posV
      (codesB8.contains f.src) (!intDst) (!intDst) f)
  | .prmb f => some (encR4 [0] posVd posV posV (f.opt = 0) false false f)
  | .sclx f => some (encConv codesFloat [0, 1, 2] posNone (codesB8.contains f.modn) false false f)
  -- group 5 (spec 11 R211)
  | .mov f => some (encRMode 1 posVd posV posNone (f.opt = 0) f)
  | .movi f => some (encI 1 0xFFFFFFFF posVd posNone posNone f)
  | .movs f => some (encRMode 2 posVd posAddr posNone (f.opt = 0) f)
  | .rdl f => some (encRMode 2 posSd posVd posNum (f.opt = 0) f)
  | .shfl f => some (encRMode 4 posVd posVd posV (f.opt = 0) f)
  | .vote f => some (encRMode 3 posSd posP posNone (f.opt = 0) f)
  | .plop f => some (encI 1 0x7FF posP posP posP f)
  | .p2v f => some (encRMode 2 posVd posP posNone (f.opt = 0) f)
  | .v2p f => some (encRMode 1 posP posV posNone (f.opt = 0) f)
  | .rdsp f => some (encRMode 1 posVSd { kinds := [.special] } posNone (f.opt = 0) f)
  | .matchv f => some (encRMode 1 posVd posVd posNone (f.opt = 0) f)
  -- group 6 (spec 15 R268)
  | .ld f => some (encM [0, 1, 2, 3, 4, 8, 9] (posVout (memRegs f.modn)) posBase posIdx true true true f)
  | .st f => some (encM [0, 1, 2, 3, 4] (posRun (memRegs f.modn)) posBase posIdx false true true f)
  | .sld f => some (encM [0, 1, 2, 3, 8, 9, 10] posSd posAddr { kinds := [.scalar, .none] } true true true f)
  | .sst f => some (encM [0, 1, 2, 3] posSd posAddr { kinds := [.scalar, .none] } false true true f)
  | .lds f => some (encM [0, 1, 2, 3, 4, 8, 9] (posVout (memRegs f.modn)) posSp posIdx false false false f)
  | .sts f => some (encM [0, 1, 2, 3, 4] (posRun (memRegs f.modn)) posSp posIdx false false false f)
  | .ldk f =>
    some (encM [2, 3] { kinds := [.vec, .scalar], valign := if f.modn = 3 then 2 else 1, vz := true } posSp posNone
      false false false f)
  | .pref f =>
    some { encM [0] posNone posBase posIdx false true true f with
      immOk := immM false true true f && f.immBits 27 26 < 2 }
  | .evict f =>
    some { encM [0, 1] posNone posBase posIdx false true false f with
      immOk := immM false true false f && f.immBits 27 26 < 3 }
  -- group 7 (spec 15 R278, R283)
  | .acopy f =>
    let xf := f.immBits 5 4
    some { encI 1 0x03FF007F posSd posAddr posPair f with
      immOk := immMask 0x03FF007F f && f.immBits 3 0 < 4 && xf ≠ 3 &&
        (xf ≠ 1 || f.immBits 3 0 = 0) && (xf ≠ 2 || f.immBits 3 0 < 2) &&
        (xf = 1 || (f.immBits 6 6 = 0 && f.immBits 23 16 = 0)) }
  | .agath f | .ascat f | .ablkg f | .ablks f => some (encI 1 0x03000007 posSd posAddr posPair f)
  | .axpose f => some (encI 1 3 posSd posSd posPair f)
  | .subs f => some { encI 1 0x03000003 posSd posAddr posNone f with caps := [7] }
  | .slotw f => some { encI 1 3 posSd posNone posNone f with caps := [7] }
  | .slotf f => some { encI 1 3 posNone posSd posNone f with caps := [7] }
  | .ftest f => some (encI 1 0 posSd posSd posNone f)
  | .fcancel f => some (encI 1 0 posNone posSd posNone f)
  | .fwait f =>
    some { encI 4 0xFFFFFFFF posSd posNone posNone f with immOk := f.modn % 2 = 0 || f.immBits 31 31 = 0 }
  | .rfence f => some (encI 1 0 posSd posNone posNone f)
  -- group 8 (spec 17 R332)
  | .atom f => some (encAtom posBase true true true f)
  | .atoms f => some (encAtom posSp false false false f)
  | .satom f =>
    some { dst := posSd, sa := posAddr, sb := posAtom true f, modOk := atomMods f, immOk := immM true true true f }
  | .redc f =>
    some { dst := posPair, sa := posBase, sb := posRedc f,
           modOk := f.modn % 16 = 0 || f.modn = 10, immOk := immM false true true f }
  | .fence f => some (encI 1 3 posNone posNone posNone f)
  | .bar f => some (encBar 0 f)
  | .barArv f => some (encBar 1 f)
  | .barWt f => some (encBar 2 f)
  | .waitc f =>
    some { dst := posSd, sa := posAddr, sb := posS, modOk := f.modn < 32 && f.modn % 8 < 6,
           immOk := immM true true false f }
  | .succok f => some (encI 1 0 posNone posNone posNone f)
  | .waitpred f => some (encI 1 0 posSd posNone posNone f)
  | .mbxput f => some { sa := posAddr, sb := posOct, modOk := f.modn = 0, immOk := immM false false true f }
  | .mbxget f =>
    some { dst := posOct, sa := posAddr, sb := posSd, modOk := f.modn = 0, immOk := immM false true true f }
  -- group 9 (spec 20 R377)
  | .mmcfg f => some (encI 8 0xFFF posNone { kinds := [.scalar, .karg] } posNone f)
  | .mmcfgRel f => some { modOk := 8 ≤ f.modn && f.modn < 16, immOk := f.imm = 0 }
  | .mmzero f => some { modOk := f.modn < 48, immOk := f.imm = 0 }
  | .mmready f => some (encI 1 0 posNone posNone posNone f)
  | .mmloop f => some (encI 32 0xFFFFFFFF posNone posAddr posAddr f)
  | .mmscale f => some (encI 16 3 posNone posAddr posAddr f)
  | .mmdrain f =>
    some { dst := posRun 4, sa := posAcc, modOk := [0, 4, 16, 20].contains f.modn, immOk := immMask 0x7F7F f }
  | .mmstore f => some { sa := posAcc, sb := posAddr, modOk := [0, 4].contains f.modn, immOk := immMask 0x7F7F f }
  | .mmload f => some { dst := posAcc, sa := posRun 4, modOk := [0, 4].contains f.modn, immOk := immMask 0x7F7F f }
  | .mmwait f => some (encI 1 0 posNone posNone posNone f)
  | .mmstat f => some (encI 2 0 posSd posNone posNone f)
  -- group 10 (spec 26 R464)
  | .wspawn f => some { encI 1 0xFFFF posSd posNum (posVout 2) f with caps := [1] }
  | .wkill f => some { encI 1 0xFFFF posSd posBase posNone f with caps := [1] }
  | .waddc f => some { encI 1 0x03FFFFFF posSd posBase posV f with caps := [1] }
  | .wremc f => some { encI 1 0x03FFFFFF posSd posBase posNone f with caps := [1] }
  | .wsync f => some { encI 1 0 posSd posNum posNone f with caps := [1] }
  | .wqry f => some { encI 1 0 posSd posAddr posNone f with caps := [1] }
  | .wnext f => some { encI 1 0 posSd posNum posSd f with caps := [1] }
  | .wclose f => some { encI 1 0 posSd posNum posNone f with caps := [1] }
  | .wres f => some { encI 1 0 posSd posBase posSd f with caps := [1] }
  | .wcol f => some { encI 1 0x3FF posSd posBase (posVout 2) f with caps := [1] }
  -- group 11 (spec 23 R427)
  | .tspawn f => some (encI 1 0 posSd posAddr posPair f)
  | .wdnext f => some (encI 1 0 posSd posAddr posSd f)
  | .resq f => some (encRMode 1 posSd posAddr posNone (f.opt = 0) f)
  | .respin f => some (encRMode 2 posSd posAddr posNone (f.opt = 0) f)
  | .asdecl f => some { encRMode 1 posSd posAddr posS (f.opt = 0) f with caps := [4] }
  | .asseal f => some { encI 1 0 posNone posNone posNone f with caps := [4] }
  | .asstat f => some { encRMode 2 posSd (if f.modn = 1 then posNone else posS) posNone (f.opt = 0) f with caps := [4] }
  | .reggrow f | .regshr f => some (encRMode 1 posSd posS posNone (f.opt = 0) f)
  | .prio f => some (encI 1 0x1F posNone posNone posNone f)
  | .launch f => some (encI 1 0 posSd posAddr posNone f)
  -- group 12 (spec 29 R499)
  | .texs f =>
    some { encI 1 0x030000FF posSd posAddr (posRun 2) f with immOk := immMask 0x030000FF f && f.immBits 1 0 = 0 }
  | .texl f =>
    some { encI 2 0x030000FF posSd posAddr (posRun (if f.modn = 1 then 8 else 4)) f with
      immOk := immMask 0x030000FF f && f.immBits 1 0 = 0 }
  | .texg f =>
    some { encI 1 0x030030FF posSd posAddr (posRun 2) f with immOk := immMask 0x030030FF f && f.immBits 1 0 = 0 }
  | .texq f => some { encI 1 0xFF posSd posAddr posVd f with immOk := immMask 0xFF f && f.immBits 1 0 = 0 }
  | .twfence f => some { encI 1 0 posSd posNone posNone f with caps := [2] }
  | .rayq f => some { encI 2 0x031FFFFF posSd posAddr (posRun 8) f with caps := [3] }
  | .texd f =>
    some { encI 1 0x030000FF posSd posAddr (posRun 4) f with
      caps := [2], immOk := immMask 0x030000FF f && f.immBits 1 0 = 0 }
  -- group 13 (spec 08 R162)
  | .trap f => some (encI 1 0xFFFFFFFF posNone posNone posNone f)
  | .tret f => some (encI 1 0 posNone posNone posNone f)
  | .rdtrap f => some (encRMode 1 posSd posNone posNone (f.opt < 4) f)
  | .preempt f => some (encI 16 0xFFFFFFFF posNone posSd posNone f)
  | .ctxsave f => some { encRMode 1 posSd posAddr posSd (f.opt = 0) f with priv := true }
  | .ctxload f => some { encRMode 1 posSd posAddr posSd (f.opt = 0) f with priv := true }
  | .rdsr f => some (encI 1 0xFFF posVSd posNone posNone f)
  | .wrsr f => some (encI 1 0xFFF posNone posS posNone f)
  | .caprd f => some (encRMode 1 posSd posAddr posNone (f.opt = 0) f)
  | .rdcyc f => some (encRMode 1 posVSd posNone posNone (f.opt = 0) f)
  | .ebud f => some { encRMode 1 posSd posNone posNone (f.opt = 0) f with caps := [8] }
  | .eresv f => some { encRMode 1 posSd posAddr posNone (f.opt = 0) f with caps := [8] }
  | .hcall f => some (encI 1 0xFFFF posSd posSd posNone f)
  -- the device's own events
  | .arbitrationRound _ _ | .runForcedBoundary _ _ | .binAgeExpiry _ _ | .yieldBackoffExpiry _ _
  | .hangTrap _ _ | .reggrowGrant _ | .reggrowFailure _ | .breakpoint _ _ | .trapDelivery _ _
  | .longInstructionCompletion _ | .cohortSave _ | .pfallExpiry _ | .cohortResume _ _ | .warpRetirement _ _
  | .cohortRetirement _ | .launchAcceptance _ _ | .dispatchDecision | .recordArrival _ | .binTimerExpiry _ _
  | .residencyReport _ | .undoRestore _ | .setHandoff _ _ | .sealRecord _ | .homeLoadRequest _ _
  | .storePerform _ _ | .atomicPerform _ _ | .waitcPoll _ | .l2Eviction _ | .remoteDataCacheFill _ _
  | .redcContribution _ _ | .mailboxReserve _ | .mailboxTailAdvance _ | .mailboxHeadRelease _
  | .streamFillStart _ _ | .streamFillComplete _ _ _ | .streamStoreStart _ _ _ | .streamStoreComplete _ _ _
  | .engineCommandCompletion _ | .matrixCommandStart _ | .matrixCommandCompletion _ | .matrixOwnershipGrant _
  | .syncStart _ _ | .syncStallRelease _ _ | .worldRegistration _ _ _ | .worldDeregistration _ _
  | .deregistrationEffect _ _ | .savePhaseCompletion _ | .loadPhaseCompletion _ | .ctxctlCreate _
  | .ctxctlReset _ | .ctxctlPreempt _ | .egrant _ _ | .energyDebit _ _ | .tlbinvPage _ _ _
  | .tlbinvContext _ _ | .tlbinvFunction _ | .tlbinvComplete _ | .vfprePreempt _ | .vfpreResume _
  | .intstatClear _ _ | .hcallPost _ | .hcallReply _ _ | .registerWrite _ _ _ | .hostWrite _ _ _
  | .hostRead _ _ _ | .atsInvalidation _ _ | .getVersion | .getCapabilities | .negotiateAlgorithms
  | .getDigests | .getCertificate _ | .challenge _ | .getMeasurements _ | .firmwareImageAccept _ _ _
  | .firmwareActivation _ | .laneRecalibration _ _ | .pseudoChannelRetirement _ _ | .rowSparing _ _
  | .coreDrain _ | .spareSubstitution _ | .moduleRemoval _ | .moduleReplacement _ | .routeChange _
  | .fabricTimeout _ _ _ | .moduleReset | .fetchFault _ _ | .unassignedOpcode _ _ | .nodeRegistration _ _
  | .softErrorMark _ | .moduleNumberAssignment _ | .functionReset _ _ => none

/-- The fields of an instruction's word; `none` for the device's own events. -/
def fieldsOf : Instr → Option Fields
  | .nop f | .bra f | .brx f | .call f | .callx f | .ret f | .vbra f | .reform f | .wconv f | .exit f
  | .yield f | .loopd f | .sadd f | .ssub f | .smul f | .smulh f | .sdiv f | .srem f | .sand f | .sor f
  | .sxor f | .sshl f | .sshr f | .smin f | .smax f | .scmp f | .ssel f | .smov f | .smovi f | .sclz f
  | .spopc f | .saddr f | .iadd f | .isub f | .imul f | .imad f | .idiv f | .irem f | .imin f | .imax f
  | .iabs f | .ineg f | .iand f | .ior f | .ixor f | .inot f | .ishl f | .ishr f | .irot f | .icmp f | .isel f
  | .ipopc f | .iclz f | .ibfx f | .ibfi f | .iaddc f | .idot4 f | .lea f | .fadd f | .fsub f | .fmul f
  | .ffma f | .fmin f | .fmax f | .fcmp f | .frcp f | .frsq f | .fsqrt f | .fdiv f | .fexp2 f | .flog2 f
  | .fsin f | .fcos f | .ffrc f | .frint f | .fclass f | .fldexp f | .hfma2 f | .hadd2 f | .hmul2 f | .cvt f
  | .cvtfi f | .cvtif f | .cvtn f | .cvtw f | .prmb f | .sclx f | .mov f | .movi f | .movs f | .rdl f
  | .shfl f | .vote f | .plop f | .p2v f | .v2p f | .rdsp f | .matchv f | .ld f | .st f | .sld f | .sst f
  | .lds f | .sts f | .ldk f | .pref f | .evict f | .acopy f | .agath f | .ascat f | .ablkg f | .ablks f
  | .axpose f | .subs f | .slotw f | .slotf f | .ftest f | .fcancel f | .fwait f | .rfence f | .atom f
  | .atoms f | .satom f | .redc f | .fence f | .bar f | .barArv f | .barWt f | .waitc f | .succok f
  | .waitpred f | .mbxput f | .mbxget f | .mmcfg f | .mmcfgRel f | .mmzero f | .mmready f | .mmloop f
  | .mmscale f | .mmdrain f | .mmstore f | .mmload f | .mmwait f | .mmstat f | .wspawn f | .wkill f | .waddc f
  | .wremc f | .wsync f | .wqry f | .wnext f | .wclose f | .wres f | .wcol f | .tspawn f | .wdnext f | .resq f
  | .respin f | .asdecl f | .asseal f | .asstat f | .reggrow f | .regshr f | .prio f | .launch f | .texs f
  | .texl f | .texg f | .texq f | .twfence f | .rayq f | .texd f | .trap f | .tret f | .rdtrap f | .preempt f
  | .ctxsave f | .ctxload f | .rdsr f | .wrsr f | .caprd f | .rdcyc f | .ebud f | .eresv f | .hcall f => some f
  | .arbitrationRound _ _ | .runForcedBoundary _ _ | .binAgeExpiry _ _ | .yieldBackoffExpiry _ _
  | .hangTrap _ _ | .reggrowGrant _ | .reggrowFailure _ | .breakpoint _ _ | .trapDelivery _ _
  | .longInstructionCompletion _ | .cohortSave _ | .pfallExpiry _ | .cohortResume _ _ | .warpRetirement _ _
  | .cohortRetirement _ | .launchAcceptance _ _ | .dispatchDecision | .recordArrival _ | .binTimerExpiry _ _
  | .residencyReport _ | .undoRestore _ | .setHandoff _ _ | .sealRecord _ | .homeLoadRequest _ _
  | .storePerform _ _ | .atomicPerform _ _ | .waitcPoll _ | .l2Eviction _ | .remoteDataCacheFill _ _
  | .redcContribution _ _ | .mailboxReserve _ | .mailboxTailAdvance _ | .mailboxHeadRelease _
  | .streamFillStart _ _ | .streamFillComplete _ _ _ | .streamStoreStart _ _ _ | .streamStoreComplete _ _ _
  | .engineCommandCompletion _ | .matrixCommandStart _ | .matrixCommandCompletion _ | .matrixOwnershipGrant _
  | .syncStart _ _ | .syncStallRelease _ _ | .worldRegistration _ _ _ | .worldDeregistration _ _
  | .deregistrationEffect _ _ | .savePhaseCompletion _ | .loadPhaseCompletion _ | .ctxctlCreate _
  | .ctxctlReset _ | .ctxctlPreempt _ | .egrant _ _ | .energyDebit _ _ | .tlbinvPage _ _ _
  | .tlbinvContext _ _ | .tlbinvFunction _ | .tlbinvComplete _ | .vfprePreempt _ | .vfpreResume _
  | .intstatClear _ _ | .hcallPost _ | .hcallReply _ _ | .registerWrite _ _ _ | .hostWrite _ _ _
  | .hostRead _ _ _ | .atsInvalidation _ _ | .getVersion | .getCapabilities | .negotiateAlgorithms
  | .getDigests | .getCertificate _ | .challenge _ | .getMeasurements _ | .firmwareImageAccept _ _ _
  | .firmwareActivation _ | .laneRecalibration _ _ | .pseudoChannelRetirement _ _ | .rowSparing _ _
  | .coreDrain _ | .spareSubstitution _ | .moduleRemoval _ | .moduleReplacement _ | .routeChange _
  | .fabricTimeout _ _ _ | .moduleReset | .fetchFault _ _ | .unassignedOpcode _ _ | .nodeRegistration _ _
  | .softErrorMark _ | .moduleNumberAssignment _ | .functionReset _ _ => none

/-- A word that passes every check of spec 02 R48 that reads the word alone. -/
def WellFormed (i : Instr) : Bool :=
  match encOf i, fieldsOf i with
  | some e, some f => e.firstFail f (fun _ => true) 256 false = none
  | _, _ => false

end Sys2Proof
end

