-- ==== Sys2Proof/Decode.lean ====
section
/-! DEFINITION. The decoder, total on any bytes, and after it the encoder, both from the field map of spec 02 R25,
R26 and the opcode map of R45. -/

namespace Sys2Proof

/-- The number a list of little-endian bytes holds (spec 00 R3). -/
def natOfBytes : List Byte → Nat
  | [] => 0
  | b :: r => b.toNat + 256 * natOfBytes r

/-- `n` little-endian bytes of a number (spec 00 R3). -/
def bytesOfNat : Nat → Nat → List Byte
  | 0, _ => []
  | n + 1, v => BitVec.ofNat 8 v :: bytesOfNat n (v / 256)

/-- Bytes in one instruction (spec 02 R25). -/
def instrBytes : Nat := 12

/-- GRD: [13] negate, [12:10] the predicate number (spec 02 R28). -/
def Guard.ofNat (n : Nat) : Guard := { neg := n / 8 % 2 = 1, pred := BitVec.ofNat 3 n }

/-- GRD as a number. -/
def Guard.toNat (g : Guard) : Nat := g.pred.toNat + 8 * g.neg.toNat

/-- An operand field as a number (spec 02 R30). -/
def Operand.toNat (o : Operand) : Nat := o.idx.toNat + 512 * o.kind.code

/-- OPC, bits [9:0] (spec 02 R26). -/
def opcOfWord (w : Nat) : Nat := w % 1024

/-- The fields beside OPC, taken apart as spec 02 R26 gives. -/
def fieldsOfWord (w : Nat) : Fields :=
  { grd := Guard.ofNat (w / 2 ^ 10 % 16)
    dst := Operand.ofNat (w / 2 ^ 14 % 4096)
    sa := Operand.ofNat (w / 2 ^ 26 % 4096)
    sb := Operand.ofNat (w / 2 ^ 38 % 4096)
    imm := BitVec.ofNat 32 (w / 2 ^ 50)
    mod := BitVec.ofNat 6 (w / 2 ^ 82)
    la := BitVec.ofNat 4 (w / 2 ^ 88)
    bnd := w / 2 ^ 92 % 2 = 1
    rsv := BitVec.ofNat 3 (w / 2 ^ 93) }

/-- The opcode map of spec 02 R45: the instruction an OPC names, none for an unassigned index or group 14 or 15.
Modes 1 and 2 of BAR are BAR.ARV and BAR.WT (17 R341); REL of MMCFG is MOD[3] (20 R377). -/
def instrOf (opc : Nat) (f : Fields) : Option Instr :=
  match opc with
  | 0x000 => some (.nop f)
  | 0x001 => some (.bra f)
  | 0x002 => some (.brx f)
  | 0x003 => some (.call f)
  | 0x004 => some (.callx f)
  | 0x005 => some (.ret f)
  | 0x006 => some (.vbra f)
  | 0x007 => some (.reform f)
  | 0x008 => some (.wconv f)
  | 0x009 => some (.exit f)
  | 0x00A => some (.yield f)
  | 0x00B => some (.loopd f)
  | 0x040 => some (.sadd f)
  | 0x041 => some (.ssub f)
  | 0x042 => some (.smul f)
  | 0x043 => some (.smulh f)
  | 0x044 => some (.sdiv f)
  | 0x045 => some (.srem f)
  | 0x046 => some (.sand f)
  | 0x047 => some (.sor f)
  | 0x048 => some (.sxor f)
  | 0x049 => some (.sshl f)
  | 0x04A => some (.sshr f)
  | 0x04B => some (.smin f)
  | 0x04C => some (.smax f)
  | 0x04D => some (.scmp f)
  | 0x04E => some (.ssel f)
  | 0x04F => some (.smov f)
  | 0x050 => some (.smovi f)
  | 0x051 => some (.sclz f)
  | 0x052 => some (.spopc f)
  | 0x053 => some (.saddr f)
  | 0x080 => some (.iadd f)
  | 0x081 => some (.isub f)
  | 0x082 => some (.imul f)
  | 0x083 => some (.imad f)
  | 0x084 => some (.idiv f)
  | 0x085 => some (.irem f)
  | 0x086 => some (.imin f)
  | 0x087 => some (.imax f)
  | 0x088 => some (.iabs f)
  | 0x089 => some (.ineg f)
  | 0x08A => some (.iand f)
  | 0x08B => some (.ior f)
  | 0x08C => some (.ixor f)
  | 0x08D => some (.inot f)
  | 0x08E => some (.ishl f)
  | 0x08F => some (.ishr f)
  | 0x090 => some (.irot f)
  | 0x091 => some (.icmp f)
  | 0x092 => some (.isel f)
  | 0x093 => some (.ipopc f)
  | 0x094 => some (.iclz f)
  | 0x095 => some (.ibfx f)
  | 0x096 => some (.ibfi f)
  | 0x097 => some (.iaddc f)
  | 0x098 => some (.idot4 f)
  | 0x099 => some (.lea f)
  | 0x0C0 => some (.fadd f)
  | 0x0C1 => some (.fsub f)
  | 0x0C2 => some (.fmul f)
  | 0x0C3 => some (.ffma f)
  | 0x0C4 => some (.fmin f)
  | 0x0C5 => some (.fmax f)
  | 0x0C6 => some (.fcmp f)
  | 0x0C7 => some (.frcp f)
  | 0x0C8 => some (.frsq f)
  | 0x0C9 => some (.fsqrt f)
  | 0x0CA => some (.fdiv f)
  | 0x0CB => some (.fexp2 f)
  | 0x0CC => some (.flog2 f)
  | 0x0CD => some (.fsin f)
  | 0x0CE => some (.fcos f)
  | 0x0CF => some (.ffrc f)
  | 0x0D0 => some (.frint f)
  | 0x0D1 => some (.fclass f)
  | 0x0D2 => some (.fldexp f)
  | 0x0D3 => some (.hfma2 f)
  | 0x0D4 => some (.hadd2 f)
  | 0x0D5 => some (.hmul2 f)
  | 0x100 => some (.cvt f)
  | 0x101 => some (.cvtfi f)
  | 0x102 => some (.cvtif f)
  | 0x103 => some (.cvtn f)
  | 0x104 => some (.cvtw f)
  | 0x105 => some (.prmb f)
  | 0x106 => some (.sclx f)
  | 0x140 => some (.mov f)
  | 0x141 => some (.movi f)
  | 0x142 => some (.movs f)
  | 0x143 => some (.rdl f)
  | 0x144 => some (.shfl f)
  | 0x145 => some (.vote f)
  | 0x146 => some (.plop f)
  | 0x147 => some (.p2v f)
  | 0x148 => some (.v2p f)
  | 0x149 => some (.rdsp f)
  | 0x14A => some (.matchv f)
  | 0x180 => some (.ld f)
  | 0x181 => some (.st f)
  | 0x182 => some (.sld f)
  | 0x183 => some (.sst f)
  | 0x184 => some (.lds f)
  | 0x185 => some (.sts f)
  | 0x186 => some (.ldk f)
  | 0x187 => some (.pref f)
  | 0x188 => some (.evict f)
  | 0x1C0 => some (.acopy f)
  | 0x1C1 => some (.agath f)
  | 0x1C2 => some (.ascat f)
  | 0x1C3 => some (.ablkg f)
  | 0x1C4 => some (.ablks f)
  | 0x1C5 => some (.axpose f)
  | 0x1C6 => some (.subs f)
  | 0x1C7 => some (.slotw f)
  | 0x1C8 => some (.slotf f)
  | 0x1C9 => some (.ftest f)
  | 0x1CA => some (.fcancel f)
  | 0x1CB => some (.fwait f)
  | 0x1CC => some (.rfence f)
  | 0x200 => some (.atom f)
  | 0x201 => some (.atoms f)
  | 0x202 => some (.satom f)
  | 0x203 => some (.redc f)
  | 0x204 => some (.fence f)
  | 0x205 => some (if f.immBits 5 4 = 1 then .barArv f else if f.immBits 5 4 = 2 then .barWt f else .bar f)
  | 0x206 => some (.waitc f)
  | 0x207 => some (.succok f)
  | 0x208 => some (.waitpred f)
  | 0x209 => some (.mbxput f)
  | 0x20A => some (.mbxget f)
  | 0x240 => some (if f.modn / 8 % 2 = 1 then .mmcfgRel f else .mmcfg f)
  | 0x241 => some (.mmzero f)
  | 0x242 => some (.mmready f)
  | 0x243 => some (.mmloop f)
  | 0x244 => some (.mmscale f)
  | 0x245 => some (.mmdrain f)
  | 0x246 => some (.mmstore f)
  | 0x247 => some (.mmload f)
  | 0x248 => some (.mmwait f)
  | 0x249 => some (.mmstat f)
  | 0x280 => some (.wspawn f)
  | 0x281 => some (.wkill f)
  | 0x282 => some (.waddc f)
  | 0x283 => some (.wremc f)
  | 0x284 => some (.wsync f)
  | 0x285 => some (.wqry f)
  | 0x286 => some (.wnext f)
  | 0x287 => some (.wclose f)
  | 0x288 => some (.wres f)
  | 0x289 => some (.wcol f)
  | 0x2C0 => some (.tspawn f)
  | 0x2C1 => some (.wdnext f)
  | 0x2C2 => some (.resq f)
  | 0x2C3 => some (.respin f)
  | 0x2C4 => some (.asdecl f)
  | 0x2C5 => some (.asseal f)
  | 0x2C6 => some (.asstat f)
  | 0x2C7 => some (.reggrow f)
  | 0x2C8 => some (.regshr f)
  | 0x2C9 => some (.prio f)
  | 0x2CA => some (.launch f)
  | 0x300 => some (.texs f)
  | 0x301 => some (.texl f)
  | 0x302 => some (.texg f)
  | 0x303 => some (.texq f)
  | 0x304 => some (.twfence f)
  | 0x305 => some (.rayq f)
  | 0x306 => some (.texd f)
  | 0x340 => some (.trap f)
  | 0x341 => some (.tret f)
  | 0x342 => some (.rdtrap f)
  | 0x343 => some (.preempt f)
  | 0x344 => some (.ctxsave f)
  | 0x345 => some (.ctxload f)
  | 0x346 => some (.rdsr f)
  | 0x347 => some (.wrsr f)
  | 0x348 => some (.caprd f)
  | 0x349 => some (.rdcyc f)
  | 0x34A => some (.ebud f)
  | 0x34B => some (.eresv f)
  | 0x34C => some (.hcall f)
  | _ => none

/-- What the decoder answers: the instruction and the bytes after it; or that OPC names no instruction (check 2 of
spec 02 R48); or that fewer than 12 bytes are there. -/
inductive Decoded where
  | instr (i : Instr) (rest : List Byte)
  | unassigned (opc : Nat)
  | short
  deriving DecidableEq, Repr

/-- Decode the 12 bytes at the head of a list (spec 02 R25, R26). -/
def decode (bs : List Byte) : Decoded :=
  if bs.length < instrBytes then .short
  else
    let w := natOfBytes (bs.take instrBytes)
    match instrOf (opcOfWord w) (fieldsOfWord w) with
    | some i => .instr i (bs.drop instrBytes)
    | none => .unassigned (opcOfWord w)

/-- The instruction read from a word numbered as the opcode table numbers it: bit 0 is the least significant bit of
the first 32-bit word; the bits above `nbits` are zero. -/
def decodeTableWord (nbits w : Nat) : Option Instr :=
  match decode (bytesOfNat instrBytes (w % 2 ^ nbits)) with
  | .instr i _ => some i
  | .unassigned _ => none
  | .short => none

/-! ## The encoder -/

/-- OPC of every instruction (spec 02 R45); `none` for the device's own events. -/
def opcOf : Instr → Option Nat
  | .nop _ => some 0x000
  | .bra _ => some 0x001
  | .brx _ => some 0x002
  | .call _ => some 0x003
  | .callx _ => some 0x004
  | .ret _ => some 0x005
  | .vbra _ => some 0x006
  | .reform _ => some 0x007
  | .wconv _ => some 0x008
  | .exit _ => some 0x009
  | .yield _ => some 0x00A
  | .loopd _ => some 0x00B
  | .sadd _ => some 0x040
  | .ssub _ => some 0x041
  | .smul _ => some 0x042
  | .smulh _ => some 0x043
  | .sdiv _ => some 0x044
  | .srem _ => some 0x045
  | .sand _ => some 0x046
  | .sor _ => some 0x047
  | .sxor _ => some 0x048
  | .sshl _ => some 0x049
  | .sshr _ => some 0x04A
  | .smin _ => some 0x04B
  | .smax _ => some 0x04C
  | .scmp _ => some 0x04D
  | .ssel _ => some 0x04E
  | .smov _ => some 0x04F
  | .smovi _ => some 0x050
  | .sclz _ => some 0x051
  | .spopc _ => some 0x052
  | .saddr _ => some 0x053
  | .iadd _ => some 0x080
  | .isub _ => some 0x081
  | .imul _ => some 0x082
  | .imad _ => some 0x083
  | .idiv _ => some 0x084
  | .irem _ => some 0x085
  | .imin _ => some 0x086
  | .imax _ => some 0x087
  | .iabs _ => some 0x088
  | .ineg _ => some 0x089
  | .iand _ => some 0x08A
  | .ior _ => some 0x08B
  | .ixor _ => some 0x08C
  | .inot _ => some 0x08D
  | .ishl _ => some 0x08E
  | .ishr _ => some 0x08F
  | .irot _ => some 0x090
  | .icmp _ => some 0x091
  | .isel _ => some 0x092
  | .ipopc _ => some 0x093
  | .iclz _ => some 0x094
  | .ibfx _ => some 0x095
  | .ibfi _ => some 0x096
  | .iaddc _ => some 0x097
  | .idot4 _ => some 0x098
  | .lea _ => some 0x099
  | .fadd _ => some 0x0C0
  | .fsub _ => some 0x0C1
  | .fmul _ => some 0x0C2
  | .ffma _ => some 0x0C3
  | .fmin _ => some 0x0C4
  | .fmax _ => some 0x0C5
  | .fcmp _ => some 0x0C6
  | .frcp _ => some 0x0C7
  | .frsq _ => some 0x0C8
  | .fsqrt _ => some 0x0C9
  | .fdiv _ => some 0x0CA
  | .fexp2 _ => some 0x0CB
  | .flog2 _ => some 0x0CC
  | .fsin _ => some 0x0CD
  | .fcos _ => some 0x0CE
  | .ffrc _ => some 0x0CF
  | .frint _ => some 0x0D0
  | .fclass _ => some 0x0D1
  | .fldexp _ => some 0x0D2
  | .hfma2 _ => some 0x0D3
  | .hadd2 _ => some 0x0D4
  | .hmul2 _ => some 0x0D5
  | .cvt _ => some 0x100
  | .cvtfi _ => some 0x101
  | .cvtif _ => some 0x102
  | .cvtn _ => some 0x103
  | .cvtw _ => some 0x104
  | .prmb _ => some 0x105
  | .sclx _ => some 0x106
  | .mov _ => some 0x140
  | .movi _ => some 0x141
  | .movs _ => some 0x142
  | .rdl _ => some 0x143
  | .shfl _ => some 0x144
  | .vote _ => some 0x145
  | .plop _ => some 0x146
  | .p2v _ => some 0x147
  | .v2p _ => some 0x148
  | .rdsp _ => some 0x149
  | .matchv _ => some 0x14A
  | .ld _ => some 0x180
  | .st _ => some 0x181
  | .sld _ => some 0x182
  | .sst _ => some 0x183
  | .lds _ => some 0x184
  | .sts _ => some 0x185
  | .ldk _ => some 0x186
  | .pref _ => some 0x187
  | .evict _ => some 0x188
  | .acopy _ => some 0x1C0
  | .agath _ => some 0x1C1
  | .ascat _ => some 0x1C2
  | .ablkg _ => some 0x1C3
  | .ablks _ => some 0x1C4
  | .axpose _ => some 0x1C5
  | .subs _ => some 0x1C6
  | .slotw _ => some 0x1C7
  | .slotf _ => some 0x1C8
  | .ftest _ => some 0x1C9
  | .fcancel _ => some 0x1CA
  | .fwait _ => some 0x1CB
  | .rfence _ => some 0x1CC
  | .atom _ => some 0x200
  | .atoms _ => some 0x201
  | .satom _ => some 0x202
  | .redc _ => some 0x203
  | .fence _ => some 0x204
  | .bar _ => some 0x205
  | .barArv _ => some 0x205
  | .barWt _ => some 0x205
  | .waitc _ => some 0x206
  | .succok _ => some 0x207
  | .waitpred _ => some 0x208
  | .mbxput _ => some 0x209
  | .mbxget _ => some 0x20A
  | .mmcfg _ => some 0x240
  | .mmcfgRel _ => some 0x240
  | .mmzero _ => some 0x241
  | .mmready _ => some 0x242
  | .mmloop _ => some 0x243
  | .mmscale _ => some 0x244
  | .mmdrain _ => some 0x245
  | .mmstore _ => some 0x246
  | .mmload _ => some 0x247
  | .mmwait _ => some 0x248
  | .mmstat _ => some 0x249
  | .wspawn _ => some 0x280
  | .wkill _ => some 0x281
  | .waddc _ => some 0x282
  | .wremc _ => some 0x283
  | .wsync _ => some 0x284
  | .wqry _ => some 0x285
  | .wnext _ => some 0x286
  | .wclose _ => some 0x287
  | .wres _ => some 0x288
  | .wcol _ => some 0x289
  | .tspawn _ => some 0x2C0
  | .wdnext _ => some 0x2C1
  | .resq _ => some 0x2C2
  | .respin _ => some 0x2C3
  | .asdecl _ => some 0x2C4
  | .asseal _ => some 0x2C5
  | .asstat _ => some 0x2C6
  | .reggrow _ => some 0x2C7
  | .regshr _ => some 0x2C8
  | .prio _ => some 0x2C9
  | .launch _ => some 0x2CA
  | .texs _ => some 0x300
  | .texl _ => some 0x301
  | .texg _ => some 0x302
  | .texq _ => some 0x303
  | .twfence _ => some 0x304
  | .rayq _ => some 0x305
  | .texd _ => some 0x306
  | .trap _ => some 0x340
  | .tret _ => some 0x341
  | .rdtrap _ => some 0x342
  | .preempt _ => some 0x343
  | .ctxsave _ => some 0x344
  | .ctxload _ => some 0x345
  | .rdsr _ => some 0x346
  | .wrsr _ => some 0x347
  | .caprd _ => some 0x348
  | .rdcyc _ => some 0x349
  | .ebud _ => some 0x34A
  | .eresv _ => some 0x34B
  | .hcall _ => some 0x34C
  | .arbitrationRound _ _ | .runForcedBoundary _ _ | .binAgeExpiry _ _ | .yieldBackoffExpiry _ _
  | .hangTrap _ _ | .reggrowGrant _ | .reggrowFailure _ | .breakpoint _ _ | .trapDelivery _ _
  | .longInstructionCompletion _ | .cohortSave _ | .pfallExpiry _ | .cohortResume _ _ | .warpRetirement _ _
  | .cohortRetirement _ | .launchAcceptance _ _ | .dispatchDecision | .recordArrival _ | .binTimerExpiry _ _
  | .residencyReport _ | .undoRestore _ | .setHandoff _ _ | .sealRecord _ | .homeLoadRequest _ _
  | .storePerform _ _ | .atomicPerform _ _ | .waitcPoll _ | .l2Eviction _ | .remoteDataCacheFill _ _
  | .redcContribution _ _ | .mailboxReserve _ | .mailboxTailAdvance _ | .mailboxHeadRelease _
  | .streamFillStart _ _ | .streamFillComplete _ _ _ | .streamStoreStart _ _ _ | .streamStoreComplete _ _ _
  | .engineCommandCompletion _ | .matrixCommandStart _ | .matrixCommandCompletion _ | .matrixOwnershipGrant _
  | .syncStart _ _ | .syncStallRelease _ _ | .worldRegistration _ _ _ | .worldDeregistration _ _
  | .deregistrationEffect _ _ | .savePhaseCompletion _ | .loadPhaseCompletion _ | .ctxctlCreate _
  | .ctxctlReset _ | .ctxctlPreempt _ | .egrant _ _ | .energyDebit _ _ | .tlbinvPage _ _ _
  | .tlbinvContext _ _ | .tlbinvFunction _ | .tlbinvComplete _ | .vfprePreempt _ | .vfpreResume _
  | .intstatClear _ _ | .hcallPost _ | .hcallReply _ _ | .registerWrite _ _ _ | .hostWrite _ _ _
  | .hostRead _ _ _ | .atsInvalidation _ _ | .getVersion | .getCapabilities | .negotiateAlgorithms
  | .getDigests | .getCertificate _ | .challenge _ | .getMeasurements _ | .firmwareImageAccept _ _ _
  | .firmwareActivation _ | .laneRecalibration _ _ | .pseudoChannelRetirement _ _ | .rowSparing _ _
  | .coreDrain _ | .spareSubstitution _ | .moduleRemoval _ | .moduleReplacement _ | .routeChange _
  | .fabricTimeout _ _ _ | .moduleReset | .fetchFault _ _ | .unassignedOpcode _ _ | .nodeRegistration _ _
  | .softErrorMark _ | .moduleNumberAssignment _ | .functionReset _ _ => none

/-- The 96-bit word of an OPC and its fields (spec 02 R26). -/
def wordOf (opc : Nat) (f : Fields) : Nat :=
  opc % 1024 + 2 ^ 10 * f.grd.toNat + 2 ^ 14 * f.dst.toNat + 2 ^ 26 * f.sa.toNat + 2 ^ 38 * f.sb.toNat +
    2 ^ 50 * f.imm.toNat + 2 ^ 82 * f.mod.toNat + 2 ^ 88 * f.la.toNat + 2 ^ 92 * f.bnd.toNat +
    2 ^ 93 * f.rsv.toNat

/-- The word of an instruction; `none` for the device's own events, which have none. -/
def encodeWord (i : Instr) : Option Nat :=
  match opcOf i, fieldsOf i with
  | some o, some f => some (wordOf o f)
  | _, _ => none

/-- The 12 bytes of an instruction, the first word at the lowest address (spec 02 R25); empty for an event. -/
def encode (i : Instr) : List Byte :=
  match encodeWord i with
  | some w => bytesOfNat instrBytes w
  | none => []

end Sys2Proof
end

