-- ==== Sys2Proof/Config.lean ====
section
/-! DEFINITION. What the implementation fixes, and the free values: what the spec leaves open. An opaque constant here
has no body, so a proof about it holds whatever it is. -/

namespace Sys2Proof.Config

/-! ## Figures of the module (spec 01) -/

/-- Enabled cores (01 R8). -/
def cores : Nat := 192
/-- Cores of one die (01 R8). -/
def coresPerDie : Nat := 48
/-- Bytes of a cache line (01 R11). -/
def lineBytes : Nat := 128
/-- Module HBM, 512 GiB (01 R10, 14 R241). -/
def hbmBytes : Nat := 2 ^ 39
/-- Entries of a core's issue-group table (04 R95). -/
def groupEntries : Nat := 160
/-- Bins of a core (04 R97). -/
def bins : Nat := 64
/-- Instructions after which a run ends (02 R43). -/
def runLimit : Nat := 24
/-- Records a trap queue holds (07 R131). -/
def trapQueue : Nat := 8
/-- Warp slots, vector units of 1 KiB and scratchpad units of 4 KiB of a core (04 R89). -/
def warpSlots : Nat := 64
def vectorUnits : Nat := 512
def scratchUnits : Nat := 320
/-- L1 sets and ways (14 R246). -/
def l1Sets : Nat := 128
def rdcSets : Nat := 16384
def l2Sets : Nat := 2048
def ways : Nat := 16
/-- STICKY lines a set may hold (14 R252). -/
def stickyMax : Nat := 12
/-- Capacity of the core's L1 TLB and of a die's TLB (01 R11). -/
def tlbCore : Nat := 256
def tlbDie : Nat := 16384
/-- Record cache and weight-table cache entries (14 R258, 28 R485). -/
def recCache : Nat := 64
def wtCache : Nat := 32
/-- Undo records of a task (22 R419). -/
def undoMax : Nat := 512
/-- Residency entries and pins of a core (22 R410, R411). -/
def residMax : Nat := 2048
def pinMax : Nat := 256
/-- Matrix commands the sequencer's queue holds (19 R361). -/
def mxQueue : Nat := 16
/-- Monitors and open REDC rounds of one home slice (16 R311, 17 R338). -/
def monitorsPerSlice : Nat := 4096
def roundsPerSlice : Nat := 1024
/-- Core cycles between polls of a WAITC (16 R312). -/
def pollCycles : Nat := 256
/-- Declarations of a context (22 R415). -/
def declMax : Nat := 4096
/-- Launches a context's launch table keeps (22 R401). -/
def launchTable : Nat := 1024
/-- Open cursors of a world (25 R455). -/
def cursorMax : Nat := 1024
/-- Bytes of one save slot, 2,368 KiB (07 R146). -/
def saveSlotBytes : Nat := 2368 * 1024
/-- Bytes of a context image region, 40 MiB (08 R169). -/
def imageBytes : Nat := 40 * 2 ^ 20
/-- Bytes of one die's dispatcher bin store, 8 MiB (01 R11). -/
def binStoreBytes : Nat := 8 * 2 ^ 20
/-- L2 slices of a die (01 R11). -/
def slicesPerDie : Nat := 24

/-! ## Free values -/

/-- The slice, below 24, of a line on its die: private to the implementation (14 R241). FREE VALUE, log 10. -/
opaque slice : Nat → Nat
/-- The set of a line inside its L2 slice: private as the slice is (14 R241). FREE VALUE, log 10. -/
opaque l2Set : Nat → Nat
/-- Which of the two bracketing values FEXP2, FLOG2, FSIN or FCOS (0 to 3) delivers for an operand: a fixed function of
the operand (12 R227). FREE VALUE, log 11. -/
opaque faithfulUp : Nat → W32 → Bool
/-- A free value drawn by number (log 4): where the spec allows several results of one step. -/
opaque freeValue : Nat → Nat
/-- Whether the host refuses to translate a frame through ATS (31 R514): PASID, page. FREE VALUE, log 12. -/
opaque atsRefuses : Nat → Nat → Bool
/-- Whether a peer module number belongs to the fabric domain (07 R158 code 7). FREE VALUE, log 12. -/
opaque inDomain : Nat → Bool
/-- Ed25519 signature of a byte list under the identity key (31 R516), and the verification of a firmware signature
over a hash (31 R519). FREE VALUE, log 13. -/
opaque sign : List Byte → Nat
opaque verify : Nat → Nat → Bool
/-- Certificate chain of a slot and the SPDM version, capability and algorithm answers (31 R516). FREE VALUE, log 13. -/
opaque spdm : Nat → Nat → List Byte

end Sys2Proof.Config
end

