-- ==== Sys2Proof/Machine/Sparse.lean ====
section
/-! DEFINITION. Sparse tables: a list of (key, value) pairs with keys strictly rising. Memory, registers and every
numbered record of the device are held in this one form. -/

namespace Sys2Proof.Machine

/-- A sparse table by key. -/
abbrev FMap (α : Type) := List (Nat × α)

/-- The entry at a key. -/
def FMap.find {α : Type} : FMap α → Nat → Option α
  | [], _ => none
  | (j, x) :: r, k => if j = k then some x else FMap.find r k

/-- The value at a key, or what an unlisted key reads as. -/
def FMap.getD {α : Type} (d : α) (m : FMap α) (k : Nat) : α := (FMap.find m k).getD d

/-- Put an entry at a key, keeping the keys rising. -/
def FMap.put {α : Type} (k : Nat) (x : α) : FMap α → FMap α
  | [] => [(k, x)]
  | (j, y) :: r => if k < j then (k, x) :: (j, y) :: r else if k = j then (k, x) :: r else (j, y) :: FMap.put k x r

/-- Remove the entry at a key. -/
def FMap.del {α : Type} (k : Nat) (m : FMap α) : FMap α := m.filter fun e => e.1 ≠ k

/-- Write a value at a key where `d` is what an unlisted key reads as: writing `d` removes the entry. -/
def FMap.set {α : Type} [DecidableEq α] (d : α) (k : Nat) (x : α) (m : FMap α) : FMap α :=
  if x = d then FMap.del k m else FMap.put k x m

/-- Change the entry at a key, when it is there. -/
def FMap.modify {α : Type} (k : Nat) (f : α → α) (m : FMap α) : FMap α :=
  match FMap.find m k with
  | some x => FMap.put k (f x) m
  | none => m

/-- Keys strictly rising from `lo`. -/
def FMap.sortedFrom {α : Type} : Nat → FMap α → Bool
  | _, [] => true
  | lo, (k, _) :: r => lo ≤ k && FMap.sortedFrom (k + 1) r

/-- The canonical form: keys strictly rising, and no entry equal to what an unlisted key reads as. -/
def FMap.wf {α : Type} [DecidableEq α] (d : α) (m : FMap α) : Bool :=
  FMap.sortedFrom 0 m && m.all fun e => e.2 ≠ d

/-- The entries in key order, as values. -/
def FMap.vals {α : Type} (m : FMap α) : List α := m.map Prod.snd

/-- Change every value. -/
def FMap.mapVals {α : Type} (f : Nat → α → α) (m : FMap α) : FMap α := m.map fun e => (e.1, f e.1 e.2)

/-- Replace the element at an index of a list; out of range changes nothing. -/
def listModify {α : Type} (f : α → α) : Nat → List α → List α
  | _, [] => []
  | 0, x :: r => f x :: r
  | n + 1, x :: r => x :: listModify f n r

/-- The numbers below `n`, rising. -/
def upto (n : Nat) : List Nat := List.range n

end Sys2Proof.Machine
end

