-- ==== Sys2Proof/Machine/State.lean ====
section
/-! DEFINITION. The state of the module, as plain data: everything the spec gives the machine, the outstanding
operations its events complete, the two kinds of stop, and the state after reset. Numbers the device never wraps
(stamps, counters) and keys are `Nat`; what software reads as a word is a bit vector. -/

namespace Sys2Proof.Machine

/-- Why a step may fault. -/
inductive Fault where
  /-- A table walk, a context save or a host access reached a module physical address at or above 2^39, which 14 R241
  says does not exist and to which no rule gives an effect. Raised by `translate` and the BAR2 window. Safe: the model
  stops where the spec gives nothing. -/
  | noSuchMemory
  deriving DecidableEq, Repr

/-- Why a step may be refused. -/
inductive Refusal where
  /-- The instruction has no meaning in the model. Raised by an arm of `exec` that has none. Safe. -/
  | notModelled (mnemonic : String)
  /-- `exec` was asked to run an instruction while the slot of `State.cur` holds no issue group: no thread issues it.
  Raised by the issue path alone, never by `step`. Safe. -/
  | noGroup
  deriving DecidableEq, Repr

/-! ## Threads, warps and cohorts -/

/-- The states of a thread (04 R94). -/
inductive ThSt where
  | grouped | binned | parked | waiting | finished
  deriving DecidableEq, Repr

/-- At what a warp-waiting thread waits, with the word's fields and whether its guard held (04 R92, R103). -/
inductive WaitKind where
  | conv
  | grow (f : Fields) (guard : Bool)
  | shr (f : Fields) (guard : Bool)
  deriving DecidableEq, Repr

/-- What a PREEMPT names: vector registers, one bit for 8, accumulator tiles and scratchpad ranges (07 R140). -/
structure Point where
  regs : BitVec 32
  acc : BitVec 4
  ranges : List (Nat × Nat)
  deriving DecidableEq, Repr

/-- One thread (04 R84). -/
structure Thread where
  /-- program counter (02 R25, 04 R94) -/
  pc : W32 := 0
  /-- resume PC (07 R130) -/
  tpc : W32 := 0
  st : ThSt := .grouped
  /-- the warp-wide wait it is at -/
  wait : WaitKind := .conv
  /-- stopped by a trap whose record is not yet delivered (07 R130), or past its TRET in a handler not yet ended -/
  held : Bool := false
  /-- stopped at a PREEMPT (07 R139) -/
  stopped : Bool := false
  /-- what the PREEMPT at which it is stopped names (07 R140) -/
  point : Option Point := none
  /-- p0 to p6 -/
  preds : BitVec 7 := 0
  /-- spin count (04 R106) -/
  spin : Nat := 0
  /-- number of runs of the core when the count was last zero (R107) -/
  zeroAt : Nat := 0
  /-- a hang trap is due before its next instruction (04 R107) -/
  hang : Bool := false
  /-- the PC whose breakpoint this thread may pass once (07 R135) -/
  exempt : Option W32 := none
  /-- in a handler: the permission it held when its trap was delivered (07 R135) -/
  keep : Option W32 := none
  /-- a trap was queued for it while its group backed off: it stops once the group next wins a slot (05 R123) -/
  due : Bool := false
  /-- world sequence count (25 R450) -/
  seq : Nat := 0
  deriving DecidableEq, Repr

/-- A trap record (07 R129); QLEFT is counted when it is read. -/
structure TrapRec where
  code : Nat
  detail : Nat := 0
  pc : W32 := 0
  lmask : BitVec 32 := 0
  addr : Nat := 0
  aux : Nat := 0
  imprecise : Bool := false
  split : Bool := false
  deriving DecidableEq, Repr

/-- A marked register: trap 0x0E or 0x0F is raised by the first instruction that reads it (02 R42, 07 R127). -/
structure Poison where
  vec : Bool
  idx : Nat
  /-- the lane of a vector register -/
  lane : Nat := 0
  code : Nat
  detail : Nat
  addr : Nat
  deriving DecidableEq, Repr

/-- One warp (04 R84). -/
structure Warp where
  /-- vector allocation (04 R91) -/
  alloc : Nat := 8
  retired : Bool := false
  /-- vector registers, by 32 × register + lane -/
  vregs : FMap W32 := []
  sregs : FMap W64 := []
  /-- V and H (16 R300) -/
  view : Nat := 0
  hst : Nat := 0
  /-- the context-scope system registers by index as its runs read them, and as they were when its latest run began,
  the values with effect in it; none before its first run (07 R160, 08 R172) -/
  seen : Option (FMap W64) := none
  atRun : Option (FMap W64) := none
  /-- warp-scope system registers (07 R160) -/
  tvec : W64 := 0xFFFFFFFF
  trpc : W64 := 0
  /-- the active handler has written TRPC (07 R134) -/
  trpcSet : Bool := false
  tsch : FMap W64 := []
  fpflags : BitVec 5 := 0
  /-- trap queue, head first (07 R131) -/
  trapq : List TrapRec := []
  /-- a handler is active (07 R132) -/
  handler : Bool := false
  /-- handler threads that have executed neither TRET nor EXIT, and those that have executed TRET (07 R134) -/
  hleft : BitVec 32 := 0
  hret : BitVec 32 := 0
  poison : List Poison := []
  /-- fabric failure of a posted operation, not yet raised (07 R127) -/
  fabFail : Option TrapRec := none
  /-- vector registers named at PREEMPTs, one bit for 8 registers; none when no thread stopped at one (07 R140) -/
  live : Option (BitVec 32) := none
  /-- .J shares issued since the MMCFG (19 R363) -/
  mshare : Nat := 0
  threads : List Thread := []
  deriving DecidableEq, Repr

/-- A named barrier (17 R341, R342). -/
structure Barrier where
  /-- the count field of the open phase's first arrival; none while idle -/
  count : Option Nat := none
  arrived : List Nat := []
  /-- highest view recorded at arrival (16 R317) -/
  hi : Nat := 0
  /-- number of the current phase -/
  phase : Nat := 0
  /-- the phase in which each warp last arrived -/
  last : FMap Nat := []
  deriving DecidableEq, Repr

/-- States of a ring slot (14 R262). -/
inductive SlotSt where
  | empty | filling | full | held | done | storing
  deriving DecidableEq, Repr

/-- A tensor shape record as fetched (14 R254). -/
structure Tensor where
  base : Nat
  type : Nat
  rank : Nat
  cv32 : Bool
  inf : Bool
  ext : List Nat
  stride : List Int
  lo : List Int
  hi : List Int
  blk : List Nat
  deriving DecidableEq, Repr

/-- A subscribed stream (14 R261 to R263). -/
structure Stream where
  src : Tensor
  dst : Option Tensor
  ring : Nat
  slotBytes : Nat
  nslot : Nat
  count : Nat
  ret : Nat
  /-- state and item of each slot -/
  slots : List (SlotSt × Nat)
  /-- lowest item not yet started, lowest not yet FULL, lowest not yet taken, items finished -/
  nextFill : Nat := 0
  nextFull : Nat := 0
  nextTake : Nat := 0
  finished : Nat := 0
  /-- stopped by a fault or cancelled -/
  stopped : Bool := false
  paused : Bool := false
  /-- the operation whose future is the stream's, the subscribing warp, and its view at acceptance -/
  op : Nat
  warp : Nat
  view : Nat
  deriving DecidableEq, Repr

/-- An undo record: a line and its 128 bytes before the task's first write (22 R419). -/
structure Undo where
  line : Nat
  bytes : List Byte
  deriving DecidableEq, Repr

/-- Where a cohort stands. -/
inductive CohSt where
  | resident | saved | wounded
  deriving DecidableEq, Repr

/-- Why a task is sealed (23 R436). -/
inductive SealWhy where
  | unsealed | undoFull | asseal | irrevocable
  deriving DecidableEq, Repr

/-- The matrix configuration (19 R352 to R372, 20 R380). -/
structure MatrixCfg where
  shape : Nat := 0
  fa : Nat := 0
  fb : Nat := 0
  inf : Bool := false
  /-- warps of the joint set (R363) -/
  joint : List Nat := []
  /-- shares issued for joint commands not yet entered: number of the command, and warp, operation and PC of each share -/
  shares : List (Nat × List (Nat × Nat × W32)) := []
  /-- joint commands entered or refused since the MMCFG -/
  entered : Nat := 0
  deriving DecidableEq, Repr

/-- What a saved cohort keeps of the matrix unit (19 R372). -/
structure MatrixSave where
  cfg : MatrixCfg
  status : BitVec 9
  z : FMap W32
  p : FMap W32
  zmark : List Nat
  pmark : List Nat
  deriving DecidableEq, Repr

/-- An issue group (04 R95): threads as (warp, lane). -/
structure Group where
  coh : Nat
  pc : W32
  ths : List (Nat × Nat)
  /-- operations it waits for in a blocking wait -/
  waits : List Nat := []
  /-- at release the instruction executes again (22 R417) -/
  again : Bool := false
  /-- a trap record of its threads waits to be delivered (07 R130) -/
  held : Bool := false
  /-- arbitration rounds left of a YIELD; at 0 the group is about to be a candidate again (05 R123) -/
  backoff : Option Nat := none
  /-- a YIELD backed it off, and it has not won a slot since (05 R123) -/
  yielded : Bool := false
  /-- instructions executed in the current run (02 R43) -/
  ran : Nat := 0
  /-- number of the core's runs at the end of the last run the group issued; 0 for a group that has issued none (R107) -/
  ranAt : Nat := 0
  /-- declarations its context had when the checks of the access at its PC began, which a stall then holds (23 R434) -/
  since : Option Nat := none
  deriving DecidableEq, Repr

/-- A bin (04 R97). -/
structure Bin where
  num : Nat
  coh : Nat
  pc : W32
  /-- threads in filing order -/
  ths : List (Nat × Nat)
  age : Nat := 0
  ripe : Bool := false
  deriving DecidableEq, Repr

/-- A tile list reference (22 R403). -/
structure TileRef where
  gaddr : Nat
  gcount : Nat
  weight : Nat
  deriving DecidableEq, Repr

/-- One cohort: a task (04 R84, 22). Its key is its age stamp. -/
structure Cohort where
  core : Nat := 0
  ctx : Nat := 0
  launch : Nat := 0
  status : CohSt := .resident
  /-- cohort index (04 R86, 22 R408), coordinates, stage and sweep -/
  cidx : Nat := 0
  cx : Nat := 0
  cy : Nat := 0
  cz : Nat := 0
  stage : Nat := 0
  prio : Nat := 0
  tx : Nat := 32
  ty : Nat := 1
  tz : Nat := 1
  scratchSize : Nat := 0
  codebase : W64 := 0
  warps : List Warp := []
  scratch : FMap Byte := []
  /-- scratchpad bytes marked by an uncorrectable soft error (14 R245) -/
  scratchBad : List Nat := []
  bars : FMap Barrier := []
  streams : FMap Stream := []
  /-- bytes of granules in its FULL and HELD stream slots, as counted on its core (22 R410) -/
  held : List (Nat × Nat) := []
  /-- %record, and the bytes of the task block (22 R404) -/
  record : Nat := 0
  blockLen : Nat := 0
  /-- its tile list, for placement (22 R412) -/
  tiles : List TileRef := []
  /-- energy reserved (08 R176) -/
  resv : Nat := 0
  /-- pre-emption requested: runs of the cohort's groups since (07 R138, R144) -/
  preq : Option Nat := none
  /-- a request that waits for a save slot (07 R147) -/
  preqWait : Bool := false
  /-- the request is a virtual function's, saved into VFSAVE (07 R147) -/
  preqVf : Bool := false
  /-- the cohort is being stopped whole (07 R144) -/
  fallback : Bool := false
  /-- accumulator tiles and scratchpad ranges named at PREEMPTs (07 R140) -/
  liveAcc : BitVec 4 := 0
  liveRanges : List (Nat × Nat) := []
  signalled : Bool := false
  sealed : SealWhy := .unsealed
  sealReq : Option SealWhy := none
  undo : List Undo := []
  wounded : Bool := false
  mcfg : Option MatrixSave := none
  saveSlot : Option Nat := none
  /-- address of the slot that holds the image of a saved cohort (07 R146, R147) -/
  savedAt : Nat := 0
  /-- saved: its groups, bins and parked threads (07 R142, R143) -/
  savedGroups : List Group := []
  savedBins : List Bin := []
  savedParked : List (Nat × Nat) := []
  /-- node index of a node cohort (22 R404) -/
  node : Option Nat := none
  /-- the view its warps start from (04 R87) -/
  start : Nat := 0
  deriving DecidableEq, Repr

/-! ## Cores -/

/-- A cached line: its bytes, the stamp it came with, its window and its hint (14 R246, 16 R302). -/
structure CLine where
  line : Nat
  bytes : List Byte
  w : Nat
  lo : Nat
  hi : Nat
  hint : Nat
  /-- context and granule its fill was counted for (22 R410) -/
  ctx : Nat := 0
  gran : Nat := 0
  deriving DecidableEq, Repr

/-- A translation (07 R155, R156). -/
structure TlbEnt where
  ctx : Nat
  /-- page base address and size in bits -/
  va : Nat
  bits : Nat
  target : Nat
  modnum : Nat
  frame : Nat
  w : Bool
  x : Bool
  deriving DecidableEq, Repr

/-- A cached record (14 R258). -/
structure RecEnt where
  ctx : Nat
  addr : Nat
  bytes : List Byte
  deriving DecidableEq, Repr

/-- A cached weight table (28 R485): its weights as BF16 codes. -/
structure WtEnt where
  ctx : Nat
  addr : Nat
  weights : List (BitVec 16)
  bad : Bool := false
  deriving DecidableEq, Repr

/-- An entry of the residency table (22 R410). -/
structure Resid where
  ctx : Nat
  gran : Nat
  lbytes : Nat := 0
  sbytes : Nat := 0
  pin : Option Nat := none
  deriving DecidableEq, Repr

/-- A command whose issue stalls on the full queue: its operation, and its group, which keeps its slot (19 R361). -/
structure LateCmd where
  op : Nat
  slot : Nat
  ent : Nat
  /-- the instruction ends its run (02 R43) -/
  bnd : Bool := false
  deriving DecidableEq, Repr

/-- The matrix unit (19 R352). Accumulators are keyed 16384 × tile + 128 × m + n. -/
structure MatrixUnit where
  owner : Option Nat := none
  cfg : MatrixCfg := {}
  /-- operations queued, oldest first; the first may have started -/
  queue : List Nat := []
  /-- commands whose issue stalls on the full queue, oldest first (19 R361) -/
  late : List LateCmd := []
  started : Bool := false
  z : FMap W32 := []
  p : FMap W32 := []
  zmark : List Nat := []
  pmark : List Nat := []
  /-- sticky status, in the places of 20 R391 -/
  status : BitVec 9 := 0
  /-- cohorts stalled in MMCFG (20 R380) -/
  claims : List Nat := []
  deriving DecidableEq, Repr

/-- One enabled core, by its logical number. -/
structure Core where
  /-- the physical core in use (01 R8) -/
  phys : Nat := 0
  /-- cycle counter (08 R174) -/
  cycle : Nat := 0
  /-- runs ended on the core (the model's own measure of 04 R107) -/
  runNo : Nat := 0
  slots : List (Option Nat) := [none, none, none, none]
  /-- cyclic position of the last winner (04 R100) -/
  lastWin : Nat := 223
  entries : FMap Group := []
  bins : List Bin := []
  /-- longest parked first: cohort, warp, lane (04 R99) -/
  parked : List (Nat × Nat × Nat) := []
  /-- engine sequence number (15 R279) -/
  engSeq : BitVec 32 := 0
  l1 : List CLine := []
  tlb : List TlbEnt := []
  recs : List RecEnt := []
  wts : List WtEnt := []
  resid : List Resid := []
  mx : MatrixUnit := {}
  draining : Bool := false
  deriving DecidableEq, Repr

/-- A line resident at its home slice (14 R242, R248, 16 R300). -/
structure HLine where
  line : Nat
  w : Nat
  e : Nat
  hint : Nat
  deriving DecidableEq, Repr

/-! ## Outstanding operations -/

/-- A write of a register when an operation completes. -/
inductive RegW where
  | v (reg lane : Nat) (x : W32)
  | s (reg : Nat) (x : W64)
  deriving DecidableEq, Repr

/-- A register pending under an operation: for a vector register, its lanes. -/
structure Dest where
  vec : Bool
  idx : Nat
  lanes : BitVec 32 := 0xFFFFFFFF
  deriving DecidableEq, Repr

/-- What one request asks of a line's home. -/
inductive PartAct where
  | load
  /-- bytes by tagged physical address -/
  | store (bytes : List (Nat × Byte))
  /-- one address, its lanes as (lane, o, q) in lane order (16 R314) -/
  | atomic (op ty key : Nat) (lanes : List (Nat × Nat × Nat))
  /-- one contribution (17 R337) with its count and ready word -/
  | redc (op ty key o n ready : Nat)
  /-- MBXGET's claim of a slot at the header's home (17 R349) -/
  | claim
  deriving DecidableEq, Repr

/-- One request of an operation. -/
structure Part where
  act : PartAct
  /-- tagged line number -/
  line : Nat
  /-- virtual address of the access -/
  va : Nat := 0
  vreq : Nat := 0
  ret : Nat := 0
  /-- lanes read: lane, tagged physical address, width -/
  reads : List (Nat × Nat × Nat) := []
  /-- values returned, by lane -/
  vals : List (Nat × Nat) := []
  done : Bool := false
  /-- a write held for a seal (22 R419) -/
  heldSeal : Bool := false
  /-- the request had to wait at the core: a load for an access of its own warp, before it is looked up in the caches (14
  R247), or any access for an acquire of its warp (16 R310) -/
  late : Bool := false
  /-- cause and peer of a fabric failure (31 R517) -/
  fail : Option (Nat × Nat) := none
  deriving DecidableEq, Repr

/-- A query descriptor as read (25 R454). -/
structure Query where
  world : Nat
  req : Nat
  excl : Nat
  ret : List Nat
  deriving DecidableEq, Repr

/-- A structural change of an entity (25 R450): its world, head entry and value. -/
structure Change where
  world : Nat
  op : Nat
  comp : Nat
  ord : Nat
  coh : Nat
  thread : Nat
  seq : Nat
  handle : Nat
  value : List Byte
  deriving DecidableEq, Repr

/-- A texture descriptor as read (28 R477). -/
structure TexDesc where
  base : Nat
  width : Nat
  height : Nat
  levels : Nat
  format : Nat
  addrU : Nat
  addrV : Nat
  linear : Bool
  mip : Bool
  bias : W32
  border : List W32
  wtable : Nat
  deriving DecidableEq, Repr

/-- A BVH descriptor as read (28 R492). -/
structure BvhDesc where
  nodeBase : Nat
  nodeCount : Nat
  root : Nat
  triBase : Nat
  triCount : Nat
  budget : Nat
  deriving DecidableEq, Repr

/-- Commands of the engine port (15 R279): the operands read at issue. -/
inductive EngCmd where
  /-- ACOPY.PLAIN: direction, the two addresses or offsets, length (15 R284) -/
  | copy (dir a b len ret : Nat)
  /-- ACOPY.BP (15 R285) -/
  | planes (rec : Tensor) (role nblk off : Nat) (b0 b1 : Int) (ret : Nat)
  /-- ACOPY.CV32 (15 R286) -/
  | cv32 (rec : Tensor) (toScratch : Bool) (off : Nat) (b0 b1 : Int) (ret : Nat)
  /-- AGATH, ASCAT, ABLKG, ABLKS (15 R287 to R289): the list as read -/
  | lists (rec : Tensor) (gather block : Bool) (data dim : Nat) (base : List Int) (idx : List Int) (ret : Nat)
  | xpose (src dst rows cols z : Nat)
  | subs (stream : Nat)
  | rfence
  /-- the changes of a queuing command; WSPAWN's output pair (26 R467, R468) -/
  | queueChange (changes : List Change) (vh : Option Nat)
  | wqry (world : Nat) (q : Query)
  | wnext (world cursor off : Nat)
  | wclose (world cursor : Nat)
  | wres (handles : List (Nat × Nat)) (off : Nat)
  | wcol (handles : List (Nat × Nat)) (comp vd : Nat)
  /-- node, records in scratchpad, count, tile list, overflow slots reserved for the last records, records arrived -/
  | tspawn (nodeIdx off count : Nat) (tiles : List TileRef) (spill : List Nat) (arrived : Nat)
  | wdnext (table off : Nat)
  | launch (seq : Option Nat)
  | tex (writes : List RegW) (count code cause : Nat)
  | rayq (d : BvhDesc) (rays : List (Nat × List W32)) (any : Bool) (off ret : Nat)
  | twfence
  deriving DecidableEq, Repr

/-- Commands of the matrix sequencer (20 R377). -/
inductive MatCmd where
  | zero (z p : Bool) (tiles : List Nat)
  | loop (a b steps ainc binc : Nat) (tiles : List Nat) (joint : Bool)
  | scale (a b : Nat) (ea eb : Bool) (tiles : List Nat)
  | drain (tile row0 nrow : Nat) (p : Bool) (vd : Nat) (joint : Bool)
  | store (tile row0 nrow : Nat) (p : Bool) (off : Nat)
  | load (tile row0 nrow : Nat) (p : Bool) (va : Nat)
  deriving DecidableEq, Repr

/-- What an outstanding operation is, with what its completion writes. -/
inductive OpKind where
  /-- a long computation or a reply known at issue: registers and flags to write -/
  | calc (ws : List RegW) (flags : BitVec 5)
  /-- a load: width, sign-extension to `ext` bits or none, scalar or vector destination -/
  | load (w : Nat) (signed scal : Bool) (dst : Nat)
  | store
  /-- an atomic: 64-bit, signed, scalar destination; no destination when `dst` is none -/
  | atomic (wide signed scal : Bool) (dst : Option Nat)
  | redc
  /-- EVICT and PREF requests still to act -/
  | prefetch (dev : Bool)
  /-- MBXPUT: header and slots (physical header key, slot address, log2), message, reserved index, stage -/
  | mbxput (hdr slots log2n : Nat) (msg : List Byte) (idx : Option Nat) (stage : Nat)
  /-- MBXGET: the same, destination, status register and stage -/
  | mbxget (hdr slots log2n dst status : Nat) (idx : Option Nat) (stage : Nat)
  /-- WAITC: tagged address, type, condition, comparand, destination; polling, and cycle of the next poll -/
  | waitc (key ty cond cmp dst : Nat) (poll : Bool) (due : Nat)
  | eng (c : EngCmd)
  | mat (c : MatCmd)
  | fwait (mask : BitVec 32) (hi any : Bool) (dst : Nat)
  | barWait (bar phase : Nat)
  | mmwait (ops : List Nat)
  | waitpred (dst : Nat)
  | slotw (stream dst : Nat)
  /-- a pending REGGROW: count and destination (04 R93) -/
  | grow (n dst : Nat)
  /-- a task that waits for a declared set (22 R417) -/
  | setWait (decl : Nat)
  | hcall (fn num dst : Nat) (arg : W64) (posted : Bool)
  /-- CTXSAVE or CTXLOAD: target, image, destination; in flight, or waiting for an earlier phase on its target (08 R170) -/
  | phase (save : Bool) (target image dst : Nat) (queued : Bool)
  | wsync (world dst : Nat) (started : Bool)
  deriving DecidableEq, Repr

/-- An outstanding operation. -/
structure Op where
  kind : OpKind
  coh : Nat
  warp : Nat
  core : Nat
  pc : W32 := 0
  /-- the group that issued it, for its progress events (04 R106) -/
  ths : List (Nat × Nat) := []
  /-- an outstanding instruction for 07 R139 (not a wait) -/
  busy : Bool := true
  dests : List Dest := []
  /-- lookahead windows: lane, instructions it may still issue (02 R40) -/
  wins : List (Nat × Nat) := []
  /-- a long-class instruction (02 R44) -/
  long : Bool := false
  /-- a scratchpad access that has not replied (16 R308, R317) -/
  sp : Bool := false
  parts : List Part := []
  /-- the step a mailbox operation still has to make at its ring's header: line, address, view and retention code
  (17 R348, R349) -/
  hdr : Option Part := none
  /-- scope of an acquire whose reply is outstanding (16 R310) -/
  acq : Option Nat := none
  /-- held back until its warp's earlier acquires have replied: an engine command not accepted yet, or a WAITC not registered
  yet, with the lowest reach class of its operands (16 R310) -/
  held : Option Nat := none
  /-- the warp's view at acceptance; of a WAITC, the address it monitors -/
  vacc : Nat := 0
  /-- the reach class of its accesses: 0 scratchpad, 1 module, 2 peer, 3 host; for a mailbox operation whose slot is not
  known yet, the lowest class of the ring's slots (16 R308) -/
  reach : Nat := 0
  fut : Option Nat := none
  cancelled : Bool := false
  /-- the reply carries an uncorrectable soft error (02 R42) -/
  soft : Bool := false
  /-- the first operation of the instruction that made this one, when its warps perform in order (15 R272, 17 R335) -/
  batch : Option Nat := none
  /-- the other shares of a joint matrix command in the queue (19 R363) -/
  joint : List Nat := []
  /-- marks its completion leaves on registers (02 R42, 14 R245) -/
  marks : List Poison := []
  /-- raised highest stamp and read stamp so far -/
  hi : Nat := 0
  rd : Nat := 0
  deriving DecidableEq, Repr

/-! ## Contexts, launches, worlds, functions -/

/-- States of a context (07 R151). -/
inductive CtxSt where
  | free | active | saving | saved | loading | faulted
  deriving DecidableEq, Repr

/-- A declared set (22 R415). -/
structure DeclSet where
  num : Nat
  base : Nat
  len : Nat
  holder : Option Nat := none
  release : Nat := 0
  deriving DecidableEq, Repr

/-- A kernel descriptor as read (03 R80). -/
structure Kernel where
  entry : W32
  vregs : Nat
  stages : Nat
  warps : Nat
  tx : Nat
  ty : Nat
  tz : Nat
  scratch : Nat
  energy : Nat
  codebase : W64
  deriving DecidableEq, Repr

/-- A registered node (03 R81). -/
structure Node where
  idx : Nat
  addr : Nat
  kdesc : Nat
  timer : Nat
  count : Nat
  recsize : Nat
  deriving DecidableEq, Repr

/-- A record filed in a bin (22 R407): bytes, arrival time, spilled slot and tile list. -/
structure Filed where
  bytes : List Byte
  at_ : Nat
  die : Nat
  spill : Option Nat
  tiles : List TileRef
  deriving DecidableEq, Repr

/-- A dispatcher bin of a node and a launch (22 R407). -/
structure NodeBin where
  launch : Nat
  node : Nat
  recs : List Filed
  /-- node cohorts emitted wait for admission under this boost and count (22 R396) -/
  boost : Nat := 0
  passed : Nat := 0
  asked : Option Nat := none
  deriving DecidableEq, Repr

/-- A batch ready to emit: its records and tiles (22 R408). -/
structure Batch where
  launch : Nat
  node : Nat
  recs : List Filed
  tiles : List TileRef
  /-- age stamp and cohort index once emitted -/
  age : Nat
  cidx : Nat
  block : Nat
  blockLen : Nat
  deriving DecidableEq, Repr

/-- A launch (22 R395 to R401). Its key is its sequence number. -/
structure Launch where
  ctx : Nat
  addr : Nat
  kdesc : Nat
  kern : Kernel
  gx : Nat
  gy : Nat
  gz : Nat
  stages : Nat
  prio : Nat
  energy : Nat
  args : List W32
  signal : Nat
  /-- predecessor: launch matched, or the floor it counts as (22 R401) -/
  pred : Option Nat
  predFloor : Nat
  hasPred : Bool
  /-- template: tiles or query cursor (world, number) -/
  tiles : List TileRef
  useBlock : Bool
  cursor : Option (Nat × Nat)
  base : Nat
  /-- next stage-0 cohort index never admitted -/
  next0 : Nat := 0
  /-- cohort indices of later stages that may be admitted, with the view they start from (04 R87) -/
  ready : List (Nat × Nat) := []
  retired : Nat := 0
  emitted : Nat := 0
  /-- cohort indices signalled (17 R344) -/
  signalled : List Nat := []
  hiC : Nat := 0
  done : Bool := false
  status : Nat := 0
  c : Nat := 0
  boost : Nat := 0
  passed : Nat := 0
  /-- it has a pre-emption request pending (22 R398) -/
  asked : Option Nat := none
  deriving DecidableEq, Repr

/-- An open cursor (25 R455): the versions it pins, as (table, version), and how many of their chunks it has returned. -/
structure Cursor where
  coh : Option Nat
  q : Query
  pins : List (Nat × Nat)
  taken : Nat := 0
  deriving DecidableEq, Repr

/-- The places a world's descriptor names (25 R443). -/
structure Geo where
  desc : Nat
  dirBase : Nat
  dirCap : Nat
  tabBase : Nat
  tabCap : Nat
  qBase : Nat
  qLog2 : Nat
  spillBase : Nat
  spillSize : Nat
  pools : List (Nat × Nat)
  deriving DecidableEq, Repr

/-- A registered world (25 R442). Its key is 256 × context + number. -/
structure World where
  /-- the regions registered, which Rotunda never leaves (25 R444) -/
  geo : Geo
  comptab : List Nat
  /-- a sync has ended CORRUPT (25 R449) -/
  failed : Bool := false
  /-- recorded CSTAMP of each table (25 R452) -/
  cstamp : FMap Nat := []
  /-- SYNCNO stamp of the last publication -/
  syncStamp : Nat := 0
  cursors : FMap Cursor := []
  /-- syncs that have arrived, oldest first (operations) -/
  syncs : List Nat := []
  /-- the mark of the running sync (25 R451) -/
  mark : Option Nat := none
  dereg : Bool := false
  deriving DecidableEq, Repr

/-- The image a completed CTXSAVE wrote of a context (07 R152, 08 R169): where its pages lie, and the context-scope system
registers and dispatcher bins in it. Its slot references are the context's saved cohorts; its mailbox positions lie in the
rings' headers. -/
structure Image where
  pages : List Nat
  regs : FMap W64
  bins : List NodeBin
  deriving DecidableEq, Repr

/-- One context (07 R150, R160; 22 R393; 31 R512). -/
structure Context where
  st : CtxSt := .free
  hanglim : W64 := 0x100000
  binage : W64 := 4
  lspan : W64 := 16
  pfall : W64 := 4096
  ecfg : W64 := 1
  priv : W64 := 0
  csave : W64 := 0
  csaven : W64 := 0
  ptbase : W64 := 0
  bkpt : FMap W64 := []
  allow : Nat := 0
  edebt : Nat := 0
  starve : Nat := 64
  ovfbase : W64 := 0
  ovfsize : W64 := 0
  /-- FAULTREC, 32 bytes as a number -/
  faultrec : Nat := 0
  hdr : FMap W64 := []
  discard : FMap (BitVec 32) := []
  /-- PASID the driver bound (31 R514) -/
  pasid : Nat := 0
  decls : List DeclSet := []
  nodes : List Node := []
  /-- overflow-area ranges in use: offset, length (22 R404) -/
  ovfUsed : List (Nat × Nat) := []
  /-- highest C of a launch that left the table (22 R401) -/
  floor : Nat := 0
  /-- accepted launches, newest first: the launch table (22 R401) -/
  table : List Nat := []
  /-- images that completed CTXSAVEs of the context have written, the newest first (08 R169) -/
  images : List Image := []
  /-- state to return to when the virtual function resumes (07 R153) -/
  vfHeld : Bool := false
  vfState : Option CtxSt := none
  /-- where the pre-emption of its virtual function writes its image, from VFSAVE on, and the image (07 R153) -/
  vfAt : Option Nat := none
  vfImage : Option Image := none
  deriving DecidableEq, Repr

/-- One PCI Express function (07 R150, 31 R511). -/
structure Function where
  withheld : List Nat := []
  intstat : W64 := 0
  tlbBusy : Bool := false
  /-- the operations the invalidation in progress waits for (07 R157) -/
  tlbWait : List Nat := []
  bar2base : W64 := 0
  /-- size of the BAR2 window, 2^30 to 2^36 (31 R513) -/
  bar2size : Nat := 2 ^ 30
  vfpre : W64 := 0
  vfsave : W64 := 0
  atsen : W64 := 0
  deriving DecidableEq, Repr

/-- Firmware slots of a controller (31 R519): active slot, image hashes of A and B. -/
structure Firmware where
  active : Bool := false
  a : Nat := 0
  b : Nat := 0
  pending : Bool := false
  deriving DecidableEq, Repr

/-- An AtomicOp of the host (31 R509). -/
inductive HostAtomic where
  | fetchAdd | swap | cas
  deriving DecidableEq, Repr

/-- Requests of the host that the opcode table has no event for (31 R509 to R515). -/
inductive HostReq where
  /-- a read of BAR0 -/
  | readReg (fn off len : Nat)
  /-- an AtomicOp through BAR2: 64 bits or 32, its operand and CAS's comparand -/
  | atomic (fn off : Nat) (wide : Bool) (k : HostAtomic) (x cmp : Nat)
  /-- PCI configuration of the BAR2 window's size -/
  | resizeBar2 (fn log2 : Nat)
  /-- the driver binds a PASID to a context -/
  | bindPasid (ctx pasid : Nat)
  deriving DecidableEq, Repr

/-- One act of the module. -/
inductive Act where
  /-- an issue step of a slot (04 R95) -/
  | issue (core slot : Nat)
  /-- one of the device's own events -/
  | event (e : Instr)
  /-- a request of the host -/
  | host (h : HostReq)
  deriving DecidableEq, Repr

/-- One turn of the agenda: core cycles and dispatcher cycles that pass before it, translations the TLBs drop by
themselves (core or die, position), the peer modules to which requests of the module's own agents fail in the fabric while it
lasts, with the cause (31 R517), and the act. -/
structure Turn where
  cycles : Nat := 1
  dcycles : Nat := 0
  tlbDrop : List (Bool × Nat × Nat) := []
  lost : List (Nat × Nat) := []
  act : Act
  deriving DecidableEq, Repr

/-- An open REDC round of a line (17 R338): contributions counted, N, ready word, highest stamp. -/
structure Round where
  line : Nat
  got : Nat
  n : Nat
  ready : Nat
  hi : Nat
  deriving DecidableEq, Repr

/-- The module and what the host sees of it. -/
structure State where
  /-- memory by tagged physical address (14 R240 to R242); an unlisted byte reads 0 (DESIGN CHOICE, log 1) -/
  mem : List Host.Cell := []
  cores : FMap Core := []
  cohorts : FMap Cohort := []
  ctxs : FMap Context := []
  fns : FMap Function := []
  launches : FMap Launch := []
  worlds : FMap World := []
  ops : FMap Op := []
  /-- number of the next operation (the model's own) -/
  nextOp : Nat := 0
  /-- lines at their homes, most recently used first -/
  l2 : List HLine := []
  /-- stamp floor of each slice (14 R248) -/
  floors : FMap Nat := []
  /-- the host interface's write stamp (16 R300) -/
  hostW : Nat := 0
  /-- remote-data cache of each die -/
  rdc : FMap (List CLine) := []
  dieTlb : FMap (List TlbEnt) := []
  rounds : List Round := []
  /-- next age stamp (22 R402) -/
  ageNext : Nat := 1
  seqNext : Nat := 0
  bins : List NodeBin := []
  batches : List Batch := []
  /-- round-robin position of Belfry's mailbox visits (22 R395) -/
  mboxAt : Nat := 0
  /-- residency reported to Belfry by each core (22 R412) -/
  reported : FMap (List Resid) := []
  dclk : Nat := 0
  /-- MODULE (31 R511) -/
  modnum : BitVec 11 := 0
  /-- hypervisor queue (31 R515) -/
  hqBase : W64 := 0
  hqLog2 : W64 := 0
  hqTail : W64 := 0
  hqHead : W64 := 0
  hqReply : W64 := 0
  /-- outstanding calls: TAG and operation -/
  hqOut : List (Nat × Nat) := []
  fw : FMap Firmware := []
  /-- spare physical cores left on each die (01 R8) -/
  spares : FMap Nat := []
  /-- serviced parts: HBM rows and pseudo-channels, fabric lanes in calibration, modules out of their tray, rerouted
  ports (31 R520) -/
  rows : List (Nat × Nat) := []
  channels : List (Nat × Nat) := []
  lanes : List (Nat × Nat) := []
  absent : List Nat := []
  routes : List Nat := []
  /-- replies the module has given over DOE, newest first, and the data of the last BAR read -/
  doe : List (List Byte) := []
  hostRead : List Byte := []
  /-- free values drawn (the model's own) -/
  free : Nat := 0
  /-- turns to come (the model's own) -/
  agenda : List Turn := []
  /-- peers to which the agents' requests of this turn fail, and the causes (31 R517; the model's own) -/
  lost : List (Nat × Nat) := []
  /-- descriptors that the checks of the issue in progress have read, by warp (29 R501, R502; the model's own) -/
  descs : FMap (List Byte) := []
  /-- core and slot of the issue in progress (the model's own) -/
  cur : Nat × Nat := (0, 0)
  deriving DecidableEq, Repr

/-- A core at module reset, with its physical number (01 R8, 04 R100, 08 R174). -/
def Core.reset (phys : Nat) : Core := { phys := phys }

/-- The module right after reset: no context in use, no cohort, caches and memory empty, every stamp 0 (16 R300), the
age counter 1 (22 R402), each die with its four spare cores (01 R8). -/
def State.reset : State :=
  { cores := (upto Config.cores).map fun k => (k, Core.reset (k / 48 * 52 + k % 48))
    ctxs := (upto 1024).map fun k => (k, {})
    fns := (upto 64).map fun k => (k, {})
    fw := (upto 7).drop 1 |>.map fun k => (k, {})
    spares := (upto 4).map fun d => (d, 4) }

end Sys2Proof.Machine
end

