-- ==== Sys2Proof/Machine/Access.lean ====
section
/-! DEFINITION. Reading and changing one record of the state: cores, cohorts, warps, threads, registers, predicates,
scratchpad and operations. Every read and write of a register goes through here. -/

namespace Sys2Proof.Machine

/-! ## Records -/

/-- The core of a logical number. -/
def State.core (s : State) (k : Nat) : Core := (s.cores.find k).getD {}
/-- Change a core. -/
def State.modCore (k : Nat) (f : Core → Core) (s : State) : State := { s with cores := s.cores.modify k f }
/-- The cohort of an age stamp. -/
def State.coh (s : State) (k : Nat) : Cohort := (s.cohorts.find k).getD {}
/-- Change a cohort. -/
def State.modCoh (k : Nat) (f : Cohort → Cohort) (s : State) : State := { s with cohorts := s.cohorts.modify k f }
/-- A warp of a cohort. -/
def Cohort.warp (c : Cohort) (w : Nat) : Warp := c.warps.getD w {}
/-- Change a warp of a cohort. -/
def Cohort.modWarp (w : Nat) (f : Warp → Warp) (c : Cohort) : Cohort := { c with warps := listModify f w c.warps }
/-- A warp by cohort and number. -/
def State.warp (s : State) (k w : Nat) : Warp := (s.coh k).warp w
/-- Change a warp. -/
def State.modWarp (k w : Nat) (f : Warp → Warp) (s : State) : State := s.modCoh k (Cohort.modWarp w f)
/-- A thread by home lane. -/
def Warp.thread (x : Warp) (l : Nat) : Thread := x.threads.getD l {}
/-- A thread by cohort, warp and home lane. -/
def State.thread (s : State) (k w l : Nat) : Thread := (s.warp k w).thread l
/-- Change a thread. -/
def State.modThread (k w l : Nat) (f : Thread → Thread) (s : State) : State :=
  s.modWarp k w fun x => { x with threads := listModify f l x.threads }
/-- A context. -/
def State.ctx (s : State) (k : Nat) : Context := (s.ctxs.find k).getD {}
/-- Change a context. -/
def State.modCtx (k : Nat) (f : Context → Context) (s : State) : State := { s with ctxs := s.ctxs.modify k f }
/-- A function. -/
def State.fn (s : State) (k : Nat) : Function := (s.fns.find k).getD {}
/-- Change a function. -/
def State.modFn (k : Nat) (f : Function → Function) (s : State) : State := { s with fns := s.fns.modify k f }
/-- Change a launch. -/
def State.modLaunch (k : Nat) (f : Launch → Launch) (s : State) : State :=
  { s with launches := s.launches.modify k f }
/-- Change a world. -/
def State.modWorld (k : Nat) (f : World → World) (s : State) : State := { s with worlds := s.worlds.modify k f }
/-- Change an operation. -/
def State.modOp (k : Nat) (f : Op → Op) (s : State) : State := { s with ops := s.ops.modify k f }
/-- Add an operation under the next number. -/
def State.addOp (o : Op) (s : State) : State := { s with ops := s.ops.put s.nextOp o, nextOp := s.nextOp + 1 }
/-- Remove an operation. -/
def State.delOp (k : Nat) (s : State) : State := { s with ops := s.ops.del k }
/-- The operations of a warp. -/
def State.opsOf (s : State) (k w : Nat) : List (Nat × Op) := s.ops.filter fun e => e.2.coh = k && e.2.warp = w
/-- Apply a change for every element of a list, in order. -/
def forEach {α : Type} (l : List α) (f : α → State → State) (s : State) : State := l.foldl (fun t x => f x t) s

/-! ## Places -/

/-- The die of a logical core (01 R8). -/
def dieOf (core : Nat) : Nat := core / Config.coresPerDie
/-- The function of a context (07 R150). -/
def fnOf (ctx : Nat) : Nat := ctx / 16
/-- Whether a function's list holds a capability (01 R24): none of the JW480's lists holds any above 0x0008. -/
def State.hasCap (s : State) (fn cap : Nat) : Bool := cap ≤ 8 && (fn = 0 || !(s.fn fn).withheld.contains cap)
/-- A context-scope register as the context holds it, by index (07 R160). -/
def State.ctxReg (s : State) (ctx n : Nat) : W64 :=
  let x := s.ctx ctx
  match n with
  | 0x11 => x.hanglim
  | 0x12 => x.binage
  | 0x13 => x.lspan
  | 0x14 => x.pfall
  | 0x15 => x.ecfg
  | 0x16 => BitVec.ofNat 64 ctx
  | 0x17 => x.priv
  | 0x18 => x.csave
  | 0x19 => x.csaven
  | 0x1A => x.ptbase
  | _ => x.bkpt.getD 0 (n - 0x20)
/-- The context-scope registers that programs write, by index: what a run that begins now begins with (07 R160). -/
def State.ctxRegs (s : State) (ctx : Nat) : FMap W64 :=
  [0x11, 0x12, 0x13, 0x14, 0x20, 0x21, 0x22, 0x23].map fun n => (n, s.ctxReg ctx n)
/-- A context-scope register with effect in the current runs of a warp: the value at the start of its latest run. -/
def State.runReg (s : State) (k w n : Nat) : W64 :=
  ((s.warp k w).atRun.bind fun m => m.find n).getD (s.ctxReg (s.coh k).ctx n)
/-- A context-scope register as a warp reads it (08 R172). -/
def State.seenReg (s : State) (k w n : Nat) : W64 :=
  ((s.warp k w).seen.bind fun m => m.find n).getD (s.ctxReg (s.coh k).ctx n)
/-- A run of a warp begins: it begins with one whole value of each context-scope register (08 R172). -/
def State.beginRun (k w : Nat) (s : State) : State :=
  let m := s.ctxRegs (s.coh k).ctx
  s.modWarp k w fun x => { x with seen := some m, atRun := some m }
/-- The lease span of a warp's loads (16 R301, 07 R160). -/
def State.span (s : State) (k w : Nat) : Nat := min (max (s.runReg k w 0x13).toNat 1) (2 ^ 32)
/-- The virtual function or context may not run its phases (07 R150). -/
def State.isUser (s : State) (ctx : Nat) : Bool := (s.ctx ctx).priv.toNat % 2 = 0

/-! ## Registers (02 R30, R31) -/

/-- Key of a lane of a vector register. -/
def vkey (reg lane : Nat) : Nat := 32 * reg + lane
/-- A lane, 0 to 31, of a vector register; vz reads 0. -/
def Warp.readV (x : Warp) (reg lane : Nat) : W32 :=
  if reg = 255 || 32 ≤ lane then 0 else x.vregs.getD 0 (vkey reg lane)
/-- Write a lane of a vector register; a write to vz is discarded; a write clears the lane's mark (02 R42). -/
def Warp.writeV (reg lane : Nat) (v : W32) (x : Warp) : Warp :=
  if reg = 255 || 32 ≤ lane then x
  else { x with
    vregs := x.vregs.set 0 (vkey reg lane) v
    poison := x.poison.filter fun p => !(p.vec && p.idx = reg && p.lane = lane) }
/-- A scalar register; sz reads 0. -/
def Warp.readS (x : Warp) (reg : Nat) : W64 := if reg = 63 then 0 else x.sregs.getD 0 reg
/-- Write a scalar register; a write to sz is discarded; a write clears the mark. -/
def Warp.writeS (reg : Nat) (v : W64) (x : Warp) : Warp :=
  if reg = 63 then x
  else { x with
    sregs := x.sregs.set 0 reg v
    poison := x.poison.filter fun p => p.vec || p.idx ≠ reg }
/-- A predicate of a thread; pt reads 1. -/
def Thread.readP (t : Thread) (p : Nat) : Bool := p = 7 || t.preds.getLsbD p
/-- Write a predicate of a thread; a write to pt is discarded. -/
def Thread.writeP (p : Nat) (b : Bool) (t : Thread) : Thread :=
  if p = 7 then t
  else { t with preds := if b then t.preds ||| BitVec.twoPow 7 p else t.preds &&& ~~~(BitVec.twoPow 7 p) }

/-- Write a vector register lane of a warp. -/
def State.writeV (k w reg lane : Nat) (v : W32) (s : State) : State := s.modWarp k w (Warp.writeV reg lane v)
/-- Write a scalar register of a warp. -/
def State.writeS (k w reg : Nat) (v : W64) (s : State) : State := s.modWarp k w (Warp.writeS reg v)
/-- Write a predicate of a thread. -/
def State.writeP (k w l p : Nat) (b : Bool) (s : State) : State := s.modThread k w l (Thread.writeP p b)
/-- Make a register write. -/
def State.regW (k w : Nat) (r : RegW) (s : State) : State :=
  match r with
  | .v reg lane x => s.writeV k w reg lane x
  | .s reg x => s.writeS k w reg x
/-- Make register writes in order. -/
def State.regWs (k w : Nat) (rs : List RegW) (s : State) : State := forEach rs (State.regW k w) s
/-- Raise exception flags of a warp (10 R191). -/
def State.raiseFlags (k w : Nat) (fl : BitVec 5) (s : State) : State :=
  s.modWarp k w fun x => { x with fpflags := x.fpflags ||| fl }
/-- Raise the view of a warp (16 R305). -/
def State.raiseView (k w v : Nat) (s : State) : State := s.modWarp k w fun x => { x with view := max x.view v }
/-- Raise the highest write stamp of a warp (16 R303). -/
def State.raiseH (k w v : Nat) (s : State) : State := s.modWarp k w fun x => { x with hst := max x.hst v }
/-- Mark registers with a trap to raise at their next read. -/
def State.markRegs (k w : Nat) (ps : List Poison) (s : State) : State :=
  s.modWarp k w fun x => { x with poison := x.poison ++ ps }

/-! ## Scratchpad (14 R244, R245) -/

/-- A byte of a cohort's scratchpad. -/
def Cohort.readSp (c : Cohort) (a : Nat) : Byte := c.scratch.getD 0 a
/-- Write a byte; the write clears an error mark. -/
def Cohort.writeSp (a : Nat) (b : Byte) (c : Cohort) : Cohort :=
  { c with scratch := c.scratch.set 0 a b, scratchBad := c.scratchBad.filter fun x => x ≠ a }
/-- A little-endian value of `n` bytes. -/
def Cohort.readSpN (c : Cohort) (a : Nat) : Nat → Nat
  | 0 => 0
  | n + 1 => (c.readSp a).toNat + 256 * Cohort.readSpN c (a + 1) n
/-- Write the low `n` bytes of a value, little-endian. -/
def Cohort.writeSpN (a n v : Nat) (c : Cohort) : Cohort :=
  match n with
  | 0 => c
  | m + 1 => Cohort.writeSpN (a + 1) m (v / 256) (c.writeSp a (BitVec.ofNat 8 v))
/-- Write a list of bytes. -/
def Cohort.writeSpL (a : Nat) : List Byte → Cohort → Cohort
  | [], c => c
  | b :: r, c => Cohort.writeSpL (a + 1) r (c.writeSp a b)
/-- A list of bytes. -/
def Cohort.readSpL (c : Cohort) (a n : Nat) : List Byte := (upto n).map fun i => c.readSp (a + i)

/-! ## Numbers -/

/-- Two's-complement reading of the low `n` bits (00 R6). -/
def signExt (n x : Nat) : Int :=
  let m := x % 2 ^ n
  if n = 0 then 0 else if m < 2 ^ (n - 1) then m else (m : Int) - 2 ^ n
/-- Bits [hi:lo] of a number (00 R6). -/
def bits (x hi lo : Nat) : Nat := x / 2 ^ lo % 2 ^ (hi + 1 - lo)
/-- An integer modulo 2^n (10 R189). -/
def wrapN (n : Nat) (y : Int) : Nat := (y % 2 ^ n).toNat
/-- A little-endian number of bytes. -/
def leNat : List Byte → Nat
  | [] => 0
  | b :: r => b.toNat + 256 * leNat r
/-- `n` little-endian bytes of a number. -/
def leBytes : Nat → Nat → List Byte
  | 0, _ => []
  | n + 1, v => BitVec.ofNat 8 v :: leBytes n (v / 256)
/-- A field of `n` bytes at an offset of a byte list, as a number. -/
def fieldN (bs : List Byte) (off n : Nat) : Nat := leNat ((bs.drop off).take n)
/-- Insert in a list without repeats, kept rising. -/
def insertNat (k : Nat) : List Nat → List Nat
  | [] => [k]
  | x :: r => if k < x then k :: x :: r else if k = x then x :: r else x :: insertNat k r
/-- Distinct elements, rising. -/
def sortedNats (l : List Nat) : List Nat := l.foldl (fun a x => insertNat x a) []
/-- Whether a lane's bit of a mask is set. -/
def laneIn (m : BitVec 32) (l : Nat) : Bool := m.getLsbD l
/-- The mask of a list of lanes. -/
def laneMask (ls : List Nat) : BitVec 32 := ls.foldl (fun m l => m ||| BitVec.twoPow 32 l) 0

end Sys2Proof.Machine
end

