-- ==== Sys2Proof/Machine/Home.lean ====
section
/-! DEFINITION. Memory and its homes: the tagged physical space, stamps, leases and floors (16 R300 to R305, 14 R248),
the data caches with their retention and replacement (14 R246 to R253), and the residency table (22 R410). -/

namespace Sys2Proof.Machine

/-! ## The tagged physical space (14 R240 to R242, log 3)

Module HBM keeps its physical address; peer module m adds (m + 1) × 2^52; a host address with PASID p adds
2^80 + p × 2^52. -/

/-- Memory as the spec lays it out: the address space of every module and of the host. -/
abbrev Memory := List Host.Cell

/-- What an address nothing has written reads as (DESIGN CHOICE, log 1: the spec gives RAM no contents at power-on). -/
def Memory.unlisted : Byte := 0
/-- The canonical form of memory. -/
abbrev Memory.wf (m : Memory) : Bool := FMap.wf Memory.unlisted m
/-- One byte. -/
def State.byte (s : State) (key : Nat) : Byte := FMap.getD Memory.unlisted s.mem key
/-- Write one byte. -/
def State.setByte (key : Nat) (b : Byte) (s : State) : State := { s with mem := FMap.set Memory.unlisted key b s.mem }
/-- Write bytes by address, in order. -/
def State.setBytes (bs : List (Nat × Byte)) (s : State) : State := forEach bs (fun e => State.setByte e.1 e.2) s
/-- `n` bytes from an address. -/
def State.bytes (s : State) (key n : Nat) : List Byte := (upto n).map fun i => s.byte (key + i)
/-- A little-endian number of `n` bytes. -/
def State.num (s : State) (key : Nat) (n : Nat) : Nat := leNat (s.bytes key n)
/-- The bytes of a number, by address. -/
def cellsOf (key n v : Nat) : List (Nat × Byte) := (leBytes n v).zipIdx.map fun e => (key + e.2, e.1)
/-- The bytes of a list, by address. -/
def cellsOfL (key : Nat) (bs : List Byte) : List (Nat × Byte) := bs.zipIdx.map fun e => (key + e.2, e.1)

/-- Physical key of a peer's address. -/
def peerKey (m pa : Nat) : Nat := (m + 1) * 2 ^ 52 + pa
/-- Key of a host address under a PASID. -/
def hostKey (pasid a : Nat) : Nat := 2 ^ 80 + pasid * 2 ^ 52 + a
/-- The line of a key. -/
def lineOf (key : Nat) : Nat := key / Config.lineBytes
/-- Whether a line is a host line. -/
def isHost (line : Nat) : Bool := 2 ^ 73 ≤ line
/-- Whether a line is homed on a peer module. -/
def isPeer (line : Nat) : Bool := 2 ^ 45 ≤ line && !isHost line
/-- The peer module of a line. -/
def peerOf (line : Nat) : Nat := line / 2 ^ 45 - 1
/-- The reach class a line belongs to: 1 module, 2 peer, 3 host (16 R308). -/
def reachOf (line : Nat) : Nat := if isHost line then 3 else if isPeer line then 2 else 1
/-- The home die of a module line (14 R241). -/
def homeDie (line : Nat) : Nat := line / 2 ^ 30
/-- A line of a peer module that is out of its tray: no request reaches it (31 R517, R520). -/
def State.unreachable (s : State) (line : Nat) : Bool := isPeer line && s.absent.contains (peerOf line)
/-- The cause with which the fabric fails a request of one of the module's own agents to a line (31 R517, R520): Belfry's,
Rotunda's, the save engine's, a home's. -/
def State.agentLoss (s : State) (line : Nat) : Option Nat :=
  if !isPeer line then none
  else if s.absent.contains (peerOf line) then some 1
  else (s.lost.find? fun x => x.1 = peerOf line).map Prod.snd
/-- Whether a core's die sends the line elsewhere than its own slices (14 R242). -/
def isRemote (die line : Nat) : Bool := isPeer line || (!isHost line && homeDie line ≠ die)
/-- The number of a line's slice (14 R241). -/
def sliceOf (line : Nat) : Nat := line / 2 ^ 30 * Config.slicesPerDie + Config.slice line % Config.slicesPerDie
/-- Whether two lines have one home: a slice, or the host interface (14 R242). -/
def sameHome (a b : Nat) : Bool := isHost a = isHost b && (isHost a || sliceOf a = sliceOf b)

/-! ## Replacement (14 R252) -/

/-- The position of the last line, in a list with the most recently used first, that passes a test. -/
def lastPos {α : Type} (p : α → Bool) (l : List α) : Option Nat :=
  (l.zipIdx.filter fun e => p e.1).getLast?.map Prod.snd

/-- The victim of a set: the least recently used STREAM line, else DEFAULT, else STICKY. -/
def victim {α : Type} (hint : α → Nat) (inSet : α → Bool) (l : List α) : Option Nat :=
  match lastPos (fun x => inSet x && hint x = 1) l with
  | some i => some i
  | none =>
    match lastPos (fun x => inSet x && hint x = 0) l with
    | some i => some i
    | none => lastPos inSet l

/-- Demote the least recently used STICKY line when a thirteenth would arise. -/
def demoteSticky {α : Type} (hint : α → Nat) (toDefault : α → α) (inSet : α → Bool) (l : List α) : List α :=
  if (l.filter fun x => inSet x && hint x = 2).length < Config.stickyMax then l
  else match lastPos (fun x => inSet x && hint x = 2) l with
    | some i => listModify toDefault i l
    | none => l

/-- Put a line first in its cache: the cache and the lines it evicts. `inSet` tells the lines of its set. -/
def cachePut {α : Type} (hint : α → Nat) (toDefault : α → α) (inSet : α → Bool) (x : α) (l : List α) :
    List α × List α :=
  let l := if hint x = 2 then demoteSticky hint toDefault inSet l else l
  if (l.filter inSet).length < Config.ways then (x :: l, [])
  else match victim hint inSet l with
    | some i => (x :: l.eraseIdx i, (l[i]?).toList)
    | none => (x :: l, [])

/-- The hint an access of a retention code leaves in the L2 or the remote-data cache (14 R251). -/
def hintOf (ret : Nat) : Nat := if ret = 3 then 1 else ret

/-! ## The home slices -/

/-- W and E of a line at its home: the resident line's, or its slice's floor; a host line has the host interface's one
stamp as both (14 R248, R250; 16 R300). -/
def State.home (s : State) (line : Nat) : Nat × Nat :=
  if isHost line then (s.hostW, s.hostW)
  else match s.l2.find? fun h => h.line = line with
    | some h => (h.w, h.e)
    | none => let f := s.floors.getD 0 (sliceOf line); (f, f)

/-- Raise a slice's floor by a line that leaves (14 R248). -/
def State.raiseFloor (h : HLine) (s : State) : State :=
  let k := sliceOf h.line
  { s with floors := s.floors.set 0 k (max (s.floors.getD 0 k) (max h.w h.e)) }

/-- The lines of one set of one slice. -/
def sameL2Set (line : Nat) (h : HLine) : Bool :=
  sliceOf h.line = sliceOf line && Config.l2Set h.line % Config.l2Sets = Config.l2Set line % Config.l2Sets

/-- Record W and E of a line at its home under a retention code (14 R251 to R253). A line that fills and puts another out has
taken the floor (14 R248) as it stood before the victim raises it: the spec does not say which comes first (DESIGN CHOICE,
log 97). -/
def State.setHome (line w e ret : Nat) (s : State) : State :=
  if isHost line then { s with hostW := w }
  else match s.l2.find? fun h => h.line = line with
    | some h =>
      if ret = 3 then { s with l2 := s.l2.map fun x => if x.line = line then { x with w, e } else x }
      else
        let rest := s.l2.filter fun x => x.line ≠ line
        let rest := if ret = 2 && h.hint ≠ 2 then
            demoteSticky HLine.hint (fun x => { x with hint := 0 }) (sameL2Set line) rest else rest
        { s with l2 := { line, w, e, hint := ret } :: rest }
    | none =>
      let (l, out) := cachePut HLine.hint (fun x => { x with hint := 0 }) (sameL2Set line)
        { line, w, e, hint := hintOf ret } s.l2
      forEach out State.raiseFloor { s with l2 := l }

/-- Evict a line from its slice: its data is in memory already; the floor rises (14 R248). -/
def State.evictHome (line : Nat) (s : State) : State :=
  match s.l2.find? fun h => h.line = line with
  | some h => State.raiseFloor h { s with l2 := s.l2.filter fun x => x.line ≠ line }
  | none => s

/-- A lease obtained at the home (16 R301, R250): the state, W, and the window. -/
def State.homeLoad (line vreq span ret : Nat) (s : State) : State × Nat × Nat × Nat :=
  let (w, e) := s.home line
  if isHost line then (s, w, w, w)
  else
    let ls := max w vreq
    (s.setHome line w (max e (ls + span)) ret, w, ls, ls + span)

/-- The stamp a write takes at the home (16 R303). -/
def State.writeStamp (s : State) (line vreq : Nat) : Nat := max ((s.home line).2 + 1) vreq

/-- A write performed at the home: W and E become its stamp (16 R303). -/
def State.stampWrite (line vreq ret : Nat) (s : State) : State :=
  let w := s.writeStamp line vreq
  s.setHome line w w ret

/-- A store of bytes of one line at its home: the state and the stamp. -/
def State.homeStore (line vreq ret : Nat) (bs : List (Nat × Byte)) (s : State) : State × Nat :=
  ((s.stampWrite line vreq ret).setBytes bs, s.writeStamp line vreq)

/-! ## Residency (22 R410) -/

/-- The 16 KiB granule of a virtual address. -/
def granOf (va : Nat) : Nat := va / 16384
/-- Resident bytes of an entry. -/
def Resid.bytes (r : Resid) : Nat := min (r.lbytes + r.sbytes) 16384

/-- Change the entry of a granule, creating it when absent, freeing it when it holds nothing and is not pinned; the
most recently updated entry stands first, and a full table loses its least recently updated unpinned entry. -/
def residUpdate (ctx gran : Nat) (f : Resid → Resid) (l : List Resid) : List Resid :=
  let old := (l.find? fun r => r.ctx = ctx && r.gran = gran).getD { ctx, gran }
  let new := f old
  let rest := l.filter fun r => !(r.ctx = ctx && r.gran = gran)
  if new.lbytes + new.sbytes = 0 && new.pin.isNone then rest
  else if rest.length < Config.residMax then new :: rest
  else match lastPos (fun r => r.pin.isNone) rest with
    | some i => new :: rest.eraseIdx i
    | none => rest

/-- A line leaves a core's L1: 128 bytes fewer of its granule. -/
def residDrop (c : CLine) (l : List Resid) : List Resid :=
  residUpdate c.ctx c.gran (fun r => { r with lbytes := r.lbytes - 128 }) l

/-! ## L1 and remote-data cache -/

/-- The lines of one set of an L1 or a remote-data cache. The spec gives the number of sets and not the bits that choose one:
line number modulo the number of sets (14 R246, R249; DESIGN CHOICE, log 96). -/
def sameSet (sets line : Nat) (c : CLine) : Bool := c.line % sets = line % sets

/-- The retention code of a fill under a pinned granule (22 R411). -/
def pinnedRet (l : List Resid) (ctx gran ret : Nat) : Nat :=
  if ret ≠ 3 && l.any (fun r => r.ctx = ctx && r.gran = gran && r.pin.isSome) then 2 else ret

/-- Fill a core's L1; BYPASS allocates nothing (14 R247, R251). -/
def Core.l1Fill (x : CLine) (k : Core) : Core :=
  if x.hint = 3 then k
  else
    let x := { x with hint := pinnedRet k.resid x.ctx x.gran x.hint }
    let old := k.l1.filter fun c => c.line = x.line
    let rest := k.l1.filter fun c => c.line ≠ x.line
    let (l, out) := cachePut CLine.hint (fun c => { c with hint := 0 }) (sameSet Config.l1Sets x.line) x rest
    let r := (old ++ out).foldl (fun r c => residDrop c r) k.resid
    { k with l1 := l, resid := residUpdate x.ctx x.gran (fun r => { r with lbytes := r.lbytes + 128 }) r }

/-- Remove a line from a core's L1. -/
def Core.l1Drop (line : Nat) (k : Core) : Core :=
  let out := k.l1.filter fun c => c.line = line
  { k with l1 := k.l1.filter fun c => c.line ≠ line, resid := out.foldl (fun r c => residDrop c r) k.resid }

/-- A hit: the hint becomes the access's and the line most recently used, except under BYPASS (14 R253). -/
def hitLine (sets line ret : Nat) (l : List CLine) : List CLine :=
  if ret = 3 then l
  else match l.find? fun c => c.line = line with
    | some c =>
      let rest := l.filter fun x => x.line ≠ line
      let rest := if ret = 2 && c.hint ≠ 2 then
          demoteSticky CLine.hint (fun x => { x with hint := 0 }) (sameSet sets line) rest else rest
      { c with hint := ret } :: rest
    | none => l

/-- The copy in a cache that may serve a view (16 R302). -/
def serving (l : List CLine) (line view : Nat) : Option CLine :=
  l.find? fun c => c.line = line && c.lo ≤ view && view ≤ c.hi

/-- The remote-data cache of a die. -/
def State.rdcOf (s : State) (die : Nat) : List CLine := FMap.getD [] s.rdc die
/-- Change the remote-data cache of a die. -/
def State.setRdc (die : Nat) (l : List CLine) (s : State) : State := { s with rdc := FMap.put die l s.rdc }
/-- Fill the remote-data cache of a die (14 R249, R251). -/
def State.rdcFill (die : Nat) (x : CLine) (s : State) : State :=
  let rest := (s.rdcOf die).filter fun c => c.line ≠ x.line
  s.setRdc die (cachePut CLine.hint (fun c => { c with hint := 0 }) (sameSet Config.rdcSets x.line)
    { x with hint := hintOf x.hint } rest).1
/-- Remove a line from the remote-data cache of a die. -/
def State.rdcDrop (die line : Nat) (s : State) : State :=
  s.setRdc die ((s.rdcOf die).filter fun c => c.line ≠ line)
/-- Remove every copy of a line from every L1 and remote-data cache (16 R321). -/
def State.dropEverywhere (line : Nat) (s : State) : State :=
  { s with
    cores := FMap.mapVals (fun _ k => k.l1Drop line) s.cores
    rdc := FMap.mapVals (fun _ l => l.filter fun c => c.line ≠ line) s.rdc }

/-- The 128 bytes of a line at its home. -/
def State.lineBytes (s : State) (line : Nat) : List Byte := s.bytes (line * Config.lineBytes) Config.lineBytes

/-- The way a read takes: the die whose remote-data cache serves lines homed elsewhere (none for a request that goes to
the home itself, 14 R264), the lease span of its requester (16 R301), and whether a fill installs (it does not when it
carries an uncorrectable soft error, 14 R249). -/
structure Path where
  die : Option Nat
  span : Nat
  keep : Bool := true
  deriving DecidableEq, Repr

/-- A read served at the home: the lease, and the copy the reply carries (16 R301). -/
def State.fetchHome (span line vreq ret : Nat) (s : State) : State × CLine :=
  let bytes := s.lineBytes line
  let (s, w, lo, hi) := s.homeLoad line vreq span ret
  (s, { line, bytes, w, lo, hi, hint := ret })

/-- A read served at the home or by a remote-data cache on its way (14 R249): the state, the copy. The copy's window
is the one the reply carries; a host line is not cached and has an empty window above its stamp. -/
def State.fetchLine (p : Path) (line vreq ret : Nat) (s : State) : State × CLine :=
  match p.die with
  | none => s.fetchHome p.span line vreq ret
  | some die =>
    if isRemote die line then
      match serving (s.rdcOf die) line vreq with
      | some c => (s.setRdc die (hitLine Config.rdcSets line ret (s.rdcOf die)), { c with hint := ret })
      | none =>
        let (s, c) := s.fetchHome p.span line vreq ret
        (if p.keep then s.rdcFill die c else s, c)
    else s.fetchHome p.span line vreq ret

end Sys2Proof.Machine
end

