-- ==== Sys2Proof/Machine/Translate.lean ====
section
/-! DEFINITION. Address translation (07 R154 to R159, 14 R240, R241): the five-level walk in memory, the TLBs of a core
and of a die, and the memory-fault codes, the lowest that applies. -/

namespace Sys2Proof.Machine

/-- How a translation ends: a tagged physical address, a memory-fault code of R158, or a table in memory that does not
exist. -/
inductive Trans where
  | ok (key : Nat)
  | fault (code : Nat)
  | hole
  deriving DecidableEq, Repr

/-- What an access asks of a page. -/
inductive Need where
  | read | write | fetch
  deriving DecidableEq, Repr

/-- How a walk ends: a page with the reserved-field flag, no valid entry, or no memory. -/
inductive Walk where
  | page (e : TlbEnt) (bad : Bool)
  | invalid
  | hole
  deriving DecidableEq, Repr

/-- Bits [63:57] equal bit 56 (07 R154). -/
def canonical (va : Nat) : Bool := va / 2 ^ 56 = 0 || va / 2 ^ 56 = 255

/-- Reserved fields of an entry: [63], [11:8] and [7] (07 R156). -/
def pteReserved (e : Nat) : Bool := bits e 63 63 ≠ 0 || bits e 11 7 ≠ 0

/-- The page a leaf at level `lv` (0, 1 or 2) maps: the frame's low bits are taken as zero (07 R156). -/
def leafPage (ctx va lv e : Nat) : TlbEnt :=
  let b := 12 + 9 * lv
  { ctx, va := va / 2 ^ b * 2 ^ b, bits := b, target := bits e 6 5, modnum := bits e 62 52
    frame := bits e 51 12 * 4096 / 2 ^ b * 2 ^ b, w := bits e 1 1 = 1, x := bits e 2 2 = 1 }

/-- A leaf whose own fields are refused: TARGET 3, or a module or peer frame with PA[51:39] set (07 R158 code 5). -/
def leafBad (e : TlbEnt) : Bool := e.target = 3 || (e.target < 2 && e.frame / 2 ^ 39 ≠ 0)

/-- The walk from a table at level `lv` (4 down to 0). A refused entry is noted and the walk goes on, so that the
lowest code can be told (07 R159). -/
def walkFrom (s : State) (ctx va : Nat) : Nat → Nat → Bool → Walk
  | 0, table, bad =>
    if Config.hbmBytes ≤ table then (if bad then .page { ctx, va, bits := 12, target := 0, modnum := 0, frame := 0,
                                                         w := true, x := true } true else .hole)
    else
      let e := s.num (table + 8 * bits va 20 12) 8
      if e % 2 = 0 then .invalid
      else
        let p := leafPage ctx va 0 e
        .page p (bad || pteReserved e || leafBad p)
  | lv + 1, table, bad =>
    if Config.hbmBytes ≤ table then (if bad then .page { ctx, va, bits := 12, target := 0, modnum := 0, frame := 0,
                                                         w := true, x := true } true else .hole)
    else
      let e := s.num (table + 8 * bits va (20 + 9 * (lv + 1)) (12 + 9 * (lv + 1))) 8
      if e % 2 = 0 then .invalid
      else
        let leaf := bits e 3 3 = 1
        if leaf && lv + 1 ≤ 2 then
          let p := leafPage ctx va (lv + 1) e
          .page p (bad || pteReserved e || leafBad p)
        else walkFrom s ctx va lv (bits e 51 12 * 4096) (bad || pteReserved e || leaf)

/-- The walk of a context's tables (07 R154, R155). -/
def State.walk (s : State) (ctx va : Nat) : Walk := walkFrom s ctx va 4 (s.ctx ctx).ptbase.toNat false

/-- Whether an entry translates an address of a context. -/
def TlbEnt.covers (e : TlbEnt) (ctx va : Nat) : Bool := e.ctx = ctx && va / 2 ^ e.bits * 2 ^ e.bits = e.va

/-- The TLB of a die. -/
def State.dieTlbOf (s : State) (die : Nat) : List TlbEnt := FMap.getD [] s.dieTlb die

/-- A translation held by the core's TLB or its die's (07 R157). -/
def State.tlbFind (s : State) (core ctx va : Nat) : Option TlbEnt :=
  match (s.core core).tlb.find? fun e => e.covers ctx va with
  | some e => some e
  | none => (s.dieTlbOf (dieOf core)).find? fun e => e.covers ctx va

/-- The page of an address, from the TLBs or the walk. -/
def State.pageOf (s : State) (core ctx va : Nat) : Walk :=
  match s.tlbFind core ctx va with
  | some e => .page e false
  | none => s.walk ctx va

/-- The key of an address inside a page (14 R240 to R242). A leaf that names this module by number reaches this
module's memory. -/
def pageKey (s : State) (e : TlbEnt) (va : Nat) : Nat :=
  let pa := e.frame + va % 2 ^ e.bits
  if e.target = 2 then hostKey (s.ctx e.ctx).pasid pa
  else if e.target = 1 && e.modnum ≠ s.modnum.toNat then peerKey e.modnum pa else pa

/-- The end of a translation on a page: the lowest code of R158 that applies (07 R159). -/
def pageEnd (s : State) (e : TlbEnt) (bad : Bool) (need : Need) (va : Nat) : Trans :=
  if e.target = 2 && (s.fn (fnOf e.ctx)).atsen.toNat % 2 = 1 &&
      Config.atsRefuses (s.ctx e.ctx).pasid ((e.frame + va % 2 ^ e.bits) / 4096) then .fault 2
  else if need = .write && !e.w then .fault 3
  else if need = .fetch && !e.x then .fault 4
  else if bad then .fault 5
  else if e.target = 1 && e.modnum ≠ s.modnum.toNat && !Config.inDomain e.modnum then .fault 7
  else .ok (pageKey s e va)

/-- Translate an address for a core (07 R154 to R159). -/
def translate (s : State) (core ctx va : Nat) (need : Need) : Trans :=
  if !canonical va then .fault 1
  else match s.pageOf core ctx va with
    | .page e bad => pageEnd s e bad need va
    | .invalid => .fault 2
    | .hole => .hole

/-- Translate an address for an agent without a TLB: Belfry, Rotunda, the save engine. -/
def frameDev (s : State) (ctx va : Nat) (need : Need) : Trans :=
  if !canonical va then .fault 1
  else match s.walk ctx va with
    | .page e bad => pageEnd s e bad need va
    | .invalid => .fault 2
    | .hole => .hole

/-- An address as an agent reaches it: a request that the fabric fails (31 R517, R520) is met as one whose translation fails,
with code 0 (DESIGN CHOICE, log 75). -/
def translateDev (s : State) (ctx va : Nat) (need : Need) : Trans :=
  match frameDev s ctx va need with
  | .ok k => if (s.agentLoss (lineOf k)).isSome then .fault 0 else .ok k
  | .fault n => .fault n
  | .hole => .hole

/-- Keep a translation in a TLB of a capacity, the newest first; the oldest leaves a full one (log 14). -/
def tlbPut (cap : Nat) (e : TlbEnt) (l : List TlbEnt) : List TlbEnt :=
  (e :: l.filter fun x => !(x.ctx = e.ctx && x.va = e.va && x.bits = e.bits)).take cap

/-- Note a successful translation in the TLBs (01 R11, 07 R157). -/
def State.tlbNote (core ctx va : Nat) (s : State) : State :=
  match s.tlbFind core ctx va with
  | some _ => s
  | none =>
    match s.walk ctx va with
    | .page e false =>
      let die := dieOf core
      let s := s.modCore core fun k => { k with tlb := tlbPut Config.tlbCore e k.tlb }
      { s with dieTlb := FMap.put die (tlbPut Config.tlbDie e (s.dieTlbOf die)) s.dieTlb }
    | _ => s

/-- Translate every byte range start of a list of pages an agent reads or writes; the first failure in order. -/
def translateAll (s : State) (core ctx : Nat) (need : Need) : List Nat → Option (Nat × Trans)
  | [] => none
  | va :: r =>
    match translate s core ctx va need with
    | .ok _ => translateAll s core ctx need r
    | t => some (va, t)

/-- The addresses at which the 4 KiB pages of a range begin, the first address first. -/
def pagesOf (va len : Nat) : List Nat :=
  if len = 0 then []
  else
    let first := va / 4096
    let last := (va + len - 1) / 4096
    va :: ((upto (last - first)).map fun i => (first + 1 + i) * 4096)

/-- Read bytes of a context's virtual memory for an agent, page by page; none when a page fails. -/
def State.readVirt (s : State) (ctx va n : Nat) : Option (List Byte) :=
  (pagesOf va n).foldr (fun p acc =>
    match acc, translateDev s ctx p .read with
    | some l, .ok k => some (s.bytes k (min (p / 4096 * 4096 + 4096) (va + n) - p) ++ l)
    | _, _ => none) (some [])

end Sys2Proof.Machine
end

