-- ==== Sys2Proof/Machine/Ops.lean ====
section
/-! DEFINITION. The named operations of the issue machinery: issue-group entries, parking and partition (04 R95 to R99,
05 R111), the end of a run (04 R106, R107), completed operations and their waiters, the completion of a launch
(16 R319), taking a trap as one operation (07 R130 to R133), a context fault (07 R136), and the delivery of a trap and
the return from one (07 R132, R134). -/

namespace Sys2Proof.Machine

/-! ## The issuing group -/

/-- The group that issues an instruction: its core, slot and entry, its cohort, PC and threads as (warp, lane) in
order of home lane. -/
structure Iss where
  core : Nat
  slot : Nat
  ent : Nat
  coh : Nat
  pc : W32
  ths : List (Nat × Nat)
  deriving DecidableEq, Repr

/-- The group in a slot. -/
def issOf (s : State) (core slot : Nat) : Option Iss :=
  match (s.core core).slots.getD slot none with
  | none => none
  | some e =>
    match (s.core core).entries.find e with
    | some g => some { core, slot, ent := e, coh := g.coh, pc := g.pc, ths := g.ths }
    | none => none

/-- The group in the slot the current issue step names. -/
def curIss (s : State) : Option Iss := issOf s s.cur.1 s.cur.2

/-- The warps of the group, rising (02 R29). -/
def Iss.warps (c : Iss) : List Nat := sortedNats (c.ths.map Prod.fst)

/-- The group's lanes of one warp. -/
def Iss.lanesOf (c : Iss) (w : Nat) : List Nat := (c.ths.filter fun t => t.1 = w).map Prod.snd

/-- Insert a thread by home lane. -/
def insertTh (t : Nat × Nat) : List (Nat × Nat) → List (Nat × Nat)
  | [] => [t]
  | x :: r => if t.2 < x.2 then t :: x :: r else x :: insertTh t r

/-- Threads in order of home lane. -/
def sortThs (l : List (Nat × Nat)) : List (Nat × Nat) := l.foldl (fun a t => insertTh t a) []

/-! ## Entries and the program-counter file -/

/-- The free entry a part or a draw takes. The spec says "a free entry" of the table of 04 R95 (R96, R98, R111); that it
is the lowest-numbered one, which key 4 of R100 can show, is the model's choice (DESIGN CHOICE, log 58). -/
def Core.freeEntry (k : Core) : Option Nat := (upto Config.groupEntries).find? fun e => (k.entries.find e).isNone

/-- Set each thread's PC. -/
def setPcs (coh : Nat) (ths : List (Nat × Nat)) (pc : W32) (s : State) : State :=
  forEach ths (fun t => State.modThread coh t.1 t.2 fun x => { x with pc }) s

/-- Set each thread's state. -/
def setSt (coh : Nat) (ths : List (Nat × Nat)) (st : ThSt) (s : State) : State :=
  forEach ths (fun t => State.modThread coh t.1 t.2 fun x => { x with st }) s

/-- Park threads at their PCs, after the threads parked before them (04 R96, R99). -/
def park (core coh : Nat) (ths : List (Nat × Nat)) (s : State) : State :=
  (setSt coh ths .parked s).modCore core fun k => { k with parked := k.parked ++ ths.map fun t => (coh, t.1, t.2) }

/-- Put a group in an entry. -/
def putEntry (core e : Nat) (g : Group) (s : State) : State :=
  (setSt g.coh g.ths .grouped s).modCore core fun k => { k with entries := k.entries.put e g }

/-- The run number at which the group of an entry last issued a run; 0 when it has issued none (04 R107). -/
def Core.ranAt (k : Core) (e : Nat) : Nat := ((k.entries.find e).map Group.ranAt).getD 0

/-- What remains of a group keeps its entry: it is the group that issued its last run (04 R96, R107). -/
def Core.keepEntry (e : Nat) (g : Group) (k : Core) : Core :=
  { k with entries := k.entries.put e { g with ranAt := k.ranAt e } }

/-- Give a part of a group a free entry, or park it (05 R111). -/
def placePart (core : Nat) (g : Group) (s : State) : State :=
  match (s.core core).freeEntry with
  | some e => putEntry core e g s
  | none => park core g.coh g.ths s

/-- The threads that form a group with the longest-parked thread: of its cohort and PC, a home lane each, longest
parked first; held threads are not drawn (04 R99, 07 R130). -/
def parkedGroup (s : State) (core : Nat) : Option (Nat × W32 × List (Nat × Nat)) :=
  let ready := (s.core core).parked.filter fun t =>
    let x := s.thread t.1 t.2.1 t.2.2
    !x.held && !x.stopped
  match ready with
  | [] => none
  | h :: _ =>
    let pc := (s.thread h.1 h.2.1 h.2.2).pc
    let same := ready.filter fun t => t.1 = h.1 && (s.thread t.1 t.2.1 t.2.2).pc = pc
    let ths := same.foldl (fun (a : List (Nat × Nat)) t =>
      if a.any (fun x => x.2 = t.2.2) || 32 ≤ a.length then a else a ++ [t.2]) []
    some (h.1, pc, ths)

/-- Form a group of parked threads in a free entry, when there are any (04 R99). -/
def formParked (core e : Nat) (s : State) : State :=
  match parkedGroup s core with
  | none => s
  | some (coh, pc, ths) =>
    let s := s.modCore core fun k =>
      { k with parked := k.parked.filter fun t => !(t.1 = coh && ths.contains t.2) }
    putEntry core e { coh, pc, ths := sortThs ths } s

/-- Free an entry; parked threads take it first (04 R99). -/
def freeEntry (core e : Nat) (s : State) : State :=
  formParked core e (s.modCore core fun k =>
    { k with entries := k.entries.del e, slots := k.slots.map fun x => if x = some e then none else x })

/-- Let parked threads take the entries that are free. R99 of 04 acts when an entry frees; that parked threads which become
drawable later, at a trap's delivery, a handler's end or a resumption, take entries that are free by then is the model's
choice (DESIGN CHOICE, log 37). -/
def drainParked (core : Nat) : Nat → State → State
  | 0, s => s
  | n + 1, s =>
    match (s.core core).freeEntry, parkedGroup s core with
    | some e, some _ => drainParked core n (formParked core e s)
    | _, _ => s

/-! ## Runs -/

/-- A progress event: the members' spin counts return to zero (04 R106). -/
def progress (core coh : Nat) (ths : List (Nat × Nat)) (s : State) : State :=
  let n := (s.core core).runNo
  forEach ths (fun t => State.modThread coh t.1 t.2 fun x => { x with spin := 0, zeroAt := n }) s

/-- A thread of a warp is in a group that has issued no run since run number `n` (04 R107). -/
def unissued (s : State) (coh w n : Nat) : Bool :=
  (s.core (s.coh coh).core).entries.any fun e => e.2.coh = coh && e.2.ranAt ≤ n && e.2.ths.any fun t => t.1 = w

/-- Whether a member must be reported as hung (04 R107), under the HANGLIM of the run that ends (07 R160). -/
def hangs (s : State) (coh w l : Nat) : Bool :=
  let lim := (s.runReg coh w 0x11).toNat
  let t := s.thread coh w l
  lim ≠ 0 && lim ≤ t.spin &&
    ((s.warp coh w).threads.any (fun x => x.st = .parked || x.st = .binned) || unissued s coh w t.zeroAt)

/-- End the run of a slot's group: spin counts, views and the counts behind R107 and R144; the slot is empty
(02 R43, 04 R106, 16 R305). A count that rises from zero here was zero until now, so that runs which ended before this one
are none "since the count was last zero". That a run counts as issued at its end, so that one still in a slot does not, is
the model's reading (DEDUCED, log 74). -/
def endRun (c : Iss) (s : State) : State :=
  let n := (s.core c.core).runNo
  let s := s.modCore c.core fun k => { k with
    runNo := n + 1, slots := k.slots.set c.slot none
    entries := k.entries.modify c.ent fun g => { g with ranAt := n + 1 } }
  let s := forEach c.ths (fun t => State.modThread c.coh t.1 t.2 fun x =>
    { x with spin := x.spin + 1, zeroAt := if x.spin = 0 then n else x.zeroAt }) s
  let s := forEach c.warps (fun w => State.modWarp c.coh w fun x => { x with view := x.view + 1 }) s
  s.modCoh c.coh fun h => { h with preq := h.preq.map (· + 1) }

/-- After a run: the members that hang are to be trapped before their next instruction (04 R107). -/
def noteHang (c : Iss) (s : State) : State :=
  forEach (c.ths.filter fun t => hangs s c.coh t.1 t.2)
    (fun t => State.modThread c.coh t.1 t.2 fun x => { x with hang := true }) s

/-- The lowest home lane of a group. -/
def Group.lowest (g : Group) : Nat := (g.ths.head?.map Prod.snd).getD 32

/-- Insert a group by lowest home lane. -/
def insertGroup (g : Group) : List Group → List Group
  | [] => [g]
  | x :: r => if g.lowest < x.lowest then g :: x :: r else x :: insertGroup g r

/-- Place the parts of a group whose entry is `e`: the part with the lowest home lane keeps the entry, the others take
free entries or are parked; with no part the entry is freed (05 R111, 04 R99). -/
def placeParts (core e : Nat) (parts : List Group) (s : State) : State :=
  match parts.foldl (fun a g => insertGroup g a) [] with
  | [] => freeEntry core e s
  | p :: ps => forEach ps (placePart core) ((setSt p.coh p.ths .grouped s).modCore core (Core.keepEntry e p))

/-- Parts of a group by key, in order of first home lane (05 R111). -/
def partsBy {α : Type} [DecidableEq α] (key : Nat × Nat → α) (ths : List (Nat × Nat)) :
    List (α × List (Nat × Nat)) :=
  ths.foldl (fun (a : List (α × List (Nat × Nat))) t =>
    if a.any (fun p => p.1 = key t) then a.map (fun p => if p.1 = key t then (p.1, p.2 ++ [t]) else p)
    else a ++ [(key t, [t])]) []

/-- The threads leave their instruction, each for its next PC, and the group is partitioned by next PC: the part with
the lowest home lane keeps the entry, the others take free entries or are parked; more than one part, or BND, ends
the run (05 R111, 02 R43). An exemption from a breakpoint is used up (07 R135). -/
def leave (c : Iss) (bnd : Bool) (next : Nat × Nat → W32) (s : State) : State :=
  let s := forEach c.ths (fun t => State.modThread c.coh t.1 t.2 fun x => { x with pc := next t, exempt := none }) s
  match partsBy next c.ths with
  | [] => s
  | (pc, ths) :: more =>
    let g := ((s.core c.core).entries.find c.ent).getD { coh := c.coh, pc, ths }
    if more.isEmpty && !bnd then
      s.modCore c.core fun k => { k with entries := k.entries.put c.ent { g with pc, ths, ran := g.ran + 1, since := none } }
    else
      let s := endRun c s
      let s := s.modCore c.core (Core.keepEntry c.ent { coh := c.coh, pc, ths })
      noteHang c (forEach more (fun p => placePart c.core { coh := c.coh, pc := p.1, ths := p.2 }) s)

/-- Every thread goes on at PC + 1. -/
def leaveNext (c : Iss) (bnd : Bool) (s : State) : State := leave c bnd (fun _ => c.pc + 1) s

/-- The group leaves its slot, blocked until the operations of `waits` have completed, its PC at the instruction (04 R101). One
that is to execute the instruction again goes on with the checks it has begun (23 R434, log 84). With nothing to wait for it
goes on at PC + 1, and the run ends. -/
def leaveBlocked (c : Iss) (waits : List Nat) (again : Bool) (s : State) : State :=
  if waits.isEmpty then leaveNext c true s
  else
    let s := endRun c s
    let since := if again then ((s.core c.core).entries.find c.ent).bind Group.since else none
    noteHang c (s.modCore c.core (Core.keepEntry c.ent { coh := c.coh, pc := c.pc, ths := c.ths, waits, again, since }))

/-- A completed operation no longer blocks a group: with its last wait gone the group is ready, at the next PC, or at
the instruction again. -/
def releaseGroup (id : Nat) (g : Group) : Group :=
  if g.waits.contains id then
    let w := g.waits.filter fun x => x ≠ id
    if w.isEmpty then { g with waits := [], again := false, pc := if g.again then g.pc else g.pc + 1 }
    else { g with waits := w }
  else g

/-- A group that the end of an operation lets go on at its next instruction. -/
def freedBy (id : Nat) (g : Group) : Bool := g.waits = [id] && !g.again

/-- An operation is no longer outstanding, and the groups that waited for it go on, those of a saved cohort too. -/
def finishOp (id : Nat) (s : State) : State :=
  match s.ops.find id with
  | none => s
  | some o =>
    let freed := (((s.core o.core).entries.map Prod.snd) ++ (s.coh o.coh).savedGroups).filter (freedBy id)
    let s := (s.delOp id).modCore o.core fun k => { k with entries := k.entries.mapVals fun _ g => releaseGroup id g }
    let s := s.modCoh o.coh fun h => { h with savedGroups := h.savedGroups.map (releaseGroup id) }
    forEach freed (fun g => setPcs g.coh g.ths (g.pc + 1)) s

/-- A scalar register of a warp has a pending write. -/
def futurePending (s : State) (coh w reg : Nat) : Bool :=
  (s.opsOf coh w).any fun e => e.2.dests.any fun d => !d.vec && d.idx = reg

/-- The registers a mask names that are not pending, in the mask's bit positions (15 R297). -/
def futuresReady (s : State) (coh w : Nat) (mask : BitVec 32) (hi : Bool) : BitVec 32 :=
  ((upto 32).filter fun i => mask.getLsbD i && !futurePending s coh w (32 * hi.toNat + i)).foldl
    (fun m i => m ||| BitVec.twoPow 32 i) 0

/-- FWAIT's wait is over (15 R297). -/
def futuresMet (mask ready : BitVec 32) (any : Bool) : Bool := mask = 0 || (if any then ready ≠ 0 else ready = mask)

/-- Waits of a cohort that the end of an operation satisfies: FWAIT (15 R297) and MMWAIT (20 R390). -/
def wakeWaits (coh : Nat) (s : State) : State :=
  forEach (s.ops.filter fun e => e.2.coh = coh) (fun e s => match e.2.kind with
    | .fwait mask hi any dst =>
      let r := futuresReady s coh e.2.warp mask hi
      if futuresMet mask r any then finishOp e.1 (s.writeS coh e.2.warp dst (r.setWidth 64)) else s
    | .mmwait ops => if ops.any fun i => (s.ops.find i).isSome then s else finishOp e.1 s
    | _ => s) s

/-- Complete an operation: the groups that waited for it go on, and the waits it satisfies end. -/
def completeOp (id : Nat) (s : State) : State :=
  match s.ops.find id with
  | none => s
  | some o => wakeWaits o.coh (finishOp id s)

/-! ## Monitors (16 R311, R312; 17 R343) -/

/-- A condition of WAITC or SCMP on two numbers read as a type: 32-bit or 64-bit, signed or not (11 R202, 17 R343). -/
def condHolds (cond : Nat) (a b : Int) : Bool :=
  match cond with
  | 0 => a = b
  | 1 => a ≠ b
  | 2 => a < b
  | 3 => a ≤ b
  | 4 => b < a
  | _ => b ≤ a

/-- A number of `w` bytes read under an atomic type code: 1 and 3 are signed (17 R333). -/
def readTy (ty v : Nat) : Int :=
  let n := if ty < 2 then 32 else 64
  if ty % 2 = 1 then signExt n v else (v % 2 ^ n : Nat)

/-- Width in bytes of an atomic type code (17 R333). -/
def tyBytes (ty : Nat) : Nat := if ty < 2 then 4 else 8

/-- A WAITC whose word now meets its condition, at a home that can be reached, returns: DST, the view, a progress event
(16 R312, 17 R343, 31 R517). -/
def waitcReturn (id : Nat) (s : State) : State :=
  match s.ops.find id with
  | some { kind := .waitc key ty cond cmp dst _ _, coh, warp, core, ths, .. } =>
    let v := s.num key (tyBytes ty)
    if !s.unreachable (lineOf key) && condHolds cond (readTy ty v) (readTy ty cmp) then
      let s := s.writeS coh warp dst (BitVec.ofInt 64 (readTy ty v))
      let s := s.raiseView coh warp (s.home (lineOf key)).1
      completeOp id (progress core coh ths s)
    else s
  | _ => s

/-- Every write at the home of a watched line re-evaluates its monitors (16 R311). -/
def fireMonitors (line : Nat) (s : State) : State :=
  let ids := (s.ops.filter fun e => e.2.held.isNone && match e.2.kind with
    | .waitc key _ _ _ _ poll _ => lineOf key = line && !poll
    | _ => false).map Prod.fst
  forEach ids waitcReturn s

/-- A store of one of the device's own agents at a virtual address, when it can be written: the state and its stamp. -/
def devStore (ctx va n v vreq : Nat) (s : State) : State × Option Nat :=
  match translateDev s ctx va .write with
  | .ok key =>
    let (s, w) := s.homeStore (lineOf key) vreq 0 (cellsOf key n v)
    (fireMonitors (lineOf key) s, some w)
  | _ => (s, none)

/-! ## Launches and sets: what an end of their cohorts does -/

/-- The regions of a world: base and length (25 R444). -/
def Geo.regions (g : Geo) : List (Nat × Nat) :=
  [(g.desc, 256), (g.dirBase, 16 * g.dirCap), (g.tabBase, 128 * g.tabCap), (g.qBase, 32 * 2 ^ g.qLog2),
   (g.spillBase, g.spillSize)] ++ g.pools

/-- A range lies within one of the world's regions. -/
def Geo.inside (g : Geo) (va n : Nat) : Bool := g.regions.any fun r => r.1 ≤ va && va + n ≤ r.1 + r.2

/-- A number in a world's regions. -/
def Geo.number (g : Geo) (s : State) (ctx va n : Nat) : Option Nat :=
  if g.inside va n then match translateDev s ctx va .read with
    | .ok k => some (s.num k n)
    | .fault _ | .hole => none
  else none

/-- Take one from a count of cursors; none when it is out of range or cannot be read or written (25 R444). -/
def lowerCount (ctx : Nat) (g : Geo) (va : Nat) (s : State) : Option State :=
  match g.number s ctx va 4 with
  | some (n + 1) =>
    if Config.cursorMax ≤ n then none
    else match devStore ctx va 4 n 0 s with
      | (s, some _) => some s
      | (_, none) => none
  | some 0 | none => none

/-- Release a pin from CCUR or CPREV, whichever counts it now: the VERSION of its table's descriptor tells which (25 R448,
R455). -/
def releasePin (ctx : Nat) (g : Geo) (p : Nat × Nat) (s : State) : Option State := do
  let base ← g.number s ctx (g.desc + 8) 8
  let t := base + 128 * p.1
  let v ← g.number s ctx (t + 16) 8
  if base % 128 ≠ 0 || (v ≠ p.2 && v ≠ p.2 + 1) then none
  else lowerCount ctx g (t + if v = p.2 then 52 else 56) s

/-- Forget an open cursor. -/
def dropCursor (wk cur : Nat) (s : State) : State := s.modWorld wk fun w => { w with cursors := w.cursors.del cur }

/-- Close a cursor by WCLOSE: none, with nothing changed, where a count is out of range or cannot be reached, which is
CORRUPT (25 R444, R449, R455). -/
def closeCursor? (wk cur : Nat) (s : State) : Option State := do
  let w ← s.worlds.find wk
  let x ← w.cursors.find cur
  let s ← x.pins.foldlM (fun s p => releasePin (wk / 256) w.geo p s) s
  let s ← lowerCount (wk / 256) w.geo (w.geo.desc + 140) s
  some (dropCursor wk cur s)

/-- Close a cursor with its owner (25 R453): each count that can be reached falls. -/
def closeCursor (wk cur : Nat) (s : State) : State :=
  match s.worlds.find wk with
  | none => s
  | some w =>
    match w.cursors.find cur with
    | none => s
    | some x =>
      let s := forEach x.pins (fun p s => (releasePin (wk / 256) w.geo p s).getD s) s
      dropCursor wk cur ((lowerCount (wk / 256) w.geo (w.geo.desc + 140) s).getD s)

/-- What WAITPRED learns of a launch's predecessor (17 R345, 22 R401): none while it has not completed; else its status
and C. A launch with no predecessor has status 0; one that matched nothing has the completion floor. -/
def predecessor (s : State) (seq : Nat) : Option (Nat × Nat) :=
  match s.launches.find seq with
  | none => some (0, 0)
  | some l =>
    if !l.hasPred then some (0, 0)
    else match l.pred.bind fun p => s.launches.find p with
      | none => some (0, l.predFloor)
      | some x => if x.done then some (x.status, x.c) else none

/-- WAITPRED returns: the status, and the view (16 R320, 17 R345). -/
def predReturn (coh w dst : Nat) (p : Nat × Nat) (s : State) : State :=
  (s.writeS coh w dst (BitVec.ofNat 64 p.1)).raiseView coh w p.2

/-- The WAITPREDs whose predecessor has completed return. -/
def wakePreds (s : State) : State :=
  forEach s.ops (fun e s => match e.2.kind with
    | .waitpred dst => match predecessor s (s.coh e.2.coh).launch with
      | some p => completeOp e.1 (predReturn e.2.coh e.2.warp dst p s)
      | none => s
    | _ => s) s

/-- Complete a launch with a status: its cursor closes, its signal is written under a stamp at or above C, and C is
recorded (16 R319, 22 R400, 25 R455). -/
def completeLaunch (seq status : Nat) (s : State) : State :=
  match s.launches.find seq with
  | none => s
  | some l =>
    if l.done then s
    else
      let s := match l.cursor with
        | some (wk, cur) => closeCursor wk cur s
        | none => s
      let c := if status = 0 || status = 1 then l.hiC else 0
      let (s, w) := if l.signal = 0 then (s, none) else devStore l.ctx l.signal 8 (2 ^ 63 + status) c s
      let c := w.getD c
      let s := s.modCtx l.ctx fun x => if x.table.contains seq then x else { x with floor := max x.floor c }
      wakePreds (s.modLaunch seq fun l => { l with done := true, status, c })

/-- Release the sets a task holds: each release stamp rises to the given stamp (22 R418, R421). -/
def releaseSets (coh stamp : Nat) (s : State) : State :=
  s.modCtx (s.coh coh).ctx fun x => { x with
    decls := x.decls.map fun d => if d.holder = some coh then { d with holder := none, release := max d.release stamp }
      else d }

/-- The highest write stamp of a cohort's warps. -/
def Cohort.hmax (c : Cohort) : Nat := c.warps.foldl (fun a w => max a w.hst) 0

/-- End a core's matrix ownership: contents and status are lost (19 R353). -/
def MatrixUnit.drop (m : MatrixUnit) : MatrixUnit := { claims := m.claims }

/-- SBYTES of a granule on a core: the bytes in FULL and HELD stream slots there, at most a granule's (22 R410). -/
def heldBytes (s : State) (core ctx gran : Nat) : Nat :=
  let hs := (s.cohorts.filter fun e => e.2.core = core && e.2.ctx = ctx).flatMap fun e => e.2.held
  min 16384 (((hs.filter fun g => g.1 = gran).map Prod.snd).foldl (· + ·) 0)

/-- The residency table takes what the stream slots of a core now hold of some granules (22 R410). -/
def syncHeld (core ctx : Nat) (gs : List Nat) (s : State) : State :=
  let note := fun r g => residUpdate ctx g (fun e => { e with sbytes := heldBytes s core ctx g }) r
  s.modCore core fun k => { k with resid := gs.foldl note k.resid }

/-- A cohort's stream slots are no longer on its core. -/
def dropHeld (coh : Nat) (s : State) : State :=
  let h := s.coh coh
  syncHeld h.core h.ctx (h.held.map Prod.fst) (s.modCoh coh fun h => { h with held := [] })

/-- Take a cohort's groups, bins, parked threads, stream slots, pins and matrix ownership off its core. -/
def leaveCore (coh : Nat) (s : State) : State :=
  let core := (s.coh coh).core
  let s := dropHeld coh s
  let ents := ((s.core core).entries.filter fun e => e.2.coh = coh).map Prod.fst
  let s := s.modCore core fun k => { k with
    bins := k.bins.filter fun b => b.coh ≠ coh
    parked := k.parked.filter fun t => t.1 ≠ coh
    resid := (k.resid.map fun r => if r.pin = some coh then { r with pin := none } else r).filter fun r =>
      !(r.lbytes + r.sbytes = 0 && r.pin.isNone)
    mx := let m := { k.mx with claims := k.mx.claims.filter fun c => c ≠ coh }
          if m.owner = some coh then m.drop else m }
  forEach ents (freeEntry core) s

/-- Operations whose writes still perform after their cohort has gone (07 R125). -/
def Op.stillPerforms (o : Op) : Bool :=
  !o.sp && o.parts.any fun p => !p.done && match p.act with
    | .load => false
    | _ => true

/-- Drop the operations of a cohort, but for writes that still perform. -/
def dropOps (coh : Nat) (s : State) : State :=
  { s with ops := (s.ops.filter fun e => !(e.2.coh = coh) || e.2.stillPerforms).map fun e =>
      if e.2.coh = coh then (e.1, { e.2 with dests := [], wins := [] }) else e }

/-- Close every cursor a cohort opened (25 R453). -/
def closeCursors (coh : Nat) (s : State) : State :=
  let all := s.worlds.flatMap fun w => (w.2.cursors.filter fun c => c.2.coh = some coh).map fun c => (w.1, c.1)
  forEach all (fun x => closeCursor x.1 x.2) s

/-- The bytes of a trap record (07 R129), `qleft` records behind it. -/
def TrapRec.bytes (t : TrapRec) (qleft : Nat) : List Byte :=
  leBytes 1 t.code ++ leBytes 1 (t.imprecise.toNat + 2 * t.split.toNat) ++ leBytes 1 qleft ++ leBytes 1 0 ++
    leBytes 4 t.pc.toNat ++ leBytes 4 t.detail ++ leBytes 4 t.lmask.toNat ++ leBytes 8 t.addr ++ leBytes 8 t.aux

/-- End a cohort unsaved and forget it. -/
def endCohort (coh : Nat) (s : State) : State :=
  let s := releaseSets coh (s.coh coh).hmax s
  let s := closeCursors coh s
  let s := dropOps coh (leaveCore coh s)
  { s with cohorts := s.cohorts.del coh }

/-- The first `n` pages of an image region, where a context's translation puts them. -/
def imagePages (s : State) (own va n : Nat) : List Nat :=
  (upto n).map fun i => match frameDev s own (va + 4096 * i) .read with
    | .ok k => k
    | .fault _ | .hole => 0

/-- The image of a context that lies at an address of the issuer's (08 R169). -/
def imageAt (s : State) (own t va : Nat) : Option Image :=
  (s.ctx t).images.find? fun i => i.pages = imagePages s own va i.pages.length

/-- An image that a phase was restoring when it ended is discarded (07 R151). -/
def dropImage (own t va : Nat) (s : State) : State :=
  let gone := imageAt s own t va
  s.modCtx t fun x => { x with images := x.images.filter fun i => gone ≠ some i }

/-- End every cohort and every unfinished launch of a context: the launches complete as FAULTED, their stamps those of
their cohorts (07 R136, 31 R512). A phase in flight on the context ends with status 5, and a load phase discards the image
it was restoring (07 R151, 08 R169); one that waited for it finds the context neither ACTIVE nor SAVED (08 R170). -/
def endContext (ctx : Nat) (s : State) : State :=
  let cohs := (s.cohorts.filter fun e => e.2.ctx = ctx).map Prod.fst
  let s := forEach cohs (fun k s =>
    let h := s.coh k
    s.modLaunch h.launch fun l => { l with hiC := max l.hiC h.hmax }) s
  let ls := (s.launches.filter fun e => e.2.ctx = ctx && !e.2.done).map Prod.fst
  let phases := (s.ops.filter fun e => match e.2.kind with
    | .phase _ t _ _ _ => t = ctx
    | _ => false)
  let s := forEach phases (fun e s => match e.2.kind with
    | .phase save _ image dst queued =>
      let s := if save || queued then s else dropImage (s.coh e.2.coh).ctx ctx image s
      completeOp e.1 (s.writeS e.2.coh e.2.warp dst (if queued then 2 else 5))
    | _ => s) s
  let s := forEach ls (fun l => completeLaunch l 1) s
  let s := { s with
    bins := s.bins.filter fun b => !ls.contains b.launch
    batches := s.batches.filter fun b => !ls.contains b.launch }
  let s := forEach cohs endCohort s
  s.modCtx ctx fun x => { x with ovfUsed := [] }

/-- A context fault (07 R136, R137): every cohort of the context ends, its launches complete as FAULTED, the record
goes to FAULTREC with CODE 0x80 + cause and the records queued behind it, and the function's interrupt bit is set. A context
that faults while its virtual function is pre-empted is FAULTED when the function resumes (07 R153). -/
def contextFault (ctx cause qleft : Nat) (t : TrapRec) (s : State) : State :=
  let s := endContext ctx s
  let s := s.modCtx ctx fun x =>
    { x with st := .faulted, faultrec := leNat (TrapRec.bytes { t with code := 0x80 + cause } qleft)
             vfState := x.vfState.map fun _ => .faulted, vfAt := none, vfImage := none }
  s.modFn (fnOf ctx) fun f => { f with intstat := f.intstat ||| BitVec.twoPow 64 (ctx % 16) }

/-! ## Taking a trap (07 R124 to R133) -/

/-- What a warp's stopped lanes do to its queue: the record is appended, or the trap escalates (07 R131, R133). -/
def queueTrap (coh w : Nat) (t : TrapRec) (s : State) : State :=
  let x := s.warp coh w
  if x.handler && (x.hleft &&& t.lmask) ≠ 0 then contextFault (s.coh coh).ctx 2 0 t s
  else if Config.trapQueue ≤ x.trapq.length then contextFault (s.coh coh).ctx 1 0 t s
  else s.modWarp coh w fun x => { x with trapq := x.trapq ++ [t] }

/-- The parts by warp of threads that a trap stops at a PC, each held (07 R130). -/
def heldParts (coh : Nat) (pc : W32) (stopped : List (Nat × Nat)) : List Group :=
  (partsBy Prod.fst stopped).map fun p => { coh, pc, ths := p.2, held := true }

/-- Place the stopped threads of the group in entry `e` beside the rest of it. Where a partition under 05 R111 leaves a part
to trap (07 R135, 08 R164), that part is placed whole first, and is partitioned by warp only then (07 R130); otherwise the
trapping group is partitioned by warp at once (DESIGN CHOICE, log 37). -/
def placeStopped (core e : Nat) (apart : Bool) (rest : List Group) (whole : Group) (s : State) : State :=
  let parts := heldParts whole.coh whole.pc whole.ths
  if apart && !rest.isEmpty then
    let s := placeParts core e (rest ++ [whole]) s
    match (s.core core).entries.find? fun x => x.2 = { whole with ranAt := x.2.ranAt } with
    | some x => placeParts core x.1 parts s
    | none => s
  else placeParts core e (rest ++ parts) s

/-- Stop threads of a group that holds an entry with a trap, ONE operation for every trap of a group: the rest of the
group, if any, goes on at `rest`; the stopped threads are held, in parts by warp, each with its resume PC; each warp's
queue takes a record (07 R130). `group` is the group that traps: the whole one, or the part that a partition under
R111 leaves to trap (R135, 08 R164); SPLIT tells whether it holds threads of several warps (R129). A thread stopped
before its instruction keeps the permission to pass a breakpoint there (R135). -/
def stopThreads (c : Iss) (group stopped : List (Nat × Nat)) (t : Nat → TrapRec) (resume rest : W32) (s : State) :
    State :=
  let split := 1 < (sortedNats (group.map Prod.fst)).length
  let others := c.ths.filter fun x => !stopped.contains x
  let s := forEach others (fun x => State.modThread c.coh x.1 x.2 fun y =>
    { y with pc := rest, exempt := if rest = c.pc then y.exempt else none }) s
  let s := forEach stopped (fun x => State.modThread c.coh x.1 x.2 fun y =>
    { y with tpc := resume, held := true, exempt := if resume = c.pc then y.exempt else none }) s
  let left : List Group := if others.isEmpty then [] else [{ coh := c.coh, pc := rest, ths := others }]
  let s := placeStopped c.core c.ent (group == stopped) left { coh := c.coh, pc := c.pc, ths := stopped, held := true } s
  forEach (sortedNats (stopped.map Prod.fst)) (fun w s =>
    let lanes := (stopped.filter fun x => x.1 = w).map Prod.snd
    queueTrap c.coh w { t w with pc := c.pc, lmask := laneMask lanes, split } s) s

/-- A trap at an instruction of a slot's group: its run ends first (07 R125, R130). -/
def takeTrap (c : Iss) (group stopped : List (Nat × Nat)) (t : Nat → TrapRec) (resume rest : W32) (s : State) : State :=
  stopThreads c group stopped t resume rest (noteHang c (endRun c s))

/-- A trap of the whole group at its instruction, resuming there (07 R125). -/
def trapAll (c : Iss) (t : TrapRec) (s : State) : State := takeTrap c c.ths c.ths (fun _ => t) c.pc c.pc s

/-- Whether every outstanding long and matrix instruction of a warp has completed (02 R42, 07 R125). -/
def warpQuiet (s : State) (coh w : Nat) : Bool :=
  !(s.ops.any fun e => e.2.coh = coh && e.2.warp = w && (e.2.long || match e.2.kind with
    | .mat _ => e.2.busy
    | _ => false))

/-- The PREEMPTs at which a warp's threads are stopped. -/
def Warp.points (x : Warp) : List Point := x.threads.filterMap fun t => if t.stopped then t.point else none

/-- A warp's live state is what the PREEMPTs name at which its threads still stand; the cohort's what those of all its warps
name (07 R140; DEDUCED, log 86). -/
def nameLive (coh w : Nat) (s : State) : State :=
  let name (x : Warp) : Warp :=
    { x with live := if x.points.isEmpty then none else some (x.points.foldl (fun m p => m ||| p.regs) 0) }
  (s.modWarp coh w name).modCoh coh fun h =>
    let ps := h.warps.flatMap Warp.points
    { h with liveAcc := ps.foldl (fun m p => m ||| p.acc) 0, liveRanges := ps.flatMap Point.ranges }

/-- Deliver the head record of a warp's queue (07 R132): with no handler set up, a context fault of cause 3; otherwise
the record's threads are released at TVEC and the handler is active. -/
def deliverTrap (coh w : Nat) (s : State) : State :=
  let x := s.warp coh w
  match x.trapq with
  | [] => s
  | t :: r =>
    if x.tvec = 0xFFFFFFFF then contextFault (s.coh coh).ctx 3 r.length t s
    else
      let core := (s.coh coh).core
      let pc := x.tvec.setWidth 32
      let lanes := (upto 32).filter fun l => laneIn t.lmask l && (x.thread l).held
      let s := s.modWarp coh w fun x => { x with handler := true, hleft := laneMask lanes, hret := 0, trpcSet := false }
      let s := forEach lanes (fun l => State.modThread coh w l fun y =>
        { y with held := false, stopped := false, point := none, pc, exempt := none, keep := y.exempt }) s
      let s := nameLive coh w s
      let s := s.modCore core fun k => { k with
        entries := k.entries.mapVals fun _ g =>
          if g.coh = coh && g.held && g.ths.all (fun t => t.1 = w && lanes.contains t.2) then
            { g with held := false, pc } else g }
      drainParked core Config.groupEntries s

/-- The handler has ended: its record leaves the queue, and its threads that executed TRET go on at their resume PC,
or at TRPC when the handler wrote it, in parts by PC (07 R134). A thread that returns to the PC of its breakpoint may
pass it once, and so may one that had that permission when it trapped there before it executed (07 R135); one that a later
record of the queue names stays stopped for it (07 R131). -/
def endHandler (coh w : Nat) (s : State) : State :=
  let x := s.warp coh w
  let core := (s.coh coh).core
  let target (l : Nat) : W32 := if x.trpcSet then x.trpc.setWidth 32 else (x.thread l).tpc
  let lanes := (upto 32).filter fun l => laneIn x.hret l
  let again (l : Nat) : Bool := (x.trapq.drop 1).any fun t => laneIn t.lmask l
  let brk : Option W32 := match x.trapq with
    | t :: _ => if t.code = 0x0D then some t.pc else none
    | [] => none
  let ents := (s.core core).entries.filter fun e =>
    e.2.coh = coh && e.2.held && e.2.ths.all fun t => t.1 = w && lanes.contains t.2
  let s := s.modWarp coh w fun x => { x with handler := false, hleft := 0, hret := 0, trapq := x.trapq.drop 1 }
  let s := forEach lanes (fun l => State.modThread coh w l fun y =>
    { y with held := again l, tpc := target l, pc := target l
             exempt := if brk = some (target l) || y.keep = some (target l) then some (target l) else none, keep := none }) s
  let s := forEach ents (fun e s =>
    match partsBy (fun t => (target t.2, again t.2)) e.2.ths with
    | [] => s
    | ((pc, held), ths) :: more =>
      let s := s.modCore core (Core.keepEntry e.1 { coh, pc, ths, held })
      forEach more (fun p => placePart core { coh, pc := p.1.1, ths := p.2, held := p.1.2 }) s) s
  drainParked core Config.groupEntries s

/-- Handler threads of a warp have executed TRET: they are held until the last thread of the record has executed TRET
or EXIT; then the handler ends (07 R134). -/
def handlerReturn (coh w : Nat) (lanes : List Nat) (s : State) : State :=
  let m := laneMask lanes
  let s := s.modWarp coh w fun x => { x with hleft := x.hleft &&& ~~~m, hret := x.hret ||| m }
  if (s.warp coh w).hleft = 0 then endHandler coh w s else s

end Sys2Proof.Machine
end

