-- ==== Sys2Proof/Machine/Operands.lean ====
section
/-! DEFINITION. Operands: the guard (02 R28), every operand form read and written (02 R30 to R33; 11 R197, R204;
12 R219), the class of each instruction (02 R44), and the registers each one reads and writes at issue, for the
scoreboard and the marked registers (02 R41, R42). -/

namespace Sys2Proof.Machine

/-! ## The guard -/

/-- A thread's guard holds (02 R28). -/
def guardHolds (g : Guard) (t : Thread) : Bool := (t.readP g.pred.toNat) != g.neg

/-- The group's guard-holding threads. -/
def Iss.on (c : Iss) (f : Fields) (s : State) : List (Nat × Nat) :=
  c.ths.filter fun t => guardHolds f.grd (s.thread c.coh t.1 t.2)

/-- The guard-holding lanes of one warp of the group. -/
def Iss.lanesOn (c : Iss) (f : Fields) (s : State) (w : Nat) : List Nat :=
  ((c.on f s).filter fun t => t.1 = w).map Prod.snd

/-- The warps that execute a warp-scope instruction (02 R29). -/
def Iss.warpsOn (c : Iss) (f : Fields) (s : State) : List Nat := sortedNats ((c.on f s).map Prod.fst)

/-! ## Sources -/

/-- Word `n` of the kernel-argument bank of a cohort's launch (02 R32). -/
def State.argWord (s : State) (coh n : Nat) : W32 :=
  match s.launches.find (s.coh coh).launch with
  | some l => l.args.getD n 0
  | none => 0

/-- Words `n` and `n + 1` of the bank as one 64-bit value (02 R32). -/
def State.argPair (s : State) (coh n : Nat) : W64 := s.argWord coh (n + 1) ++ s.argWord coh n

/-- A signed immediate (02 R31). -/
def immInt (o : Operand) : Int := signExt 9 o.idx.toNat

/-- A source in a vector position (02 R31, R32; 11 R204). -/
def State.srcV (s : State) (coh w l : Nat) (o : Operand) : W32 :=
  match o.kind with
  | .vec => (s.warp coh w).readV o.idx.toNat l
  | .scalar => ((s.warp coh w).readS o.idx.toNat).setWidth 32
  | .imm => BitVec.ofInt 32 (immInt o)
  | .karg => s.argWord coh o.idx.toNat
  | .pred | .acc | .special | .none => 0

/-- A source in a scalar position (02 R31, R32; 11 R197). -/
def State.srcS (s : State) (coh w : Nat) (o : Operand) : W64 :=
  match o.kind with
  | .scalar => (s.warp coh w).readS o.idx.toNat
  | .imm => BitVec.ofInt 64 (immInt o)
  | .karg => s.argPair coh o.idx.toNat
  | .vec | .pred | .acc | .special | .none => 0

/-- A predicate source of a thread. -/
def State.srcP (s : State) (coh w l : Nat) (o : Operand) : Bool := (s.thread coh w l).readP o.idx.toNat

/-- A 64-bit value of a vector pair, or a scalar position (15 R270, 26 R464). -/
def State.srcPair (s : State) (coh w l : Nat) (o : Operand) : W64 :=
  match o.kind with
  | .vec => (s.warp coh w).readV (o.idx.toNat + 1) l ++ (s.warp coh w).readV o.idx.toNat l
  | .scalar | .imm | .karg | .pred | .acc | .special | .none => s.srcS coh w o

/-! ## Classes (02 R44) -/

/-- The classes of R44. -/
inductive Cls where
  | long | future | posted | matrix | ordering | blocking | runEnding | fixed
  deriving DecidableEq, Repr

/-- Whether a destination field names vz or sz: an atomic is then posted (02 R44). -/
def discards (o : Operand) : Bool := (o.kind = .vec && o.idx = 255) || (o.kind = .scalar && o.idx = 63)

/-- The class of an instruction; the device's own events are fixed. -/
def clsOf : Instr → Cls
  | .frcp _ | .frsq _ | .fsqrt _ | .fdiv _ | .fexp2 _ | .flog2 _ | .fsin _ | .fcos _ | .idiv _ | .irem _ | .sdiv _
  | .srem _ | .ld _ | .sld _ | .lds _ | .ldk _ | .mbxget _ | .rdtrap _ | .caprd _ | .ebud _ | .eresv _ | .resq _
  | .asstat _ | .mmstat _ => .long
  | .atom f | .atoms f | .satom f => if discards f.dst then .posted else .long
  | .acopy _ | .agath _ | .ascat _ | .ablkg _ | .ablks _ | .axpose _ | .subs _ | .rfence _ | .wspawn _ | .wkill _
  | .waddc _ | .wremc _ | .wqry _ | .wnext _ | .wclose _ | .wres _ | .wcol _ | .tspawn _ | .wdnext _ | .launch _
  | .texs _ | .texl _ | .texg _ | .texq _ | .twfence _ | .rayq _ | .texd _ => .future
  | .st _ | .sst _ | .sts _ | .pref _ | .evict _ | .redc _ | .mbxput _ | .slotf _ | .fcancel _ => .posted
  | .mmzero _ | .mmloop _ | .mmscale _ | .mmdrain _ | .mmstore _ | .mmload _ => .matrix
  | .fence _ | .mmready _ => .ordering
  | .waitc _ | .bar _ | .barWt _ | .fwait _ | .mmwait _ | .slotw _ | .waitpred _ | .reggrow _ | .wsync _ => .blocking
  | .reform _ | .wconv _ | .exit _ | .yield _ | .trap _ | .tret _ | .preempt _ | .ctxsave _ | .ctxload _ | .hcall _
  | .regshr _ => .runEnding
  | _ => .fixed

/-- Classes at which a fabric failure of a posted operation is raised (07 R127). -/
def Cls.raisesPosted : Cls → Bool
  | .ordering | .blocking | .runEnding => true
  | .long | .future | .posted | .matrix | .fixed => false

/-- Classes that first wait for the thread's outstanding long instructions (02 R41). -/
def Cls.waitsLong : Cls → Bool
  | .blocking | .runEnding => true
  | .long | .future | .posted | .matrix | .ordering | .fixed => false

/-! ## Registers read and written at issue -/

/-- A register use: vector or scalar, its number, and whether it reaches every lane of the warp. -/
structure RegUse where
  vec : Bool
  idx : Nat
  wide : Bool := false
  deriving DecidableEq, Repr

/-- The `n` registers an operand field names; vz and sz are no registers. -/
def usesOf (o : Operand) (n : Nat) : List RegUse :=
  match o.kind with
  | .vec => (upto n).filterMap fun i => if o.idx.toNat + i < 255 then some { vec := true, idx := o.idx.toNat + i } else none
  | .scalar => (upto n).filterMap fun i => if o.idx.toNat + i < 63 then some { vec := false, idx := o.idx.toNat + i } else none
  | .pred | .acc | .imm | .karg | .special | .none => []

/-- Registers read and written at issue. -/
structure Foot where
  reads : List RegUse
  writes : List RegUse
  deriving DecidableEq, Repr

/-- The plain footprint: DST written, SA, SB and the third source read, with a number of registers each. -/
def footPlain (f : Fields) (dn an bn : Nat) : Foot :=
  { reads := usesOf f.sa an ++ usesOf f.sb bn, writes := usesOf f.dst dn }

/-- The plain footprint of form C. -/
def footC (f : Fields) (dn an : Nat) : Foot :=
  { reads := usesOf f.sa an ++ usesOf f.sb 1 ++ usesOf f.third 1, writes := usesOf f.dst dn }

/-- A footprint in which DST is read. -/
def footStore (f : Fields) (dn an bn : Nat) : Foot :=
  { reads := usesOf f.dst dn ++ usesOf f.sa an ++ usesOf f.sb bn, writes := [] }

/-- Registers the address base of a global access takes. -/
def baseRegs (o : Operand) : Nat := if o.kind = .vec then 2 else 1

/-- Registers the second source of an atomic takes (17 R334). -/
def atomSrcRegs (f : Fields) : Nat :=
  if f.sb.kind = .vec then (if atom64 f then 2 else 1) * (if atomTwo f then 2 else 1) else if atomTwo f then 2 else 1

/-- A run of `n` vector registers from `v`. -/
def vecRun (v n : Nat) (wide : Bool) : List RegUse :=
  (upto n).filterMap fun i => if v + i < 255 then some { vec := true, idx := v + i, wide } else none

/-- The result quad of a sampler command (29 R500). -/
def quadVd (f : Fields) : List RegUse := vecRun (f.immBits 7 0) 4 false

/-- NROW of a form-X accumulator move (20 R377). -/
def nrowOf (f : Fields) : Nat := f.immBits 14 8 + 1

/-- The footprint of every instruction. Predicates are never pending and never marked. FTEST and FCANCEL do not wait on
SA (15 R295, R296); MMLOAD reads its registers when it executes, and a .J share of MMDRAIN marks nothing (20 R387,
R389). SMOVI.HI keeps bits [31:0] of DST: it counts as a read of DST, so that a marked DST traps and the mark stays (02 R42;
DESIGN CHOICE, log 94). -/
def footOf : Instr → Foot
  | .loopd f => { reads := usesOf f.dst 1, writes := usesOf f.dst 1 }
  | .cvtn f | .prmb f => { reads := usesOf f.dst 1 ++ usesOf f.sa 1 ++ usesOf f.sb 1, writes := usesOf f.dst 1 }
  | .ssel f | .saddr f | .imad f | .isel f | .ibfi f | .iaddc f | .idot4 f | .ffma f | .hfma2 f => footC f 1 1
  | .lea f => footC f 2 (baseRegs f.sa)
  | .smovi f =>
    { reads := if f.modn = 2 then usesOf f.dst 1 else [], writes := usesOf f.dst 1 }
  | .rdl f =>
    { reads := (usesOf f.sa 1).map (fun r => { r with wide := true }) ++ usesOf f.sb 1, writes := usesOf f.dst 1 }
  | .shfl f =>
    { reads := (usesOf f.sa 1).map (fun r => { r with wide := true }) ++ usesOf f.sb 1, writes := usesOf f.dst 1 }
  | .ld f => footPlain f (memRegs f.modn) (baseRegs f.sa) 1
  | .st f => footStore f (memRegs f.modn) (baseRegs f.sa) 1
  | .sst f => footStore f 1 1 1
  | .lds f => footPlain f (memRegs f.modn) 1 1
  | .sts f => footStore f (memRegs f.modn) 1 1
  | .ldk f => footPlain f (if f.dst.kind = .vec then memRegs f.modn else 1) 1 1
  | .pref f | .evict f => footPlain f 0 (baseRegs f.sa) 1
  | .acopy f | .agath f | .ascat f | .ablkg f | .ablks f | .axpose f | .tspawn f => footPlain f 1 1 2
  | .ftest f => { reads := [], writes := usesOf f.dst 1 }
  | .fcancel _ => { reads := [], writes := [] }
  | .atom f => footPlain f (if atom64 f then 2 else 1) (baseRegs f.sa) (atomSrcRegs f)
  | .atoms f => footPlain f (if atom64 f then 2 else 1) 1 (atomSrcRegs f)
  | .satom f => footPlain f 1 1 (atomSrcRegs f)
  | .redc f => footStore f 2 (baseRegs f.sa) (if f.sb.kind = .vec && atom64 f then 2 else 1)
  | .mbxput f => { reads := usesOf f.sa 1 ++ usesOf f.sb 8, writes := [] }
  | .mbxget f => { reads := usesOf f.sa 1, writes := usesOf f.dst 8 ++ usesOf f.sb 1 }
  | .mmdrain f =>
    { reads := []
      writes := if f.modn / 16 = 1 then [] else vecRun f.dst.idx.toNat (4 * nrowOf f) true }
  | .mmload _ => { reads := [], writes := [] }
  | .mmstore f => { reads := usesOf f.sb 1, writes := [] }
  | .wspawn f => { reads := usesOf f.sa 1, writes := usesOf f.dst 1 ++ usesOf f.sb 2 }
  | .wcol f => { reads := usesOf f.sa (baseRegs f.sa), writes := usesOf f.dst 1 ++ usesOf f.sb 2 }
  | .wkill f | .wremc f | .wres f | .waddc f => footPlain f 1 (baseRegs f.sa) 1
  | .texs f | .texg f => { footPlain f 1 1 2 with writes := usesOf f.dst 1 ++ quadVd f }
  | .texl f => { footPlain f 1 1 (if f.modn = 1 then 8 else 4) with writes := usesOf f.dst 1 ++ quadVd f }
  | .texq f => { footPlain f 1 1 1 with writes := usesOf f.dst 1 ++ quadVd f }
  | .texd f => { footPlain f 1 1 4 with writes := usesOf f.dst 1 ++ quadVd f }
  | .rayq f => footPlain f 1 1 8
  | .reggrow _ | .regshr _ | .preempt _ => { reads := [], writes := [] }
  | i =>
    match fieldsOf i with
    | some f => footPlain f 1 1 1
    | none => { reads := [], writes := [] }

/-- Whether a pending register is one of an instruction's registers, for the lanes at hand. -/
def Dest.meets (d : Dest) (u : RegUse) (lanes : BitVec 32) : Bool :=
  d.vec = u.vec && d.idx = u.idx && (!u.vec || u.wide || (d.lanes &&& lanes) ≠ 0)

/-- Whether a warp's instruction must wait for a pending register (02 R41). -/
def pendingMeets (s : State) (coh w : Nat) (us : List RegUse) (lanes : BitVec 32) : Bool :=
  (s.opsOf coh w).any fun e => e.2.dests.any fun d => us.any fun u => d.meets u lanes

/-- Whether a scalar register of a warp is pending. -/
def pendingS (s : State) (coh w reg : Nat) : Bool :=
  reg ≠ 63 && (s.opsOf coh w).any fun e => e.2.dests.any fun d => !d.vec && d.idx = reg

/-- The mark an instruction of a warp meets first, of the lowest lane (02 R42, 07 R127). Uses that reach other lanes are
judged by the instruction itself. -/
def poisonMet (x : Warp) (us : List RegUse) (lanes : List Nat) : Option Poison :=
  let hit := x.poison.filter fun p => us.any fun u => u.vec = p.vec && u.idx = p.idx && !u.wide &&
    (!p.vec || lanes.contains p.lane)
  hit.foldl (fun a p => match a with
    | none => some p
    | some q => if p.lane < q.lane then some p else some q) none

end Sys2Proof.Machine
end

