-- ==== Sys2Proof/Machine/Issue.lean ====
section
/-! DEFINITION. The issue path every instruction takes (02 R40 to R48, 04 R101, 07 R124 to R127): the checks of R48, a
deferred fabric failure, the waits of the scoreboard and of lookahead windows, marked registers, the instruction's own
checks, and then its effect. A stall leaves the group in its slot, and the instruction issues again at the slot's next
step. -/

namespace Sys2Proof.Machine

/-- How the checks an instruction makes before its effect end (07 R124). -/
inductive Gate where
  /-- the checks have passed -/
  | pass (s : State)
  /-- a check fails: the whole group traps -/
  | trap (t : TrapRec)
  /-- a stall: the group keeps its slot -/
  | hold (s : State)
  /-- the group leaves its slot until an operation completes, and executes the instruction again (22 R417) -/
  | block (s : State) (waits : List Nat)
  /-- a table walk reached memory that does not exist -/
  | hole

/-- Continue a chain of checks. -/
def Gate.andThen (g : Gate) (k : State → Gate) : Gate :=
  match g with
  | .pass s => k s
  | .trap t => .trap t
  | .hold s => .hold s
  | .block s w => .block s w
  | .hole => .hole

/-- Run a check for each element of a list, in order. The checks of operand values run over the guard-holding threads, or the
warps that have one (02 R28, R29): that "whatever the threads' guard values are" (02 R49) speaks of the checks of R48 alone
is the model's reading (DEDUCED, log 70). -/
def gateAll {α : Type} (l : List α) (k : α → State → Gate) (s : State) : Gate :=
  l.foldl (fun g x => g.andThen (k x)) (.pass s)

/-- The first failing check of 02 R48 for the group, which every record carries: check 6 fails for the group if the index lies
at or above the allocation of any warp of it. -/
def illegal (i : Instr) (f : Fields) (c : Iss) (s : State) : Option Nat :=
  match encOf i with
  | none => none
  | some e =>
    let ctx := (s.coh c.coh).ctx
    let alloc := c.warps.foldl (fun a w => min a (s.warp c.coh w).alloc) 256
    e.firstFail f (s.hasCap (fnOf ctx)) alloc (s.isUser ctx)

/-- A lookahead window of a thread of the group is used up (02 R40). -/
def windowShut (c : Iss) (s : State) : Bool :=
  s.ops.any fun e => e.2.coh = c.coh && e.2.wins.any fun x => x.2 = 0 && c.ths.contains (e.2.warp, x.1)

/-- An outstanding long instruction of a thread of the group (02 R41). -/
def longOut (c : Iss) (s : State) : Bool :=
  s.ops.any fun e => e.2.coh = c.coh && e.2.long && e.2.wins.any fun x => c.ths.contains (e.2.warp, x.1)

/-- Whether the scoreboard holds the instruction back (02 R41): a warp with no guard-holding thread reads and writes
nothing (R28, R29). -/
def scoreboard (i : Instr) (f : Fields) (c : Iss) (s : State) : Bool :=
  let ft := footOf i
  (c.warpsOn f s).any fun w => pendingMeets s c.coh w (ft.reads ++ ft.writes) (laneMask (c.lanesOn f s w))

/-- Whether the group stalls before the instruction (02 R40, R41). -/
def stalled (i : Instr) (f : Fields) (c : Iss) (s : State) : Bool :=
  windowShut c s || ((clsOf i).waitsLong && longOut c s) || scoreboard i f c s

/-- The lowest warp of the group with a deferred fabric failure, for a class that raises it (07 R127). -/
def deferred (i : Instr) (c : Iss) (s : State) : Option (Nat × TrapRec) :=
  if (clsOf i).raisesPosted then
    c.warps.findSome? fun w => (s.warp c.coh w).fabFail.map fun t => (w, t)
  else none

/-- The marked register the instruction reads first (02 R42). -/
def marked (i : Instr) (f : Fields) (c : Iss) (s : State) : Option Poison :=
  (c.warpsOn f s).findSome? fun w => poisonMet (s.warp c.coh w) (footOf i).reads (c.lanesOn f s w)

/-- The trap a mark raises: imprecise (07 R127). -/
def Poison.trapRec (p : Poison) : TrapRec := { code := p.code, detail := p.detail, addr := p.addr, imprecise := true }

/-- One instruction issues: each thread's lookahead windows have one instruction fewer left (02 R40). -/
def useWindows (c : Iss) (s : State) : State :=
  { s with ops := s.ops.mapVals fun _ o =>
      if o.coh = c.coh then { o with wins := o.wins.map fun x => if c.ths.contains (o.warp, x.1) then (x.1, x.2 - 1) else x }
      else o }

/-- The issue path. `chk` holds the instruction's own checks, `act` its effect, which also moves the group on. -/
def issue (i : Instr) (f : Fields) (chk : Iss → State → Gate) (act : Iss → State → State) (s : State) :
    Host.Outcome State Fault Refusal :=
  match curIss s with
  | none => .refused .noGroup
  | some c =>
    match illegal i f c s with
    | some n => .next (trapAll c { code := 1, detail := n } s)
    | none =>
      match deferred i c s with
      | some (w, t) => .next (trapAll c t (s.modWarp c.coh w fun x => { x with fabFail := none }))
      | none =>
        if stalled i f c s then .next s
        else
          match marked i f c s with
          | some p => .next (trapAll c p.trapRec s)
          | none =>
            match chk c s with
            | .pass t => .next (act c (useWindows c t))
            | .trap t => .next (trapAll c t s)
            | .hold t => .next t
            | .block t w => .next (leaveBlocked c w true t)
            | .hole => .fault .noSuchMemory

/-- No check of the instruction's own. -/
def noCheck (_ : Iss) (s : State) : Gate := .pass s

/-- A fixed-class instruction with no check of its own: its effect, then PC + 1. -/
def issueFixed (i : Instr) (f : Fields) (eff : Iss → State → State) (s : State) : Host.Outcome State Fault Refusal :=
  issue i f noCheck (fun c s => leaveNext c f.bnd (eff c s)) s

/-- Act once for every guard-holding thread, in order of home lane. -/
def perThread (c : Iss) (f : Fields) (s0 : State) (g : Nat → Nat → State → State) (s : State) : State :=
  forEach (c.on f s0) (fun t => g t.1 t.2) s

/-- Act once for every warp with a guard-holding thread, in ascending %warp order (02 R29). -/
def perWarp (c : Iss) (f : Fields) (s0 : State) (g : Nat → State → State) (s : State) : State :=
  forEach (c.warpsOn f s0) g s

/-- A vector instruction that writes one register per thread: every source of every thread is read from the state
before any is written (11 R213). -/
def effV (f : Fields) (val : State → Nat → Nat → Nat → W32) (c : Iss) (s : State) : State :=
  perThread c f s (fun w l => State.writeV c.coh w f.dst.idx.toNat l (val s c.coh w l)) s

/-- A scalar instruction that writes one register per warp. -/
def effS (f : Fields) (val : State → Nat → Nat → W64) (c : Iss) (s : State) : State :=
  perWarp c f s (fun w => State.writeS c.coh w f.dst.idx.toNat (val s c.coh w)) s

/-- The pending registers of a long operation. -/
def destsOf (us : List RegUse) (lanes : BitVec 32) : List Dest :=
  us.map fun u => { vec := u.vec, idx := u.idx, lanes := if u.wide then 0xFFFFFFFF else lanes }

/-- A long instruction of one warp: its results are known at issue and are written when it completes; until then its
registers are pending and its threads' lookahead windows run (02 R40 to R42). -/
def addCalc (i : Instr) (f : Fields) (c : Iss) (w : Nat) (lanes : List Nat) (ws : List RegW) (fl : BitVec 5)
    (s : State) : State :=
  s.addOp
    { kind := .calc ws fl, coh := c.coh, warp := w, core := c.core, pc := c.pc, ths := c.ths
      dests := destsOf (footOf i).writes (laneMask lanes)
      wins := lanes.map fun l => (l, f.la.toNat), long := true }

/-- A long-class vector computation: each warp's guard-holding threads get their results later. `val` gives a thread's
result and the flags it raises. -/
def issueLongV (i : Instr) (f : Fields) (val : State → Nat → Nat → Nat → W32 × BitVec 5) (s : State) :
    Host.Outcome State Fault Refusal :=
  issue i f noCheck (fun c s =>
    leaveNext c f.bnd (forEach (c.warpsOn f s) (fun w t =>
      let lanes := c.lanesOn f s w
      addCalc i f c w lanes (lanes.map fun l => .v f.dst.idx.toNat l (val s c.coh w l).1)
        (lanes.foldl (fun a l => a ||| (val s c.coh w l).2) 0) t) s)) s

/-- A long-class scalar instruction whose result is known at issue. -/
def issueLongS (i : Instr) (f : Fields) (chk : Iss → State → Gate) (val : State → Nat → Nat → W64) (s : State) :
    Host.Outcome State Fault Refusal :=
  issue i f chk (fun c s =>
    leaveNext c f.bnd (forEach (c.warpsOn f s) (fun w t =>
      addCalc i f c w (c.lanesOn f s w) [.s f.dst.idx.toNat (val s c.coh w)] 0 t) s)) s

end Sys2Proof.Machine
end

