-- ==== Sys2Proof/Machine/Converge.lean ====
section
/-! DEFINITION. Warp-wide waits (04 R92, R93, R103 to R105; 05 R121; 23 R437, R438): arrival, the end of a wait, the
convergence conflict, and what REGGROW and REGSHR then do. -/

namespace Sys2Proof.Machine

/-- The live threads of a warp: those that have not executed EXIT (04 R92). -/
def Warp.liveLanes (x : Warp) : List Nat := (upto 32).filter fun l => (x.threads[l]?).any fun t => t.st ≠ .finished

/-- Every live thread of a warp waits, and there is one. -/
def Warp.allWait (x : Warp) : Bool := !x.liveLanes.isEmpty && x.liveLanes.all fun l => (x.thread l).st = .waiting

/-- The distinct PCs at which the live threads of a warp are. -/
def Warp.pcs (x : Warp) : List Nat := sortedNats (x.liveLanes.map fun l => (x.thread l).pc.toNat)

/-- The wait of a warp is over: all live threads wait at one instruction (04 R103). -/
def Warp.met (x : Warp) : Bool := x.allWait && x.pcs.length = 1

/-- The convergence-conflict trap (04 R105): every waiting thread is released to its own waiting PC, held by the trap
without an entry. -/
def conflictTrap (core coh w : Nat) (s : State) : State :=
  let x := s.warp coh w
  match x.liveLanes with
  | [] => s
  | l0 :: _ =>
    let s := forEach x.liveLanes (fun l => State.modThread coh w l fun t => { t with tpc := t.pc, held := true }) s
    let s := park core coh (x.liveLanes.map fun l => (w, l)) s
    queueTrap coh w { code := 6, detail := x.pcs.length, pc := (x.thread l0).pc, lmask := laneMask x.liveLanes } s

/-- Operations of a warp that the end of a warp-wide wait must still wait for: pending scalars it reads or writes, and
for REGSHR every pending write to a vector register (23 R438). -/
def waitBehind (s : State) (coh w : Nat) (f : Fields) (shr : Bool) : List Nat :=
  ((s.opsOf coh w).filter fun e => e.2.dests.any fun d =>
    (shr && d.vec) || (!d.vec && (usesOf f.dst 1 ++ usesOf f.sa 1).any fun u => !u.vec && u.idx = d.idx)).map Prod.fst

/-- The count of REGGROW and REGSHR is legal (23 R437, DETAIL 57). -/
def goodCount (n : Nat) : Bool := n % 8 = 0 && 8 ≤ n && n ≤ 256

/-- Set a warp's allocation; registers at or above it are lost (04 R92). -/
def Warp.setAlloc (a : Nat) (x : Warp) : Warp :=
  { x with
    alloc := a
    vregs := x.vregs.filter fun e => e.1 < 32 * a
    poison := x.poison.filter fun p => !p.vec || p.idx < a }

/-- A warp-wide wait has ended with the warp's threads as one group in entry `e` at the instruction: WCONV goes on;
REGGROW and REGSHR act once for the warp (04 R103; 23 R437, R438). -/
def finishWait (core coh w e : Nat) (s : State) : State :=
  match (s.core core).entries.find e with
  | none => s
  | some g =>
    let c : Iss := { core, slot := 4, ent := e, coh, pc := g.pc, ths := g.ths }
    let onward (s : State) : State :=
      (setPcs coh g.ths (g.pc + 1) s).modCore core fun k =>
        { k with entries := k.entries.put e { g with pc := g.pc + 1 } }
    let x := s.warp coh w
    let blocked (ids : List Nat) (again : Bool) (s : State) : State :=
      s.modCore core fun k => { k with entries := k.entries.put e { g with waits := ids, again } }
    let counted (f : Fields) (shr : Bool) (k : Nat → State → State) : State :=
      let ids := waitBehind s coh w f shr
      if !ids.isEmpty then blocked ids true s
      else
        let n := (s.srcS coh w f.sa).toNat
        match poisonMet x (usesOf f.sa 1) [] with
        | some p => stopThreads c g.ths g.ths (fun _ => p.trapRec) g.pc g.pc s
        | none =>
          if goodCount n then k n s
          else stopThreads c g.ths g.ths (fun _ => { code := 2, detail := 57 }) g.pc g.pc s
    let anyGuard := x.liveLanes.any fun l => match (x.thread l).wait with
      | .conv => false
      | .grow _ b | .shr _ b => b
    match (x.thread (x.liveLanes.head?.getD 0)).wait with
    | .conv => onward s
    | .grow f _ =>
      if !anyGuard then onward s
      else counted f false fun n s =>
        if n ≤ x.alloc then onward (s.writeS coh w f.dst.idx.toNat (BitVec.ofNat 64 x.alloc))
        else
          let id := s.nextOp
          blocked [id] false (s.addOp
            { kind := .grow n f.dst.idx.toNat, coh, warp := w, core, pc := g.pc, ths := g.ths, busy := false
              dests := destsOf (usesOf f.dst 1) 0 })
    | .shr f _ =>
      if !anyGuard then onward s
      else counted f true fun n s =>
        let a := min x.alloc n
        onward ((s.modWarp coh w (Warp.setAlloc a)).writeS coh w f.dst.idx.toNat (BitVec.ofNat 64 a))

/-- The group of a warp whose wait is over, still at the instruction. -/
def metGroup (s : State) (coh w : Nat) : Group :=
  let x := s.warp coh w
  { coh, pc := (x.thread (x.liveLanes.head?.getD 0)).pc, ths := x.liveLanes.map fun l => (w, l) }

/-- End the wait of warps whose groups have entries; a warp that had to be parked instead goes on when it is drawn: past
a WCONV, or at its REGGROW or REGSHR, which it then executes again. -/
def endWaits (core coh : Nat) (ws : List Nat) (s : State) : State :=
  forEach ws (fun w s =>
    let l0 := (s.warp coh w).liveLanes.head?.getD 0
    match ((s.core core).entries.filter fun e => e.2.coh = coh && e.2.ths.contains (w, l0)).head? with
    | some e => finishWait core coh w e.1 s
    | none =>
      match (s.thread coh w l0).wait with
      | .conv => forEach (s.warp coh w).liveLanes (fun l => State.modThread coh w l fun t => { t with pc := t.pc + 1 }) s
      | .grow _ _ | .shr _ _ => s) s

/-- Warps of a list whose live threads all wait, at several instructions (04 R105). -/
def conflicts (core coh : Nat) (ws : List Nat) (s : State) : State :=
  forEach ws (fun w s =>
    let x := s.warp coh w
    if x.allWait && 1 < x.pcs.length then conflictTrap core coh w s else s) s

/-- Threads of the group reach a warp-wide wait; the others go on at PC + 1; the run ends. The warps whose wait this
ends form groups (04 R103, 05 R121). Where guard-failing members stay in the group while a warp's wait ends, or the waits
of several warps end at once, R103 gives the entry to the released group, R121 to the members that stay, and neither
says which prevails: the model treats them as the parts of R111, so that the part of lowest home lane keeps the entry and
another may be parked (DEDUCED, log 61). -/
def arrive (c : Iss) (gone : List (Nat × Nat)) (k : Nat × Nat → WaitKind) (s : State) : State :=
  let rest := c.ths.filter fun t => !gone.contains t
  let s := endRun c s
  let s := forEach rest (fun t => State.modThread c.coh t.1 t.2 fun x => { x with pc := c.pc + 1, exempt := none }) s
  let s := forEach gone (fun t => State.modThread c.coh t.1 t.2 fun x =>
    { x with st := .waiting, wait := k t, exempt := none }) s
  let s := noteHang c s
  let ws := sortedNats (gone.map Prod.fst)
  let met := ws.filter fun w => (s.warp c.coh w).met
  let parts := (if rest.isEmpty then [] else [{ coh := c.coh, pc := c.pc + 1, ths := rest }]) ++
    met.map (metGroup s c.coh)
  conflicts c.core c.coh ws (endWaits c.core c.coh met (placeParts c.core c.ent parts s))

/-- Free vector units of a core (04 R89, R93). -/
def freeVectorUnits (s : State) (core : Nat) : Nat :=
  let used := (s.cohorts.filter fun e => e.2.core = core && e.2.status = .resident).foldl (fun a e =>
    e.2.warps.foldl (fun a w => if w.retired then a else a + w.alloc / 8) a) 0
  Config.vectorUnits - used

/-- The pending REGGROW requests of a core, oldest first: operation, cohort, warp, count, destination (04 R93). -/
def growRequests (s : State) (core : Nat) : List (Nat × Nat × Nat × Nat × Nat) :=
  let all := s.ops.filterMap fun e => match e.2.kind with
    | .grow n dst =>
      if e.2.core = core && (s.coh e.2.coh).status = .resident then some (e.1, e.2.coh, e.2.warp, n, dst) else none
    | _ => none
  all.foldl (fun acc r =>
    let older := fun (x : Nat × Nat × Nat × Nat × Nat) => x.2.1 < r.2.1 || (x.2.1 = r.2.1 && x.2.2.1 ≤ r.2.2.1)
    acc.filter older ++ [r] ++ acc.filter fun x => !older x) []

/-- Whether every resident warp of a core waits in REGGROW (04 R93). -/
def allGrowing (s : State) (core : Nat) : Bool :=
  (s.cohorts.filter fun e => e.2.core = core && e.2.status = .resident).all fun e =>
    e.2.warps.zipIdx.all fun w => w.1.retired || (growRequests s core).any fun r => r.2.1 = e.1 && r.2.2.1 = w.2

/-- Whether a request fits the free units. -/
def growFits (s : State) (core : Nat) (r : Nat × Nat × Nat × Nat × Nat) : Bool :=
  r.2.2.2.1 / 8 ≤ freeVectorUnits s core + (s.warp r.2.1 r.2.2.1).alloc / 8

/-- Grant a request when it fits the free units: the warp's allocation grows, DST receives it, the warp goes on. -/
def grantGrow (core : Nat) (r : Nat × Nat × Nat × Nat × Nat) (s : State) : State :=
  match r with
  | (id, coh, w, n, dst) =>
    if growFits s core r then
      completeOp id ((s.modWarp coh w fun x => { x with alloc := n }).writeS coh w dst (BitVec.ofNat 64 n))
    else s

/-- REGGROW_GRANT (04 R93): the oldest request when it fits; with every resident warp waiting, oldest first, each request
that fits what is then free. -/
def execReggrowGrant (core : Nat) (s : State) : Host.Outcome State Fault Refusal :=
  let rs := growRequests s core
  .next (forEach (if allGrowing s core then rs else rs.take 1) (grantGrow core) s)

/-- REGGROW_FAILURE (04 R93): with every warp waiting and no request that fits, the youngest request fails. -/
def execReggrowFailure (core : Nat) (s : State) : Host.Outcome State Fault Refusal :=
  let rs := growRequests s core
  if allGrowing s core && !(rs.any (growFits s core)) then
    match rs.getLast? with
    | none => .next s
    | some (id, coh, w, _, dst) => .next (completeOp id (s.writeS coh w dst 0))
  else .next s

end Sys2Proof.Machine
end

