-- ==== Sys2Proof/Machine/Control.lean ====
section
/-! DEFINITION. Group 0: the control instructions (05 R109 to R123). -/

namespace Sys2Proof.Machine

/-- PC plus the signed offset of form B, modulo 2^32 (05 R115). -/
def relTarget (c : Iss) (f : Fields) : W32 := c.pc + f.imm

/-- An absolute target read per thread (05 R116). -/
def absTarget (s : State) (c : Iss) (f : Fields) (t : Nat × Nat) : W32 := s.srcV c.coh t.1 t.2 f.sa

/-- Branch: each guard-holding thread to its target, the others to PC + 1; then the partition (05 R111). -/
def branchTo (c : Iss) (f : Fields) (s0 : State) (target : Nat × Nat → W32) (s : State) : State :=
  let on := c.on f s0
  leave c f.bnd (fun t => if on.contains t then target t else c.pc + 1) s

/-- Write the link register of each guard-holding thread (05 R117). -/
def writeLink (c : Iss) (f : Fields) (s0 : State) (s : State) : State :=
  perThread c f s0 (fun w l => State.writeV c.coh w f.dst.idx.toNat l (c.pc + 1)) s

/-- NOP (05 R114). -/
def execNop (f : Fields) (s : State) : Host.Outcome State Fault Refusal :=
  issueFixed (.nop f) f (fun _ s => s) s

/-- BRA (05 R115). -/
def execBra (f : Fields) (s : State) : Host.Outcome State Fault Refusal :=
  issue (.bra f) f noCheck (fun c s => branchTo c f s (fun _ => relTarget c f) s) s

/-- BRX (05 R116). -/
def execBrx (f : Fields) (s : State) : Host.Outcome State Fault Refusal :=
  issue (.brx f) f noCheck (fun c s => branchTo c f s (absTarget s c f) s) s

/-- CALL (05 R117). -/
def execCall (f : Fields) (s : State) : Host.Outcome State Fault Refusal :=
  issue (.call f) f noCheck (fun c s => branchTo c f s (fun _ => relTarget c f) (writeLink c f s s)) s

/-- CALLX: the target is read before the link is written (05 R117). -/
def execCallx (f : Fields) (s : State) : Host.Outcome State Fault Refusal :=
  issue (.callx f) f noCheck (fun c s => branchTo c f s (absTarget s c f) (writeLink c f s s)) s

/-- RET: BRX under another opcode (05 R116). -/
def execRet (f : Fields) (s : State) : Host.Outcome State Fault Refusal :=
  issue (.ret f) f noCheck (fun c s => branchTo c f s (absTarget s c f) s) s

/-- The decision of VBRA: .ANY or .ALL over the group's voters (05 R118). -/
def vbraTaken (s : State) (c : Iss) (f : Fields) : Bool :=
  let vs := c.on f s
  let p := fun (t : Nat × Nat) => s.srcP c.coh t.1 t.2 f.sa
  if f.modn = 0 then vs.any p else !vs.isEmpty && vs.all p

/-- VBRA (05 R118). -/
def execVbra (f : Fields) (s : State) : Host.Outcome State Fault Refusal :=
  issue (.vbra f) f noCheck (fun c s =>
    leave c f.bnd (fun _ => if vbraTaken s c f then relTarget c f else c.pc + 1) s) s

/-- The lowest bin number that no bin of a core has (04 R97). -/
def Core.freeBin (k : Core) : Option Nat := (upto Config.bins).find? fun n => k.bins.all fun b => b.num ≠ n

/-- File one thread into the bin of its key, creating it, or park it (04 R97). -/
def fileThread (core coh : Nat) (pc : W32) (t : Nat × Nat) (s : State) : State :=
  let s := s.modThread coh t.1 t.2 fun x => { x with pc, exempt := none }
  let k := s.core core
  let binned := fun (bs : List Bin) => (setSt coh [t] .binned s).modCore core fun k => { k with bins := bs }
  if k.bins.any (fun b => b.coh = coh && b.pc = pc) then
    binned (k.bins.map fun b => if b.coh = coh && b.pc = pc then { b with ths := b.ths ++ [t] } else b)
  else match k.freeBin with
    | some n => binned (k.bins ++ [{ num := n, coh, pc, ths := [t] }])
    | none => park core coh [t] s

/-- REFORM (05 R120). Whether a thread that this REFORM files counts as binned for the hang detector at the end of this
very run (04 R107) is left open: the model judges before it files (DEDUCED, log 62). -/
def execReform (f : Fields) (s : State) : Host.Outcome State Fault Refusal :=
  issue (.reform f) f noCheck (fun c s =>
    let on := c.on f s
    let rest := c.ths.filter fun t => !on.contains t
    let s := noteHang c (endRun c s)
    let s := forEach on (fileThread c.core c.coh (c.pc + 1)) s
    let s := forEach rest (fun t => State.modThread c.coh t.1 t.2 fun x => { x with pc := c.pc + 1, exempt := none }) s
    placeParts c.core c.ent (if rest.isEmpty then [] else [{ coh := c.coh, pc := c.pc + 1, ths := rest }]) s) s

/-- WCONV (05 R121). -/
def execWconv (f : Fields) (s : State) : Host.Outcome State Fault Refusal :=
  issue (.wconv f) f noCheck (fun c s => arrive c (c.on f s) (fun _ => .conv) s) s

/-- What the exit of threads does to a warp: its handler may end, its wait may end, or its threads may conflict; a
trap left for a warp with no live thread is a context fault of cause 4 (04 R104, R105; 07 R134). -/
def afterExit (core coh w : Nat) (lanes : List Nat) (s : State) : State :=
  let active := (s.warp coh w).handler
  let s := s.modWarp coh w fun x => { x with hleft := x.hleft &&& ~~~(laneMask lanes) }
  let s := if active && (s.warp coh w).hleft = 0 then endHandler coh w s else s
  let x := s.warp coh w
  match x.liveLanes, x.trapq with
  | [], t :: r => contextFault (s.coh coh).ctx 4 r.length t s
  | [], [] => s
  | _ :: _, _ =>
    if x.met then endWaits core coh [w] (placePart core (metGroup s coh w) s)
    else conflicts core coh [w] s

/-- EXIT (05 R122). -/
def execExit (f : Fields) (s : State) : Host.Outcome State Fault Refusal :=
  issue (.exit f) f noCheck (fun c s =>
    let on := c.on f s
    let rest := c.ths.filter fun t => !on.contains t
    let s := endRun c s
    let s := forEach rest (fun t => State.modThread c.coh t.1 t.2 fun x => { x with pc := c.pc + 1, exempt := none }) s
    let s := noteHang { c with ths := rest } (setSt c.coh on .finished s)
    let s := placeParts c.core c.ent (if rest.isEmpty then [] else [{ coh := c.coh, pc := c.pc + 1, ths := rest }]) s
    forEach (sortedNats (on.map Prod.fst)) (fun w s =>
      afterExit c.core c.coh w ((on.filter fun t => t.1 = w).map Prod.snd) s) s) s

/-- YIELD (05 R123). -/
def execYield (f : Fields) (s : State) : Host.Outcome State Fault Refusal :=
  issue (.yield f) f noCheck (fun c s =>
    let n := f.immBits 15 0
    let back := if (c.on f s).isEmpty || n = 0 then none else some n
    (leaveNext c true s).modCore c.core fun k =>
      { k with entries := k.entries.modify c.ent fun g => { g with backoff := back, yielded := back.isSome } }) s

/-- LOOPD (05 R119). -/
def execLoopd (f : Fields) (s : State) : Host.Outcome State Fault Refusal :=
  issue (.loopd f) f noCheck (fun c s =>
    let dec := fun (s : State) (w : Nat) => (s.warp c.coh w).readS f.dst.idx.toNat - 1
    branchTo c f s (fun t => if dec s t.1 ≠ 0 then relTarget c f else c.pc + 1)
      (perWarp c f s (fun w => State.writeS c.coh w f.dst.idx.toNat (dec s w)) s)) s

end Sys2Proof.Machine
end

