-- ==== Sys2Proof/Machine/Fetch.lean ====
section
/-! DEFINITION. What an issue step finds before it executes an instruction (02 R25, R43; 04 R107; 07 R135): a boundary
after the 24th instruction, a suspended fetch or a stalled issue, a trap that is due, a breakpoint, a failed
fetch, an opcode that names no instruction, or an instruction. And the passing of time at a turn. -/

namespace Sys2Proof.Machine

/-- What an issue step finds. -/
inductive Found where
  | empty | suspended | due | boundary | hang | breakpoint | fetchFault | unassigned | hole
  | instr (i : Instr)
  deriving DecidableEq, Repr

/-- The address of the instruction at a PC of a cohort (02 R25). -/
def fetchAddr (s : State) (coh : Nat) (pc : W32) : Nat := ((s.coh coh).codebase.toNat + 12 * pc.toNat) % 2 ^ 64

/-- The key of each of the instruction's 12 bytes; the first failure in order. -/
def fetchKeys (s : State) (core ctx : Nat) : List Nat → Except Trans (List Nat)
  | [] => .ok []
  | va :: r =>
    match translate s core ctx va .fetch with
    | .ok k =>
      match fetchKeys s core ctx r with
      | .ok ks => .ok (k :: ks)
      | .error t => .error t
    | t => .error t

/-- The 12 bytes of the instruction a group is at, or how its fetch fails. The spec lets a word fetched from a location
that the program wrote be the old or the new word (02 R27); that it is always the one memory holds is the model's choice
(DESIGN CHOICE, log 59). -/
def fetchBytes (s : State) (c : Iss) : Except Trans (List Byte) :=
  let va := fetchAddr s c.coh c.pc
  match fetchKeys s c.core (s.coh c.coh).ctx ((upto instrBytes).map fun i => (va + i) % 2 ^ 64) with
  | .ok ks => .ok (ks.map s.byte)
  | .error t => .error t

/-- The first byte of the instruction that the fabric fails to bring from a peer, and the DETAIL: cause and module (07 R127, 31
R517, R520; log 64). -/
def fetchLost (s : State) (c : Iss) : Option (Nat × Nat) :=
  let vas := (upto instrBytes).map fun i => (fetchAddr s c.coh c.pc + i) % 2 ^ 64
  match fetchKeys s c.core (s.coh c.coh).ctx vas with
  | .ok ks => (vas.zip ks).findSome? fun x =>
    (s.agentLoss (lineOf x.2)).map fun cause => (x.1, cause * 65536 + peerOf (lineOf x.2))
  | .error _ => none

/-- The lowest breakpoint register that the PC of a group matches for a warp, as the run began with it (07 R135,
R160). -/
def breakAt (s : State) (c : Iss) (w : Nat) : Option Nat :=
  (upto 4).find? fun n =>
    let x := s.runReg c.coh w (0x20 + n)
    x.getLsbD 63 && x.setWidth 32 = c.pc

/-- The members of a group that its PC's breakpoint stops (07 R135). -/
def breakThs (s : State) (c : Iss) : List (Nat × Nat) :=
  c.ths.filter fun t => (breakAt s c t.1).isSome && (s.thread c.coh t.1 t.2).exempt ≠ some c.pc

/-- An atomic-set check of a warp of the group is pending: the warp's fetch is suspended, and no group that holds a
thread of it issues (07 R124, 22 R416). -/
def fetchSuspended (s : State) (c : Iss) : Bool :=
  s.ops.any fun e => e.2.coh = c.coh && (match e.2.kind with
    | .setWait _ => true
    | _ => false) && e.2.ths.any fun t => c.ths.any fun x => x.1 = t.1

/-- The group's commands are still entering the matrix unit's queue: its issue stalls (19 R361). -/
def issueStalls (s : State) (c : Iss) : Bool := (s.core c.core).mx.late.any fun x => x.ent = c.ent

/-- What the issue step of the slot of `cur` finds. -/
def found (s : State) : Found :=
  match curIss s with
  | none => .empty
  | some c =>
    match (s.core c.core).entries.find c.ent with
    | none => .empty
    | some g =>
      if fetchSuspended s c || issueStalls s c then .suspended
      else if c.ths.any (fun t => (s.thread c.coh t.1 t.2).due) then .due
      else if c.ths.any (fun t => (s.thread c.coh t.1 t.2).hang) then .hang
      else if Config.runLimit ≤ g.ran then .boundary
      else if !(breakThs s c).isEmpty then .breakpoint
      else if (fetchLost s c).isSome then .fetchFault
      else match fetchBytes s c with
        | .error .hole => .hole
        | .error _ => .fetchFault
        | .ok bs =>
          match decode bs with
          | .instr i _ => .instr i
          | .unassigned _ => .unassigned
          | .short => .unassigned

/-- Core cycles and dispatcher cycles pass, TLBs drop translations of their own accord, and the fabric loses what it loses
(01 R15, 07 R157, 08 R174, 31 R517). -/
def passTime (t : Turn) (s : State) : State :=
  let s := { s with
    cores := s.cores.mapVals fun _ k => { k with cycle := k.cycle + t.cycles }
    dclk := s.dclk + t.dcycles, lost := t.lost.filter fun x => 1 ≤ x.2 && x.2 ≤ 4 }
  forEach t.tlbDrop (fun d s =>
    if d.1 then s.modCore d.2.1 fun k => { k with tlb := k.tlb.eraseIdx d.2.2 }
    else { s with dieTlb := FMap.put d.2.1 ((s.dieTlbOf d.2.1).eraseIdx d.2.2) s.dieTlb }) s

/-- The fetched instruction's page is noted in the TLBs. -/
def noteFetch (s : State) : State :=
  match curIss s with
  | none => s
  | some c => s.tlbNote c.core (s.coh c.coh).ctx (fetchAddr s c.coh c.pc)

end Sys2Proof.Machine
end

