-- ==== Sys2Proof/Machine/Arbitrate.lean ====
section
/-! DEFINITION. The issue slots' own events: arbitration, run boundaries, bin ages, backoffs, hangs, breakpoints, failed
fetches, unassigned opcodes and the delivery of traps (02 R43, R45; 04 R97 to R101, R107; 05 R123; 07 R132, R135). -/

namespace Sys2Proof.Machine

/-- A candidate of an arbitration round: priority, fullness, age stamp and cyclic position (04 R100). -/
structure Cand where
  prio : Nat
  full : Bool
  age : Nat
  pos : Nat
  deriving DecidableEq, Repr

/-- Positions in the cyclic order of key 4: 160 entries and 64 bins. -/
def cyclePlaces : Nat := Config.groupEntries + Config.bins

/-- Whether one candidate is preferred to another, after the last winner's position (04 R100). The bound of R102 is read with
these keys: what "higher priority" excludes there is any candidate that an earlier key prefers, a full bin or an older cohort
of equal %prio among them (DEDUCED, log 79). -/
def Cand.beats (last : Nat) (a b : Cand) : Bool :=
  if a.prio ≠ b.prio then b.prio < a.prio
  else if a.full ≠ b.full then a.full
  else if a.age ≠ b.age then a.age < b.age
  else (a.pos + cyclePlaces - last - 1) % cyclePlaces < (b.pos + cyclePlaces - last - 1) % cyclePlaces

/-- The home lanes a bin covers. -/
def Bin.lanes (b : Bin) : List Nat := sortedNats (b.ths.map Prod.snd)

/-- A bin can be drawn (04 R98). -/
def Bin.drawable (b : Bin) : Bool := b.lanes.length = 32 || b.ripe

/-- A group may win a slot: not blocked, not held, not backing off, not in a slot, and its cohort not being stopped. -/
def groupReady (s : State) (k : Core) (e : Nat) (g : Group) : Bool :=
  g.waits.isEmpty && !g.held && g.backoff.isNone && !k.slots.contains (some e) && !(s.coh g.coh).fallback &&
    !(s.coh g.coh).wounded

/-- The candidates of a round on a core. A drawable bin for which no entry is free is not drawn (04 R98); whether it can
still win a round is left open, and here it is no candidate, so that another one wins (DEDUCED, log 60). -/
def candidates (s : State) (core : Nat) : List Cand :=
  let k := s.core core
  let gs := (k.entries.filter fun e => groupReady s k e.1 e.2).map fun e =>
    ({ prio := (s.coh e.2.coh).prio, full := e.2.ths.length = 32, age := e.2.coh, pos := e.1 } : Cand)
  let bs := (k.bins.filter fun b => b.drawable && k.freeEntry.isSome && !(s.coh b.coh).fallback &&
      !(s.coh b.coh).wounded).map fun b =>
    ({ prio := (s.coh b.coh).prio, full := b.lanes.length = 32, age := b.coh,
       pos := Config.groupEntries + b.num } : Cand)
  gs ++ bs

/-- The winner of a round. -/
def winner (last : Nat) : List Cand → Option Cand
  | [] => none
  | c :: r =>
    match winner last r with
    | none => some c
    | some d => if c.beats last d then some c else some d

/-- The threads a draw takes from a bin: for each home lane the thread of the lowest warp, in lane order (04 R98). -/
def drawn (b : Bin) : List (Nat × Nat) :=
  b.lanes.filterMap fun l =>
    (sortedNats ((b.ths.filter fun t => t.2 = l).map Prod.fst)).head?.map fun w => (w, l)

/-- Draw a bin into an entry. -/
def drawBin (core e : Nat) (b : Bin) (s : State) : State :=
  let ths := drawn b
  let left := b.ths.filter fun t => !ths.contains t
  let s := s.modCore core fun k => { k with
    bins := (k.bins.map fun x => if x.num = b.num then { x with ths := left } else x).filter fun x => !x.ths.isEmpty }
  putEntry core e { coh := b.coh, pc := b.pc, ths } s

/-- A bin's age counts the rounds since its first thread; above BINAGE it is drawable (04 R97, R98). -/
def ageBins (core : Nat) (s : State) : State :=
  s.modCore core fun k => { k with bins := k.bins.map fun b =>
    { b with age := b.age + 1, ripe := (s.ctx (s.coh b.coh).ctx).binage.toNat < b.age + 1 } }

/-- A backoff that has run out ends (05 R123). -/
def Group.expire (g : Group) : Group := if g.backoff = some 0 then { g with backoff := none } else g

/-- Groups whose backoff has run out are candidates again (05 R123). -/
def endBackoffs (core : Nat) (s : State) : State :=
  s.modCore core fun k => { k with entries := k.entries.mapVals fun _ g => g.expire }

/-- A round counts toward every backoff. -/
def countBackoffs (core : Nat) (s : State) : State :=
  s.modCore core fun k => { k with entries := k.entries.mapVals fun _ g => { g with backoff := g.backoff.map (· - 1) } }

/-- Put the winner in a slot: a run of each of its warps begins (07 R160). -/
def seat (core slot : Nat) (c : Cand) (s : State) : State :=
  let inSlot (e : Nat) (s : State) : State :=
    let s := s.modCore core fun k => { k with
      slots := k.slots.set slot (some e), lastWin := c.pos, entries := k.entries.modify e fun g => { g with yielded := false } }
    match issOf s core slot with
    | some g => forEach g.warps (State.beginRun g.coh) s
    | none => s
  if c.pos < Config.groupEntries then inSlot c.pos s
  else match (s.core core).freeEntry, (s.core core).bins.find? (fun b => b.num + Config.groupEntries = c.pos) with
    | some e, some b => inSlot e (drawBin core e b s)
    | _, _ => s

/-- ARBITRATION_ROUND (04 R100): a slot that holds no group holds a round. -/
def execArbitrationRound (core slot : Nat) (s : State) : Host.Outcome State Fault Refusal :=
  if (s.core core).slots[slot]? = some none then
    let s := endBackoffs core (ageBins core s)
    .next (countBackoffs core (match winner (s.core core).lastWin (candidates s core) with
      | some c => seat core slot c s
      | none => s))
  else .next s

/-- RUN_FORCED_BOUNDARY (02 R43): the 24th instruction of a run ends it. -/
def execRunForcedBoundary (core slot : Nat) (s : State) : Host.Outcome State Fault Refusal :=
  match issOf s core slot with
  | none => .next s
  | some c =>
    match (s.core core).entries.find c.ent with
    | none => .next s
    | some g =>
      if g.ran < Config.runLimit then .next s
      else .next (noteHang c ((endRun c s).modCore core fun k =>
        { k with entries := k.entries.modify c.ent fun g => { g with ran := 0 } }))

/-- BIN_AGE_EXPIRY (04 R98): a bin older than BINAGE is drawable. -/
def execBinAgeExpiry (core bin : Nat) (s : State) : Host.Outcome State Fault Refusal :=
  .next (s.modCore core fun k => { k with bins := k.bins.map fun b =>
    if b.num = bin && (s.ctx (s.coh b.coh).ctx).binage.toNat < b.age then { b with ripe := true } else b })

/-- YIELD_BACKOFF_EXPIRY (05 R123). -/
def execYieldBackoffExpiry (core entry : Nat) (s : State) : Host.Outcome State Fault Refusal :=
  .next (s.modCore core fun k => { k with entries := k.entries.modify entry Group.expire })

/-- The group of an entry, with the slot it is in, or slot 4 when it is in none. -/
def entIss (s : State) (core entry : Nat) : Option Iss :=
  match (s.core core).entries.find entry with
  | none => none
  | some g =>
    let k := s.core core
    some { core, slot := ((k.slots.zipIdx.find? fun x => x.1 = some entry).map Prod.snd).getD 4, ent := entry
           coh := g.coh, pc := g.pc, ths := g.ths }

/-- HANG_TRAP (04 R107): the warps of the group with a member due take the trap; its members' counts return to zero.
The trap of a group that a YIELD backed off waits until the group next wins a slot (05 R123). -/
def execHangTrap (core entry : Nat) (s : State) : Host.Outcome State Fault Refusal :=
  match entIss s core entry with
  | none => .next s
  | some c =>
    let due := c.ths.filter fun t => (s.thread c.coh t.1 t.2).hang
    let held := ((s.core core).entries.find entry).any fun g => g.held || !g.waits.isEmpty || (g.yielded && c.slot = 4)
    if due.isEmpty || held then .next s
    else
      let ws := sortedNats (due.map Prod.fst)
      let stopped := c.ths.filter fun t => ws.contains t.1
      let top := fun (w : Nat) => (c.lanesOf w).foldl (fun a l => max a (s.thread c.coh w l).spin) 0
      let rec_ := fun (w : Nat) => ({ code := 7, detail := top w % 2 ^ 32 } : TrapRec)
      let t := if c.slot < 4 then takeTrap c c.ths stopped rec_ c.pc c.pc s
        else stopThreads c c.ths stopped rec_ c.pc c.pc s
      let n := (t.core core).runNo
      .next (forEach due (fun t => State.modThread c.coh t.1 t.2 fun x => { x with spin := 0, zeroAt := n, hang := false }) t)

/-- BREAKPOINT (07 R135): the group is partitioned, and the members that are not exempt trap; the exempt ones go on to
execute the instruction. -/
def execBreakpoint (core slot : Nat) (s : State) : Host.Outcome State Fault Refusal :=
  match issOf s core slot with
  | none => .next s
  | some c =>
    let stopped := breakThs s c
    if stopped.isEmpty then .next s
    else .next (takeTrap c stopped stopped (fun w => { code := 0x0D, detail := (breakAt s c w).getD 0 }) c.pc c.pc s)

/-- The record of a memory fault (07 R128, R129): AUX bit 0 a write, bit 1 a fetch, bit 2 an engine. -/
def memFault (code addr aux : Nat) : TrapRec := { code := 3, detail := code, addr, aux }

/-- The first byte of the instruction whose fetch fails, and how. -/
def fetchFailure (s : State) (c : Iss) : Option (Nat × Trans) :=
  translateAll s c.core (s.coh c.coh).ctx .fetch ((upto instrBytes).map fun i => (fetchAddr s c.coh c.pc + i) % 2 ^ 64)

/-- FETCH_FAULT (02 R25, 05 R112): the memory fault at the PC, before any field is examined; an instruction
that the fabric fails to bring from a peer raises the fabric trap (31 R517, R520; log 64). -/
def execFetchFault (core slot : Nat) (s : State) : Host.Outcome State Fault Refusal :=
  match issOf s core slot with
  | none => .next s
  | some c =>
    match fetchFailure s c with
    | some (va, .fault n) => .next (trapAll c (memFault n va 2) s)
    | some (_, .hole) => .fault .noSuchMemory
    | some (_, .ok _) => .next s
    | none => match fetchLost s c with
      | some (va, detail) => .next (trapAll c { code := 0x0E, detail, addr := va } s)
      | none => .next s

/-- UNASSIGNED_OPCODE (02 R45, R48): check 1, then check 2. -/
def execUnassignedOpcode (core slot : Nat) (s : State) : Host.Outcome State Fault Refusal :=
  match issOf s core slot with
  | none => .next s
  | some c =>
    match fetchBytes s c with
    | .error _ => .next s
    | .ok bs =>
      match decode bs with
      | .unassigned _ => .next (trapAll c { code := 1, detail := if bits (leNat bs) 95 93 ≠ 0 then 1 else 2 } s)
      | .instr _ _ | .short => .next s

/-- A trap waits for a group of the warp that backs off (05 R123). -/
def trapDue (x : Warp) : Bool := x.threads.any Thread.due

/-- TRAP_DELIVERY (07 R132): with no handler active, once the warp's outstanding long and matrix instructions have
completed (02 R42, 07 R125) and every thread of a record has stopped. -/
def execTrapDelivery (cohort warp : Nat) (s : State) : Host.Outcome State Fault Refusal :=
  let x := s.warp cohort warp
  if (s.coh cohort).status = .resident && !x.handler && !x.trapq.isEmpty && !trapDue x && warpQuiet s cohort warp then
    .next (deliverTrap cohort warp s)
  else .next s

end Sys2Proof.Machine
end

