-- ==== Sys2Proof/Machine/Sets.lean ====
section
/-! DEFINITION. Atomic sets (22 R415 to R422): what an access touches, acquiring, waiting, wounding, sealing, and the
undo records a write leaves. -/

namespace Sys2Proof.Machine

/-- An access: virtual address and length. -/
abbrev Acc := Nat × Nat

/-- Whether a range and a declared set share a byte. -/
def DeclSet.meets (d : DeclSet) (a : Acc) : Bool := max a.1 d.base < min (a.1 + a.2) (d.base + d.len)

/-- Insert a set by base address. -/
def insertDecl (d : DeclSet) : List DeclSet → List DeclSet
  | [] => [d]
  | x :: r => if d.base < x.base then d :: x :: r else x :: insertDecl d r

/-- The sets of a context that accesses reach, in ascending address order (22 R416). -/
def reachedSets (s : State) (ctx : Nat) (as_ : List Acc) : List DeclSet :=
  ((s.ctx ctx).decls.filter fun d => as_.any d.meets).foldl (fun l d => insertDecl d l) []

/-- Whether a task holds a set. -/
def DeclSet.heldBy (d : DeclSet) (coh : Nat) : Bool := d.holder = some coh

/-- The tasks whose groups wait for a set, by age stamp. -/
def setWaiters (s : State) (ctx num : Nat) : List Nat :=
  sortedNats ((s.ops.filter fun e => match e.2.kind with
    | .setWait n => n = num && (s.coh e.2.coh).ctx = ctx
    | _ => false).map fun e => e.2.coh)

/-- A task acquires a set: its warps' views rise to the release stamp (22 R417). -/
def acquireSet (coh : Nat) (d : DeclSet) (s : State) : State :=
  let s := s.modCtx (s.coh coh).ctx fun x => { x with
    decls := x.decls.map fun e => if e.num = d.num then { e with holder := some coh } else e }
  s.modCoh coh fun h => { h with warps := h.warps.map fun w => { w with view := max w.view d.release } }

/-- Whether an operation is an access or an engine command, which a wound lets reply (22 R418); a command that is not accepted
yet is none. -/
def Op.replies (o : Op) : Bool := match o.kind with
  | .load _ _ _ _ | .store | .atomic _ _ _ _ | .redc | .prefetch _ | .mbxput _ _ _ _ _ _ | .mbxget _ _ _ _ _ _ _
  | .eng _ => true
  | .calc _ _ | .waitc _ _ _ _ _ _ _ | .mat _ | .fwait _ _ _ _ | .barWait _ _ | .mmwait _ | .waitpred _
  | .slotw _ _ | .grow _ _ | .setWait _ | .hcall _ _ _ _ _ | .phase _ _ _ _ _ | .wsync _ _ _ => false

/-- A wound, steps 1 and 2 of 22 R418: every warp stops; engine commands and streams are cancelled; matrix commands,
waits and monitors are gone; a saved image is discarded. What replies stays outstanding until it has. -/
def wound (coh : Nat) (s : State) : State :=
  let h := s.coh coh
  let s := if h.status = .resident then leaveCore coh s else s
  let s := { s with
    ops := (s.ops.filter fun (e : Nat × Op) => !(e.2.coh = coh) || (e.2.replies && e.2.held.isNone)).map fun (e : Nat × Op) =>
      if e.2.coh = coh then (e.1, { e.2 with cancelled := true, wins := [], acq := none }) else e
    hqOut := s.hqOut.filter fun (p : Nat × Nat) => !((FMap.find s.ops p.2).any fun (o : Op) => o.coh = coh) }
  s.modCoh coh fun h => { h with
    wounded := true, status := .wounded, saveSlot := none, mcfg := none, sealReq := none, preq := none, preqWait := false
    savedGroups := [], savedBins := [], savedParked := []
    streams := FMap.mapVals (fun _ x => { x with stopped := true }) h.streams }

/-- A trap 0x05: the sealed task reaches a set it does not hold (22 R420). The address is that of the first access that
touches the set, or for an engine command the lowest it reaches in the set. -/
def setTrap (eng : Bool) (d : DeclSet) (as_ : List Acc) : TrapRec :=
  let hit := (as_.filter d.meets).map Prod.fst
  { code := 5, detail := d.num
    addr := if eng then hit.foldl (fun a x => min a (max x d.base)) (d.base + d.len) else hit.head?.getD 0 }

/-- The last warp of a cohort has retired: the retirement wins over a wound (22 R422). -/
def Cohort.over (h : Cohort) : Bool := h.warps.all fun w => w.retired

/-- A stall that comes after the checks of an access have begun: the sets declared by now are those that govern it, however
long it is held (23 R434; that such a stall comes after their beginning is DEDUCED, log 84). -/
def keepSince (c : Iss) (s : State) : State :=
  let n := (s.ctx (s.coh c.coh).ctx).decls.length
  s.modCore c.core fun k => { k with
    entries := k.entries.modify c.ent fun g => { g with since := some (g.since.getD n) } }

/-- Wait for a set: the group leaves its slot until the set is handed to its task (22 R417). -/
def waitForSet (c : Iss) (d : DeclSet) (s : State) : Gate :=
  .block ((keepSince c s).addOp
    { kind := .setWait d.num, coh := c.coh, warp := (c.warps.head?).getD 0, core := c.core, pc := c.pc
      ths := c.ths, busy := false }) [s.nextOp]

/-- Touch one set: acquire it, or wait, wounding a younger unsealed holder first (22 R416, R417). -/
def touchSet (c : Iss) (d0 : DeclSet) (s : State) : Gate :=
  let ctx := (s.coh c.coh).ctx
  match (s.ctx ctx).decls.find? fun e => e.num = d0.num with
  | none => .pass s
  | some d =>
    match d.holder with
    | some k =>
      if k = c.coh then .pass s
      else if k < c.coh || (s.coh k).sealed ≠ .unsealed || (s.coh k).wounded || (s.coh k).over then waitForSet c d s
      else waitForSet c d (wound k s)
    | none =>
      if (setWaiters s ctx d.num).any fun k => k < c.coh then waitForSet c d s
      else .pass (acquireSet c.coh d s)

/-- A set governs the access at a group's PC: its checks began after the declaration was recorded (23 R434). -/
def DeclSet.governs (s : State) (c : Iss) (d : DeclSet) : Bool :=
  (((s.core c.core).entries.find c.ent).bind Group.since).all fun n => d.num < n

/-- The sets that accesses reach, that govern them, and that their task does not hold, in ascending address order (22 R416). -/
def newSets (c : Iss) (as_ : List Acc) (s : State) : List DeclSet :=
  (reachedSets s (s.coh c.coh).ctx as_).filter fun d => !d.heldBy c.coh && d.governs s c

/-- A task sealed already traps at a set it does not hold (22 R420). It is one of the checks of a warp, given its accesses in
order of home lane, so that a group reports its failing warp of lowest %warp (07 R125). -/
def sealedGate (eng : Bool) (c : Iss) (as_ : List Acc) (s : State) : Gate :=
  if (s.coh c.coh).sealed ≠ .unsealed then
    match newSets c as_ s with
    | [] => .pass s
    | d :: _ => .trap (setTrap eng d as_)
  else .pass s

/-- Every set the accesses of an instruction reach is acquired, in ascending address order (22 R416); a sealed task traps
(R420). -/
def gateTouch (eng : Bool) (c : Iss) (as_ : List Acc) (s : State) : Gate :=
  if (s.coh c.coh).sealed ≠ .unsealed then sealedGate eng c as_ s else gateAll (newSets c as_ s) (touchSet c) s

/-- The sets that the accesses of an instruction reach. -/
def gateSets (c : Iss) (as_ : List Acc) (s : State) : Gate := gateTouch false c as_ s

/-- An irrevocable action is held until the task's seal is recorded (22 R420). -/
def gateSeal (c : Iss) (why : SealWhy) (s : State) : Gate :=
  let h := s.coh c.coh
  if h.sealed ≠ .unsealed then .pass s
  else .hold (keepSince c (s.modCoh c.coh fun h => { h with sealReq := some (h.sealReq.getD why) }))

/-- Whether writes at these accesses are irrevocable: one lies outside every set the task holds (22 R420). -/
def outsideSets (s : State) (coh : Nat) (as_ : List Acc) : Bool :=
  let held := (s.ctx (s.coh coh).ctx).decls.filter fun d => d.heldBy coh
  as_.any fun a => !(held.any fun d => d.base ≤ a.1 && a.1 + a.2 ≤ d.base + d.len)

/-- The sets, then the seal, of an instruction that writes global memory. -/
def gateWrite (c : Iss) (as_ : List Acc) (s : State) : Gate :=
  (gateSets c as_ s).andThen fun s => if outsideSets s c.coh as_ then gateSeal c .irrevocable s else .pass s

/-- How a write of a task at its home meets the undo store (22 R419). -/
inductive UndoGate where
  /-- performs; the state holds the record it needed -/
  | go (s : State)
  /-- held for a seal -/
  | held (s : State)
  /-- discarded at the home: a wound was recorded first -/
  | drop

/-- Undo records in use in a core's store: those of all its tasks (01 R11, 22 R419). -/
def undoUsed (s : State) (core : Nat) : Nat :=
  ((s.cohorts.filter fun e => e.2.core = core && e.2.status ≠ .saved).map fun e => e.2.undo.length).foldl (· + ·) 0

/-- The undo record of a write to a line (22 R419): the first write of a task, sealed or not, to a line of a set it holds
makes one while the core's store has room. With none, an unsealed task must seal, and a sealed one writes without. -/
def undoGate (coh va line : Nat) (wasHeld : Bool) (s : State) : UndoGate :=
  let h := s.coh coh
  let inSet := (s.ctx h.ctx).decls.any fun d => d.heldBy coh && d.meets (va, 1)
  if !inSet || h.undo.any (fun u => u.line = line) then .go s
  else if h.wounded && wasHeld then .drop
  else if undoUsed s h.core < Config.undoMax then
    .go (s.modCoh coh fun h => { h with undo := { line, bytes := s.lineBytes line } :: h.undo })
  else if h.sealed ≠ .unsealed then .go s
  else if h.wounded then .drop
  else .held (s.modCoh coh fun h => { h with sealReq := some (h.sealReq.getD .undoFull) })

end Sys2Proof.Machine
end

