-- ==== Sys2Proof/Machine/Memory.lean ====
section
/-! DEFINITION. Group 6: loads, stores, prefetches and evictions (15 R268 to R277), and the requests they leave
outstanding at the homes (16 R301 to R305, R310; 14 R247 to R253). -/

namespace Sys2Proof.Machine

/-! ## Fields and addresses (15 R269, R270) -/

/-- The access width of MOD. -/
def accWidth (m : Nat) : Nat :=
  match m with
  | 0 | 8 => 1
  | 1 | 9 => 2
  | 2 | 10 => 4
  | 3 => 8
  | _ => 16
/-- A load of MOD sign-extends. -/
def accSigned (m : Nat) : Bool := 8 ≤ m
/-- The base-2 logarithm of a width. -/
def widthLog (w : Nat) : Nat := Nat.log2 w
/-- The offset field. -/
def memOff (f : Fields) : Int := signExt 24 (f.immBits 23 0)
/-- The retention code. -/
def memRet (f : Fields) : Nat := f.immBits 25 24
/-- The scope code. -/
def memScope (f : Fields) : Nat := f.immBits 27 26
/-- The scope of an acquire. -/
def memAcq (f : Fields) : Option Nat := if f.immBits 28 28 = 1 then some (memScope f) else none

/-- The index of form M. -/
def idxInt (s : State) (coh w l : Nat) (o : Operand) : Int :=
  match o.kind with
  | .vec => signExt 32 ((s.warp coh w).readV o.idx.toNat l).toNat
  | .scalar => signExt 32 ((s.warp coh w).readS o.idx.toNat).toNat
  | .pred | .acc | .imm | .karg | .special | .none => 0

/-- The global address of a thread; an instruction without an index field takes index 0. -/
def eaOf (s : State) (c : Iss) (f : Fields) (index : Bool) (w l : Nat) : Nat :=
  wrapN 64 (((s.srcPair c.coh w l f.sa).toNat : Int) + (if index then idxInt s c.coh w l f.sb else 0) + memOff f)

/-- The scratchpad or argument offset of a thread, not wrapped. -/
def soOf (s : State) (c : Iss) (f : Fields) (index : Bool) (w l : Nat) : Int :=
  ((s.srcV c.coh w l f.sa).toNat : Int) + (if index then idxInt s c.coh w l f.sb else 0) + memOff f

/-- The guard-holding threads in the order in which checks and stores take them: by warp, then by home lane. -/
def threadOrder (c : Iss) (f : Fields) (s : State) : List (Nat × Nat) :=
  (c.warpsOn f s).flatMap fun w => (c.lanesOn f s w).map fun l => (w, l)

/-- The warps that act, as the threads of an instruction that acts once per warp. -/
def warpOrder (c : Iss) (f : Fields) (s : State) : List (Nat × Nat) := (c.warpsOn f s).map fun w => (w, 0)

/-! ## Checks (14 R243, R244) -/

/-- The misaligned trap. -/
def misaligned (log addr : Nat) : Gate := .trap { code := 4, detail := log, addr }
/-- The illegal-operand trap. -/
def badOperand (detail addr : Nat) : Gate := .trap { code := 2, detail, addr }
/-- The fabric trap of a line that cannot be read (07 R127, 31 R517). -/
def fabricTrap (cause line addr : Nat) : Gate := .trap { code := 0x0E, detail := cause * 65536 + peerOf line, addr }

/-- The checks of one global access: canonical form, alignment, translation and permission. -/
def accessGate (c : Iss) (need : Need) (ea w : Nat) (s : State) : Gate :=
  let ctx := (s.coh c.coh).ctx
  let aux := if need = .write then 1 else 0
  if !canonical ea then .trap (memFault 1 ea aux)
  else if ea % w ≠ 0 then misaligned (widthLog w) ea
  else match translate s c.core ctx ea need with
    | .ok _ => .pass (s.tlbNote c.core ctx ea)
    | .fault n => .trap (memFault n ea aux)
    | .hole => .hole

/-- The checks of one scratchpad access: alignment, then range. -/
def spGate (c : Iss) (so : Int) (w : Nat) (s : State) : Gate :=
  if so % (w : Int) ≠ 0 then misaligned (widthLog w) (wrapN 64 so)
  else if so < 0 || ((s.coh c.coh).scratchSize : Int) < so + w then badOperand 16 (wrapN 64 so)
  else .pass s

/-- The key of an address that has passed its checks. -/
def keyOf (s : State) (c : Iss) (ea : Nat) : Nat :=
  match translate s c.core (s.coh c.coh).ctx ea .read with
  | .ok k => k
  | .fault _ | .hole => 0

/-- An operation is an acquire whose reply is outstanding and whose scope reaches a class (16 R310). -/
def Op.acquires (r : Nat) (o : Op) : Bool := o.acq.any fun sc => r ≤ sc

/-- An outstanding acquire of a warp holds back an access of a reach class (16 R310). -/
def acqHolds (s : State) (coh w r : Nat) : Bool := (s.opsOf coh w).any fun e => e.2.acquires r

/-- An acquire of a warp that is older than an operation holds back an access of a reach class (16 R310). -/
def acqAhead (s : State) (id coh w r : Nat) : Bool := (s.opsOf coh w).any fun e => e.1 < id && e.2.acquires r

/-- Reads that the checks of an instruction make, held back by an acquire of their warp: warp and reach class. The checks of a
group are made for every warp before any has an effect (07 R125), so the group waits. Other groups of the warp may issue
meanwhile, although the atomic-set check of an unsealed task is still to come: 07 R124 suspends them for checks that are being
made, and these wait to be made (DESIGN CHOICE, log 100). -/
def gateAcq (c : Iss) (rs : List (Nat × Nat)) (s : State) : Gate :=
  if rs.any fun r => acqHolds s c.coh r.1 r.2 then .hold (keepSince c s) else .pass s

/-- The checks of the accesses of a group, warp by warp: each thread's in lane order, then the sets of a sealed task (07 R124,
R125; 22 R420). -/
def warpGate (c : Iss) (ths : List (Nat × Nat)) (acc : Nat × Nat → Acc) (check : Nat × Nat → State → Gate) (s : State) : Gate :=
  gateAll (partsBy Prod.fst ths) (fun p s => (gateAll p.2 check s).andThen (sealedGate false c (p.2.map acc))) s

/-- The checks of the global accesses of a group: each warp's, then the atomic sets. The accesses themselves may still wait
for acquires of their warps (16 R310). -/
def globalGate (c : Iss) (need : Need) (ths : List (Nat × Nat)) (ea : Nat × Nat → Nat) (w : Nat) (s : State) : Gate :=
  (warpGate c ths (fun t => (ea t, w)) (fun t => accessGate c need (ea t) w) s).andThen fun s =>
    if need = .write then gateWrite c (ths.map fun t => (ea t, w)) s else gateSets c (ths.map fun t => (ea t, w)) s

/-- The checks of the scratchpad accesses of a group. -/
def scratchGate (c : Iss) (ths : List (Nat × Nat)) (so : Nat × Nat → Int) (w : Nat) (s : State) : Gate :=
  gateAll ths (fun t => spGate c (so t) w) s

/-! ## Outstanding requests -/

/-- A mailbox operation whose header lies on a line has steps there still to make; for a claim, an MBXGET's release of
HEAD is none, for it touches no byte the claim reads (16 R307; 17 R348, R349). -/
def Op.holdsHeader (claim : Bool) (line : Nat) (o : Op) : Bool := match o.kind with
  | .mbxput hdr _ _ _ _ _ => lineOf hdr = line
  | .mbxget hdr _ _ _ _ _ _ => !claim && lineOf hdr = line
  | _ => false

/-- An operation has an access to a line that its warp's later load must wait for: one that has not replied, or a long
one that has not completed (14 R247, 16 R307). -/
def Op.holdsLine (line : Nat) (o : Op) : Bool :=
  o.holdsHeader false line || o.parts.any fun p => (!p.done || o.long) && p.line = line

/-- An outstanding request of a warp to a line. -/
def ownOut (s : State) (coh w line : Nat) : Bool := (s.opsOf coh w).any fun e => e.2.holdsLine line

/-- A request of a warp that is no load, at its issue: an acquire of the warp may hold it back (16 R310). -/
def Part.issued (s : State) (coh w : Nat) (p : Part) : Part := { p with late := acqHolds s coh w (reachOf p.line) }

/-- A copy that may serve a load in the core's L1, or in its die's remote-data cache, which then fills the L1 (14 R247,
R249, R253; 16 R302). -/
def lookup (core ctx view ret va line : Nat) (s : State) : Option (State × CLine) :=
  if isHost line then none
  else
    match serving (s.core core).l1 line view with
    | some x => some (s.modCore core fun k => { k with l1 := hitLine Config.l1Sets line ret k.l1 }, x)
    | none =>
      let die := dieOf core
      if isRemote die line then
        match serving (s.rdcOf die) line view with
        | some x =>
          let s := s.setRdc die (hitLine Config.rdcSets line ret (s.rdcOf die))
          some (s.modCore core (Core.l1Fill { x with hint := ret, ctx, gran := granOf va }), x)
        | none => none
      else none

/-- A request answered from a copy of its line: each lane's bytes. -/
def Part.answer (x : CLine) (p : Part) : Part :=
  { p with vals := p.reads.map fun r => (r.1, fieldN x.bytes (r.2.1 % Config.lineBytes) r.2.2), done := true }

/-- One request of a load at its issue: a copy serves it, or it goes to the home, or it waits for an access of its own warp to
the line (14 R247), or for an acquire of the warp (16 R310). The state, the requests so far, and the highest write stamp
returned. -/
def loadPart (c : Iss) (w : Nat) (p : Part) (a : State × List Part × Nat) : State × List Part × Nat :=
  let (s, ps, rd) := a
  if ownOut s c.coh w p.line || acqHolds s c.coh w (reachOf p.line) then (s, ps ++ [{ p with late := true }], rd)
  else match lookup c.core (s.coh c.coh).ctx p.vreq p.ret p.va p.line s with
    | some (t, x) => (t, ps ++ [p.answer x], max rd x.w)
    | none => (s, ps ++ [p], rd)

/-- The requests of one warp: its lanes by line, in lane order (15 R271). `ls` holds lane, address and key. -/
def requestsOf (ls : List (Nat × Nat × Nat)) (mk : Nat → Nat → List (Nat × Nat × Nat) → Part) : List Part :=
  (partsBy (fun e => lineOf e.2) (ls.map fun e => (e.1, e.2.2))).map fun g =>
    let here := ls.filter fun e => lineOf e.2.2 = g.1
    mk g.1 ((here.head?.map fun e => e.2.1).getD 0) here

/-- The highest reach class of requests. -/
def reachMax (ps : List Part) : Nat := ps.foldl (fun a p => max a (reachOf p.line)) 0

/-- A load of one warp. -/
def startLoad (i : Instr) (f : Fields) (c : Iss) (scal index : Bool) (w : Nat) (lanes : List Nat) (s : State) : State :=
  let v := (s.warp c.coh w).view
  let width := accWidth f.modn
  let ls := lanes.map fun l =>
    let ea := eaOf s c f index w l
    (l, ea, keyOf s c ea)
  let ps := requestsOf ls fun line va here =>
    { act := .load, line, va, vreq := v, ret := memRet f, reads := here.map fun e => (e.1, e.2.2, width) }
  let (s, ps, rd) := ps.foldl (fun a p => loadPart c w p a) (s, [], 0)
  s.addOp
    { kind := .load width (accSigned f.modn) scal f.dst.idx.toNat, coh := c.coh, warp := w, core := c.core, pc := c.pc
      ths := c.ths, dests := destsOf (footOf i).writes (laneMask (c.lanesOn f s w))
      wins := (c.lanesOn f s w).map fun l => (l, f.la.toNat), long := true, parts := ps, acq := memAcq f, vacc := v
      reach := reachMax ps, rd }

/-- LD (15 R271). -/
def execLd (f : Fields) (s : State) : Host.Outcome State Fault Refusal :=
  issue (.ld f) f
    (fun c s => globalGate c .read (threadOrder c f s) (fun t => eaOf s c f true t.1 t.2) (accWidth f.modn) s)
    (fun c s => leaveNext c f.bnd
      (perWarp c f s (fun w t => startLoad (.ld f) f c false true w (c.lanesOn f s w) t) s)) s

/-- SLD (15 R273). -/
def execSld (f : Fields) (s : State) : Host.Outcome State Fault Refusal :=
  issue (.sld f) f
    (fun c s => globalGate c .read (warpOrder c f s) (fun t => eaOf s c f true t.1 t.2) (accWidth f.modn) s)
    (fun c s => leaveNext c f.bnd (perWarp c f s (startLoad (.sld f) f c true true · [0]) s)) s

/-! ## Stores -/

/-- The first `w` bytes of a register image from vector register `reg` of a lane (15 R269). -/
def imageV (x : Warp) (reg l w : Nat) : List Byte :=
  (upto w).map fun i => BitVec.ofNat 8 ((x.readV (reg + i / 4) l).toNat / 256 ^ (i % 4))

/-- The issuing core's L1 drops the lines of a write (14 R247). -/
def dropLines (core : Nat) (ps : List Part) (s : State) : State :=
  s.modCore core fun k => ps.foldl (fun k p => k.l1Drop p.line) k

/-- A store of one warp: its requests, and the operation that holds them. -/
def startStore (f : Fields) (c : Iss) (batch : Nat) (index : Bool) (bytes : Nat → List Byte) (w : Nat)
    (lanes : List Nat) (s : State) : State :=
  let v := (s.warp c.coh w).view
  let ls := lanes.map fun l =>
    let ea := eaOf s c f index w l
    (l, ea, keyOf s c ea)
  let ps := requestsOf ls fun line va here =>
    Part.issued s c.coh w
      { act := .store (here.flatMap fun e => cellsOfL e.2.2 (bytes e.1)), line, va, vreq := v, ret := memRet f }
  (dropLines c.core ps s).addOp
    { kind := .store, coh := c.coh, warp := w, core := c.core, pc := c.pc, ths := c.ths, parts := ps, vacc := v
      reach := reachMax ps, batch := some batch }

/-- ST (15 R272). -/
def execSt (f : Fields) (s : State) : Host.Outcome State Fault Refusal :=
  issue (.st f) f
    (fun c s => globalGate c .write (threadOrder c f s) (fun t => eaOf s c f true t.1 t.2) (accWidth f.modn) s)
    (fun c s => leaveNext c f.bnd (perWarp c f s (fun w t =>
      startStore f c s.nextOp true (fun l => imageV (s.warp c.coh w) f.dst.idx.toNat l (accWidth f.modn)) w
        (c.lanesOn f s w) t) s)) s

/-- SST (15 R273). -/
def execSst (f : Fields) (s : State) : Host.Outcome State Fault Refusal :=
  issue (.sst f) f
    (fun c s => globalGate c .write (warpOrder c f s) (fun t => eaOf s c f true t.1 t.2) (accWidth f.modn) s)
    (fun c s => leaveNext c f.bnd (perWarp c f s (fun w t =>
      startStore f c s.nextOp true
        (fun _ => leBytes (accWidth f.modn) ((s.warp c.coh w).readS f.dst.idx.toNat).toNat) w [0] t) s)) s

/-! ## Scratchpad accesses that wait (16 R310) -/

/-- The line that stands for the scratchpad in a request that has had to wait: no line of any memory has its number. -/
def spLine : Nat := 2 ^ 44

/-- A scratchpad access of a warp waits: for an acquire, or behind one that waits (16 R307, R310). -/
def spWaits (s : State) (coh w : Nat) : Bool :=
  acqHolds s coh w 0 || (s.opsOf coh w).any fun e => e.2.sp && e.2.parts.any fun p => !p.done

/-- The warps of a group whose scratchpad accesses wait. Writes of one byte take effect in ascending %warp order (15 R272, 16
R314), so that a warp waits behind one that waits and that names an offset of its own. -/
def spLate (c : Iss) (f : Fields) (so : Nat × Nat → Int) (s : State) : List Nat :=
  let offs := fun (w : Nat) => (c.lanesOn f s w).map fun l => so (w, l)
  (c.warpsOn f s).foldl (fun late w =>
    if spWaits s c.coh w || late.any (fun v => (offs v).any (offs w).contains) then late ++ [w] else late) []

/-- The threads of warps that are not among some. -/
def notOf (late : List Nat) (ths : List (Nat × Nat)) : List (Nat × Nat) := ths.filter fun t => !late.contains t.1

/-- A scratchpad access of a warp that waits. -/
def spHeld (c : Iss) (w : Nat) (kind : OpKind) (parts : List Part) : Op :=
  { kind, coh := c.coh, warp := w, core := c.core, pc := c.pc, ths := c.ths, sp := true, parts }

/-- A request to the scratchpad that waits. -/
def spPart (act : PartAct) (reads : List (Nat × Nat × Nat)) : Part := { act, line := spLine, reads, late := true }

/-- Registers of a long access of a warp: pending until it completes. -/
def Op.longOn (i : Instr) (f : Fields) (lanes : List Nat) (o : Op) : Op :=
  { o with long := true, dests := destsOf (footOf i).writes (laneMask lanes), wins := lanes.map fun l => (l, f.la.toNat) }

/-! ## Scratchpad and arguments -/

/-- A loaded value in a vector register image (15 R269). -/
def loadV (w : Nat) (signed : Bool) (dst l v : Nat) : List RegW :=
  if dst = 255 then []
  else if w ≤ 4 then [.v dst l (if signed then BitVec.ofInt 32 (signExt (8 * w) v) else BitVec.ofNat 32 v)]
  else (upto (w / 4)).map fun i => .v (dst + i) l (BitVec.ofNat 32 (v / 2 ^ (32 * i)))

/-- A loaded value in a scalar register image. -/
def loadS (w : Nat) (signed : Bool) (dst v : Nat) : List RegW :=
  [.s dst (if signed then BitVec.ofInt 64 (signExt (8 * w) v) else BitVec.ofNat 64 v)]

/-- The marks of a lane's registers from `dst` (02 R42, 07 R127). -/
def markLane (vec : Bool) (dst n l code detail addr : Nat) : List Poison :=
  if (vec && dst = 255) || (!vec && dst = 63) then []
  else (upto n).map fun i => { vec, idx := dst + i, lane := if vec then l else 0, code, detail, addr }

/-- A scratchpad byte of a read holds an uncorrectable error. -/
def Cohort.spBad (h : Cohort) (a n : Nat) : Bool := h.scratchBad.any fun b => a ≤ b && b < a + n

/-- A warp's LDS: the bytes are read when it issues, or when the access that waits is made; a byte with an uncorrectable error
marks the lane's destination (14 R245). -/
def startLds (f : Fields) (c : Iss) (s : State) (wp : Nat) (t : State) : State :=
  let w := accWidth f.modn
  let lanes := c.lanesOn f s wp
  let h := s.coh c.coh
  let at_ := fun (l : Nat) => (soOf s c f true wp l).toNat
  let dst := f.dst.idx.toNat
  let bad := lanes.filter fun l => h.spBad (at_ l) w
  t.addOp (Op.longOn (.lds f) f lanes
    (if spWaits s c.coh wp then
      spHeld c wp (.load w (accSigned f.modn) false dst) [spPart .load (lanes.map fun l => (l, at_ l, w))]
    else
      { kind := .calc (lanes.flatMap fun l => loadV w (accSigned f.modn) dst l (h.readSpN (at_ l) w)) 0
        coh := c.coh, warp := wp, core := c.core, pc := c.pc, ths := c.ths, sp := true
        marks := bad.flatMap fun l => markLane true dst (memRegs f.modn) l 0x0F 3 0 }))

/-- LDS (15 R274). -/
def execLds (f : Fields) (s : State) : Host.Outcome State Fault Refusal :=
  issue (.lds f) f
    (fun c s => scratchGate c (threadOrder c f s) (fun t => soOf s c f true t.1 t.2) (accWidth f.modn) s)
    (fun c s => leaveNext c f.bnd (perWarp c f s (startLds f c s) s)) s

/-- The bytes a thread's STS stores. -/
def stsBytes (f : Fields) (c : Iss) (s : State) (t : Nat × Nat) : List Byte :=
  imageV (s.warp c.coh t.1) f.dst.idx.toNat t.2 (accWidth f.modn)

/-- STS (15 R274): a byte several threads write keeps the value of the highest (%warp, home lane) (R272). -/
def execSts (f : Fields) (s : State) : Host.Outcome State Fault Refusal :=
  issue (.sts f) f
    (fun c s => scratchGate c (threadOrder c f s) (fun t => soOf s c f true t.1 t.2) (accWidth f.modn) s)
    (fun c s =>
      let so := fun (t : Nat × Nat) => soOf s c f true t.1 t.2
      let late := spLate c f so s
      let t := s.modCoh c.coh fun h =>
        (notOf late (threadOrder c f s)).foldl (fun h t => h.writeSpL (so t).toNat (stsBytes f c s t)) h
      leaveNext c f.bnd (forEach late (fun w t => t.addOp { spHeld c w .store
        [spPart (.store ((c.lanesOn f s w).flatMap fun l => cellsOfL (so (w, l)).toNat (stsBytes f c s (w, l)))) []] with
        batch := some s.nextOp }) t)) s

/-- LDK acts once per warp, with the address of the warp's lowest guard-holding lane, or per thread (15 R275). -/
def ldkOrder (c : Iss) (f : Fields) (s : State) : List (Nat × Nat) :=
  if f.dst.kind = .vec then threadOrder c f s
  else (c.warpsOn f s).map fun w => (w, (c.lanesOn f s w).headD 0)

/-- The check of one LDK offset: alignment, then range. -/
def ldkGate (so : Int) (w : Nat) (s : State) : Gate :=
  if so % (w : Int) ≠ 0 then misaligned (widthLog w) (wrapN 64 so)
  else if so < 0 || 2048 - (w : Int) < so then badOperand 17 (wrapN 64 so)
  else .pass s

/-- A value of the argument bank at a byte offset that is a multiple of its width. -/
def argValue (s : State) (coh so w : Nat) : Nat :=
  if w = 8 then (s.argPair coh (so / 4)).toNat else (s.argWord coh (so / 4)).toNat

/-- LDK (15 R275). -/
def execLdk (f : Fields) (s : State) : Host.Outcome State Fault Refusal :=
  let w := accWidth f.modn
  issue (.ldk f) f
    (fun c s => gateAll (ldkOrder c f s) (fun t => ldkGate (soOf s c f false t.1 t.2) w) s)
    (fun c s => leaveNext c f.bnd (perWarp c f s (fun wp t =>
      let lanes := ((ldkOrder c f s).filter fun x => x.1 = wp).map Prod.snd
      let val := fun (l : Nat) => argValue s c.coh (soOf s c f false wp l).toNat w
      addCalc (.ldk f) f c wp (c.lanesOn f s wp)
        (lanes.flatMap fun l => if f.dst.kind = .vec then loadV w false f.dst.idx.toNat l (val l)
          else loadS w false f.dst.idx.toNat (val l)) 0 t) s)) s

/-! ## Prefetch and eviction -/

/-- The lanes of a warp whose address translates to a line a cache may hold (15 R276, R277). -/
def softLanes (c : Iss) (f : Fields) (s : State) (w : Nat) : List (Nat × Nat × Nat) :=
  (c.lanesOn f s w).filterMap fun l =>
    let ea := eaOf s c f true w l
    match translate s c.core (s.coh c.coh).ctx ea .read with
    | .ok k => if isHost (lineOf k) then none else some (l, ea, k)
    | .fault _ | .hole => none

/-- A prefetch finds its line already where it would fill it. -/
def prefHit (s : State) (core view : Nat) (dev : Bool) (p : Part) : Bool :=
  if dev then
    if isRemote (dieOf core) p.line then (serving (s.rdcOf (dieOf core)) p.line view).isSome
    else s.l2.any fun h => h.line = p.line
  else (serving (s.core core).l1 p.line view).isSome

/-- PREF (15 R276): a posted request for each line not yet held; .CO with BYPASS fills as .DEV. -/
def execPref (f : Fields) (s : State) : Host.Outcome State Fault Refusal :=
  issue (.pref f) f noCheck
    (fun c s => leaveNext c f.bnd (perWarp c f s (fun w t =>
      let v := (s.warp c.coh w).view
      let dev := memScope f = 1 || memRet f = 3
      let ps := (requestsOf (softLanes c f s w) fun line va _ =>
        Part.issued s c.coh w { act := .load, line, va, vreq := v, ret := memRet f }).filter fun p => !prefHit s c.core v dev p
      if ps.isEmpty then t
      else t.addOp { kind := .prefetch dev, coh := c.coh, warp := w, core := c.core, pc := c.pc, ths := c.ths, parts := ps
                     vacc := v, reach := reachMax ps }) s)) s

/-- One step down: STICKY to DEFAULT, DEFAULT to STREAM (15 R277). -/
def demoteHint (h : Nat) : Nat := if h = 2 then 0 else 1

/-- Demote or drop a line in the caches of a scope (15 R277). -/
def evictLine (core scope : Nat) (drop : Bool) (line : Nat) (s : State) : State :=
  let die := dieOf core
  let low (l : List CLine) : List CLine := l.map fun x => if x.line = line then { x with hint := demoteHint x.hint } else x
  let s := s.modCore core fun k => if drop then k.l1Drop line else { k with l1 := low k.l1 }
  if scope = 0 then s
  else
    let s := if drop then s.rdcDrop die line else s.setRdc die (low (s.rdcOf die))
    if isPeer line && scope < 2 then s
    else if drop then s.evictHome line
    else { s with l2 := s.l2.map fun x => if x.line = line then { x with hint := demoteHint x.hint } else x }

/-- EVICT (15 R277): it acts when it issues. -/
def execEvict (f : Fields) (s : State) : Host.Outcome State Fault Refusal :=
  issue (.evict f) f noCheck (fun c s => leaveNext c f.bnd
    (perWarp c f s (fun w => forEach (softLanes c f s w) fun e => evictLine c.core (memScope f) (f.modn = 1) (lineOf e.2.2))
      s)) s

end Sys2Proof.Machine
end

