-- ==== Sys2Proof/Machine/Flags.lean ====
section
/-! DEFINITION. The exception flags (07 R161, 10 R191, R192) and the exact numbers they are judged on. -/

namespace Sys2Proof.Machine

/-- FPFLAGS bits (07 R161). -/
def flNV : BitVec 5 := 16
def flDZ : BitVec 5 := 8
def flOF : BitVec 5 := 4
def flUF : BitVec 5 := 2
def flNX : BitVec 5 := 1

/-- A flag when a condition holds. -/
def flag (b : Bool) (x : BitVec 5) : BitVec 5 := if b then x else 0

/-- An exact result (10 R186): NaN, marked when an operand code was a signalling one; an infinity; or a rational n / d
with its sign, which a zero keeps. -/
inductive Val where
  | nan (signalling : Bool)
  | inf (neg : Bool)
  | fin (neg : Bool) (n d : Nat)
  deriving DecidableEq, Repr

/-- NV for a signalling operand (10 R180). -/
def Val.sig : Val → BitVec 5
  | .nan true => flNV
  | .nan false | .inf _ | .fin _ _ _ => 0

/-- Whether a value is NaN. -/
def Val.isNan : Val → Bool
  | .nan _ => true
  | .inf _ | .fin _ _ _ => false

/-- A quiet NaN. -/
def Val.qnan : Val := .nan false

/-- The sign of a value. -/
def Val.neg : Val → Bool
  | .nan _ => false
  | .inf s | .fin s _ _ => s

/-- The opposite value. -/
def Val.negate : Val → Val
  | .nan b => .nan b
  | .inf s => .inf (!s)
  | .fin s n d => .fin (!s) n d

/-- Whether a value is a zero. -/
def Val.isZero : Val → Bool
  | .fin _ 0 _ => true
  | .fin _ _ _ | .nan _ | .inf _ => false

/-- The signed numerator of a finite value. -/
def Val.num : Val → Int
  | .fin s n _ => if s then -(n : Int) else n
  | .nan _ | .inf _ => 0

/-- The denominator of a finite value. -/
def Val.den : Val → Nat
  | .fin _ _ d => d
  | .nan _ | .inf _ => 1

/-- A value from a signed numerator; `z` is the sign of a zero. -/
def Val.ofRat (y : Int) (d : Nat) (z : Bool) : Val := .fin (if y = 0 then z else y < 0) y.natAbs d

end Sys2Proof.Machine
end

