-- ==== Sys2Proof/Machine/Ints.lean ====
section
/-! DEFINITION. Integer arithmetic (10 R189; 11 R199 to R202, R206 to R210): types by code, wrapping, saturation, the
exact results of the integer instructions, and the carry of IADDC. -/

namespace Sys2Proof.Machine

/-- Width of an integer type code (02 R39). -/
def tyWidth (t : Nat) : Nat :=
  match t with
  | 3 | 4 => 32
  | 5 | 6 => 64
  | 28 | 29 => 8
  | 30 | 31 => 16
  | 32 | 33 => 4
  | _ => 32

/-- Whether an integer type code is signed (02 R39). -/
def tySigned (t : Nat) : Bool := [3, 5, 28, 30, 32].contains t

/-- The low bits of a pattern read as a type. -/
def asTy (t x : Nat) : Int := if tySigned t then signExt (tyWidth t) x else (x % 2 ^ tyWidth t : Nat)

/-- Smallest and largest value of a type (10 R189). -/
def tyMin (t : Nat) : Int := if tySigned t then -(2 ^ (tyWidth t - 1) : Int) else 0
def tyMax (t : Nat) : Int := if tySigned t then 2 ^ (tyWidth t - 1) - 1 else 2 ^ tyWidth t - 1

/-- Wrap an exact integer to a type (10 R189). -/
def wrapTy (t : Nat) (y : Int) : Int := asTy t (wrapN (tyWidth t) y)

/-- Saturate an exact integer to a type (10 R189). -/
def satTy (t : Nat) (y : Int) : Int := max (tyMin t) (min (tyMax t) y)

/-- Wrap, or saturate under SAT. -/
def fitTy (t : Nat) (sat : Bool) (y : Int) : Int := if sat then satTy t y else wrapTy t y

/-- Quotient and remainder truncated toward zero, with the results for a zero divisor; the overflow case wraps (11
R200). -/
def divTy (a b : Int) : Int × Int := if b = 0 then (-1, a) else (a.tdiv b, a.tmod b)

/-- A left shift of a type; a count at or above the width gives 0 (11 R201). -/
def shlTy (t : Nat) (a : Int) (k : Nat) : Int := if tyWidth t ≤ k then 0 else wrapTy t (a * 2 ^ k)

/-- A right shift: the floor of a / 2^k (11 R201). -/
def shrTy (t : Nat) (a : Int) (k : Nat) : Int :=
  if tyWidth t ≤ k then (if a < 0 then -1 else 0) else a.fdiv (2 ^ k)

/-- One bits in the low `n` bits. -/
def popcount (x : Nat) : Nat → Nat
  | 0 => 0
  | n + 1 => x % 2 + popcount (x / 2) n

/-- Leading zero bits of an `n`-bit pattern (11 R199). -/
def clz (n x : Nat) : Nat := if x = 0 then n else n - 1 - Nat.log2 x

/-- Bit-field extraction (11 R207). -/
def bitExtract (t a b : Nat) : Nat :=
  let pos := bits b 7 0
  let len := min (bits b 15 8) 32
  let f := wrapN len ((asTy t a).fdiv (2 ^ pos))
  if tySigned t && 0 < len then wrapN 32 (signExt len f) else f

/-- Bit-field insertion (11 R207). -/
def bitInsert (a b c : Nat) : Nat :=
  let pos := bits b 7 0
  let len := min (bits b 15 8) 32
  let mask := (2 ^ len - 1) * 2 ^ pos
  ((c - (c &&& mask)) ||| (a * 2 ^ pos &&& mask)) % 2 ^ 32

/-- Left rotation of 32 bits (11 R206). -/
def rotl32 (a k : Nat) : Nat :=
  let k := k % 32
  (a * 2 ^ k % 2 ^ 32) ||| (a / 2 ^ (32 - k))

/-- The dot product of four byte pairs plus an addend, each byte read as its type (11 R209). -/
def dot4 (ta tb a b c : Nat) : Int :=
  signExt 32 c + (upto 4).foldl (fun acc i =>
    acc + asTy ta (bits a (8 * i + 7) (8 * i)) * asTy tb (bits b (8 * i + 7) (8 * i))) 0

end Sys2Proof.Machine
end

