-- ==== Sys2Proof/Machine/Num.lean ====
section
/-! DEFINITION. Floating formats, their decoding, and Round (10 R178 to R190, R193): codes to exact values, and exact
values to codes with the flags of R192. -/

namespace Sys2Proof.Machine

/-! ## Formats -/

/-- A floating format: precision, smallest normal exponent, largest finite magnitude code, NaN code, magnitude code of
infinity when it has one, the place of its sign bit when it is signed, and whether it is a standard format, which has
two zeros (10 R178, R181 to R183). -/
structure Fmt where
  p : Nat
  emin : Int
  maxM : Nat
  nan : Nat
  infM : Option Nat
  signBit : Option Nat
  std : Bool
  deriving DecidableEq, Repr

/-- A P3109 format of `n` bits and precision `p` (10 R181, R183). -/
def fmtP (n p : Nat) (signed inf : Bool) : Fmt :=
  let w := if signed then n - p else n - p + 1
  let top := if signed then 2 ^ (n - 1) - 1 else 2 ^ n - 2
  let withInf := inf && n = 8
  { p, emin := 1 - (2 ^ (w - 1) : Nat), maxM := if withInf then top - 1 else top
    nan := if signed then 2 ^ (n - 1) else 2 ^ n - 1, infM := if withInf then some top else none
    signBit := if signed then some (n - 1) else none, std := false }

/-- The format of a floating type code (02 R39). -/
def fmtOf (t : Nat) (inf : Bool) : Fmt :=
  match t with
  | 0 => { p := 24, emin := -126, maxM := 0x7F7FFFFF, nan := 0x7FC00000, infM := some 0x7F800000, signBit := some 31, std := true }
  | 1 => { p := 11, emin := -14, maxM := 0x7BFF, nan := 0x7E00, infM := some 0x7C00, signBit := some 15, std := true }
  | 2 => { p := 8, emin := -126, maxM := 0x7F7F, nan := 0x7FC0, infM := some 0x7F80, signBit := some 15, std := true }
  | _ =>
    if t < 16 then fmtP 8 (t - 7) true inf
    else if t < 24 then fmtP 8 (t - 15) false inf
    else fmtP 4 (t - 23) true false

/-- Width in bits of a type code (02 R39). -/
def codeWidth (t : Nat) : Nat :=
  match t with
  | 0 | 3 | 4 => 32
  | 1 | 2 | 30 | 31 => 16
  | 5 | 6 => 64
  | 24 | 25 | 26 | 32 | 33 => 4
  | _ => 8

/-- A dyadic value m × 2^e. -/
def dyadic (neg : Bool) (m : Nat) (e : Int) : Val :=
  if 0 ≤ e then .fin neg (m * 2 ^ e.toNat) 1 else .fin neg m (2 ^ (-e).toNat)

/-- Decode a code of a format (10 R178, R180, R181). -/
def Fmt.decode (f : Fmt) (c : Nat) : Val :=
  let (neg, m) := match f.signBit with
    | some b => (decide (c / 2 ^ b % 2 = 1), c % 2 ^ b)
    | none => (false, c)
  let half := 2 ^ (f.p - 1)
  if f.std then
    match f.infM with
    | some i =>
      if i < m then .nan (m / (half / 2) % 2 = 0)
      else if m = i then .inf neg
      else if m < half then dyadic neg m (f.emin - (f.p - 1))
      else dyadic neg (half + m % half) (f.emin + (m / half : Nat) - 1 - (f.p - 1))
    | none => .nan false
  else if c = f.nan then .nan false
  else if f.infM = some m then .inf neg
  else if m < half then dyadic neg m (f.emin - (f.p - 1))
  else dyadic neg (half + m % half) (f.emin + (m / half : Nat) - 1 - (f.p - 1))

/-- The value of a bit pattern read as a type code. -/
def decodeF (t : Nat) (inf : Bool) (x : Nat) : Val := (fmtOf t inf).decode (x % 2 ^ codeWidth t)

/-! ## Rounding -/

/-- floor(log2(n / d)). -/
def flog2 (n d : Nat) : Int :=
  let e : Int := (Nat.log2 n : Int) - Nat.log2 d
  let ok := if 0 ≤ e then d * 2 ^ e.toNat ≤ n else d ≤ n * 2 ^ (-e).toNat
  if ok then e else e - 1

/-- Whether a magnitude k + r / d is rounded up to k + 1 (10 R187; codes of 02 R37). -/
def roundUp (mode : Nat) (neg : Bool) (k r d : Nat) : Bool :=
  match mode with
  | 0 => d < 2 * r || (2 * r = d && k % 2 = 1)
  | 1 => false
  | 2 => !neg && r ≠ 0
  | 3 => neg && r ≠ 0
  | _ => d ≤ 2 * r

/-- The code of a sign and a magnitude code. -/
def Fmt.code (f : Fmt) (neg : Bool) (m : Nat) : Nat :=
  match f.signBit with
  | some b => if neg then (if m = 0 && !f.std then 0 else 2 ^ b + m) else m
  | none => m

/-- Overflow: the magnitude of R188 under a mode, or NaN. -/
def Fmt.overflow (f : Fmt) (neg : Bool) (mode : Nat) (sat : Bool) : Nat × BitVec 5 :=
  match f.infM with
  | some i =>
    let toInf := match mode with
      | 0 => true
      | 1 => false
      | 2 => !neg
      | 3 => neg
      | _ => true
    (f.code neg (if sat || !toInf then f.maxM else i), 0)
  | none => if sat then (f.code neg f.maxM, 0) else (f.nan, flNV)

/-- Round a nonzero rational: its code and flags (10 R187, R188, R192). -/
def Fmt.roundFin (f : Fmt) (mode : Nat) (sat neg : Bool) (n d : Nat) : Nat × BitVec 5 :=
  let lg := flog2 n d
  let e := max lg f.emin
  let q := e - (f.p - 1)
  let n' := if 0 ≤ q then n else n * 2 ^ (-q).toNat
  let d' := if 0 ≤ q then d * 2 ^ q.toNat else d
  let k := n' / d'
  let r := n' % d'
  let y := if roundUp mode neg k r d' then k + 1 else k
  let m := (e - f.emin).toNat * 2 ^ (f.p - 1) + y
  let big := f.maxM < m
  let tiny := lg < f.emin
  if f.signBit = none && neg then
    if y = 0 then (0, flNX ||| flUF)
    else if sat then (0, flNX ||| flag big flOF ||| flag tiny flUF)
    else (f.nan, flNX ||| flNV ||| flag big flOF ||| flag tiny flUF)
  else if big then
    let (c, fl) := f.overflow neg mode sat
    (c, fl ||| flOF ||| flNX)
  else (f.code neg m, flag (r ≠ 0) flNX ||| flag (r ≠ 0 && tiny) flUF)

/-- Round (10 R187): the code and the flags of an exact value delivered to a format. -/
def Fmt.round (f : Fmt) (mode : Nat) (sat : Bool) (x : Val) : Nat × BitVec 5 :=
  match x with
  | .nan _ => (f.nan, 0)
  | .inf neg =>
    if f.signBit = none && neg then
      if sat then (0, flag (f.infM = none) flNV) else (f.nan, flNV)
    else match f.infM with
      | some i => (f.code neg i, 0)
      | none => if sat then (f.code neg f.maxM, flNV) else (f.nan, flNV)
  | .fin neg 0 _ => (f.code neg 0, 0)
  | .fin neg n d => f.roundFin mode sat neg n d

/-- Round a value to an integer (10 R187, R190). -/
def roundInt (mode : Nat) : Val → Int
  | .fin neg n d =>
    let k := n / d
    let y := if roundUp mode neg k (n % d) d then k + 1 else k
    if neg then -(y : Int) else y
  | .nan _ | .inf _ => 0

/-- Convert a value to an integer type: the value in the type, and the flags (10 R190). -/
def toInt (t mode : Nat) (sat : Bool) (x : Val) : Int × BitVec 5 :=
  match x with
  | .nan _ => (0, flNV)
  | .inf neg => (if sat then (if neg then tyMin t else tyMax t) else 0, flNV)
  | .fin _ n d =>
    let y := roundInt mode x
    if tyMin t ≤ y && y ≤ tyMax t then (y, flag (n % d ≠ 0) flNX) else (fitTy t sat y, flNV)

/-- The value of an integer. -/
def Val.ofInt (y : Int) : Val := Val.ofRat y 1 false

/-! ## Exact arithmetic (12 R222, R223) -/

/-- The sign of an exact zero sum of addends of given signs, under a rounding code (12 R223). -/
def zeroSign (mode : Nat) (a b : Bool) (bothZero : Bool) : Bool :=
  if bothZero && a = b then a else mode = 3

/-- a + b, with the flags of the invalid case. -/
def addVal (mode : Nat) (a b : Val) : Val × BitVec 5 :=
  match a, b with
  | .nan _, _ | _, .nan _ => (.qnan, 0)
  | .inf x, .inf y => if x = y then (.inf x, 0) else (.qnan, flNV)
  | .inf x, .fin _ _ _ => (.inf x, 0)
  | .fin _ _ _, .inf y => (.inf y, 0)
  | .fin x n d, .fin y m e =>
    let s := a.num * e + b.num * d
    (Val.ofRat s (d * e) (zeroSign mode x y (n = 0 && m = 0)), 0)

/-- a × b, with the flags of the invalid case. -/
def mulVal (a b : Val) : Val × BitVec 5 :=
  match a, b with
  | .nan _, _ | _, .nan _ => (.qnan, 0)
  | .inf x, .inf y => (.inf (x != y), 0)
  | .inf x, .fin y n _ => if n = 0 then (.qnan, flNV) else (.inf (x != y), 0)
  | .fin x n _, .inf y => if n = 0 then (.qnan, flNV) else (.inf (x != y), 0)
  | .fin x n d, .fin y m e => (.fin (x != y) (n * m) (d * e), 0)

/-- a × b + c, the product unrounded; 0 × ∞ is invalid whatever c is. -/
def fmaVal (mode : Nat) (a b c : Val) : Val × BitVec 5 :=
  let (p, f1) := mulVal a b
  let (x, f2) := addVal mode p c
  (x, f1 ||| f2)

/-- a ÷ b. -/
def divVal (a b : Val) : Val × BitVec 5 :=
  match a, b with
  | .nan _, _ | _, .nan _ => (.qnan, 0)
  | .inf _, .inf _ => (.qnan, flNV)
  | .inf x, .fin y _ _ => (.inf (x != y), 0)
  | .fin x _ _, .inf y => (.fin (x != y) 0 1, 0)
  | .fin x n d, .fin y m e =>
    if m = 0 then (if n = 0 then (.qnan, flNV) else (.inf (x != y), flDZ))
    else (.fin (x != y) (n * e) (d * m), 0)

/-- Whether a < b for values that are not NaN; `zeros` makes −0 less than +0 (12 R224). -/
def ltVal (zeros : Bool) (a b : Val) : Bool :=
  match a, b with
  | .inf x, .inf y => x && !y
  | .inf x, .fin _ _ _ => x
  | .fin _ _ _, .inf y => !y
  | .fin x n d, .fin y m e =>
    if n = 0 && m = 0 then zeros && x && !y else a.num * e < b.num * d
  | .nan _, _ | _, .nan _ => false

/-- Integer square root, from bit `b` down. -/
def isqrtFrom (x : Nat) : Nat → Nat → Nat
  | 0, r => if (r + 1) * (r + 1) ≤ x then r + 1 else r
  | b + 1, r =>
    let t := r + 2 ^ (b + 1)
    isqrtFrom x b (if t * t ≤ x then t else r)

/-- The square root of n / d to 2^-240: exact, or the midpoint of the last place, which lies on the same side of every
rounding boundary of the formats as the root does (12 R226). -/
def sqrtVal (n d : Nat) : Val :=
  let x := n * 4 ^ 240 / d
  let r := isqrtFrom x ((Nat.log2 x) / 2 + 1) 0
  if r * r * d = n * 4 ^ 240 then .fin false r (2 ^ 240) else .fin false (2 * r + 1) (2 ^ 241)

/-! ## E8 scales (10 R193) -/

/-- The value of an E8 scale code. -/
def e8Val (e : Nat) : Val := if e = 255 then .qnan else dyadic false 1 ((e : Int) - 127)

end Sys2Proof.Machine
end

