-- ==== Sys2Proof/Machine/Atomic.lean ====
section
/-! DEFINITION. Atomics and counted reductions of group 8 (17 R333 to R339): the operations, the aggregator, and the
requests they leave outstanding at the homes. -/

namespace Sys2Proof.Machine

/-! ## The operations (17 R333 to R335) -/

/-- FADD of two F32 codes, RNE, subnormals kept, the canonical NaN for every NaN (17 R335). -/
def faddCode (a b : Nat) : Nat := ((fmtOf 0 false).round 0 false (addVal 0 (decodeF 0 false a) (decodeF 0 false b)).1).1

/-- The least value of an atomic type. -/
def tyLeast (ty : Nat) : Int := if ty % 2 = 1 then -(2 ^ (8 * tyBytes ty - 1) : Nat) else 0

/-- The new value of a location (17 R335): old, o and q are bit patterns of the type's width. -/
def atomNew (op ty old o q : Nat) : Nat :=
  let n := 8 * tyBytes ty
  let a := readTy ty old
  let b := readTy ty o
  let r := readTy ty q
  match op with
  | 0 => wrapN n (a + b)
  | 1 => if a ≤ b then old else o
  | 2 => if b ≤ a then old else o
  | 3 => old &&& o
  | 4 => old ||| o
  | 5 => old ^^^ o
  | 6 => o
  | 7 => if old = q then o else old
  | 8 => if r ≤ a then 0 else wrapN n (a + 1)
  | 9 => if r < a then old else wrapN n (max (min (a + b) r) (tyLeast ty))
  | _ => faddCode old o

/-- The operation code of MOD. -/
def atomOp (f : Fields) : Nat := f.modn % 16
/-- The type code of MOD. -/
def atomTy (f : Fields) : Nat := f.modn / 16

/-- The operands o and q of a thread, as bit patterns of the type's width (17 R334). A vector position is read for ATOM,
ATOMS and REDC, a scalar position for SATOM. -/
def atomOperands (s : State) (c : Iss) (f : Fields) (warp : Bool) (w l : Nat) : Nat × Nat :=
  let m := 2 ^ (8 * tyBytes (atomTy f))
  let x := s.warp c.coh w
  let r := f.sb.idx.toNat
  match f.sb.kind with
  | .vec =>
    if atom64 f then
      ((x.readV r l).toNat + 2 ^ 32 * (x.readV (r + 1) l).toNat,
        if atomTwo f then (x.readV (r + 2) l).toNat + 2 ^ 32 * (x.readV (r + 3) l).toNat else 0)
    else ((x.readV r l).toNat, if atomTwo f then (x.readV (r + 1) l).toNat else 0)
  | .scalar => ((x.readS r).toNat % m, if atomTwo f then (x.readS (r + 1)).toNat % m else 0)
  | .imm =>
    (if atomOp f = 10 then ((fmtOf 0 false).round 0 false (Val.ofInt (immInt f.sb))).1 else wrapN 64 (immInt f.sb) % m, 0)
  | .karg =>
    (if warp || atom64 f then (s.argPair c.coh r).toNat % m else (s.argWord c.coh r).toNat, 0)
  | .pred | .acc | .special | .none => (0, 0)

/-- Apply the operations of several lanes to one value, in order: the value left, and each lane's old value (16 R314). -/
def atomRun (op ty : Nat) (lanes : List (Nat × Nat × Nat)) (old : Nat) : Nat × List (Nat × Nat) :=
  lanes.foldl (fun a x => (atomNew op ty a.1 x.2.1 x.2.2, a.2 ++ [(x.1, a.1)])) (old, [])

/-! ## Global atomics -/

/-- The operations a host line has: FetchAdd, Swap and CAS (17 R336). -/
def hostAtomic (op : Nat) : Bool := op = 0 || op = 6 || op = 7

/-- The checks of one global atomic. -/
def atomAccess (c : Iss) (f : Fields) (ea : Nat) (s : State) : Gate :=
  (accessGate c .write ea (tyBytes (atomTy f)) s).andThen fun s =>
    if isHost (lineOf (keyOf s c ea)) && !hostAtomic (atomOp f) then badOperand 30 ea else .pass s

/-- The checks of a group's global atomics: each access, the atomic sets and the seal. -/
def atomGate (c : Iss) (f : Fields) (ths : List (Nat × Nat)) (s : State) : Gate :=
  let ea := fun (t : Nat × Nat) => eaOf s c f false t.1 t.2
  let acc := fun (t : Nat × Nat) => (ea t, tyBytes (atomTy f))
  (warpGate c ths acc (fun t => atomAccess c f (ea t)) s).andThen (gateWrite c (ths.map acc))

/-- The requests of a warp's atomic: one for each address, its lanes in lane order (16 R314). -/
def atomParts (s : State) (c : Iss) (f : Fields) (warp : Bool) (w : Nat) (lanes : List Nat) : List Part :=
  let ls := lanes.map fun l =>
    let ea := eaOf s c f false w l
    (l, ea, keyOf s c ea)
  (partsBy Prod.snd (ls.map fun e => (e.1, e.2.2))).map fun g =>
    Part.issued s c.coh w
      { act := .atomic (atomOp f) (atomTy f) g.1 (g.2.map fun e => (e.1, atomOperands s c f warp w e.1))
        line := lineOf g.1, va := ((ls.find? fun e => e.2.2 = g.1).map fun e => e.2.1).getD 0
        vreq := (s.warp c.coh w).view, ret := memRet f }

/-- An atomic of one warp. -/
def startAtomic (i : Instr) (f : Fields) (c : Iss) (batch : Nat) (scal : Bool) (w : Nat) (lanes : List Nat)
    (s : State) : State :=
  let ps := atomParts s c f scal w lanes
  let posted := discards f.dst
  let on := c.lanesOn f s w
  (dropLines c.core ps s).addOp
    { kind := .atomic (atom64 f) (atomTy f % 2 = 1) scal (if posted then none else some f.dst.idx.toNat)
      coh := c.coh, warp := w, core := c.core, pc := c.pc, ths := c.ths, parts := ps, acq := memAcq f
      dests := if posted then [] else destsOf (footOf i).writes (laneMask on)
      wins := if posted then [] else on.map fun l => (l, f.la.toNat)
      long := !posted, vacc := (s.warp c.coh w).view, reach := reachMax ps, batch := some batch }

/-- ATOM (17 R335, R336). -/
def execAtom (f : Fields) (s : State) : Host.Outcome State Fault Refusal :=
  issue (.atom f) f (fun c s => atomGate c f (threadOrder c f s) s)
    (fun c s => leaveNext c f.bnd
      (perWarp c f s (fun w t => startAtomic (.atom f) f c s.nextOp false w (c.lanesOn f s w) t) s)) s

/-- SATOM (17 R335, R336). -/
def execSatom (f : Fields) (s : State) : Host.Outcome State Fault Refusal :=
  issue (.satom f) f (fun c s => atomGate c f (warpOrder c f s) s)
    (fun c s => leaveNext c f.bnd (perWarp c f s (startAtomic (.satom f) f c s.nextOp true · [0]) s)) s

/-! ## Scratchpad atomics -/

/-- One thread's scratchpad atomic: the cohort and the old values by thread. -/
def atomsThread (s : State) (c : Iss) (f : Fields) (t : Nat × Nat) (a : Cohort × List ((Nat × Nat) × Nat)) :
    Cohort × List ((Nat × Nat) × Nat) :=
  let so := (soOf s c f false t.1 t.2).toNat
  let n := tyBytes (atomTy f)
  let old := a.1.readSpN so n
  let x := atomOperands s c f false t.1 t.2
  (a.1.writeSpN so n (atomNew (atomOp f) (atomTy f) old x.1 x.2), a.2 ++ [(t, old)])

/-- The requests of a warp's ATOMS that waits: one for each offset, its lanes in lane order (16 R314, R315). -/
def atomsParts (s : State) (c : Iss) (f : Fields) (w : Nat) : List Part :=
  (partsBy Prod.snd ((c.lanesOn f s w).map fun l => (l, (soOf s c f false w l).toNat))).map fun g =>
    spPart (.atomic (atomOp f) (atomTy f) g.1 (g.2.map fun e => (e.1, atomOperands s c f false w e.1))) []

/-- The operation of a warp's ATOMS that waits. -/
def atomsHeld (s : State) (c : Iss) (f : Fields) (w : Nat) : Op :=
  let dst := if discards f.dst then none else some f.dst.idx.toNat
  let o := { spHeld c w (.atomic (atom64 f) (atomTy f % 2 = 1) false dst) (atomsParts s c f w) with batch := some s.nextOp }
  if dst.isNone then o else o.longOn (.atoms f) f (c.lanesOn f s w)

/-- The operation of a warp's ATOMS that has acted: its old values are to be written. -/
def atomsActed (s : State) (c : Iss) (f : Fields) (w : Nat) (olds : List ((Nat × Nat) × Nat)) : Op :=
  let n := tyBytes (atomTy f)
  let bad := (c.lanesOn f s w).filter fun l => (s.coh c.coh).spBad (soOf s c f false w l).toNat n
  Op.longOn (.atoms f) f (c.lanesOn f s w)
    { kind := .calc ((olds.filter fun e => e.1.1 = w).flatMap fun e => loadV n false f.dst.idx.toNat e.1.2 e.2) 0
      coh := c.coh, warp := w, core := c.core, pc := c.pc, ths := c.ths, sp := true
      marks := bad.flatMap fun l => markLane true f.dst.idx.toNat (n / 4) l 0x0F 3 0 }

/-- ATOMS (17 R335, 16 R315): it acts when it issues, each warp's lanes in ascending order, or when the access that waits is
made. -/
def execAtoms (f : Fields) (s : State) : Host.Outcome State Fault Refusal :=
  issue (.atoms f) f
    (fun c s => scratchGate c (threadOrder c f s) (fun t => soOf s c f false t.1 t.2) (tyBytes (atomTy f)) s)
    (fun c s =>
      let late := spLate c f (fun t => soOf s c f false t.1 t.2) s
      let (h, olds) := (notOf late (threadOrder c f s)).foldl (fun a t => atomsThread s c f t a) (s.coh c.coh, [])
      leaveNext c f.bnd (perWarp c f s (fun w t =>
        if late.contains w then t.addOp (atomsHeld s c f w)
        else if discards f.dst then t else t.addOp (atomsActed s c f w olds)) (s.modCoh c.coh fun _ => h))) s

/-! ## Counted reductions (17 R337 to R339) -/

/-- The ready word's address and the count of a warp's REDC. -/
def redcPair (s : State) (c : Iss) (f : Fields) (w : Nat) : Nat × Nat :=
  let x := s.warp c.coh w
  ((x.readS f.dst.idx.toNat).toNat, (x.readS (f.dst.idx.toNat + 1)).toNat % 65536)

/-- The checks of one address of a REDC: canonical form, alignment, translation, host line. -/
def redcAccess (c : Iss) (ea w : Nat) (s : State) : Gate :=
  (accessGate c .write ea w s).andThen fun s => if isHost (lineOf (keyOf s c ea)) then badOperand 31 ea else .pass s

/-- The checks of one thread's REDC. -/
def redcThread (c : Iss) (f : Fields) (t : Nat × Nat) (s : State) : Gate :=
  if (redcPair s c f t.1).2 = 0 then badOperand 34 0
  else (redcAccess c (eaOf s c f false t.1 t.2) (tyBytes (atomTy f)) s).andThen
    (redcAccess c (redcPair s c f t.1).1 8)

/-- The checks of a group's REDC: every contribution is irrevocable, inside a held set or outside (22 R420). -/
def redcGate (c : Iss) (f : Fields) (s : State) : Gate :=
  let ths := threadOrder c f s
  let ea := fun (t : Nat × Nat) => eaOf s c f false t.1 t.2
  let acc := fun (t : Nat × Nat) => (ea t, tyBytes (atomTy f))
  (warpGate c ths acc (redcThread c f) s).andThen fun s =>
    (gateSets c (ths.map acc) s).andThen fun s =>
      if ths.isEmpty then .pass s else gateSeal c .irrevocable s

/-- REDC (17 R337): each guard-holding lane is one contribution. -/
def execRedc (f : Fields) (s : State) : Host.Outcome State Fault Refusal :=
  issue (.redc f) f (fun c s => redcGate c f s)
    (fun c s => leaveNext c f.bnd (perWarp c f s (fun w t =>
      let (ready, n) := redcPair s c f w
      let rk := keyOf s c ready
      let ps := (c.lanesOn f s w).map fun l =>
        let ea := eaOf s c f false w l
        let k := keyOf s c ea
        Part.issued s c.coh w
          { act := .redc (atomOp f) (atomTy f) k (atomOperands s c f false w l).1 n rk, line := lineOf k, va := ea
            vreq := (s.warp c.coh w).view, ret := memRet f }
      (dropLines c.core ps t).addOp
        { kind := .redc, coh := c.coh, warp := w, core := c.core, pc := c.pc, ths := c.ths, parts := ps
          vacc := (s.warp c.coh w).view, reach := reachMax ps, batch := some s.nextOp }) s)) s

end Sys2Proof.Machine
end

