-- ==== Sys2Proof/Machine/Request.lean ====
section
/-! DEFINITION. Pre-emption requests and save slots (07 R138, R146, R147), and the phases of CTXSAVE and CTXLOAD on one
context, one after another (08 R169, R170). -/

namespace Sys2Proof.Machine

/-- Cohorts of a context with a status. -/
def cohortsOf (s : State) (ctx : Nat) (st : CohSt) : List Nat :=
  (s.cohorts.filter fun e => e.2.ctx = ctx && e.2.status = st).map Prod.fst

/-- Save slots in use: by images, and by requests that are pending (07 R146, R147). -/
def slotsUsed (s : State) (ctx : Nat) : Nat :=
  (s.cohorts.filter fun e => e.2.ctx = ctx &&
    ((e.2.status = .saved && e.2.saveSlot.isSome) || (e.2.status = .resident && e.2.preq.isSome && !e.2.preqVf))).length

/-- Whether the context has a free save slot. -/
def slotFree (s : State) (ctx : Nat) : Bool := slotsUsed s ctx < (s.ctx ctx).csaven.toNat

/-- The lowest slot number that holds no image of the context. -/
def pickSlot (s : State) (ctx : Nat) : Nat :=
  let used := (cohortsOf s ctx .saved).filterMap fun k => (s.coh k).saveSlot
  ((upto (used.length + 1)).find? fun n => !used.contains n).getD 0

/-- Request pre-emption of a resident cohort by any source but Belfry: pending when a slot is free, else waiting; a
virtual function's request needs no slot (07 R138, R147). -/
def requestPreempt (vf : Bool) (coh : Nat) (s : State) : State :=
  let h := s.coh coh
  if h.status ≠ .resident || h.preq.isSome then s
  else if vf then s.modCoh coh fun h => { h with preq := some 0, preqVf := true, preqWait := false }
  else if slotFree s h.ctx then s.modCoh coh fun h => { h with preq := some 0, preqWait := false }
  else s.modCoh coh fun h => { h with preqWait := true }

/-- A slot of the context has come free: the oldest waiting requests become pending (07 R147). -/
def grantSlots (ctx : Nat) (s : State) : State :=
  forEach (cohortsOf s ctx .resident) (fun k s =>
    if (s.coh k).preqWait && slotFree s ctx then
      s.modCoh k fun h => { h with preq := some 0, preqWait := false } else s) s

/-- A phase is in flight on a context (07 R151). -/
def phaseInFlight (s : State) (t : Nat) : Bool := (s.ctx t).st = .saving || (s.ctx t).st = .loading

/-- The status of a phase that is refused (08 R169). One whose target is in a phase is judged when that has ended (R170). Where
statuses 1 and 2 both apply the spec gives no order: 1 is returned (DESIGN CHOICE, log 92). -/
def phaseRefused (s : State) (own : Nat) (save : Bool) (t image : Nat) : Option Nat :=
  let x := s.ctx t
  if fnOf t ≠ fnOf own || t = own || !(s.isUser t) then some 1
  else if phaseInFlight s t then none
  else if save then
    if x.st ≠ .active then some 2
    else if x.csaven.toNat < slotsUsed s t + ((cohortsOf s t .resident).filter fun k => (s.coh k).preq.isNone).length then
      some 3
    else none
  else if x.st ≠ .saved then some 2
  else if (imageAt s own t image).isNone then some 4
  else none

/-- A phase begins on a context: a save phase asks every resident cohort to stop (07 R151, R152). -/
def beginPhase (save : Bool) (t : Nat) (s : State) : State :=
  let s := s.modCtx t fun x => { x with st := if save then .saving else .loading }
  if save then forEach (cohortsOf s t .resident) (requestPreempt false) s else s

/-- The oldest phase that waits for a context. -/
def phaseQueued (s : State) (t : Nat) : Option (Nat × Op) :=
  s.ops.find? fun e => match e.2.kind with
    | .phase _ x _ _ queued => queued && x = t
    | _ => false

/-- With no phase in flight on a context, those that waited are judged in arrival order, until one begins (08 R170). -/
def servePhases (t : Nat) : Nat → State → State
  | 0, s => s
  | n + 1, s =>
    if phaseInFlight s t then s
    else match phaseQueued s t with
      | some (id, o) =>
        match o.kind with
        | .phase save _ image dst _ =>
          match phaseRefused s (s.coh o.coh).ctx save t image with
          | some st => servePhases t n (completeOp id (s.writeS o.coh o.warp dst (BitVec.ofNat 64 st)))
          | none => beginPhase save t (s.modOp id fun o => { o with kind := .phase save t image dst false })
        | _ => s
      | none => s

/-- The virtual function is being pre-empted or is pre-empted (07 R153). -/
def vfPaused (s : State) (fn : Nat) : Bool := (upto 16).any fun c => (s.ctx (16 * fn + c)).vfHeld

end Sys2Proof.Machine
end

