-- ==== Sys2Proof/Machine/Homes.lean ====
section
/-! DEFINITION. What happens at the homes and on the way back: requests that load, store, modify and contribute (16 R301
to R305, R313, R316; 17 R338), evictions of the L2 (14 R248), polls (16 R312), and the completion of long instructions
(02 R42, 07 R127). -/

namespace Sys2Proof.Machine

/-! ## Requests -/

/-- What an earlier operation of the same warp must have done before a request: a load that was still to be looked up
waits for its reply or completion (14 R247), any other request for its accesses to the line (16 R307). -/
def Op.before (p : Part) (o : Op) : Bool :=
  if p.late && p.act = .load then o.holdsLine p.line
  else o.holdsHeader (p.act = .claim) p.line || o.parts.any fun q => !q.done && q.line = p.line

/-- Requests of one instruction that perform in the order of its warps: stores at each home (15 R272), others on each
line (16 R314, 17 R337). -/
def Part.ordered (p q : Part) : Bool := !q.done && match p.act with
  | .store _ => sameHome q.line p.line
  | .load | .atomic _ _ _ _ | .redc _ _ _ _ _ _ | .claim => q.line = p.line

/-- The reach class of a request of an operation (16 R308). -/
def Op.reachAt (o : Op) (p : Part) : Nat := if o.sp then 0 else reachOf p.line

/-- A request may be performed: every earlier request of its own warp to the line has been, and so have the requests of
its own instruction that go first (16 R307; 15 R272; 17 R335, R337); no earlier acquire of the warp holds it back (16 R310);
and its home can be reached. -/
def partTurn (s : State) (id : Nat) (o : Op) (i : Nat) (p : Part) : Bool :=
  !p.done && !((o.parts.take i).any fun q => !q.done && q.line = p.line) && !s.unreachable p.line &&
    !acqAhead s id o.coh o.warp (o.reachAt p) &&
    !(s.ops.any fun e => e.1 < id && e.2.coh = o.coh &&
      ((e.2.warp = o.warp && e.2.before p) || (e.2.batch = o.batch && o.batch.isSome && e.2.parts.any p.ordered)))

/-- A request as it is performed: one that had to wait at the core leaves with the view its warp has then (DEDUCED, log
101). -/
def Part.sent (s : State) (o : Op) (p : Part) : Part :=
  if p.late then { p with vreq := max p.vreq (s.warp o.coh o.warp).view } else p

/-- An event on one outstanding request: nothing happens unless it is there, its turn has come and it is of the
event's kind. -/
def onPart (id i : Nat) (ok : Op → Part → Bool) (k : Op → Part → State → State) (s : State) :
    Host.Outcome State Fault Refusal :=
  match s.ops.find id with
  | none => .next s
  | some o =>
    match o.parts[i]? with
    | none => .next s
    | some p => if partTurn s id o i p && ok o p then .next (k o (p.sent s o) s) else .next s

/-- Replace a request of an operation. -/
def setPart (id i : Nat) (p : Part) (s : State) : State :=
  s.modOp id fun o => { o with parts := o.parts.set i p }

/-- Every request of an operation has replied. -/
def Op.replied (o : Op) : Bool := o.parts.all fun p => p.done

/-- An MBXPUT or MBXGET, which ends at its ring's header (17 R348, R349). -/
def Op.mailbox (o : Op) : Bool := match o.kind with
  | .mbxput _ _ _ _ _ _ | .mbxget _ _ _ _ _ _ _ => true
  | _ => false

/-- A posted operation whose requests have all replied is no longer outstanding. -/
def finishPosted (id : Nat) (s : State) : State :=
  match s.ops.find id with
  | some o => if !o.long && o.replied && !o.mailbox then completeOp id s else s
  | none => s

/-- A write has performed at the home under a stamp, having read a value under `rd`: the request has replied,
and it is a progress event (04 R106). A copy of the line that another warp filled since the write issued leaves the
issuing core's L1, so that no later load of the warp reads it (16 R307). A posted operation raises its warp's H, and
an atomic its view, at once; a long one when it completes (16 R303, R305, R313). -/
def replyWrite (id i : Nat) (o : Op) (p : Part) (w rd : Nat) (vals : List (Nat × Nat)) (s : State) : State :=
  let s := progress o.core o.coh o.ths (setPart id i { p with done := true, heldSeal := false, vals } s)
  let s := s.modOp id fun o => { o with hi := max o.hi w, rd := max o.rd rd }
  let s := s.modCore o.core (Core.l1Drop p.line)
  if o.long then s else finishPosted id ((s.raiseH o.coh o.warp w).raiseView o.coh o.warp rd)

/-- A write of a task on its way to its home: the remote-data cache of its die drops the line (14 R249), and the undo
store takes the line first, holds the write for a seal, or discards it under a wound (22 R419). -/
def passUndo (id i : Nat) (o : Op) (p : Part) (perform : State → State) (s : State) : State :=
  match undoGate o.coh p.va p.line p.heldSeal s with
  | .go s =>
    let die := dieOf o.core
    perform (if isRemote die p.line then s.rdcDrop die p.line else s)
  | .held s => setPart id i { p with heldSeal := true } s
  | .drop => finishPosted id (setPart id i { p with done := true, heldSeal := false } s)

/-- The loads that wait for one fill of a die's remote-data cache: those of its cores whose request for the line has
gone there and has had no answer (14 R249). -/
def Op.waitsFill (die line : Nat) (o : Op) : Bool :=
  isRemote die line && dieOf o.core = die && o.parts.any fun p => !p.done && !p.late && p.line = line && p.act = .load

/-- A fill that carries an uncorrectable soft error is reported to each requester that waits for it (14 R249). -/
def shareSoft (o : Op) (line : Nat) (s : State) : State :=
  if !o.soft then s
  else { s with ops := s.ops.mapVals fun _ x =>
    if x.waitsFill (dieOf o.core) line then { x with soft := true } else x }

/-- A load request is answered (14 R247, R249, R250; 16 R301): from a cache when it was still to be looked up, else by the
home or the remote-data cache; the reply fills the caches, unless it carries an uncorrectable soft error. -/
def answerLoad (id i : Nat) (o : Op) (p : Part) (s : State) : State :=
  let ctx := (s.coh o.coh).ctx
  let view := p.vreq
  let fromCache := if p.late then lookup o.core ctx view p.ret p.va p.line s else none
  let (s, x) := match fromCache with
    | some r => r
    | none =>
      let path : Path := { die := some (dieOf o.core), span := s.span o.coh o.warp, keep := !o.soft }
      let (s, x) := (shareSoft o p.line s).fetchLine path p.line view p.ret
      let x := { x with ctx, gran := granOf p.va, hint := p.ret }
      let dev := match o.kind with
        | .prefetch dev => dev
        | _ => false
      (if isHost p.line || dev || o.soft then s else s.modCore o.core (Core.l1Fill x), x)
  finishPosted id ((setPart id i (p.answer x) s).modOp id fun o => { o with rd := max o.rd x.w })

/-- Whether a request loads. -/
def Part.loads (p : Part) : Bool := match p.act with
  | .load => true
  | _ => false

/-- The marks of a lane's destination registers for a scratchpad byte with an uncorrectable error (14 R245). -/
def Op.spMarks (o : Op) (l : Nat) : List Poison := match o.kind with
  | .load w _ _ dst => markLane true dst (if w ≤ 4 then 1 else w / 4) l 0x0F 3 0
  | .atomic wide _ _ (some dst) => markLane true dst (if wide then 2 else 1) l 0x0F 3 0
  | _ => []

/-- A scratchpad request that has waited is made (15 R274, 16 R310, R315): the scratchpad, and the lanes' values. -/
def spAccess (p : Part) (h : Cohort) : Cohort × List (Nat × Nat) :=
  match p.act with
  | .load => (h, p.reads.map fun r => (r.1, h.readSpN r.2.1 r.2.2))
  | .store bs => (bs.foldl (fun h b => h.writeSpL b.1 [b.2]) h, [])
  | .atomic op ty off lanes =>
    let n := tyBytes ty
    let (v, olds) := atomRun op ty lanes (h.readSpN off n)
    (h.writeSpN off n v, olds)
  | .redc _ _ _ _ _ _ | .claim => (h, [])

/-- The lanes of a scratchpad request that read a byte with an uncorrectable error. -/
def spBadLanes (p : Part) (h : Cohort) : List Nat :=
  match p.act with
  | .load => (p.reads.filter fun r => h.spBad r.2.1 r.2.2).map fun r => r.1
  | .atomic _ ty off lanes => if h.spBad off (tyBytes ty) then lanes.map fun x => x.1 else []
  | .store _ | .redc _ _ _ _ _ _ | .claim => []

/-- Make a scratchpad request that has waited. -/
def performSp (id i : Nat) (o : Op) (p : Part) (s : State) : State :=
  let h := s.coh o.coh
  let (h', vals) := spAccess p h
  let s := s.modCoh o.coh fun _ => h'
  finishPosted id ((setPart id i { p with done := true, vals } s).modOp id fun x =>
    { x with marks := x.marks ++ (spBadLanes p h).flatMap o.spMarks })

/-- HOME_LOAD_REQUEST (16 R301): a load of a line homed on the core's own die, or of a host line; and one of the scratchpad that
has waited for an acquire. -/
def execHomeLoadRequest (op part : Nat) (s : State) : Host.Outcome State Fault Refusal :=
  onPart op part (fun o p => p.loads && (o.sp || !isRemote (dieOf o.core) p.line))
    (fun o p => if o.sp then performSp op part o p else answerLoad op part o p) s

/-- REMOTE_DATA_CACHE_FILL (14 R249): a load of a line homed elsewhere. A request that waited for another's fill is
served by it when the lease rule allows. -/
def execRemoteDataCacheFill (op part : Nat) (s : State) : Host.Outcome State Fault Refusal :=
  onPart op part (fun o p => p.loads && !o.sp && isRemote (dieOf o.core) p.line) (answerLoad op part) s

/-- STORE_PERFORM (16 R303), or a store to the scratchpad that has waited for an acquire. -/
def execStorePerform (op part : Nat) (s : State) : Host.Outcome State Fault Refusal :=
  onPart op part (fun _ p => match p.act with
      | .store _ => true
      | _ => false)
    (fun o p => if o.sp then performSp op part o p else passUndo op part o p fun s =>
      match p.act with
      | .store bs =>
        let (s, w) := s.homeStore p.line p.vreq p.ret bs
        replyWrite op part o p w 0 [] (fireMonitors p.line s)
      | .load | .atomic _ _ _ _ | .redc _ _ _ _ _ _ | .claim => s) s

/-- MBXGET at its header's home (17 R349): it claims the oldest published slot, whose message it then reads; an empty
ring ends it. Nothing happens while the slot's page does not translate. -/
def claimSlot (id i : Nat) (o : Op) (p : Part) (s : State) : State :=
  match o.kind with
  | .mbxget hdr slots log2n dst status _ _ =>
    let n := s.num (hdr + 16) 8
    let rd := (s.home p.line).1
    if s.num (hdr + 8) 8 ≤ n then
      (setPart id i { p with done := true } s).modOp id fun o => { o with rd := max o.rd rd }
    else
      let va := slots + 64 * (n % 2 ^ log2n)
      match translate s o.core (s.coh o.coh).ctx va .read with
      | .ok k =>
        let (s, w) := s.homeStore p.line p.vreq p.ret (cellsOf (hdr + 16) 8 (n + 1))
        let s := replyWrite id i o p w rd [] (fireMonitors p.line s)
        let q : Part := { act := .load, line := lineOf k, va, vreq := max p.vreq rd, ret := p.ret
                          reads := (upto 8).map fun m => (m, k + 8 * m, 8)
                          late := acqAhead s id o.coh o.warp (reachOf (lineOf k)) }
        s.modOp id fun o => { o with kind := .mbxget hdr slots log2n dst status (some n) 1, parts := o.parts ++ [q] }
      | .fault _ | .hole => s
  | _ => s

/-- ATOMIC_PERFORM (16 R313, R314): the lanes of one request apply in order, under one stamp; or a mailbox slot is
claimed; or an atomic on the scratchpad is made that has waited for an acquire. -/
def execAtomicPerform (op part : Nat) (s : State) : Host.Outcome State Fault Refusal :=
  onPart op part (fun _ p => match p.act with
      | .atomic _ _ _ _ | .claim => true
      | _ => false)
    (fun o p => if o.sp then performSp op part o p else passUndo op part o p fun s =>
      match p.act with
      | .atomic aop ty key lanes =>
        let n := tyBytes ty
        let rd := (s.home p.line).1
        let (v, olds) := atomRun aop ty lanes (s.num key n)
        let (s, w) := s.homeStore p.line p.vreq p.ret (cellsOf key n v)
        replyWrite op part o p w rd olds (fireMonitors p.line s)
      | .claim => claimSlot op part o p s
      | .load | .store _ | .redc _ _ _ _ _ _ => s) s

/-! ## Rounds of REDC (17 R338) -/

/-- The open round of a line. -/
def roundOf (s : State) (line : Nat) : Option Round := s.rounds.find? fun r => r.line = line

/-- A contribution may be taken: its line's round is open, or its slice can open one more. -/
def roundRoom (s : State) (line : Nat) : Bool :=
  (roundOf s line).isSome || (s.rounds.filter fun r => sliceOf r.line = sliceOf line).length < Config.roundsPerSlice

/-- The failure of a posted operation is left for its warp's next instruction that raises it; the first stands (07 R127). -/
def failPosted (coh w : Nat) (t : TrapRec) (s : State) : State :=
  s.modWarp coh w fun x => { x with fabFail := some (x.fabFail.getD t) }

/-- The cause with which the fabric fails the write of a ready word by a line's home: none where one module homes both. -/
def readyLoss (s : State) (line ready : Nat) : Option Nat :=
  if isPeer line && peerOf line = peerOf (lineOf ready) then none else s.agentLoss (lineOf ready)

/-- Count a contribution that took a stamp. The last of a round writes the ready word, 64 bits, under a stamp above
every lease of its line and at or above the round's stamps (16 R316). A ready word that the fabric does not deliver is the
failure of the posted operation that closed the round, at that operation's address (DESIGN CHOICE, log 75). -/
def countRound (o : Op) (p : Part) (n ready w : Nat) (s : State) : State :=
  let r := (roundOf s p.line).getD { line := p.line, got := 0, n, ready, hi := 0 }
  let r := { r with got := r.got + 1, hi := max r.hi w }
  let rest := s.rounds.filter fun x => x.line ≠ p.line
  if r.got < r.n then { s with rounds := r :: rest }
  else
    let s := { s with rounds := rest }
    match readyLoss s p.line r.ready with
    | some cause =>
      failPosted o.coh o.warp { code := 0x0E, detail := cause * 65536 + peerOf (lineOf r.ready), pc := o.pc, addr := p.va
                                imprecise := true } s
    | none =>
      let (s, _) := s.homeStore (lineOf r.ready) r.hi 0 (cellsOf r.ready 8 1)
      fireMonitors (lineOf r.ready) s

/-- REDC_CONTRIBUTION (16 R316, 17 R338). -/
def execRedcContribution (op part : Nat) (s : State) : Host.Outcome State Fault Refusal :=
  onPart op part (fun _ p => match p.act with
      | .redc _ _ _ _ _ _ => roundRoom s p.line
      | _ => false)
    (fun o p => passUndo op part o p fun s =>
      match p.act with
      | .redc rop ty key x n ready =>
        let k := tyBytes ty
        let (s, w) := s.homeStore p.line p.vreq p.ret (cellsOf key k (atomNew rop ty (s.num key k) x 0))
        replyWrite op part o p w 0 [] (countRound o p n ready w (fireMonitors p.line s))
      | .load | .store _ | .atomic _ _ _ _ | .claim => s) s

/-! ## Long instructions (02 R42, 07 R127) -/

/-- The lanes a request answers. -/
def Part.lanes (p : Part) : List Nat := match p.act with
  | .atomic _ _ _ ls => ls.map fun x => x.1
  | .load | .store _ | .redc _ _ _ _ _ _ | .claim => p.reads.map fun r => r.1

/-- The registers a long instruction writes when it completes. -/
def Op.results (o : Op) : List RegW :=
  let vals := o.parts.flatMap fun p => p.vals
  match o.kind with
  | .calc ws _ => ws
  | .load w signed scal dst => vals.flatMap fun v => if scal then loadS w signed dst v.2 else loadV w signed dst v.1 v.2
  | .atomic wide signed scal (some dst) =>
    let n := if wide then 8 else 4
    vals.flatMap fun v => if scal then loadS n signed dst v.2 else loadV n false dst v.1 v.2
  | _ => []

/-- The destination registers of one lane: vector or scalar, first, and how many. -/
def Op.destRun (o : Op) : Option (Bool × Nat × Nat) :=
  match o.kind with
  | .load w _ scal dst => some (!scal, dst, if scal then 1 else if w ≤ 4 then 1 else w / 4)
  | .atomic wide _ scal (some dst) => some (!scal, dst, if scal || !wide then 1 else 2)
  | _ => none

/-- The marks of requests that failed in the fabric: trap 0x0E, cause and peer, failed address. -/
def Op.failMarks (o : Op) : List Poison :=
  match o.destRun with
  | none => []
  | some (vec, dst, n) => o.parts.flatMap fun p => match p.fail with
    | none => []
    | some (cause, peer) => p.lanes.flatMap fun l => markLane vec dst n l 0x0E (cause * 65536 + peer) p.va

/-- The marks of a reply with an uncorrectable soft error: trap 0x0F, DETAIL 2, the line address. -/
def Op.softMarks (o : Op) : List Poison :=
  if !o.soft then []
  else
    let addr := ((o.parts.head?.map fun p => p.va).getD 0) / 128 * 128
    o.dests.flatMap fun d =>
      if d.vec then ((upto 32).filter fun l => laneIn d.lanes l).flatMap fun l => markLane true d.idx 1 l 0x0F 2 addr
      else markLane false d.idx 1 0 0x0F 2 addr

/-- A long instruction completes: its registers and flags are written, its marks set, its warp's view and H raised. -/
def completeLong (id : Nat) (o : Op) (s : State) : State :=
  let fl := match o.kind with
    | .calc _ fl => fl
    | _ => 0
  let s := (s.regWs o.coh o.warp o.results).raiseFlags o.coh o.warp fl
  let s := s.markRegs o.coh o.warp (o.marks ++ o.failMarks ++ o.softMarks)
  completeOp id ((s.raiseView o.coh o.warp o.rd).raiseH o.coh o.warp o.hi)

/-- Whether an operation is a long instruction that only waits for its requests. -/
def Op.plainLong (o : Op) : Bool := o.long && match o.kind with
  | .calc _ _ | .load _ _ _ _ | .atomic _ _ _ _ => true
  | _ => false

/-- The marks of an MBXGET whose request failed in the fabric, on every register it writes. -/
def Op.getMarks (o : Op) : List Poison :=
  o.parts.flatMap fun p => match p.fail with
    | none => []
    | some (cause, peer) => o.dests.flatMap fun d => markLane false d.idx 1 0 0x0E (cause * 65536 + peer) p.va

/-- MBXGET completes: an empty ring gives status 1 alone; else the message and the index, and the release of HEAD is
left outstanding (17 R349). -/
def completeGet (id : Nat) (o : Op) (s : State) : State :=
  match o.kind with
  | .mbxget _ _ _ _ status none _ =>
    completeLong id { o with marks := o.marks ++ o.getMarks } (s.writeS o.coh o.warp status 1)
  | .mbxget hdr slots log2n dst status (some n) _ =>
    let s := forEach (o.parts.flatMap fun p => p.vals) (fun v => State.writeS o.coh o.warp (dst + v.1) (BitVec.ofNat 64 v.2)) s
    let s := s.writeS o.coh o.warp status (BitVec.ofNat 64 (n % 2 ^ 32 * 2 ^ 32))
    let s := s.markRegs o.coh o.warp (o.getMarks ++ o.softMarks)
    let s := (s.raiseView o.coh o.warp o.rd).raiseH o.coh o.warp o.hi
    wakeWaits o.coh (s.modOp id fun o => { o with
      kind := .mbxget hdr slots log2n dst status (some n) 2, long := false, dests := [], wins := [], acq := none
      hdr := o.parts.head? })
  | _ => s

/-- LONG_INSTRUCTION_COMPLETION (02 R42). -/
def execLongInstructionCompletion (op : Nat) (s : State) : Host.Outcome State Fault Refusal :=
  match s.ops.find op with
  | some o =>
    .next (if !(o.long && o.replied) then s
      else if o.plainLong then completeLong op o s
      else if o.mailbox then completeGet op o s else s)
  | none => .next s

/-! ## Polls and evictions -/

/-- A home slice has a monitor free. -/
def monitorFree (s : State) (line : Nat) : Bool :=
  (s.ops.filter fun e => e.2.held.isNone && match e.2.kind with
    | .waitc key _ _ _ _ false _ => sliceOf (lineOf key) = sliceOf line
    | _ => false).length < Config.monitorsPerSlice

/-- A WAITC registers its monitor, or polls where the word is a host line or the slice has no monitor free (16 R311, R312); it
returns at once when the condition holds. -/
def registerWaitc (id key ty cond cmp dst : Nat) (s : State) : State :=
  let poll := isHost (lineOf key) || !monitorFree s (lineOf key)
  waitcReturn id (s.modOp id fun o => { o with
    kind := .waitc key ty cond cmp dst poll ((s.core o.core).cycle + Config.pollCycles), held := none })

/-- An operation of the warp, older than another, has an access to a line that a later load waits for (14 R247). -/
def ownAhead (s : State) (id coh w line : Nat) : Bool := (s.opsOf coh w).any fun e => e.1 < id && e.2.holdsLine line

/-- WAITC_POLL (16 R312): a poll reads the word at its home; the next one follows 256 core cycles later. A WAITC that was held
back by an acquire or an access of its warp is registered (16 R307, R310). -/
def execWaitcPoll (op : Nat) (s : State) : Host.Outcome State Fault Refusal :=
  match s.ops.find op with
  | some { kind := .waitc key ty cond cmp dst poll due, core, coh, warp, held, .. } =>
    let now := (s.core core).cycle
    match held with
    | some r =>
      if acqAhead s op coh warp r || ownAhead s op coh warp (lineOf key) then .next s
      else .next (registerWaitc op key ty cond cmp dst s)
    | none =>
      if !poll || now < due then .next s
      else .next (waitcReturn op (s.modOp op fun o =>
        { o with kind := .waitc key ty cond cmp dst true (now + Config.pollCycles) }))
  | _ => .next s

/-- The line a slice evicts next from the set of a line: the victim of the retention order (14 R252). -/
def State.l2Victim (s : State) (line : Nat) : Option HLine :=
  (victim HLine.hint (sameL2Set line) s.l2).bind fun i => s.l2[i]?

/-- L2_EVICTION (14 R248): a slice may evict a line at any time, subject to the retention order of its set (R252). -/
def execL2Eviction (line : Nat) (s : State) : Host.Outcome State Fault Refusal :=
  .next (if (s.l2Victim line).any fun h => h.line = line then s.evictHome line else s)

end Sys2Proof.Machine
end

