-- ==== Sys2Proof/Machine/Tensor.lean ====
section
/-! DEFINITION. Tensor shape records (14 R254 to R258), the elements they address, the plane layouts (14 R259, R260), and
the checks an instruction that names a record makes. -/

namespace Sys2Proof.Machine

/-! ## Records (14 R254, R257) -/

/-- Bytes of a record. -/
def recordBytes : Nat := 192

/-- A record as its bytes give it. -/
def parseRecord (b : List Byte) : Tensor :=
  let r := fieldN b 9 1
  { base := fieldN b 0 8, type := fieldN b 8 1, rank := r, cv32 := fieldN b 10 1 = 1, inf := fieldN b 11 1 % 2 = 1
    ext := (upto r).map fun i => fieldN b (16 + 4 * i) 4
    stride := (upto r).map fun i => signExt 64 (fieldN b (40 + 8 * i) 8)
    lo := (upto r).map fun i => signExt 32 (fieldN b (88 + 8 * i) 4)
    hi := (upto r).map fun i => signExt 32 (fieldN b (92 + 8 * i) 4)
    blk := (upto r).map fun i => fieldN b (136 + 2 * i) 2 }

/-- Whether a type code is assigned (02 R39). -/
def typeAssigned (t : Nat) : Bool := t < 34 && !([7, 15, 23, 27].contains t)

/-- The element size in bits. -/
def Tensor.bits (t : Tensor) : Nat := codeWidth t.type
/-- The bytes an element's access takes. -/
def Tensor.elemBytes (t : Tensor) : Nat := max 1 (t.bits / 8)
/-- The bytes of `n` packed elements. -/
def Tensor.packed (t : Tensor) (n : Nat) : Nat := (n * t.bits + 7) / 8
/-- The product of a list. -/
def prodL (l : List Nat) : Nat := l.foldl (fun a x => a * x) 1
/-- Elements of one block. -/
def Tensor.blockLen (t : Tensor) : Nat := prodL t.blk
/-- An entry of a per-dimension list. -/
def dimD {α : Type} [Inhabited α] (l : List α) (i : Nat) : α := l.getD i default

/-- Fields of dimensions at or above RANK are zero. -/
def highDimsZero (b : List Byte) (r : Nat) : Bool :=
  ((upto 6).drop r).all fun i =>
    fieldN b (16 + 4 * i) 4 = 0 && fieldN b (40 + 8 * i) 8 = 0 && fieldN b (88 + 8 * i) 8 = 0 && fieldN b (136 + 2 * i) 2 = 0

/-- The lowest DETAIL of 14 R257 that applies to a record; `ok` tells the types the instruction accepts, `b4` whether
the function has binary4. -/
def recordFault (ok : Nat → Bool) (b4 : Bool) (b : List Byte) : Option Nat :=
  let r := fieldN b 9 1
  let t := parseRecord b
  let unit := if t.cv32 then (32 * t.bits) / 8 else t.elemBytes
  if r = 0 || 6 < r then some 1
  else if !typeAssigned t.type || !ok t.type || (codesB4.contains t.type && !b4) then some 2
  else if 1 < fieldN b 10 1 then some 3
  else if fieldN b 12 4 ≠ 0 || (b.drop 148).any (· ≠ 0) || 1 < fieldN b 11 1 || !highDimsZero b r then some 4
  else if t.base % unit ≠ 0 then some 5
  else if t.cv32 && t.stride.any (· % 32 ≠ 0) then some 6
  else if t.ext.any (· = 0) || t.blk.any (fun x => x = 0 || 4096 < x) then some 7
  else if 8 * 65536 < t.blockLen * t.bits then some 8
  else none

/-! ## Elements (14 R255, R256) -/

/-- Sum of coordinate times stride from dimension `i` on. -/
def strideSum (x : List Int) (st : List Int) : Int := (x.zip st).foldl (fun a e => a + e.1 * e.2) 0

/-- The element offset of a coordinate vector. -/
def Tensor.elem (t : Tensor) (x : List Int) : Int :=
  if t.cv32 then
    let x0 := dimD x 0
    x0.fdiv 32 * dimD t.stride 0 + x0.fmod 32 + strideSum (x.drop 1) (t.stride.drop 1)
  else strideSum x t.stride

/-- A coordinate vector is in bounds. -/
def Tensor.inBounds (t : Tensor) (x : List Int) : Bool :=
  (upto t.rank).all fun i => dimD t.lo i ≤ dimD x i && dimD x i < dimD t.hi i

/-- The virtual address of the byte that holds an element, or its first byte (14 R255). A sum that leaves 64 bits wraps modulo
2^64: the spec gives it no width (DESIGN CHOICE, log 98). -/
def Tensor.addr (t : Tensor) (x : List Int) : Nat := wrapN 64 ((t.base : Int) + (t.elem x * (t.bits : Int)).fdiv 8)

/-- A 4-bit element in the high half of its byte. -/
def Tensor.highHalf (t : Tensor) (x : List Int) : Bool := t.bits = 4 && t.elem x % 2 = 1

/-- The coordinates inside a block of an index counted with dimension 0 fastest. -/
def blockIndex : List Nat → Nat → List Nat
  | [], _ => []
  | b :: r, n => n % b :: blockIndex r (n / b)

/-- The coordinates of an element of a block: block coordinates, and the element's coordinates inside the block. -/
def Tensor.inBlock (t : Tensor) (b : List Int) (y : List Nat) : List Int :=
  (upto t.rank).map fun i => dimD b i * Int.ofNat (dimD t.blk i) + Int.ofNat (dimD y i)

/-- Blocks along each dimension: the blocks that cover its extent. -/
def Tensor.grid (t : Tensor) : List Nat :=
  (upto t.rank).map fun i => (dimD t.ext i + dimD t.blk i - 1) / max 1 (dimD t.blk i)

/-- Number of blocks of a tensor. -/
def Tensor.blocks (t : Tensor) : Nat := prodL t.grid

/-- The block coordinates of block `j`, dimension 0 fastest (14 R261). -/
def Tensor.blockAt (t : Tensor) (j : Nat) : List Int :=
  (blockIndex t.grid j).map Int.ofNat

/-- Every coordinate vector of a block, dimension 0 fastest. -/
def Tensor.blockElems (t : Tensor) (b : List Int) : List (List Int) :=
  (upto t.blockLen).map fun n => t.inBlock b (blockIndex t.blk n)

/-! ## Bit planes (14 R259, R260) -/

/-- The numbers from `a` up to `b`. -/
def fromTo (a b : Nat) : List Nat := (upto (b + 1 - a)).map fun i => a + i

/-- The bit of each plane of an operand type, in order. -/
def planeBits (t : Nat) : List Nat :=
  if t = 1 then 15 :: fromTo 10 14 ++ (upto 10).reverse
  else if t = 2 then 15 :: fromTo 7 14 ++ (upto 7).reverse
  else if 8 ≤ t && t ≤ 14 then 7 :: fromTo (t - 8) 6 ++ (upto (t - 8)).reverse
  else if 16 ≤ t && t ≤ 22 then fromTo (t - 16) 7 ++ (upto (t - 16)).reverse
  else if 24 ≤ t && t ≤ 26 then 3 :: fromTo (t - 24) 2 ++ (upto (t - 24)).reverse
  else (upto (codeWidth t)).reverse

/-- Types of matrix operands (15 R285). -/
def planeType (t : Nat) : Bool := [1, 2, 28, 29, 32, 33].contains t || codesB8.contains t || codesB4.contains t

/-- Bytes of a plane block. -/
def planeBlock (t : Nat) : Nat := 512 * codeWidth t

/-- The bytes of a plane block from the code of row or column m at depth k. -/
def planeBytes (t : Nat) (code : Nat → Nat → Nat) : List Byte :=
  (planeBits t).flatMap fun b => (upto 512).map fun i =>
    BitVec.ofNat 8 (((upto 8).map fun j => bits (code (i / 4) (8 * (i % 4) + j)) b b * 2 ^ j).foldl (fun a x => a + x) 0)

/-! ## Fetching a record (14 R258) -/

/-- AUX of an engine's memory fault (07 R129). -/
def auxEng (write : Bool) : Nat := if write then 5 else 4

/-- The check of one page an engine touches. -/
def enginePage (c : Iss) (need : Need) (va : Nat) (s : State) : Gate :=
  match translate s c.core (s.coh c.coh).ctx va need with
  | .ok _ => .pass (s.tlbNote c.core (s.coh c.coh).ctx va)
  | .fault n => .trap (memFault n va (auxEng (need = .write)))
  | .hole => .hole

/-- The check of every page of a range, for an engine. -/
def engPages (c : Iss) (need : Need) (a : Acc) (s : State) : Gate := gateAll (pagesOf a.1 a.2) (enginePage c need) s

/-- A range cut at line boundaries: address and length. -/
def chunksOf (va n : Nat) : List Acc :=
  if n = 0 then []
  else
    let first := va / 128
    (upto ((va + n - 1) / 128 - first + 1)).map fun i =>
      let a := max va ((first + i) * 128)
      (a, min (va + n) ((first + i + 1) * 128) - a)

/-- The way the reads of a warp take: through its die's remote-data cache, under its own lease span. -/
def warpPath (s : State) (core k w : Nat) : Path := { die := some (dieOf core), span := s.span k w }

/-- Read bytes of a line or less for a core, under a lease against a view (16 R301). -/
def readLeased (s : State) (p : Path) (core ctx va n vreq ret : Nat) : State × List Byte × Nat :=
  match translate s core ctx va .read with
  | .ok k =>
    let (s, x) := s.fetchLine p (lineOf k) vreq ret
    (s, (x.bytes.drop (k % 128)).take n, x.w)
  | .fault _ | .hole => (s, List.replicate n 0, 0)

/-- Read bytes that an instruction of a warp needs before its acceptance: a load under a lease against the warp's view,
each reply raising it (14 R258, 16 R301; DEDUCED, log 63). -/
def warpRead (c : Iss) (w ret va n : Nat) (s : State) : State × List Byte :=
  (chunksOf va n).foldl (fun (a : State × List Byte) ch =>
    let s := a.1
    let (s, b, st) := readLeased s (warpPath s c.core c.coh w) c.core (s.coh c.coh).ctx ch.1 ch.2 (s.warp c.coh w).view ret
    (s.raiseView c.coh w st, a.2 ++ b)) (s, [])

/-- A line that a warp's check reads, and that no copy in its die's remote-data cache serves, lies on a peer that is out of its
tray, or to which the fabric fails the request: the fabric trap is raised at the instruction (31 R517, R520; DEDUCED, log
64). -/
def fabricGate (c : Iss) (w : Nat) (a : Acc) (s : State) : Gate :=
  gateAll (chunksOf a.1 a.2) (fun ch s =>
    let line := lineOf (keyOf s c ch.1)
    match s.agentLoss line with
    | some cause =>
      if (serving (s.rdcOf (dieOf c.core)) line (s.warp c.coh w).view).isSome then .pass s else fabricTrap cause line ch.1
    | none => .pass s) s

/-- The reach classes of an access, page by page. -/
def accReach (s : State) (c : Iss) (a : Acc) : List Nat := (pagesOf a.1 a.2).map fun va => reachOf (lineOf (keyOf s c va))

/-- What a read whose pages translate still waits for before an acceptance: the warp's outstanding acquires (16 R310), the
atomic sets in reach, whose acquisition raises the view before the read (22 R416, R417), and the fabric. -/
def readHold (c : Iss) (w : Nat) (a : Acc) (s : State) : Gate :=
  (gateAcq c ((accReach s c a).map fun r => (w, r)) s).andThen fun s => (gateTouch true c [a] s).andThen (fabricGate c w a)

/-- The checks of a read that an instruction makes before its acceptance. -/
def readGate (c : Iss) (w : Nat) (a : Acc) (s : State) : Gate := (engPages c .read a s).andThen (readHold c w a)

/-- A core's record cache holds a record of a context. -/
def recHeld (s : State) (c : Iss) (va : Nat) : Option RecEnt :=
  (s.core c.core).recs.find? fun r => r.ctx = (s.coh c.coh).ctx && r.addr = va

/-- The bytes of a record a warp names: from its core's record cache, or fetched as two lines and cached. -/
def fetchRecord (c : Iss) (w va : Nat) (s : State) : State × List Byte :=
  let ctx := (s.coh c.coh).ctx
  match recHeld s c va with
  | some r =>
    (s.modCore c.core fun k => { k with recs := r :: k.recs.filter fun x => !(x.ctx = ctx && x.addr = va) }, r.bytes)
  | none =>
    let (s, b) := warpRead c w 0 va recordBytes s
    (s.modCore c.core fun k => { k with recs := ({ ctx, addr := va, bytes := b } :: k.recs).take Config.recCache }, b)

/-- The checks of a record a warp names (15 R282 step 1): alignment, translation, then 14 R257 and the transform's own
shape, DETAIL 9. The state holds the fetched record. A record that the core's cache holds is read nowhere else. -/
def recordGate (c : Iss) (w va : Nat) (ok : Nat → Bool) (shape : Tensor → Bool) (s : State) : Gate :=
  if va % 64 ≠ 0 then misaligned 6 va
  else (if (recHeld s c va).isSome then engPages c .read (va, recordBytes) s else readGate c w (va, recordBytes) s).andThen
    fun s =>
    let (s, b) := fetchRecord c w va s
    match recordFault ok (s.hasCap (fnOf (s.coh c.coh).ctx) 5) b with
    | some d => .trap { code := 0x0A, detail := d, addr := va }
    | none => if shape (parseRecord b) then .pass s else .trap { code := 0x0A, detail := 9, addr := va }

/-- The record a warp's checks have fetched. -/
def recordOf (s : State) (c : Iss) (w va : Nat) : Tensor := parseRecord (fetchRecord c w va s).2

end Sys2Proof.Machine
end

