-- ==== Sys2Proof/Machine/Engine.lean ====
section
/-! DEFINITION. The engine port (15 R278 to R281): acceptance of a future-class command, its reads and writes at the homes
and in scratchpad, and its completion. A command reads and writes in one step, at its completion. -/

namespace Sys2Proof.Machine

/-! ## Checks (15 R282) -/

/-- One round of the checks of a group's commands: each warp's own with the sets of a sealed task (07 R125), and the atomic sets
in reach (22 R416). -/
def engRound (c : Iss) (f : Fields) (check : Nat → State → Gate) (accs : State → Nat → List Acc) (s : State) : Gate :=
  let ws := c.warpsOn f s
  (gateAll ws (fun w s => (check w s).andThen fun s => sealedGate true c (accs s w) s) s).andThen fun s =>
    gateAll ws (fun w s => gateTouch true c (accs s w) s) s

/-- The sets a cohort holds. -/
def holdings (s : State) (coh : Nat) : List DeclSet := (s.ctx (s.coh coh).ctx).decls.filter fun d => d.heldBy coh

/-- The checks are made on what the commands will read: a set that a round acquires raises the views (22 R417), and the
round is made again on what the warps read then. -/
def engSettle (c : Iss) (round : State → Gate) : Nat → State → Gate
  | 0, s => .pass s
  | n + 1, s => (round s).andThen fun t => if holdings t c.coh = holdings s c.coh then .pass t else engSettle c round n t

/-- The checks of a group's commands, and the seal of an irrevocable one (22 R420). The first round reads what the checks
need; the rounds after it find the same bytes, as the commands will. -/
def engGate (c : Iss) (f : Fields) (check : Nat → State → Gate) (accs : State → Nat → List Acc) (irr : Bool) (s : State) :
    Gate :=
  let round := engRound c f check accs
  (round s).andThen fun s =>
    (engSettle c round ((s.ctx (s.coh c.coh).ctx).decls.length + 1) s).andThen fun s =>
      if irr && !(c.warpsOn f s).isEmpty then gateSeal c .irrevocable s else .pass s

/-- The address or offset is a multiple of 2^log. -/
def alignGate (log a : Nat) (s : State) : Gate := if a % 2 ^ log ≠ 0 then misaligned log a else .pass s

/-- A scratchpad region of a command lies within the allocation. -/
def rangeGate (c : Iss) (off n : Nat) (s : State) : Gate :=
  if n ≠ 0 && (s.coh c.coh).scratchSize < off + n then badOperand 16 off else .pass s

/-- The operands of a command: SA, sb and sb + 1. -/
def opSA (s : State) (c : Iss) (f : Fields) (w : Nat) : Nat := (s.srcS c.coh w f.sa).toNat
def opSB (s : State) (c : Iss) (f : Fields) (w : Nat) : Nat := ((s.warp c.coh w).readS f.sb.idx.toNat).toNat
def opSB1 (s : State) (c : Iss) (f : Fields) (w : Nat) : Nat := ((s.warp c.coh w).readS (f.sb.idx.toNat + 1)).toNat
/-- Bits [31:0] and bits [63:32]. -/
def lo32 (x : Nat) : Nat := x % 2 ^ 32
def hi32 (x : Nat) : Nat := x / 2 ^ 32 % 2 ^ 32

/-! ## Acceptance (15 R279) -/

/-- The engine port accepts a command of a warp: the future register is pending, and so are vector registers the command
writes; the command takes the core's engine sequence number. -/
def startEng (c : Iss) (w : Nat) (dst : Operand) (vecs : List RegUse) (lanes : BitVec 32) (cmd : EngCmd) (s : State) :
    State :=
  let n := (s.core c.core).engSeq
  (s.modCore c.core fun k => { k with engSeq := n + 1 }).addOp
    { kind := .eng cmd, coh := c.coh, warp := w, core := c.core, pc := c.pc, ths := c.ths
      dests := destsOf (usesOf dst 1 ++ vecs) lanes, fut := some n.toNat, vacc := (s.warp c.coh w).view }

/-- The requests of accesses to lines on peer modules, one for each line: a command is not in flight at its port without
them, and the fabric may fail each (31 R517, R519). -/
def peerParts (s : State) (c : Iss) (as_ : List Acc) : List Part :=
  (as_.flatMap fun a => chunksOf a.1 a.2).foldl (fun ps a =>
    let line := lineOf (keyOf s c a.1)
    if isPeer line && !(ps.any fun (p : Part) => p.line = line) then
      ps ++ [{ act := .load, line, va := a.1, done := true }] else ps) []

/-- Give a command its requests to peer modules. -/
def withPeers (id : Nat) (ps : List Part) (s : State) : State := s.modOp id fun o => { o with parts := ps }

/-- The command that a warp has just issued, where an acquire of the warp holds back its acceptance: one of its global operands,
whose reach classes are `rs`, is in the acquire's reach (16 R310). It takes its sequence number at its acceptance. -/
def holdCommand (c : Iss) (w id : Nat) (rs : List Nat) (s : State) : State :=
  if rs.any (acqHolds s c.coh w) then
    (s.modCore c.core fun k => { k with engSeq := k.engSeq - 1 }).modOp id fun o =>
      { o with fut := none, held := some (rs.foldl min 3) }
  else s

/-- The engine port accepts a command that was held back, under the view its warp has now (15 R279, R280). -/
def acceptHeld (id : Nat) (o : Op) (s : State) : State :=
  let n := (s.core o.core).engSeq
  (s.modCore o.core fun k => { k with engSeq := n + 1 }).modOp id fun o =>
    { o with fut := some n.toNat, held := none, vacc := (s.warp o.coh o.warp).view }

/-- A command with no vector result. -/
def startPlain (c : Iss) (f : Fields) (w : Nat) (cmd : EngCmd) (s : State) : State :=
  startEng c w f.dst [] 0 cmd s

/-! ## A command at work -/

/-- Whose accesses a command makes: its core's, through the remote-data cache of that die; those of a controller of
another die (14 R262); or requests sent to each home (R264). -/
inductive Via where
  | core | die (d : Nat) | home
  deriving DecidableEq, Repr

/-- What a command has done: the state, the highest stamps read and written, the memory-fault code that stopped it, the
request that failed in the fabric (cause, peer, address), whether what it read holds an uncorrectable error, and, for a
command that was stopped, the free value whose bit at an address tells whether the byte there is still written (15
R296). -/
structure Eng where
  s : State
  rd : Nat := 0
  hi : Nat := 0
  cause : Nat := 0
  fail : Option (Nat × Nat × Nat) := none
  soft : Bool := false
  pick : Option Nat := none
  via : Via := .core
  deriving DecidableEq, Repr

/-- The failure of a request of a command in the fabric: cause, peer and address (31 R517). -/
def Op.fabricFail (o : Op) : Option (Nat × Nat × Nat) :=
  o.parts.findSome? fun p => p.fail.map fun x => (x.1, x.2, p.va)

/-- A command stopped at an access. -/
def Eng.bad (e : Eng) : Bool := e.cause ≠ 0 || e.fail.isSome

/-- The die whose remote-data cache a command's writes pass, and empty of the line: the fabric interface that sends a scatter's
elements to their homes is that of the issuing core's die (14 R249, R264). -/
def Via.writeDie (core : Nat) : Via → Nat
  | .core | .home => Sys2Proof.Machine.dieOf core
  | .die d => d

/-- The die whose remote-data cache a command's reads look up. -/
def Via.dieOf (core : Nat) : Via → Option Nat
  | .core => some (Sys2Proof.Machine.dieOf core)
  | .die d => some d
  | .home => none

/-- An access to a module that is out of its tray fails in the fabric with cause 1 (31 R517, R520). -/
def Eng.lost (line va : Nat) (e : Eng) : Eng := { e with fail := some (1, peerOf line, va) }

/-- The bytes a command leaves at addresses from `a`: its own, or where a stopped command did not come the old ones. -/
def Eng.mix (e : Eng) (old : Nat → Byte) (a : Nat) (bs : List Byte) : List Byte :=
  match e.pick with
  | none => bs
  | some n => bs.zipIdx.map fun p => if n.testBit (a + p.2) then p.1 else old (a + p.2)

/-- Read global bytes under leases against the view at acceptance (15 R280). -/
def engRead (o : Op) (ret va n : Nat) (e : Eng) : List Byte × Eng :=
  (chunksOf va n).foldl (fun (a : List Byte × Eng) ch =>
    let (bs, e) := a
    if e.bad then (bs, e)
    else match translate e.s o.core (e.s.coh o.coh).ctx ch.1 .read with
      | .ok k =>
        if e.s.unreachable (lineOf k) then (bs, e.lost (lineOf k) ch.1)
        else
          let path : Path := { die := e.via.dieOf o.core, span := e.s.span o.coh o.warp, keep := !o.soft }
          let (s, b, w) := readLeased e.s path o.core (e.s.coh o.coh).ctx ch.1 ch.2 o.vacc ret
          (bs ++ b, { e with s, rd := max e.rd w })
      | .fault n => (bs, { e with cause := n })
      | .hole => (bs, { e with cause := 2 })) ([], e)

/-- Write global bytes of one line at its home: the caches on the way drop the line (14 R247, R249; 16 R303). -/
def engWriteLine (o : Op) (ret key va : Nat) (bs : List Byte) (e : Eng) : Eng :=
  let line := lineOf key
  if e.s.unreachable line then e.lost line va
  else
    let s := e.s.modCore o.core (Core.l1Drop line)
    let d := e.via.writeDie o.core
    let s := if isRemote d line then s.rdcDrop d line else s
    let (s, w) := s.homeStore line o.vacc ret (cellsOfL key (e.mix s.byte key bs))
    { e with s := fireMonitors line s, hi := max e.hi w }

/-- Write global bytes. -/
def engWrite (o : Op) (ret va : Nat) (bs : List Byte) (e : Eng) : Eng :=
  (chunksOf va bs.length).foldl (fun (e : Eng) ch =>
    if e.bad then e
    else match translate e.s o.core (e.s.coh o.coh).ctx ch.1 .write with
      | .ok k => engWriteLine o ret k ch.1 ((bs.drop (ch.1 - va)).take ch.2) e
      | .fault n => { e with cause := n }
      | .hole => { e with cause := 2 }) e

/-- Read scratchpad bytes. -/
def engSpRead (o : Op) (off n : Nat) (e : Eng) : List Byte × Eng :=
  let h := e.s.coh o.coh
  (h.readSpL off n, { e with soft := e.soft || h.scratchBad.any fun a => off ≤ a && a < off + n })

/-- Write scratchpad bytes. -/
def engSpWrite (o : Op) (off : Nat) (bs : List Byte) (e : Eng) : Eng :=
  { e with s := e.s.modCoh o.coh (Cohort.writeSpL off (e.mix (e.s.coh o.coh).readSp off bs)) }

/-- The code of an element of a tensor (10 R185: a 4-bit element is a half of its byte). -/
def engElem (o : Op) (ret : Nat) (t : Tensor) (x : List Int) (e : Eng) : Nat × Eng :=
  let (bs, e) := engRead o ret (t.addr x) t.elemBytes e
  let v := leNat bs
  (if t.bits = 4 then (if t.highHalf x then v / 16 else v % 16) else v, e)

/-- Write the code of an element. -/
def engElemPut (o : Op) (ret : Nat) (t : Tensor) (x : List Int) (v : Nat) (e : Eng) : Eng :=
  let va := t.addr x
  if t.bits = 4 then
    match translate e.s o.core (e.s.coh o.coh).ctx va .write with
    | .ok k =>
      let b := (e.s.byte k).toNat
      engWriteLine o ret k va [BitVec.ofNat 8 (if t.highHalf x then b % 16 + 16 * v else b / 16 * 16 + v)] e
    | .fault n => { e with cause := n }
    | .hole => { e with cause := 2 }
  else engWrite o ret va (leBytes t.elemBytes v) e

/-- The code of packed element `p` of a scratchpad array. -/
def spElem (o : Op) (t : Tensor) (off p : Nat) (e : Eng) : Nat × Eng :=
  let (bs, e) := engSpRead o (off + p * t.bits / 8) t.elemBytes e
  let v := leNat bs
  (if t.bits = 4 then (if p % 2 = 1 then v / 16 else v % 16) else v, e)

/-- Write packed element `p` of a scratchpad array. -/
def spElemPut (o : Op) (t : Tensor) (off p v : Nat) (e : Eng) : Eng :=
  let a := off + p * t.bits / 8
  if t.bits = 4 then
    let b := ((e.s.coh o.coh).readSp a).toNat
    engSpWrite o a [BitVec.ofNat 8 (if p % 2 = 1 then b % 16 + 16 * v else b / 16 * 16 + v)] e
  else engSpWrite o a (leBytes t.elemBytes v) e

/-! ## Completion (15 R279, R280) -/

/-- The value of a future: sequence number, COUNT, CAUSE, CODE. -/
def futureValue (seq count cause code : Nat) : W64 :=
  BitVec.ofNat 64 (seq % 2 ^ 32 * 2 ^ 32 + count % 65536 * 65536 + cause % 256 * 256 + code % 256)

/-- Every thread of a warp. -/
def warpThs (s : State) (coh w : Nat) : List (Nat × Nat) := (upto (s.warp coh w).threads.length).map fun l => (w, l)

/-- A command completes: the future's value, the warp's view and H, a progress event (04 R106). -/
def finishEng (id : Nat) (o : Op) (count cause code : Nat) (e : Eng) : State :=
  let s := match o.dests.find? fun d => !d.vec with
    | some d => e.s.writeS o.coh o.warp d.idx (futureValue (o.fut.getD 0) count cause code)
    | none => e.s
  let s := (s.raiseView o.coh o.warp e.rd).raiseH o.coh o.warp e.hi
  completeOp id (progress o.core o.coh (warpThs s o.coh o.warp) s)

/-- The status CAUSE and CODE of a command that has run: an uncorrectable soft error, a fabric failure, a fault after
acceptance, or its own end with the cause that shortened it (15 R279). -/
def Eng.status (o : Op) (cause : Nat) (e : Eng) : Nat × Nat :=
  if e.soft || o.soft then (0, 4)
  else if e.fail.isSome then (0, 3)
  else if e.cause ≠ 0 then (e.cause, 1)
  else (cause, 0)

/-- A command of group 7 completes with its count and its status. -/
def finishRun (id : Nat) (o : Op) (count cause : Nat) (e : Eng) : State :=
  let st := e.status o cause
  finishEng id o count st.1 st.2 e

end Sys2Proof.Machine
end

