-- ==== Sys2Proof/Machine/Stop.lean ====
section
/-! DEFINITION. Stopping threads wherever they stand: out of their groups, bins and waits (07 R130, R144; 19 R364). -/

namespace Sys2Proof.Machine

/-- An operation that is a wait: released, its instruction executes again (07 R143, 19 R364). -/
def Op.isWait (o : Op) : Bool := match o.kind with
  | .fwait _ _ _ _ | .barWait _ _ | .mmwait _ | .waitpred _ | .slotw _ _ | .waitc _ _ _ _ _ _ _ | .grow _ _ | .setWait _
  | .wsync _ _ _ => true
  | .calc _ _ | .load _ _ _ _ | .store | .atomic _ _ _ _ | .redc | .prefetch _ | .mbxput _ _ _ _ _ _
  | .mbxget _ _ _ _ _ _ _ | .eng _ | .mat _ | .hcall _ _ _ _ _ | .phase _ _ _ _ _ => false

/-- A group loses threads of one warp. The waits of that warp go with them; the others of a group that would execute
its instruction again do so now. A group whose waits are all gone goes on. -/
def Group.without (s : State) (w : Nat) (gone : List (Nat × Nat)) (g : Group) : Group :=
  let ths := g.ths.filter fun t => !gone.contains t
  if g.waits.isEmpty then { g with ths }
  else if g.again then { g with ths, waits := [], again := false }
  else
    let waits := g.waits.filter fun i => !((FMap.find s.ops i).any fun o => o.warp = w)
    { g with ths, waits, pc := if waits.isEmpty then g.pc + 1 else g.pc }

/-- Where a thread in a group would issue next: past an instruction whose reply it waits for, at a wait otherwise. -/
def Group.stopPc (s : State) (g : Group) : W32 :=
  if !g.again && g.waits.any fun i => (FMap.find s.ops i).any fun o => !o.isWait then g.pc + 1 else g.pc

/-- The threads of a warp that stand in groups which back off, or whose matrix commands are still entering the queue
(05 R123, 19 R361). -/
def backingOff (s : State) (core coh w : Nat) : List Nat :=
  ((s.core core).entries.filter fun e =>
      e.2.coh = coh && (e.2.backoff.isSome || (s.core core).mx.late.any fun x => x.ent = e.1)).flatMap fun e =>
    (e.2.ths.filter fun t => t.1 = w).map Prod.snd

/-- Take the threads of a warp out of their group, bin or warp-wide wait, each with the PC at which it stopped, and leave
them parked. Those that were parked leave the list first, so that an entry which frees here goes to others (04 R94, R99).
Waits they were in are dropped. -/
def pullOut (core coh w : Nat) (lanes : List Nat) (s : State) : State :=
  let gone := lanes.map fun l => (w, l)
  let ents := (s.core core).entries.filter fun e => e.2.coh = coh && e.2.ths.any fun t => gone.contains t
  let dropped := ents.flatMap fun e => e.2.waits.filter fun i =>
    (FMap.find s.ops i).any fun o => o.isWait && (o.warp = w || e.2.again)
  let s0 := s
  let s := s.modCore core fun k => { k with
    bins := (k.bins.map fun b => if b.coh = coh then { b with ths := b.ths.filter fun t => !gone.contains t } else b).filter
      fun b => !b.ths.isEmpty
    parked := k.parked.filter fun t => !(t.1 = coh && gone.contains t.2) }
  let s := forEach ents (fun e => setPcs coh (e.2.ths.filter fun t => gone.contains t) (e.2.stopPc s0)) s
  let s := forEach ents (fun e s =>
    let g := e.2.without s0 w gone
    if g.ths.isEmpty then freeEntry core e.1 s
    else setPcs coh g.ths g.pc (s.modCore core fun k => { k with entries := k.entries.put e.1 g })) s
  park core coh gone (forEach dropped State.delOp s)

/-- An imprecise trap that belongs to no instruction of a warp: every live thread stops before the next instruction it
would issue, and the record names them all (07 R127, 19 R364). A thread whose group backs off stops once the group next
wins a slot (05 R123), and one whose instruction is still entering commands once it has (19 R361). A trap left for a warp
with no live thread is a context fault of cause 4 (07 R137). -/
def stopWarp (coh w : Nat) (t : TrapRec) (s : State) : State :=
  let core := (s.coh coh).core
  let live := (s.warp coh w).liveLanes
  if (s.cohorts.find coh).isNone then s
  else if live.isEmpty then contextFault (s.coh coh).ctx 4 0 { t with imprecise := true } s
  else
  let late := backingOff s core coh w
  let free := live.filter fun l => !(s.thread coh w l).held && !late.contains l
  let s := forEach (live.filter late.contains) (fun l => State.modThread coh w l fun x => { x with due := true }) s
  let s := pullOut core coh w free s
  let s := forEach free (fun l => State.modThread coh w l fun x => { x with tpc := x.pc, held := true }) s
  queueTrap coh w { t with imprecise := true, lmask := laneMask live } s

/-- The group in the slot of `cur` has members with a trap that waited for their backoff, or for their instruction, to end: they
stop before their next instruction (05 R123, 07 R130). -/
def takeDue (s : State) : State :=
  match curIss s with
  | none => s
  | some c =>
    let due := c.ths.filter fun t => (s.thread c.coh t.1 t.2).due
    let rest := c.ths.filter fun t => !due.contains t
    let s := noteHang c (endRun c s)
    let s := forEach due (fun t => State.modThread c.coh t.1 t.2 fun x => { x with tpc := x.pc, held := true, due := false }) s
    placeParts c.core c.ent ((if rest.isEmpty then [] else [{ coh := c.coh, pc := c.pc, ths := rest }]) ++
      (partsBy Prod.fst due).map fun p => { coh := c.coh, pc := c.pc, ths := p.2, held := true }) s

end Sys2Proof.Machine
end

