-- ==== Sys2Proof/Machine/Unit.lean ====
section
/-! DEFINITION. The matrix unit's arithmetic (10 R194 to R196; 19 R355 to R359, R369 to R371): shapes, plane blocks, the
K-step, the fold, and the moves of accumulator rows. -/

namespace Sys2Proof.Machine

/-! ## Accumulators (19 R352) -/

/-- The key of element (m, n) of a tile. -/
def accKey (tile m n : Nat) : Nat := 16384 * tile + 128 * m + n
/-- The tile, row and column of a key. -/
def accTile (k : Nat) : Nat := k / 16384
def accRow (k : Nat) : Nat := k % 16384 / 128
def accCol (k : Nat) : Nat := k % 128
/-- The keys of all four tiles, rising. -/
def accKeys : List Nat := upto 65536
/-- The keys of some tiles, rising. -/
def keysOf (tiles : List Nat) : List Nat := accKeys.filter fun k => tiles.contains (accTile k)
/-- Change the elements of some tiles. -/
def accMap (tiles : List Nat) (g : Nat → W32 → W32) (m : FMap W32) : FMap W32 :=
  accKeys.filterMap fun k =>
    let old := m.getD 0 k
    let x := if tiles.contains (accTile k) then g k old else old
    if x = 0 then none else some (k, x)

/-! ## Shapes and formats (19 R355, R357) -/

/-- A and B blocks of a shape: .1X4, .2X2, .4X1, .QUAD. -/
def shapeA (shape : Nat) : Nat := match shape with
  | 0 => 1
  | 1 => 2
  | _ => 4
def shapeB (shape : Nat) : Nat := match shape with
  | 1 => 2
  | 2 => 1
  | _ => 4
/-- The A and B block a sub-array uses. -/
def tileA (shape t : Nat) : Nat := match shape with
  | 0 => 0
  | 1 => t / 2
  | _ => t
def tileB (shape t : Nat) : Nat := match shape with
  | 0 => t
  | 1 => t % 2
  | 2 => 0
  | _ => t
/-- The row and column of the operation that an element of a tile holds; in QUAD, the scale entries it reads (19 R369). -/
def opRow (shape t m : Nat) : Nat := 128 * tileA shape t + m
def opCol (shape t n : Nat) : Nat := 128 * tileB shape t + n

/-- Integer operand formats. -/
def matInt (t : Nat) : Bool := [28, 29, 32, 33].contains t
/-- Floating operand formats. -/
def matFloat (t : Nat) : Bool := [1, 2].contains t || codesB8.contains t || codesB4.contains t
/-- The accepted pairs. -/
def matPair (a b : Nat) : Bool := (matInt a && matInt b) || (matFloat a && matFloat b)
/-- An integer pair is configured. -/
def MatrixCfg.ints (g : MatrixCfg) : Bool := matInt g.fa && matInt g.fb

/-! ## Operands in scratchpad (14 R259, R260) -/

/-- The code of row or column m at depth k of a plane block. -/
def planeCode (h : Cohort) (t off m k : Nat) : Nat :=
  ((planeBits t).zipIdx).foldl (fun a p =>
    a + 2 ^ p.1 * bits (h.readSp (off + 512 * p.2 + 4 * m + k / 8)).toNat (k % 8) (k % 8)) 0

/-- A signed integer operand's value. -/
def intOperand (t x : Nat) : Int :=
  match t with
  | 28 => signExt 8 x
  | 32 => signExt 4 x
  | _ => x

/-- Rows or columns of a plane block of which a byte holds an uncorrectable error. -/
def badLines (h : Cohort) (t off : Nat) : List Nat :=
  (h.scratchBad.filter fun a => off ≤ a && a < off + planeBlock t).map fun a => (a - off) % 512 / 4

/-! ## The K-step (10 R194, R195) -/

/-- Sum floating terms: the code and the flags NV, OF and NX. Zero products enter as +0, a zero sum is +0. `bad` tells an
infinity times zero, `nan` a NaN among the operands. -/
def sumTerms (bad nan : Bool) (terms : List Val) : Nat × BitVec 5 :=
  if bad then ((fmtOf 0 false).nan, flNV)
  else if nan then ((fmtOf 0 false).nan, 0)
  else
    let (x, fl) := terms.foldl (fun (a : Val × BitVec 5) t =>
      let (y, g) := addVal 0 a.1 t
      (y, a.2 ||| g)) (Val.ofInt 0, 0)
    match x with
    | .fin _ 0 _ => (0, fl)
    | _ =>
      let (c, g) := (fmtOf 0 false).round 0 false x
      (c, (fl ||| g) &&& (flNV ||| flOF ||| flNX))

/-- One floating K-step of an element. -/
def kstepFloat (pacc : Val) (as bs : List Val) : Nat × BitVec 5 :=
  let prods := (as.zip bs).map fun p => (mulVal p.1 p.2, p.1.isNan || p.2.isNan)
  sumTerms (prods.any fun p => p.1.2 ≠ 0) (pacc.isNan || prods.any fun p => p.2) (pacc :: prods.map fun p => p.1.1)

/-- One K-step of an element: its new Pacc and flags. -/
def kstep (g : MatrixCfg) (pacc : W32) (as bs : List Nat) : W32 × BitVec 5 :=
  if g.ints then
    (BitVec.ofInt 32 (signExt 32 pacc.toNat +
      (as.zip bs).foldl (fun a p => a + intOperand g.fa p.1 * intOperand g.fb p.2) 0), 0)
  else
    let (c, fl) := kstepFloat (decodeF 0 false pacc.toNat) (as.map (decodeF g.fa g.inf)) (bs.map (decodeF g.fb g.inf))
    (BitVec.ofNat 32 c, fl)

/-- The block offsets of a step (19 R359). -/
def blockA (g : MatrixCfg) (ab ainc s a : Nat) : Nat := ab + s * ainc * 256 + a * planeBlock g.fa
def blockB (g : MatrixCfg) (bb binc s b : Nat) : Nat := bb + s * binc * 256 + b * planeBlock g.fb

/-- The A (or B) blocks a command reads. -/
def blocksA (shape : Nat) (tiles : List Nat) : List Nat := sortedNats (tiles.map (tileA shape))
def blocksB (shape : Nat) (tiles : List Nat) : List Nat := sortedNats (tiles.map (tileB shape))

/-- The unit's status with flags and a soft-error mark (20 R391). -/
def statusOr (st : BitVec 9) (fl : BitVec 5) (soft : Bool) : BitVec 9 := st ||| fl.setWidth 9 ||| (if soft then 256 else 0)

/-- Union of key lists, rising. -/
def unionKeys (l r : List Nat) : List Nat := if r.isEmpty then l else accKeys.filter fun k => l.contains k || r.contains k

/-- The depths of a block. -/
def depths : List Nat := upto 32

/-- One K-step of the unit over some tiles. -/
def unitStep (h : Cohort) (tiles : List Nat) (ab bb ainc binc s : Nat) (m : MatrixUnit) : MatrixUnit :=
  let g := m.cfg
  let offA := fun (t : Nat) => blockA g ab ainc s (tileA g.shape t)
  let offB := fun (t : Nat) => blockB g bb binc s (tileB g.shape t)
  let new := fun (k : Nat) (old : W32) =>
    let t := accTile k
    kstep g old (depths.map fun d => planeCode h g.fa (offA t) (accRow k) d)
      (depths.map fun d => planeCode h g.fb (offB t) (accCol k) d)
  let bad := (keysOf tiles).filter fun k =>
    (badLines h g.fa (offA (accTile k))).contains (accRow k) || (badLines h g.fb (offB (accTile k))).contains (accCol k)
  { m with
    p := accMap tiles (fun k old => (new k old).1) m.p
    pmark := unionKeys m.pmark bad
    status := statusOr m.status ((keysOf tiles).foldl (fun fl k => fl ||| (new k (m.p.getD 0 k)).2) 0) (!bad.isEmpty) }

/-! ## The fold (10 R196, 19 R369) -/

/-- A scale of a vector: FP32 or E8. -/
def matScale (h : Cohort) (off : Nat) (e8 : Bool) (i : Nat) : Val :=
  if e8 then e8Val (h.readSp (off + i)).toNat else decodeF 0 false (h.readSpN (off + 4 * i) 4)

/-- Bytes of a scale. -/
def scaleBytes (e8 : Bool) : Nat := if e8 then 1 else 4

/-- A scale holds an uncorrectable error. -/
def scaleBad (h : Cohort) (off : Nat) (e8 : Bool) (i : Nat) : Bool :=
  h.scratchBad.any fun a => off + scaleBytes e8 * i ≤ a && a < off + scaleBytes e8 * (i + 1)

/-- A value is an infinity. -/
def Val.isInf : Val → Bool
  | .inf _ => true
  | .nan _ | .fin _ _ _ => false

/-- One fold of an element: the new Z and the flags. -/
def foldElem (ints : Bool) (z pacc : W32) (sa sb : Val) : W32 × BitVec 5 :=
  let zv := decodeF 0 false z.toNat
  let pv := if ints then Val.ofInt (signExt 32 pacc.toNat) else decodeF 0 false pacc.toNat
  let fs := [pv, sa, sb]
  let nan := fs.any Val.isNan
  let t := (mulVal (mulVal pv sa).1 sb).1
  let (c, fl) := sumTerms (!nan && fs.any Val.isInf && fs.any Val.isZero) (nan || zv.isNan) [zv, t]
  (BitVec.ofNat 32 c, fl)

/-- MMSCALE over some tiles. -/
def unitFold (h : Cohort) (tiles : List Nat) (sa sb : Nat) (ea eb : Bool) (m : MatrixUnit) : MatrixUnit :=
  let g := m.cfg
  let row := fun (k : Nat) => opRow g.shape (accTile k) (accRow k)
  let col := fun (k : Nat) => opCol g.shape (accTile k) (accCol k)
  let new := fun (k : Nat) (old : W32) =>
    foldElem g.ints old (m.p.getD 0 k) (matScale h sa ea (row k)) (matScale h sb eb (col k))
  let bad := (keysOf tiles).filter fun k => scaleBad h sa ea (row k) || scaleBad h sb eb (col k) || m.pmark.contains k
  { m with
    z := accMap tiles (fun k old => (new k old).1) m.z
    p := accMap tiles (fun _ _ => 0) m.p
    zmark := unionKeys m.zmark bad
    status := statusOr m.status ((keysOf tiles).foldl (fun fl k => fl ||| (new k (m.z.getD 0 k)).2) 0) (!bad.isEmpty) }

/-- MMZERO: the parts of some tiles, with their marks (20 R382). -/
def unitZero (z p : Bool) (tiles : List Nat) (m : MatrixUnit) : MatrixUnit :=
  let keep := fun (k : Nat) => !tiles.contains (accTile k)
  { m with
    z := if z then m.z.filter fun e => keep e.1 else m.z
    p := if p then m.p.filter fun e => keep e.1 else m.p
    zmark := if z then m.zmark.filter keep else m.zmark
    pmark := if p then m.pmark.filter keep else m.pmark }

/-! ## Rows (20 R386 to R389) -/

/-- The bits and the mark of an element of a part. -/
def MatrixUnit.elem (m : MatrixUnit) (p : Bool) (k : Nat) : W32 := if p then m.p.getD 0 k else m.z.getD 0 k
def MatrixUnit.marked (m : MatrixUnit) (p : Bool) (k : Nat) : Bool := (if p then m.pmark else m.zmark).contains k

/-- MMDRAIN: rows of a tile into a warp's registers from `vd`; a marked element poisons its register. -/
def drainRows (m : MatrixUnit) (tile row0 n : Nat) (p : Bool) (vd : Nat) (x : Warp) : Warp :=
  (upto (128 * n)).foldl (fun (x : Warp) i =>
    let k := accKey tile (row0 + i / 128) (i % 128)
    let reg := vd + 4 * (i / 128) + i % 128 / 32
    let x := x.writeV reg (i % 32) (m.elem p k)
    if m.marked p k && reg < 255 then { x with poison := x.poison ++ markLane true reg 1 (i % 32) 0x0F 1 0 } else x) x

/-- MMSTORE: rows of a tile into scratchpad from `off`; a marked element leaves its bytes in error. -/
def storeRows (m : MatrixUnit) (tile row0 n : Nat) (p : Bool) (off : Nat) (h : Cohort) : Cohort :=
  (upto (128 * n)).foldl (fun (h : Cohort) i =>
    let k := accKey tile (row0 + i / 128) (i % 128)
    let h := h.writeSpN (off + 4 * i) 4 (m.elem p k).toNat
    if m.marked p k then { h with scratchBad := h.scratchBad ++ (upto 4).map fun j => off + 4 * i + j } else h) h

/-- MMLOAD: rows of a tile from a warp's registers from `va`; a poisoned register marks the element. -/
def loadRows (x : Warp) (tile row0 n : Nat) (p : Bool) (va : Nat) (m : MatrixUnit) : MatrixUnit :=
  let within := fun (k : Nat) => accTile k = tile && row0 ≤ accRow k && accRow k < row0 + n
  let reg := fun (k : Nat) => va + 4 * (accRow k - row0) + accCol k / 32
  let new := fun (k : Nat) (old : W32) => if within k then x.readV (reg k) (accCol k % 32) else old
  let bad := (keysOf [tile]).filter fun k =>
    within k && x.poison.any fun q => q.vec && q.idx = reg k && q.lane = accCol k % 32
  let mark := fun (l : List Nat) => unionKeys (l.filter fun k => !within k) bad
  let m := { m with status := statusOr m.status 0 (!bad.isEmpty) }
  if p then { m with p := accMap [tile] new m.p, pmark := mark m.pmark }
  else { m with z := accMap [tile] new m.z, zmark := mark m.zmark }

end Sys2Proof.Machine
end

