-- ==== Sys2Proof/Machine/Matrix.lean ====
section
/-! DEFINITION. Group 9 (19 R352 to R372; 20 R377 to R391): configuration and ownership, the commands of the sequencer, joint
issue, the operand fence, the wait and the status; and the sequencer's own steps. A command reads and writes in one step,
at its completion. -/

namespace Sys2Proof.Machine

/-- Change a core's matrix unit. -/
def State.modMx (core : Nat) (f : MatrixUnit → MatrixUnit) (s : State) : State :=
  s.modCore core fun k => { k with mx := f k.mx }
/-- A core's matrix unit. -/
def State.mx (s : State) (core : Nat) : MatrixUnit := (s.core core).mx

/-- The matrix configuration trap (20 R379). -/
def badMatrix (detail : Nat) : Gate := .trap { code := 9, detail }

/-! ## Fields (20 R377) -/

/-- The formats of MMCFG. -/
def cfgA (f : Fields) : Nat := f.immBits 5 0
def cfgB (f : Fields) : Nat := f.immBits 11 6
/-- The joint mask of a warp's MMCFG. -/
def cfgMask (s : State) (c : Iss) (f : Fields) (w : Nat) : Nat := lo32 (opSA s c f w)
/-- The tile mask, and the tiles a command acts on (19 R355). -/
def tileMask (f : Fields) : Nat := f.modn % 16
def actTiles (g : MatrixCfg) (f : Fields) : List Nat :=
  if g.shape = 3 then (upto 4).filter fun t => (tileMask f).testBit t else upto 4
/-- The .J form of MMLOOP and MMDRAIN. -/
def isJoint (f : Fields) : Bool := f.modn / 16 % 2 = 1
/-- Rows of an accumulator move, and its part. -/
def row0Of (f : Fields) : Nat := f.immBits 6 0
def partP (f : Fields) : Bool := f.modn / 4 % 2 = 1
/-- STEPS, whose field 0 means 4,096 (02 R35), AINC and BINC. -/
def stepsOf (f : Fields) : Nat := if f.immBits 11 0 = 0 then 4096 else f.immBits 11 0
def aincOf (f : Fields) : Nat := f.immBits 21 12
def bincOf (f : Fields) : Nat := f.immBits 31 22
/-- A scratchpad offset operand. -/
def offOf (s : State) (c : Iss) (o : Operand) (w : Nat) : Nat := lo32 (s.srcS c.coh w o).toNat

/-! ## Configuration and ownership (19 R353; 20 R380, R381) -/

/-- The configuration checks of a warp's MMCFG. -/
def cfgGate (c : Iss) (f : Fields) (w : Nat) (s : State) : Gate :=
  let b4 := codesB4.contains (cfgA f) || codesB4.contains (cfgB f)
  if !matPair (cfgA f) (cfgB f) then badMatrix 1
  else if b4 && !s.hasCap (fnOf (s.coh c.coh).ctx) 5 then badMatrix 2
  else if cfgMask s c f w / 2 ^ (s.coh c.coh).warps.length ≠ 0 then badMatrix 8
  else if (s.mx c.core).owner = some c.coh && !(s.mx c.core).cfg.shares.isEmpty then badMatrix 8
  else .pass s

/-- The slot of a core in which a group of a cohort stands at an MMCFG, and the MMCFG. -/
def mmcfgAt (s : State) (core coh : Nat) : Option (Nat × Fields) :=
  (s.core core).slots.zipIdx.findSome? fun x =>
    match x.1.bind fun e => (s.core core).entries.find e with
    | some g => if g.coh ≠ coh then none else match found { s with cur := (core, x.2) } with
      | .instr (.mmcfg f) => some (x.2, f)
      | _ => none
    | none => none

/-- The stalled claims to a core's unit, oldest first: cohort, slot and MMCFG. A claim whose group has left its MMCFG, at a
trap, is none. -/
def claimsOn (s : State) (core : Nat) : List (Nat × Nat × Fields) :=
  (s.mx core).claims.filterMap fun k => (mmcfgAt s core k).map fun x => (k, x)

/-- Ownership: a claim waits for the unit, behind older claims; the owner waits for the queue. -/
def claimGate (c : Iss) (s : State) : Gate :=
  let m := s.mx c.core
  let wait := Gate.hold (s.modMx c.core fun m => { m with claims := insertNat c.coh m.claims })
  match m.owner with
  | some k => if k = c.coh then (if m.queue.isEmpty then .pass s else .hold s) else wait
  | none => if (claimsOn s c.core).any fun x => x.1 < c.coh then wait else .pass s

/-- A claim that issues again claims anew: one that traps now leaves none. -/
def dropClaim (s : State) : State :=
  match curIss s with
  | some c => s.modMx c.core fun m => { m with claims := m.claims.filter fun k => k ≠ c.coh }
  | none => s

/-- A cohort becomes the owner: every accumulator reads +0, and the sticky status is clear. -/
def MatrixUnit.claim (coh : Nat) (m : MatrixUnit) : MatrixUnit :=
  { owner := some coh, claims := m.claims.filter fun k => k ≠ coh }

/-- A warp's MMCFG takes effect. -/
def configure (c : Iss) (f : Fields) (w : Nat) (s : State) : State :=
  let mask := cfgMask s c f w
  let joint := (upto (s.coh c.coh).warps.length).filter fun v => mask.testBit v && !(s.warp c.coh v).retired
  let s := s.modMx c.core fun m =>
    let m := if m.owner = some c.coh then m else m.claim c.coh
    { m with
      cfg := { shape := f.modn % 4, fa := cfgA f, fb := cfgB f, inf := f.modn / 4 % 2 = 1, joint }
      claims := m.claims.filter fun k => k ≠ c.coh }
  s.modCoh c.coh fun h => { h with warps := h.warps.map fun x => { x with mshare := 0 } }

/-- MMCFG (20 R380). -/
def execMmcfg (f : Fields) (s : State) : Host.Outcome State Fault Refusal :=
  issue (.mmcfg f) f
    (fun c s =>
      let ws := c.warpsOn f s
      if ws.isEmpty then .pass s else (gateAll ws (cfgGate c f) s).andThen (claimGate c))
    (fun c s => leaveNext c f.bnd (perWarp c f s (configure c f) s)) (dropClaim s)

/-- The issuing cohort owns the unit, else DETAIL 3. -/
def ownGate (c : Iss) (s : State) : Gate := if (s.mx c.core).owner = some c.coh then .pass s else badMatrix 3

/-- The owner's end of ownership: unentered shares are discarded (20 R381). -/
def releaseUnit (c : Iss) (s : State) : State :=
  let ops := (s.mx c.core).cfg.shares.flatMap fun x => x.2.map fun y => y.2.1
  forEach ops completeOp (s.modMx c.core MatrixUnit.drop)

/-- MMCFG.REL (20 R381). -/
def execMmcfgRel (f : Fields) (s : State) : Host.Outcome State Fault Refusal :=
  issue (.mmcfgRel f) f
    (fun c s =>
      if (c.warpsOn f s).isEmpty then .pass s
      else (ownGate c s).andThen fun s => if (s.mx c.core).queue.isEmpty then .pass s else .hold s)
    (fun c s => leaveNext c f.bnd (if (c.warpsOn f s).isEmpty then s else releaseUnit c s)) s

/-! ## Commands (20 R378) -/

/-- The queue has room for a command; a full queue stalls the issue (19 R361). -/
def MatrixUnit.room (m : MatrixUnit) : Bool := m.queue.length < Config.mxQueue && m.late.isEmpty

/-- The issue goes on once the queue has room for its first command. -/
def roomGate (c : Iss) (s : State) : Gate := if (s.mx c.core).room then .pass s else .hold s

/-- The tile mask suits the shape, DETAIL 4. -/
def maskGate (c : Iss) (f : Fields) (s : State) : Gate :=
  if ((s.mx c.core).cfg.shape = 3) = (tileMask f = 0) then badMatrix 4 else .pass s

/-- The rows lie in the tile, DETAIL 9. -/
def rowGate (f : Fields) (s : State) : Gate := if 128 < row0Of f + nrowOf f then badMatrix 9 else .pass s

/-- The quad run of a warp's move, DETAIL 40. -/
def runGate (c : Iss) (f : Fields) (v w : Nat) (s : State) : Gate :=
  if min (s.warp c.coh w).alloc 255 < v + 4 * nrowOf f then badOperand 40 0 else .pass s

/-- A warp's matrix command enters the queue, or waits for room in it. -/
def queueMat (c : Iss) (bnd : Bool) (w : Nat) (dests : List Dest) (cmd : MatCmd) (s : State) : State :=
  let id := s.nextOp
  (s.addOp { kind := .mat cmd, coh := c.coh, warp := w, core := c.core, pc := c.pc, ths := c.ths, dests }).modMx c.core
    fun m => if m.room then { m with queue := m.queue ++ [id] }
      else { m with late := m.late ++ [{ op := id, slot := c.slot, ent := c.ent, bnd }] }

/-- A group whose commands have all entered the queue goes on; one that has still some to enter stalls in its slot. -/
def leaveQueued (c : Iss) (bnd : Bool) (s : State) : State := if issueStalls s c then s else leaveNext c bnd s

/-- The oldest command that waits for room enters the queue; with the last of its group's the group goes on. -/
def enterLate (core : Nat) (s : State) : State :=
  match (s.mx core).late with
  | [] => s
  | x :: rest =>
    let s := s.modMx core fun m => { m with queue := m.queue ++ [x.op], late := rest }
    match (s.core core).entries.find x.ent with
    | some g => leaveQueued { core, slot := x.slot, ent := x.ent, coh := g.coh, pc := g.pc, ths := g.ths } x.bnd s
    | none => s

/-- A matrix command of the plain form: its checks, room in the queue, and its entry for each warp. -/
def issueMat (i : Instr) (f : Fields) (gate : Iss → Nat → State → Gate) (dests : List Dest)
    (cmd : State → Iss → Nat → MatCmd) (s : State) : Host.Outcome State Fault Refusal :=
  issue i f
    (fun c s =>
      let ws := c.warpsOn f s
      if ws.isEmpty then .pass s
      else (ownGate c s).andThen fun s => (gateAll ws (gate c) s).andThen (roomGate c))
    (fun c s => leaveQueued c f.bnd (perWarp c f s (fun w t => queueMat c f.bnd w dests (cmd s c w) t) s)) s

/-- MMZERO (20 R382). -/
def execMmzero (f : Fields) (s : State) : Host.Outcome State Fault Refusal :=
  issueMat (.mmzero f) f (fun c _ => maskGate c f) []
    (fun s c _ => .zero (f.modn / 16 ≠ 1) (f.modn / 16 ≠ 2) (actTiles (s.mx c.core).cfg f)) s

/-! ### MMLOOP (19 R359, R360) -/

/-- The blocks a loop reads, in the order of its checks: offset and size. -/
def loopBlocks (g : MatrixCfg) (a b steps ainc binc : Nat) (tiles : List Nat) : List Acc :=
  (upto steps).flatMap fun st =>
    (blocksA g.shape tiles).map (fun i => (blockA g a ainc st i, planeBlock g.fa)) ++
      (blocksB g.shape tiles).map fun i => (blockB g b binc st i, planeBlock g.fb)

/-- Alignment of every block, then the range of every block. -/
def blockGate (c : Iss) (log : Nat) (bs : List Acc) (s : State) : Gate :=
  (gateAll bs (fun b => alignGate log b.1) s).andThen fun s => gateAll bs (fun b => rangeGate c b.1 b.2) s

/-- The command of a warp's MMLOOP. -/
def loopCmd (f : Fields) (s : State) (c : Iss) (w : Nat) : MatCmd :=
  .loop (offOf s c f.sa w) (offOf s c f.sb w) (stepsOf f) (aincOf f) (bincOf f) (actTiles (s.mx c.core).cfg f) (isJoint f)

/-- The block checks of a warp's MMLOOP. -/
def loopGate (c : Iss) (f : Fields) (w : Nat) (s : State) : Gate :=
  let g := (s.mx c.core).cfg
  blockGate c 9 (loopBlocks g (offOf s c f.sa w) (offOf s c f.sb w) (stepsOf f) (aincOf f) (bincOf f) (actTiles g f)) s

/-! ### Joint issue (19 R363 to R365) -/

/-- The command of the first share of joint command `n`: recorded, or a lower warp's of this group. -/
def firstShare (s : State) (c : Iss) (ws : List Nat) (cmd : Nat → MatCmd) (w n : Nat) : Option MatCmd :=
  match ((s.mx c.core).cfg.shares.find? fun x => x.1 = n).bind fun x => x.2.head? with
  | some (_, id, _) => match (FMap.find s.ops id).map Op.kind with
    | some (.mat m) => some m
    | _ => none
  | none => (ws.find? fun v => v < w && (s.warp c.coh v).mshare = n).map cmd

/-- The joint checks of a warp's share: the set, DETAIL 5, then the first share's fields, DETAIL 6. -/
def shareGate (c : Iss) (f : Fields) (cmd : State → Iss → Nat → MatCmd) (w : Nat) (s : State) : Gate :=
  if !(s.mx c.core).cfg.joint.contains w then badMatrix 5
  else if (firstShare s c (c.warpsOn f s) (cmd s c) w (s.warp c.coh w).mshare).any fun m => m ≠ cmd s c w then badMatrix 6
  else .pass s

/-- Add a share to its command's list. -/
def addShare (n : Nat) (x : Nat × Nat × W32) : List (Nat × List (Nat × Nat × W32)) → List (Nat × List (Nat × Nat × W32))
  | [] => [(n, [x])]
  | (k, l) :: r => if k = n then (k, l ++ [x]) :: r else (k, l) :: addShare n x r

/-- A warp issues its share of a joint command. -/
def queueShare (c : Iss) (w : Nat) (cmd : MatCmd) (s : State) : State :=
  let id := s.nextOp
  let n := (s.warp c.coh w).mshare
  let s := s.addOp
    { kind := .mat cmd, coh := c.coh, warp := w, core := c.core, pc := c.pc, ths := c.ths, busy := false }
  let s := s.modMx c.core fun m => { m with cfg := { m.cfg with shares := addShare n (w, id, c.pc) m.cfg.shares } }
  s.modWarp c.coh w fun x => { x with mshare := n + 1 }

/-- Every warp of the set has issued its share. -/
def sharesFull (g : MatrixCfg) (l : List (Nat × Nat × W32)) : Bool := g.joint.all fun w => l.any fun y => y.1 = w

/-- The rank of a warp in the joint set. -/
def rankOf (joint : List Nat) (w : Nat) : Nat := (joint.filter fun v => v < w).length

/-- Why a joint drain is refused at entry: rows that do not divide, DETAIL 7, or a share that overruns its warp's
allocation, DETAIL 10; an allocation of 256 holds every run, and what a run writes to vz is discarded (19 R364, 20 R379,
R387). -/
def drainRefused (s : State) (coh : Nat) (joint : List Nat) (nrow vd : Nat) : Option Nat :=
  let k := joint.length
  if k = 0 || nrow % k ≠ 0 then some 7
  else if joint.any fun w => (s.warp coh w).alloc < vd + 4 * (nrow / k) then some 10
  else none

/-- A share's operation becomes part of an outstanding command; a warp of a joint drain gets its own rows. -/
def enterShare (joint : List Nat) (x : Nat × Nat × W32) (s : State) : State :=
  s.modOp x.2.1 fun o =>
    match o.kind with
    | .mat (.drain tile row0 nrow p vd j) =>
      let r := if joint.contains x.1 then nrow / joint.length else 0
      { o with
        busy := true, kind := .mat (.drain tile (row0 + rankOf joint x.1 * r) r p vd j)
        dests := destsOf (vecRun vd (4 * r) true) 0 }
    | _ => { o with busy := true }

/-- The first joint command of the owner enters the queue, or is refused, when its shares are all issued. A refusal stops
the warps, and releases their waits uncompleted, before it ends the shares (19 R364). -/
def enterFirst (core : Nat) (s : State) : State :=
  let m := s.mx core
  match m.owner, m.cfg.shares with
  | some coh, (_, l) :: rest =>
    if !sharesFull m.cfg l || !m.room then s
    else
      let joint := m.cfg.joint
      let ids := l.map fun y => y.2.1
      let s := s.modMx core fun m => { m with cfg := { m.cfg with shares := rest, entered := m.cfg.entered + 1 } }
      let refused := match (ids.head?.bind fun i => FMap.find s.ops i).map Op.kind with
        | some (.mat (.drain _ _ nrow _ vd _)) => drainRefused s coh joint nrow vd
        | _ => none
      match refused with
      | some d =>
        forEach ids completeOp (forEach (l.filter fun y => joint.contains y.1) (fun y s =>
          stopWarp coh y.1 { code := 9, detail := d, pc := y.2.2 } s) s)
      | none =>
        let s := forEach l (enterShare joint) s
        match ids with
        | [] => s
        | i :: more => (s.modOp i fun o => { o with joint := more }).modMx core fun m => { m with queue := m.queue ++ [i] }
  | _, _ => s

/-- Joint commands whose shares are all issued enter the queue, in order. -/
def enterJoint (core : Nat) (s : State) : State :=
  (s.mx core).cfg.shares.foldl (fun s _ => enterFirst core s) s

/-- A warp of the owner retires: the joint set shrinks, and commands may enter (19 R363). -/
def shrinkJoint (core coh w : Nat) (s : State) : State :=
  if (s.mx core).owner = some coh then
    enterJoint core (s.modMx core fun m => { m with cfg := { m.cfg with joint := m.cfg.joint.filter fun v => v ≠ w } })
  else s

/-- A joint command: the share of each warp, then entry. -/
def issueJoint (i : Instr) (f : Fields) (gate : Iss → Nat → State → Gate) (cmd : State → Iss → Nat → MatCmd) (s : State) :
    Host.Outcome State Fault Refusal :=
  issue i f
    (fun c s =>
      let ws := c.warpsOn f s
      if ws.isEmpty then .pass s
      else (ownGate c s).andThen fun s => (gateAll ws (gate c) s).andThen (roomGate c))
    (fun c s => enterJoint c.core (leaveNext c f.bnd (perWarp c f s (fun w t => queueShare c w (cmd s c w) t) s))) s

/-- MMLOOP (20 R384). -/
def execMmloop (f : Fields) (s : State) : Host.Outcome State Fault Refusal :=
  if isJoint f then
    issueJoint (.mmloop f) f
      (fun c w s => (maskGate c f s).andThen fun s => (shareGate c f (loopCmd f) w s).andThen (loopGate c f w)) (loopCmd f) s
  else issueMat (.mmloop f) f (fun c w s => (maskGate c f s).andThen (loopGate c f w)) [] (loopCmd f) s

/-! ### MMSCALE (20 R385) -/

/-- The formats of the scales. -/
def scaleA8 (f : Fields) : Bool := f.immBits 0 0 = 1
def scaleB8 (f : Fields) : Bool := f.immBits 1 1 = 1

/-- The entries a vector of scales is read at: first entry and count. -/
def scaleRuns (g : MatrixCfg) (rows : Bool) (tiles : List Nat) : List (Nat × Nat) :=
  if g.shape = 3 then tiles.map fun t => (128 * t, 128)
  else [(0, 128 * (if rows then shapeA g.shape else shapeB g.shape))]

/-- The checks of a warp's MMSCALE. -/
def scaleGate (c : Iss) (f : Fields) (w : Nat) (s : State) : Gate :=
  let g := (s.mx c.core).cfg
  let a := offOf s c f.sa w
  let b := offOf s c f.sb w
  let align (off : Nat) (e8 : Bool) (s : State) : Gate := if e8 then .pass s else alignGate 2 off s
  let range (off : Nat) (e8 rows : Bool) (s : State) : Gate :=
    gateAll (scaleRuns g rows (actTiles g f)) (fun r =>
      rangeGate c (off + scaleBytes e8 * r.1) (scaleBytes e8 * r.2)) s
  (align a (scaleA8 f) s).andThen fun s => (align b (scaleB8 f) s).andThen fun s =>
    (range a (scaleA8 f) true s).andThen (range b (scaleB8 f) false)

/-- MMSCALE (20 R385). -/
def execMmscale (f : Fields) (s : State) : Host.Outcome State Fault Refusal :=
  issueMat (.mmscale f) f (fun c w s => (maskGate c f s).andThen (scaleGate c f w)) []
    (fun s c w => .scale (offOf s c f.sa w) (offOf s c f.sb w) (scaleA8 f) (scaleB8 f) (actTiles (s.mx c.core).cfg f)) s

/-! ### Moves (20 R386 to R389) -/

/-- The command of a warp's MMDRAIN. -/
def drainCmd (f : Fields) (_ : State) (_ : Iss) (_ : Nat) : MatCmd :=
  .drain (f.sa.idx.toNat % 4) (row0Of f) (nrowOf f) (partP f) f.dst.idx.toNat (isJoint f)

/-- MMDRAIN (20 R387). -/
def execMmdrain (f : Fields) (s : State) : Host.Outcome State Fault Refusal :=
  if isJoint f then
    issueJoint (.mmdrain f) f (fun c w s => (shareGate c f (drainCmd f) w s).andThen (rowGate f)) (drainCmd f) s
  else
    issueMat (.mmdrain f) f (fun c w s => (rowGate f s).andThen (runGate c f f.dst.idx.toNat w))
      (destsOf (vecRun f.dst.idx.toNat (4 * nrowOf f) true) 0) (drainCmd f) s

/-- MMSTORE (20 R388). -/
def execMmstore (f : Fields) (s : State) : Host.Outcome State Fault Refusal :=
  issueMat (.mmstore f) f
    (fun c w s => (rowGate f s).andThen (blockGate c 4 [(offOf s c f.sb w, 512 * nrowOf f)])) []
    (fun s c w => .store (f.sa.idx.toNat % 4) (row0Of f) (nrowOf f) (partP f) (offOf s c f.sb w)) s

/-- MMLOAD (20 R389). -/
def execMmload (f : Fields) (s : State) : Host.Outcome State Fault Refusal :=
  issueMat (.mmload f) f (fun c w s => (rowGate f s).andThen (runGate c f f.sa.idx.toNat w)) []
    (fun _ _ _ => .load (f.dst.idx.toNat % 4) (row0Of f) (nrowOf f) (partP f) f.sa.idx.toNat) s

/-! ## The fence, the wait and the status -/

/-- A long instruction of a warp still has a vector register to write. -/
def vectorOut (s : State) (coh w : Nat) : Bool := (s.opsOf coh w).any fun e => e.2.long && e.2.dests.any fun d => d.vec

/-- MMREADY (19 R366, 20 R383): scratchpad writes of warps act when they issue and those of engines when they complete,
so the registers of long instructions are what is left to wait for. -/
def execMmready (f : Fields) (s : State) : Host.Outcome State Fault Refusal :=
  issue (.mmready f) f
    (fun c s =>
      let ws := c.warpsOn f s
      if ws.isEmpty then .pass s
      else (ownGate c s).andThen fun s => if ws.any fun w => vectorOut s c.coh w then .hold s else .pass s)
    (fun c s => leaveNext c f.bnd s) s

/-- The matrix commands of a warp that have not completed. -/
def matsOf (s : State) (coh w : Nat) : List Nat :=
  ((s.opsOf coh w).filter fun e => match e.2.kind with
    | .mat _ => true
    | _ => false).map Prod.fst

/-- MMWAIT (19 R362, 20 R390). -/
def execMmwait (f : Fields) (s : State) : Host.Outcome State Fault Refusal :=
  issue (.mmwait f) f noCheck (fun c s =>
    let (s, ids) := (c.warpsOn f s).foldl (fun (a : State × List Nat) w =>
      let ops := matsOf a.1 c.coh w
      if ops.isEmpty then a
      else (a.1.addOp
        { kind := .mmwait ops, coh := c.coh, warp := w, core := c.core, pc := c.pc, ths := c.ths, busy := false },
        a.2 ++ [a.1.nextOp])) (s, [])
    leaveBlocked c ids false s) s

/-- The unit's status as MMSTAT reads it (20 R391). -/
def MatrixUnit.stat (m : MatrixUnit) : W64 := BitVec.ofNat 64 (m.status.toNat + 2 ^ 16 * m.queue.length)

/-- MMSTAT (20 R391): the warps read in ascending order, each before it clears. -/
def execMmstat (f : Fields) (s : State) : Host.Outcome State Fault Refusal :=
  issue (.mmstat f) f
    (fun c s => if (c.warpsOn f s).isEmpty then .pass s else ownGate c s)
    (fun c s => leaveNext c f.bnd (perWarp c f s (fun w t =>
      let v := (t.mx c.core).stat
      let t := if f.modn % 2 = 1 then t.modMx c.core fun m => { m with status := 0 } else t
      addCalc (.mmstat f) f c w (c.lanesOn f s w) [.s f.dst.idx.toNat v] 0 t) s)) s

/-! ## The sequencer (19 R361) -/

/-- MATRIX_COMMAND_START: the first queued command starts. -/
def execMatrixCommandStart (core : Nat) (s : State) : Host.Outcome State Fault Refusal :=
  .next (s.modMx core fun m => { m with started := !m.queue.isEmpty })

/-- What a command does to the unit, the scratchpad and the registers of its cohort. -/
def runMat (core coh w : Nat) (cmd : MatCmd) (s : State) : State :=
  let h := s.coh coh
  match cmd with
  | .zero z p tiles => s.modMx core (unitZero z p tiles)
  | .loop a b steps ainc binc tiles _ =>
    s.modMx core fun m => (upto steps).foldl (fun m i => unitStep h tiles a b ainc binc i m) m
  | .scale a b ea eb tiles => s.modMx core (unitFold h tiles a b ea eb)
  | .drain tile row0 n p vd _ => s.modWarp coh w (drainRows (s.mx core) tile row0 n p vd)
  | .store tile row0 n p off => s.modCoh coh (storeRows (s.mx core) tile row0 n p off)
  | .load tile row0 n p va => s.modMx core (loadRows (s.warp coh w) tile row0 n p va)

/-- One operation of a command: a joint drain moves each warp's own rows, every other joint command runs once. -/
def runShare (core : Nat) (first : Bool) (id : Nat) (s : State) : State :=
  match s.ops.find id with
  | some { kind := .mat cmd, coh, warp, .. } =>
    match cmd, first with
    | .drain _ _ _ _ _ _, _ | _, true => runMat core coh warp cmd s
    | _, false => s
  | _ => s

/-- The operation of a completed command: a progress event for its warp (19 R362), then its end. -/
def finishMat (core id : Nat) (s : State) : State :=
  match s.ops.find id with
  | some o => completeOp id (progress core o.coh (warpThs s o.coh o.warp) s)
  | none => s

/-- A long instruction or an engine command that a warp issued before a joint drain entered has still to write a register of
the drain, which overwrites it: the drain waits (20 R387; DEDUCED, log 41). -/
def drainWaits (s : State) (id : Nat) : Bool :=
  (s.ops.find id).any fun o => o.dests.any fun d =>
    (s.opsOf o.coh o.warp).any fun e => (e.2.long || e.2.fut.isSome) && e.2.dests.any fun x => x.vec && x.idx = d.idx

/-- MATRIX_COMMAND_COMPLETION: the started command makes its writes and completes; commands that waited for room, and
joint commands, may then enter. -/
def execMatrixCommandCompletion (core : Nat) (s : State) : Host.Outcome State Fault Refusal :=
  let m := s.mx core
  if !m.started then .next s
  else match m.queue with
    | [] => .next s
    | id :: rest =>
      let more := ((FMap.find s.ops id).map Op.joint).getD []
      if (id :: more).any (drainWaits s) then .next s
      else
        let s := forEach more (runShare core false) (runShare core true id s)
        let s := s.modMx core fun m => { m with queue := rest, started := false }
        .next (enterJoint core (enterLate core (forEach (id :: more) (finishMat core) s)))

/-- MATRIX_OWNERSHIP_GRANT: the oldest stalled claim gets a free unit (20 R380): its MMCFG executes, so that no other
instruction of the cohort meets a unit that is owned and not yet configured. -/
def execMatrixOwnershipGrant (core : Nat) (s : State) : Host.Outcome State Fault Refusal :=
  match (s.mx core).owner, claimsOn s core with
  | none, (_, slot, f) :: _ => execMmcfg f (noteFetch { s with cur := (core, slot) })
  | _, _ => .next s

end Sys2Proof.Machine
end

