-- ==== Sys2Proof/Machine/Copy.lean ====
section
/-! DEFINITION. The copies, gathers, scatters and transposes of group 7 (15 R283 to R290, 14 R264 to R267), and the
instructions on futures (15 R295 to R298). -/

namespace Sys2Proof.Machine

/-! ## ACOPY (15 R283 to R286) -/

/-- DIR, XF, ROLE, NBLK and the retention code of ACOPY. -/
def copyDir (f : Fields) : Nat := f.immBits 3 0
def copyXf (f : Fields) : Nat := f.immBits 5 4
def copyRole (f : Fields) : Nat := f.immBits 6 6
def copyNblk (f : Fields) : Nat := if f.immBits 23 16 = 0 then 256 else f.immBits 23 16
def engRet (f : Fields) : Nat := f.immBits 25 24

/-- The global ranges of a plain copy with what each needs. -/
def copyGlobal (dir a b len : Nat) : List (Acc × Need) :=
  match dir with
  | 0 => [((a, len), .read)]
  | 1 => [((a, len), .write)]
  | 2 => []
  | _ => [((a, len), .read), ((b, len), .write)]

/-- Pages to check, with what each needs, in ascending address order. -/
def insertPage (p : Nat × Need) : List (Nat × Need) → List (Nat × Need)
  | [] => [p]
  | x :: r => if p.1 < x.1 then p :: x :: r else x :: insertPage p r

/-- Every page of some ranges, in ascending address order. -/
def pagesSorted (l : List (Acc × Need)) : List (Nat × Need) :=
  (l.flatMap fun e => (pagesOf e.1.1 e.1.2).map fun va => (va, e.2)).foldl (fun a p => insertPage p a) []

/-- The check of one page of a copy. -/
def pageGate (c : Iss) (p : Nat × Need) (s : State) : Gate :=
  match translate s c.core (s.coh c.coh).ctx p.1 p.2 with
  | .ok _ => .pass (s.tlbNote c.core (s.coh c.coh).ctx p.1)
  | .fault n => .trap (memFault n p.1 (auxEng (p.2 = .write)))
  | .hole => .hole

/-- The scratchpad regions of a plain copy, source first. -/
def copyScratch (dir a b len : Nat) : List Acc :=
  match dir with
  | 0 | 1 => [(lo32 b, len)]
  | 2 => [(lo32 a, len), (lo32 b, len)]
  | _ => []

/-- Whether two ranges share a byte. -/
def overlap (x y : Acc) : Bool := 0 < x.2 && 0 < y.2 && x.1 < y.1 + y.2 && y.1 < x.1 + x.2

/-- The checks of a warp's plain copy. -/
def plainGate (c : Iss) (f : Fields) (w : Nat) (s : State) : Gate :=
  let dir := copyDir f
  let a := opSA s c f w
  let b := opSB s c f w
  let len := lo32 (opSB1 s c f w)
  let a1 := if dir = 2 then lo32 a else a
  let b1 := if dir = 3 then b else lo32 b
  (alignGate 4 a1 s).andThen fun s => (alignGate 4 b1 s).andThen fun s => (alignGate 4 len s).andThen fun s =>
    (gateAll (copyScratch dir a b len) (fun x => rangeGate c x.1 x.2) s).andThen fun s =>
      if dir = 2 && overlap (a1, len) (b1, len) then badOperand 19 0
      else gateAll (pagesSorted (copyGlobal dir a b len)) (pageGate c) s

/-- The shape .BP accepts (15 R285). -/
def planeShape (role : Nat) (t : Tensor) : Bool := t.rank = 2 && t.blk = (if role = 0 then [32, 128] else [128, 32])

/-- The coordinates of row or column m at depth k of a plane block. -/
def planeCoord (role : Nat) (b : Int × Int) (m k : Nat) : List Int :=
  if role = 0 then [32 * b.1 + (k : Int), 128 * b.2 + (m : Int)] else [128 * b.1 + (m : Int), 32 * b.2 + (k : Int)]

/-- The block coordinates of block `i` of a .BP copy. -/
def planeBlockAt (role : Nat) (b0 b1 : Int) (i : Nat) : Int × Int :=
  if role = 0 then (b0 + (i : Int), b1) else (b0, b1 + (i : Int))

/-- Every in-bounds element of a .BP copy. -/
def planeElems (t : Tensor) (role nblk : Nat) (b0 b1 : Int) : List (List Int) :=
  ((upto nblk).flatMap fun i => (upto 4096).map fun e => planeCoord role (planeBlockAt role b0 b1 i) (e % 128) (e / 128)).filter
    t.inBounds

/-- The accesses of elements. -/
def elemAccs (t : Tensor) (xs : List (List Int)) : List Acc := xs.map fun x => (t.addr x, t.elemBytes)

/-- The pages of elements, in ascending address order, once each. -/
def elemPages (t : Tensor) (xs : List (List Int)) : List Nat :=
  sortedNats (xs.map fun x => t.addr x / 4096 * 4096)

/-- The block coordinates sb + 1 holds (15 R285, R286). -/
def copyB0 (s : State) (c : Iss) (f : Fields) (w : Nat) : Int := signExt 32 (opSB1 s c f w)
def copyB1 (s : State) (c : Iss) (f : Fields) (w : Nat) : Int := signExt 32 (hi32 (opSB1 s c f w))

/-- The elements a transform moves. -/
def xformElems (s : State) (c : Iss) (f : Fields) (w : Nat) : Tensor × List (List Int) :=
  let t := recordOf s c w (opSA s c f w)
  let b0 := copyB0 s c f w
  let b1 := copyB1 s c f w
  (t, if copyXf f = 1 then planeElems t (copyRole f) (copyNblk f) b0 b1 else (t.blockElems [b0, b1]).filter t.inBounds)

/-- The checks of a warp's .BP or .CV32 copy. -/
def xformGate (c : Iss) (f : Fields) (w : Nat) (s : State) : Gate :=
  let va := opSA s c f w
  let bp := copyXf f = 1
  (recordGate c w va (fun t => !bp || planeType t)
    (fun t => if bp then planeShape (copyRole f) t else dimD t.blk 0 % 32 = 0) s).andThen fun s =>
    let (t, xs) := xformElems s c f w
    let off := lo32 (opSB s c f w)
    let need := if copyDir f = 1 then Need.write else Need.read
    (alignGate (if bp then 9 else 4) off s).andThen fun s =>
      (rangeGate c off (if bp then copyNblk f * planeBlock t.type else t.packed t.blockLen) s).andThen
        (gateAll ((elemPages t xs).map fun p => (p, need)) (pageGate c))

/-- The global accesses of a warp's copy. -/
def copyAccs (c : Iss) (f : Fields) (s : State) (w : Nat) : List Acc :=
  if copyXf f = 0 then
    (copyGlobal (copyDir f) (opSA s c f w) (opSB s c f w) (lo32 (opSB1 s c f w))).map fun e => e.1
  else
    let (t, xs) := xformElems s c f w
    elemAccs t xs

/-- The command of a warp's copy, and the state with its record fetched. -/
def copyCmd (c : Iss) (f : Fields) (w : Nat) (s : State) : State × EngCmd :=
  let ret := engRet f
  if copyXf f = 0 then (s, .copy (copyDir f) (opSA s c f w) (opSB s c f w) (lo32 (opSB1 s c f w)) ret)
  else
    let (s', b) := fetchRecord c w (opSA s c f w) s
    let t := parseRecord b
    let off := lo32 (opSB s c f w)
    (s', if copyXf f = 1 then .planes t (copyRole f) (copyNblk f) off (copyB0 s c f w) (copyB1 s c f w) ret
      else .cv32 t (copyDir f = 0) off (copyB0 s c f w) (copyB1 s c f w) ret)

/-- ACOPY (15 R283 to R286). -/
def execAcopy (f : Fields) (s : State) : Host.Outcome State Fault Refusal :=
  issue (.acopy f) f
    (fun c s => engGate c f (if copyXf f = 0 then plainGate c f else xformGate c f) (copyAccs c f)
      (copyDir f = 1 || copyDir f = 3) s)
    (fun c s => leaveNext c f.bnd (perWarp c f s (fun w s =>
      let as_ := copyAccs c f s w
      let ps := peerParts s c as_
      let rs := as_.flatMap (accReach s c)
      let (s, cmd) := copyCmd c f w s
      holdCommand c w s.nextOp rs (withPeers s.nextOp ps (startPlain c f w cmd s))) s)) s

/-- A plain copy runs. -/
def runCopy (o : Op) (dir a b len ret : Nat) (e : Eng) : Eng :=
  match dir with
  | 0 => let (bs, e) := engRead o ret a len e
         if e.bad then e else engSpWrite o (lo32 b) bs e
  | 1 => let (bs, e) := engSpRead o (lo32 b) len e
         engWrite o ret a bs e
  | 2 => let (bs, e) := engSpRead o (lo32 a) len e
         engSpWrite o (lo32 b) bs e
  | _ => let (bs, e) := engRead o ret a len e
         if e.bad then e else engWrite o ret b bs e

/-- The codes of a block's elements, by position; elements out of bounds are code 0. -/
def readElems (o : Op) (ret : Nat) (t : Tensor) (xs : List (List Int)) (e : Eng) : List Nat × Eng :=
  xs.foldl (fun (a : List Nat × Eng) x =>
    if t.inBounds x then
      let (v, e) := engElem o ret t x a.2
      (a.1 ++ [v], e)
    else (a.1 ++ [0], a.2)) ([], e)

/-- A .BP copy runs: block `i` at its place (15 R285). -/
def runPlanes (o : Op) (t : Tensor) (role nblk off : Nat) (b0 b1 : Int) (ret : Nat) (e : Eng) : Eng :=
  (upto nblk).foldl (fun (e : Eng) i =>
    let b := planeBlockAt role b0 b1 i
    let (vs, e) := readElems o ret t ((upto 4096).map fun n => planeCoord role b (n / 32) (n % 32)) e
    if e.bad then e
    else engSpWrite o (off + i * planeBlock t.type) (planeBytes t.type fun m k => vs.getD (32 * m + k) 0) e) e

/-- The position of an element of a block in channel-vector order (15 R286). -/
def cv32Pos (t : Tensor) (y : List Nat) : Nat :=
  let outer := (((t.blk.drop 1).zip (y.drop 1)).reverse).foldl (fun a p => p.2 + p.1 * a) 0
  (dimD y 0 / 32 * prodL (t.blk.drop 1) + outer) * 32 + dimD y 0 % 32

/-- A .CV32 copy runs. -/
def runCv32 (o : Op) (t : Tensor) (toScratch : Bool) (off : Nat) (b0 b1 : Int) (ret : Nat) (e : Eng) : Eng :=
  (upto t.blockLen).foldl (fun (e : Eng) n =>
    let y := blockIndex t.blk n
    let x := t.inBlock [b0, b1] y
    let p := cv32Pos t y
    if e.bad then e
    else if toScratch then
      if t.inBounds x then
        let (v, e) := engElem o ret t x e
        if e.bad then e else spElemPut o t off p v e
      else spElemPut o t off p 0 e
    else if t.inBounds x then
      let (v, e) := spElem o t off p e
      engElemPut o ret t x v e
    else e) e

/-! ## Gathers and scatters (15 R287 to R289, 14 R264 to R267) -/

/-- The list offset, the data offset and the count of a warp's command. -/
def listOff (s : State) (c : Iss) (f : Fields) (w : Nat) : Nat := lo32 (opSB s c f w)
def listData (s : State) (c : Iss) (f : Fields) (w : Nat) : Nat := hi32 (opSB s c f w)
def listLen (s : State) (c : Iss) (f : Fields) (w : Nat) : Nat := lo32 (opSB1 s c f w)
/-- DIM. -/
def listDim (f : Fields) : Nat := f.immBits 2 0

/-- A signed 32-bit value in scratchpad. -/
def spInt (s : State) (c : Iss) (a : Nat) : Int := signExt 32 ((s.coh c.coh).readSpN a 4)
/-- The base coordinates. -/
def listBase (s : State) (c : Iss) (f : Fields) (w : Nat) : List Int :=
  (upto 6).map fun i => spInt s c (listOff s c f w + 4 * i)
/-- The indices. -/
def listIdx (s : State) (c : Iss) (f : Fields) (w : Nat) : List Int :=
  (upto (listLen s c f w)).map fun p => spInt s c (listOff s c f w + 32 + 4 * p)

/-- The coordinates of a list position. -/
def listCoord (dim : Nat) (base : List Int) (i : Int) : List Int := base.set dim i

/-- Bytes from one block to the next in scratchpad (15 R289). -/
def blockStep (t : Tensor) : Nat := (t.packed t.blockLen + 15) / 16 * 16

/-- The lower of two fault codes, 0 being none. -/
def lowerCode (a b : Nat) : Nat := if a = 0 then b else if b = 0 then a else min a b

/-- The memory-fault code of an element, or 0 (14 R264, R265; 07 R159). -/
def elemCode (s : State) (core ctx : Nat) (need : Need) (t : Tensor) (x : List Int) : Nat :=
  let tr := match translate s core ctx (t.addr x) need with
    | .ok k => if isPeer (lineOf k) && !s.hasCap (fnOf ctx) 6 then 7 else 0
    | .fault n => n
    | .hole => 2
  lowerCode tr (if t.inBounds x then 0 else 6)

/-- The elements of a list position: one element, or the in-bounds elements of a block. -/
def itemElems (t : Tensor) (block : Bool) (x : List Int) : List (List Int) :=
  if block then (t.blockElems x).filter t.inBounds else [x]

/-- The fault of a list position and its address: the lowest code of its elements; a block with none in bounds has code
6. -/
def itemFault (s : State) (core ctx : Nat) (need : Need) (t : Tensor) (block : Bool) (x : List Int) : Nat × Nat :=
  let es := itemElems t block x
  if es.isEmpty then (6, t.addr (t.inBlock x (t.blk.map fun _ => 0)))
  else es.foldl (fun (a : Nat × Nat) e =>
    let n := elemCode s core ctx need t e
    if lowerCode a.1 n = a.1 then a else (n, t.addr e)) (0, 0)

/-- The trap of a list position that fails. -/
def itemGate (c : Iss) (need : Need) (t : Tensor) (block : Bool) (x : List Int) (s : State) : Gate :=
  let (n, va) := itemFault s c.core (s.coh c.coh).ctx need t block x
  if n = 0 then .pass s else .trap (memFault n va (auxEng (need = .write)))

/-- The checks of a warp's gather or scatter. -/
def listGate (gather block : Bool) (c : Iss) (f : Fields) (w : Nat) (s : State) : Gate :=
  (recordGate c w (opSA s c f w) (fun _ => true) (fun _ => true) s).andThen fun s =>
    let t := recordOf s c w (opSA s c f w)
    let lo := listOff s c f w
    let d := listData s c f w
    let n := listLen s c f w
    let dim := listDim f
    let base := listBase s c f w
    (alignGate 5 lo s).andThen fun s => (alignGate 4 d s).andThen fun s =>
      if n = 0 || 65535 < n then badOperand 18 0
      else
        (rangeGate c lo (32 + 4 * n) s).andThen fun s =>
          (rangeGate c d (if block then (n - 1) * blockStep t + t.packed t.blockLen else t.packed n) s).andThen fun s =>
            if t.rank ≤ dim || (base.drop t.rank).any (· ≠ 0) then badOperand 20 0
            else
              let need := if gather then Need.read else Need.write
              let idx := listIdx s c f w
              gateAll (if gather then idx.take 1 else idx) (fun i => itemGate c need t block (listCoord dim base i)) s

/-- The global accesses of a warp's gather or scatter: every in-bounds element (22 R416). -/
def listAccs (block : Bool) (c : Iss) (f : Fields) (s : State) (w : Nat) : List Acc :=
  let t := recordOf s c w (opSA s c f w)
  (listIdx s c f w).flatMap fun i =>
    elemAccs t ((itemElems t block (listCoord (listDim f) (listBase s c f w) i)).filter t.inBounds)

/-- A warp's list holds a byte with an uncorrectable error. -/
def listBad (s : State) (c : Iss) (f : Fields) (w : Nat) : Bool :=
  let lo := listOff s c f w
  (s.coh c.coh).scratchBad.any fun a => lo ≤ a && a < lo + 32 + 4 * listLen s c f w

/-- Start a warp's gather or scatter; the list is read at acceptance, and one with an uncorrectable error moves nothing:
the command ends with CODE 4 (15 R279). -/
def startLists (gather block : Bool) (c : Iss) (f : Fields) (w : Nat) (s : State) : State :=
  let (s', b) := fetchRecord c w (opSA s c f w) s
  let bad := listBad s c f w
  let id := s'.nextOp
  let as_ := listAccs block c f s w
  holdCommand c w id (as_.flatMap (accReach s c)) ((withPeers id (peerParts s c as_)
    (startPlain c f w (.lists (parseRecord b) gather block (listData s c f w) (listDim f) (listBase s c f w)
      (if bad then [] else listIdx s c f w) (engRet f)) s')).modOp id fun o => { o with soft := bad })

/-- A gather or scatter instruction. -/
def issueLists (i : Instr) (gather block : Bool) (f : Fields) (s : State) : Host.Outcome State Fault Refusal :=
  issue i f (fun c s => engGate c f (listGate gather block c f) (listAccs block c f) (!gather) s)
    (fun c s => leaveNext c f.bnd (perWarp c f s (startLists gather block c f) s)) s

/-- AGATH (15 R288). -/
def execAgath (f : Fields) (s : State) : Host.Outcome State Fault Refusal := issueLists (.agath f) true false f s
/-- ASCAT (15 R288). -/
def execAscat (f : Fields) (s : State) : Host.Outcome State Fault Refusal := issueLists (.ascat f) false false f s
/-- ABLKG (15 R289). -/
def execAblkg (f : Fields) (s : State) : Host.Outcome State Fault Refusal := issueLists (.ablkg f) true true f s
/-- ABLKS (15 R289). -/
def execAblks (f : Fields) (s : State) : Host.Outcome State Fault Refusal := issueLists (.ablks f) false true f s

/-- Elements of a list position with their packed position in scratchpad: element `p`, or the elements of block `p`. -/
def itemPlaces (t : Tensor) (block : Bool) (d p : Nat) (x : List Int) : List (Nat × Nat × List Int) :=
  if block then (upto t.blockLen).map fun n => (d + p * blockStep t, n, t.inBlock x (blockIndex t.blk n))
  else [(d, p, x)]

/-- A gather's item is written to scratchpad. -/
def gatherItem (o : Op) (ret : Nat) (t : Tensor) (ps : List (Nat × Nat × List Int)) (e : Eng) : Eng :=
  ps.foldl (fun (e : Eng) q =>
    if e.bad then e
    else if t.inBounds q.2.2 then
      let (v, e) := engElem o ret t q.2.2 e
      if e.bad then e else spElemPut o t q.1 q.2.1 v e
    else spElemPut o t q.1 q.2.1 0 e) e

/-- A scatter's item is written to its homes. -/
def scatterItem (o : Op) (ret : Nat) (t : Tensor) (ps : List (Nat × Nat × List Int)) (e : Eng) : Eng :=
  ps.foldl (fun (e : Eng) q =>
    if t.inBounds q.2.2 && !e.bad then
      let (v, e) := spElem o t q.1 q.2.1 e
      engElemPut o ret t q.2.2 v e
    else e) e

/-- A gather runs, position by position, up to the first that faults or fails in the fabric: what it did, the positions
written, and the cause. -/
def runGather (o : Op) (t : Tensor) (block : Bool) (d dim : Nat) (base : List Int) (ret : Nat) :
    Nat → List Int → Eng → Eng × Nat × Nat
  | p, [], e => (e, p, 0)
  | p, i :: r, e =>
    let x := listCoord dim base i
    let (n, _) := itemFault e.s o.core (e.s.coh o.coh).ctx .read t block x
    if n ≠ 0 then (e, p, n)
    else
      let e := gatherItem o ret t (itemPlaces t block d p x) e
      if e.bad then (e, p, 0) else runGather o t block d dim base ret (p + 1) r e

/-- A scatter runs, in ascending list position. -/
def runScatter (o : Op) (t : Tensor) (block : Bool) (d dim : Nat) (base : List Int) (ret : Nat) :
    Nat → List Int → Eng → Eng
  | _, [], e => e
  | p, i :: r, e =>
    runScatter o t block d dim base ret (p + 1) r
      (scatterItem o ret t (itemPlaces t block d p (listCoord dim base i)) e)

/-! ## AXPOSE (15 R290) -/

/-- R, C and the bytes of the matrix. -/
def xposeRows (s : State) (c : Iss) (f : Fields) (w : Nat) : Nat := lo32 (opSB1 s c f w)
def xposeCols (s : State) (c : Iss) (f : Fields) (w : Nat) : Nat := hi32 (opSB1 s c f w)

/-- The checks of a warp's AXPOSE. -/
def xposeGate (c : Iss) (f : Fields) (w : Nat) (s : State) : Gate :=
  let z := f.immBits 1 0
  let a := lo32 (opSA s c f w)
  let b := lo32 (opSB s c f w)
  let r := xposeRows s c f w
  let k := xposeCols s c f w
  let n := r * k * 2 ^ z
  (alignGate z a s).andThen fun s => (alignGate z b s).andThen fun s =>
    if r = 0 || k = 0 || 4096 < r || 4096 < k then badOperand 18 0
    else (rangeGate c a n s).andThen fun s => (rangeGate c b n s).andThen fun s =>
      if overlap (a, n) (b, n) then badOperand 19 0 else .pass s

/-- AXPOSE (15 R290). -/
def execAxpose (f : Fields) (s : State) : Host.Outcome State Fault Refusal :=
  issue (.axpose f) f (fun c s => engGate c f (xposeGate c f) (fun _ _ => []) false s)
    (fun c s => leaveNext c f.bnd (perWarp c f s (fun w s =>
      startPlain c f w (.xpose (lo32 (opSA s c f w)) (lo32 (opSB s c f w)) (xposeRows s c f w) (xposeCols s c f w)
        (f.immBits 1 0)) s) s)) s

/-- A transpose runs. -/
def runXpose (o : Op) (src dst rows cols z : Nat) (e : Eng) : Eng :=
  let k := 2 ^ z
  let (bs, e) := engSpRead o src (rows * cols * k) e
  engSpWrite o dst ((upto (rows * cols)).flatMap fun n =>
    let j := n / rows
    let i := n % rows
    (bs.drop ((i * cols + j) * k)).take k) e

/-! ## Futures (15 R295 to R298) -/

/-- FTEST (15 R295). -/
def execFtest (f : Fields) (s : State) : Host.Outcome State Fault Refusal :=
  issueFixed (.ftest f) f (fun c s => perWarp c f s (fun w =>
    State.writeS c.coh w f.dst.idx.toNat (if pendingS s c.coh w f.sa.idx.toNat then 0 else 1)) s) s

/-- A command of ACOPY, AGATH, ASCAT, ABLKG, ABLKS, AXPOSE or SUBS. -/
def EngCmd.cancels : EngCmd → Bool
  | .copy _ _ _ _ _ | .planes _ _ _ _ _ _ _ | .cv32 _ _ _ _ _ _ | .lists _ _ _ _ _ _ _ _ | .xpose _ _ _ _ _ | .subs _ => true
  | .rfence | .queueChange _ _ | .wqry _ _ | .wnext _ _ _ | .wclose _ _ | .wres _ _ | .wcol _ _ _
  | .tspawn _ _ _ _ _ _ | .wdnext _ _ | .launch _ | .tex _ _ _ _ | .rayq _ _ _ _ _ | .twfence => false

/-- FCANCEL (15 R296): the command whose future is the register stops; it completes with CODE 2, and a stream stops. -/
def cancelFuture (coh w reg : Nat) (s : State) : State :=
  forEach (s.opsOf coh w) (fun e s => match e.2.kind with
    | .eng cmd =>
      if cmd.cancels && e.2.dests.any (fun d => !d.vec && d.idx = reg) then
        let s := s.modOp e.1 fun o => { o with cancelled := true }
        match cmd with
        | .subs n => s.modCoh coh fun h => { h with streams := FMap.modify n (fun x => { x with stopped := true }) h.streams }
        | _ => s
      else s
    | _ => s) s

/-- FCANCEL (15 R296). -/
def execFcancel (f : Fields) (s : State) : Host.Outcome State Fault Refusal :=
  issueFixed (.fcancel f) f (fun c s => perWarp c f s (fun w => cancelFuture c.coh w f.sa.idx.toNat) s) s

/-- A warp's FWAIT: it ends at once, or waits (15 R297). -/
def startFwait (f : Fields) (c : Iss) (w : Nat) (a : State × List Nat) : State × List Nat :=
  let (s, ids) := a
  let hi := f.modn % 2 = 1
  let any := f.modn / 2 = 1
  let r := futuresReady s c.coh w f.imm hi
  if futuresMet f.imm r any then (s.writeS c.coh w f.dst.idx.toNat (r.setWidth 64), ids)
  else
    (s.addOp { kind := .fwait f.imm hi any f.dst.idx.toNat, coh := c.coh, warp := w, core := c.core, pc := c.pc
               ths := c.ths, busy := false }, ids ++ [s.nextOp])

/-- FWAIT (15 R297). -/
def execFwait (f : Fields) (s : State) : Host.Outcome State Fault Refusal :=
  issue (.fwait f) f noCheck (fun c s =>
    let (s, ids) := (c.warpsOn f s).foldl (fun a w => startFwait f c w a) (s, [])
    leaveBlocked c ids false s) s

/-- RFENCE (15 R298): the record cache's entries are dropped at acceptance; no fill is in flight. -/
def execRfence (f : Fields) (s : State) : Host.Outcome State Fault Refusal :=
  issue (.rfence f) f noCheck (fun c s => leaveNext c f.bnd (perWarp c f s (fun w s =>
    startPlain c f w .rfence (s.modCore c.core fun k => { k with recs := [] })) s)) s

end Sys2Proof.Machine
end

