-- ==== Sys2Proof/Machine/Streams.lean ====
section
/-! DEFINITION. Streams and their rings (14 R261 to R263, 15 R291 to R294): SUBS, SLOTW, SLOTF, and the filler and the
storer. -/

namespace Sys2Proof.Machine

/-- The stream number. -/
def streamNo (f : Fields) : Nat := f.immBits 1 0

/-! ## SUBS (15 R291) -/

/-- The fields of a stream descriptor (14 R261). -/
structure StreamDesc where
  srcrec : Nat
  dstrec : Nat
  ring : Nat
  slotsz : Nat
  nslot : Nat
  count : Nat
  reserved : Bool
  deriving DecidableEq, Repr

/-- A descriptor as its 64 bytes give it. -/
def parseStream (b : List Byte) : StreamDesc :=
  { srcrec := fieldN b 0 8, dstrec := fieldN b 8 8, ring := fieldN b 16 4, slotsz := fieldN b 20 2, nslot := fieldN b 22 1
    count := fieldN b 24 8, reserved := fieldN b 23 1 ≠ 0 || (b.drop 32).any (· ≠ 0) }

/-- A field of a descriptor is out of its range (DETAIL 23). -/
def StreamDesc.bad (d : StreamDesc) (blocks : Nat) : Bool :=
  d.reserved || d.count = 0 || 2 ^ 40 < d.count || blocks < d.count || d.nslot = 0 || 64 < d.nslot || d.slotsz = 0 ||
    64 < d.slotsz || d.ring % 4096 ≠ 0

/-- The descriptor a warp names. -/
def streamDesc (s : State) (c : Iss) (f : Fields) (w : Nat) : State × StreamDesc :=
  let (s, b) := warpRead c w (engRet f) (opSA s c f w) 64 s
  (s, parseStream b)

/-- What the filler and the storer of a stream will access: the elements in bounds of its items. -/
def itemAccs (t : Tensor) (count : Nat) : List Acc :=
  (upto count).flatMap fun j => elemAccs t ((t.blockElems (t.blockAt j)).filter t.inBounds)

/-- The items of a SUBS are accesses that the warp's outstanding acquires hold back (16 R310; DEDUCED, log 85). -/
def itemsHold (c : Iss) (w : Nat) (src : Tensor) (dst : Option Tensor) (count : Nat) (s : State) : Gate :=
  let as_ := itemAccs src count ++ match dst with
    | some t => itemAccs t count
    | none => []
  gateAcq c (as_.flatMap fun a => (accReach s c a).map fun r => (w, r)) s

/-- The checks of a warp's SUBS, in the order of the table of R291. -/
def subsGate (c : Iss) (f : Fields) (w : Nat) (s : State) : Gate :=
  let any := fun (_ : Nat) => true
  let shape := fun (_ : Tensor) => true
  (alignGate 6 (opSA s c f w) s).andThen fun s => (readGate c w (opSA s c f w, 64) s).andThen fun s =>
    let (s, d) := streamDesc s c f w
    (recordGate c w d.srcrec any shape s).andThen fun s =>
      (if d.dstrec = 0 then Gate.pass s else recordGate c w d.dstrec any shape s).andThen fun s =>
        let src := recordOf s c w d.srcrec
        let dst := recordOf s c w d.dstrec
        let item := src.packed src.blockLen
        if d.bad src.blocks then badOperand 23 (opSA s c f w)
        else (rangeGate c d.ring (d.nslot * d.slotsz * 4096) s).andThen fun s =>
          if d.slotsz * 4096 < item || (d.dstrec ≠ 0 && dst.packed dst.blockLen ≠ item) then badOperand 21 0
          else if (FMap.find (s.coh c.coh).streams (streamNo f)).isSome then badOperand 22 0
          else itemsHold c w src (if d.dstrec = 0 then none else some dst) d.count s

/-- A warp's SUBS is accepted: the stream is subscribed, its slots EMPTY. -/
def startSubs (c : Iss) (f : Fields) (w : Nat) (s : State) : State :=
  let (s, d) := streamDesc s c f w
  let (s, a) := fetchRecord c w d.srcrec s
  let (s, dst) := if d.dstrec = 0 then (s, none)
    else
      let (s, b) := fetchRecord c w d.dstrec s
      (s, some (parseRecord b))
  let v := (s.warp c.coh w).view
  let id := s.nextOp
  let s := (startPlain c f w (.subs (streamNo f)) s).modOp id fun o => { o with busy := false }
  let x : Stream :=
    { src := parseRecord a, dst, ring := d.ring, slotBytes := d.slotsz * 4096, nslot := d.nslot, count := d.count
      ret := engRet f, slots := List.replicate d.nslot (.empty, 0), op := id, warp := w, view := v }
  s.modCoh c.coh fun h => { h with streams := FMap.put (streamNo f) x h.streams }

/-- SUBS names a storer in some warp's descriptor: it is then irrevocable (22 R420). -/
def subsStores (s : State) (c : Iss) (f : Fields) : Bool :=
  (c.warpsOn f s).any fun w => (streamDesc s c f w).2.dstrec ≠ 0

/-- SUBS (15 R291). A group of several warps that names one stream number traps: only one can subscribe it. -/
def execSubs (f : Fields) (s : State) : Host.Outcome State Fault Refusal :=
  issue (.subs f) f
    (fun c s => (engGate c f (subsGate c f) (fun s w => [(opSA s c f w, 64)]) false s).andThen fun s =>
      if 1 < (c.warpsOn f s).length then badOperand 22 0
      else if subsStores s c f then gateSeal c .irrevocable s else .pass s)
    (fun c s => leaveNext c f.bnd (perWarp c f s (startSubs c f) s)) s

/-! ## Items and slots -/

/-- Change a stream of a cohort. -/
def State.modStream (coh n : Nat) (g : Stream → Stream) (s : State) : State :=
  s.modCoh coh fun h => { h with streams := FMap.modify n g h.streams }

/-- The scratchpad offset of a slot. -/
def Stream.offset (x : Stream) (slot : Nat) : Nat := x.ring + slot * x.slotBytes
/-- Set a slot. -/
def Stream.setSlot (slot : Nat) (st : SlotSt) (item : Nat) (x : Stream) : Stream :=
  { x with slots := x.slots.set slot (st, item) }
/-- A slot's state and item. -/
def Stream.slot (x : Stream) (k : Nat) : SlotSt × Nat := x.slots.getD k (.empty, 0)

/-- The bytes an item has in each granule of its source: the coordinates in bounds (22 R410). -/
def itemGrans (x : Stream) (item : Nat) : List (Nat × Nat) :=
  let xs := (x.src.blockElems (x.src.blockAt item)).filter x.src.inBounds
  let gs := sortedNats (xs.map fun e => granOf (x.src.addr e))
  gs.map fun g => (g, x.src.packed (xs.filter fun e => granOf (x.src.addr e) = g).length)

/-- An item enters (or leaves) the core's residency table (14 R262, 22 R410). -/
def residItem (coh : Nat) (x : Stream) (item : Nat) (enter : Bool) (s : State) : State :=
  let gs := itemGrans x item
  let h := s.coh coh
  syncHeld h.core h.ctx (gs.map Prod.fst) (s.modCoh coh fun h => { h with
    held := if enter then h.held ++ gs else gs.foldl (fun l g => l.erase g) h.held })

/-- The future of a stream completes (14 R263): a cancelled one with CODE 2 (15 R296); the view and H rise to the stamps of
all the stream has read and written (15 R280). -/
def endStream (x : Stream) (cause code : Nat) (e : Eng) : State :=
  match e.s.ops.find x.op with
  | some o =>
    let e := { e with rd := max e.rd o.rd, hi := max e.hi o.hi }
    if o.cancelled then finishEng x.op o 0 0 2 e else finishEng x.op o 0 cause code e
  | none => e.s

/-- What SLOTW gets now: its value and the stream after it; none while it must wait (15 R292). -/
def Stream.take (x : Stream) : Option (W64 × Stream) :=
  let k := x.nextTake % x.nslot
  if x.count ≤ x.nextTake then some (0xFFFFFFFFFFFFFFFE, x)
  else if x.slot k = (.full, x.nextTake) then
    some (BitVec.ofNat 64 (x.nextTake % 2 ^ 32 * 2 ^ 32 + x.offset k),
      { x.setSlot k .held x.nextTake with nextTake := x.nextTake + 1 })
  else if x.stopped then some (0xFFFFFFFFFFFFFFFF, x)
  else none

/-- A warp's SLOTW. -/
def takeSlot (coh w n dst : Nat) (s : State) : Option State :=
  match FMap.find (s.coh coh).streams n with
  | none => none
  | some x => x.take.map fun r => (s.modStream coh n fun _ => r.2).writeS coh w dst r.1

/-- The SLOTWs that wait on a stream are served in arrival order. -/
def wakeSlotw (coh n : Nat) (s : State) : State :=
  forEach (s.ops.filter fun e => e.2.coh = coh) (fun e s => match e.2.kind with
    | .slotw m dst =>
      if m = n then
        match takeSlot coh e.2.warp n dst s with
        | some s => completeOp e.1 s
        | none => s
      else s
    | _ => s) s

/-- SLOTW (15 R292). -/
def execSlotw (f : Fields) (s : State) : Host.Outcome State Fault Refusal :=
  issue (.slotw f) f
    (fun c s =>
      if (c.warpsOn f s).isEmpty || (FMap.find (s.coh c.coh).streams (streamNo f)).isSome then .pass s else badOperand 25 0)
    (fun c s =>
      let dst := f.dst.idx.toNat
      let (s, ids) := (c.warpsOn f s).foldl (fun (a : State × List Nat) w =>
        match takeSlot c.coh w (streamNo f) dst a.1 with
        | some s => (s, a.2)
        | none => (a.1.addOp
            { kind := .slotw (streamNo f) dst, coh := c.coh, warp := w, core := c.core, pc := c.pc, ths := c.ths
              busy := false, dests := destsOf (usesOf f.dst 1) 0 }, a.2 ++ [a.1.nextOp])) (s, [])
      leaveBlocked c ids false s) s

/-- The slot of a stream at a scratchpad offset. -/
def Stream.slotAt (x : Stream) (off : Nat) : Option Nat := (upto x.nslot).find? fun k => x.offset k = off

/-- The check of a warp's SLOTF (15 R282). -/
def slotfGate (c : Iss) (f : Fields) (w : Nat) (s : State) : Gate :=
  let off := lo32 (opSA s c f w)
  match FMap.find (s.coh c.coh).streams (streamNo f) with
  | none => badOperand 25 0
  | some x => match x.slotAt off with
    | none => badOperand 24 off
    | some k => if (x.slot k).1 = .held then .pass s else badOperand 24 off

/-- An item has left its slot for good. The last item ends the stream (14 R263); with a storer the future waits for the
writes of every item (15 R279), whose slots may be freed in any order (DEDUCED, log 85). -/
def leaveItem (x : Stream) (item : Nat) (s : State) : State :=
  if (if x.dst.isSome then x.finished + 1 else item + 1) = x.count then endStream x 0 0 { s } else s

/-- A HELD slot becomes DONE, and without a storer EMPTY at once (14 R262). -/
def finishSlot (coh n off : Nat) (s : State) : State :=
  match FMap.find (s.coh coh).streams n with
  | none => s
  | some x => match x.slotAt off with
    | none => s
    | some k =>
      if (x.slot k).1 ≠ .held then s
      else
        let item := (x.slot k).2
        let s := residItem coh x item false s
        if x.dst.isSome then s.modStream coh n (Stream.setSlot k .done item)
        else leaveItem x item (s.modStream coh n fun x => { x.setSlot k .empty 0 with finished := x.finished + 1 })

/-- SLOTF (15 R293). -/
def execSlotf (f : Fields) (s : State) : Host.Outcome State Fault Refusal :=
  issue (.slotf f) f (fun c s => gateAll (c.warpsOn f s) (slotfGate c f) s)
    (fun c s => leaveNext c f.bnd
      (perWarp c f s (fun w t => finishSlot c.coh (streamNo f) (lo32 (opSA s c f w)) t) s)) s

/-! ## The filler and the storer (14 R262, R263) -/

/-- The controllers that fill and store an item: those of the die that homes its first line (14 R262). An item whose first
line no die of the module homes goes to the homes themselves (log 66). -/
def itemVia (s : State) (core ctx : Nat) (x : Stream) (item : Nat) : Via :=
  match ((x.src.blockElems (x.src.blockAt item)).find? x.src.inBounds).map fun e =>
      translate s core ctx (x.src.addr e) .read with
  | some (.ok k) => if reachOf (lineOf k) = 1 then .die (homeDie (lineOf k)) else .home
  | _ => .home

/-- How a filler or a storer stops: CAUSE and CODE, none when it goes on (14 R263, 15 R279). -/
def Stream.stops (x : Stream) (e : Eng) : Option (Nat × Nat) :=
  match (FMap.find e.s.ops x.op).map fun o => e.status o 0 with
  | some (_, 0) | none => none
  | some st => some st

/-- The operation under whose view a stream reads and writes. An uncorrectable soft error of its requests installs nothing
(14 R249). -/
def Stream.asOp (s : State) (coh n : Nat) (x : Stream) : Op :=
  { kind := .eng (.subs n), coh, warp := x.warp, core := (s.coh coh).core, vacc := x.view
    soft := (FMap.find s.ops x.op).any Op.soft }

/-- A stream's filler or storer at work on an item: a request that the fabric has failed stops it there (14 R263, 31 R517). -/
def Stream.atWork (s : State) (coh : Nat) (x : Stream) (item : Nat) : Eng :=
  { s, via := itemVia s (s.coh coh).core (s.coh coh).ctx x item, fail := (FMap.find s.ops x.op).bind Op.fabricFail }

/-- A stream of a resident cohort that may go on. -/
def liveStream (s : State) (coh n : Nat) : Option Stream :=
  if (s.coh coh).status = .resident then
    match FMap.find (s.coh coh).streams n with
    | some x => if x.stopped then none else some x
    | none => none
  else none

/-- A stream stops at a fault (14 R263). -/
def stopStream (coh n cause code : Nat) (x : Stream) (e : Eng) : State :=
  wakeSlotw coh n (endStream x cause code { e with s := e.s.modStream coh n fun x => { x with stopped := true } })

/-- The requests to peer modules of a stream: those of the items that are being filled and stored. -/
def streamPeers (coh n : Nat) (s : State) : State :=
  match FMap.find (s.coh coh).streams n with
  | none => s
  | some x =>
    let c : Iss := { core := (s.coh coh).core, slot := 0, ent := 0, coh, pc := 0, ths := [] }
    let items := fun (st : SlotSt) => (x.slots.filter fun y => y.1 = st).map Prod.snd
    let accs := fun (t : Tensor) (j : Nat) => elemAccs t ((t.blockElems (t.blockAt j)).filter t.inBounds)
    let as_ := (items .filling).flatMap (accs x.src) ++ match x.dst with
      | some d => (items .storing).flatMap (accs d)
      | none => []
    s.modOp x.op fun o => { o with parts := o.parts.filter (fun p => p.fail.isSome) ++ peerParts s c as_ }

/-- STREAM_FILL_START. -/
def execStreamFillStart (cohort stream : Nat) (s : State) : Host.Outcome State Fault Refusal :=
  match liveStream s cohort stream with
  | none => .next s
  | some x =>
    let k := x.nextFill % x.nslot
    if !x.paused && x.nextFill < x.count && (x.slot k).1 = .empty then
      .next (streamPeers cohort stream
        (s.modStream cohort stream fun x => { x.setSlot k .filling x.nextFill with nextFill := x.nextFill + 1 }))
    else .next s

/-- The filler reads an item and writes it to its slot, elements out of bounds as code 0. -/
def fillItem (o : Op) (x : Stream) (item off : Nat) (e : Eng) : Eng :=
  ((x.src.blockElems (x.src.blockAt item)).zipIdx).foldl (fun (e : Eng) p =>
    if e.bad then e
    else if x.src.inBounds p.1 then
      let (v, e) := engElem o x.ret x.src p.1 e
      if e.bad then e else spElemPut o x.src off p.2 v e
    else spElemPut o x.src off p.2 0 e) e

/-- STREAM_FILL_COMPLETE: an item becomes FULL in item order. -/
def execStreamFillComplete (cohort stream slot : Nat) (s : State) : Host.Outcome State Fault Refusal :=
  match liveStream s cohort stream with
  | none => .next s
  | some x =>
    let item := (x.slot slot).2
    if (x.slot slot).1 ≠ .filling || item ≠ x.nextFull then .next s
    else
      let e := fillItem (x.asOp s cohort stream) x item (x.offset slot) (x.atWork s cohort item)
      match x.stops e with
      | some st => .next (stopStream cohort stream st.1 st.2 x e)
      | none =>
        let s := e.s.modOp x.op fun o => { o with rd := max o.rd e.rd }
        let s := s.modStream cohort stream fun x => { x.setSlot slot .full item with nextFull := item + 1 }
        .next (wakeSlotw cohort stream (streamPeers cohort stream (residItem cohort x item true s)))

/-- STREAM_STORE_START. -/
def execStreamStoreStart (cohort stream slot : Nat) (s : State) : Host.Outcome State Fault Refusal :=
  match liveStream s cohort stream with
  | none => .next s
  | some x =>
    if (x.slot slot).1 = .done && x.dst.isSome then
      .next (streamPeers cohort stream (s.modStream cohort stream (Stream.setSlot slot .storing (x.slot slot).2)))
    else .next s

/-- The storer writes an item's in-bounds elements to its destination. -/
def storeItem (o : Op) (x : Stream) (d : Tensor) (item off : Nat) (e : Eng) : Eng :=
  ((d.blockElems (d.blockAt item)).zipIdx).foldl (fun (e : Eng) p =>
    if !e.bad && d.inBounds p.1 then
      let (v, e) := spElem o d off p.2 e
      engElemPut o x.ret d p.1 v e
    else e) e

/-- STREAM_STORE_COMPLETE: every write has replied, and the slot is EMPTY. -/
def execStreamStoreComplete (cohort stream slot : Nat) (s : State) : Host.Outcome State Fault Refusal :=
  match liveStream s cohort stream with
  | none => .next s
  | some x =>
    match x.slot slot, x.dst with
    | (.storing, item), some d =>
      let e := storeItem (x.asOp s cohort stream) x d item (x.offset slot) (x.atWork s cohort item)
      match x.stops e with
      | some st => .next (stopStream cohort stream st.1 st.2 x e)
      | none =>
        let s := e.s.raiseH cohort x.warp e.hi
        .next (leaveItem x item (streamPeers cohort stream (s.modStream cohort stream fun x =>
          { x.setSlot slot .empty 0 with finished := x.finished + 1 })))
    | _, _ => .next s

end Sys2Proof.Machine
end

