-- ==== Sys2Proof/Machine/Sync.lean ====
section
/-! DEFINITION. Fences, named barriers, condition monitors and dependent launches of group 8 (17 R340 to R345; 16 R308,
R311, R312, R317, R320). -/

namespace Sys2Proof.Machine

/-! ## FENCE (16 R308) -/

/-- An operation has an access within a scope's reach that has not replied. -/
def Op.openIn (o : Op) (scope : Nat) : Bool :=
  let pending := o.sp || (o.hdr.any fun p => reachOf p.line ≤ scope) ||
    o.parts.any fun p => (o.long || !p.done) && reachOf p.line ≤ scope
  match o.kind with
  | .mbxput _ _ _ _ none _ | .mbxget _ _ _ _ _ none _ => pending || o.reach ≤ scope
  | .eng _ => false
  | _ => pending

/-- A warp has an earlier access within a scope's reach that has not replied. -/
def fenceOpen (s : State) (coh w scope : Nat) : Bool := (s.opsOf coh w).any fun e => e.2.openIn scope

/-- FENCE (17 R340): it stalls until the accesses have replied, then the view rises to H. -/
def execFence (f : Fields) (s : State) : Host.Outcome State Fault Refusal :=
  issue (.fence f) f
    (fun c s => if (c.warpsOn f s).any fun w => fenceOpen s c.coh w (f.immBits 1 0) then .hold s else .pass s)
    (fun c s => leaveNext c f.bnd (perWarp c f s (fun w s => s.raiseView c.coh w (s.warp c.coh w).hst) s)) s

/-! ## Named barriers (17 R341, R342; 16 R317) -/

/-- A barrier of a cohort. -/
def Cohort.bar (h : Cohort) (n : Nat) : Barrier := FMap.getD {} h.bars n

/-- The number of warps an open phase waits for; a count field of 0 means every warp that has not retired. -/
def Cohort.barNeed (h : Cohort) (b : Barrier) : Nat :=
  match b.count with
  | some 0 | none => (h.warps.filter fun w => !w.retired).length
  | some n => n

/-- The phase of a barrier passes when enough warps have arrived: their views rise, and its waiters go on. -/
def tryPass (coh n : Nat) (s : State) : State :=
  let h := s.coh coh
  let b := h.bar n
  if b.count.isNone || b.arrived.length < h.barNeed b then s
  else
    let s := forEach b.arrived (fun w => State.raiseView coh w b.hi) s
    let s := s.modCoh coh fun h => { h with
      bars := FMap.put n { b with count := none, arrived := [], hi := 0, phase := b.phase + 1 } h.bars }
    forEach (s.ops.filter fun e => e.2.coh = coh && e.2.kind = .barWait n b.phase)
      (fun e s => completeOp e.1 (progress e.2.core coh e.2.ths s)) s

/-- A warp arrives at a barrier; the first arrival of a phase fixes its count; a warp arrives once. -/
def arriveBar (coh n count w : Nat) (s : State) : State :=
  let b := (s.coh coh).bar n
  if b.arrived.contains w then s
  else
    tryPass coh n (s.modCoh coh fun h => { h with
      bars := FMap.put n { b with
        count := some (b.count.getD count), arrived := b.arrived ++ [w], hi := max b.hi (h.warp w).view
        last := FMap.put w b.phase b.last } h.bars })

/-- The phase of a barrier that a warp must still wait for: the one in which it last arrived, while that is open. -/
def barOpen (s : State) (coh n w : Nat) : Option Nat :=
  let b := (s.coh coh).bar n
  if FMap.find b.last w = some b.phase && b.count.isSome then some b.phase else none

/-- A warp has scratchpad accesses that have not completed (16 R317). -/
def spOut (s : State) (coh w : Nat) : Bool := (s.opsOf coh w).any fun e => e.2.sp

/-- An arrival first waits for the warp's scratchpad accesses; one whose count field differs from the open phase's, or
exceeds %nwarp, traps (17 R342). -/
def barGate (c : Iss) (f : Fields) (s : State) : Gate :=
  let n := f.immBits 3 0
  let count := f.immBits 13 8
  let h := s.coh c.coh
  let b := h.bar n
  let ws := c.warpsOn f s
  if ws.isEmpty then .pass s
  else if ws.any fun w => !b.arrived.contains w && spOut s c.coh w then .hold s
  else if h.warps.length < count then badOperand 32 0
  else if b.count.any (· ≠ count) && ws.any (fun w => !b.arrived.contains w) then badOperand 32 0
  else .pass s

/-- The guard-holding threads wait for operations and the others go on at PC + 1; the group is partitioned and the run
ends. The waiting part keeps the entry when no other is free, since a waiting group cannot be parked. -/
def leaveSplit (c : Iss) (on : List (Nat × Nat)) (waits : List Nat) (s : State) : State :=
  let rest := c.ths.filter fun t => !on.contains t
  if waits.isEmpty then leaveNext c true s
  else if rest.isEmpty then leaveBlocked c waits false s
  else
    let s := endRun c s
    let s := forEach rest (fun t => State.modThread c.coh t.1 t.2 fun x => { x with pc := c.pc + 1, exempt := none }) s
    let g : Group := { coh := c.coh, pc := c.pc, ths := on, waits }
    let r : Group := { coh := c.coh, pc := c.pc + 1, ths := rest }
    noteHang c (match (s.core c.core).freeEntry with
      | some _ => placeParts c.core c.ent [g, r] s
      | none => park c.core c.coh rest (putEntry c.core c.ent g s))

/-- Threads of warps wait for the open phase of a barrier. Those of a warp that never arrived, or whose phase has passed,
go on at once, with the threads whose guard fails; a pass among them is their group's progress (17 R341, R342; 04 R106). -/
def waitBar (c : Iss) (f : Fields) (on : List (Nat × Nat)) (s : State) : State :=
  let n := f.immBits 3 0
  let held := on.filter fun t => (barOpen s c.coh n t.1).isSome
  let rest := c.ths.filter fun t => !held.contains t
  let passed := rest.any fun t => on.contains t && (FMap.find ((s.coh c.coh).bar n).last t.1).isSome
  let s := if passed then progress c.core c.coh rest s else s
  let (s, ids) := (sortedNats (held.map Prod.fst)).foldl (fun (a : State × List Nat) w => (a.1.addOp
    { kind := .barWait n ((s.coh c.coh).bar n).phase, coh := c.coh, warp := w, core := c.core, pc := c.pc
      ths := held.filter fun t => t.1 = w, busy := false }, a.2 ++ [a.1.nextOp])) (s, [])
  leaveSplit c held ids s

/-- BAR (17 R341): the warps arrive, and their guard-holding threads wait for the pass. -/
def execBar (f : Fields) (s : State) : Host.Outcome State Fault Refusal :=
  issue (.bar f) f (fun c s => barGate c f s)
    (fun c s =>
      let on := c.on f s
      waitBar c f on (perWarp c f s (arriveBar c.coh (f.immBits 3 0) (f.immBits 13 8)) s)) s

/-- BAR.ARV (17 R341): the warps arrive and go on. -/
def execBarArv (f : Fields) (s : State) : Host.Outcome State Fault Refusal :=
  issue (.barArv f) f (fun c s => barGate c f s)
    (fun c s => leaveNext c f.bnd (perWarp c f s (arriveBar c.coh (f.immBits 3 0) (f.immBits 13 8)) s)) s

/-- BAR.WT (17 R341): wait for the pass of the phase in which the warp last arrived. -/
def execBarWt (f : Fields) (s : State) : Host.Outcome State Fault Refusal :=
  issue (.barWt f) f noCheck (fun c s => waitBar c f (c.on f s) s) s

/-! ## WAITC (16 R311, R312; 17 R343) -/

/-- The type and the condition of WAITC. -/
def waitcTy (f : Fields) : Nat := f.modn / 8 % 4
def waitcCond (f : Fields) : Nat := f.modn % 8

/-- A warp's WAITC is registered, unless an acquire of the warp or an access of it to the line holds it back (16 R307, R310). -/
def startWaitc (f : Fields) (c : Iss) (w : Nat) (a : State × List Nat) : State × List Nat :=
  let (s, ids) := a
  let ty := waitcTy f
  let key := keyOf s c (eaOf s c f false w 0)
  let cmp := (s.srcS c.coh w f.sb).toNat
  let dst := f.dst.idx.toNat
  let late := acqHolds s c.coh w (reachOf (lineOf key)) || ownOut s c.coh w (lineOf key)
  let id := s.nextOp
  let s := s.addOp
    { kind := .waitc key ty (waitcCond f) cmp dst false 0, coh := c.coh, warp := w, core := c.core, pc := c.pc, ths := c.ths
      busy := false, dests := destsOf (usesOf f.dst 1) 0, vacc := eaOf s c f false w 0, held := some (reachOf (lineOf key)) }
  let s := if late then s else registerWaitc id key ty (waitcCond f) cmp dst s
  (s, if (s.ops.find id).isSome then ids ++ [id] else ids)

/-- WAITC (17 R343). -/
def execWaitc (f : Fields) (s : State) : Host.Outcome State Fault Refusal :=
  issue (.waitc f) f
    (fun c s => globalGate c .read (warpOrder c f s) (fun t => eaOf s c f false t.1 t.2) (tyBytes (waitcTy f)) s)
    (fun c s =>
      let (s, ids) := (c.warpsOn f s).foldl (fun a w => startWaitc f c w a) (s, [])
      leaveBlocked c ids false s) s

/-! ## Dependent launches (17 R344, R345) -/

/-- A cohort signals; a node cohort is none of the grid's (22 R404). -/
def signalCohort (coh : Nat) (s : State) : State :=
  let h := s.coh coh
  let s := s.modCoh coh fun h => { h with signalled := true }
  if h.node.isSome then s
  else s.modLaunch h.launch fun l => { l with signalled := insertNat h.cidx l.signalled }

/-- SUCCOK (17 R344). -/
def execSuccok (f : Fields) (s : State) : Host.Outcome State Fault Refusal :=
  issueFixed (.succok f) f (fun c s => if (c.warpsOn f s).isEmpty then s else signalCohort c.coh s) s

/-- WAITPRED (17 R345). -/
def execWaitpred (f : Fields) (s : State) : Host.Outcome State Fault Refusal :=
  issue (.waitpred f) f noCheck (fun c s =>
    match predecessor s (s.coh c.coh).launch with
    | some p => leaveNext c true (perWarp c f s (fun w => predReturn c.coh w f.dst.idx.toNat p) s)
    | none =>
      let ws := c.warpsOn f s
      let ids := (upto ws.length).map fun i => s.nextOp + i
      leaveBlocked c ids false (forEach ws (fun w s => s.addOp
        { kind := .waitpred f.dst.idx.toNat, coh := c.coh, warp := w, core := c.core, pc := c.pc, ths := c.ths
          busy := false, dests := destsOf (usesOf f.dst 1) 0 }) s)) s

end Sys2Proof.Machine
end

