-- ==== Sys2Proof/Machine/Rotunda.lean ====
section
/-! DEFINITION. Rotunda's structures in memory (25 R442 to R456): the descriptor, the directory, tables and chunks, the
change queue, cursors, and one sync: its plan and its publication. Rotunda reads them from memory each time; a read
outside the world's regions, a failed translation or a value out of range is CORRUPT (R444, R449). -/

namespace Sys2Proof.Machine

/-! ## The regions of a world (25 R443, R444) -/

/-- The places in the bytes of a descriptor. -/
def geoOf (desc : Nat) (b : List Byte) : Geo :=
  { desc, dirBase := fieldN b 0 8, dirCap := fieldN b 112 4, tabBase := fieldN b 8 8, tabCap := fieldN b 116 4
    qBase := fieldN b 24 8, qLog2 := fieldN b 120 1, spillBase := fieldN b 32 8, spillSize := fieldN b 40 8
    pools := (upto 4).map fun j => (fieldN b (48 + 16 * j) 8, fieldN b (56 + 16 * j) 8) }

/-- The places are aligned and in range (25 R443). -/
def Geo.good (g : Geo) : Bool :=
  7 ≤ g.qLog2 && g.qLog2 ≤ 24 && 1 ≤ g.tabCap && g.tabCap ≤ 65536 && 2 ≤ g.dirCap && g.dirCap ≤ 2 ^ 31 &&
    g.pools.all (fun p => p.1 % 4096 = 0 && p.2 % 4096 = 0) && g.spillBase % 4096 = 0 && g.spillSize % 4096 = 0 &&
    g.qBase % 4096 = 0 && g.tabBase % 128 = 0 && g.dirBase % 4096 = 0

/-- The registered regions, each pool as large as a program has raised it (25 R443). -/
def Geo.raised (g m : Geo) : Geo := { g with pools := (g.pools.zip m.pools).map fun p => (p.1.1, max p.1.2 p.2.2) }

/-- Rotunda at work on a world: the state, the places its descriptor names now, the regions it never leaves, the highest
stamp written, and whether a write has failed. -/
structure Rot where
  s : State
  ctx : Nat
  num : Nat
  geo : Geo
  reg : Geo
  hi : Nat := 0
  bad : Bool := false
  deriving DecidableEq, Repr

/-- A range lies within one of the world's regions. -/
def Rot.inside (r : Rot) (va n : Nat) : Bool := r.reg.inside va n

/-- Read bytes of the world's regions. -/
def Rot.get (r : Rot) (va n : Nat) : Option (List Byte) := if r.inside va n then r.s.readVirt r.ctx va n else none
/-- Read a number. -/
def Rot.num? (r : Rot) (va n : Nat) : Option Nat := (r.get va n).map leNat
/-- Read a field of the descriptor. -/
def Rot.field (r : Rot) (off n : Nat) : Option Nat := r.num? (r.geo.desc + off) n

/-- Write bytes at the homes, each line with a stamp at or above `vreq` (16 R303). -/
def Rot.put (vreq va : Nat) (bs : List Byte) (r : Rot) : Rot :=
  if r.bad || !r.inside va bs.length then { r with bad := true }
  else (chunksOf va bs.length).foldl (fun (r : Rot) ch =>
    match translateDev r.s r.ctx ch.1 .write with
    | .ok k =>
      let (s, w) := r.s.homeStore (lineOf k) vreq 0 (cellsOfL k ((bs.drop (ch.1 - va)).take ch.2))
      { r with s := fireMonitors (lineOf k) s, hi := max r.hi w }
    | .fault _ | .hole => { r with bad := true }) r

/-- Write a field of the descriptor. -/
def Rot.putField (vreq off n v : Nat) (r : Rot) : Rot := r.put vreq (r.geo.desc + off) (leBytes n v)

/-- The key of a world of a context. -/
def worldKey (ctx n : Nat) : Nat := 256 * ctx + n

/-- Rotunda on a registered world; none when its descriptor cannot be read or names a place out of range (25 R444). -/
def rotOf (s : State) (ctx n : Nat) : Option Rot := do
  let w ← s.worlds.find (worldKey ctx n)
  let b ← s.readVirt ctx w.geo.desc 256
  let g := geoOf w.geo.desc b
  if g.good then some { s, ctx, num := n, geo := g, reg := w.geo.raised g } else none

/-- A sync of the world has ended CORRUPT, its FAILED flag is set, or its descriptor is out of form (25 R444, R449). -/
def worldFailed (s : State) (ctx n : Nat) : Bool :=
  (s.worlds.find (worldKey ctx n)).any World.failed || match (rotOf s ctx n).bind fun r => r.field 122 1 with
    | some b => b % 2 = 1
    | none => true

/-- A field of the descriptor that must lie in a range (25 R443). -/
def Rot.ranged (r : Rot) (off lo hi : Nat) : Option Nat :=
  (r.field off 4).bind fun x => if lo ≤ x && x ≤ hi then some x else none

/-- NEXTIDX, NTAB and NCURSOR. -/
def Rot.nextIdx (r : Rot) : Option Nat := r.ranged 124 1 r.geo.dirCap
def Rot.ntab (r : Rot) : Option Nat := r.ranged 128 1 r.geo.tabCap
def Rot.openCursors (r : Rot) : Option Nat := r.ranged 140 0 Config.cursorMax

/-- FREEHEAD or FREETAIL: an index below NEXTIDX, or 0. -/
def Rot.freeEnd (r : Rot) (off : Nat) : Option Nat := do
  let next ← r.nextIdx
  r.ranged off 0 (next - 1)

/-- The element size of a component, as COMPTAB gave it at registration: log2, or 0xFF. -/
def compLog (s : State) (ctx n comp : Nat) : Nat :=
  match s.worlds.find (worldKey ctx n) with
  | some w => w.comptab.getD comp 0xFF
  | none => 0xFF

/-! ## Tables (25 R447, R448) -/

/-- A column: component, log2 of its element size, offset in a chunk. -/
structure Col where
  comp : Nat
  log : Nat
  off : Nat
  deriving DecidableEq, Repr

/-- A table as its descriptor and column block give it. -/
structure Tab where
  num : Nat
  cmap : Nat
  pmap : Nat
  version : Nat
  crows : Nat
  prows : Nat
  colblk : Nat
  chunkb : Nat
  ccur : Nat
  cprev : Nat
  mask : Nat
  cols : List Col
  deriving DecidableEq, Repr

/-- The component set of a table. -/
def Tab.set (t : Tab) : List Nat := t.cols.map Col.comp
/-- Chunks that hold some rows. -/
def chunksFor (rows : Nat) : Nat := (rows + 255) / 256

/-- A column descriptor in range. -/
def Col.good (chunkb : Nat) (c : Col) : Bool :=
  c.comp < 1024 && c.log ≤ 8 && c.off % 128 = 0 && 2048 ≤ c.off && c.off + 256 * 2 ^ c.log ≤ chunkb

/-- Table `t`. -/
def Rot.tab (r : Rot) (t : Nat) : Option Tab := do
  let ntab ← r.ntab
  if ntab ≤ t then none
  else
    let b ← r.get (r.geo.tabBase + 128 * t) 128
    let ncol := fieldN b 48 2
    let colblk := fieldN b 40 8
    let chunkb := fieldN b 60 4
    let mask ← r.num? colblk 128
    let cb ← r.get (colblk + 128) (32 * ncol)
    let cols := (upto ncol).map fun i =>
      { comp := fieldN cb (32 * i) 2, log := fieldN cb (32 * i + 2) 1, off := fieldN cb (32 * i + 4) 4 : Col }
    let tab : Tab := { num := t, cmap := fieldN b 0 8, pmap := fieldN b 8 8, version := fieldN b 16 8
                       crows := fieldN b 32 4, prows := fieldN b 36 4, colblk, chunkb, ccur := fieldN b 52 4
                       cprev := fieldN b 56 4, mask, cols }
    if 1024 < ncol || !(cols.all (Col.good chunkb)) || tab.version = 0 || Config.cursorMax < tab.ccur + tab.cprev then none
    else some tab

/-- Every table. -/
def Rot.tabs (r : Rot) : Option (List Tab) := do
  let ntab ← r.ntab
  (upto ntab).mapM r.tab

/-- A chunk of a table lies in its pool, POOL(t mod 4) (25 R447); one that does not is out of form (DEDUCED, log 43). -/
def Rot.chunkGood (r : Rot) (t : Tab) (a : Nat) : Bool :=
  let p := r.reg.pools.getD (t.num % 4) (0, 0)
  p.1 ≤ a && a + t.chunkb ≤ p.1 + p.2

/-- The address of chunk `k` of a map of a table; none where it is out of range (25 R444). -/
def Rot.chunk (r : Rot) (t : Tab) (map k : Nat) : Option Nat :=
  (r.num? (map + 8 * k) 8).bind fun a => if r.chunkGood t a then some a else none

/-- The chunks of a map. -/
def Rot.chunkList (r : Rot) (t : Tab) (map rows : Nat) : Option (List Nat) := (upto (chunksFor rows)).mapM (r.chunk t map)

/-- A row: its handle and its values by component. -/
structure Row where
  handle : Nat
  vals : FMap (List Byte)
  deriving DecidableEq, Repr

/-- Row `i` of a table's current version; a handle in it names an index from 1 to NEXTIDX − 1 (25 R445; DEDUCED, log
43). -/
def Rot.row (r : Rot) (t : Tab) (i : Nat) : Option Row := do
  let next ← r.nextIdx
  let a ← r.chunk t t.cmap (i / 256)
  let h ← (r.num? (a + 8 * (i % 256)) 8).bind fun h => if h % 2 ^ 32 = 0 || next ≤ h % 2 ^ 32 then none else some h
  let vs ← t.cols.mapM fun c => (r.get (a + c.off + i % 256 * 2 ^ c.log) (2 ^ c.log)).map fun b => (c.comp, b)
  some { handle := h, vals := vs.foldl (fun m e => FMap.put e.1 e.2 m) [] }

/-! ## The directory (25 R445, R446) -/

/-- A directory entry. -/
structure DirEnt where
  flags : Nat
  gen : Nat
  table : Nat
  row : Nat
  deriving DecidableEq, Repr

/-- The entry of an index. -/
def Rot.dir (r : Rot) (i : Nat) : Option DirEnt := do
  let b ← r.get (r.geo.dirBase + 16 * i) 16
  if 8 ≤ fieldN b 11 1 then none
  else some { flags := fieldN b 11 1, gen := fieldN b 8 3, table := fieldN b 4 2, row := fieldN b 0 4 }

/-- Write the entry of an index. -/
def Rot.putDir (vreq i : Nat) (d : DirEnt) (r : Rot) : Rot :=
  r.put vreq (r.geo.dirBase + 16 * i)
    (leBytes 4 d.row ++ leBytes 2 d.table ++ leBytes 2 0 ++ leBytes 3 d.gen ++ leBytes 1 d.flags ++ leBytes 4 0)

/-- The fields of a handle, and a handle. -/
def handleWorld (h : Nat) : Nat := h / 2 ^ 56 % 256
def handleGen (h : Nat) : Nat := h / 2 ^ 32 % 2 ^ 24
def handleIdx (h : Nat) : Nat := h % 2 ^ 32
def mkHandle (world gen idx : Nat) : Nat := world * 2 ^ 56 + gen * 2 ^ 32 + idx

/-- The status of a handle against its entry: 0 OK, 1 STALE, 2 PENDING, 3 DEAD. -/
def resolveEnt (next : Nat) (h : Nat) (d : DirEnt) : Nat :=
  if handleIdx h = 0 || next ≤ handleIdx h || d.flags / 4 % 2 = 1 then 3
  else if d.gen ≠ handleGen h || d.flags = 0 then 1
  else if d.flags % 2 = 1 then 0 else 2

/-- Resolve a handle: its status, and the entry of an entity that is alive. -/
def Rot.resolve (r : Rot) (h : Nat) : Option (Nat × DirEnt) := do
  let next ← r.nextIdx
  if handleIdx h = 0 || next ≤ handleIdx h then some (3, ⟨0, 0, 0, 0⟩)
  else
    let d ← r.dir (handleIdx h)
    some (resolveEnt next h d, d)

/-- Reserve an index for a spawn: its entry becomes PENDING, its GEN unchanged. `none` is a corrupt read, `some none` no
index. -/
def Rot.reserve (r : Rot) : Option (Option (Rot × Nat)) := do
  let head ← r.freeEnd 132
  let next ← r.nextIdx
  if head ≠ 0 then
    let tail ← r.freeEnd 136
    let d ← r.dir head
    if next ≤ d.row then none
    else
      let r := r.putDir 0 head { d with flags := 2, table := 0, row := 0 }
      let r := r.putField 0 132 4 (if head = tail then 0 else d.row)
      let r := if head = tail then r.putField 0 136 4 0 else r
      some (some (r, mkHandle r.num d.gen head))
  else if next = r.geo.dirCap then some none
  else
    let d ← r.dir next
    let r := (r.putDir 0 next { d with flags := 2, table := 0, row := 0 }).putField 0 124 4 (next + 1)
    some (some (r, mkHandle r.num d.gen next))

/-! ## The change queue (25 R444, R450) -/

/-- Entries the queue holds. -/
def Geo.capacity (g : Geo) : Nat := 2 ^ g.qLog2 + g.spillSize / 32

/-- The place of entry `n`: the ring, then the spill area. -/
def Geo.slot (g : Geo) (n : Nat) : Nat :=
  let p := n % g.capacity
  if p < 2 ^ g.qLog2 then g.qBase + 32 * p else g.spillBase + 32 * (p - 2 ^ g.qLog2)

/-- Continuation entries of a change. -/
def Change.conts (c : Change) : Nat := if c.op = 2 && 8 < c.value.length then (c.value.length + 31) / 32 else 0
/-- Entries of a change. -/
def Change.entries (c : Change) : Nat := 1 + c.conts

/-- Zero-extend a byte list. -/
def padTo (n : Nat) (b : List Byte) : List Byte := b ++ List.replicate (n - b.length) 0

/-- The bytes of a change's entries, in order. -/
def Change.bytes (c : Change) : List (List Byte) :=
  let head := leBytes 2 (c.comp + 1024 * c.conts + 16384 * c.op) ++ leBytes 2 c.thread ++ leBytes 2 c.ord ++
    leBytes 2 c.seq ++ leBytes 8 c.handle ++ leBytes 8 c.coh ++
    (if c.op = 2 && c.conts = 0 then padTo 8 c.value else leBytes 8 0)
  head :: (upto c.conts).map fun i => padTo 32 ((c.value.drop (32 * i)).take 32)

/-- Append changes: the entries, then QTAIL. -/
def Rot.append (cs : List Change) (r : Rot) : Rot :=
  match r.field 160 8 with
  | none => { r with bad := true }
  | some tail =>
    let es := cs.flatMap Change.bytes
    let r := es.zipIdx.foldl (fun (r : Rot) e => r.put 0 (r.geo.slot (tail + e.2)) e.1) r
    r.putField 0 160 8 (tail + es.length)

/-- QHEAD and QTAIL. -/
def Rot.queueEnds (r : Rot) : Option (Nat × Nat) := do
  let head ← r.field 152 8
  let tail ← r.field 160 8
  if tail < head || r.geo.capacity < tail - head then none else some (head, tail)

/-- The queue has room for entries. -/
def Rot.room (r : Rot) (n : Nat) : Option Bool := r.queueEnds.map fun q => q.2 - q.1 + n ≤ r.geo.capacity

/-- The changes from entry `n` up to a mark; none where a field is out of its range (25 R444, R450; log 43). -/
def Rot.changes (r : Rot) (mark : Nat) : Nat → Nat → Option (List Change)
  | 0, _ => some []
  | fuel + 1, n =>
    if mark ≤ n then some []
    else do
      let b ← r.get (r.geo.slot n) 32
      let w := fieldN b 0 2
      let conts := w / 1024 % 16
      let comp := w % 1024
      let log := compLog r.s r.ctx r.num comp
      if 8 < conts || 1023 < fieldN b 2 2 || (w / 16384 = 2 && 8 < log) || mark < n + 1 + conts then none
      else
        let cb ← (upto conts).mapM fun i => r.get (r.geo.slot (n + 1 + i)) 32
        let value := if w / 16384 = 2 then (if conts = 0 then b.drop 24 else cb.flatten).take (2 ^ log) else []
        let rest ← r.changes mark fuel (n + 1 + conts)
        some ({ world := r.num, op := w / 16384, comp, ord := fieldN b 4 2, coh := fieldN b 16 8
                thread := fieldN b 2 2, seq := fieldN b 6 2, handle := fieldN b 8 8, value } :: rest)

/-- The order of keys (25 R450). -/
def Change.before (a b : Change) : Bool :=
  a.ord < b.ord || (a.ord = b.ord && (a.coh < b.coh || (a.coh = b.coh && (a.thread < b.thread ||
    (a.thread = b.thread && a.seq < b.seq)))))

/-- Insert a change behind those of keys at or before its own. -/
def insertChange (c : Change) : List Change → List Change
  | [] => [c]
  | x :: r => if c.before x then c :: x :: r else x :: insertChange c r

/-- Changes sorted by key; equal keys keep their order. -/
def sortChanges (l : List Change) : List Change := l.foldl (fun a c => insertChange c a) []

/-! ## Applying changes (25 R452) -/

/-- Counts of a sync (25 R443). -/
structure Counts where
  ok : Nat := 0
  stale : Nat := 0
  pending : Nat := 0
  absent : Nat := 0
  dead : Nat := 0
  deriving DecidableEq, Repr

/-- An entity during a sync. -/
structure SEnt where
  gen : Nat
  alive : Bool
  pending : Bool
  retired : Bool := false
  /-- table and row before the sync -/
  origin : Option (Nat × Nat)
  oldSet : List Nat
  set : List Nat
  /-- values written -/
  vals : FMap (List Byte) := []
  /-- an entry wrote a value -/
  wrote : Bool := false
  spawned : Bool := false
  killed : Bool := false
  /-- position of its first entry -/
  first : Option Nat := none
  deriving DecidableEq, Repr

/-- The changes applied so far: a structure out of range that the check meets, and the counts at the first SPAWN whose entry
is not PENDING, where Apply fails. -/
structure Sim where
  ents : FMap SEnt := []
  counts : Counts := {}
  bad : Bool := false
  fail : Option Counts := none
  deriving DecidableEq, Repr

/-- An entity as the directory gives it. -/
def Rot.ent (r : Rot) (i : Nat) : Option SEnt := do
  let d ← r.dir i
  let alive := d.flags % 2 = 1
  let retired := d.flags / 4 % 2 = 1
  if alive && !retired then
    let t ← r.tab d.table
    if t.crows ≤ d.row then none
    else some { gen := d.gen, alive := true, pending := false, origin := some (d.table, d.row), oldSet := t.set, set := t.set }
  else some { gen := d.gen, alive := false, pending := d.flags / 2 % 2 = 1, retired, origin := none, oldSet := [], set := [] }

/-- The effect of an entry on the entity its handle reaches, and its status: 0, 2 or 6; none for a spawn of an entity
that is not pending. -/
def SEnt.apply (c : Change) (pos : Nat) (e : SEnt) : Option (SEnt × Nat) :=
  let e := { e with first := some (e.first.getD pos) }
  if c.op = 0 then
    if e.pending then some ({ e with pending := false, alive := true, spawned := true }, 0) else none
  else if e.pending then some (e, 2)
  else if c.op = 1 then
    let gone := { e with alive := false, killed := true }
    some (if e.gen = 0xFFFFFF then { gone with retired := true } else { gone with gen := e.gen + 1 }, 0)
  else if c.op = 2 then
    some ({ e with set := insertNat c.comp e.set, vals := FMap.put c.comp c.value e.vals, wrote := true }, 0)
  else if e.set.contains c.comp then
    some ({ e with set := e.set.filter fun x => x ≠ c.comp, vals := FMap.del c.comp e.vals }, 0)
  else some (e, 6)

/-- Count a status. -/
def Counts.add (st : Nat) (c : Counts) : Counts :=
  match st with
  | 0 => { c with ok := c.ok + 1 }
  | 1 => { c with stale := c.stale + 1 }
  | 2 => { c with pending := c.pending + 1 }
  | 6 => { c with absent := c.absent + 1 }
  | _ => { c with dead := c.dead + 1 }

/-- Apply one entry. -/
def Rot.applyOne (r : Rot) (next : Nat) (m : Sim) (x : Change × Nat) : Sim :=
  if m.bad then m
  else
    let (c, pos) := x
    let i := handleIdx c.handle
    if i = 0 || next ≤ i then
      { m with counts := m.counts.add 3 }
    else match (match FMap.find m.ents i with
        | some e => some e
        | none => r.ent i) with
      | none => { m with bad := true }
      | some e =>
        if e.retired then { m with counts := m.counts.add 3 }
        else if e.gen ≠ handleGen c.handle || (!e.alive && !e.pending) then
          { m with counts := m.counts.add 1 }
        else match e.apply c pos with
          | none => { m with fail := some (m.fail.getD m.counts) }
          | some (e, st) => { m with ents := FMap.put i e m.ents, counts := m.counts.add st }

/-- Apply every entry. -/
def Rot.simulate (r : Rot) (next : Nat) (cs : List Change) : Sim := cs.zipIdx.foldl (r.applyOne next) {}

/-! ## Compaction (25 R452) -/

/-- Drop the holes at the end of a table of `n` rows. -/
def trimHoles (holes : List Nat) : Nat → Nat
  | 0 => 0
  | n + 1 => if holes.contains n then trimHoles holes n else n + 1

/-- The rows of a table after compaction: for each place, the row that comes there. -/
def compact (n : Nat) (holes : List Nat) : List Nat :=
  let (n, rows, _, _) := (sortedNats holes).foldl
    (fun (a : Nat × List Nat × List Nat × Bool) h =>
      let (n, rows, left, stop) := a
      if stop then a
      else
        let n := trimHoles left n
        if n ≤ h then (n, rows, left, true)
        else (n - 1, rows.set h (rows.getD (n - 1) 0), left.filter fun x => x ≠ h, false)) (n, upto n, holes, false)
  rows.take n

/-! ## Pools (25 R447) -/

/-- Round up to 128. -/
def up128 (x : Nat) : Nat := (x + 127) / 128 * 128

/-- The lowest place for some bytes in a pool beside the pieces in use; places are Rotunda's choice. -/
def firstFit (pool : Acc) (used : List Acc) (len : Nat) : Option Nat :=
  let fits (a : Nat) : Bool := pool.1 ≤ a && a + len ≤ pool.1 + pool.2 && !(used.any fun u => a < u.1 + u.2 && u.1 < a + len)
  (sortedNats (pool.1 :: used.map fun u => up128 (u.1 + u.2))).find? fits

/-- Places for a list of lengths, one after the other. An empty piece has no place. -/
def fitAll (pool : Acc) : List Acc → List Nat → Option (List Nat)
  | _, [] => some []
  | used, 0 :: r => (fitAll pool used r).map fun l => 0 :: l
  | used, n :: r => (firstFit pool used n).bind fun a => (fitAll pool ((a, n) :: used) r).map fun l => a :: l

/-- The pieces a table holds: its column block, and both versions' maps and chunks. -/
def Rot.pieces (r : Rot) (t : Tab) : Option (List Acc) := do
  let cs ← r.chunkList t t.cmap t.crows
  let ps ← if t.pmap = 0 then some [] else r.chunkList t t.pmap t.prows
  some ((t.colblk, 128 + 32 * t.cols.length) :: (t.cmap, 8 * cs.length) :: (t.pmap, 8 * ps.length) ::
    (cs ++ ps).map fun a => (a, t.chunkb))

/-! ## The plan of a sync (25 R451, R452) -/

/-- The new version of a table, with its place in the pool: the column block of a new table, the chunks, the map. -/
structure NewTab where
  num : Nat
  old : Option Tab
  cols : List Col
  chunkb : Nat
  rows : List Row
  block : Nat := 0
  chunks : List Nat := []
  map : Nat := 0
  deriving DecidableEq, Repr

/-- What a sync will write. -/
structure Plan where
  counts : Counts
  /-- the counts at which Apply finds the sync CORRUPT -/
  fail : Option Counts
  ntab : Nat
  tabs : List NewTab
  ents : FMap SEnt
  stall : Bool
  mark : Nat
  deriving DecidableEq, Repr

/-- How the check of a sync ends (25 R451): it meets a structure out of range, finds no space, or has a plan. -/
inductive Planned where
  | corrupt
  | noSpace
  | ok (p : Plan)
  deriving DecidableEq, Repr

/-- The columns of a set of components, and the chunk size. -/
def colsOf (s : State) (ctx num : Nat) (set : List Nat) : List Col × Nat :=
  set.foldl (fun (a : List Col × Nat) c =>
    let log := compLog s ctx num c
    (a.1 ++ [{ comp := c, log, off := a.2 }], a.2 + 256 * 2 ^ log)) ([], 2048)

/-- Override the values of a row. -/
def Row.under (vals : FMap (List Byte)) (x : Row) : Row :=
  { x with vals := vals.foldl (fun m e => FMap.put e.1 e.2 m) x.vals }

/-- Whether an entity leaves its row. -/
def SEnt.moved (e : SEnt) : Bool := e.alive && (e.spawned || e.set ≠ e.oldSet)

/-- Insert an entity by its first entry. -/
def insertMover (x : Nat × SEnt) : List (Nat × SEnt) → List (Nat × SEnt)
  | [] => [x]
  | y :: r => if x.2.first.getD 0 < y.2.first.getD 0 then x :: y :: r else y :: insertMover x r

/-- The row a moved entity brings to its new table. -/
def Rot.moverRow (r : Rot) (tabs : List Tab) (x : Nat × SEnt) : Option Row := do
  let h := mkHandle r.num x.2.gen x.1
  let old ← match x.2.origin with
    | none => some { handle := h, vals := [] }
    | some (t, i) => do
      let t ← tabs[t]?
      r.row t i
  let all := old.under x.2.vals
  some { handle := h, vals := all.vals.filter fun e => x.2.set.contains e.1 }

/-- The table of a component set: an existing one, or the new one created for it. -/
def targetTab (tabs : List Tab) (sets : List (List Nat)) (ntab : Nat) (set : List Nat) : Nat :=
  match tabs.find? fun t => t.set = set with
  | some t => t.num
  | none => ntab + sets.findIdx fun x => x = set

/-- Plan a sync up to a mark. -/
def Rot.plan (r : Rot) (mark : Nat) : Planned :=
  let start : Option (Nat × Nat × List Change × List Tab) := do
    let (head, _) ← r.queueEnds
    let next ← r.nextIdx
    let ntab ← r.ntab
    if mark < head || r.geo.capacity < mark - head then none
    else
      let cs ← r.changes mark (mark - head) head
      let tabs ← r.tabs
      some (next, ntab, cs, tabs)
  match start with
  | none => .corrupt
  | some (next, ntab, cs, tabs) =>
    let m := r.simulate next (sortChanges cs)
    if m.bad then .corrupt
    else
      let movers : List (Nat × SEnt) := (m.ents.filter fun e => e.2.moved).foldl (fun l x => insertMover x l) []
      let sets : List (List Nat) := movers.foldl (fun (l : List (List Nat)) x =>
        if tabs.any (fun t => t.set = x.2.set) || l.contains x.2.set then l else l ++ [x.2.set]) []
      let target : List Nat → Nat := targetTab tabs sets ntab
      let gone (t : Nat) : List Nat := m.ents.filterMap fun e => match e.2.origin with
        | some (u, i) => if u = t && (e.2.killed || e.2.moved) then some i else none
        | none => none
      let stays (t i : Nat) : FMap (List Byte) := match m.ents.find? fun e => e.2.origin = some (t, i) && e.2.alive with
        | some e => e.2.vals
        | none => []
      let touched (t : Nat) : Bool := !(gone t).isEmpty || movers.any (fun (x : Nat × SEnt) => decide (target x.2.set = t)) ||
        m.ents.any fun e => e.2.alive && e.2.wrote && e.2.origin.any fun o => o.1 = t
      let newRows (t : Nat) : Option (List Row) :=
        (movers.filter fun (x : Nat × SEnt) => decide (target x.2.set = t)).mapM (r.moverRow tabs)
      let build : Option (List NewTab) := do
        let olds ← (tabs.filter fun t => touched t.num).mapM fun t => do
          let kept ← (compact t.crows (gone t.num)).mapM fun i => (r.row t i).map (Row.under (stays t.num i))
          let more ← newRows t.num
          some { num := t.num, old := some t, cols := t.cols, chunkb := t.chunkb, rows := kept ++ more : NewTab }
        let news ← sets.zipIdx.mapM fun x => do
          let rows ← newRows (ntab + x.2)
          let (cols, chunkb) := colsOf r.s r.ctx r.num x.1
          some { num := ntab + x.2, old := none, cols, chunkb, rows : NewTab }
        some (olds ++ news)
      match build, tabs.mapM fun t => (r.pieces t).map fun l => (t.num % 4, l) with
      | some nts, some used =>
        if r.geo.tabCap < ntab + sets.length then .noSpace
        else
          let place (j : Nat) : Option (List NewTab) :=
            let mine := nts.filter fun t => t.num % 4 = j
            let lens := mine.flatMap fun t =>
              (if t.old.isNone then 128 + 32 * t.cols.length else 0) :: 8 * chunksFor t.rows.length ::
                List.replicate (chunksFor t.rows.length) t.chunkb
            (fitAll (r.geo.pools.getD j (0, 0)) ((used.filter fun u => u.1 = j).flatMap Prod.snd) lens).map fun as_ =>
              (mine.foldl (fun (a : List NewTab × List Nat) t =>
                let k := chunksFor t.rows.length
                (a.1 ++ [{ t with block := a.2.getD 0 0, map := a.2.getD 1 0, chunks := (a.2.drop 2).take k }],
                  a.2.drop (2 + k))) ([], as_)).1
          match (upto 4).mapM place with
          | none => .noSpace
          | some ps =>
            .ok { counts := m.counts, fail := m.fail, ntab := ntab + sets.length, tabs := ps.flatten, ents := m.ents, mark
                  stall := nts.any fun t => t.old.any fun o => 0 < o.cprev }
      | _, _ => .corrupt

/-! ## Publication (25 R452) -/

/-- The bytes of a chunk's arrays: offset and contents. Each element takes the width its column has now, whatever its value had
when it was read: no element moves another (25 R444, R447). -/
def chunkParts (t : NewTab) (rows : List Row) : List (Nat × List Byte) :=
  (0, (upto 256).flatMap fun i => leBytes 8 ((rows[i]?).map Row.handle |>.getD 0)) ::
    t.cols.map fun c => (c.off, (upto 256).flatMap fun i =>
      (padTo (2 ^ c.log) (((rows[i]?).bind fun x => FMap.find x.vals c.comp).getD [])).take (2 ^ c.log))

/-- Write a new version's chunks, map and, for a new table, its column block. -/
def Rot.putVersion (t : NewTab) (r : Rot) : Rot :=
  let r := t.chunks.zipIdx.foldl (fun (r : Rot) c =>
    (chunkParts t ((t.rows.drop (256 * c.2)).take 256)).foldl (fun (r : Rot) p => r.put 0 (c.1 + p.1) p.2) r) r
  let r := if t.chunks.isEmpty then r else r.put 0 t.map (t.chunks.flatMap fun a => leBytes 8 a)
  if t.old.isSome then r
  else r.put 0 t.block
    (leBytes 128 (t.cols.foldl (fun a c => a + 2 ^ c.comp) 0) ++
      t.cols.flatMap fun c => leBytes 2 c.comp ++ leBytes 1 c.log ++ leBytes 1 0 ++ leBytes 4 c.off ++ leBytes 24 0)

/-- Write a table descriptor: the new version becomes current, the current one previous. -/
def Rot.putTab (t : NewTab) (r : Rot) : Rot :=
  let o := t.old
  let at_ := r.geo.tabBase + 128 * t.num
  let b := leBytes 8 t.map ++ leBytes 8 ((o.map Tab.cmap).getD 0) ++ leBytes 8 ((o.map Tab.version).getD 0 + 1)
  let c := leBytes 4 t.rows.length ++ leBytes 4 ((o.map Tab.crows).getD 0) ++
    leBytes 8 ((o.map Tab.colblk).getD t.block) ++ leBytes 2 t.cols.length ++ leBytes 1 (t.num % 4) ++ leBytes 1 0 ++
    leBytes 4 0 ++ leBytes 4 ((o.map Tab.ccur).getD 0) ++ leBytes 4 t.chunkb
  let r := (r.put 0 at_ b).put 0 (at_ + 32) c
  if o.isSome then r else (r.put 0 (at_ + 24) (leBytes 8 0)).put 0 (at_ + 64) (leBytes 64 0)

/-- The directory entries of the rows of a new version. -/
def Rot.putRows (t : NewTab) (r : Rot) : Rot :=
  t.rows.zipIdx.foldl (fun (r : Rot) x =>
    let d : DirEnt := { flags := 1, gen := handleGen x.1.handle, table := t.num, row := x.2 }
    if r.dir (handleIdx x.1.handle) = some d then r else r.putDir 0 (handleIdx x.1.handle) d) r

/-- The entries of killed entities, and the freed indices at the tail of the free list, ascending (25 R446). -/
def Rot.putFreed (ents : FMap SEnt) (r : Rot) : Rot :=
  let gone := ents.filter fun e => e.2.killed
  let freed := (gone.filter fun e => !e.2.retired).map Prod.fst
  let r := gone.foldl (fun (r : Rot) e =>
    let next := ((freed.find? fun j => e.1 < j)).getD 0
    r.putDir 0 e.1 { flags := if e.2.retired then 4 else 0, gen := e.2.gen, table := 0
                     row := if e.2.retired then 0 else next }) r
  match freed, r.freeEnd 136 with
  | [], _ => r
  | _ :: _, none => { r with bad := true }
  | f :: more, some tail =>
    let r := if tail = 0 then r.putField 0 132 4 f
      else match r.dir tail with
        | some d => r.putDir 0 tail { d with row := f }
        | none => { r with bad := true }
    r.putField 0 136 4 ((f :: more).getLast?.getD f)

/-- The status, the counts and, last, SYNCNO: its number and its stamp, when they can be written. -/
def Rot.close (status : Nat) (c : Counts) (r : Rot) : Rot × Nat :=
  let n := ((r.field 144 8).getD 0) + 1
  let r := (r.putField 0 188 4 status).putField 0 168 4 c.ok
  let r := (r.putField 0 172 4 c.stale).putField 0 176 4 c.pending
  let r := (r.putField 0 180 4 c.absent).putField 0 184 4 c.dead
  (r.putField r.hi 144 8 n, n)

/-- Publish a plan: every new version, the table descriptors, the directory, the free list, the queue pointer. -/
def Rot.publish (p : Plan) (r : Rot) : Rot :=
  let r := p.tabs.foldl (fun (r : Rot) t => r.putVersion t) r
  let r := p.tabs.foldl (fun (r : Rot) t => r.putTab t) r
  let r := r.putField 0 128 4 p.ntab
  let r := p.tabs.foldl (fun (r : Rot) t => r.putRows t) r
  (r.putFreed p.ents).putField 0 152 8 p.mark

/-! ## Queries and cursors (25 R454 to R456) -/

/-- The query in the bytes of a descriptor. -/
def parseQuery (b : List Byte) : Query :=
  { world := fieldN b 290 1, req := fieldN b 0 128, excl := fieldN b 128 128
    ret := (upto (fieldN b 288 2)).map fun i => fieldN b (256 + 2 * i) 2 }

/-- A query descriptor is refused: reserved bytes, NRET, entries past NRET, unregistered components. -/
def queryBad (s : State) (ctx : Nat) (b : List Byte) : Bool :=
  let q := parseQuery b
  let unreg (c : Nat) : Bool := 8 < compLog s ctx q.world c
  (b.drop 291).any (· ≠ 0) || 16 < q.ret.length ||
    ((upto 16).drop q.ret.length).any (fun i => fieldN b (256 + 2 * i) 2 ≠ 0) || q.ret.any unreg ||
    (upto 1024).any fun c => (q.req.testBit c || q.excl.testBit c) && unreg c

/-- Whether a table's mask matches a query. -/
def Query.matches (q : Query) (mask : Nat) : Bool := q.req &&& mask = q.req && q.excl &&& mask = 0

/-- How an opening ends: corrupt, no cursor, or the state, the number and the highest recorded CSTAMP of the pins. -/
inductive Opened where
  | corrupt
  | full
  | ok (s : State) (num stamp : Nat)
  deriving DecidableEq, Repr

/-- The lowest cursor number free in a world and not held by the cohort on another world of the context (26 R471). -/
def cursorNumber (s : State) (ctx n : Nat) (coh : Option Nat) : Option Nat :=
  let here := ((s.worlds.find (worldKey ctx n)).map World.cursors).getD []
  let others := (s.worlds.filter fun w => w.1 / 256 = ctx).flatMap fun w =>
    (w.2.cursors.filter fun c => coh.isSome && c.2.coh = coh).map Prod.fst
  (upto Config.cursorMax).find? fun k => (FMap.find here k).isNone && !others.contains k

/-- Open a cursor for a cohort, or for a query launch (25 R455). -/
def openCursor (s : State) (ctx n : Nat) (coh : Option Nat) (q : Query) : Opened :=
  match rotOf s ctx n with
  | none => .corrupt
  | some r =>
    match r.tabs, r.openCursors with
    | some tabs, some opened =>
      let pinned := tabs.filter fun t => q.matches t.mask
      match cursorNumber s ctx n coh with
      | none => .full
      | some k =>
        let r := pinned.foldl (fun (r : Rot) t => r.put 0 (r.geo.tabBase + 128 * t.num + 52) (leBytes 4 (t.ccur + 1))) r
        let r := r.putField 0 140 4 (opened + 1)
        if opened = Config.cursorMax then .full
        else if r.bad then .corrupt
        else
          let w := (FMap.find s.worlds (worldKey ctx n)).map World.cstamp |>.getD []
          .ok (r.s.modWorld (worldKey ctx n) fun x => { x with
              cursors := x.cursors.put k { coh, q, pins := pinned.map fun t => (t.num, t.version) } })
            k (pinned.foldl (fun a t => max a (FMap.getD 0 w t.num)) 0)
    | _, _ => .corrupt

/-- A chunk a cursor returns. -/
structure ChunkRef where
  table : Nat
  num : Nat
  version : Nat
  addr : Nat
  rows : Nat
  deriving DecidableEq, Repr

/-- The table, the map and the rows of a pinned version, current or previous, as its descriptor gives them now (25 R448). -/
def Rot.pinned (r : Rot) (p : Nat × Nat) : Option (Tab × Nat × Nat) := do
  let t ← r.tab p.1
  if t.version = p.2 then some (t, t.cmap, t.crows)
  else if t.version = p.2 + 1 then some (t, t.pmap, t.prows)
  else none

/-- Chunk `n` of those that pins return, in ascending table and chunk order: `none` is a corrupt read, `some none` no such
chunk (25 R455). -/
def Rot.nthChunk (r : Rot) (n : Nat) : List (Nat × Nat) → Option (Option ChunkRef)
  | [] => some none
  | p :: ps => do
    let (t, map, rows) ← r.pinned p
    if n < chunksFor rows then
      let addr ← r.chunk t map n
      some (some { table := p.1, num := n, version := p.2, addr, rows := min 256 (rows - 256 * n) })
    else r.nthChunk (n - chunksFor rows) ps

/-- How many chunks pins return. -/
def Rot.chunkCount (r : Rot) (ps : List (Nat × Nat)) : Option Nat :=
  (ps.mapM r.pinned).map fun l => (l.map fun x => chunksFor x.2.2).foldl (· + ·) 0

/-- The columns of a chunk's record: base of each returned column, or 0 (25 R456). -/
def Rot.colBases (r : Rot) (q : Query) (table addr : Nat) : Option (List Nat) := do
  let t ← r.tab table
  some (q.ret.map fun c => match t.cols.find? fun x => x.comp = c with
    | some x => addr + x.off
    | none => 0)

/-- The cursor record of a chunk. -/
def Rot.record (r : Rot) (q : Query) (cur : Nat) (c : ChunkRef) : Option (List Byte) := do
  let bases ← r.colBases q c.table c.addr
  some (leBytes 2 c.table ++ leBytes 2 q.ret.length ++ leBytes 4 c.rows ++ leBytes 8 c.version ++ leBytes 4 c.num ++
    leBytes 4 cur ++ leBytes 8 c.addr ++ padTo 128 (bases.flatMap fun b => leBytes 8 b) ++
    padTo 32 (q.ret.flatMap fun c => leBytes 2 c) ++
    padTo 16 (q.ret.flatMap fun c => leBytes 1 (compLog r.s r.ctx r.num c)) ++ leBytes 48 0)

end Sys2Proof.Machine
end

