-- ==== Sys2Proof/Machine/World.lean ====
section
/-! DEFINITION. Group 10 (26 R464 to R476): queuing changes, syncs, cursors and handle resolution; the completion of each
command; and Rotunda's own steps on a world (25 R442, R451 to R453). -/

namespace Sys2Proof.Machine

/-! ## Operands and checks (26 R464, R466) -/

/-- A world number, and a cursor number. -/
def worldOf (s : State) (c : Iss) (f : Fields) (w : Nat) : Nat := opSA s c f w % 256
def cursorOf (s : State) (c : Iss) (f : Fields) (w : Nat) : Nat := opSA s c f w % 1024
/-- A handle of a thread. -/
def handleOf (s : State) (c : Iss) (f : Fields) (w l : Nat) : Nat := (s.srcPair c.coh w l f.sa).toNat
/-- ORD, and the component of WADDC and WREMC. -/
def ordOf (f : Fields) : Nat := f.immBits 15 0
def compOf (f : Fields) : Nat := f.immBits 25 16
/-- The context of a group. -/
def Iss.ctx (c : Iss) (s : State) : Nat := (s.coh c.coh).ctx

/-- A world of the context is registered, DETAIL 61. -/
def worldGate (c : Iss) (n : Nat) (s : State) : Gate :=
  if (s.worlds.find (worldKey (c.ctx s) n)).isSome then .pass s else badOperand 61 0

/-- Changes of a thread that its warp's commands have still to append. -/
def changesOut (s : State) (coh w l : Nat) : Nat :=
  ((s.opsOf coh w).map fun e => match e.2.kind with
    | .eng (.queueChange cs _) => (cs.filter fun x => x.thread = 32 * w + l).length
    | _ => 0).foldl (fun a n => a + n) 0

/-- A thread's sequence count has room for one more, DETAIL 60. -/
def seqGate (c : Iss) (w l : Nat) (s : State) : Gate :=
  if 65536 ≤ (s.thread c.coh w l).seq + changesOut s c.coh w l then badOperand 60 0 else .pass s

/-- A component is registered in a world, DETAIL 64. -/
def compGate (c : Iss) (n comp : Nat) (s : State) : Gate :=
  if compLog s (c.ctx s) n comp ≤ 8 then .pass s else badOperand 64 0

/-- The guard-holding lanes of a warp, each checked in ascending order. -/
def laneGate (c : Iss) (f : Fields) (k : Nat → Nat → State → Gate) (w : Nat) (s : State) : Gate :=
  gateAll (c.lanesOn f s w) (k w) s

/-! ## Queuing changes (26 R467 to R469) -/

/-- How WADDC's value is read for an element of 2^log bytes: its kind suits, DETAIL 65. -/
def valueKind (o : Operand) (log : Nat) : Bool :=
  if log ≤ 2 then o.kind = .vec || o.kind = .scalar || o.kind = .imm || o.kind = .karg
  else if log = 3 then (o.kind = .vec && o.idx.toNat % 2 = 0) || o.kind = .scalar || o.kind = .karg
  else o.kind = .vec || o.kind = .scalar

/-- The scratchpad offset of a value of 16 bytes or more. -/
def valueOff (s : State) (c : Iss) (f : Fields) (w l : Nat) : Nat := (s.srcV c.coh w l f.sb).toNat

/-- The bytes of a thread's value. -/
def valueOf (s : State) (c : Iss) (f : Fields) (w l log : Nat) : List Byte :=
  if log ≤ 2 then leBytes (2 ^ log) (s.srcV c.coh w l f.sb).toNat
  else if log = 3 then leBytes 8 (s.srcPair c.coh w l f.sb).toNat
  else (s.coh c.coh).readSpL (valueOff s c f w l) (2 ^ log)

/-- A thread's value is read from scratchpad bytes that hold an uncorrectable soft error (14 R245). -/
def valueSoft (s : State) (c : Iss) (f : Fields) (w l log : Nat) : Bool :=
  4 ≤ log && log ≤ 8 && (s.coh c.coh).scratchBad.any fun a => valueOff s c f w l ≤ a && a < valueOff s c f w l + 2 ^ log

/-- The second register of an 8-byte vector value is read too: it must not be pending or marked (02 R41, R42). -/
def valueRegs (c : Iss) (f : Fields) (w : Nat) (lanes : List Nat) (s : State) : Gate :=
  let us := usesOf { f.sb with idx := f.sb.idx + 1 } 1
  if pendingMeets s c.coh w us (laneMask lanes) then .hold s
  else match poisonMet (s.warp c.coh w) us lanes with
    | some p => .trap p.trapRec
    | none => .pass s

/-- The value checks of a thread's WADDC. An argument of 8 bytes is read in a scalar position, whose index must be even:
check 5, judged once the element's size is known (02 R32, R48; 26 R469). -/
def valueGate (c : Iss) (f : Fields) (n w l : Nat) (s : State) : Gate :=
  let log := compLog s (c.ctx s) n (compOf f)
  if !valueKind f.sb log then badOperand 65 0
  else if log = 3 && f.sb.kind = .karg && f.sb.idx.toNat % 2 = 1 then .trap { code := 1, detail := 5 }
  else if log = 3 && f.sb.kind = .vec then valueRegs c f w [l] s
  else if log < 4 then .pass s
  else (alignGate 4 (valueOff s c f w l) s).andThen (rangeGate c (valueOff s c f w l) (2 ^ log))

/-- The checks of a thread of a queuing command on a world: those on the world's state are left out once it has
failed. -/
def changeGate (c : Iss) (f : Fields) (op n w l : Nat) (s : State) : Gate :=
  (worldGate c n s).andThen fun s =>
    if worldFailed s (c.ctx s) n then .pass s
    else (seqGate c w l s).andThen fun s =>
      if op < 2 then .pass s
      else (compGate c n (compOf f) s).andThen fun s => if op = 2 then valueGate c f n w l s else .pass s

/-- The world a thread's change goes to. -/
def changeWorld (s : State) (c : Iss) (f : Fields) (op w l : Nat) : Nat :=
  if op = 0 then worldOf s c f w else handleWorld (handleOf s c f w l)

/-- The change of a thread; its sequence number is given when it is appended. -/
def changeOf (s : State) (c : Iss) (f : Fields) (op w l : Nat) : Change :=
  let n := changeWorld s c f op w l
  { world := n, op, comp := if op < 2 then 0 else compOf f, ord := ordOf f, coh := (s.coh c.coh).cidx, thread := 32 * w + l
    seq := 0, handle := if op = 0 then 0 else handleOf s c f w l
    value := if op = 2 && !worldFailed s (c.ctx s) n then valueOf s c f w l (compLog s (c.ctx s) n (compOf f)) else [] }

/-- A warp's WADDC reads a value that holds an uncorrectable soft error: its future reports CODE 4, and nothing is appended (14
R245, 26 R465; DEDUCED, log 26). -/
def changesSoft (s : State) (c : Iss) (f : Fields) (op w : Nat) : Bool :=
  op = 2 && (c.lanesOn f s w).any fun l =>
    let n := changeWorld s c f op w l
    !worldFailed s (c.ctx s) n && valueSoft s c f w l (compLog s (c.ctx s) n (compOf f))

/-- A queuing instruction: op 0 SPAWN, 1 KILL, 2 ADDC, 3 REMC. -/
def issueChange (i : Instr) (op : Nat) (f : Fields) (s : State) : Host.Outcome State Fault Refusal :=
  issue i f
    (fun c s => engGate c f
      (fun w s => laneGate c f (fun w l s => changeGate c f op (changeWorld s c f op w l) w l s) w s) (fun _ _ => []) true s)
    (fun c s => leaveNext c f.bnd (perWarp c f s (fun w t =>
      let lanes := c.lanesOn f s w
      let cmd := EngCmd.queueChange (lanes.map fun l => changeOf s c f op w l)
        (if op = 0 then some f.sb.idx.toNat else none)
      (startEng c w f.dst (if op = 0 then usesOf f.sb 2 else []) (laneMask lanes) cmd t).modOp t.nextOp fun o =>
        { o with soft := changesSoft s c f op w }) s)) s

/-- WSPAWN, WKILL, WADDC, WREMC. -/
def execWspawn (f : Fields) (s : State) : Host.Outcome State Fault Refusal := issueChange (.wspawn f) 0 f s
def execWkill (f : Fields) (s : State) : Host.Outcome State Fault Refusal := issueChange (.wkill f) 1 f s
def execWaddc (f : Fields) (s : State) : Host.Outcome State Fault Refusal := issueChange (.waddc f) 2 f s
def execWremc (f : Fields) (s : State) : Host.Outcome State Fault Refusal := issueChange (.wremc f) 3 f s

/-- Write a pair of vector registers of a lane. -/
def writePair (coh w reg l v : Nat) (s : State) : State :=
  if reg = 255 then s
  else (s.writeV coh w reg l (BitVec.ofNat 32 v)).writeV coh w (reg + 1) l (BitVec.ofNat 32 (v / 2 ^ 32))

/-- How a world's part of a queuing command ends. -/
inductive Queued where
  | corrupt
  | full
  | ok (s : State) (changes : List Change) (hi : Nat)
  deriving DecidableEq, Repr

/-- Reserve the indices of spawns, in order. -/
def Rot.reserveAll : List Change → Rot → Option (Option (Rot × List Change))
  | [], r => some (some (r, []))
  | c :: cs, r =>
    if c.op ≠ 0 then
      (Rot.reserveAll cs r).map fun x => x.map fun y => (y.1, c :: y.2)
    else match r.reserve with
      | none => none
      | some none => some none
      | some (some (r, h)) => (Rot.reserveAll cs r).map fun x => x.map fun y => (y.1, { c with handle := h } :: y.2)

/-- Append the changes of one world: all or nothing. -/
def queueOn (s : State) (ctx n : Nat) (cs : List Change) : Queued :=
  match rotOf s ctx n with
  | none => .corrupt
  | some r =>
    match r.room ((cs.map Change.entries).foldl (fun a k => a + k) 0), Rot.reserveAll cs r with
    | none, _ | _, none => .corrupt
    | some false, _ | some true, some none => .full
    | some true, some (some (r, cs)) =>
      let r := r.append cs
      if r.bad then .corrupt
      else
        let tail := match rotOf r.s ctx n with
          | some r => match translateDev r.s ctx (r.geo.desc + 160) .read with
            | .ok k => (r.s.home (lineOf k)).1
            | .fault _ | .hole => 0
          | none => 0
        .ok r.s cs tail

/-- Number the changes of a command: each thread's next sequence number. -/
def numberChanges (s : State) (coh w : Nat) (cs : List Change) : List Change :=
  cs.map fun c => { c with seq := (s.thread coh w (c.thread % 32)).seq % 65536 }

/-- Append the changes of a command to their worlds, in ascending world order. -/
def queueAll (s : State) (ctx : Nat) (live : List Change) : Queued :=
  (sortedNats (live.map Change.world)).foldl (fun (a : Queued) n => match a with
    | .ok s out hi => match queueOn s ctx n (live.filter fun c => c.world = n) with
      | .ok s' cs' hi' => .ok s' (out ++ cs') (max hi hi')
      | .corrupt => .corrupt
      | .full => .full
    | .corrupt => .corrupt
    | .full => .full) (.ok s [] 0)

/-- A queuing command completes (26 R467): nothing or every entry is appended; threads of a failed world append nothing. -/
def runChange (id : Nat) (o : Op) (cs : List Change) (vh : Option Nat) (s : State) : State :=
  let ctx := (s.coh o.coh).ctx
  let failed (n : Nat) : Bool := worldFailed s ctx n
  let live := numberChanges s o.coh o.warp (cs.filter fun c => !failed c.world)
  let outs (s : State) (h : Change → Nat) : State := match vh with
    | some v => forEach cs (fun c => writePair o.coh o.warp v (c.thread % 32) (h c)) s
    | none => s
  let first := (cs.head?.map fun c => failed c.world).getD false
  match queueAll s ctx live with
  | .corrupt => finishEng id o 0 7 0 { s := outs s fun _ => 0 }
  | .full => finishEng id o 0 (if first then 7 else 4) 0 { s := outs s fun _ => 0 }
  | .ok t done hi =>
    let t := forEach done (fun c => State.modThread o.coh o.warp (c.thread % 32) fun x => { x with seq := x.seq + 1 }) t
    let t := outs t fun c => ((done.find? fun d => d.thread = c.thread).map Change.handle).getD 0
    finishEng id o ((done.map Change.entries).foldl (fun a k => a + k) 0) (if first then 7 else 0) 0 { s := t, hi }

/-! ## WSYNC (26 R470) -/

/-- A warp's WSYNC arrives at Rotunda. -/
def startWsync (f : Fields) (c : Iss) (w : Nat) (a : State × List Nat) : State × List Nat :=
  let (s, ids) := a
  let id := s.nextOp
  let key := worldKey (c.ctx s) (worldOf s c f w)
  ((s.addOp { kind := .wsync key f.dst.idx.toNat false, coh := c.coh, warp := w, core := c.core, pc := c.pc, ths := c.ths
              busy := false, dests := destsOf (usesOf f.dst 1) 0 }).modWorld key fun x => { x with syncs := x.syncs ++ [id] },
    ids ++ [id])

/-- WSYNC (26 R470). -/
def execWsync (f : Fields) (s : State) : Host.Outcome State Fault Refusal :=
  issue (.wsync f) f
    (fun c s => engGate c f (fun w s => worldGate c (worldOf s c f w) s) (fun _ _ => []) true s)
    (fun c s =>
      let (s, ids) := (c.warpsOn f s).foldl (fun a w => startWsync f c w a) (s, [])
      leaveBlocked c ids false s) s

/-- The word a WSYNC returns, and the view. -/
def endWsync (id status no stamp : Nat) (s : State) : State :=
  match s.ops.find id with
  | some { kind := .wsync _ dst _, coh, warp, .. } =>
    completeOp id ((s.writeS coh warp dst (BitVec.ofNat 64 (no % 2 ^ 32 * 2 ^ 32 + status))).raiseView coh warp stamp)
  | _ => s

/-- A command of the same warp to a world arrived earlier and has not completed. -/
def earlierOnWorld (s : State) (coh w key id : Nat) : Bool :=
  (s.opsOf coh w).any fun e => e.1 < id && match e.2.kind with
    | .eng (.queueChange cs _) => cs.any fun c => worldKey (s.coh coh).ctx c.world = key
    | .eng (.wqry n _) | .eng (.wnext n _ _) | .eng (.wclose n _) => worldKey (s.coh coh).ctx n = key
    | .eng (.wres hs _) | .eng (.wcol hs _ _) => hs.any fun h => worldKey (s.coh coh).ctx (handleWorld h.2) = key
    | _ => false

/-- SYNCNO, which a value of no one's choosing stands for where it cannot be read (log 67). -/
def syncNumber (w : World) (ctx : Nat) (s : State) : State × Nat :=
  match w.geo.number s ctx (w.geo.desc + 144) 8 with
  | some n => (s, n)
  | none => ({ s with free := s.free + 1 }, Config.freeValue s.free)

/-- The running sync of a world, or the oldest that waits, is over. -/
def dropSync (key : Nat) (s : State) : State := s.modWorld key fun x => { x with syncs := x.syncs.drop 1, mark := none }

/-- A sync ends CORRUPT: the world has failed; FAILED, the status, the counts and SYNCNO are written where the descriptor
can be (25 R449, R451). -/
def corruptSync (w : World) (ctx n id : Nat) (c : Counts) (s : State) : State :=
  let key := worldKey ctx n
  let (s, no) := syncNumber w ctx (dropSync key (s.modWorld key fun x => { x with failed := true }))
  let r : Rot := { s, ctx, num := n, geo := w.geo, reg := w.geo }
  let r := ((r.putField 0 122 1 1).close 7 c).1
  endWsync id 7 (if r.bad then no else no + 1) r.hi r.s

/-- A sync ends NOSPACE: the status, counts of zero, SYNCNO (25 R451). -/
def noSpaceSync (w : World) (id : Nat) (r : Rot) (s : State) : State :=
  let (t, no) := r.close 5 {}
  if t.bad then corruptSync w r.ctx r.num id {} s else endWsync id 5 no t.hi (dropSync (worldKey r.ctx r.num) t.s)

/-- SYNC_START (25 R451): the oldest sync that has arrived starts: its mark, its order and its check of space. A sync whose
warp is gone still runs; one of a failed world returns at once. -/
def execSyncStart (ctx world : Nat) (s : State) : Host.Outcome State Fault Refusal :=
  let key := worldKey ctx world
  match s.worlds.find key with
  | none => .next s
  | some w =>
    match w.mark, w.syncs with
    | none, id :: _ =>
      if (FMap.find s.ops id).any fun o => earlierOnWorld s o.coh o.warp key id then .next s
      else match rotOf s ctx world with
        | none =>
          if w.failed then
            let (s, no) := syncNumber w ctx s
            .next (dropSync key (endWsync id 7 no 0 s))
          else .next (corruptSync w ctx world id {} s)
        | some r =>
          if worldFailed s ctx world then .next (dropSync key (endWsync id 7 ((r.field 144 8).getD 0) 0 s))
          else
            let mark := (r.field 160 8).getD 0
            match r.plan mark with
            | .noSpace => .next (noSpaceSync w id r s)
            | .corrupt | .ok _ =>
              .next ((s.modWorld key fun x => { x with mark := some mark }).modOp id fun o =>
                { o with kind := match o.kind with
                    | .wsync k d _ => .wsync k d true
                    | k => k })
    | _, _ => .next s

/-- The CSTAMP fields of the changed tables, written after SYNCNO under higher stamps (25 R452). -/
def Rot.putStamps (tabs : List NewTab) (stamp : Nat) (r : Rot) : Rot :=
  tabs.foldl (fun r t => r.put (stamp + 1) (r.geo.tabBase + 128 * t.num + 24) (leBytes 8 stamp)) r

/-- A sync that does not stall applies its entries, publishes and returns; a SPAWN of an entry that is not PENDING, or a
structure that cannot be written, ends it CORRUPT (25 R451, R452). -/
def finishSync (w : World) (id : Nat) (r : Rot) (p : Plan) (s : State) : State :=
  match p.fail with
  | some c => corruptSync w r.ctx r.num id c s
  | none =>
    let r1 := r.publish p
    if r1.bad then corruptSync w r.ctx r.num id p.counts r1.s
    else
      let (r2, no) := r1.close 0 p.counts
      if r2.bad then corruptSync w r.ctx r.num id p.counts r2.s
      else
        let key := worldKey r.ctx r.num
        let s := (r2.putStamps p.tabs r2.hi).s.modWorld key fun x => { x with
          cstamp := p.tabs.foldl (fun m t => FMap.put t.num r2.hi m) x.cstamp, syncStamp := r2.hi }
        endWsync id 0 no r2.hi (dropSync key s)

/-- SYNC_STALL_RELEASE (25 R451 to R453): once no table the sync changes has an open previous version, the sync goes on. One
whose descriptor is out of form ends CORRUPT (R444). -/
def execSyncStallRelease (ctx world : Nat) (s : State) : Host.Outcome State Fault Refusal :=
  match s.worlds.find (worldKey ctx world) with
  | none => .next s
  | some w =>
    match w.mark, w.syncs with
    | some mark, id :: _ =>
      match rotOf s ctx world with
      | none => .next (corruptSync w ctx world id {} s)
      | some r =>
        match r.plan mark with
        | .corrupt => .next (corruptSync w ctx world id {} s)
        | .noSpace => .next (noSpaceSync w id r s)
        | .ok p => .next (if p.stall then s else finishSync w id r p s)
    | _, _ => .next s

/-! ## Cursors (26 R471 to R473) -/

/-- The checks of a warp's WQRY. -/
def queryGate (c : Iss) (f : Fields) (w : Nat) (s : State) : Gate :=
  let va := opSA s c f w
  if va % 64 ≠ 0 then misaligned 6 va
  else (readGate c w (va, 512) s).andThen fun s =>
    let (s, b) := warpRead c w 0 va 512 s
    let n := (parseQuery b).world
    (worldGate c n s).andThen fun s =>
      if !worldFailed s (c.ctx s) n && queryBad s (c.ctx s) b then badOperand 62 va else .pass s

/-- WQRY (26 R471). -/
def execWqry (f : Fields) (s : State) : Host.Outcome State Fault Refusal :=
  issue (.wqry f) f
    (fun c s => engGate c f (queryGate c f) (fun s w => [(opSA s c f w, 512)]) false s)
    (fun c s => leaveNext c f.bnd (perWarp c f s (fun w t =>
      let (t, b) := warpRead c w 0 (opSA s c f w) 512 t
      startPlain c f w (.wqry (parseQuery b).world (parseQuery b)) t) s)) s

/-- WQRY completes. -/
def runWqry (id : Nat) (o : Op) (n : Nat) (q : Query) (s : State) : State :=
  let ctx := (s.coh o.coh).ctx
  if worldFailed s ctx n then finishEng id o 0 7 0 { s }
  else match openCursor s ctx n (some o.coh) q with
    | .corrupt => finishEng id o 0 7 0 { s }
    | .full => finishEng id o 0 4 0 { s }
    | .ok s k stamp => finishEng id o k 0 0 { s, rd := stamp }

/-- The world on which a cohort's cursor of a number is open; a cursor whose WCLOSE is accepted is not (26 R476). -/
def cursorWorld (s : State) (ctx coh cur : Nat) : Option Nat :=
  (s.worlds.find? fun w => w.1 / 256 = ctx && (FMap.find w.2.cursors cur).any (fun x => x.coh = some coh) &&
    !(s.ops.any fun e => e.2.coh = coh && e.2.kind = .eng (.wclose (w.1 % 256) cur))).map fun w => w.1 % 256

/-- The cursor a warp names is the cohort's, DETAIL 63. -/
def cursorGate (c : Iss) (f : Fields) (w : Nat) (s : State) : Gate :=
  if (cursorWorld s (c.ctx s) c.coh (cursorOf s c f w)).isSome then .pass s else badOperand 63 0

/-- WNEXT (26 R472). -/
def execWnext (f : Fields) (s : State) : Host.Outcome State Fault Refusal :=
  issue (.wnext f) f
    (fun c s => engGate c f (fun w s =>
      (alignGate 6 (lo32 (opSB s c f w)) s).andThen fun s =>
        (rangeGate c (lo32 (opSB s c f w)) 256 s).andThen (cursorGate c f w)) (fun _ _ => []) false s)
    (fun c s => leaveNext c f.bnd (perWarp c f s (fun w t =>
      let cur := cursorOf s c f w
      startPlain c f w (.wnext ((cursorWorld s (c.ctx s) c.coh cur).getD 0) cur (lo32 (opSB s c f w))) t) s)) s

/-- WNEXT completes: the record of the cursor's next chunk, which its pinned versions' structures give as they stand (25
R444). -/
def runWnext (id : Nat) (o : Op) (n cur off : Nat) (s : State) : State :=
  let ctx := (s.coh o.coh).ctx
  if worldFailed s ctx n then finishEng id o 0 7 0 { s }
  else match (FMap.find s.worlds (worldKey ctx n)).bind fun w => FMap.find w.cursors cur, rotOf s ctx n with
    | some x, some r => match r.nthChunk x.taken x.pins with
      | some none => finishEng id o 0 0 0 { s }
      | none => finishEng id o 0 7 0 { s }
      | some (some ch) => match r.record x.q cur ch with
        | none => finishEng id o 0 7 0 { s }
        | some b =>
          let s := (s.modCoh o.coh (Cohort.writeSpL off b)).modWorld (worldKey ctx n) fun w => { w with
            cursors := FMap.put cur { x with taken := x.taken + 1 } w.cursors }
          finishEng id o 1 0 0 { s }
    | _, _ => finishEng id o 0 7 0 { s }

/-- WCLOSE (26 R473). -/
def execWclose (f : Fields) (s : State) : Host.Outcome State Fault Refusal :=
  issue (.wclose f) f
    (fun c s => engGate c f (cursorGate c f) (fun _ _ => []) false s)
    (fun c s => leaveNext c f.bnd (perWarp c f s (fun w t =>
      let cur := cursorOf s c f w
      startPlain c f w (.wclose ((cursorWorld s (c.ctx s) c.coh cur).getD 0) cur) t) s)) s

/-- WCLOSE completes; where a count of its pins cannot be lowered it is CORRUPT, and the cursor stays open (25 R444). -/
def runWclose (id : Nat) (o : Op) (n cur : Nat) (s : State) : State :=
  let ctx := (s.coh o.coh).ctx
  if worldFailed s ctx n then finishEng id o 0 7 0 { s }
  else match closeCursor? (worldKey ctx n) cur s with
    | some s => finishEng id o 0 0 0 { s }
    | none => finishEng id o 0 7 0 { s }

/-! ## Resolving handles (26 R474, R475) -/

/-- WRES (26 R474). -/
def execWres (f : Fields) (s : State) : Host.Outcome State Fault Refusal :=
  issue (.wres f) f
    (fun c s => engGate c f (fun w s =>
      (alignGate 4 (lo32 (opSB s c f w)) s).andThen fun s => (rangeGate c (lo32 (opSB s c f w)) 512 s).andThen
        (laneGate c f (fun w l s => worldGate c (handleWorld (handleOf s c f w l)) s) w)) (fun _ _ => []) false s)
    (fun c s => leaveNext c f.bnd (perWarp c f s (fun w t =>
      startPlain c f w (.wres ((c.lanesOn f s w).map fun l => (l, handleOf s c f w l)) (lo32 (opSB s c f w))) t) s)) s

/-- The answer to a handle: status, row, table, version. -/
def answerHandle (s : State) (ctx h : Nat) : Nat × Nat × Option Tab :=
  let n := handleWorld h
  if worldFailed s ctx n then (7, 0, none)
  else match rotOf s ctx n with
    | none => (7, 0, none)
    | some r => match r.resolve h with
      | none => (7, 0, none)
      | some (0, d) => match r.tab d.table with
        | some t => if d.row < t.crows then (0, d.row, some t) else (7, 0, none)
        | none => (7, 0, none)
      | some (st, _) => (st, 0, none)

/-- The stamp of the last publication of the worlds that handles name. -/
def pubStamp (s : State) (ctx : Nat) (hs : List (Nat × Nat)) : Nat :=
  hs.foldl (fun a h => max a (((FMap.find s.worlds (worldKey ctx (handleWorld h.2))).map World.syncStamp).getD 0)) 0

/-- WRES completes. -/
def runWres (id : Nat) (o : Op) (hs : List (Nat × Nat)) (off : Nat) (s : State) : State :=
  let ctx := (s.coh o.coh).ctx
  let as_ := hs.map fun h => (h.1, answerHandle s ctx h.2)
  let t := forEach as_ (fun a => State.modCoh o.coh (Cohort.writeSpL (off + 16 * a.1)
    (leBytes 4 a.2.2.1 ++ leBytes 1 a.2.1 ++ leBytes 1 0 ++ leBytes 2 ((a.2.2.2.map Tab.num).getD 0) ++
      leBytes 8 ((a.2.2.2.map Tab.version).getD 0)))) s
  finishEng id o ((as_.filter fun a => a.2.1 = 0).length) ((as_.head?.map fun a => a.2.1).getD 0) 0
    { s := t, rd := pubStamp s ctx hs }

/-- WCOL (26 R475). -/
def execWcol (f : Fields) (s : State) : Host.Outcome State Fault Refusal :=
  issue (.wcol f) f
    (fun c s => engGate c f (laneGate c f (fun w l s =>
      let n := handleWorld (handleOf s c f w l)
      (worldGate c n s).andThen fun s =>
        if worldFailed s (c.ctx s) n then .pass s else compGate c n (f.immBits 9 0) s)) (fun _ _ => []) false s)
    (fun c s => leaveNext c f.bnd (perWarp c f s (fun w t =>
      let lanes := c.lanesOn f s w
      startEng c w f.dst (usesOf f.sb 2) (laneMask lanes)
        (.wcol (lanes.map fun l => (l, handleOf s c f w l)) (f.immBits 9 0) f.sb.idx.toNat) t) s)) s

/-- The status and the address of a component of a handle's entity. -/
def columnOf (s : State) (ctx h comp : Nat) : Nat × Nat :=
  match answerHandle s ctx h with
  | (0, row, some t) => match t.cols.find? fun c => c.comp = comp with
    | none => (6, 0)
    | some c => match (rotOf s ctx (handleWorld h)).bind fun r => r.chunk t t.cmap (row / 256) with
      | some a => (0, a + c.off + row % 256 * 2 ^ c.log)
      | none => (7, 0)
  | (st, _, _) => (st, 0)

/-- WCOL completes. -/
def runWcol (id : Nat) (o : Op) (hs : List (Nat × Nat)) (comp vd : Nat) (s : State) : State :=
  let ctx := (s.coh o.coh).ctx
  let as_ := hs.map fun h => (h.1, columnOf s ctx h.2 comp)
  let t := forEach as_ (fun a => writePair o.coh o.warp vd a.1 a.2.2) s
  finishEng id o ((as_.filter fun a => a.2.1 = 0).length) ((as_.head?.map fun a => a.2.1).getD 0) 0
    { s := t, rd := pubStamp s ctx hs }

/-- The world keys a command names, for the order of one warp's commands (26 R465). -/
def EngCmd.worldKeys (ctx : Nat) : EngCmd → List Nat
  | .queueChange cs _ => cs.map fun c => worldKey ctx c.world
  | .wqry n _ | .wnext n _ _ | .wclose n _ => [worldKey ctx n]
  | .wres hs _ | .wcol hs _ _ => hs.map fun h => worldKey ctx (handleWorld h.2)
  | _ => []

/-- A world command's turn at Rotunda: earlier commands of its warp to its worlds come first, and a WCLOSE follows the
WNEXTs accepted before it (26 R465, R473). -/
def worldTurn (s : State) (id : Nat) (o : Op) (c : EngCmd) : Bool :=
  !((c.worldKeys (s.coh o.coh).ctx).any fun k => earlierOnWorld s o.coh o.warp k id) &&
    match c with
    | .wclose n cur => !(s.ops.any fun e => e.1 < id && e.2.coh = o.coh && match e.2.kind with
      | .eng (.wnext m k _) => m = n && k = cur
      | _ => false)
    | _ => true

/-! ## Registration (25 R442, R443) -/

/-- A descriptor in range. -/
def worldGood (addr : Nat) (b ct : List Byte) : Bool :=
  addr % 256 = 0 && (b.drop 192).all (· = 0) && fieldN b 123 1 = 0 && (geoOf addr b).good && ct.length = 1024 &&
    ct.all fun x => x.toNat ≤ 8 || x = 0xFF

/-- The fields Rotunda writes at registration, and table 0. -/
def Rot.create (r : Rot) : Option Rot :=
  (firstFit (r.geo.pools.headD (0, 0)) [] 128).map fun a =>
    let r := (r.putField 0 121 1 r.num).putField 0 122 1 0
    let r := r.put 0 (r.geo.desc + 124) (leBytes 4 1 ++ leBytes 4 1 ++ leBytes 12 0 ++ leBytes 48 0)
    (r.put 0 a (leBytes 128 0)).putTab { num := 0, old := none, cols := [], chunkb := 2048, rows := [], block := a }

/-- WORLD_REGISTRATION (25 R442): a refused registration changes nothing. -/
def execWorldRegistration (ctx world addr : Nat) (s : State) : Host.Outcome State Fault Refusal :=
  if addr = 0 || 256 ≤ world || (s.worlds.find (worldKey ctx world)).isSome || (s.ctxs.find ctx).isNone then .next s
  else match s.readVirt ctx addr 256 with
    | none => .next s
    | some b => match s.readVirt ctx (fieldN b 16 8) 1024 with
      | none => .next s
      | some ct =>
        if !worldGood addr b ct then .next s
        else match Rot.create { s, ctx, num := world, geo := geoOf addr b, reg := geoOf addr b } with
          | none => .next s
          | some r =>
            if r.bad then .next s
            else .next { r.s with
              worlds := r.s.worlds.put (worldKey ctx world) { geo := r.geo, comptab := ct.map BitVec.toNat } }

/-- WORLD_DEREGISTRATION (25 R442). -/
def execWorldDeregistration (ctx world : Nat) (s : State) : Host.Outcome State Fault Refusal :=
  .next (s.modWorld (worldKey ctx world) fun w => { w with dereg := true })

/-- DEREGISTRATION_EFFECT (25 R442): no cursor open, no sync running or arrived, no command at work on the world. -/
def execDeregistrationEffect (ctx world : Nat) (s : State) : Host.Outcome State Fault Refusal :=
  let key := worldKey ctx world
  match s.worlds.find key with
  | none => .next s
  | some w =>
    let busy := s.ops.any fun e => (s.coh e.2.coh).ctx = ctx && match e.2.kind with
      | .eng c => (c.worldKeys ctx).contains key
      | _ => false
    if w.dereg && w.cursors.isEmpty && w.mark.isNone && w.syncs.isEmpty && !busy then
      .next { s with worlds := s.worlds.del key }
    else .next s

end Sys2Proof.Machine
end

