-- ==== Sys2Proof/Machine/Belfry.lean ====
section
/-! DEFINITION. Belfry (22 R393 to R412; 03 R80, R81): accepting launches, node bins and their batches, task blocks,
residency and placement, and the end of a task. -/

namespace Sys2Proof.Machine

/-- Belfry's write of bytes at a context's addresses; an address that cannot be written is skipped. -/
def devPut (ctx va : Nat) (bs : List Byte) (s : State) : State :=
  forEach (chunksOf va bs.length) (fun ch s => match translateDev s ctx ch.1 .write with
    | .ok k =>
      let (s, _) := s.homeStore (lineOf k) 0 0 (cellsOfL k ((bs.drop (ch.1 - va)).take ch.2))
      fireMonitors (lineOf k) s
    | .fault _ | .hole => s) s

/-! ## Kernel descriptors and the fit of a cohort (03 R80, 04 R89) -/

/-- The kernel in the bytes of a descriptor, when it has no fault. -/
def parseKernel (b : List Byte) : Option Kernel :=
  let k : Kernel :=
    { entry := BitVec.ofNat 32 (fieldN b 0 4), vregs := fieldN b 8 2, stages := fieldN b 10 1, warps := fieldN b 11 1
      tx := fieldN b 12 2, ty := fieldN b 14 2, tz := fieldN b 16 2, scratch := fieldN b 18 4
      energy := fieldN b 24 8, codebase := BitVec.ofNat 64 (fieldN b 32 8) }
  if 8 ≤ k.vregs && k.vregs ≤ 256 && k.vregs % 8 = 0 && 1 ≤ k.stages && k.stages ≤ 16 && 1 ≤ k.warps && k.warps ≤ 32 &&
      k.tx * k.ty * k.tz = 32 * k.warps && k.scratch % 4096 = 0 && k.scratch ≤ 1310720 && fieldN b 32 8 % 4096 = 0 &&
      fieldN b 22 2 = 0 && fieldN b 44 4 = 0 && fieldN b 48 16 = 0 then some k else none

/-- The kernel a descriptor address names. -/
def kernelAt (s : State) (ctx kdesc : Nat) : Option Kernel :=
  if kdesc % 64 ≠ 0 then none else (s.readVirt ctx kdesc 64).bind parseKernel

/-- What a cohort needs of a core: warp slots, vector units, scratchpad units. -/
structure Needs where
  warps : Nat
  vector : Nat
  scratch : Nat
  deriving DecidableEq, Repr

/-- The needs of a kernel's cohort, and of a cohort as it stands. -/
def Kernel.needs (k : Kernel) : Needs := ⟨k.warps, k.warps * (k.vregs / 8), k.scratch / 4096⟩
def Cohort.needs (h : Cohort) : Needs :=
  let live := h.warps.filter fun w => !w.retired
  ⟨live.length, live.foldl (fun a w => a + w.alloc / 8) 0, h.scratchSize / 4096⟩

/-- What a core has free. -/
def freeOf (s : State) (core : Nat) : Needs :=
  let here := (s.cohorts.filter fun e => e.2.core = core && e.2.status = .resident).map fun e => e.2.needs
  ⟨Config.warpSlots - here.foldl (fun a n => a + n.warps) 0, freeVectorUnits s core,
   Config.scratchUnits - here.foldl (fun a n => a + n.scratch) 0⟩

/-- Needs fit. -/
def Needs.fits (n free : Needs) : Bool := n.warps ≤ free.warps && n.vector ≤ free.vector && n.scratch ≤ free.scratch
/-- One cohort fits an empty core. -/
def Needs.fitsCore (n : Needs) : Bool := n.fits ⟨Config.warpSlots, Config.vectorUnits, Config.scratchUnits⟩

/-! ## Tile lists (22 R403) -/

/-- The references of a tile list of 64 bytes. -/
def parseTiles (b : List Byte) : List TileRef :=
  (upto 4).map fun j =>
    { gaddr := fieldN b (16 * j) 8, gcount := fieldN b (16 * j + 8) 4, weight := fieldN b (16 * j + 12) 2 }

/-- Reference `j` of a list is well formed. -/
def tileGood (b : List Byte) (j : Nat) : Bool :=
  let g := fieldN b (16 * j) 8
  let n := fieldN b (16 * j + 8) 4
  if fieldN b (16 * j + 14) 2 ≠ 0 then false
  else if fieldN b (16 * j + 12) 2 = 0 then g = 0 && n = 0
  else 1 ≤ n && n ≤ 2 ^ 20 && g % 16384 = 0

/-- The list as placement uses it: malformed references are unused. -/
def usableTiles (b : List Byte) : List TileRef :=
  (parseTiles b).zipIdx.map fun t => if tileGood b t.2 then t.1 else { gaddr := 0, gcount := 0, weight := 0 }

/-- The bytes of a tile list. -/
def tileBytes (l : List TileRef) : List Byte :=
  padTo 64 (l.flatMap fun t => leBytes 8 t.gaddr ++ leBytes 4 t.gcount ++ leBytes 2 t.weight ++ leBytes 2 0)

/-! ## Accepting a launch (22 R395, R399 to R402, R406) -/

/-- A field of a launch record breaks R399 (status 3). -/
def recordBad (s : State) (ctx : Nat) (b : List Byte) : Bool :=
  let flags := fieldN b 22 2
  let tiles := flags % 2 = 1
  let query := flags / 2 % 2 = 1
  let size (n : Nat) : Bool := 1 ≤ n && n ≤ 2 ^ 20
  let stages := fieldN b 20 1
  let template := if tiles then (upto 4).all (tileGood (b.drop 64))
    else if query then fieldN b 72 56 = 0 else fieldN b 64 64 = 0
  !(size (fieldN b 8 4) && size (fieldN b 12 4) && size (fieldN b 16 4) && 1 ≤ stages && stages ≤ 16) ||
    31 < fieldN b 21 1 || 4 ≤ flags || (tiles && query) || fieldN b 56 8 ≠ 0 || !template ||
    fieldN b 32 8 % 8 ≠ 0 || fieldN b 40 8 % 8 ≠ 0 ||
    (fieldN b 32 8 ≠ 0 && (s.readVirt ctx (fieldN b 32 8) 2048).isNone) ||
    2 ^ 40 < fieldN b 8 4 * fieldN b 12 4 * fieldN b 16 4 * stages ||
    (query && !s.hasCap (fnOf ctx) 1) || ((tiles || query) && (s.ctx ctx).ovfsize = 0)

/-- The query of a launch record: read and in range, on a registered world (log 31). -/
def launchQuery (s : State) (ctx va : Nat) : Option Query :=
  if va % 64 ≠ 0 then none
  else match s.readVirt ctx va 512 with
    | none => none
    | some b =>
      let q := parseQuery b
      if (s.worlds.find (worldKey ctx q.world)).isNone || queryBad s ctx b || worldFailed s ctx q.world then none else some q

/-- The predecessor a record names: the newest launch of the table with that record address, or the floor. -/
def matchPred (s : State) (ctx pred : Nat) : Option Nat :=
  (s.ctx ctx).table.find? fun n => (FMap.find s.launches n).any fun l => l.addr = pred

/-- Enter a launch in its context's table; what leaves the table raises the completion floor (22 R401). -/
def enterTable (ctx seq : Nat) (s : State) : State :=
  s.modCtx ctx fun x =>
    let all := seq :: x.table
    let out := all.drop Config.launchTable
    { x with
      table := all.take Config.launchTable
      floor := out.foldl (fun f n => max f (((FMap.find s.launches n).map Launch.c).getD 0)) x.floor }

/-- The launch a record describes, before its status is known. -/
def launchOf (s : State) (ctx addr : Nat) (b : List Byte) : Launch :=
  let pred := fieldN b 48 8
  let args := fieldN b 32 8
  let bank := if args = 0 then [] else ((s.readVirt ctx args 2048).getD [])
  let kern := (kernelAt s ctx (fieldN b 0 8)).getD
    { entry := 0, vregs := 8, stages := 1, warps := 1, tx := 32, ty := 1, tz := 1, scratch := 0, energy := 0, codebase := 0 }
  { ctx, addr, kdesc := fieldN b 0 8, kern, gx := fieldN b 8 4, gy := fieldN b 12 4, gz := fieldN b 16 4
    stages := fieldN b 20 1, prio := fieldN b 21 1, energy := fieldN b 24 8
    args := (upto 512).map fun i => BitVec.ofNat 32 (fieldN bank (4 * i) 4)
    signal := if fieldN b 40 8 % 8 = 0 then fieldN b 40 8 else 0
    pred := if pred = 0 then none else matchPred s ctx pred, predFloor := (s.ctx ctx).floor, hasPred := pred ≠ 0
    tiles := if fieldN b 22 2 % 2 = 1 then parseTiles (b.drop 64) else [], useBlock := fieldN b 22 2 % 4 ≠ 0
    cursor := none, base := 0 }

/-- The grid size of a launch (04 R86). -/
def Launch.sweep (l : Launch) : Nat := l.gx * l.gy * l.gz
def Launch.grid (l : Launch) : Nat := l.sweep * l.stages

/-- Give an accepted launch its age stamps; a launch of an empty grid completes at once (22 R402, R406). -/
def startLaunch (seq : Nat) (l : Launch) (s : State) : State :=
  let l := { l with base := s.ageNext }
  let s := { s with ageNext := s.ageNext + l.grid, launches := s.launches.put seq l }
  if l.grid = 0 then completeLaunch seq 0 s else s

/-- Belfry accepts the launch of a record at an address, its bytes read: the sequence number, the table, the status of a
refusal, the cursor of a query launch. -/
def acceptLaunch (ctx addr : Nat) (b : List Byte) (s : State) : State :=
  let seq := s.seqNext
  let l := launchOf s ctx addr b
  let s := enterTable ctx seq { s with seqNext := seq + 1, launches := s.launches.put seq l }
  let query := fieldN b 22 2 / 2 % 2 = 1
  let q := if query then launchQuery s ctx (fieldN b 64 8) else none
  if recordBad s ctx b || (query && q.isNone) then completeLaunch seq 3 s
  else if (kernelAt s ctx l.kdesc).isNone then completeLaunch seq 2 s
  else if !l.kern.needs.fitsCore then completeLaunch seq 4 s
  else match q with
    | none => startLaunch seq l s
    | some q => match openCursor s ctx q.world none q with
      | .ok s k _ =>
        let wk := worldKey ctx q.world
        let pins := (((FMap.find s.worlds wk).bind fun w => FMap.find w.cursors k).map Cursor.pins).getD []
        match (rotOf s ctx q.world).bind fun r => r.chunkCount pins with
        | some n => startLaunch seq { l with gx := n, gy := 1, gz := 1, cursor := some (wk, k) } s
        | none => completeLaunch seq 3 (closeCursor wk k s)
      | .corrupt | .full => completeLaunch seq 3 s

/-! ## Mailboxes (22 R393 to R395) -/

/-- A field of a mailbox's header that Belfry reads. -/
def hdrField (s : State) (ctx hdr off n : Nat) : Option Nat := (s.readVirt ctx (hdr + off) n).map leNat

/-- The claim a mailbox offers Belfry: its index and its message's address; none without a message, on a header that is
malformed, while the context is not served, or while another consumer holds a claim. -/
def mailboxOffer (s : State) (ctx mailbox : Nat) : Option (Nat × Nat) := do
  let x := s.ctx ctx
  let hdr := (FMap.getD 0 x.hdr mailbox).toNat
  if x.st ≠ .active || x.vfHeld || hdr = 0 || hdr % 128 ≠ 0 then none
  else
    let tail ← hdrField s ctx hdr 8 8
    let claim ← hdrField s ctx hdr 16 8
    let head ← hdrField s ctx hdr 24 8
    let slots ← hdrField s ctx hdr 32 8
    let log ← hdrField s ctx hdr 40 1
    if tail ≤ claim || head ≠ claim || 20 < log || slots % 64 ≠ 0 then none
    else some (claim, slots + 64 * (claim % 2 ^ log))

/-- Belfry's visit order: contexts and their mailboxes, in round robin. -/
def mailboxTurn (s : State) (ctx mailbox : Nat) : Bool :=
  let place (c m : Nat) : Nat := (64 * c + m + 65536 - s.mboxAt) % 65536
  !(s.ctxs.any fun c => c.2.hdr.any fun m => (mailboxOffer s c.1 m.1).isSome && place c.1 m.1 < place ctx mailbox)

/-- Belfry discards a message (22 R394). -/
def discardMessage (ctx mailbox : Nat) (s : State) : State :=
  s.modCtx ctx fun x => { x with discard := FMap.put mailbox (FMap.getD 0 x.discard mailbox + 1) x.discard }

/-- LAUNCH_ACCEPTANCE (22 R394, R395). -/
def execLaunchAcceptance (ctx mailbox : Nat) (s : State) : Host.Outcome State Fault Refusal :=
  match mailboxOffer s ctx mailbox with
  | none => .next s
  | some (i, slot) =>
    if !mailboxTurn s ctx mailbox then .next s
    else
      let hdr := (FMap.getD 0 (s.ctx ctx).hdr mailbox).toNat
      match s.readVirt ctx slot 64 with
      | none => .next s
      | some m =>
        let s := { s with mboxAt := (64 * ctx + mailbox + 1) % 65536 }
        let s := (devStore ctx (hdr + 16) 8 (i + 1) 0 s).1
        let s := (devStore ctx (hdr + 24) 8 (i + 1) 0 s).1
        let addr := fieldN m 0 8
        if fieldN m 8 56 ≠ 0 || addr % 128 ≠ 0 then .next (discardMessage ctx mailbox s)
        else match s.readVirt ctx addr 128 with
          | none => .next (discardMessage ctx mailbox s)
          | some b => .next (acceptLaunch ctx addr b s)

/-! ## The overflow area and task blocks (22 R404, R409) -/

/-- Take room in a context's overflow area: the state and the address. -/
def takeOverflow (ctx len : Nat) (s : State) : Option (State × Nat) :=
  let x := s.ctx ctx
  (firstFit (0, x.ovfsize.toNat) x.ovfUsed (up128 len)).map fun off =>
    (s.modCtx ctx fun x => { x with ovfUsed := (off, up128 len) :: x.ovfUsed }, x.ovfbase.toNat + off)

/-- Give room back. -/
def freeOverflow (ctx addr : Nat) (s : State) : State :=
  s.modCtx ctx fun x => { x with ovfUsed := x.ovfUsed.filter fun u => x.ovfbase.toNat + u.1 ≠ addr }

/-- What a task block's header holds. -/
structure Header where
  nrec : Nat
  node : Nat
  kdesc : Nat
  recsize : Nat
  prio : Nat
  stage : Nat
  cx : Nat
  cy : Nat
  cz : Nat
  launch : Nat
  age : Nat
  deriving DecidableEq, Repr

/-- The bytes of a task header. -/
def Header.bytes (h : Header) : List Byte :=
  leBytes 8 h.age ++ leBytes 8 0 ++ leBytes 8 h.launch ++ leBytes 4 h.cx ++ leBytes 4 h.cy ++ leBytes 4 h.cz ++
    leBytes 1 h.stage ++ leBytes 1 h.prio ++ leBytes 2 h.recsize ++ leBytes 8 h.kdesc ++ leBytes 2 h.node ++
    leBytes 2 h.nrec ++ leBytes 12 0

/-! ## Node bins (22 R407 to R409; 03 R81) -/

/-- NODE_REGISTRATION (03 R81): nodes are numbered in registration order. The spec does not say what becomes of an entry with a
field out of range or a nonzero reserved field, of one whose 32 bytes fail translation, of a second registration of an address
in a context, or of one beyond the 65,535 nodes that a 16-bit index other than 0xFFFF can name: here none of them is
registered (DESIGN CHOICE, log 71). -/
def execNodeRegistration (ctx addr : Nat) (s : State) : Host.Outcome State Fault Refusal :=
  match s.readVirt ctx addr 32 with
  | none => .next s
  | some b =>
    let n := (s.ctx ctx).nodes.length
    let recsize := fieldN b 18 2
    let count := fieldN b 16 2
    let timer := fieldN b 12 4
    if fieldN b 20 12 = 0 && fieldN b 8 4 = 0 && recsize % 16 = 0 && 16 ≤ recsize && recsize ≤ 512 && 1 ≤ count &&
        count ≤ 1024 && 1 ≤ timer && timer ≤ 2 ^ 24 && n < 65535 && (s.ctxs.find ctx).isSome &&
        !((s.ctx ctx).nodes.any fun x => x.addr = addr) then
      .next (s.modCtx ctx fun x =>
        { x with nodes := x.nodes ++ [{ idx := n, addr, kdesc := fieldN b 0 8, timer, count, recsize }] })
    else .next s

/-- A node of a context. -/
def nodeOf (s : State) (ctx idx : Nat) : Option Node := (s.ctx ctx).nodes.find? fun n => n.idx = idx

/-- The bin of a launch and a node. -/
def binOf (s : State) (launch node : Nat) : Option NodeBin := s.bins.find? fun b => b.launch = launch && b.node = node

/-- Change the bin of a launch and a node, creating it; an empty bin with no batch is forgotten. -/
def modBin (launch node : Nat) (f : NodeBin → NodeBin) (s : State) : State :=
  let b := f ((binOf s launch node).getD { launch, node, recs := [] })
  let rest := s.bins.filter fun x => !(x.launch = launch && x.node = node)
  let keep := !b.recs.isEmpty || s.batches.any (fun x => x.launch = launch && x.node = node) || b.asked.isSome ||
    s.cohorts.any fun e => e.2.launch = launch && e.2.node = some node && e.2.status = .wounded
  { s with bins := if keep then b :: rest else rest }

/-- Bytes of a die's bin store in use or promised to records still to arrive. -/
def binStoreUsed (s : State) (die : Nat) : Nat :=
  let here := s.bins.flatMap fun b => (b.recs.filter fun r => r.die = die && r.spill.isNone).map fun r => r.bytes.length
  let coming := s.ops.map fun e => match e.2.kind with
    | .eng (.tspawn node _ count _ spill arrived) =>
      if dieOf e.2.core = die then
        (count - spill.length - arrived) * ((nodeOf s (s.coh e.2.coh).ctx node).map Node.recsize).getD 0 else 0
    | _ => 0
  (here ++ coming).foldl (fun a n => a + n) 0

/-- Cohorts of a launch that have still to retire, the bins apart. -/
def launchBusy (s : State) (seq : Nat) : Bool :=
  (FMap.find s.launches seq).any fun l => l.retired < l.grid + l.emitted

/-- A bin is due to emit: it holds COUNT records, its oldest is TIMER cycles old, or the other cohorts of its launch have
retired (22 R408). -/
def binDue (s : State) (b : NodeBin) (n : Node) : Bool :=
  match b.recs with
  | [] => false
  | r :: _ => n.count ≤ b.recs.length || r.at_ + n.timer ≤ s.dclk || !launchBusy s b.launch

/-- A bin emits a batch, when it is due and the overflow area has room for the block (22 R404, R408). -/
def emitBatch (launch node : Nat) (s : State) : State :=
  match binOf s launch node, s.launches.find launch with
  | some b, some l =>
    match nodeOf s l.ctx node with
    | none => s
    | some n =>
      if !binDue s b n then s
      else
        let recs := b.recs.take n.count
        let len := up128 (128 + recs.length * n.recsize)
        match takeOverflow l.ctx len s with
        | none => s
        | some (s, block) =>
          let tiles := (recs.head?.map Filed.tiles).getD []
          let age := s.ageNext
          let head : Header :=
            { nrec := recs.length, node, kdesc := n.kdesc, recsize := n.recsize, prio := l.prio, stage := 0, cx := 0, cy := 0
              cz := 0, launch, age }
          let s := devPut l.ctx block
            (padTo len (head.bytes ++ tileBytes tiles ++ recs.flatMap Filed.bytes)) s
          let s := forEach (recs.filterMap Filed.spill) (freeOverflow l.ctx) s
          let s := { s with
            ageNext := age + 1
            batches := s.batches ++ [{ launch, node, recs, tiles, age, cidx := l.grid + l.emitted, block, blockLen := len }] }
          (modBin launch node (fun b => { b with recs := b.recs.drop n.count }) s).modLaunch launch fun l =>
            { l with emitted := l.emitted + 1 }
  | _, _ => s

/-- Let every bin of a context emit while it is due. -/
def emitAll (ctx : Nat) (s : State) : State :=
  forEach (s.bins.filter fun b => (FMap.find s.launches b.launch).any fun l => l.ctx = ctx) (fun b s =>
    forEach b.recs (fun _ => emitBatch b.launch b.node) s) s

/-- A TSPAWN's turn at its bin: the records of one command arrive consecutively, and the commands of one warp to one node in
the order of their issue (23 R430). -/
def spawnTurn (s : State) (id : Nat) (o : Op) (node : Nat) : Bool :=
  let launch := (s.coh o.coh).launch
  !(s.ops.any fun e => e.1 ≠ id && match e.2.kind with
    | .eng (.tspawn n _ count _ _ arrived) =>
      n = node && (s.coh e.2.coh).launch = launch &&
        ((0 < arrived && arrived < count) ||
          (e.1 < id && e.2.coh = o.coh && e.2.warp = o.warp && arrived < count))
    | _ => false)

/-- RECORD_ARRIVAL (22 R407): the command's next record enters the bin, in the bin store or in its overflow slot; a full
bin emits. -/
def execRecordArrival (op : Nat) (s : State) : Host.Outcome State Fault Refusal :=
  match s.ops.find op with
  | some o => match o.kind with
    | .eng (.tspawn node off count tiles spill i) =>
      let h := s.coh o.coh
      match nodeOf s h.ctx node with
      | none => .next s
      | some n =>
        if count ≤ i || !spawnTurn s op o node then .next s
        else
          let bytes := h.readSpL (off + i * n.recsize) n.recsize
          let bad := h.scratchBad.any fun a => off + i * n.recsize ≤ a && a < off + (i + 1) * n.recsize
          let slot := if count - spill.length ≤ i then spill[i - (count - spill.length)]? else none
          let s := match slot with
            | some a => devPut h.ctx a bytes s
            | none => s
          let s := s.modOp op fun o =>
            { o with kind := .eng (.tspawn node off count tiles spill (i + 1)), soft := o.soft || bad }
          let s := modBin h.launch node (fun b => { b with
            recs := b.recs ++ [{ bytes, at_ := s.dclk, die := dieOf o.core, spill := slot, tiles }] }) s
          .next (emitBatch h.launch node s)
    | _ => .next s
  | none => .next s

/-- BIN_TIMER_EXPIRY (22 R408). -/
def execBinTimerExpiry (launch node : Nat) (s : State) : Host.Outcome State Fault Refusal :=
  match s.launches.find launch with
  | some l =>
    if (s.ctx l.ctx).st = .active || (s.ctx l.ctx).st = .saving then .next (emitBatch launch node s) else .next s
  | none => .next s

/-! ## Placement (22 R410 to R412) -/

/-- RESIDENCY_REPORT: a core's agent reports its table. -/
def execResidencyReport (core : Nat) (s : State) : Host.Outcome State Fault Refusal :=
  .next { s with reported := FMap.put core (s.core core).resid s.reported }

/-- Resident bytes of a reference's granules in a table. -/
def resOf (l : List Resid) (ctx : Nat) (t : TileRef) : Nat :=
  (l.filter fun r => r.ctx = ctx && granOf t.gaddr ≤ r.gran && r.gran < granOf t.gaddr + t.gcount).foldl
    (fun a r => a + r.bytes) 0

/-- The share score of a core for a task: numerator and denominator. -/
def shareOf (s : State) (core ctx : Nat) (ts : List TileRef) : Nat × Nat :=
  let l := FMap.getD [] s.reported core
  ((ts.map fun t => t.weight * resOf l ctx t).foldl (fun a n => a + n) 0,
   (ts.map fun t => t.weight * t.gcount * 16384).foldl (fun a n => a + n) 0)

/-- The best element by a test "is better than"; the earlier wins ties. -/
def bestBy {α : Type} (better : α → α → Bool) : List α → Option α
  | [] => none
  | x :: r => some (r.foldl (fun b y => if better y b then y else b) x)

/-- The core for a task among cores, given in ascending order (22 R412). -/
def chooseCore (s : State) (ctx : Nat) (ts : List TileRef) (cores : List Nat) : Option Nat :=
  let load (a b : Nat) : Bool :=
    let x := freeOf s a
    let y := freeOf s b
    y.warps < x.warps || (x.warps = y.warps && y.vector < x.vector)
  let byShare (a b : Nat) : Bool :=
    let x := (shareOf s a ctx ts).1
    let y := (shareOf s b ctx ts).1
    y < x || (x = y && (freeOf s b).warps < (freeOf s a).warps)
  match bestBy byShare cores with
  | none => none
  | some c =>
    let (n, d) := shareOf s c ctx ts
    if d = 0 || 16 * n < d then bestBy load cores else some c

/-! ## The end of a task (04 R90, R104; 16 R319; 22 R421) -/

/-- A joint matrix share whose command has not entered the queue. -/
def Op.idleShare (o : Op) : Bool := !o.busy && match o.kind with
  | .mat _ => true
  | _ => false

/-- A stream's own operation. -/
def Op.isStream (o : Op) : Bool := match o.kind with
  | .eng (.subs _) => true
  | _ => false

/-- A launch completes once its cohorts have retired and its bins are empty (16 R319). -/
def tryComplete (seq : Nat) (s : State) : State :=
  match s.launches.find seq with
  | none => s
  | some l =>
    if l.done || l.retired < l.grid + l.emitted || s.bins.any (fun b => b.launch = seq && !b.recs.isEmpty) then s
    else completeLaunch seq 0 s

/-- Return a cohort's energy reservation (08 R176). -/
def returnEnergy (coh : Nat) (s : State) : State :=
  let h := s.coh coh
  (s.modCtx h.ctx fun x => { x with allow := x.allow + h.resv }).modCoh coh fun h => { h with resv := 0 }

/-- The streams of a retiring cohort end (15 R294). -/
def endStreams (coh : Nat) (s : State) : State :=
  forEach (s.coh coh).streams (fun e s =>
    if e.2.stopped then s else endStream e.2 0 (if e.2.count ≤ e.2.finished then 0 else 2) { s }) s

/-- What Belfry counts when a cohort retires (04 R87, R90; 17 R344; 22 R421). -/
def countRetired (coh : Nat) (s : State) : State :=
  let h := s.coh coh
  s.modLaunch h.launch fun l => { l with
    hiC := max l.hiC h.hmax, retired := l.retired + 1
    signalled := if h.node.isNone then insertNat h.cidx l.signalled else l.signalled
    ready := if h.node.isNone && h.stage + 1 < l.stages then l.ready ++ [(h.cidx + l.sweep, h.hmax)] else l.ready }

/-- COHORT_RETIREMENT (04 R90). -/
def execCohortRetirement (cohort : Nat) (s : State) : Host.Outcome State Fault Refusal :=
  match s.cohorts.find cohort with
  | none => .next s
  | some h =>
    let storing := h.streams.any fun e => !e.2.stopped && e.2.slots.any fun x => x.1 = .done || x.1 = .storing
    if h.status ≠ .resident || h.warps.any (fun w => !w.retired) || storing ||
        s.ops.any (fun e => e.2.coh = cohort && !e.2.isStream) then .next s
    else
      let s := endStreams cohort s
      let s := countRetired cohort (returnEnergy cohort s)
      let s := if h.blockLen = 0 then s else freeOverflow h.ctx h.record s
      let s := endCohort cohort s
      .next (tryComplete h.launch (emitAll h.ctx (grantSlots h.ctx s)))

end Sys2Proof.Machine
end

