-- ==== Sys2Proof/Machine/Elementary.lean ====
section
/-! DEFINITION. FEXP2, FLOG2, FSIN and FCOS (12 R226, R227). The exact value is taken to about 2^-700 by series in
fixed point, far below any distance of these functions from an F32 value, so that the two F32 values that bracket it
are known; which of them is delivered is the free value `Config.faithfulUp` (log 11). -/

namespace Sys2Proof.Machine

/-- Fixed-point places. -/
def fxBits : Nat := 900
/-- One in fixed point. -/
def fxOne : Nat := 2 ^ fxBits
/-- A product in fixed point. -/
def fxMul (a b : Nat) : Nat := a * b / fxOne

/-- Σ ± t_k / (first + 2k), t_(k+1) = t_k / c, alternating when `alt`: the series of arctan and artanh of 1/√c. -/
def invSeries (c : Nat) (alt : Bool) : Nat → Nat → Nat → Int
  | 0, _, _ => 0
  | fuel + 1, t, k => (t / k : Nat) + (if alt then -1 else 1) * invSeries c alt fuel (t / c) (k + 2)

/-- π in fixed point, by Machin's formula. -/
def fxPi : Nat :=
  (4 * (4 * invSeries 25 true 220 (fxOne / 5) 1 - invSeries (239 * 239) true 70 (fxOne / 239) 1)).toNat

/-- ln 2 in fixed point: 2 artanh(1/3). -/
def fxLn2 : Nat := (2 * invSeries 9 false 300 (fxOne / 3) 1).toNat

/-- Σ x^k / k!, from a term on; `step` is how far k moves, `alt` alternates: the series of exp, sin and cos. -/
def facSeries (x2 : Nat) (alt : Bool) (step : Nat) : Nat → Nat → Nat → Int
  | 0, _, _ => 0
  | fuel + 1, t, k =>
    let t' := if step = 1 then fxMul t x2 / (k + 1) else fxMul t x2 / ((k + 1) * (k + 2))
    (t : Int) + (if alt then -1 else 1) * facSeries x2 alt step fuel t' (k + step)

/-- e^x for x in [0, 1). -/
def fxExp (x : Nat) : Nat := (facSeries x false 1 170 fxOne 0).toNat
/-- cos x and sin x for x in [0, 2). -/
def fxCos (x : Nat) : Nat := (facSeries (fxMul x x) true 2 110 fxOne 0).toNat
def fxSin (x : Nat) : Nat := (facSeries (fxMul x x) true 2 110 x 1).toNat

/-- Σ z^(2k+1) / (2k+1): artanh z. -/
def artanhSeries (z2 : Nat) : Nat → Nat → Nat → Nat
  | 0, _, _ => 0
  | fuel + 1, t, k => t / k + artanhSeries z2 fuel (fxMul t z2) (k + 2)

/-- log2 m for m = n / d in [1, 2). -/
def fxLog2 (n d : Nat) : Nat :=
  let z := (n - d) * fxOne / (n + d)
  2 * artanhSeries (fxMul z z) 300 z 1 * fxOne / fxLn2

/-- One of the two F32 values that bracket an inexact magnitude v / 2^fxBits × 2^e, by the free choice (12 R227). -/
def faithful (fn : Nat) (a : W32) (neg : Bool) (v : Nat) (e : Int) : Nat × BitVec 5 :=
  let f := fmtOf 0 false
  let up := Config.faithfulUp fn a
  let e' := e - fxBits
  let n := if 0 ≤ e' then v * 2 ^ e'.toNat else v
  let d := if 0 ≤ e' then 1 else 2 ^ (-e').toNat
  if v = 0 then (f.code neg (if up then 1 else 0), flNX ||| flUF)
  else
    -- rounding away from zero or toward zero
    let (c, fl) := f.roundFin (if up then (if neg then 3 else 2) else 1) false neg n d
    (c, fl ||| flNX ||| flag (flog2 n d < -126) flUF)

/-- FEXP2 of an F32 code. An exact value below the smallest subnormal, that of −150 among them, gives +0 or 2^−149 by the free
choice (12 R227). -/
def exp2F (a : W32) : Nat × BitVec 5 :=
  let f := fmtOf 0 false
  match f.decode a.toNat with
  | .nan b => (f.nan, flag b flNV)
  | .inf neg => (if neg then 0 else 0x7F800000, 0)
  | .fin neg n d =>
    let x := Val.fin neg n d
    if x.isZero then (0x3F800000, 0)
    else if !neg && 128 * d ≤ n then (0x7F800000, flOF ||| flNX)
    else if neg && 150 * d ≤ n then faithful 0 a false 0 0
    else
      let i := x.num.fdiv d
      let r := (x.num - i * d).toNat
      if r = 0 then f.round 0 false (dyadic false 1 i)
      else faithful 0 a false (fxExp (r * fxLn2 / d)) i

/-- FLOG2 of an F32 code. FLOG2 of 1.0 is an exact zero whose sign the spec does not state (10 R179): +0 (DESIGN CHOICE, log
83). -/
def log2F (a : W32) : Nat × BitVec 5 :=
  let f := fmtOf 0 false
  match f.decode a.toNat with
  | .nan b => (f.nan, flag b flNV)
  | .inf neg => if neg then (f.nan, flNV) else (0x7F800000, 0)
  | .fin neg n d =>
    if n = 0 then (0xFF800000, flDZ)
    else if neg then (f.nan, flNV)
    else
      let e := flog2 n d
      -- n / d = m / k × 2^e with m / k in [1, 2)
      let m := if 0 ≤ e then n else n * 2 ^ (-e).toNat
      let k := if 0 ≤ e then d * 2 ^ e.toNat else d
      if m = k then f.round 0 false (Val.ofInt e)
      else
        let y : Int := e * fxOne + fxLog2 m k
        faithful 1 a (y < 0) y.natAbs 0

/-- The argument reduced by multiples of π/2: the quadrant and the rest in fixed point. -/
def reduce (n d : Nat) : Nat × Nat :=
  let x := n * fxOne / d
  let h := fxPi / 2
  (x / h, x % h)

/-- FSIN (2) or FCOS (3) of an F32 code: the quadrant q turns sine into cosine. -/
def sinF (fn : Nat) (a : W32) : Nat × BitVec 5 :=
  let f := fmtOf 0 false
  match f.decode a.toNat with
  | .nan b => (f.nan, flag b flNV)
  | .inf _ => (f.nan, flNV)
  | .fin neg n d =>
    if n = 0 then (if fn = 2 then f.code neg 0 else 0x3F800000, 0)
    else
      let (k, r) := reduce n d
      let q := (if fn = 2 then k else k + 1) % 4
      let v := if q % 2 = 0 then fxSin r else fxCos r
      faithful fn a ((2 ≤ q) != (fn = 2 && neg)) v 0

end Sys2Proof.Machine
end

