-- ==== Sys2Proof/Machine/VectorInt.lean ====
section
/-! DEFINITION. Group 2: the vector integer instructions (11 R204 to R210). -/

namespace Sys2Proof.Machine

/-- A vector source as a 32-bit pattern. -/
def State.srcN (s : State) (coh w l : Nat) (o : Operand) : Nat := (s.srcV coh w l o).toNat

/-- A vector source read as a type (11 R204). -/
def State.srcI (s : State) (coh w l t : Nat) (o : Operand) : Int := asTy t (s.srcN coh w l o)

/-- A result of a type as 32 bits. -/
def outI (y : Int) : W32 := BitVec.ofInt 32 y

/-- Two sources, an exact result, wrapped or saturated. -/
def int2 (f : Fields) (op : Int → Int → Int) (s : State) (coh w l : Nat) : W32 :=
  outI (fitTy f.modn f.sat (op (s.srcI coh w l f.modn f.sa) (s.srcI coh w l f.modn f.sb)))

/-- One source, an exact result, wrapped or saturated. -/
def int1 (f : Fields) (op : Int → Int) (s : State) (coh w l : Nat) : W32 :=
  outI (fitTy f.modn f.sat (op (s.srcI coh w l f.modn f.sa)))

/-- Two sources as 32-bit patterns. -/
def intBits (f : Fields) (op : Nat → Nat → Nat) (s : State) (coh w l : Nat) : W32 :=
  BitVec.ofNat 32 (op (s.srcN coh w l f.sa) (s.srcN coh w l f.sb))

/-- One source as a 32-bit pattern. -/
def intBits1 (f : Fields) (op : Nat → Nat) (s : State) (coh w l : Nat) : W32 :=
  BitVec.ofNat 32 (op (s.srcN coh w l f.sa))

/-- IADD (11 R206). -/
def execIadd (f : Fields) (s : State) : Host.Outcome State Fault Refusal :=
  issueFixed (.iadd f) f (effV f (int2 f (· + ·))) s
/-- ISUB (11 R206). -/
def execIsub (f : Fields) (s : State) : Host.Outcome State Fault Refusal :=
  issueFixed (.isub f) f (effV f (int2 f (· - ·))) s
/-- IMUL: .LO, or .HI, which is always wrapped (11 R206). -/
def execImul (f : Fields) (s : State) : Host.Outcome State Fault Refusal :=
  issueFixed (.imul f) f (effV f (int2 f fun a b => if f.opt = 0 then a * b else (a * b).fdiv (2 ^ 32))) s
/-- IMAD (11 R206). -/
def execImad (f : Fields) (s : State) : Host.Outcome State Fault Refusal :=
  issueFixed (.imad f) f (effV f fun s k w l =>
    outI (fitTy f.modn f.sat (s.srcI k w l f.modn f.sa * s.srcI k w l f.modn f.sb + s.srcI k w l f.modn f.third))) s
/-- IDIV (11 R200, R206). -/
def execIdiv (f : Fields) (s : State) : Host.Outcome State Fault Refusal :=
  issueLongV (.idiv f) f (fun s k w l => (int2 f (fun a b => (divTy a b).1) s k w l, 0)) s
/-- IREM (11 R200, R206). -/
def execIrem (f : Fields) (s : State) : Host.Outcome State Fault Refusal :=
  issueLongV (.irem f) f (fun s k w l => (int2 f (fun a b => (divTy a b).2) s k w l, 0)) s
/-- IMIN (11 R206). -/
def execImin (f : Fields) (s : State) : Host.Outcome State Fault Refusal :=
  issueFixed (.imin f) f (effV f (int2 f fun a b => min a b)) s
/-- IMAX (11 R206). -/
def execImax (f : Fields) (s : State) : Host.Outcome State Fault Refusal :=
  issueFixed (.imax f) f (effV f (int2 f fun a b => max a b)) s
/-- IABS (11 R206). -/
def execIabs (f : Fields) (s : State) : Host.Outcome State Fault Refusal :=
  issueFixed (.iabs f) f (effV f (int1 f fun a => a.natAbs)) s
/-- INEG (11 R206). -/
def execIneg (f : Fields) (s : State) : Host.Outcome State Fault Refusal :=
  issueFixed (.ineg f) f (effV f (int1 f fun a => -a)) s
/-- IAND (11 R206). -/
def execIand (f : Fields) (s : State) : Host.Outcome State Fault Refusal :=
  issueFixed (.iand f) f (effV f (intBits f (· &&& ·))) s
/-- IOR (11 R206). -/
def execIor (f : Fields) (s : State) : Host.Outcome State Fault Refusal :=
  issueFixed (.ior f) f (effV f (intBits f (· ||| ·))) s
/-- IXOR (11 R206). -/
def execIxor (f : Fields) (s : State) : Host.Outcome State Fault Refusal :=
  issueFixed (.ixor f) f (effV f (intBits f (· ^^^ ·))) s
/-- INOT (11 R206). -/
def execInot (f : Fields) (s : State) : Host.Outcome State Fault Refusal :=
  issueFixed (.inot f) f (effV f fun s k w l => ~~~(s.srcV k w l f.sa)) s
/-- ISHL (11 R201, R206). -/
def execIshl (f : Fields) (s : State) : Host.Outcome State Fault Refusal :=
  issueFixed (.ishl f) f (effV f fun s k w l =>
    outI (shlTy f.modn (s.srcI k w l f.modn f.sa) (s.srcN k w l f.sb))) s
/-- ISHR (11 R201, R206). -/
def execIshr (f : Fields) (s : State) : Host.Outcome State Fault Refusal :=
  issueFixed (.ishr f) f (effV f fun s k w l =>
    outI (shrTy f.modn (s.srcI k w l f.modn f.sa) (s.srcN k w l f.sb))) s
/-- IROT (11 R206). -/
def execIrot (f : Fields) (s : State) : Host.Outcome State Fault Refusal :=
  issueFixed (.irot f) f (effV f (intBits f rotl32)) s
/-- ICMP (11 R202, R206). -/
def execIcmp (f : Fields) (s : State) : Host.Outcome State Fault Refusal :=
  issueFixed (.icmp f) f (fun c s => perThread c f s (fun w l => State.writeP c.coh w l f.dst.idx.toNat
    (condHolds f.opt (s.srcI c.coh w l f.modn f.sa) (s.srcI c.coh w l f.modn f.sb))) s) s
/-- ISEL (11 R206). -/
def execIsel (f : Fields) (s : State) : Host.Outcome State Fault Refusal :=
  issueFixed (.isel f) f (effV f fun s k w l =>
    if s.srcP k w l f.third then s.srcV k w l f.sa else s.srcV k w l f.sb) s
/-- IPOPC (11 R206). -/
def execIpopc (f : Fields) (s : State) : Host.Outcome State Fault Refusal :=
  issueFixed (.ipopc f) f (effV f (intBits1 f fun a => popcount a 32)) s
/-- ICLZ (11 R206). -/
def execIclz (f : Fields) (s : State) : Host.Outcome State Fault Refusal :=
  issueFixed (.iclz f) f (effV f (intBits1 f (clz 32))) s
/-- IBFX (11 R207). -/
def execIbfx (f : Fields) (s : State) : Host.Outcome State Fault Refusal :=
  issueFixed (.ibfx f) f (effV f (intBits f (bitExtract f.modn))) s
/-- IBFI (11 R207). -/
def execIbfi (f : Fields) (s : State) : Host.Outcome State Fault Refusal :=
  issueFixed (.ibfi f) f (effV f fun s k w l =>
    BitVec.ofNat 32 (bitInsert (s.srcN k w l f.sa) (s.srcN k w l f.sb) (s.srcN k w l f.third))) s
/-- The exact sum of IADDC (11 R208). -/
def addcSum (f : Fields) (s : State) (k w l : Nat) : Nat :=
  s.srcN k w l f.sa + s.srcN k w l f.sb + (s.srcP k w l f.third).toNat
/-- IADDC: the sum, and the carry out to predicate OPT[2:0] (11 R208). -/
def execIaddc (f : Fields) (s : State) : Host.Outcome State Fault Refusal :=
  issueFixed (.iaddc f) f (fun c s0 =>
    perThread c f s0 (fun w l t =>
      (t.writeV c.coh w f.dst.idx.toNat l (BitVec.ofNat 32 (addcSum f s0 c.coh w l))).writeP c.coh w l (f.opt % 8)
        (2 ^ 32 ≤ addcSum f s0 c.coh w l)) s0) s
/-- IDOT4 (11 R209). -/
def execIdot4 (f : Fields) (s : State) : Host.Outcome State Fault Refusal :=
  issueFixed (.idot4 f) f (effV f fun s k w l =>
    outI (fitTy 3 f.sat (dot4 f.modn (if f.opt = 0 then 28 else 29) (s.srcN k w l f.sa) (s.srcN k w l f.sb)
      (s.srcN k w l f.third)))) s
/-- The address LEA forms (11 R210). -/
def leaAddr (f : Fields) (s : State) (k w l : Nat) : W64 :=
  s.srcPair k w l f.sa + BitVec.ofInt 64 (s.srcI k w l f.modn f.sb * 2 ^ (f.opt % 64)) +
    (s.srcV k w l f.third).signExtend 64
/-- Write a register pair of a thread; vz discards both halves (11 R210). -/
def State.writePair (k w reg l : Nat) (v : W64) (s : State) : State :=
  if reg = 255 then s
  else (s.writeV k w reg l (v.setWidth 32)).writeV k w (reg + 1) l ((v >>> 32).setWidth 32)
/-- LEA (11 R210). -/
def execLea (f : Fields) (s : State) : Host.Outcome State Fault Refusal :=
  issueFixed (.lea f) f (fun c s => perThread c f s (fun w l =>
    State.writePair c.coh w f.dst.idx.toNat l (leaAddr f s c.coh w l)) s) s

end Sys2Proof.Machine
end

