-- ==== Sys2Proof/Machine/VectorFloat.lean ====
section
/-! DEFINITION. Group 3: the vector floating-point instructions (12 R219 to R230). -/

namespace Sys2Proof.Machine

/-- A source of a float position as a code of type `t`: a signed immediate is its integer value in that type (02 R31,
12 R219). -/
def State.srcCode (s : State) (coh w l t : Nat) (inf : Bool) (o : Operand) : Nat :=
  if o.kind = .imm then ((fmtOf t inf).round 0 false (Val.ofInt (immInt o))).1
  else (s.srcV coh w l o).toNat % 2 ^ codeWidth t

/-- A source of a float position as a value. -/
def State.srcF (s : State) (coh w l t : Nat) (o : Operand) : Val := decodeF t false (s.srcCode coh w l t false o)

/-- An exact result with the flags of its operands and its operation, rounded into the type of the word. -/
def deliver (f : Fields) (x : Val) (fl : BitVec 5) : W32 × BitVec 5 :=
  let (c, g) := (fmtOf f.modn false).round f.rc f.sat x
  (BitVec.ofNat 32 c, fl ||| g)

/-- A vector float instruction: every thread's result, and its flags to its warp (10 R191). -/
def effF (f : Fields) (val : State → Nat → Nat → Nat → W32 × BitVec 5) (c : Iss) (s : State) : State :=
  perThread c f s (fun w l t =>
    let r := val s c.coh w l
    (t.writeV c.coh w f.dst.idx.toNat l r.1).raiseFlags c.coh w r.2) s

/-- One source. -/
def float1 (f : Fields) (op : Val → Val × BitVec 5) (s : State) (k w l : Nat) : W32 × BitVec 5 :=
  let a := s.srcF k w l f.modn f.sa
  let r := op a
  deliver f r.1 (a.sig ||| r.2)

/-- Two sources. -/
def float2 (f : Fields) (op : Val → Val → Val × BitVec 5) (s : State) (k w l : Nat) : W32 × BitVec 5 :=
  let a := s.srcF k w l f.modn f.sa
  let b := s.srcF k w l f.modn f.sb
  let r := op a b
  deliver f r.1 (a.sig ||| b.sig ||| r.2)

/-- Three sources. -/
def float3 (f : Fields) (op : Val → Val → Val → Val × BitVec 5) (s : State) (k w l : Nat) : W32 × BitVec 5 :=
  let a := s.srcF k w l f.modn f.sa
  let b := s.srcF k w l f.modn f.sb
  let c := s.srcF k w l f.modn f.third
  let r := op a b c
  deliver f r.1 (a.sig ||| b.sig ||| c.sig ||| r.2)

/-- FADD (12 R222, R223). -/
def execFadd (f : Fields) (s : State) : Host.Outcome State Fault Refusal :=
  issueFixed (.fadd f) f (effF f (float2 f (addVal f.rc))) s
/-- FSUB (12 R222, R223). -/
def execFsub (f : Fields) (s : State) : Host.Outcome State Fault Refusal :=
  issueFixed (.fsub f) f (effF f (float2 f fun a b => addVal f.rc a b.negate)) s
/-- FMUL (12 R222). -/
def execFmul (f : Fields) (s : State) : Host.Outcome State Fault Refusal :=
  issueFixed (.fmul f) f (effF f (float2 f mulVal)) s
/-- FFMA (12 R222, R223). -/
def execFfma (f : Fields) (s : State) : Host.Outcome State Fault Refusal :=
  issueFixed (.ffma f) f (effF f (float3 f (fmaVal f.rc))) s

/-- FMIN and FMAX return an operand's code; two NaNs give the canonical one (12 R224). -/
def minMax (f : Fields) (takeA : Val → Val → Bool) (s : State) (k w l : Nat) : W32 × BitVec 5 :=
  let ca := s.srcCode k w l f.modn false f.sa
  let cb := s.srcCode k w l f.modn false f.sb
  let a := decodeF f.modn false ca
  let b := decodeF f.modn false cb
  let c := if a.isNan && b.isNan then (fmtOf f.modn false).nan
    else if a.isNan then cb
    else if b.isNan then ca
    else if takeA a b then ca else cb
  (BitVec.ofNat 32 c, a.sig ||| b.sig)
/-- FMIN (12 R224). -/
def execFmin (f : Fields) (s : State) : Host.Outcome State Fault Refusal :=
  issueFixed (.fmin f) f (effF f (minMax f fun a b => ltVal true a b)) s
/-- FMAX (12 R224). -/
def execFmax (f : Fields) (s : State) : Host.Outcome State Fault Refusal :=
  issueFixed (.fmax f) f (effF f (minMax f fun a b => ltVal true b a)) s

/-- A condition of FCMP (12 R225). -/
def fcmpHolds (cond : Nat) (a b : Val) : Bool :=
  let un := a.isNan || b.isNan
  let lt := ltVal false a b
  let gt := ltVal false b a
  match cond with
  | 0 => !un && !lt && !gt
  | 1 => un || lt || gt
  | 2 => !un && lt
  | 3 => !un && !gt
  | 4 => !un && gt
  | 5 => !un && !lt
  | 6 => un
  | _ => !un
/-- FCMP (12 R225). -/
def execFcmp (f : Fields) (s : State) : Host.Outcome State Fault Refusal :=
  issueFixed (.fcmp f) f (fun c s => perThread c f s (fun w l t =>
    let a := s.srcF c.coh w l f.modn f.sa
    let b := s.srcF c.coh w l f.modn f.sb
    (t.writeP c.coh w l f.dst.idx.toNat (fcmpHolds f.opt a b)).raiseFlags c.coh w (a.sig ||| b.sig)) s) s

/-- FRCP (12 R222, R226). -/
def execFrcp (f : Fields) (s : State) : Host.Outcome State Fault Refusal :=
  issueLongV (.frcp f) f (float1 f fun a => divVal (.fin false 1 1) a) s

/-- Reciprocal square root (12 R226). -/
def rsqVal : Val → Val × BitVec 5
  | .nan _ => (.qnan, 0)
  | .inf neg => if neg then (.qnan, flNV) else (.fin false 0 1, 0)
  | .fin neg n d =>
    if n = 0 then (.inf neg, flDZ) else if neg then (.qnan, flNV) else (sqrtVal d n, 0)
/-- FRSQ (12 R226). -/
def execFrsq (f : Fields) (s : State) : Host.Outcome State Fault Refusal :=
  issueLongV (.frsq f) f (float1 f rsqVal) s

/-- Square root (12 R226). -/
def rootVal : Val → Val × BitVec 5
  | .nan _ => (.qnan, 0)
  | .inf neg => if neg then (.qnan, flNV) else (.inf false, 0)
  | .fin neg n d =>
    if n = 0 then (.fin neg 0 1, 0) else if neg then (.qnan, flNV) else (sqrtVal n d, 0)
/-- FSQRT (12 R226). -/
def execFsqrt (f : Fields) (s : State) : Host.Outcome State Fault Refusal :=
  issueLongV (.fsqrt f) f (float1 f rootVal) s
/-- FDIV (12 R222). -/
def execFdiv (f : Fields) (s : State) : Host.Outcome State Fault Refusal :=
  issueLongV (.fdiv f) f (float2 f divVal) s

/-- A function of one F32 code. -/
def elementary (f : Fields) (fn : W32 → Nat × BitVec 5) (s : State) (k w l : Nat) : W32 × BitVec 5 :=
  let r := fn (BitVec.ofNat 32 (s.srcCode k w l 0 false f.sa))
  (BitVec.ofNat 32 r.1, r.2)
/-- FEXP2 (12 R226, R227). -/
def execFexp2 (f : Fields) (s : State) : Host.Outcome State Fault Refusal :=
  issueLongV (.fexp2 f) f (elementary f exp2F) s
/-- FLOG2 (12 R226, R227). -/
def execFlog2 (f : Fields) (s : State) : Host.Outcome State Fault Refusal :=
  issueLongV (.flog2 f) f (elementary f log2F) s
/-- FSIN (12 R226, R227). -/
def execFsin (f : Fields) (s : State) : Host.Outcome State Fault Refusal :=
  issueLongV (.fsin f) f (elementary f (sinF 2)) s
/-- FCOS (12 R226, R227). -/
def execFcos (f : Fields) (s : State) : Host.Outcome State Fault Refusal :=
  issueLongV (.fcos f) f (elementary f (sinF 3)) s

/-- The fractional part (12 R226, R228). -/
def fracVal : Val → Val × BitVec 5
  | .nan _ => (.qnan, 0)
  | .inf _ => (.qnan, flNV)
  | .fin neg n d =>
    let y := (Val.fin neg n d).num
    (Val.ofRat (y - y.fdiv d * d) d false, 0)
/-- FFRC (12 R228). -/
def execFfrc (f : Fields) (s : State) : Host.Outcome State Fault Refusal :=
  issueFixed (.ffrc f) f (effF f (float1 f fracVal)) s

/-- Rounding to an integer value, which keeps the sign of a zero and of an infinity (12 R226, R228). -/
def rintVal (mode : Nat) : Val → Val × BitVec 5
  | .nan _ => (.qnan, 0)
  | .inf neg => (.inf neg, 0)
  | .fin neg n d => (.fin neg (roundInt mode (.fin neg n d)).natAbs 1,
      flag (n % d ≠ 0) flNX)
/-- FRINT (12 R228). -/
def execFrint (f : Fields) (s : State) : Host.Outcome State Fault Refusal :=
  issueFixed (.frint f) f (effF f (float1 f (rintVal f.rc))) s

/-- The bit of FCLASS (12 R229). -/
def classBit (t : Nat) (x : Val) : Nat :=
  match x with
  | .nan sig => if sig then 8 else 9
  | .inf neg => if neg then 0 else 7
  | .fin neg n d =>
    if n = 0 then (if neg then 3 else 4)
    else if flog2 n d < (fmtOf t false).emin then (if neg then 2 else 5)
    else if neg then 1 else 6
/-- FCLASS (12 R229). -/
def execFclass (f : Fields) (s : State) : Host.Outcome State Fault Refusal :=
  issueFixed (.fclass f) f (effV f fun s k w l =>
    BitVec.ofNat 32 (2 ^ classBit f.modn (s.srcF k w l f.modn f.sa))) s

/-- a × 2^k. Beyond ±1,000 every k gives the same result: overflow, or a value below every format's smallest (12
R222). -/
def scaleVal (a : Val) (k : Int) : Val :=
  match a with
  | .fin neg n d =>
    let k := max (-1000) (min 1000 k)
    if 0 ≤ k then .fin neg (n * 2 ^ k.toNat) d else .fin neg n (d * 2 ^ (-k).toNat)
  | .nan b => .nan b
  | .inf neg => .inf neg
/-- FLDEXP (12 R222). -/
def execFldexp (f : Fields) (s : State) : Host.Outcome State Fault Refusal :=
  issueFixed (.fldexp f) f (effF f fun s k w l =>
    let a := s.srcF k w l f.modn f.sa
    deliver f (scaleVal a (s.srcI k w l 3 f.sb)) a.sig) s

/-- Element `i` of a packed pair as a value; a signed immediate goes to both elements (10 R185, 12 R230). -/
def State.srcH (s : State) (coh w l t i : Nat) (o : Operand) : Val :=
  if o.kind = .imm then s.srcF coh w l t o
  else decodeF t false ((s.srcV coh w l o).toNat / 2 ^ (16 * i))

/-- A packed instruction: both elements, the union of their flags (12 R230). -/
def packed (f : Fields) (op : Val → Val → Val → Val × BitVec 5) (third : Bool) (s : State) (k w l : Nat) :
    W32 × BitVec 5 :=
  let el := fun (i : Nat) =>
    let a := s.srcH k w l f.modn i f.sa
    let b := s.srcH k w l f.modn i f.sb
    let c := if third then s.srcH k w l f.modn i f.third else .fin false 0 1
    let r := op a b c
    deliver f r.1 (a.sig ||| b.sig ||| c.sig ||| r.2)
  let x := el 0
  let y := el 1
  (x.1 ||| (y.1 <<< 16), x.2 ||| y.2)
/-- HFMA2 (12 R230). -/
def execHfma2 (f : Fields) (s : State) : Host.Outcome State Fault Refusal :=
  issueFixed (.hfma2 f) f (effF f (packed f (fmaVal f.rc) true)) s
/-- HADD2 (12 R230). -/
def execHadd2 (f : Fields) (s : State) : Host.Outcome State Fault Refusal :=
  issueFixed (.hadd2 f) f (effF f (packed f (fun a b _ => addVal f.rc a b) false)) s
/-- HMUL2 (12 R230). -/
def execHmul2 (f : Fields) (s : State) : Host.Outcome State Fault Refusal :=
  issueFixed (.hmul2 f) f (effF f (packed f (fun a b _ => mulVal a b) false)) s

end Sys2Proof.Machine
end

