-- ==== Sys2Proof/Machine/Convert.lean ====
section
/-! DEFINITION. Group 4: conversions and byte rearrangement (12 R231 to R238). -/

namespace Sys2Proof.Machine

/-- .INF, OPT[7] (10 R184). -/
def infMode (f : Fields) : Bool := 128 ≤ f.opt

/-- A value delivered to the destination type of the word under its .INF selection. -/
def deliverTo (f : Fields) (x : Val) : W32 × BitVec 5 :=
  let (c, g) := (fmtOf f.modn (infMode f)).round f.rc f.sat x
  (BitVec.ofNat 32 c, x.sig ||| g)

/-- The source of a conversion as a value of the type OPT[5:0] names. -/
def State.srcConv (s : State) (coh w l : Nat) (f : Fields) : Val :=
  decodeF f.src (infMode f) (s.srcCode coh w l f.src (infMode f) f.sa)

/-- CVT (12 R232). -/
def execCvt (f : Fields) (s : State) : Host.Outcome State Fault Refusal :=
  issueFixed (.cvt f) f (effF f fun s k w l => deliverTo f (s.srcConv k w l f)) s

/-- CVTFI (12 R233). -/
def execCvtfi (f : Fields) (s : State) : Host.Outcome State Fault Refusal :=
  issueFixed (.cvtfi f) f (effF f fun s k w l =>
    let (y, fl) := toInt f.modn f.rc f.sat (s.srcConv k w l f)
    (outI y, fl)) s

/-- CVTIF (12 R234). -/
def execCvtif (f : Fields) (s : State) : Host.Outcome State Fault Refusal :=
  issueFixed (.cvtif f) f (effF f fun s k w l => deliverTo f (Val.ofInt (s.srcI k w l f.src f.sa))) s

/-- Replace the `n` bits of a word at a place. -/
def placeBits (d at_ n x : Nat) : Nat := d - bits d (at_ + n - 1) at_ * 2 ^ at_ + x % 2 ^ n * 2 ^ at_

/-- CVTN (12 R235). -/
def execCvtn (f : Fields) (s : State) : Host.Outcome State Fault Refusal :=
  issueFixed (.cvtn f) f (effF f fun s k w l =>
    let src := f.opt % 4
    let pos := f.opt / 4 % 4
    let n := codeWidth f.modn
    let (x0, f0) := deliverTo f (s.srcF k w l src f.sa)
    let (x1, f1) := deliverTo f (s.srcF k w l src f.sb)
    let d := ((s.warp k w).readV f.dst.idx.toNat l).toNat
    (BitVec.ofNat 32 (placeBits (placeBits d (n * (2 * pos)) n x0.toNat) (n * (2 * pos + 1)) n x1.toNat),
      f0 ||| f1)) s

/-- CVTW (12 R236). -/
def execCvtw (f : Fields) (s : State) : Host.Outcome State Fault Refusal :=
  issueFixed (.cvtw f) f (effF f fun s k w l =>
    let n := codeWidth f.src
    let b := s.srcN k w l f.sb
    let i := if n = 8 then b % 4 else b % 8
    let x := bits (s.srcN k w l f.sa) (n * i + n - 1) (n * i)
    let isInt := [28, 29, 32, 33].contains f.src
    if [3, 4].contains f.modn then (outI (asTy f.src x), 0)
    else deliverTo f (if isInt then Val.ofInt (asTy f.src x) else decodeF f.src (infMode f) x)) s

/-- One byte of PRMB (12 R237). -/
def prmbByte (pool sel : Nat) : Nat :=
  let y := bits pool (8 * (sel % 8) + 7) (8 * (sel % 8))
  if 8 ≤ sel then (if 128 ≤ y then 255 else 0) else y
/-- PRMB (12 R237). -/
def execPrmb (f : Fields) (s : State) : Host.Outcome State Fault Refusal :=
  issueFixed (.prmb f) f (effV f fun s k w l =>
    let pool := s.srcN k w l f.sa + ((s.warp k w).readV f.dst.idx.toNat l).toNat * 2 ^ 32
    let b := s.srcN k w l f.sb
    BitVec.ofNat 32 ((upto 4).foldl (fun a i => a + prmbByte pool (bits b (4 * i + 3) (4 * i)) * 256 ^ i) 0)) s

/-- ceil(log2(n / d)). -/
def clog2 (n d : Nat) : Int :=
  let e := flog2 n d
  let exact := if 0 ≤ e then n = d * 2 ^ e.toNat else n * 2 ^ (-e).toNat = d
  if exact then e else e + 1

/-- The E8 code of SCLX (12 R238). -/
def sclxCode (t : Nat) (inf : Bool) (x : Val) : Nat :=
  match x with
  | .nan _ => 255
  | .inf _ => 254
  | .fin _ n d =>
    if n = 0 then 0
    else
      let f := fmtOf t inf
      let m := f.decode f.maxM
      (min (max (127 + clog2 (n * m.den) (d * m.num.natAbs)) 0) 254).toNat
/-- SCLX (12 R238). -/
def execSclx (f : Fields) (s : State) : Host.Outcome State Fault Refusal :=
  issueFixed (.sclx f) f (effV f fun s k w l => BitVec.ofNat 32 (sclxCode f.modn (infMode f) (s.srcConv k w l f))) s

end Sys2Proof.Machine
end

