-- ==== Sys2Proof/Machine/Sampler.lean ====
section
/-! DEFINITION. The sampler (28 R477 to R491, 29 R499 to R507): texture descriptors, Lantern and its weight tables,
filtering, and TEXS, TEXL, TEXG, TEXQ, TEXD and TWFENCE. -/

namespace Sys2Proof.Machine

/-! ## FP32 arithmetic of the sampler -/

/-- RoundRNE(x, F32) as a value. -/
def rne (x : Val) : Val := decodeF 0 false ((fmtOf 0 false).round 0 false x).1
/-- The FP32 code of a value. -/
def codeF (x : Val) : W32 := BitVec.ofNat 32 ((fmtOf 0 false).round 0 false x).1
/-- An FP32 register as a value. -/
def valF (x : W32) : Val := decodeF 0 false x.toNat
/-- +0. -/
def zeroV : Val := Val.ofInt 0
/-- floor of a finite value. -/
def floorV (x : Val) : Int := roundInt 3 x
/-- A NaN or infinite coordinate is read as 0 (28 R488). -/
def coordOf (x : Val) : Val := match x with
  | .fin n a b => .fin n a b
  | .nan _ | .inf _ => zeroV
/-- A position that rounds to an infinity is the largest finite value of its sign. -/
def finiteOf (x : Val) : Val := match x with
  | .inf n => decodeF 0 false (if n then 0xFF7FFFFF else 0x7F7FFFFF)
  | .nan _ | .fin _ _ _ => x
/-- acc + w × c, rounded once. -/
def addScaled (acc w c : Val) : Val := rne (fmaVal 0 w c acc).1

/-! ## Texture descriptors (28 R477 to R480) -/

/-- The bytes of a descriptor. -/
def texDescBytes : Nat := 128

/-- A descriptor as its bytes give it. -/
def parseTex (b : List Byte) : TexDesc :=
  { base := fieldN b 0 8, width := fieldN b 8 4, height := fieldN b 12 4, levels := fieldN b 16 1, format := fieldN b 17 1
    addrU := fieldN b 18 1, addrV := fieldN b 19 1, linear := fieldN b 20 1 % 2 = 1, mip := fieldN b 20 1 / 2 % 2 = 1
    bias := BitVec.ofNat 32 (fieldN b 24 4), border := (upto 4).map fun c => BitVec.ofNat 32 (fieldN b (32 + 4 * c) 4)
    wtable := fieldN b 48 8 }

/-- The lowest cause code from 3 to 8 that a descriptor meets (29 R502). -/
def texFault (latent : Bool) (b : List Byte) : Option Nat :=
  let d := parseTex b
  let size (n : Nat) : Bool := 1 ≤ n && n ≤ 65536
  if fieldN b 56 72 ≠ 0 || fieldN b 28 4 ≠ 0 || fieldN b 21 3 ≠ 0 || 4 ≤ fieldN b 20 1 then some 3
  else if !(size d.width && size d.height) || d.levels = 0 || 1 + Nat.log2 (max d.width d.height) < d.levels || 3 < d.addrU ||
      3 < d.addrV then some 4
  else if d.base % 128 ≠ 0 then some 5
  else if 4 ≤ d.format then some 6
  else if d.format = 0 && !latent then some 7
  else if d.wtable % 128 ≠ 0 || (d.format = 0) = (d.wtable = 0) then some 8
  else none

/-- Level sizes (28 R478). -/
def TexDesc.w (d : TexDesc) (l : Nat) : Nat := max 1 (d.width / 2 ^ l)
def TexDesc.h (d : TexDesc) (l : Nat) : Nat := max 1 (d.height / 2 ^ l)
/-- Bytes of a texel (28 R479). -/
def TexDesc.texelBytes (d : TexDesc) : Nat := match d.format with
  | 1 => 4
  | 2 => 8
  | 3 => 16
  | _ => 8
/-- Bytes of a level, and where it starts. -/
def TexDesc.size (d : TexDesc) (l : Nat) : Nat :=
  if d.format = 0 then 8 * ((d.w l + 3) / 4) * ((d.h l + 3) / 4) else d.w l * d.h l * d.texelBytes
def TexDesc.off (d : TexDesc) : Nat → Nat
  | 0 => 0
  | l + 1 => TexDesc.off d l + (d.size l + 127) / 128 * 128
/-- The address of what holds a texel: the texel, or its latent block. -/
def TexDesc.addrOf (d : TexDesc) (l x y : Nat) : Nat :=
  let i := if d.format = 0 then 8 * (y / 4 * ((d.w l + 3) / 4) + x / 4) else (y * d.w l + x) * d.texelBytes
  (d.base + d.off l + i) % 2 ^ 64

/-! ## Lantern (28 R481 to R483) -/

/-- Clamp(s, hi). -/
def clampTo (hi : Nat) (s : Val) : Val :=
  if s.isNan || !ltVal false zeroV s then zeroV
  else if ltVal false (Val.ofInt hi) s then Val.ofInt hi else s

/-- One neuron: the bias, then each product added with one rounding. -/
def neuron (b : Val) (ws xs : List Val) : Val := (ws.zip xs).foldl (fun s p => addScaled s p.1 p.2) b

/-- A layer of `m` neurons of `n` inputs: its weights from index `wi`, its biases from `bi`. -/
def layer (wt : List Val) (wi bi n m hi : Nat) (xs : List Val) : List Val :=
  (upto m).map fun j => clampTo hi (neuron (wt.getD (bi + j) zeroV) ((wt.drop (wi + n * j)).take n) xs)

/-- Lantern: the four channels of a texel of a latent block. -/
def lantern (weights : List (BitVec 16)) (block : List Byte) (px py : Nat) : List Val :=
  let wt := weights.map fun x => decodeF 2 false x.toNat
  let pos (p : Nat) : Val := Val.ofRat (2 * (p : Int) - 3) 4 false
  let x := (block.map fun b => decodeF 11 false b.toNat) ++ [pos px, pos py]
  let h1 := layer wt 0 160 10 16 8 x
  let h2 := layer wt 176 432 16 16 8 h1
  layer wt 448 512 16 4 1 h2

/-! ## Weight tables (28 R484, R485) -/

/-- The bytes of a table, with its padding. -/
def tableLen : Nat := 1152
/-- The weights of a table. -/
def tableWeights (b : List Byte) : List (BitVec 16) := (upto 516).map fun i => BitVec.ofNat 16 (fieldN b (64 + 2 * i) 2)

/-- The lowest cause code from 10 to 13 that a table meets. -/
def tableFault (b : List Byte) : Option Nat :=
  let sum := (upto 258).foldl (fun a j => a + fieldN b (64 + 4 * j) 4) 0 % 2 ^ 32
  if fieldN b 0 4 ≠ 0x0A101004 then some 10
  else if fieldN b 8 4 ≠ 0x480 then some 11
  else if fieldN b 12 4 ≠ sum then some 12
  else if fieldN b 16 48 ≠ 0 then some 13
  else none

/-- A table in a core's cache. -/
def tableHit (s : State) (core ctx addr : Nat) : Option WtEnt := (s.core core).wts.find? fun e => e.ctx = ctx && e.addr = addr

/-- Put a table first in a core's cache; the least recently used leaves a full one. -/
def putTable (core : Nat) (e : WtEnt) (s : State) : State :=
  s.modCore core fun k => { k with wts := (e :: k.wts.filter fun x => !(x.ctx = e.ctx && x.addr = e.addr)).take Config.wtCache }

/-- Drop a table. -/
def dropTable (core ctx addr : Nat) (s : State) : State :=
  s.modCore core fun k => { k with wts := k.wts.filter fun x => !(x.ctx = ctx && x.addr = addr) }

/-- An operation under whose view a warp's command reads at its acceptance. -/
def readerOp (s : State) (c : Iss) (w : Nat) : Op :=
  { kind := .eng .twfence, coh := c.coh, warp := w, core := c.core, vacc := (s.warp c.coh w).view }

/-- The table a command names, most recently used now. Its checks have put it in the cache (28 R485): only a check does. -/
def useTable (core ctx addr : Nat) (s : State) : WtEnt × State :=
  match tableHit s core ctx addr with
  | some x => (x, putTable core x s)
  | none => ({ ctx, addr, weights := [] }, s)

/-! ## Taps (28 R487, R488) -/

/-- A tap coordinate under an address mode; none takes the border colour. -/
def axisMap (mode n : Nat) (x : Int) : Option Nat :=
  match mode with
  | 0 => some (x % n).toNat
  | 1 => some (min (max x 0) ((n : Int) - 1)).toNat
  | 2 =>
    let m := (x % (2 * n : Nat)).toNat
    some (if m < n then m else 2 * n - 1 - m)
  | _ => if 0 ≤ x && x < n then some x.toNat else none

/-- The texel a tap reads. -/
def TexDesc.tapAt (d : TexDesc) (l : Nat) (x y : Int) : Option (Nat × Nat) :=
  match axisMap d.addrU (d.w l) x, axisMap d.addrV (d.h l) y with
  | some a, some b => some (a, b)
  | _, _ => none

/-- The taps of one level: one texel as it is, or texels with their weights in 1/65536. -/
structure LevelTaps where
  level : Nat
  single : Bool
  taps : List (Nat × Int × Int)

/-- The position, its floor and its fraction in 1/256 along one axis. -/
def linearPos (s : Val) (n : Nat) : Int × Nat :=
  let x := finiteOf (rne (addVal 0 (mulVal s (Val.ofInt n)).1 (Val.ofRat (-1) 2 false)).1)
  let x0 := floorV x
  (x0, (roundInt 0 (mulVal (addVal 0 x (Val.ofInt (-x0))).1 (Val.ofInt 256)).1).toNat)

/-- The four linear taps of a level, with their weights. -/
def linearTaps (d : TexDesc) (l : Nat) (s t : Val) : List (Nat × Int × Int) :=
  let (x, fx) := linearPos (coordOf s) (d.w l)
  let (y, fy) := linearPos (coordOf t) (d.h l)
  [((256 - fx) * (256 - fy), x, y), (fx * (256 - fy), x + 1, y), ((256 - fx) * fy, x, y + 1), (fx * fy, x + 1, y + 1)]

/-- The taps of a level that take part. -/
def levelTaps (d : TexDesc) (l : Nat) (s t : Val) : LevelTaps :=
  if d.linear then { level := l, single := false, taps := (linearTaps d l s t).filter fun p => p.1 ≠ 0 }
  else
    let at_ (v : Val) (n : Nat) : Int := floorV (mulVal (coordOf v) (Val.ofInt n)).1
    { level := l, single := true, taps := [(65536, at_ s (d.w l), at_ t (d.h l))] }

/-! ## Level of detail (28 R489) -/

/-- λ with the bias, clamped to the levels. -/
def lodOf (d : TexDesc) (x : Val) : Val :=
  let v := (addVal 0 x (valF d.bias)).1
  let top := Val.ofInt ((d.levels : Int) - 1)
  if v.isNan || ltVal false v zeroV then zeroV else if ltVal false top v then top else v

/-- The levels of a sample with their weights in 1/256. -/
def sampleTaps (d : TexDesc) (lod s t : Val) : List (Nat × LevelTaps) :=
  if !d.mip then [(256, levelTaps d (floorV (addVal 0 lod (Val.ofRat 1 2 false)).1).toNat s t)]
  else
    let l0 := (floorV lod).toNat
    let fl := (roundInt 0 (mulVal (addVal 0 lod (Val.ofInt (-(l0 : Int)))).1 (Val.ofInt 256)).1).toNat
    if l0 + 1 = d.levels || fl = 0 then [(256, levelTaps d l0 s t)]
    else if fl = 256 then [(256, levelTaps d (l0 + 1) s t)]
    else [(256 - fl, levelTaps d l0 s t), (fl, levelTaps d (l0 + 1) s t)]

/-! ## Cone footprints (28 R490) -/

/-- log2 of a positive finite value, to 2^-700. -/
def log2Val (n d : Nat) : Val :=
  let e := flog2 n d
  let m := if 0 ≤ e then n else n * 2 ^ (-e).toNat
  let k := if 0 ≤ e then d * 2 ^ e.toNat else d
  Val.ofRat (e * fxOne + fxLog2 m k) fxOne false

/-- The lesser of two values that are not NaN. -/
def minVal (a b : Val) : Val := if ltVal false b a then b else a

/-- max(|c|, 1/16); a NaN c gives 1/16. -/
def coneCos (c : Val) : Val :=
  let a := match c with
    | .inf _ => .inf false
    | .fin _ n d => .fin false n d
    | .nan b => .nan b
  let m := Val.ofRat 1 16 false
  if a.isNan || ltVal false a m then m else a

/-- The positions and the level of detail of a cone's taps: λ before the bias, none where it is below every level. A width
that is not positive and finite has one tap, at the centre. -/
def coneTaps (d : TexDesc) (s t w c ax ay : Val) : Option Val × List (Val × Val) :=
  let axis (a : Val) : Val := if a.isNan then zeroV else a
  let pos (x a dist : Val) (n : Nat) : Val :=
    finiteOf (rne (addVal 0 (coordOf x) (divVal (mulVal (axis a) dist).1 (Val.ofInt n)).1).1)
  let tap (dist : Val) : Val × Val := (pos s ax dist d.width, pos t ay dist d.height)
  match w with
  | .nan _ | .fin true _ _ | .fin false 0 _ | .inf true => (none, [tap zeroV])
  | .inf false => (some (.inf false), [tap zeroV])
  | .fin false n k =>
    let major := minVal (divVal w (coneCos c)).1 (mulVal w (Val.ofInt 16)).1
    let count := max 1 (roundInt 2 (divVal major w).1).toNat
    (some (log2Val n k), (upto count).map fun (i : Nat) =>
      tap (mulVal (Val.ofRat (2 * (i : Int) + 1 - (count : Int)) (2 * count) false) major).1)

/-! ## Sampling -/

/-- What a covered thread's command reads. -/
inductive TexPlan where
  /-- one sample: TEXS and TEXL.LOD -/
  | one (x : List (Nat × LevelTaps))
  /-- the samples of a footprint -/
  | cone (xs : List (List (Nat × LevelTaps)))
  /-- one channel of four taps -/
  | gather (ch : Nat) (x : LevelTaps)

/-- The taps of a plan: level and coordinates. -/
def TexPlan.taps : TexPlan → List (Nat × Int × Int)
  | .one x => x.flatMap fun p => p.2.taps.map fun t => (p.2.level, t.2)
  | .cone xs => xs.flatMap fun x => x.flatMap fun p => p.2.taps.map fun t => (p.2.level, t.2)
  | .gather _ x => x.taps.map fun t => (x.level, t.2)

/-- The accesses of a plan. -/
def TexPlan.accs (d : TexDesc) (p : TexPlan) : List Acc :=
  p.taps.filterMap fun t => (d.tapAt t.1 t.2.1 t.2.2).map fun x => (d.addrOf t.1 x.1 x.2, d.texelBytes)

/-- The four channels of a texel, from the bytes that hold it (28 R479). -/
def texelOf (d : TexDesc) (weights : List (BitVec 16)) (bs : List Byte) (x y : Nat) : List Val :=
  match d.format with
  | 0 => lantern weights bs (x % 4) (y % 4)
  | 1 => (upto 4).map fun c => rne (Val.ofRat (fieldN bs c 1) 255 false)
  | 2 => (upto 4).map fun c => decodeF 1 false (fieldN bs (2 * c) 2)
  | _ => (upto 4).map fun c => decodeF 0 false (fieldN bs (4 * c) 4)

/-- Read one tap. -/
def readTap (o : Op) (d : TexDesc) (weights : List (BitVec 16)) (ret l : Nat) (x y : Int) (e : Eng) : List Val × Eng :=
  match d.tapAt l x y with
  | none => (d.border.map valF, e)
  | some (a, b) =>
    let (bs, e) := engRead o ret (d.addrOf l a b) d.texelBytes e
    (texelOf d weights bs a b, e)

/-- Filter within a level (28 R488). -/
def evalLevel (o : Op) (d : TexDesc) (weights : List (BitVec 16)) (ret : Nat) (x : LevelTaps) (e : Eng) : List Val × Eng :=
  x.taps.foldl (fun (a : List Val × Eng) t =>
    let (c, e) := readTap o d weights ret x.level t.2.1 t.2.2 a.2
    (if x.single then c else (a.1.zip c).map fun p => addScaled p.1 (Val.ofRat t.1 65536 false) p.2, e))
    (List.replicate 4 zeroV, e)

/-- A sample: one level, or two combined (28 R489). -/
def evalSample (o : Op) (d : TexDesc) (weights : List (BitVec 16)) (ret : Nat) (x : List (Nat × LevelTaps)) (e : Eng) :
    List Val × Eng :=
  match x with
  | [(w0, a), (w1, b)] =>
    let (c0, e) := evalLevel o d weights ret a e
    let (c1, e) := evalLevel o d weights ret b e
    ((c0.zip c1).map fun p => addScaled (rne (mulVal p.1 (Val.ofRat w0 256 false)).1) (Val.ofRat w1 256 false) p.2, e)
  | (_, a) :: _ => evalLevel o d weights ret a e
  | [] => (List.replicate 4 zeroV, e)

/-- The four results of a thread. -/
def evalPlan (o : Op) (d : TexDesc) (weights : List (BitVec 16)) (ret : Nat) (p : TexPlan) (e : Eng) : List Val × Eng :=
  match p with
  | .one x => evalSample o d weights ret x e
  | .gather ch x => x.taps.foldl (fun (a : List Val × Eng) t =>
      let (c, e) := readTap o d weights ret x.level t.2.1 t.2.2 a.2
      (a.1 ++ [c.getD ch zeroV], e)) ([], e)
  | .cone xs =>
    let (acc, e) := xs.foldl (fun (a : List Val × Eng) x =>
      let (c, e) := evalSample o d weights ret x a.2
      ((a.1.zip c).map fun p => rne (addVal 0 p.1 p.2).1, e)) (List.replicate 4 zeroV, e)
    (acc.map fun v => rne (divVal v (Val.ofInt xs.length)).1, e)

/-! ## Commands (29 R500 to R504) -/

/-- VD of a sampler command. -/
def texVd (f : Fields) : Nat := f.immBits 7 0

/-- The registers a command reads and writes lie in the warp's allocation (DETAIL 70). -/
def runsGate (c : Iss) (f : Fields) (n : Nat) (quad : Bool) (w : Nat) (s : State) : Gate :=
  let a := (s.warp c.coh w).alloc
  let v := f.sb.idx.toNat
  if (v ≠ 255 && a < v + n) || (quad && a < texVd f + 4) then badOperand 70 0 else .pass s

/-- The sampler trap. -/
def texTrap (detail addr : Nat) : Gate := .trap { code := 8, detail, addr }

/-- Every page of some ranges translates for reading; else the sampler trap. -/
def texPages (c : Iss) (detail addr : Nat) (as_ : List Acc) (s : State) : Gate :=
  gateAll (as_.flatMap fun a => pagesOf a.1 a.2) (fun va s =>
    match translate s c.core (s.coh c.coh).ctx va .read with
    | .ok _ => .pass (s.tlbNote c.core (s.coh c.coh).ctx va)
    | .fault _ => texTrap detail addr
    | .hole => .hole) s

/-- The bytes of a warp's descriptor, as its checks have read them: the command runs under what was checked (28 R480;
DEDUCED, log 87). -/
def descBytes (s : State) (w : Nat) : List Byte := FMap.getD [] s.descs w

/-- The checks of a descriptor (29 R502, codes 1 to 8, or 1 to 6 and 15 of a BVH): alignment, page, contents. -/
def descGate (c : Iss) (f : Fields) (n : Nat) (fault : List Byte → Option Nat) (w : Nat) (s : State) : Gate :=
  let a := opSA s c f w
  if a % n ≠ 0 then texTrap 1 a
  else (texPages c 2 a [(a, n)] s).andThen fun s => (readHold c w (a, n) s).andThen fun s =>
    let (s, b) := warpRead c w (engRet f) a n s
    match fault b with
    | some d => texTrap d a
    | none => .pass { s with descs := FMap.put w b s.descs }

/-- The checks of a weight table that is not cached (29 R502, codes 9 to 13); one that passes is installed (28 R485). The
tables of one group are all in the cache then: it holds one for each warp a group can have. -/
def tableGate (c : Iss) (f : Fields) (addr w : Nat) (s : State) : Gate :=
  let ctx := (s.coh c.coh).ctx
  match tableHit s c.core ctx addr with
  | some x => .pass (putTable c.core x s)
  | none => (texPages c 9 addr [(addr, tableLen)] s).andThen fun s => (readHold c w (addr, tableLen) s).andThen fun s =>
    let (s, b) := warpRead c w (engRet f) addr tableLen s
    match tableFault b with
    | some d => texTrap d addr
    | none => .pass (putTable c.core { ctx, addr, weights := tableWeights b } s)

/-- The descriptor of a warp's command. -/
def texDesc (s : State) (w : Nat) : TexDesc := parseTex (descBytes s w)

/-- A thread's plan by its instruction. -/
abbrev Planner := TexDesc → (Nat → Val) → TexPlan

/-- The plans of a warp's covered threads, in lane order. -/
def texPlans (plan : Planner) (s : State) (c : Iss) (f : Fields) (w : Nat) : List (Nat × TexPlan) :=
  let d := texDesc s w
  (c.lanesOn f s w).map fun l => (l, plan d fun i => valF ((s.warp c.coh w).readV (f.sb.idx.toNat + i) l))

/-- The texels that a sampler command is to read at its acceptance (28 R491): an acquire of the warp in whose reach they lie
holds the acceptance, and the group with it, since a command that is accepted has read them (16 R310; DESIGN CHOICE, log
102). -/
def texelHold (c : Iss) (w : Nat) (as_ : List Acc) (s : State) : Gate :=
  gateAcq c (as_.flatMap fun a => (accReach s c a).map fun r => (w, r)) s

/-- The checks of a warp's sampling command (29 R501). -/
def sampleGate (n : Nat) (plan : Planner) (c : Iss) (f : Fields) (w : Nat) (s : State) : Gate :=
  (runsGate c f n true w s).andThen fun s =>
    (descGate c f texDescBytes (texFault (s.hasCap (fnOf (s.coh c.coh).ctx) 2)) w s).andThen fun s =>
      let d := texDesc s w
      (if d.format = 0 then tableGate c f d.wtable w s else .pass s).andThen fun s =>
        let as_ := (texPlans plan s c f w).flatMap fun p => p.2.accs d
        (texPages c 14 (opSA s c f w) as_ s).andThen (texelHold c w as_)

/-- What a sampling command reads. -/
def sampleAccs (plan : Planner) (c : Iss) (f : Fields) (s : State) (w : Nat) : List Acc :=
  let d := texDesc s w
  let table := if d.format = 0 && (tableHit s c.core (s.coh c.coh).ctx d.wtable).isNone then [(d.wtable, tableLen)] else []
  (opSA s c f w, texDescBytes) :: table ++ (texPlans plan s c f w).flatMap fun p => p.2.accs d

/-- The writes of a thread's four results. -/
def quadWrites (f : Fields) (l : Nat) (vs : List W32) : List RegW := vs.zipIdx.map fun p => .v (texVd f + p.2) l p.1

/-- The fabric failure a command met at its acceptance, as the failure of its request to that line. -/
def failedParts (e : Eng) (ps : List Part) : List Part :=
  match e.fail with
  | none => ps
  | some (cause, peer, va) => { act := .load, line := (peer + 1) * 2 ^ 45, va, done := true, fail := some (cause, peer) } :: ps

/-- A warp's command is accepted with its results; they are written at completion. -/
def startTex (c : Iss) (f : Fields) (w : Nat) (lanes : List Nat) (ws : List RegW) (soft : Bool) (ps : List Part) (e : Eng) :
    State :=
  let id := e.s.nextOp
  (startEng c w f.dst (quadVd f) (laneMask lanes) (.tex ws lanes.length 0 0) e.s).modOp id fun o =>
    { o with rd := e.rd, soft, parts := failedParts e ps }

/-- The group's tables that hold an uncorrectable error are dropped, once its commands have met it (28 R486). -/
def dropBad (core : Nat) (addrs : List Nat) (ctx : Nat) (s : State) : State :=
  forEach addrs (fun a s => if (tableHit s core ctx a).any WtEnt.bad then dropTable core ctx a s else s) s

/-- A warp's sampling command, its descriptor read by its checks, reads its texels at acceptance (28 R491). -/
def startSample (plan : Planner) (c : Iss) (f : Fields) (w : Nat) (s : State) : State :=
  let o := readerOp s c w
  let plans := texPlans plan s c f w
  let ret := engRet f
  let ps := peerParts s c (sampleAccs plan c f s w)
  let d := texDesc s w
  let (weights, bad, s) := if d.format = 0 then
      let (t, s) := useTable c.core (s.coh c.coh).ctx d.wtable s
      (t.weights, t.bad, s)
    else ([], false, s)
  let (ws, e) := plans.foldl (fun (a : List RegW × Eng) p =>
    let (vs, e) := evalPlan o d weights ret p.2 a.2
    (a.1 ++ quadWrites f p.1 (vs.map codeF), e)) ([], { s })
  startTex c f w (plans.map Prod.fst) ws bad ps e

/-- The tables that the commands of a group name. -/
def groupTables (c : Iss) (f : Fields) (s : State) : List Nat :=
  (c.warpsOn f s).filterMap fun w =>
    let d := texDesc s w
    if d.format = 0 then some d.wtable else none

/-- TEXS, TEXL and TEXG. -/
def issueSample (i : Instr) (f : Fields) (n : Nat) (plan : Planner) (s : State) : Host.Outcome State Fault Refusal :=
  issue i f (fun c s => engGate c f (sampleGate n plan c f) (sampleAccs plan c f) false s)
    (fun c s => leaveNext c f.bnd (dropBad c.core (groupTables c f s) (s.coh c.coh).ctx
      (perWarp c f s (startSample plan c f) s))) s

/-- The plan of TEXS. -/
def planTexs (d : TexDesc) (r : Nat → Val) : TexPlan := .one (sampleTaps d (lodOf d zeroV) (r 0) (r 1))
/-- The plan of TEXL: a given level of detail, or a cone. -/
def planTexl (f : Fields) (d : TexDesc) (r : Nat → Val) : TexPlan :=
  if f.modn = 0 then .one (sampleTaps d (lodOf d (r 2)) (r 0) (r 1))
  else
    let (lod, ps) := coneTaps d (r 0) (r 1) (r 2) (r 3) (r 4) (r 5)
    let v := (lod.map (lodOf d)).getD zeroV
    .cone (ps.map fun p => sampleTaps d v p.1 p.2)
/-- The plan of TEXG: its level is chosen as with FILTER[1] = 0, and it takes the four linear taps. -/
def planTexg (f : Fields) (d : TexDesc) (r : Nat → Val) : TexPlan :=
  let l := (floorV (addVal 0 (lodOf d zeroV) (Val.ofRat 1 2 false)).1).toNat
  .gather (f.immBits 13 12) { level := l, single := false, taps := linearTaps d l (r 0) (r 1) }

/-- TEXS (29 R503). -/
def execTexs (f : Fields) (s : State) : Host.Outcome State Fault Refusal := issueSample (.texs f) f 2 planTexs s
/-- TEXL (29 R503). -/
def execTexl (f : Fields) (s : State) : Host.Outcome State Fault Refusal :=
  issueSample (.texl f) f (if f.modn = 1 then 8 else 4) (planTexl f) s
/-- TEXG (29 R503). -/
def execTexg (f : Fields) (s : State) : Host.Outcome State Fault Refusal := issueSample (.texg f) f 2 (planTexg f) s

/-- What TEXQ answers for a level (29 R504). -/
def queryLevel (d : TexDesc) (l : Nat) : List W32 :=
  let n (x : Nat) : W32 := BitVec.ofNat 32 x
  [if d.levels ≤ l then 0 else n (d.w l), if d.levels ≤ l then 0 else n (d.h l), n d.levels, n d.format]

/-- TEXQ (29 R504). -/
def execTexq (f : Fields) (s : State) : Host.Outcome State Fault Refusal :=
  issue (.texq f) f
    (fun c s => engGate c f (fun w s => (runsGate c f 1 true w s).andThen
      (descGate c f texDescBytes (texFault (s.hasCap (fnOf (s.coh c.coh).ctx) 2)) w))
      (fun s w => [(opSA s c f w, texDescBytes)]) false s)
    (fun c s => leaveNext c f.bnd (perWarp c f s (fun w t =>
      let lanes := c.lanesOn f s w
      startTex c f w lanes (lanes.flatMap fun l =>
        quadWrites f l (queryLevel (texDesc s w) ((s.warp c.coh w).readV f.sb.idx.toNat l).toNat)) false
        (peerParts t c [(opSA s c f w, texDescBytes)]) { s := t }) s)) s

/-! ## TEXD (29 R505) -/

/-- A thread's block address, and its position in the block. -/
def texdAddr (s : State) (c : Iss) (f : Fields) (w l : Nat) : Nat :=
  let x := s.warp c.coh w
  (x.readV f.sb.idx.toNat l).toNat + 2 ^ 32 * (x.readV (f.sb.idx.toNat + 1) l).toNat
def texdPos (s : State) (c : Iss) (f : Fields) (w l : Nat) : Nat × Nat :=
  let p := ((s.warp c.coh w).readV (f.sb.idx.toNat + 2) l).toNat
  (p % 4, p / 4 % 4)

/-- The check of a block address. -/
def blockAddrGate (c : Iss) (va : Nat) (s : State) : Gate :=
  (alignGate 3 va s).andThen fun s => match translate s c.core (s.coh c.coh).ctx va .read with
    | .ok _ => .pass (s.tlbNote c.core (s.coh c.coh).ctx va)
    | .fault n => .trap (memFault n va (auxEng false))
    | .hole => .hole

/-- The checks of a warp's TEXD. -/
def texdGate (c : Iss) (f : Fields) (w : Nat) (s : State) : Gate :=
  let t := opSA s c f w
  (runsGate c f 4 true w s).andThen fun s =>
    if t % 128 ≠ 0 then texTrap 8 t
    else (tableGate c f t w s).andThen fun s =>
      let vas := (c.lanesOn f s w).map (texdAddr s c f w)
      (gateAll vas (blockAddrGate c) s).andThen (texelHold c w (vas.map fun va => (va, 8)))

/-- What TEXD reads. -/
def texdAccs (c : Iss) (f : Fields) (s : State) (w : Nat) : List Acc :=
  let t := opSA s c f w
  (if (tableHit s c.core (s.coh c.coh).ctx t).isSome then [] else [(t, tableLen)]) ++
    (c.lanesOn f s w).map fun l => (texdAddr s c f w l, 8)

/-- A warp's TEXD. -/
def startTexd (c : Iss) (f : Fields) (w : Nat) (s : State) : State :=
  let o := readerOp s c w
  let lanes := c.lanesOn f s w
  let ps := peerParts s c (texdAccs c f s w)
  let (table, s) := useTable c.core (s.coh c.coh).ctx (opSA s c f w) s
  let (ws, e) := lanes.foldl (fun (a : List RegW × Eng) l =>
    let (bs, e) := engRead o (engRet f) (texdAddr s c f w l) 8 a.2
    let p := texdPos s c f w l
    (a.1 ++ quadWrites f l ((lantern table.weights bs p.1 p.2).map codeF), e)) ([], { s })
  startTex c f w lanes ws table.bad ps e

/-- TEXD (29 R505). -/
def execTexd (f : Fields) (s : State) : Host.Outcome State Fault Refusal :=
  issue (.texd f) f (fun c s => engGate c f (texdGate c f) (texdAccs c f) false s)
    (fun c s => leaveNext c f.bnd (dropBad c.core ((c.warpsOn f s).map (opSA s c f)) (s.coh c.coh).ctx
      (perWarp c f s (startTexd c f) s))) s

/-- TWFENCE (29 R506): the weight-table cache's entries are dropped at acceptance; no fill is in flight. -/
def execTwfence (f : Fields) (s : State) : Host.Outcome State Fault Refusal :=
  issue (.twfence f) f noCheck (fun c s => leaveNext c f.bnd (perWarp c f s (fun w s =>
    startPlain c f w .twfence (s.modCore c.core fun k => { k with wts := [] })) s)) s

end Sys2Proof.Machine
end

