-- ==== Sys2Proof/Machine/Rays.lean ====
section
/-! DEFINITION. Ray queries (28 R492 to R498, 29 R508): the BVH, the box and triangle tests in exact arithmetic, the
traversal, its result record, and RAYQ. -/

namespace Sys2Proof.Machine

/-! ## Descriptor, nodes and triangles (28 R492 to R494) -/

/-- The bytes of a BVH descriptor. -/
def bvhBytes : Nat := 64

/-- A descriptor as its bytes give it. -/
def parseBvh (b : List Byte) : BvhDesc :=
  { nodeBase := fieldN b 0 8, nodeCount := fieldN b 8 4, root := fieldN b 12 4, triBase := fieldN b 16 8
    triCount := fieldN b 24 4, budget := fieldN b 28 4 }

/-- Cause code 15 of a descriptor. -/
def bvhFault (b : List Byte) : Option Nat :=
  let d := parseBvh b
  if fieldN b 32 32 ≠ 0 || d.nodeBase % 128 ≠ 0 || d.triBase % 16 ≠ 0 || d.nodeCount = 0 || 2 ^ 30 ≤ d.nodeCount ||
      2 ^ 30 < d.triCount || d.nodeCount ≤ d.root then some 15 else none

/-- The node visits a query may make. -/
def BvhDesc.visits (d : BvhDesc) : Nat := if d.budget = 0 then 4 * d.nodeCount else d.budget

/-- Three values. -/
abbrev Vec3 := List Val

/-- Three FP32 values at an offset. -/
def vecAt (b : List Byte) (off : Nat) : Vec3 := (upto 3).map fun i => decodeF 0 false (fieldN b (off + 4 * i) 4)

/-- A ray: origin, direction, interval. -/
structure Ray where
  o : Vec3
  d : Vec3
  tmin : Val
  tmax : Val

/-- The ray in eight FP32 codes (29 R499). -/
def rayOf (r : List W32) : Ray :=
  let v (i : Nat) : Val := valF (r.getD i 0)
  { o := [v 0, v 1, v 2], d := [v 3, v 4, v 5], tmin := v 6, tmax := v 7 }

/-! ## The box test (28 R496) -/

/-- a ≤ b; a NaN compares false. -/
def leVal (a b : Val) : Bool := !a.isNan && !b.isNan && !ltVal false b a
/-- The greater of two values; a NaN stays. -/
def maxVal (a b : Val) : Val := if a.isNan then a else if b.isNan then b else if ltVal false a b then b else a
/-- The lesser of two values; a NaN stays. -/
def minNan (a b : Val) : Val := if a.isNan then a else if b.isNan then b else minVal a b
/-- A value rounded to F32 under a rounding code. -/
def roundTo (mode : Nat) (x : Val) : Val := decodeF 0 false ((fmtOf 0 false).round mode false x).1

/-- The interval one axis admits: none, or its rounded bounds. -/
def slab (o d lo hi : Val) : Option (Val × Val) :=
  if lo.isNan || hi.isNan || ltVal false hi lo then none
  else if d.isZero then (if leVal lo o && leVal o hi then some (.inf true, .inf false) else none)
  else
    let time (x : Val) : Val := (divVal (addVal 0 x o.negate).1 d).1
    let a := time lo
    let b := time hi
    some (roundTo 3 (minNan a b), roundTo 2 (maxVal a b))

/-- The box of a child: its entry time when it passes. -/
def boxEntry (r : Ray) (tcur : Val) (lo hi : Vec3) : Option Val := do
  let x ← slab (r.o.getD 0 zeroV) (r.d.getD 0 zeroV) (lo.getD 0 zeroV) (hi.getD 0 zeroV)
  let y ← slab (r.o.getD 1 zeroV) (r.d.getD 1 zeroV) (lo.getD 1 zeroV) (hi.getD 1 zeroV)
  let z ← slab (r.o.getD 2 zeroV) (r.d.getD 2 zeroV) (lo.getD 2 zeroV) (hi.getD 2 zeroV)
  let enter := maxVal (maxVal r.tmin x.1) (maxVal y.1 z.1)
  let leave := minNan (minNan tcur x.2) (minNan y.2 z.2)
  if leVal enter leave then some enter else none

/-! ## The triangle test (28 R496) -/

/-- A finite F32 value as a whole number of 2^-149; none for a NaN or an infinity. -/
def scaled (x : Val) : Option Int := match x with
  | .fin _ _ d => some (x.num * (2 ^ 149 / d : Nat))
  | .nan _ | .inf _ => none

/-- Three such numbers. -/
def scaled3 (v : Vec3) : Option (Int × Int × Int) := do
  let a ← scaled (v.getD 0 zeroV)
  let b ← scaled (v.getD 1 zeroV)
  let c ← scaled (v.getD 2 zeroV)
  some (a, b, c)

/-- Difference, cross product and dot product. -/
def sub3 (a b : Int × Int × Int) : Int × Int × Int := (a.1 - b.1, a.2.1 - b.2.1, a.2.2 - b.2.2)
def cross3 (a b : Int × Int × Int) : Int × Int × Int :=
  (a.2.1 * b.2.2 - a.2.2 * b.2.1, a.2.2 * b.1 - a.1 * b.2.2, a.1 * b.2.1 - a.2.1 * b.1)
def dot3 (a b : Int × Int × Int) : Int := a.1 * b.1 + a.2.1 * b.2.1 + a.2.2 * b.2.2

/-- A hit: its time and barycentric coordinates, the triangle, and whether it is front-facing. -/
structure Hit where
  t : Val
  u : Val
  v : Val
  tri : Nat
  prim : Nat
  front : Bool

/-- A quotient of whole numbers, with a divisor that is not 0. -/
def quot (a b : Int) : Val := Val.ofRat (if b < 0 then -a else a) b.natAbs false

/-- Test a triangle: Cramer's rule on o + t·d = V0 + β(V1 − V0) + γ(V2 − V0). -/
def triHit (r : Ray) (tcur : Val) (i : Nat) (b : List Byte) : Option Hit := do
  let o ← scaled3 r.o
  let d ← scaled3 r.d
  let v0 ← scaled3 (vecAt b 0)
  let v1 ← scaled3 (vecAt b 12)
  let v2 ← scaled3 (vecAt b 24)
  let e1 := sub3 v1 v0
  let e2 := sub3 v2 v0
  let q := sub3 o v0
  let n := cross3 e1 e2
  let det := -(dot3 d n)
  let t := quot (dot3 q n) det
  let u := quot (-(dot3 d (cross3 q e2))) det
  let v := quot (-(dot3 d (cross3 e1 q))) det
  let front := 0 < det
  let inside := leVal zeroV u && leVal zeroV v && leVal (addVal 0 u v).1 (Val.ofInt 1)
  if det ≠ 0 && inside && leVal r.tmin t && leVal t tcur && (front || fieldN b 40 4 % 2 = 1) then
    some { t, u, v, tri := i, prim := fieldN b 36 4, front }
  else none

/-! ## Traversal (28 R495) -/

/-- An entry of the stack. -/
inductive Entry where
  | node (i : Nat)
  | leaf (first count : Nat)

/-- How a query stands: its reads, the stack, the visits made, and the best hit; the reads it has made, oldest first, and
the number of the one that an uncorrectable soft error strikes, if any. -/
structure Trav where
  e : Eng
  stack : List Entry
  steps : Nat := 0
  tcur : Val
  best : Option Hit := none
  reads : List Acc := []
  soft : Option Nat := none

/-- A query ends at a read that fails (28 R497). -/
def Trav.failed (x : Trav) : Bool := x.e.bad || x.e.soft

/-- The fabric has failed the request of a command to a line: cause, peer and address (31 R517). -/
def Op.lineFail (o : Op) (s : State) (ctx : Nat) (a : Acc) : Option (Nat × Nat × Nat) :=
  o.parts.findSome? fun p => match p.fail with
    | none => none
    | some (cause, peer) =>
      if (chunksOf a.1 a.2).any fun ch => match translate s o.core ctx ch.1 .read with
          | .ok k => lineOf k = p.line
          | .fault _ | .hole => false
      then some (cause, peer, p.va) else none

/-- One read of a node or a triangle. -/
def rayRead (o : Op) (ret va n : Nat) (x : Trav) : List Byte × Trav :=
  let hit := x.soft = some x.reads.length
  let (b, e) := engRead o ret va n x.e
  let fail := match o.lineFail e.s (e.s.coh o.coh).ctx (va, n) with
    | some f => some f
    | none => e.fail
  (b, { x with e := { e with soft := e.soft || hit, fail }, reads := x.reads ++ [(va, n)] })

/-- Insert a child by entry time, then by child number. -/
def insertChild (x : Val × Entry) : List (Val × Entry) → List (Val × Entry)
  | [] => [x]
  | y :: r => if ltVal false x.1 y.1 then x :: y :: r else y :: insertChild x r

/-- The children of a node whose boxes pass, nearest first. -/
def passing (r : Ray) (tcur : Val) (b : List Byte) : List (Val × Entry) :=
  (upto 4).foldl (fun (l : List (Val × Entry)) c =>
    let w := fieldN b (96 + 4 * c) 4
    let kind := w / 2 ^ 30
    if kind = 1 || kind = 2 then
      match boxEntry r tcur (vecAt b (24 * c)) (vecAt b (24 * c + 12)) with
      | some t => insertChild (t, if kind = 1 then .node (w % 2 ^ 30) else .leaf (w % 2 ^ 30) (fieldN b (112 + c) 1)) l
      | none => l
    else l) []

/-- A hit replaces the best one when it is closer. -/
def better (x : Trav) (h : Hit) : Trav :=
  let closer := match x.best with
    | none => true
    | some y => ltVal false h.t y.t || (!ltVal false y.t h.t && h.tri < y.tri)
  if closer then { x with best := some h, tcur := roundTo 2 h.t } else x

/-- Test the triangles of a leaf, in index order. -/
def testLeaf (o : Op) (d : BvhDesc) (ret : Nat) (r : Ray) (first : Nat) : Nat → Trav → Trav
  | 0, x => x
  | n + 1, x =>
    let (b, x) := rayRead o ret ((d.triBase + 48 * first) % 2 ^ 64) 48 x
    if x.failed then x
    else testLeaf o d ret r (first + 1) n (match triHit r x.tcur first b with
      | some h => better x h
      | none => x)

/-- The status of a query that has ended by itself. -/
def endStatus (x : Trav) : Nat := if x.best.isSome then 1 else 0

/-- The traversal: its end status and what it found. Every turn of the loop pops one entry. -/
def traverse (o : Op) (d : BvhDesc) (ret : Nat) (r : Ray) (any : Bool) : Nat → Trav → Nat × Trav
  | 0, x => (endStatus x, x)
  | fuel + 1, x =>
    match x.stack with
    | [] => (endStatus x, x)
    | .node i :: rest =>
      if d.nodeCount ≤ i then (2, x)
      else if d.visits < x.steps + 1 then (3, { x with steps := x.steps + 1 })
      else
        let (b, x) := rayRead o ret ((d.nodeBase + 128 * i) % 2 ^ 64) 128 { x with stack := rest, steps := x.steps + 1 }
        if x.failed then (5, x)
        else
          let hits := (passing r x.tcur b).map Prod.snd
          if 64 < rest.length + hits.length then (4, x)
          else traverse o d ret r any fuel { x with stack := hits ++ rest }
    | .leaf first count :: rest =>
      if d.triCount < first + count then (2, x)
      else
        let x := testLeaf o d ret r first count { x with stack := rest }
        if x.failed then (5, x)
        else if any && x.best.isSome then (1, x)
        else traverse o d ret r any fuel x

/-- Entries a query can pop: its visits, and what they push. -/
def BvhDesc.pops (d : BvhDesc) : Nat := 5 * (d.visits + 1) + 1

/-- The result record (28 R497). -/
def rayRecord (status : Nat) (x : Trav) : List Byte :=
  match x.best with
  | none => leBytes 1 status ++ leBytes 23 0 ++ leBytes 4 x.steps ++ leBytes 4 0
  | some h =>
    let f (v : Val) : List Byte := leBytes 4 (codeF v).toNat
    leBytes 1 status ++ leBytes 1 (1 + 2 * h.front.toNat) ++ leBytes 2 0 ++ f h.t ++ f h.u ++ f h.v ++ leBytes 4 h.tri ++
      leBytes 4 h.prim ++ leBytes 4 x.steps ++ leBytes 4 0

/-- One thread's query from its start; `soft` numbers the read that a soft error strikes. -/
def castRay (o : Op) (d : BvhDesc) (ret : Nat) (any : Bool) (codes : List W32) (soft : Option Nat) (e : Eng) : Nat × Trav :=
  let r := rayOf codes
  traverse o d ret r any d.pops { e, stack := [.node d.root], tcur := r.tmax, soft }

/-- One thread's query of a command: its record is written, and the first failure of each kind is kept; the failure of
one query is none of another's (28 R497). -/
def runRay (o : Op) (d : BvhDesc) (ret : Nat) (any : Bool) (off l : Nat) (codes : List W32) (soft : Option Nat) (e : Eng) :
    Eng :=
  let (status, x) := castRay o d ret any codes soft { e with cause := 0, fail := none, soft := false }
  let y := { x.e with cause := 0, fail := none, soft := false }
  { engSpWrite o (off + 32 * l) (rayRecord status x) y with
    cause := if e.cause ≠ 0 then e.cause else x.e.cause
    fail := if e.fail.isSome then e.fail else x.e.fail
    soft := e.soft || x.e.soft }

/-! ## RAYQ (29 R508) -/

/-- The scratchpad offset of RAYQ. -/
def rayOff (f : Fields) : Nat := f.immBits 20 0

/-- The checks of a warp's RAYQ. -/
def rayGate (c : Iss) (f : Fields) (w : Nat) (s : State) : Gate :=
  (runsGate c f 8 false w s).andThen fun s => (descGate c f bvhBytes bvhFault w s).andThen fun s =>
    (alignGate 5 (rayOff f) s).andThen (rangeGate c (rayOff f) 1024)

/-- The rays of a warp's covered threads. -/
def raysOf (s : State) (c : Iss) (f : Fields) (w : Nat) : List (Nat × List W32) :=
  (c.lanesOn f s w).map fun l => (l, (upto 8).map fun i => (s.warp c.coh w).readV (f.sb.idx.toNat + i) l)

/-- What a warp's RAYQ reads: its descriptor, and each node and triangle its queries reach as memory stands (22 R416). -/
def rayqAccs (c : Iss) (f : Fields) (s : State) (w : Nat) : List Acc :=
  let o := readerOp s c w
  (opSA s c f w, bvhBytes) :: (raysOf s c f w).flatMap fun r =>
    (castRay o (parseBvh (descBytes s w)) (engRet f) (f.modn = 1) r.2 none { s }).2.reads

/-- A warp's RAYQ is accepted under the descriptor that its checks have read. -/
def startRayq (c : Iss) (f : Fields) (w : Nat) (s : State) : State :=
  let as_ := rayqAccs c f s w
  let id := s.nextOp
  holdCommand c w id (as_.flatMap (accReach s c)) (withPeers id (peerParts s c as_)
    (startPlain c f w (.rayq (parseBvh (descBytes s w)) (raysOf s c f w) (f.modn = 1) (rayOff f) (engRet f)) s))

/-- RAYQ (29 R508). -/
def execRayq (f : Fields) (s : State) : Host.Outcome State Fault Refusal :=
  issue (.rayq f) f (fun c s => engGate c f (rayGate c f) (rayqAccs c f) false s)
    (fun c s => leaveNext c f.bnd (perWarp c f s (startRayq c f) s)) s

end Sys2Proof.Machine
end

