-- ==== Sys2Proof/Machine/Tasks.lean ====
section
/-! DEFINITION. Group 11 (23 R427 to R441) and the steps of atomic sets that are Belfry's own (22 R413, R414, R417 to R422). -/

namespace Sys2Proof.Machine

/-! ## TSPAWN (23 R429, R430) -/

/-- The node a warp's TSPAWN names by its entry's address. -/
def spawnNode (s : State) (c : Iss) (f : Fields) (w : Nat) : Option Node :=
  (s.ctx (c.ctx s)).nodes.find? fun n => n.addr = opSA s c f w
/-- The records' offset, their count, and the tile list's address. -/
def spawnOff (s : State) (c : Iss) (f : Fields) (w : Nat) : Nat := lo32 (opSB s c f w)
def spawnCount (s : State) (c : Iss) (f : Fields) (w : Nat) : Nat := hi32 (opSB s c f w)
def spawnTiles (s : State) (c : Iss) (f : Fields) (w : Nat) : Nat := opSB1 s c f w

/-- Take overflow slots for some records, every page of each checked for writing: the state and the slots, or the trap (22
R409). -/
def takeSlots (core ctx node len : Nat) : Nat → State → Except Gate (State × List Nat)
  | 0, s => .ok (s, [])
  | n + 1, s =>
    match takeOverflow ctx len s with
    | none => .error (.trap { code := 0x0B, detail := node, addr := (s.ctx ctx).ovfbase.toNat })
    | some (s, a) =>
      match translateAll s core ctx .write (pagesOf a len) with
      | some (_, .fault k) => .error (.trap (memFault k a (auxEng true)))
      | some (_, .hole) => .error .hole
      | some (_, .ok _) | none => match takeSlots core ctx node len n s with
        | .error g => .error g
        | .ok (s, l) => .ok (s, a :: l)

/-- The overflow slots of each warp's TSPAWN: those records that the die's bin store has no room for. -/
def spillPlan (c : Iss) (f : Fields) : List Nat → Nat → State → List (Nat × Except Gate (List Nat))
  | [], _, _ => []
  | w :: ws, extra, s =>
    match spawnNode s c f w with
    | none => (w, .ok []) :: spillPlan c f ws extra s
    | some n =>
      let count := spawnCount s c f w
      let stored := min count ((Config.binStoreBytes - (binStoreUsed s (dieOf c.core) + extra)) / n.recsize)
      match takeSlots c.core (c.ctx s) n.idx n.recsize (count - stored) s with
      | .error g => [(w, .error g)]
      | .ok (t, l) => (w, .ok l) :: spillPlan c f ws (extra + stored * n.recsize) t

/-- The plan of one warp. -/
def spillOf (c : Iss) (f : Fields) (w : Nat) (s : State) : Except Gate (List Nat) :=
  (((spillPlan c f (c.warpsOn f s) 0 s).find? fun x => x.1 = w).map Prod.snd).getD (.ok [])

/-- The checks of a warp's TSPAWN. -/
def spawnGate (c : Iss) (f : Fields) (w : Nat) (s : State) : Gate :=
  let off := spawnOff s c f w
  let n := spawnCount s c f w
  let tl := spawnTiles s c f w
  (alignGate 4 off s).andThen fun s =>
    if n = 0 || 1024 < n then badOperand 51 0
    else (alignGate 6 tl s).andThen fun s => match spawnNode s c f w with
      | none => badOperand 50 0
      | some d =>
        (rangeGate c off (n * d.recsize) s).andThen fun s =>
          (if tl = 0 then .pass s else readGate c w (tl, 64) s).andThen fun s =>
            match spillOf c f w s with
            | .error g => g
            | .ok _ => .pass s

/-- A warp's TSPAWN is accepted: the tile list is copied, and its overflow slots are reserved. -/
def startSpawn (c : Iss) (f : Fields) (w : Nat) (s : State) : State :=
  let ctx := c.ctx s
  let tl := spawnTiles s c f w
  let (s, b) := if tl = 0 then (s, []) else warpRead c w 0 tl 64 s
  match spawnNode s c f w with
  | none => s
  | some n =>
    let count := spawnCount s c f w
    let stored := min count ((Config.binStoreBytes - binStoreUsed s (dieOf c.core)) / n.recsize)
    match takeSlots c.core ctx n.idx n.recsize (count - stored) s with
    | .error _ => s
    | .ok (s, l) =>
      startPlain c f w (.tspawn n.idx (spawnOff s c f w) count (if tl = 0 then [] else usableTiles b) l 0) s

/-- TSPAWN (23 R429). -/
def execTspawn (f : Fields) (s : State) : Host.Outcome State Fault Refusal :=
  issue (.tspawn f) f
    (fun c s => engGate c f (spawnGate c f)
      (fun s w => if spawnTiles s c f w = 0 then [] else [(spawnTiles s c f w, 64)]) true s)
    (fun c s => leaveNext c f.bnd (perWarp c f s (startSpawn c f) s)) s

/-! ## WDNEXT (22 R413, R414; 23 R431) -/

/-- The checks of a warp's WDNEXT. -/
def wdnextGate (c : Iss) (f : Fields) (w : Nat) (s : State) : Gate :=
  let t := opSA s c f w
  (alignGate 6 t s).andThen fun s => (readGate c w (t, 64) s).andThen fun s =>
    let (s, b) := warpRead c w 0 t 64 s
    let n := fieldN b 8 4
    if n = 0 || 2 ^ 24 < n || fieldN b 12 4 ≠ 0 || fieldN b 24 40 ≠ 0 then badOperand 52 t
    else (alignGate 2 (lo32 (opSB s c f w)) s).andThen (rangeGate c (lo32 (opSB s c f w)) 4)

/-- WDNEXT (23 R431). The distributor's own atomic touches no set (22 R416). -/
def execWdnext (f : Fields) (s : State) : Host.Outcome State Fault Refusal :=
  issue (.wdnext f) f (fun c s => engGate c f (wdnextGate c f) (fun s w => [(opSA s c f w, 64)]) true s)
    (fun c s => leaveNext c f.bnd (perWarp c f s (fun w t =>
      let table := opSA s c f w
      withPeers t.nextOp (peerParts t c [(table, 64)]) (startPlain c f w (.wdnext table (lo32 (opSB s c f w))) t)) s)) s

/-- The first untaken items of a table from item `i` on, at most `n` of them. The distributor reads the bitmap at its home,
under the command's leases; a byte that it cannot read stops the command. -/
def untaken (o : Op) (table nitem : Nat) : Nat → Nat → Nat → Eng → List Nat × Eng
  | 0, _, _, e => ([], e)
  | fuel + 1, i, n, e =>
    if n = 0 || nitem ≤ i then ([], e)
    else
      let (b, e) := engRead o 0 (table + 64 + i / 8) 1 e
      if e.bad then ([], e)
      else if (leNat b).testBit (i % 8) then untaken o table nitem fuel (i + 1) n e
      else
        let (l, e) := untaken o table nitem fuel (i + 1) (n - 1) e
        (i :: l, e)

/-- The tile lists of some items. -/
def itemTiles (o : Op) (items : Nat) (l : List Nat) (e : Eng) : List (Nat × List TileRef) × Eng :=
  l.foldl (fun (a : List (Nat × List TileRef) × Eng) i =>
    let (b, e) := engRead o 0 (items + 64 * i) 64 a.2
    (a.1 ++ [(i, usableTiles b)], e)) ([], e)

/-- The distributor's answer: the item of the largest share for the asking core, or the lowest when every share is small. -/
def pickItem (s : State) (core ctx : Nat) (l : List (Nat × List TileRef)) : Option Nat :=
  let better (a b : Nat × List TileRef) : Bool :=
    let x := shareOf s core ctx a.2
    let y := shareOf s core ctx b.2
    y.1 * max 1 x.2 < x.1 * max 1 y.2
  match bestBy better l with
  | none => none
  | some i =>
    let (n, d) := shareOf s core ctx i.2
    if d = 0 || 16 * n < d then l.head?.map Prod.fst else some i.1

/-- The distributor's atomic at the table's home: the item's bit is set and TAKEN rises, both or neither. -/
def takeItem (o : Op) (table i taken : Nat) (e : Eng) : Eng :=
  let ctx := (e.s.coh o.coh).ctx
  let at_ := table + 64 + i / 8
  match translate e.s o.core ctx at_ .write, translate e.s o.core ctx (table + 16) .write with
  | .ok k, .ok j =>
    if e.s.unreachable (lineOf k) then e.lost (lineOf k) at_
    else if e.s.unreachable (lineOf j) then e.lost (lineOf j) (table + 16)
    else
      let put (key : Nat) (bs : List Byte) (e : Eng) : Eng :=
        let (s, w) := e.s.homeStore (lineOf key) o.vacc 0 (cellsOfL key bs)
        { e with s := fireMonitors (lineOf key) s, hi := max e.hi w }
      put j (leBytes 8 (taken + 1)) (put k [e.s.byte k ||| BitVec.twoPow 8 (i % 8)] e)
  | .fault n, _ | _, .fault n => { e with cause := n }
  | _, _ => { e with cause := 2 }

/-- WDNEXT completes: the item is taken at the table's home, and its index is written to scratchpad; the failure of an
access ends it with nothing taken (07 R126, 15 R279). -/
def runWdnext (o : Op) (table off : Nat) (e : Eng) : Eng :=
  let (b, e) := engRead o 0 table 64 { e with via := .home }
  let nitem := fieldN b 8 4
  let (l, e) := untaken o table nitem nitem 0 256 e
  let (ts, e) := itemTiles o (fieldN b 0 8) l e
  if e.bad || o.fabricFail.isSome then { e with fail := if e.fail.isSome then e.fail else o.fabricFail }
  else match pickItem e.s o.core (e.s.coh o.coh).ctx ts with
    | none => engSpWrite o off (leBytes 4 0xFFFFFFFF) e
    | some i =>
      let e := takeItem o table i (fieldN b 16 8) e
      if e.bad then e else engSpWrite o off (leBytes 4 i) e

/-! ## Residency (23 R432, R433) -/

/-- The entry of an address's granule in a core's table. -/
def residOf (s : State) (core ctx va : Nat) : Option Resid :=
  (s.core core).resid.find? fun r => r.ctx = ctx && r.gran = granOf va

/-- RESQ (23 R432). -/
def execResq (f : Fields) (s : State) : Host.Outcome State Fault Refusal :=
  issue (.resq f) f noCheck (fun c s => leaveNext c f.bnd (forEach (c.warpsOn f s) (fun w t =>
    let v := match residOf s c.core (c.ctx s) (opSA s c f w) with
      | some r => 2 ^ 16 * r.pin.isSome.toNat + 2 ^ 15 + r.bytes
      | none => 0
    addCalc (.resq f) f c w (c.lanesOn f s w) [.s f.dst.idx.toNat (BitVec.ofNat 64 v)] 0 t) s)) s

/-- A warp's RESPIN: the result and the state. -/
def respin (c : Iss) (unpin : Bool) (va : Nat) (s : State) : State × Nat :=
  let ctx := c.ctx s
  let pin := (residOf s c.core ctx va).bind Resid.pin
  let set (p : Option Nat) (s : State) : State := s.modCore c.core fun k =>
    { k with resid := residUpdate ctx (granOf va) (fun r => { r with pin := p }) k.resid }
  if unpin then (if pin = some c.coh then (set none s, 3) else (s, 4))
  else match pin with
    | some k => (s, if k = c.coh then 4 else 2)
    | none =>
      if Config.pinMax ≤ ((s.core c.core).resid.filter fun r => r.pin.isSome).length then (s, 0)
      else (set (some c.coh) s, 1)

/-- RESPIN (23 R433). -/
def execRespin (f : Fields) (s : State) : Host.Outcome State Fault Refusal :=
  issueFixed (.respin f) f (fun c s => perWarp c f s (fun w t =>
    let (t, r) := respin c (f.modn = 1) (opSA s c f w) t
    t.writeS c.coh w f.dst.idx.toNat (BitVec.ofNat 64 r)) s) s

/-! ## Atomic sets (23 R434 to R436) -/

/-- Declare a warp's set, as though the earlier warps' were recorded. -/
def declare (c : Iss) (f : Fields) (w : Nat) (s : State) : Gate :=
  let base := opSA s c f w
  let len := (s.srcS c.coh w f.sb).toNat
  let ds := (s.ctx (c.ctx s)).decls
  (alignGate 7 base s).andThen fun s =>
    if len = 0 || len % 128 ≠ 0 || 2 ^ 30 < len then badOperand 53 0
    else if ds.any fun d => d.meets (base, len) then badOperand 54 base
    else if Config.declMax ≤ ds.length then badOperand 55 0
    else .pass (s.modCtx (c.ctx s) fun x => { x with decls := x.decls ++ [{ num := ds.length, base, len }] })

/-- ASDECL (23 R434): the declarations of a group are judged together, and recorded when all succeed. -/
def execAsdecl (f : Fields) (s : State) : Host.Outcome State Fault Refusal :=
  issue (.asdecl f) f (fun c s => gateAll (c.warpsOn f s) (declare c f) s)
    (fun c s =>
      let ws := c.warpsOn f s
      let first := (s.ctx (c.ctx s)).decls.length - ws.length
      leaveNext c f.bnd (forEach ws.zipIdx (fun w s =>
        s.writeS c.coh w.1 f.dst.idx.toNat (BitVec.ofNat 64 (first + w.2))) s)) s

/-- ASSEAL (23 R435): the group stalls until the seal is recorded. -/
def execAsseal (f : Fields) (s : State) : Host.Outcome State Fault Refusal :=
  issue (.asseal f) f (fun c s => if (c.warpsOn f s).isEmpty then .pass s else gateSeal c .asseal s)
    (fun c s => leaveNext c f.bnd s) s

/-- The code of WHY. -/
def SealWhy.code : SealWhy → Nat
  | .unsealed => 0
  | .undoFull => 1
  | .asseal => 2
  | .irrevocable => 3

/-- What ASSTAT.SET reads of a declaration. -/
def setStatus (s : State) (ctx coh n : Nat) : Nat :=
  match (s.ctx ctx).decls.find? fun d => d.num = n with
  | none => 0
  | some d => match d.holder with
    | none => 1
    | some k => if k = coh then 5 else 3

/-- What ASSTAT.TASK reads of a task. -/
def taskStatus (s : State) (coh : Nat) : Nat :=
  let h := s.coh coh
  2 ^ 32 * ((s.ctx h.ctx).decls.filter fun d => d.heldBy coh).length + 2 ^ 16 * h.undo.length + 2 ^ 8 * h.sealed.code +
    (if h.sealed = .unsealed then 0 else 1)

/-- ASSTAT (23 R436). -/
def execAsstat (f : Fields) (s : State) : Host.Outcome State Fault Refusal :=
  issueLongS (.asstat f) f
    (fun c s => if f.modn = 0 && (c.warpsOn f s).any fun w => 4096 ≤ (s.srcS c.coh w f.sa).toNat then badOperand 56 0
      else .pass s)
    (fun s k w => BitVec.ofNat 64
      (if f.modn = 0 then setStatus s (s.coh k).ctx k (s.srcS k w f.sa).toNat else taskStatus s k)) s

/-- SEAL_RECORD (22 R420, R422): Belfry's agent records a task's seal; a wound recorded before it wins. -/
def execSealRecord (cohort : Nat) (s : State) : Host.Outcome State Fault Refusal :=
  match s.cohorts.find cohort with
  | some h => match h.sealReq with
    | some why =>
      if h.status = .resident && !h.wounded && h.sealed = .unsealed then
        .next (s.modCoh cohort fun h => { h with sealed := why, sealReq := none })
      else .next s
    | none => .next s
  | none => .next s

/-- End the waits of a task for a set. -/
def endSetWaits (coh num : Nat) (s : State) : State :=
  forEach (s.ops.filter fun e => e.2.coh = coh && e.2.kind = .setWait num) (fun e => completeOp e.1) s

/-- SET_HANDOFF (22 R417): the oldest waiter acquires a set that no task holds, and executes its instruction again; so do
the holder's other groups that wait for it. A task sealed meanwhile acquires nothing and traps when it executes again. -/
def execSetHandoff (ctx decl : Nat) (s : State) : Host.Outcome State Fault Refusal :=
  match (s.ctx ctx).decls.find? fun d => d.num = decl with
  | none => .next s
  | some d =>
    let ws := setWaiters s ctx decl
    match d.holder with
    | some k => .next (if ws.contains k then endSetWaits k decl s else s)
    | none => match ws with
      | [] => .next s
      | k :: _ => .next (endSetWaits k decl (if (s.coh k).sealed = .unsealed then acquireSet k d s else s))

/-- Restore one undo record at its home, as a store of the task (22 R418). A store that the fabric fails (31 R517, R520) is
reported to nobody: the task has stopped (DESIGN CHOICE, log 75). -/
def restoreUndo (coh vreq : Nat) (u : Undo) (a : State × Nat) : State × Nat :=
  let core := (a.1.coh coh).core
  let s := (a.1.modCore core (Core.l1Drop u.line))
  let s := if isRemote (dieOf core) u.line then s.rdcDrop (dieOf core) u.line else s
  if (s.agentLoss u.line).isSome then (s, a.2)
  else
    let (s, w) := s.homeStore u.line vreq 0 (cellsOfL (u.line * Config.lineBytes) u.bytes)
    (fireMonitors u.line s, max a.2 w)

/-- UNDO_RESTORE (22 R418, R421): once a wounded task's accesses and commands have replied, its cursors are closed, which ends
step 2 of R418 (26 R473); its writes are undone, newest first, its sets released with their stamps, and its reservation
returned; it waits to be admitted again. -/
def execUndoRestore (cohort : Nat) (s : State) : Host.Outcome State Fault Refusal :=
  match s.cohorts.find cohort with
  | none => .next s
  | some h =>
    if !h.wounded || s.ops.any (fun e => e.2.coh = cohort) then .next s
    else
      let vreq := h.warps.foldl (fun a w => max a w.view) 0
      let (s, hi) := h.undo.foldl (fun a u => restoreUndo cohort vreq u a) (closeCursors cohort s, 0)
      let s := returnEnergy cohort (releaseSets cohort (max h.hmax hi) s)
      .next (grantSlots h.ctx (s.modCoh cohort fun h => { h with wounded := false, undo := [], warps := [], scratch := [] }))

/-! ## Register allocation, priority, launches (23 R437 to R441) -/

/-- REGGROW (23 R437, R438): every thread of the group arrives, whatever its guard. -/
def execReggrow (f : Fields) (s : State) : Host.Outcome State Fault Refusal :=
  issue (.reggrow f) f noCheck (fun c s =>
    arrive c c.ths (fun t => .grow f (guardHolds f.grd (s.thread c.coh t.1 t.2))) s) s

/-- REGSHR (23 R437, R438). -/
def execRegshr (f : Fields) (s : State) : Host.Outcome State Fault Refusal :=
  issue (.regshr f) f noCheck (fun c s =>
    arrive c c.ths (fun t => .shr f (guardHolds f.grd (s.thread c.coh t.1 t.2))) s) s

/-- PRIO (23 R439). -/
def execPrio (f : Fields) (s : State) : Host.Outcome State Fault Refusal :=
  let p := f.immBits 4 0
  issue (.prio f) f
    (fun c s =>
      let top := ((FMap.find s.launches (s.coh c.coh).launch).map Launch.prio).getD 0
      if !(c.warpsOn f s).isEmpty && top < p then badOperand 58 0 else .pass s)
    (fun c s => leaveNext c f.bnd (perWarp c f s (fun _ => State.modCoh c.coh fun h => { h with prio := p }) s)) s

/-- A warp's LAUNCH: Belfry accepts the launch, and the future waits for its completion; a record that cannot be read is
refused (23 R440). -/
def startLaunchCmd (c : Iss) (f : Fields) (w : Nat) (s : State) : State :=
  let ctx := c.ctx s
  let va := opSA s c f w
  let seq := s.seqNext
  let rd := (s.home (lineOf (keyOf s c va))).1
  (match s.readVirt ctx va 128 with
    | some b => startPlain c f w (.launch (some seq)) (acceptLaunch ctx va b s)
    | none => startPlain c f w (.launch none) s).modOp s.nextOp fun o => { o with rd }

/-- LAUNCH (23 R440). -/
def execLaunch (f : Fields) (s : State) : Host.Outcome State Fault Refusal :=
  issue (.launch f) f
    (fun c s => engGate c f (fun w s =>
      (alignGate 7 (opSA s c f w) s).andThen (readGate c w (opSA s c f w, 128)))
      (fun s w => [(opSA s c f w, 128)]) true s)
    (fun c s => leaveNext c f.bnd (perWarp c f s (startLaunchCmd c f) s)) s

/-- LAUNCH completes with its launch: the status, and the launch's C as the highest stamp read (23 R441). None while the
launch has not completed. -/
def runLaunch (s : State) (id : Nat) (o : Op) (seq : Option Nat) : Option State :=
  match seq with
  | none => some (finishEng id o 0 3 1 { s, rd := o.rd })
  | some n => match s.launches.find n with
    | none => some (finishEng id o 0 0 0 { s, rd := o.rd })
    | some l =>
      if l.done then some (finishEng id o 0 l.status (if l.status = 0 then 0 else 1) { s, rd := max o.rd l.c }) else none

/-! ## Warps (04 R104) -/

/-- WARP_RETIREMENT (04 R104; 17 R342; 19 R363): the warp's registers return to the core, the barriers count it no more,
and the joint set shrinks. A fabric failure left for it is a context fault (07 R137). -/
def execWarpRetirement (cohort warp : Nat) (s : State) : Host.Outcome State Fault Refusal :=
  match s.cohorts.find cohort with
  | none => .next s
  | some h =>
    let x := h.warp warp
    if h.status ≠ .resident || h.warps.length ≤ warp || x.retired || x.threads.any (fun t => t.st ≠ .finished) ||
        !x.trapq.isEmpty || (s.opsOf cohort warp).any (fun e => !e.2.idleShare && !e.2.isStream) then .next s
    else match x.fabFail with
    | some t => .next (contextFault h.ctx 4 0 t s)
    | none =>
      let s := s.modWarp cohort warp fun x => { x with retired := true, vregs := [], sregs := [], poison := [] }
      .next (shrinkJoint h.core cohort warp (forEach (upto 16) (tryPass cohort) s))

end Sys2Proof.Machine
end

