-- ==== Sys2Proof/Machine/Completion.lean ====
section
/-! DEFINITION. The completion of engine commands (15 R279, R280, R296; 23 R429 to R431, R441; 26 R467; 29 R500, R501). -/

namespace Sys2Proof.Machine

/-- What a command of group 7 does, with its COUNT and its CAUSE. -/
def runGroup7 (o : Op) (cmd : EngCmd) (e : Eng) : Eng × Nat × Nat :=
  match cmd with
  | .copy dir a b len ret => (runCopy o dir a b len ret e, 0, 0)
  | .planes t role nblk off b0 b1 ret => (runPlanes o t role nblk off b0 b1 ret e, 0, 0)
  | .cv32 t toScratch off b0 b1 ret => (runCv32 o t toScratch off b0 b1 ret e, 0, 0)
  | .lists t true block d dim base idx ret => runGather o t block d dim base ret 0 idx e
  | .lists t false block d dim base idx ret => (runScatter o t block d dim base ret 0 idx e, 0, 0)
  | .xpose src dst rows cols z => (runXpose o src dst rows cols z e, 0, 0)
  | _ => (e, 0, 0)

/-- Gathers and scatters send each part to its home (14 R264). -/
def EngCmd.via : EngCmd → Via
  | .lists _ _ _ _ _ _ _ _ => .home
  | _ => .core

/-- A command that stops before its end: each destination byte is old or new, by a free value (log 4). -/
def stopCommand (id : Nat) (o : Op) (cmd : EngCmd) (code : Nat) (s : State) : State :=
  let e : Eng := { s := { s with free := s.free + 1 }, pick := some (Config.freeValue s.free), via := cmd.via }
  finishEng id o 0 0 code (runGroup7 o cmd e).1

/-- The mark that a fabric failure of a gather leaves on its future: trap 0x0E at its first read (07 R127, 14 R266). -/
def gatherMarks (o : Op) (cmd : EngCmd) (fail : Option (Nat × Nat × Nat)) : List Poison :=
  match cmd, fail with
  | .lists _ true _ _ _ _ _ _, some (cause, peer, va) =>
    (o.dests.filter fun d => !d.vec).flatMap fun d => markLane false d.idx 1 0 0x0E (cause * 65536 + peer) va
  | _, _ => []

/-- A command of group 7 has run: its status, and the mark of a gather that the fabric stopped. -/
def finishRun7 (id : Nat) (o : Op) (cmd : EngCmd) (r : Eng × Nat × Nat) : State :=
  (finishRun id o r.2.1 r.2.2 r.1).markRegs o.coh o.warp (gatherMarks o cmd r.1.fail)

/-- The fabric fails a request of a command (31 R517): a gather has written a prefix of its list, of a free length (log 4);
any other command stops as it is. -/
def failGroup7 (id : Nat) (o : Op) (cmd : EngCmd) (fail : Nat × Nat × Nat) (s : State) : State :=
  match cmd with
  | .lists t true block d dim base idx ret =>
    let n := Config.freeValue s.free % (idx.length + 1)
    let e : Eng := { s := { s with free := s.free + 1 }, via := .home }
    let (e, count, cause) := runGather o t block d dim base ret 0 (idx.take n) e
    finishRun7 id o cmd ({ e with fail := some (e.fail.getD fail) }, count, cause)
  | _ => stopCommand id o cmd 3 s

/-- The marks of a sampler command's results: after an uncorrectable soft error, or a fabric failure (07 R127, 28 R486). -/
def texMarks (o : Op) (code detail addr : Nat) : List Poison :=
  o.dests.flatMap fun d =>
    if d.vec then ((upto 32).filter fun l => laneIn d.lanes l).flatMap fun l => markLane true d.idx 1 l code detail addr
    else []

/-- A sampler command completes. -/
def finishTex (id : Nat) (o : Op) (ws : List RegW) (count code cause : Nat) (s : State) : State :=
  let e : Eng := { s, rd := o.rd, hi := o.hi }
  if o.soft then finishEng id o 0 0 4 { e with s := s.markRegs o.coh o.warp (texMarks o 0x0F 2 0) }
  else match o.fabricFail with
    | some (c, peer, va) =>
      finishEng id o 0 0 3 { e with s := s.markRegs o.coh o.warp (texMarks o 0x0E (c * 65536 + peer) va) }
    | none => finishEng id o count cause code { e with s := s.regWs o.coh o.warp ws }

/-- The query and the read that an uncorrectable soft error of a command strikes: any of them, by free values (log 4). -/
def struckRead (o : Op) (d : BvhDesc) (rays : List (Nat × List W32)) (any : Bool) (ret : Nat) (s : State) : Option (Nat × Nat) :=
  if !o.soft || rays.isEmpty then none
  else
    let q := Config.freeValue s.free % rays.length
    let reads := (castRay o d ret any (rays.getD q (0, [])).2 none { s }).2.reads.length
    some (q, Config.freeValue (s.free + 1) % reads)

/-- RAYQ completes: its records are written (28 R497). -/
def finishRayq (id : Nat) (o : Op) (d : BvhDesc) (rays : List (Nat × List W32)) (any : Bool) (off ret : Nat) (s : State) :
    State :=
  let hit := struckRead o d rays any ret s
  let s := if o.soft then { s with free := s.free + 2 } else s
  let e := rays.zipIdx.foldl (fun e r =>
    runRay o d ret any off r.1.1 r.1.2 (hit.bind fun h => if h.1 = r.2 then some h.2 else none) e) ({ s, rd := o.rd } : Eng)
  finishRun id o rays.length 0 e

/-- A world command at its turn; with an uncorrectable soft error in Rotunda's structures it does nothing else (26 R467). -/
def finishWorld (id : Nat) (o : Op) (cmd : EngCmd) (s : State) : State :=
  if !worldTurn s id o cmd then s
  else if o.soft then finishEng id o 0 0 4 { s }
  else match cmd with
    | .queueChange cs vh => runChange id o cs vh s
    | .wqry n q => runWqry id o n q s
    | .wnext n cur off => runWnext id o n cur off s
    | .wclose n cur => runWclose id o n cur s
    | .wres hs off => runWres id o hs off s
    | .wcol hs comp vd => runWcol id o hs comp vd s
    | _ => s

/-- A command of group 7 completes; a cancelled one stops. -/
def finishGroup7 (id : Nat) (o : Op) (cmd : EngCmd) (s : State) : State :=
  if o.cancelled then stopCommand id o cmd 2 s
  else match o.fabricFail with
    | some fail => failGroup7 id o cmd fail s
    | none => finishRun7 id o cmd (runGroup7 o cmd { s, via := cmd.via })

/-- What the completion of a command does. -/
def finishCommand (id : Nat) (o : Op) (cmd : EngCmd) (s : State) : State :=
  match cmd with
  | .copy _ _ _ _ _ | .planes _ _ _ _ _ _ _ | .cv32 _ _ _ _ _ _ | .lists _ _ _ _ _ _ _ _ | .xpose _ _ _ _ _ =>
    finishGroup7 id o cmd s
  | .subs n =>
    match FMap.find (s.coh o.coh).streams n with
    | some x =>
      if o.cancelled then wakeSlotw o.coh n (endStream x 0 2 { s })
      else if o.fabricFail.isSome then stopStream o.coh n 0 3 x { s }
      else if o.soft then stopStream o.coh n 0 4 x { s }
      else s
    | none => s
  | .rfence | .twfence => finishEng id o 0 0 0 { s }
  | .queueChange _ _ | .wqry _ _ | .wnext _ _ _ | .wclose _ _ | .wres _ _ | .wcol _ _ _ => finishWorld id o cmd s
  | .tspawn _ _ count _ _ arrived =>
    if arrived < count then s else if o.soft then finishEng id o 0 0 4 { s } else finishEng id o count 0 0 { s }
  | .wdnext table off => finishRun id o 0 0 (runWdnext o table off { s, rd := o.rd })
  | .launch seq => (runLaunch s id o seq).getD s
  | .tex ws count code cause => finishTex id o ws count code cause s
  | .rayq d rays any off ret => finishRayq id o d rays any off ret s

/-- ENGINE_COMMAND_COMPLETION (15 R279, R280). A command whose acceptance an acquire held back is accepted first, once that has
replied (16 R310). -/
def execEngineCommandCompletion (op : Nat) (s : State) : Host.Outcome State Fault Refusal :=
  match s.ops.find op with
  | some o => match o.kind, o.held with
    | .eng cmd, none => .next (finishCommand op o cmd s)
    | .eng _, some r => .next (if acqAhead s op o.coh o.warp r then s else acceptHeld op o s)
    | _, _ => .next s
  | none => .next s

end Sys2Proof.Machine
end

