-- ==== Sys2Proof/Machine/Preempt.lean ====
section
/-! DEFINITION. Pre-emption (07 R138 to R148, R151 to R153; 15 R294; 19 R354, R372): rest, the fallback, the save of a
cohort, its resumption, and the ends of the phases of CTXSAVE and CTXLOAD. -/

namespace Sys2Proof.Machine

/-! ## Rest (07 R139, R144) -/

/-- A group that stalls in its slot and is at rest there: in MMCFG for ownership (20 R380), or before a CTXSAVE or CTXLOAD of
a function that is being pre-empted (07 R153). -/
def stallRests (s : State) (core slot coh : Nat) : Bool :=
  match found { s with cur := (core, slot) } with
  | .instr (.mmcfg _) => (s.mx core).claims.contains coh
  | .instr (.ctxsave _) | .instr (.ctxload _) => vfPaused s (fnOf (s.coh coh).ctx)
  | _ => false

/-- Every slot that holds a group of the cohort holds one at rest. -/
def slotsRest (s : State) (core coh : Nat) : Bool :=
  let k := s.core core
  k.slots.zipIdx.all fun x => match x.1 with
    | none => true
    | some e => match k.entries.find e with
      | none => true
      | some g => g.coh ≠ coh || stallRests s core x.2 coh

/-- A group is at rest: held, blocked in a wait, or in a slot at one of those stalls. A group whose HCALL still waits for room in
its ring counts as blocked in a wait, and is restored still waiting (DEDUCED, log 80). -/
def groupRests (s : State) (core e : Nat) (g : Group) : Bool :=
  let k := s.core core
  g.held ||
    (match (k.slots.zipIdx.find? fun x => x.1 = some e) with
      | some x => stallRests s core x.2 g.coh
      | none => !g.waits.isEmpty && g.waits.all fun i => (FMap.find s.ops i).any fun o => !o.busy)

/-- A thread is at rest. -/
def threadRests (s : State) (core coh w l : Nat) : Bool :=
  let t := s.thread coh w l
  t.stopped || t.held || t.st = .waiting ||
    (s.core core).entries.any fun e => e.2.coh = coh && e.2.ths.contains (w, l) && groupRests s core e.1 e.2

/-- Every warp of a cohort is at rest. -/
def cohortRests (s : State) (coh : Nat) : Bool :=
  let h := s.coh coh
  (upto h.warps.length).all fun w => (h.warp w).liveLanes.all fun l => threadRests s h.core coh w l

/-- PFALL_EXPIRY (07 R144): a cohort not at rest after PFALL runs of its groups is stopped at their run boundaries. PFALL
bears on a cohort and BINAGE on bins, not on the run of one warp: a WRSR of either has effect at once (DESIGN CHOICE, log
91). -/
def execPfallExpiry (cohort : Nat) (s : State) : Host.Outcome State Fault Refusal :=
  let h := s.coh cohort
  match h.preq with
  | some n =>
    if h.status = .resident && (s.ctx h.ctx).pfall.toNat ≤ n && !cohortRests s cohort then
      .next (s.modCoh cohort fun h => { h with fallback := true })
    else .next s
  | none => .next s

/-! ## Saving (07 R139 to R146; 15 R294; 19 R372) -/

/-- An outstanding instruction keeps a cohort from being saved; a reservation of MBXPUT that waits for room does not
(17 R348). -/
def Op.holdsSave (o : Op) : Bool := o.busy && match o.kind with
  | .mbxput _ _ _ _ none _ => false
  | _ => true

/-- The slots of a cohort's streams have settled: none is filling, and none is still to be stored. -/
def streamsSettled (h : Cohort) : Bool :=
  h.streams.all fun e => e.2.stopped || e.2.slots.all fun x => x.1 = .empty || x.1 = .full || x.1 = .held

/-- A cohort can be saved now. A cohort whose last threads have exited retires instead (07 R145). -/
def canSave (s : State) (coh : Nat) : Bool :=
  let h := s.coh coh
  h.status = .resident && h.preq.isSome && !h.wounded && h.warps.any (fun w => !w.liveLanes.isEmpty) &&
    (cohortRests s coh || (h.fallback && slotsRest s h.core coh)) &&
    !(s.ops.any fun e => e.2.coh = coh && e.2.holdsSave) && streamsSettled h

/-- The address the image is written at: a slot of the context's save area, or of the area at VFSAVE (07 R146, R147). -/
def saveAddr (s : State) (coh : Nat) : Nat :=
  let h := s.coh coh
  if h.preqVf then
    let n := (s.cohorts.filter fun e => e.2.status = .saved && e.2.saveSlot.isNone && fnOf e.2.ctx = fnOf h.ctx).length
    (s.fn 0).vfsave.toNat + n * Config.saveSlotBytes
  else (s.ctx h.ctx).csave.toNat + pickSlot s h.ctx * Config.saveSlotBytes

/-- The first page of a slot or an image that cannot be written, or read. -/
def areaFailure (need : Need) (s : State) (ctx addr len : Nat) : Option Trans :=
  (pagesOf addr len).findSome? fun va => match translateDev s ctx va need with
    | .ok _ => none
    | t => some t

/-- A failure in a save area: a context fault of cause 5 with the address of the slot or the image (07 R137). -/
def areaFault (ctx addr : Nat) (s : State) : State := contextFault ctx 5 0 { code := 0, addr } s

/-- An operation is restored still waiting (07 R143): a barrier arrival, a submitted sync, a REGGROW request; and a call that
waits for room in its ring, for another warp's call of the same HCALL may be answered, and none is posted twice (08 R177;
DEDUCED, log 80). -/
def Op.waitKept (o : Op) : Bool := match o.kind with
  | .barWait _ _ | .wsync _ _ _ | .grow _ _ => true
  | .hcall _ _ _ _ posted => !posted
  | _ => false

/-- A wait that is released at a save: its instruction executes again. -/
def Op.waitDropped (o : Op) : Bool := o.isWait && !o.waitKept

/-- A group as it is saved: its wait kept, or back at its instruction, whose checks begin anew (23 R434, log 84). -/
def Group.saved (s : State) (g : Group) : Group :=
  let kept := g.waits.all fun i => (FMap.find s.ops i).any Op.waitKept
  { g with ran := 0, ranAt := 0, waits := if kept then g.waits else [], again := g.again && kept, since := none }

/-- A register is named: by a PREEMPT of the warp, or with the whole allocation (07 R140, R144). -/
def regNamed (whole : Bool) (live : Option (BitVec 32)) (r : Nat) : Bool :=
  whole || match live with
    | none => true
    | some m => m.getLsbD (r / 8)

/-- A warp as its image restores it: registers that were not named read zero. -/
def Warp.saved (whole : Bool) (x : Warp) : Warp :=
  { x with
    vregs := x.vregs.filter fun e => regNamed whole x.live (e.1 / 32)
    poison := x.poison.filter fun p => !p.vec || regNamed whole x.live p.idx
    live := none }

/-- A scratchpad byte is named. -/
def spNamed (whole : Bool) (rs : List (Nat × Nat)) (a : Nat) : Bool := whole || rs.any fun r => r.1 ≤ a && a < r.1 + r.2

/-- What a save keeps of the matrix unit: the configuration, the status, the named tiles (19 R372). -/
def MatrixUnit.save (tiles : BitVec 4) (m : MatrixUnit) : MatrixSave :=
  { cfg := m.cfg, status := m.status
    z := m.z.filter fun e => tiles.getLsbD (accTile e.1), p := m.p.filter fun e => tiles.getLsbD (accTile e.1)
    zmark := m.zmark.filter fun k => tiles.getLsbD (accTile k), pmark := m.pmark.filter fun k => tiles.getLsbD (accTile k) }

/-- Bytes of a layout that is private to the implementation (07 R149): a free value (log 73). -/
def privateBytes (seed n : Nat) : List Byte := (upto n).map fun i => BitVec.ofNat 8 (Config.freeValue seed / 256 ^ i)

/-- The save engine writes a region line by line, its bytes free values. -/
def writePrivate (ctx va n : Nat) (s : State) : State :=
  forEach (chunksOf va n) (fun a s => match translateDev s ctx a.1 .write with
    | .ok k =>
      let (s, _) := { s with free := s.free + 1 }.homeStore (lineOf k) 0 0 (cellsOfL k (privateBytes s.free a.2))
      fireMonitors (lineOf k) s
    | .fault _ | .hole => s) s

/-- Save a cohort: its slot is written, what was named and its control state is kept, and it leaves its core. -/
def saveCohort (coh : Nat) (s : State) : State :=
  let h := s.coh coh
  let k := s.core h.core
  let savedAt := saveAddr s coh
  let s := writePrivate h.ctx savedAt Config.saveSlotBytes s
  let slot := if h.preqVf then none else some (pickSlot s h.ctx)
  let groups := (k.entries.filter fun e => e.2.coh = coh).map fun e => e.2.saved s
  let bins := k.bins.filter fun b => b.coh = coh
  let parked := (k.parked.filter fun t => t.1 = coh).map Prod.snd
  let mcfg := if k.mx.owner = some coh then some (k.mx.save (if h.fallback then 15 else h.liveAcc)) else none
  let s := forEach ((s.ops.filter fun e => e.2.coh = coh && e.2.waitDropped).map Prod.fst) State.delOp s
  (leaveCore coh s).modCoh coh fun h => { h with
    status := .saved, saveSlot := slot, savedAt, preq := none, preqWait := false, preqVf := false, fallback := false
    warps := h.warps.map (Warp.saved h.fallback)
    scratch := h.scratch.filter fun e => spNamed h.fallback h.liveRanges e.1
    scratchBad := h.scratchBad.filter fun a => spNamed h.fallback h.liveRanges a
    liveAcc := 0, liveRanges := [], mcfg
    streams := FMap.mapVals (fun _ x => { x with paused := true }) h.streams
    savedGroups := groups, savedBins := bins, savedParked := parked }

/-- COHORT_SAVE (07 R139 to R146): a slot that cannot be written is a context fault of cause 5. -/
def execCohortSave (cohort : Nat) (s : State) : Host.Outcome State Fault Refusal :=
  if !canSave s cohort then .next s
  else
    let ctx := (s.coh cohort).ctx
    match areaFailure .write s ctx (saveAddr s cohort) Config.saveSlotBytes with
    | none => .next (saveCohort cohort s)
    | some .hole => .fault .noSuchMemory
    | some _ => .next (areaFault ctx (saveAddr s cohort) s)

/-! ## Resumption (07 R143, R148; 15 R294; 19 R354) -/

/-- The waiting groups a saved cohort brings: each must have an entry. -/
def Cohort.waitingGroups (h : Cohort) : List Group := h.savedGroups.filter fun g => !g.waits.isEmpty

/-- A core can take a saved cohort now: it fits, the core is not draining, and its matrix unit is free when the cohort
holds a configuration. -/
def canResume (s : State) (coh core : Nat) : Bool :=
  let h := s.coh coh
  let k := s.core core
  h.status = .saved && (s.cores.find core).isSome && !k.draining && h.needs.fits (freeOf s core) &&
    (h.mcfg.isNone || k.mx.owner.isNone) && h.waitingGroups.length + k.entries.length ≤ Config.groupEntries

/-- A context's cohorts may be admitted and resumed now (07 R151, R153; 22 R395). -/
def mayAdmit (s : State) (ctx : Nat) : Bool := (s.ctx ctx).st = .active && !(s.ctx ctx).vfHeld

/-- A thread of a resumed cohort: one stopped at a PREEMPT goes on after it. Its groups are new on the core, and none has
issued a run since (04 R107). -/
def Thread.resumed (t : Thread) : Thread :=
  if t.stopped then { t with stopped := false, point := none, pc := t.pc + 1, zeroAt := 0 } else { t with zeroAt := 0 }

/-- A group of a resumed cohort: threads stopped at a PREEMPT go on after it. -/
def Group.resumed (h : Cohort) (g : Group) : Group :=
  if g.held && g.ths.all (fun t => ((h.warp t.1).thread t.2).stopped) then { g with held := false, pc := g.pc + 1 } else g

/-- A stream resumes: FULL slots are empty, and their items are filled again; HELD slots stay. -/
def Stream.resumed (x : Stream) : Stream :=
  { x with
    paused := false, nextFill := x.nextTake, nextFull := x.nextTake
    slots := x.slots.map fun y => if y.1 = .full then (.empty, 0) else y }

/-- A saved bin takes a free bin of the core, or its threads are parked. -/
def restoreBin (core : Nat) (b : Bin) (s : State) : State :=
  match (s.core core).freeBin with
  | some n => s.modCore core fun k => { k with bins := k.bins ++ [{ b with num := n }] }
  | none => park core b.coh b.ths s

/-- Give the matrix unit back to a cohort that holds a configuration. -/
def restoreUnit (coh core : Nat) (m : Option MatrixSave) (s : State) : State :=
  match m with
  | none => s
  | some x => s.modMx core fun u =>
    { owner := some coh, cfg := x.cfg, status := x.status, z := x.z, p := x.p, zmark := x.zmark, pmark := x.pmark
      claims := u.claims }

/-- Resume a saved cohort on a core. -/
def resumeCohort (coh core : Nat) (s : State) : State :=
  let h := s.coh coh
  let groups := h.savedGroups.map (Group.resumed h)
  let s := s.modCoh coh fun h => { h with
    status := .resident, core, saveSlot := none, mcfg := none, savedGroups := [], savedBins := [], savedParked := []
    warps := h.warps.map fun w => { w with threads := w.threads.map Thread.resumed }
    streams := FMap.mapVals (fun _ x => x.resumed) h.streams }
  let s := { s with ops := FMap.mapVals (fun _ (o : Op) => if o.coh = coh then { o with core } else o) s.ops }
  let s := restoreUnit coh core h.mcfg s
  let s := forEach (groups.filter fun g => !g.waits.isEmpty) (placePart core) s
  let s := forEach (groups.filter fun g => g.waits.isEmpty) (placePart core) s
  let s := forEach h.savedBins (restoreBin core) s
  grantSlots h.ctx (drainParked core Config.groupEntries (park core coh h.savedParked s))

/-- The slot of a saved cohort cannot be read (07 R137). -/
def slotFailure (s : State) (coh : Nat) : Option Trans :=
  areaFailure .read s (s.coh coh).ctx (s.coh coh).savedAt Config.saveSlotBytes

/-- Restore a saved cohort on a core from its slot; a slot that cannot be read is a context fault of cause 5 (07 R137, R148). -/
def bringBack (coh core : Nat) (s : State) : State :=
  match slotFailure s coh with
  | none => resumeCohort coh core s
  | some _ => areaFault (s.coh coh).ctx (s.coh coh).savedAt s

/-! ## Phases (07 R151, R152; 08 R169) -/

/-- The phase in flight on a context: its operation. -/
def phaseOn (s : State) (ctx : Nat) (save : Bool) : Option (Nat × Op) :=
  s.ops.find? fun e => match e.2.kind with
    | .phase sv t _ _ queued => sv = save && t = ctx && !queued
    | _ => false

/-- The size of an image in 4 KiB units: a free value from 1 to that of the image region (log 4). -/
def imageUnits (s : State) : Nat := Config.freeValue s.free % (Config.imageBytes / 4096) + 1

/-- The phases of a virtual function that is being pre-empted have ended, and its contexts are still to be saved
(07 R153). -/
def vfDue (fn : Nat) (s : State) : Bool :=
  (upto 16).all fun c =>
    let x := s.ctx (16 * fn + c)
    x.vfHeld && x.vfState.isNone && x.st ≠ .saving && x.st ≠ .loading

/-- The cohorts of a virtual function that have, or are to have, an image in the area at VFSAVE. -/
def vfCohorts (s : State) (fn : Nat) : Nat :=
  (s.cohorts.filter fun e => fnOf e.2.ctx = fn &&
    (e.2.status = .resident || (e.2.status = .saved && e.2.saveSlot.isNone))).length

/-- Where the next context image of a virtual function lies in the area at VFSAVE: behind its cohorts' and those before it
(07 R147; DEDUCED, log 20). -/
def vfImageAddr (s : State) (fn : Nat) : Nat :=
  let n := ((upto 16).filter fun c => (s.ctx (16 * fn + c)).vfAt.isSome).length
  (s.fn 0).vfsave.toNat + vfCohorts s fn * Config.saveSlotBytes + n * Config.imageBytes

/-- One context of a virtual function that is being pre-empted: its state is noted, and an ACTIVE one is saved as in the
save phase, its image into the area at VFSAVE. -/
def vfSave (ctx : Nat) (s : State) : State :=
  let was := (s.ctx ctx).st
  let at_ := vfImageAddr s (fnOf ctx)
  let s := s.modCtx ctx fun x => { x with
    vfState := some was, st := if was = .active then .saving else was, vfAt := if was = .active then some at_ else none }
  if was = .active then forEach (cohortsOf s ctx .resident) (requestPreempt true) s else s

/-- Step 4 of the pre-emption of a virtual function, once it is due (07 R153). -/
def vfBegin (fn : Nat) (s : State) : State :=
  if vfDue fn s then forEach (upto 16) (fun c => vfSave (16 * fn + c)) s else s

/-- The context-scope system registers an image restores (07 R152, R160). -/
def Context.setRegs (m : FMap W64) (x : Context) : Context :=
  let get := fun (n : Nat) (old : W64) => (FMap.find m n).getD old
  { x with
    hanglim := get 0x11 x.hanglim, binage := get 0x12 x.binage, lspan := get 0x13 x.lspan, pfall := get 0x14 x.pfall
    ecfg := get 0x15 x.ecfg, priv := get 0x17 x.priv, csave := get 0x18 x.csave, csaven := get 0x19 x.csaven
    ptbase := get 0x1A x.ptbase
    bkpt := [0x20, 0x21, 0x22, 0x23].foldl (fun b n => FMap.set 0 (n - 0x20) (get n (FMap.getD 0 x.bkpt (n - 0x20))) b) x.bkpt }

/-- The context of a dispatcher bin. -/
def NodeBin.ofCtx (s : State) (ctx : Nat) (b : NodeBin) : Bool :=
  (FMap.find s.launches b.launch).any fun l => l.ctx = ctx && !l.done

/-- The image of a context, in some pages (07 R152). -/
def imageOf (s : State) (ctx : Nat) (pages : List Nat) : Image :=
  { pages, bins := s.bins.filter (NodeBin.ofCtx s ctx)
    regs := [0x11, 0x12, 0x13, 0x14, 0x15, 0x17, 0x18, 0x19, 0x1A, 0x20, 0x21, 0x22, 0x23].map fun n => (n, s.ctxReg ctx n) }

/-- Write an image: its pages are written, and an older image that shares one is gone. -/
def writeImage (own ctx va units : Nat) (s : State) : State × Image :=
  let i := imageOf s ctx (imagePages s own va units)
  let s := writePrivate own va (4096 * units) s
  ({ s with ctxs := FMap.mapVals (fun _ (x : Context) =>
    { x with images := x.images.filter fun (j : Image) => !(j.pages.any i.pages.contains) }) s.ctxs }, i)

/-- The image of a CTXSAVE. -/
def putImage (own ctx va units : Nat) (s : State) : State :=
  let (s, i) := writeImage own ctx va units s
  s.modCtx ctx fun x => { x with images := i :: x.images }

/-- The image of a context whose virtual function is pre-empted (07 R153). -/
def putVfImage (ctx va units : Nat) (s : State) : State :=
  let (s, i) := writeImage ctx ctx va units s
  s.modCtx ctx fun x => { x with vfImage := some i }

/-- Restore an image: the context-scope registers and the dispatcher bins as they were written (07 R152). -/
def restoreImage (ctx : Nat) (i : Image) (s : State) : State :=
  let bins := s.bins.filter (fun b => !b.ofCtx s ctx) ++ i.bins.filter (NodeBin.ofCtx s ctx)
  { s with bins }.modCtx ctx (Context.setRegs i.regs)

/-- A context's cohorts are all saved, and its image is to be written. -/
def saveDone (s : State) (ctx : Nat) : Bool := (s.ctx ctx).st = .saving && (cohortsOf s ctx .resident).isEmpty

/-- The end of a save phase: the image of a CTXSAVE is written where it names, that of a virtual function's pre-emption in the
area at VFSAVE. Where the cohort that issued the CTXSAVE has itself been ended, the phase goes on to SAVED, and no image is
written: the address is that of a context which may be gone (DESIGN CHOICE, log 76). -/
def endSave (ctx : Nat) (s : State) : State :=
  if !saveDone s ctx then s
  else match phaseOn s ctx true with
    | none =>
      let s := match (s.ctx ctx).vfAt with
        | some va => putVfImage ctx va (imageUnits s) { s with free := s.free + 1 }
        | none => s
      s.modCtx ctx fun x => { x with st := .saved }
    | some (id, o) =>
      match o.kind with
      | .phase _ _ image dst _ =>
        let v := BitVec.ofNat 64 (imageUnits s * 2 ^ 32)
        let units := imageUnits s
        let s := putImage (s.coh o.coh).ctx ctx image units { s with free := s.free + 1 }
        let s := s.modCtx ctx fun x => { x with st := .saved }
        completeOp id (s.writeS o.coh o.warp dst v)
      | _ => s

/-- The end of a load phase. -/
def endLoad (ctx : Nat) (s : State) : State :=
  if (s.ctx ctx).st ≠ .loading then s
  else
    let s := s.modCtx ctx fun x => { x with st := .active }
    match phaseOn s ctx false with
    | none => s
    | some (id, o) =>
      match o.kind with
      | .phase _ _ image dst _ =>
        let s := match imageAt s (s.coh o.coh).ctx ctx image with
          | some i => restoreImage ctx i s
          | none => s
        completeOp id (s.writeS o.coh o.warp dst 0)
      | _ => s

/-- After the end of a phase: the phases that waited for it, and the pre-emption of the virtual function. -/
def afterPhase (ctx : Nat) (s : State) : State := vfBegin (fnOf ctx) (servePhases ctx s.ops.length s)

/-- The image that a phase in flight names: the context whose tables translate it, and its address (08 R169). -/
def phaseArea (s : State) (ctx : Nat) (save : Bool) : Option (Nat × Nat) :=
  (phaseOn s ctx save).bind fun e => match e.2.kind with
    | .phase _ _ image _ _ => some ((s.coh e.2.coh).ctx, image)
    | _ => none

/-- The image that the end of a save phase is to write cannot be written: that of a CTXSAVE, or of a virtual function's context
(07 R137, R147). Its address, and how it fails. -/
def saveImageFailure (s : State) (ctx : Nat) : Option (Nat × Trans) :=
  if !saveDone s ctx then none
  else (match phaseOn s ctx true with
    | some _ => phaseArea s ctx true
    | none => (s.ctx ctx).vfAt.map fun va => (ctx, va)).bind fun x =>
      (areaFailure .write s x.1 x.2 (4096 * imageUnits s)).map fun t => (x.2, t)

/-- The image that a load phase restores cannot be read: a page of it fails, or the image that was there when the phase began
lies there no more (07 R137, R151; DEDUCED, log 99). -/
def loadImageFailure (s : State) (ctx : Nat) : Option (Nat × Trans) :=
  if (s.ctx ctx).st ≠ .loading then none
  else (phaseArea s ctx false).bind fun x => match imageAt s x.1 ctx x.2 with
    | some i => (areaFailure .read s x.1 x.2 (4096 * i.pages.length)).map fun t => (x.2, t)
    | none => some (x.2, .fault 2)

/-- A phase ends: as `done` says, or at a failure of its image, which is a context fault of cause 5 of the target (07 R137,
R151). -/
def endPhase (ctx : Nat) (failure : Option (Nat × Trans)) (done : State → State) (s : State) :
    Host.Outcome State Fault Refusal :=
  match failure with
  | none => .next (afterPhase ctx (done s))
  | some (_, .hole) => .fault .noSuchMemory
  | some (va, _) => .next (afterPhase ctx (areaFault ctx va s))

/-- SAVE_PHASE_COMPLETION: no cohort of the context is resident, and its image is written. -/
def execSavePhaseCompletion (ctx : Nat) (s : State) : Host.Outcome State Fault Refusal :=
  endPhase ctx (saveImageFailure s ctx) (endSave ctx) s

/-- LOAD_PHASE_COMPLETION: the context is active again, and its saved cohorts may resume. -/
def execLoadPhaseCompletion (ctx : Nat) (s : State) : Host.Outcome State Fault Refusal :=
  endPhase ctx (loadImageFailure s ctx) (endLoad ctx) s

end Sys2Proof.Machine
end

