-- ==== Sys2Proof/Machine/Dispatcher.lean ====
section
/-! DEFINITION. Belfry's dispatch decision (22 R396 to R398, R402 to R406, R421; 04 R86 to R89; 17 R345): the ready queues and
their heads, the choice of one, its admission, passing over, and requests of pre-emption. -/

namespace Sys2Proof.Machine

/-! ## Ready queues (22 R396) -/

/-- What stands at the head of a ready queue. -/
inductive Head where
  /-- a saved cohort waits to resume -/
  | saved (coh : Nat)
  /-- a wounded task is to be admitted again -/
  | restart (coh : Nat)
  /-- a cohort index never admitted, and the view its warps start from -/
  | fresh (cidx view : Nat)
  /-- a batch of a node bin -/
  | batch (b : Batch)
  deriving DecidableEq, Repr

/-- A ready queue with a head: a launch's, or a node bin's. -/
structure Queue where
  launch : Nat
  node : Option Nat
  prio : Nat
  age : Nat
  head : Head
  deriving DecidableEq, Repr

/-- The launch of a queue. -/
def State.launchAt (s : State) (seq : Nat) : Launch :=
  (FMap.find s.launches seq).getD
    { ctx := 0, addr := 0, kdesc := 0, gx := 0, gy := 0, gz := 0, stages := 0, prio := 0, energy := 0, args := [], signal := 0
      kern := { entry := 0, vregs := 8, stages := 1, warps := 1, tx := 32, ty := 1, tz := 1, scratch := 0, energy := 0
                codebase := 0 }
      pred := none, predFloor := 0, hasPred := false, tiles := [], useBlock := false, cursor := none, base := 0 }

/-- Cohorts of a launch in a status. -/
def launchCohorts (s : State) (seq : Nat) (p : Cohort → Bool) : List Nat :=
  (s.cohorts.filter fun e => e.2.launch = seq && p e.2).map Prod.fst

/-- Cohorts of a launch may be admitted as far as its predecessor goes: it has completed, or its whole grid has signalled;
and it has no saved cohort (17 R344, R345). -/
def predecessorAllows (s : State) (l : Launch) : Bool :=
  match l.pred.bind fun p => (FMap.find s.launches p).map fun x => (p, x) with
  | none => true
  | some (p, x) => x.done || (x.grid ≤ x.signalled.length && (launchCohorts s p fun h => h.status = .saved).isEmpty)

/-- A wounded task whose writes are undone waits to be admitted again. -/
def Cohort.waitsRestart (h : Cohort) : Bool := h.status = .wounded && !h.wounded

/-- The cohorts of a launch's queue that may be admitted now, with their age stamps. -/
def launchHeads (s : State) (seq : Nat) (l : Launch) : List (Nat × Head) :=
  let saved := (launchCohorts s seq fun h => h.status = .saved).map fun k => (k, Head.saved k)
  if predecessorAllows s l then
    saved ++ ((launchCohorts s seq fun h => h.waitsRestart && h.node.isNone).map fun k => (k, Head.restart k)) ++
      (if l.next0 < l.sweep then [(l.base + l.next0, Head.fresh l.next0 0)] else []) ++
      l.ready.map fun r => (l.base + r.1, Head.fresh r.1 r.2)
  else saved

/-- The batches and restarted cohorts of a node bin. -/
def nodeHeads (s : State) (seq : Nat) (l : Launch) (node : Nat) : List (Nat × Head) :=
  if predecessorAllows s l then
    ((launchCohorts s seq fun h => h.waitsRestart && h.node = some node).map fun k => (k, Head.restart k)) ++
      (s.batches.filter fun b => b.launch = seq && b.node = node).map fun b => (b.age, Head.batch b)
  else []

/-- The head with the oldest age stamp. -/
def oldest (l : List (Nat × Head)) : Option (Nat × Head) := bestBy (fun a b => a.1 < b.1) l

/-- Effective priority: at most 31. -/
def effective (prio boost : Nat) : Nat := min 31 (prio + boost)

/-- The nodes for which a launch has batches or restarts. -/
def launchNodes (s : State) (seq : Nat) : List Nat :=
  sortedNats (((s.batches.filter fun b => b.launch = seq).map Batch.node) ++
    (s.cohorts.filterMap fun e => if e.2.launch = seq && e.2.waitsRestart then e.2.node else none))

/-- The ready queues that have a head now: those of contexts that may have cohorts let in. -/
def readyQueues (s : State) : List Queue :=
  (s.launches.filter fun e => !e.2.done && mayAdmit s e.2.ctx).flatMap fun (seq, l) =>
    let own := (oldest (launchHeads s seq l)).toList.map fun h =>
      ({ launch := seq, node := none, prio := effective l.prio l.boost, age := h.1, head := h.2 } : Queue)
    own ++ (launchNodes s seq).flatMap fun n =>
      let boost := ((binOf s seq n).map NodeBin.boost).getD 0
      (oldest (nodeHeads s seq l n)).toList.map fun h =>
        ({ launch := seq, node := some n, prio := effective l.prio boost, age := h.1, head := h.2 } : Queue)

/-! ## Where a head fits (22 R397, R404, R405) -/

/-- The kernel of a node's cohorts; none when its descriptor has a fault. The spec does not say when Belfry reads the descriptor
that a node names (03 R80): the model reads it afresh at each decision and each restart (DESIGN CHOICE, log 77). -/
def nodeKernel (s : State) (ctx node : Nat) : Option Kernel := (nodeOf s ctx node).bind fun n => kernelAt s ctx n.kdesc

/-- The kernel a head runs when it is admitted. -/
def Queue.kernel (s : State) (q : Queue) : Option Kernel :=
  let l := s.launchAt q.launch
  match q.node with
  | none => some l.kern
  | some n => nodeKernel s l.ctx n

/-- A head fits a core now. -/
def Queue.fitsOn (s : State) (q : Queue) (core : Nat) : Bool :=
  !(s.core core).draining &&
    match q.head with
    | .saved k => canResume s k core
    | .restart _ | .fresh _ _ | .batch _ => (q.kernel s).any fun k => k.needs.fits (freeOf s core)

/-- The cores that a head fits, rising. -/
def Queue.cores (s : State) (q : Queue) : List Nat := (s.cores.map Prod.fst).filter (q.fitsOn s)

/-- Whether admission of a context's cohorts takes an energy reservation (22 R405). -/
def energyChecked (s : State) (ctx : Nat) : Bool := (s.ctx ctx).ecfg.toNat % 2 = 1 && s.hasCap (fnOf ctx) 8

/-- A head's energy reservation succeeds; a saved cohort keeps its own. -/
def Queue.energyOk (s : State) (q : Queue) : Bool :=
  let l := s.launchAt q.launch
  match q.head with
  | .saved _ => true
  | .restart _ | .fresh _ _ | .batch _ => !energyChecked s l.ctx || l.energy ≤ (s.ctx l.ctx).allow

/-- The length of the task block of a launch's cohort; a query launch's holds the cursor record too (22 R404, 25 R456). -/
def Launch.blockBytes (l : Launch) : Nat := if l.cursor.isSome then 384 else 128

/-- The overflow area has room for a head's task block. -/
def Queue.roomOk (s : State) (q : Queue) : Bool :=
  let l := s.launchAt q.launch
  match q.head with
  | .fresh _ _ => !l.useBlock || (takeOverflow l.ctx l.blockBytes s).isSome
  | .saved _ | .restart _ | .batch _ => true

/-- A queue's head may be chosen. -/
def Queue.eligible (s : State) (q : Queue) : Bool := q.energyOk s && q.roomOk s && !(q.cores s).isEmpty

/-- The choice between queues: effective priority, then the head's age (22 R397). -/
def chooseQueue (s : State) : Option Queue :=
  bestBy (fun a b => b.prio < a.prio || (a.prio = b.prio && a.age < b.age)) ((readyQueues s).filter (Queue.eligible s))

/-! ## Tile lists and records of launches (22 R403, R406; 25 R456) -/

/-- The coordinate of a cohort index in its sweep. -/
def Launch.place (l : Launch) (cidx : Nat) : Nat := cidx % l.sweep

/-- The chunk of a cohort of a query launch, and Rotunda's view of its world. -/
def queryChunk (s : State) (l : Launch) (cidx : Nat) : Option (Rot × Query × Nat × ChunkRef) := do
  let (wk, cur) ← l.cursor
  let w ← FMap.find s.worlds wk
  let x ← FMap.find w.cursors cur
  let r ← rotOf s (wk / 256) (wk % 256)
  let ch ← (r.nthChunk (l.place cidx) x.pins).join
  some (r, x.q, cur, ch)

/-- The reference to one returned column's array. -/
def columnTile (base rows log : Nat) : TileRef :=
  if base = 0 then { gaddr := 0, gcount := 0, weight := 0 }
  else
    let first := base / 16384
    { gaddr := first * 16384, gcount := (base + rows * 2 ^ log - 1) / 16384 - first + 1, weight := 1 }

/-- The tile list of a query launch's cohort: its first four returned columns. -/
def queryTiles (s : State) (l : Launch) (cidx : Nat) : List TileRef :=
  match queryChunk s l cidx with
  | none => []
  | some (r, q, _, ch) =>
    (((r.colBases q ch.table ch.addr).getD []).zip q.ret).take 4 |>.map fun b =>
      columnTile b.1 ch.rows (compLog s r.ctx r.num b.2)

/-- The tile list of a launch's cohort: each used reference displaced by its cohort index (04 R86, 22 R403). -/
def launchTiles (s : State) (l : Launch) (cidx : Nat) : List TileRef :=
  if l.cursor.isSome then queryTiles s l cidx
  else l.tiles.map fun t =>
    if t.weight = 0 then t else { t with gaddr := (t.gaddr + cidx * t.gcount * 16384) % 2 ^ 64 }

/-- The tile list that places a head. -/
def Queue.tiles (s : State) (q : Queue) : List TileRef :=
  match q.head with
  | .saved k | .restart k => (s.coh k).tiles
  | .fresh c _ => launchTiles s (s.launchAt q.launch) c
  | .batch b => b.tiles

/-! ## Admission (04 R86 to R89; 22 R404, R405, R421) -/

/-- The warps of a newly admitted cohort (04 R88). -/
def freshWarps (k : Kernel) (view : Nat) : List Warp :=
  List.replicate k.warps { alloc := k.vregs, view, threads := List.replicate 32 { pc := k.entry } }

/-- A cohort of a launch as admission makes it, before its task block. -/
def freshCohort (seq : Nat) (l : Launch) (k : Kernel) (core view : Nat) : Cohort :=
  { core, ctx := l.ctx, launch := seq, prio := l.prio, tx := k.tx, ty := k.ty, tz := k.tz, scratchSize := k.scratch
    codebase := k.codebase, warps := freshWarps k view, start := view }

/-- Make a cohort resident under its age stamp: its reservation is taken, and its warps get their groups. The spec does not say
how the threads of a new cohort are first grouped (04 R88): the model forms one group of the 32 threads of each warp, in %warp
order, each in a free entry or parked (DESIGN CHOICE, log 78). -/
def enterCohort (age : Nat) (h : Cohort) (s : State) : State :=
  let l := s.launchAt h.launch
  let e := if energyChecked s h.ctx then l.energy else 0
  let s := s.modCtx h.ctx fun x => { x with allow := x.allow - e }
  let s := { s with cohorts := s.cohorts.put age { h with resv := e } }
  forEach h.warps.zipIdx (fun w => placePart h.core
    { coh := age, pc := (w.1.thread 0).pc, ths := (upto 32).map fun i => (w.2, i) }) s

/-- Write the task block of a launch's cohort: the state, its address and its length; a launch without blocks has none, of
length 0 (22 R404). -/
def writeBlock (seq : Nat) (l : Launch) (cidx : Nat) (s : State) : State × Nat × Nat :=
  if !l.useBlock then (s, 0, 0)
  else match takeOverflow l.ctx l.blockBytes s with
    | none => (s, 0, 0)
    | some (s, a) =>
      let p := l.place cidx
      let head : Header :=
        { nrec := 0, node := 0xFFFF, kdesc := l.kdesc, recsize := 0, prio := l.prio, stage := cidx / l.sweep
          cx := p % l.gx, cy := p / l.gx % l.gy, cz := p / l.gx / l.gy, launch := seq, age := l.base + cidx }
      let rec_ := match queryChunk s l cidx with
        | none => []
        | some (r, q, cur, ch) => (r.record q cur ch).getD []
      (devPut l.ctx a (padTo l.blockBytes (head.bytes ++ tileBytes (launchTiles s l cidx) ++ rec_)) s, a, l.blockBytes)

/-- Admit a cohort of a launch for the first time. -/
def admitFresh (seq cidx view core : Nat) (s : State) : State :=
  let l := s.launchAt seq
  let tiles := launchTiles s l cidx
  let (s, record, blockLen) := writeBlock seq l cidx s
  let p := l.place cidx
  let s := s.modLaunch seq fun l => { l with
    next0 := if cidx < l.sweep then cidx + 1 else l.next0, ready := l.ready.filter fun r => r.1 ≠ cidx }
  enterCohort (l.base + cidx) { freshCohort seq l l.kern core view with
    cidx, cx := p % l.gx, cy := p / l.gx % l.gy, cz := p / l.gx / l.gy, stage := cidx / l.sweep
    record, blockLen, tiles } s

/-- Admit a wounded task again: the same stamp, coordinates, block and record; everything else afresh (22 R421). -/
def admitRestart (coh : Nat) (k : Kernel) (core : Nat) (s : State) : State :=
  let h := s.coh coh
  enterCohort coh { freshCohort h.launch (s.launchAt h.launch) k core h.start with
    cidx := h.cidx, cx := h.cx, cy := h.cy, cz := h.cz, stage := h.stage, record := h.record, blockLen := h.blockLen
    tiles := h.tiles, node := h.node } s

/-- Admit a node cohort (22 R408). -/
def admitBatch (b : Batch) (k : Kernel) (core : Nat) (s : State) : State :=
  let s := { s with batches := s.batches.filter fun x => x.age ≠ b.age }
  enterCohort b.age { freshCohort b.launch (s.launchAt b.launch) k core 0 with
    cidx := b.cidx, record := b.block, blockLen := b.blockLen, tiles := b.tiles, node := some b.node } s

/-- Admit the head of a queue to a core. -/
def Queue.letIn (q : Queue) (core : Nat) (s : State) : State :=
  match q.head, q.kernel s with
  | .saved k, _ => bringBack k core s
  | .restart k, some kern => admitRestart k kern core s
  | .fresh c view, _ => admitFresh q.launch c view core s
  | .batch b, some kern => admitBatch b kern core s
  | .restart _, none | .batch _, none => s

/-! ## Boosts and requests (22 R396, R398) -/

/-- Change what Belfry keeps of a queue: its boost, the times it was passed over, and the cohort it asked for. -/
def Queue.keep (q : Queue) (f : Nat → Nat → Option Nat → Nat × Nat × Option Nat) (s : State) : State :=
  match q.node with
  | none => s.modLaunch q.launch fun l =>
    let (boost, passed, asked) := f l.boost l.passed l.asked
    { l with boost, passed, asked }
  | some n => modBin q.launch n (fun b =>
    let (boost, passed, asked) := f b.boost b.passed b.asked
    { b with boost, passed, asked }) s

/-- A queue is passed over: at STARVE times its boost rises. -/
def passOver (starve : Nat) (q : Queue) (s : State) : State :=
  q.keep (fun boost passed asked => if starve ≤ passed + 1 then (boost + 1, 0, asked) else (boost, passed + 1, asked)) s

/-- The cohort whose pre-emption a queue has asked for, while the request is pending. -/
def Queue.askedNow (s : State) (q : Queue) : Option Nat :=
  let asked := match q.node with
    | none => (s.launchAt q.launch).asked
    | some n => (binOf s q.launch n).bind NodeBin.asked
  asked.filter fun k => (s.coh k).status = .resident && (s.coh k).preq.isSome

/-- The cohort a queue may ask to be pre-empted: of priority at most p − 8, the lowest, then the youngest; its context has a
free save slot (07 R146). -/
def Queue.victim (s : State) (q : Queue) : Option Nat :=
  (bestBy (fun (a b : Nat × Cohort) => a.2.prio < b.2.prio || (a.2.prio = b.2.prio && b.1 < a.1))
    (s.cohorts.filter fun e => e.2.status = .resident && e.2.preq.isNone && e.2.prio + 8 ≤ q.prio &&
      slotFree s e.2.ctx)).map Prod.fst

/-- A queue asks for room: its head fits no core, and no request of its is pending. -/
def Queue.ask (q : Queue) (s : State) : State :=
  if (q.cores s).isEmpty && (q.askedNow s).isNone then
    match q.victim s with
    | some k => q.keep (fun boost passed _ => (boost, passed, some k))
        (s.modCoh k fun h => { h with preq := some 0, preqWait := false })
    | none => s
  else s

/-- Admit the head of the chosen queue to a core, and count the queues passed over (22 R396, R397). -/
def Queue.admitHead (q : Queue) (core : Nat) (s : State) : State :=
  let others := (readyQueues s).filter fun x => !(x.launch = q.launch && x.node = q.node) && x.fitsOn s core
  let starve (x : Queue) : Nat := (s.ctx (s.launchAt x.launch).ctx).starve
  let s' := forEach others (fun x => passOver (starve x) x) (q.letIn core s)
  q.keep (fun _ _ asked => (0, 0, asked)) s'

/-- The core that the head of the chosen queue is admitted to. -/
def Queue.place (s : State) (q : Queue) : Option Nat :=
  chooseCore s (s.launchAt q.launch).ctx (q.tiles s) (q.cores s)

/-- The dispatch decision: the head that is admitted, and its core. -/
def decision (s : State) : Option (Queue × Nat) := (chooseQueue s).bind fun q => (q.place s).map fun core => (q, core)

/-- The slot of a head that is to be resumed lies where no memory is. -/
def Queue.lost (s : State) (q : Queue) : Bool := match q.head with
  | .saved k => slotFailure s k = some .hole
  | .restart _ | .fresh _ _ | .batch _ => false

/-- The queues whose heads fit no core ask for room (22 R398). -/
def askAll (s : State) : State := forEach (readyQueues s) Queue.ask s

/-- DISPATCH_DECISION (22 R397): the head of one queue is admitted; then the queues whose heads fit no core ask for room. -/
def execDispatchDecision (s : State) : Host.Outcome State Fault Refusal :=
  match decision s with
  | none => .next (askAll s)
  | some (q, core) => if q.lost s then .fault .noSuchMemory else .next (askAll (q.admitHead core s))

/-- COHORT_RESUME (07 R148, 22 R397): Belfry resumes a saved cohort when it is the head of the queue chosen next, on any core
that it fits. -/
def execCohortResume (cohort core : Nat) (s : State) : Host.Outcome State Fault Refusal :=
  match chooseQueue s with
  | none => .next s
  | some q =>
    if q.head = .saved cohort && q.fitsOn s core then
      if q.lost s then .fault .noSuchMemory else .next (q.admitHead core s)
    else .next s

end Sys2Proof.Machine
end

