-- ==== Sys2Proof/Machine/Driver.lean ====
section
/-! DEFINITION. What the drivers do through BAR0 and BAR2 (07 R151, R153, R157; 31 R510 to R515, R518), and the hypervisor
call queue (08 R177). -/

namespace Sys2Proof.Machine

/-! ## Contexts (31 R512) -/

/-- CTXCTL_CREATE: a FREE context is ACTIVE. One of a function that is pre-empted is ACTIVE when the function resumes. -/
def execCtxctlCreate (ctx : Nat) (s : State) : Host.Outcome State Fault Refusal :=
  .next (if (s.ctx ctx).st ≠ .free then s
    else s.modCtx ctx fun x => { x with st := .active, vfState := x.vfState.map fun _ => .active })

/-- A context as RESET leaves it: the registers that programs write return to their reset values, the fault record and
the discard counts are cleared, and what only the driver writes is kept; the images of earlier CTXSAVEs still lie where they
were written. -/
def Context.afterReset (x : Context) : Context :=
  { ecfg := x.ecfg, priv := x.priv, csave := x.csave, csaven := x.csaven, ptbase := x.ptbase
    allow := x.allow, edebt := x.edebt, starve := x.starve, ovfbase := x.ovfbase, ovfsize := x.ovfsize, hdr := x.hdr
    pasid := x.pasid, nodes := x.nodes, floor := x.floor, table := x.table, images := x.images
    vfHeld := x.vfHeld, vfState := x.vfState.map fun _ => .free }

/-- Reset a context: its cohorts end unsaved, its launches are FAULTED, its declarations, cursors and worlds are gone. -/
def resetContext (ctx : Nat) (s : State) : State :=
  let s := endContext ctx s
  { s.modCtx ctx Context.afterReset with worlds := s.worlds.filter fun e => e.1 / 256 ≠ ctx }

/-- CTXCTL_RESET: any state to FREE. -/
def execCtxctlReset (ctx : Nat) (s : State) : Host.Outcome State Fault Refusal :=
  .next (vfBegin (fnOf ctx) (resetContext ctx s))

/-- CTXCTL_PREEMPT: pre-emption of every resident cohort is requested, the oldest first (07 R138). -/
def execCtxctlPreempt (ctx : Nat) (s : State) : Host.Outcome State Fault Refusal :=
  .next (forEach (cohortsOf s ctx .resident) (requestPreempt false) s)

/-! ## Energy (31 R518) -/

/-- EGRANT: a grant pays off EDEBT first. -/
def execEgrant (ctx amount : Nat) (s : State) : Host.Outcome State Fault Refusal :=
  .next (s.modCtx ctx fun x => { x with edebt := x.edebt - amount, allow := x.allow + (amount - x.edebt) })

/-- ENERGY_DEBIT: from the cohort's reservation, then the allowance, then EDEBT grows. -/
def execEnergyDebit (cohort amount : Nat) (s : State) : Host.Outcome State Fault Refusal :=
  match s.cohorts.find cohort with
  | none => .next s
  | some h =>
    let rest := amount - h.resv
    .next ((s.modCoh cohort fun h => { h with resv := h.resv - amount }).modCtx h.ctx fun x =>
      { x with allow := x.allow - rest, edebt := x.edebt + (rest - x.allow) })

/-! ## Invalidation of translations (07 R157, 31 R511) -/

/-- Drop from every TLB the entries that a test names. -/
def dropTlb (p : TlbEnt → Bool) (s : State) : State :=
  { s with
    cores := FMap.mapVals (fun _ (k : Core) => { k with tlb := k.tlb.filter fun e => !p e }) s.cores
    dieTlb := FMap.mapVals (fun _ (l : List TlbEnt) => l.filter fun e => !p e) s.dieTlb }

/-- The outstanding operations of the contexts a test names. -/
def busyOps (p : Nat → Bool) (s : State) : List Nat :=
  (s.ops.filter fun e => e.2.busy && p (s.coh e.2.coh).ctx).map Prod.fst

/-- An invalidation starts: the entries are dropped, and it waits for the accesses of its contexts. One that comes while
another has not completed is ignored. -/
def invalidate (fn : Nat) (ctxs : Nat → Bool) (p : TlbEnt → Bool) (s : State) : State :=
  if (s.fn fn).tlbBusy then s
  else (dropTlb p s).modFn fn fun f => { f with tlbBusy := true, tlbWait := busyOps ctxs s }

/-- TLBINV_PAGE: one page of one of the function's contexts. -/
def execTlbinvPage (fn ctx page : Nat) (s : State) : Host.Outcome State Fault Refusal :=
  let k := 16 * fn + ctx % 16
  .next (invalidate fn (fun c => c = k) (fun e => e.covers k (page * 4096)) s)
/-- TLBINV_CONTEXT: a whole context. -/
def execTlbinvContext (fn ctx : Nat) (s : State) : Host.Outcome State Fault Refusal :=
  let k := 16 * fn + ctx % 16
  .next (invalidate fn (fun c => c = k) (fun e => e.ctx = k) s)
/-- TLBINV_FUNCTION: the whole function. -/
def execTlbinvFunction (fn : Nat) (s : State) : Host.Outcome State Fault Refusal :=
  .next (invalidate fn (fun c => fnOf c = fn) (fun e => fnOf e.ctx = fn) s)

/-- TLBINV_COMPLETE: every access the invalidation waits for has replied, and BUSY clears. -/
def execTlbinvComplete (fn : Nat) (s : State) : Host.Outcome State Fault Refusal :=
  .next (if (s.fn fn).tlbWait.any fun i => (s.ops.find i).any Op.busy then s
    else s.modFn fn fun f => { f with tlbBusy := false, tlbWait := [] })

/-- A cached translation of a host address under a PASID. -/
def TlbEnt.maps (s : State) (pasid addr : Nat) (e : TlbEnt) : Bool :=
  e.target = 2 && (s.ctx e.ctx).pasid = pasid && e.frame ≤ addr && addr < e.frame + 2 ^ e.bits

/-- Every translation the TLBs hold. -/
def State.tlbEnts (s : State) : List TlbEnt := s.cores.flatMap (fun e => e.2.tlb) ++ s.dieTlb.flatMap Prod.snd

/-- An operation has an access to host memory in a range of keys that has not replied: a request, or a WAITC's polls (16
R312). -/
def Op.usesHost (lo hi : Nat) (o : Op) : Bool :=
  (o.parts.any fun p => !p.done && lineOf lo ≤ p.line && p.line < lineOf hi) || match o.kind with
    | .waitc key _ _ _ _ _ _ => lo ≤ key && key < hi
    | _ => false

/-- ATS_INVALIDATION (31 R514): it completes once every access that used an entry of the address has replied, anywhere in the
entry's page. -/
def execAtsInvalidation (pasid addr : Nat) (s : State) : Host.Outcome State Fault Refusal :=
  let pages := (addr / 4096 * 4096, 12) :: (s.tlbEnts.filter (TlbEnt.maps s pasid addr)).map fun e => (e.frame, e.bits)
  let used := pages.any fun p => s.ops.any fun e => e.2.usesHost (hostKey pasid p.1) (hostKey pasid p.1 + 2 ^ p.2)
  .next (if used then s else dropTlb (TlbEnt.maps s pasid addr) s)

/-! ## Pre-emption of a virtual function (07 R153) -/

/-- A virtual function's pre-emption has not come to its end. -/
def vfBusy (s : State) (fn : Nat) : Bool :=
  (upto 16).any fun c =>
    let x := s.ctx (16 * fn + c)
    x.vfHeld && (x.vfState.isNone || x.st = .saving)

/-- VFPRE as written. -/
def vfpreValue (vf : Nat) (pre : Bool) : W64 := BitVec.ofNat 64 (vf % 64 + 256 * pre.toNat)

/-- A write of VFPRE is ignored: the last one is busy, or it names no virtual function. -/
def vfIgnored (s : State) (vf : Nat) : Bool := vf = 0 || 63 < vf || vfBusy s ((s.fn 0).vfpre.toNat % 64)

/-- VFPRE_PREEMPT: admission stops for all 16 contexts, no phase starts any more, and once none is in flight the ACTIVE
contexts are saved. -/
def execVfprePreempt (vf : Nat) (s : State) : Host.Outcome State Fault Refusal :=
  if vfIgnored s vf then .next s
  else
    let s := s.modFn 0 fun f => { f with vfpre := vfpreValue vf true }
    .next (vfBegin vf (forEach (upto 16) (fun c => State.modCtx (16 * vf + c) fun x => { x with vfHeld := true }) s))

/-- The image of a virtual function's context cannot be read (07 R137, R147): its address, and how it fails. -/
def vfReadFailure (s : State) (ctx : Nat) : Option (Nat × Trans) :=
  let x := s.ctx ctx
  x.vfImage.bind fun i => x.vfAt.bind fun va => (areaFailure .read s ctx va (4096 * i.pages.length)).map fun t => (va, t)

/-- A context of a virtual function that resumes: its image is restored, and it returns to the state it held; an image that
cannot be read is a context fault of cause 5 (07 R137, R153; DEDUCED, log 20). -/
def vfReturn (ctx : Nat) (s : State) : State :=
  let failure := vfReadFailure s ctx
  let s := match failure, (s.ctx ctx).vfImage with
    | none, some i => restoreImage ctx i s
    | _, _ => s
  let s := s.modCtx ctx fun x =>
    { x with st := x.vfState.getD x.st, vfHeld := false, vfState := none, vfAt := none, vfImage := none }
  match failure with
  | some (va, _) => areaFault ctx va s
  | none => s

/-- VFPRE_RESUME: each context returns to the state it held. -/
def execVfpreResume (vf : Nat) (s : State) : Host.Outcome State Fault Refusal :=
  if vfIgnored s vf then .next s
  else if (upto 16).any fun c => (vfReadFailure s (16 * vf + c)).any fun x => x.2 = .hole then .fault .noSuchMemory
  else
    let s := s.modFn 0 fun f => { f with vfpre := vfpreValue vf false }
    .next (forEach (upto 16) (fun c => vfReturn (16 * vf + c)) s)

/-! ## Interrupts and hypervisor calls (08 R177; 31 R511, R515) -/

/-- INTSTAT_CLEAR: write one to clear. -/
def execIntstatClear (fn mask : Nat) (s : State) : Host.Outcome State Fault Refusal :=
  .next (s.modFn fn fun f => { f with intstat := f.intstat &&& ~~~(BitVec.ofNat 64 mask) })

/-- The 32 bytes of a call (31 R515). -/
def callRecord (ctx num : Nat) (arg : W64) (tag : Nat) : List Byte :=
  leBytes 8 0 ++ leBytes 4 ctx ++ leBytes 4 num ++ leBytes 8 arg.toNat ++ leBytes 8 tag

/-- The call ring has room for one more call. -/
def ringRoom (s : State) : Bool :=
  4 ≤ s.hqLog2.toNat && s.hqLog2.toNat ≤ 16 && (s.hqTail - s.hqHead).toNat < 2 ^ s.hqLog2.toNat

/-- A call is written at TAIL, which advances; it is outstanding from then on. -/
def postCall (op ctx : Nat) (o : Op) (fn num dst : Nat) (arg : W64) (s : State) : State :=
  let key := hostKey 0 (s.hqBase.toNat + 32 * (s.hqTail.toNat % 2 ^ s.hqLog2.toNat))
  let (s, _) := s.homeStore (lineOf key) 0 0 (cellsOfL key (callRecord ctx num arg op))
  let s := { s with hqTail := s.hqTail + 1, hqOut := (op, op) :: s.hqOut }
  let s := s.modOp op fun _ => { o with kind := .hcall fn num dst arg true, busy := true }
  s.modFn 0 fun f => { f with intstat := f.intstat ||| BitVec.twoPow 64 16 }

/-- HCALL_POST: once the ring has room, and the caller's cohort is resident. -/
def execHcallPost (op : Nat) (s : State) : Host.Outcome State Fault Refusal :=
  match s.ops.find op with
  | some o => match o.kind with
    | .hcall fn num dst arg false =>
      .next (if ringRoom s && (s.coh o.coh).status = .resident then postCall op (s.coh o.coh).ctx o fn num dst arg s else s)
    | _ => .next s
  | none => .next s

/-- HCALL_REPLY: the value, then the TAG, are written; a TAG that matches no outstanding call is ignored. -/
def execHcallReply (tag value : Nat) (s : State) : Host.Outcome State Fault Refusal :=
  let v := BitVec.ofNat 64 value
  let s := { s with hqReply := v }
  match s.hqOut.find? fun e => e.1 = tag with
  | none => .next s
  | some e =>
    let s := { s with hqOut := s.hqOut.filter fun x => x.1 ≠ tag }
    match s.ops.find e.2 with
    | some o => match o.kind with
      | .hcall _ _ dst _ _ => .next (completeOp e.2 (s.writeS o.coh o.warp dst v))
      | _ => .next s
    | none => .next s

/-! ## Registers without a behaviour of their own (31 R510 to R512, R515) -/

/-- A write of a register of a context window. The D registers take it only while the context is FREE or SAVED, and a
value that breaks a register's rules is ignored. -/
def writeWindow (ctx off v : Nat) (s : State) : State :=
  let x := s.ctx ctx
  let w := BitVec.ofNat 64 v
  let idle := x.st = .free || x.st = .saved
  let put (ok : Bool) (f : Context → Context) : State := if ok then s.modCtx ctx f else s
  match off with
  | 0x010 => put (idle && v ≤ 1) fun x => { x with ecfg := w }
  | 0x018 => put idle fun x => { x with priv := w }
  | 0x020 => put (idle && v % 4096 = 0) fun x => { x with csave := w }
  | 0x028 => put (idle && v ≤ 65535) fun x => { x with csaven := w }
  | 0x030 => put (idle && v % 4096 = 0) fun x => { x with ptbase := w }
  | 0x060 => put (1 ≤ v && v ≤ 65535) fun x => { x with starve := v }
  | 0x068 => put (v % 65536 = 0) fun x => { x with ovfbase := w }
  | 0x070 => put (v % 65536 = 0) fun x => { x with ovfsize := w }
  | _ =>
    if 0x100 ≤ off && off < 0x500 && off % 16 = 0 then
      s.modCtx ctx fun x => { x with hdr := x.hdr.set 0 ((off - 0x100) / 16) w }
    else s

/-- A write of a function register. -/
def writeFn (fn off v : Nat) (s : State) : State :=
  let w := BitVec.ofNat 64 v
  match off with
  | 0x028 => if v % (s.fn fn).bar2size = 0 then s.modFn fn fun f => { f with bar2base := w } else s
  | 0x038 => if fn = 0 && v % 4096 = 0 then s.modFn 0 fun f => { f with vfsave := w } else s
  | 0x040 => s.modFn fn fun f => { f with atsen := w &&& 1 }
  | _ => s

/-- A write of a register of the hypervisor call queue. -/
def writeQueue (off v : Nat) (s : State) : State :=
  let w := BitVec.ofNat 64 v
  match off with
  | 0x00 => { s with hqBase := w }
  | 0x08 => { s with hqLog2 := w }
  | 0x18 => { s with hqHead := w }
  | 0x28 => { s with hqReply := w }
  | _ => s

/-- REGISTER_WRITE: a 64-bit write at an aligned offset of BAR0; any other has no effect. -/
def execRegisterWrite (fn off value : Nat) (s : State) : Host.Outcome State Fault Refusal :=
  let v := value % 2 ^ 64
  .next (if off % 8 ≠ 0 || 64 ≤ fn then s
    else if off < 0x1000 then writeFn fn off v s
    else if 0x10000 ≤ off && off < 0x20000 then
      writeWindow (16 * fn + (off - 0x10000) / 0x1000) (off % 0x1000) v s
    else if 0x20000 ≤ off && off < 0x20100 && fn = 0 then writeQueue (off - 0x20000) v s
    else s)

/-! ## The BAR2 window (31 R513, 16 R321) -/

/-- The module address of a BAR2 offset. -/
def bar2Addr (s : State) (fn off : Nat) : Nat := (s.fn fn).bar2base.toNat + off
/-- An access lies inside the window. -/
def inBar2 (s : State) (fn off len : Nat) : Bool := off + len ≤ (s.fn fn).bar2size

/-- The bytes of a list that lie on a line. -/
def onLine (line : Nat) (bs : List (Nat × Byte)) : List (Nat × Byte) := bs.filter fun e => lineOf e.1 = line

/-- A host write: each line of it performs at its home with Vreq = 0, once every copy of the line has been removed. -/
def hostStore (bs : List (Nat × Byte)) (s : State) : State :=
  forEach (sortedNats (bs.map fun e => lineOf e.1)) (fun line s =>
    fireMonitors line ((s.dropEverywhere line).homeStore line 0 0 (onLine line bs)).1) s

/-- HOST_WRITE: the host writes through BAR2. -/
def execHostWrite (fn off : Nat) (data : List (BitVec 8)) (s : State) : Host.Outcome State Fault Refusal :=
  let a := bar2Addr s fn off
  if !inBar2 s fn off data.length then .next s
  else if Config.hbmBytes < a + data.length then .fault .noSuchMemory
  else .next (hostStore (cellsOfL a data) s)

/-- HOST_READ: the host reads through BAR2, at the home. -/
def execHostRead (fn off len : Nat) (s : State) : Host.Outcome State Fault Refusal :=
  let a := bar2Addr s fn off
  if !inBar2 s fn off len then .next s
  else if Config.hbmBytes < a + len then .fault .noSuchMemory
  else .next { s with hostRead := s.bytes a len }

end Sys2Proof.Machine
end

