-- ==== Sys2Proof/Machine/Lane.lean ====
section
/-! DEFINITION. Group 5: lane, predicate and special-register instructions (11 R211 to R218; 02 R33). -/

namespace Sys2Proof.Machine

/-- MOV (11 R212). -/
def execMov (f : Fields) (s : State) : Host.Outcome State Fault Refusal :=
  issueFixed (.mov f) f (effV f fun s k w l => s.srcV k w l f.sa) s
/-- MOVI (11 R212). -/
def execMovi (f : Fields) (s : State) : Host.Outcome State Fault Refusal :=
  issueFixed (.movi f) f (effV f fun _ _ _ _ => f.imm) s
/-- MOVS: .LO or .HI of the warp's scalar (11 R212). -/
def execMovs (f : Fields) (s : State) : Host.Outcome State Fault Refusal :=
  issueFixed (.movs f) f (effV f fun s k w _ =>
    let x := s.srcS k w f.sa
    if f.modn = 0 then x.setWidth 32 else (x >>> 32).setWidth 32) s

/-- A 32-bit value of a warp-scope position that reads a single word (02 R32, 11 R214). -/
def State.srcWord (s : State) (coh w : Nat) (o : Operand) : W32 := s.srcV coh w 0 o

/-- The mark of the registers that lanes of a warp hold: a marked one raises its trap (02 R42). -/
def markOf (x : Warp) (reg : Nat) (lanes : List Nat) : Option Poison :=
  poisonMet x [{ vec := true, idx := reg }] lanes
/-- The check of an instruction that reads register SA of other lanes: none of those it reads is marked. Where several are,
the mark raised is that of the reading thread of lowest home lane over all warps of the group, where the other reads of an
instruction take the lowest %warp first (DESIGN CHOICE, log 95). -/
def laneMarks (f : Fields) (lanes : State → Nat → Nat → List Nat) (c : Iss) (s : State) : Gate :=
  match (c.on f s).findSome? fun t => markOf (s.warp c.coh t.1) f.sa.idx.toNat (lanes s t.1 t.2) with
  | some p => .trap p.trapRec
  | none => .pass s
/-- The lane RDL reads (11 R214). -/
def rdlLane (f : Fields) (s : State) (k w : Nat) : Nat := (s.srcWord k w f.sb).toNat % 32
/-- RDL (11 R214). -/
def execRdl (f : Fields) (s : State) : Host.Outcome State Fault Refusal :=
  issue (.rdl f) f (fun c s => laneMarks f (fun s w _ => [rdlLane f s c.coh w]) c s) (fun c s =>
    leaveNext c f.bnd (effS f (fun s k w =>
    let v := (s.warp k w).readV f.sa.idx.toNat (rdlLane f s k w)
    if f.modn = 0 then v.setWidth 64 else v.signExtend 64) c s)) s

/-- The lane SHFL reads; none outside 0 to 31 (11 R215). -/
def shflLane (mode k l : Nat) : Option Nat :=
  match mode with
  | 0 => some (k % 32)
  | 1 => if k ≤ l then some (l - k) else none
  | 2 => if l + k ≤ 31 then some (l + k) else none
  | _ => some (l ^^^ (k % 32))
/-- The lane a thread of SHFL reads. -/
def shflFrom (f : Fields) (s : State) (k w l : Nat) : Nat := (shflLane f.modn (s.srcN k w l f.sb) l).getD l
/-- SHFL (11 R215). -/
def execShfl (f : Fields) (s : State) : Host.Outcome State Fault Refusal :=
  issue (.shfl f) f (fun c s => laneMarks f (fun s w l => [shflFrom f s c.coh w l]) c s) (fun c s =>
    leaveNext c f.bnd (effV f (fun s k w l => (s.warp k w).readV f.sa.idx.toNat (shflFrom f s k w l)) c s)) s

/-- The result of VOTE for a warp (11 R216). -/
def voteResult (c : Iss) (f : Fields) (s : State) (w : Nat) : W64 :=
  let vs := c.lanesOn f s w
  let p := fun (l : Nat) => s.srcP c.coh w l f.sa
  match f.modn with
  | 0 => if vs.any p then 1 else 0
  | 1 => if vs.all p then 1 else 0
  | _ => (laneMask (vs.filter p)).setWidth 64
/-- VOTE (11 R216). -/
def execVote (f : Fields) (s : State) : Host.Outcome State Fault Refusal :=
  issueFixed (.vote f) f (fun c s => perWarp c f s (fun w =>
    State.writeS c.coh w f.dst.idx.toNat (voteResult c f s w)) s) s

/-- PLOP (11 R217). -/
def execPlop (f : Fields) (s : State) : Host.Outcome State Fault Refusal :=
  issueFixed (.plop f) f (fun c s => perThread c f s (fun w l =>
    let third := (s.thread c.coh w l).readP (f.immBits 10 8)
    let n := (s.srcP c.coh w l f.sa).toNat + 2 * (s.srcP c.coh w l f.sb).toNat + 4 * third.toNat
    State.writeP c.coh w l f.dst.idx.toNat (f.imm.getLsbD n)) s) s
/-- P2V: .ONE or .MASK (11 R217). -/
def execP2v (f : Fields) (s : State) : Host.Outcome State Fault Refusal :=
  issueFixed (.p2v f) f (effV f fun s k w l =>
    if s.srcP k w l f.sa then (if f.modn = 0 then 1 else 0xFFFFFFFF) else 0) s
/-- V2P (11 R217). -/
def execV2p (f : Fields) (s : State) : Host.Outcome State Fault Refusal :=
  issueFixed (.v2p f) f (fun c s => perThread c f s (fun w l =>
    State.writeP c.coh w l f.dst.idx.toNat (s.srcV c.coh w l f.sa ≠ 0)) s) s

/-- A special register (02 R33) of a thread. A node cohort is a sweep of one cohort (22 R408); %nstage of one is the STAGES of
its launch, since the spec names no other "declared stages" for it (DESIGN CHOICE, log 82). -/
def specialReg (s : State) (core coh w l n : Nat) : Nat :=
  let h := s.coh coh
  let x := h.warp w
  let t := 32 * w + l
  let launch := s.launches.find h.launch
  match n with
  | 0 => t % h.tx
  | 1 => t / h.tx % h.ty
  | 2 => t / (h.tx * h.ty)
  | 3 => l
  | 4 => w
  | 5 => h.warps.length
  | 6 => h.cx
  | 7 => h.cy
  | 8 => h.cz
  | 9 => if h.node.isSome then 1 else (launch.map Launch.gx).getD 0
  | 10 => if h.node.isSome then 1 else (launch.map Launch.gy).getD 0
  | 11 => if h.node.isSome then 1 else (launch.map Launch.gz).getD 0
  | 12 => h.stage
  | 13 => (launch.map Launch.stages).getD 0
  | 14 => core
  | 15 => dieOf core
  | 16 => s.modnum.toNat
  | 17 => h.launch
  | 18 => coh
  | 19 => coh / 2 ^ 32
  | 20 => h.prio
  | 21 => x.view
  | 22 => x.hst
  | _ => h.record
/-- RDSP (11 R218): a scalar destination takes a per-thread register from the lowest guard-holding lane. -/
def execRdsp (f : Fields) (s : State) : Host.Outcome State Fault Refusal :=
  issueFixed (.rdsp f) f (fun c s =>
    if f.dst.kind = .vec then
      effV f (fun s k w l => BitVec.ofNat 32 (specialReg s c.core k w l f.sa.idx.toNat)) c s
    else perWarp c f s (fun w => State.writeS c.coh w f.dst.idx.toNat
      (BitVec.ofNat 64 (specialReg s c.core c.coh w ((c.lanesOn f s w).head?.getD 0) f.sa.idx.toNat))) s) s
/-- MATCH (11 R216). -/
def execMatchv (f : Fields) (s : State) : Host.Outcome State Fault Refusal :=
  issueFixed (.matchv f) f (fun c s => effV f (fun s k w l =>
    laneMask ((c.lanesOn f s w).filter fun m => s.srcV k w m f.sa = s.srcV k w l f.sa)) c s) s

end Sys2Proof.Machine
end

