-- ==== Sys2Proof/Machine/Mailbox.lean ====
section
/-! DEFINITION. Mailbox rings (17 R346 to R349, 16 R322): MBXPUT and MBXGET, and the steps at the header's home. -/

namespace Sys2Proof.Machine

/-- The header address of a warp. -/
def mbxAddr (s : State) (c : Iss) (f : Fields) (w : Nat) : Nat := eaOf s c f false w 0

/-- SLOTS and LOG2N of a header. -/
def mbxSlots (s : State) (key : Nat) : Nat := s.num (key + 32) 8
def mbxLog (s : State) (key : Nat) : Nat := s.num (key + 40) 1

/-- The header's static fields are well formed. -/
def mbxGood (s : State) (key : Nat) : Bool :=
  mbxLog s key ≤ 20 && mbxSlots s key % 64 = 0 && (s.bytes (key + 41) 87).all (· = 0)

/-- The slot array's accesses: its address and length. -/
def mbxArray (s : State) (key : Nat) : Acc := (mbxSlots s key, 64 * 2 ^ mbxLog s key)

/-- The check of the slot array: each page translates, and is on no host line (17 R347). -/
def mbxPages (c : Iss) (put : Bool) (a : Acc) (s : State) : Gate :=
  let need := if put then Need.write else Need.read
  gateAll (pagesOf a.1 a.2) (fun va s =>
    match translate s c.core (s.coh c.coh).ctx va need with
    | .ok k => if isHost (lineOf k) then badOperand 31 va else .pass s
    | .fault n => .trap (memFault n va (if put then 1 else 0))
    | .hole => .hole) s

/-- The checks of one warp (17 R347): the header's canonical form, alignment, translation and line, its static fields, which
are read at its home and may fail in the fabric (31 R517, R520; log 64), and the slot array. -/
def mbxWarp (c : Iss) (f : Fields) (put : Bool) (w : Nat) (s : State) : Gate :=
  let va := mbxAddr s c f w
  if !canonical va then .trap (memFault 1 va 1)
  else if va % 128 ≠ 0 then misaligned 7 va
  else match translate s c.core (s.coh c.coh).ctx va .write with
    | .fault n => .trap (memFault n va 1)
    | .hole => .hole
    | .ok k =>
      if isHost (lineOf k) then badOperand 31 va
      else match s.agentLoss (lineOf k) with
        | some cause => fabricTrap cause (lineOf k) va
        | none =>
          if !mbxGood s k then badOperand 33 va
          else mbxPages c put (mbxArray s k) s

/-- The accesses of a warp for its sets: its header and slot array. -/
def mbxWarpAccs (c : Iss) (f : Fields) (s : State) (w : Nat) : List Acc :=
  [(mbxAddr s c f w, 128), mbxArray s (keyOf s c (mbxAddr s c f w))]

/-- The accesses of a group for its sets. -/
def mbxAccs (c : Iss) (f : Fields) (s : State) : List Acc := (c.warpsOn f s).flatMap (mbxWarpAccs c f s)

/-- The reach classes of a ring's slots, page by page. -/
def slotReaches (s : State) (c : Iss) (key : Nat) : List Nat :=
  let a := mbxArray s key
  (pagesOf a.1 a.2).map fun va => reachOf (lineOf (keyOf s c va))

/-- The checks of a group, which read the headers. MBXPUT is irrevocable; MBXGET writes its header as an atomic does (22 R420). -/
def mbxGate (c : Iss) (f : Fields) (put : Bool) (s : State) : Gate :=
  let ws := c.warpsOn f s
  let hdr := fun (w : Nat) => lineOf (keyOf s c (mbxAddr s c f w))
  (gateAll ws (fun w s => (mbxWarp c f put w s).andThen fun s => sealedGate false c (mbxWarpAccs c f s w) s) s).andThen fun s =>
    (gateAcq c (ws.map fun w => (w, reachOf (hdr w))) s).andThen fun s =>
      (gateSets c (mbxAccs c f s) s).andThen fun s =>
        if ws.isEmpty then .pass s
        else if put || outsideSets s c.coh (ws.map fun w => (mbxAddr s c f w, 128)) then gateSeal c .irrevocable s
        else .pass s

/-- The lowest reach class of a ring's slots. -/
def mbxReach (s : State) (c : Iss) (key : Nat) : Nat := (slotReaches s c key).foldl min 3

/-- MBXPUT (17 R348): the message is taken, and the reservation is to come. -/
def execMbxput (f : Fields) (s : State) : Host.Outcome State Fault Refusal :=
  issue (.mbxput f) f (fun c s => mbxGate c f true s)
    (fun c s => leaveNext c f.bnd (perWarp c f s (fun w t =>
      let va := mbxAddr s c f w
      let key := keyOf s c va
      let v := (s.warp c.coh w).view
      let msg := (upto 8).flatMap fun m => leBytes 8 ((s.warp c.coh w).readS (f.sb.idx.toNat + m)).toNat
      (t.modCore c.core (Core.l1Drop (lineOf key))).addOp
        { kind := .mbxput key (mbxSlots s key) (mbxLog s key) msg none 0, coh := c.coh, warp := w, core := c.core
          pc := c.pc, ths := c.ths, vacc := v, reach := mbxReach s c key
          hdr := some { act := .claim, line := lineOf key, va, vreq := v, ret := memRet f } }) s)) s

/-- MBXGET (17 R349): its claim is to come; it holds later accesses as an acquire, .CO acting as .DEV. -/
def execMbxget (f : Fields) (s : State) : Host.Outcome State Fault Refusal :=
  issue (.mbxget f) f (fun c s => mbxGate c f false s)
    (fun c s => leaveNext c f.bnd (perWarp c f s (fun w t =>
      let va := mbxAddr s c f w
      let key := keyOf s c va
      let v := (s.warp c.coh w).view
      let on := c.lanesOn f s w
      (t.modCore c.core (Core.l1Drop (lineOf key))).addOp
        { kind := .mbxget key (mbxSlots s key) (mbxLog s key) f.dst.idx.toNat f.sb.idx.toNat none 0, coh := c.coh, warp := w
          core := c.core, pc := c.pc, ths := c.ths, dests := destsOf (footOf (.mbxget f)).writes 0
          wins := on.map fun l => (l, f.la.toNat), long := true, acq := some (max 1 (memScope f)), vacc := v
          parts := [{ act := .claim, line := lineOf key, va, vreq := v, ret := memRet f }]
          reach := mbxReach s c key }) s)) s

/-! ## Steps at the header's home -/

/-- An operation that has not yet acted on a header. -/
def Op.waitsAt (o : Op) (hdr : Nat) : Bool :=
  match o.kind with
  | .mbxput k _ _ _ none _ | .mbxget k _ _ _ _ none _ => k = hdr
  | _ => false

/-- A step of a ring takes a stamp at the header's home, where the instruction's retention code is recorded, and is seen
by monitors; the core's L1 and the die's remote-data cache drop the line (14 R247, R249, R253; 17 R332). -/
def headerStep (o : Op) (p : Part) (hdr off v vreq : Nat) (s : State) : State × Nat :=
  let die := dieOf o.core
  let s := if isRemote die p.line then s.rdcDrop die p.line else s
  let (s, w) := s.homeStore p.line vreq p.ret (cellsOf (hdr + off) 8 v)
  (progress o.core o.coh o.ths (fireMonitors p.line (s.modCore o.core (Core.l1Drop p.line))), w)

/-- MAILBOX_RESERVE (17 R348; RESV − HEAD is exact, 00 R6): once the ring has room, and every earlier request of the warp to
the header has been performed, the next index is reserved and the message is to be stored in its slot. -/
def execMailboxReserve (op : Nat) (s : State) : Host.Outcome State Fault Refusal :=
  match s.ops.find op with
  | some o =>
    match o.kind, o.hdr with
    | .mbxput hdr slots log2n msg none 0, some h =>
      let i := s.num hdr 8
      let earlier := s.ops.any fun e => e.1 < op && e.2.coh = o.coh && e.2.warp = o.warp &&
        (e.2.waitsAt hdr || e.2.parts.any fun p => !p.done && p.line = h.line)
      let va := slots + 64 * (i % 2 ^ log2n)
      if (s.coh o.coh).status ≠ .resident || earlier || s.unreachable h.line ||
          s.num (hdr + 24) 8 + 2 ^ log2n ≤ i then .next s
      else match translate s o.core (s.coh o.coh).ctx va .write with
        | .fault _ | .hole => .next s
        | .ok k =>
          let (s, w) := headerStep o h hdr 0 (i + 1) o.vacc s
          let p : Part := { act := .store (cellsOfL k msg), line := lineOf k, va, vreq := o.vacc, ret := h.ret
                            late := acqAhead s op o.coh o.warp (reachOf (lineOf k)) }
          .next (((s.raiseH o.coh o.warp w).modCore o.core (Core.l1Drop p.line)).modOp op fun o => { o with
            kind := .mbxput hdr slots log2n msg (some i) 1, parts := [p], hi := w })
    | _, _ => .next s
  | none => .next s

/-- MAILBOX_TAIL_ADVANCE (17 R348, 16 R322): once TAIL is the reserved index and the message has replied, TAIL advances
under a stamp at or above the message's. -/
def execMailboxTailAdvance (op : Nat) (s : State) : Host.Outcome State Fault Refusal :=
  match s.ops.find op with
  | some o =>
    match o.kind, o.hdr with
    | .mbxput hdr _ _ _ (some i) _, some h =>
      if !o.replied || s.unreachable h.line || s.num (hdr + 8) 8 ≠ i then .next s
      else
        let (s, w) := headerStep o h hdr 8 (i + 1) (max o.vacc o.hi) s
        .next (completeOp op (s.raiseH o.coh o.warp w))
    | _, _ => .next s
  | none => .next s

/-- MAILBOX_HEAD_RELEASE (17 R349): once HEAD is the claimed index, HEAD advances. -/
def execMailboxHeadRelease (op : Nat) (s : State) : Host.Outcome State Fault Refusal :=
  match s.ops.find op with
  | some o =>
    match o.kind, o.hdr with
    | .mbxget hdr _ _ _ _ (some i) 2, some h =>
      if s.unreachable h.line || s.num (hdr + 24) 8 ≠ i then .next s
      else
        let (s, w) := headerStep o h hdr 24 (i + 1) o.vacc s
        .next (completeOp op (s.raiseH o.coh o.warp w))
    | _, _ => .next s
  | none => .next s

end Sys2Proof.Machine
end

