-- ==== Sys2Proof/Machine/Scalar.lean ====
section
/-! DEFINITION. Group 1: the scalar instructions (11 R197 to R203). -/

namespace Sys2Proof.Machine

/-- A scalar source read as a type (11 R197). -/
def State.srcT (s : State) (coh w t : Nat) (o : Operand) : Int := asTy t (s.srcS coh w o).toNat

/-- A value of a type as it is written to all 64 bits (11 R197). -/
def outT (y : Int) : W64 := BitVec.ofInt 64 y

/-- Two sources, an exact result, wrapped or saturated. -/
def scalar2 (f : Fields) (op : Int → Int → Int) (s : State) (coh w : Nat) : W64 :=
  outT (fitTy f.modn f.sat (op (s.srcT coh w f.modn f.sa) (s.srcT coh w f.modn f.sb)))

/-- Two sources as bit patterns of the type's width. -/
def scalarBits (f : Fields) (op : Nat → Nat → Nat) (s : State) (coh w : Nat) : W64 :=
  let n := tyWidth f.modn
  outT (asTy f.modn (op ((s.srcS coh w f.sa).toNat % 2 ^ n) ((s.srcS coh w f.sb).toNat % 2 ^ n)))

/-- One source as a bit pattern. -/
def scalarBits1 (f : Fields) (op : Nat → Nat) (s : State) (coh w : Nat) : W64 :=
  let n := tyWidth f.modn
  outT (asTy f.modn (op ((s.srcS coh w f.sa).toNat % 2 ^ n)))

/-- The shift count: unsigned, of the type's width (11 R201). -/
def scalarCount (f : Fields) (s : State) (coh w : Nat) : Nat := (s.srcS coh w f.sb).toNat % 2 ^ tyWidth f.modn

/-- SADD (11 R199). -/
def execSadd (f : Fields) (s : State) : Host.Outcome State Fault Refusal :=
  issueFixed (.sadd f) f (effS f (scalar2 f (· + ·))) s
/-- SSUB (11 R199). -/
def execSsub (f : Fields) (s : State) : Host.Outcome State Fault Refusal :=
  issueFixed (.ssub f) f (effS f (scalar2 f (· - ·))) s
/-- SMUL (11 R199). -/
def execSmul (f : Fields) (s : State) : Host.Outcome State Fault Refusal :=
  issueFixed (.smul f) f (effS f (scalar2 f (· * ·))) s
/-- SMULH: the upper half of the product (11 R199). -/
def execSmulh (f : Fields) (s : State) : Host.Outcome State Fault Refusal :=
  issueFixed (.smulh f) f (effS f (scalar2 f fun a b => (a * b).fdiv (2 ^ tyWidth f.modn))) s
/-- SDIV (11 R200). -/
def execSdiv (f : Fields) (s : State) : Host.Outcome State Fault Refusal :=
  issueLongS (.sdiv f) f noCheck (scalar2 f fun a b => (divTy a b).1) s
/-- SREM (11 R200). -/
def execSrem (f : Fields) (s : State) : Host.Outcome State Fault Refusal :=
  issueLongS (.srem f) f noCheck (scalar2 f fun a b => (divTy a b).2) s
/-- SAND (11 R199). -/
def execSand (f : Fields) (s : State) : Host.Outcome State Fault Refusal :=
  issueFixed (.sand f) f (effS f (scalarBits f (· &&& ·))) s
/-- SOR (11 R199). -/
def execSor (f : Fields) (s : State) : Host.Outcome State Fault Refusal :=
  issueFixed (.sor f) f (effS f (scalarBits f (· ||| ·))) s
/-- SXOR (11 R199). -/
def execSxor (f : Fields) (s : State) : Host.Outcome State Fault Refusal :=
  issueFixed (.sxor f) f (effS f (scalarBits f (· ^^^ ·))) s
/-- SSHL (11 R201). -/
def execSshl (f : Fields) (s : State) : Host.Outcome State Fault Refusal :=
  issueFixed (.sshl f) f (effS f fun s k w =>
    outT (shlTy f.modn (s.srcT k w f.modn f.sa) (scalarCount f s k w))) s
/-- SSHR (11 R201). -/
def execSshr (f : Fields) (s : State) : Host.Outcome State Fault Refusal :=
  issueFixed (.sshr f) f (effS f fun s k w =>
    outT (shrTy f.modn (s.srcT k w f.modn f.sa) (scalarCount f s k w))) s
/-- SMIN (11 R199). -/
def execSmin (f : Fields) (s : State) : Host.Outcome State Fault Refusal :=
  issueFixed (.smin f) f (effS f (scalar2 f fun a b => min a b)) s
/-- SMAX (11 R199). -/
def execSmax (f : Fields) (s : State) : Host.Outcome State Fault Refusal :=
  issueFixed (.smax f) f (effS f (scalar2 f fun a b => max a b)) s
/-- SCMP: one result per warp, for its guard-holding threads in the group (11 R202). -/
def execScmp (f : Fields) (s : State) : Host.Outcome State Fault Refusal :=
  issueFixed (.scmp f) f (fun c s => perThread c f s (fun w l => State.writeP c.coh w l f.dst.idx.toNat
    (condHolds f.opt (s.srcT c.coh w f.modn f.sa) (s.srcT c.coh w f.modn f.sb))) s) s
/-- SSEL: the selector is tested over all 64 bits (11 R203). -/
def execSsel (f : Fields) (s : State) : Host.Outcome State Fault Refusal :=
  issueFixed (.ssel f) f (effS f fun s k w =>
    outT (if s.srcS k w f.third ≠ 0 then s.srcT k w f.modn f.sa else s.srcT k w f.modn f.sb)) s
/-- SMOV (11 R199). -/
def execSmov (f : Fields) (s : State) : Host.Outcome State Fault Refusal :=
  issueFixed (.smov f) f (effS f (scalarBits1 f fun a => a)) s
/-- SMOVI: .SX, .ZX, .HI (11 R203). -/
def execSmovi (f : Fields) (s : State) : Host.Outcome State Fault Refusal :=
  issueFixed (.smovi f) f (effS f fun s k w =>
    if f.modn = 0 then f.imm.signExtend 64
    else if f.modn = 1 then f.imm.setWidth 64
    else f.imm ++ ((s.warp k w).readS f.dst.idx.toNat).setWidth 32) s
/-- SCLZ (11 R199). -/
def execSclz (f : Fields) (s : State) : Host.Outcome State Fault Refusal :=
  issueFixed (.sclz f) f (effS f (scalarBits1 f (clz (tyWidth f.modn)))) s
/-- SPOPC (11 R199). -/
def execSpopc (f : Fields) (s : State) : Host.Outcome State Fault Refusal :=
  issueFixed (.spopc f) f (effS f (scalarBits1 f fun a => popcount a 64)) s
/-- SADDR (11 R203). -/
def execSaddr (f : Fields) (s : State) : Host.Outcome State Fault Refusal :=
  issueFixed (.saddr f) f (effS f fun s k w =>
    s.srcS k w f.sa + s.srcS k w f.sb * BitVec.ofNat 64 (2 ^ (f.opt % 64)) + s.srcS k w f.third) s

end Sys2Proof.Machine
end

