-- ==== Sys2Proof/Machine/Service.lean ====
section
/-! DEFINITION. Attestation and live service (31 R516, R517, R519, R520), fabric failures (07 R127), soft errors (02 R42,
14 R245, 19 R371, 28 R486), and the resets of a function and of the module (01 R22, 16 R300, 22 R402). -/

namespace Sys2Proof.Machine

/-! ## Attestation over DOE (31 R516) -/

/-- The answers that are data of the implementation: version, capabilities, algorithms, the certificate chain of a slot. -/
inductive SpdmData where
  | version | capabilities | algorithms
  | chain (slot : Nat)

/-- The bytes of such an answer: a free value (log 13). -/
def SpdmData.bytes : SpdmData → List Byte
  | .version => Config.spdm 0 0
  | .capabilities => Config.spdm 1 0
  | .algorithms => Config.spdm 2 0
  | .chain slot => Config.spdm 3 slot

/-- Bytes followed by their signature under the identity key. -/
def signed (bs : List Byte) : List Byte := bs ++ leBytes 64 (Config.sign bs)

/-- The module replies over DOE. -/
def reply (bs : List Byte) (s : State) : State := { s with doe := bs :: s.doe }

/-- GET_VERSION. -/
def execGetVersion (s : State) : Host.Outcome State Fault Refusal := .next (reply SpdmData.version.bytes s)
/-- GET_CAPABILITIES. -/
def execGetCapabilities (s : State) : Host.Outcome State Fault Refusal := .next (reply SpdmData.capabilities.bytes s)
/-- NEGOTIATE_ALGORITHMS. -/
def execNegotiateAlgorithms (s : State) : Host.Outcome State Fault Refusal :=
  .next (reply SpdmData.algorithms.bytes s)
/-- GET_DIGESTS: the SHA-512 of the certificate chain. -/
def execGetDigests (s : State) : Host.Outcome State Fault Refusal :=
  .next (reply (sha512 (SpdmData.chain 0).bytes) s)
/-- GET_CERTIFICATE. -/
def execGetCertificate (slot : Nat) (s : State) : Host.Outcome State Fault Refusal :=
  .next (reply (SpdmData.chain slot).bytes s)
/-- CHALLENGE: the digest and the nonce, signed. -/
def execChallenge (nonce : Nat) (s : State) : Host.Outcome State Fault Refusal :=
  .next (reply (signed (sha512 (SpdmData.chain 0).bytes ++ leBytes 32 nonce)) s)

/-! ## Firmware (31 R516, R519) -/

/-- The hash of the image in the active slot. -/
def Firmware.measurement (f : Firmware) : Nat := if f.active then f.b else f.a
/-- A controller's firmware slots. -/
def State.firmware (s : State) (k : Nat) : Firmware := (s.fw.find k).getD {}

/-- GET_MEASUREMENTS: the measurement of controller k, signed; an index that names no controller has none. -/
def execGetMeasurements (index : Nat) (s : State) : Host.Outcome State Fault Refusal :=
  .next (reply (signed (match s.fw.find index with
    | some f => leBytes 1 index ++ leBytes 64 f.measurement
    | none => [])) s)

/-- The image goes into the inactive slot. -/
def Firmware.accept (hash : Nat) (f : Firmware) : Firmware :=
  if f.active then { f with a := hash, pending := true } else { f with b := hash, pending := true }

/-- FIRMWARE_IMAGE_ACCEPT: only when the signature over the image's SHA-512 hash verifies. -/
def execFirmwareImageAccept (controller : Nat) (image : List (BitVec 8)) (signature : Nat) (s : State) :
    Host.Outcome State Fault Refusal :=
  let hash := leNat (sha512 image)
  .next (if Config.verify hash signature then { s with fw := s.fw.modify controller (Firmware.accept hash) } else s)

/-- A context is in a save or a load phase. -/
def inPhase (s : State) : Bool := s.ctxs.any fun e => e.2.st = .saving || e.2.st = .loading

/-- A command of Rotunda is outstanding. -/
def Op.rotunda (o : Op) : Bool := match o.kind with
  | .wsync _ _ _ => true
  | .eng (.queueChange _ _) | .eng (.wqry _ _) | .eng (.wnext _ _ _) | .eng (.wclose _ _) | .eng (.wres _ _)
  | .eng (.wcol _ _ _) => true
  | _ => false

/-- An operation has a request in flight to the homes a test names: an access that has not replied, a step at a mailbox's header,
a monitor, or, for an engine command, the lines of peers it names (31 R517). -/
def Op.inFlight (home : Nat → Bool) (o : Op) : Bool :=
  (o.parts.any fun p => (!p.done || match o.kind with
      | .eng _ => true
      | _ => false) && home p.line) || (o.hdr.any fun p => home p.line) || match o.kind with
    | .waitc key _ _ _ _ _ _ => home (lineOf key)
    | _ => false

/-- A stream's filler or storer is at work (01 R7, 14 R262). -/
def streamsAtWork (s : State) : Bool :=
  s.cohorts.any fun e => e.2.streams.any fun x => x.2.slots.any fun k => k.1 = .filling || k.1 = .storing

/-- A controller has no command in flight. -/
def controllerIdle (s : State) (k : Nat) : Bool :=
  match k with
  | 1 => s.launches.all (fun e => e.2.done) && !inPhase s
  | 2 => s.worlds.all (fun e => e.2.syncs.isEmpty && e.2.mark.isNone) && !(s.ops.any fun e => e.2.rotunda)
  | 4 => !inPhase s && !(s.cohorts.any fun e => e.2.status = .resident && e.2.preq.isSome)
  | 5 => !streamsAtWork s && s.ops.all fun e => !e.2.inFlight fun line => !isPeer line
  | 6 => s.ops.all fun e => !e.2.inFlight isPeer
  | _ => true

/-- FIRMWARE_ACTIVATION: an accepted image becomes active once its controller has no command in flight. -/
def execFirmwareActivation (controller : Nat) (s : State) : Host.Outcome State Fault Refusal :=
  .next (if (s.firmware controller).pending && controllerIdle s controller then
      { s with fw := s.fw.modify controller fun f => { f with active := !f.active, pending := false } }
    else s)

/-! ## Serviced parts (31 R517, R520) -/

/-- LANE_RECALIBRATION: a port's lane goes out of service when no other of it is out, or comes back. -/
def execLaneRecalibration (port lane : Nat) (s : State) : Host.Outcome State Fault Refusal :=
  .next (if 64 ≤ port || 4 ≤ lane then s
    else if s.lanes.contains (port, lane) then { s with lanes := s.lanes.filter fun x => x ≠ (port, lane) }
    else if s.lanes.any fun x => x.1 = port then s
    else { s with lanes := (port, lane) :: s.lanes })

/-- PSEUDO_CHANNEL_RETIREMENT, of one of the eight stacks (01 R7): its data has been copied; addresses, stamps and leases are
unchanged. -/
def execPseudoChannelRetirement (stack channel : Nat) (s : State) : Host.Outcome State Fault Refusal :=
  .next (if 8 ≤ stack then s else { s with channels := (stack, channel) :: s.channels.filter fun x => x ≠ (stack, channel) })

/-- ROW_SPARING, in one of the eight stacks (01 R7): its data has been copied; addresses, stamps and leases are unchanged. -/
def execRowSparing (stack row : Nat) (s : State) : Host.Outcome State Fault Refusal :=
  .next (if 8 ≤ stack then s else { s with rows := (stack, row) :: s.rows.filter fun x => x ≠ (stack, row) })

/-- The resident cohorts of a core. -/
def residentsOf (s : State) (core : Nat) : List Nat :=
  (s.cohorts.filter fun e => e.2.core = core && e.2.status = .resident).map Prod.fst

/-- CORE_DRAIN: the core admits nothing more, and pre-emption of its cohorts is requested. -/
def execCoreDrain (core : Nat) (s : State) : Host.Outcome State Fault Refusal :=
  .next (forEach (residentsOf s core) (requestPreempt false) (s.modCore core fun k => { k with draining := true }))

/-- SPARE_SUBSTITUTION: once every cohort of a drained core is saved or retired, a spare of its die takes its logical
number (01 R8). -/
def execSpareSubstitution (core : Nat) (s : State) : Host.Outcome State Fault Refusal :=
  let die := dieOf core
  let left := FMap.getD 0 s.spares die
  .next (if (s.core core).draining && (residentsOf s core).isEmpty && 0 < left then
      { s.modCore core (fun _ => Core.reset (die * 52 + 52 - left)) with spares := FMap.put die (left - 1) s.spares }
    else s)

/-- MODULE_REMOVAL: a peer, whose number has 11 bits (01 R18), leaves its tray; no request to it is performed any more. -/
def execModuleRemoval (peer : Nat) (s : State) : Host.Outcome State Fault Refusal :=
  .next (if 2048 ≤ peer then s else { s with absent := insertNat peer s.absent })

/-- MODULE_REPLACEMENT: a module takes the number again, its memory contents restored. -/
def execModuleReplacement (peer : Nat) (s : State) : Host.Outcome State Fault Refusal :=
  .next { s with absent := s.absent.filter fun x => x ≠ peer }

/-- ROUTE_CHANGE: the fabric reroutes around one of the 64 ports (01 R17). A request sent again is performed at most once. -/
def execRouteChange (port : Nat) (s : State) : Host.Outcome State Fault Refusal :=
  .next (if 64 ≤ port then s else { s with routes := insertNat port s.routes })

/-! ## Fabric failures (07 R127, 31 R517) -/

/-- A failed request. -/
def Part.failed (cause : Nat) (p : Part) : Part :=
  { p with done := true, heldSeal := false, fail := some (cause, peerOf p.line) }

/-- The failure of a posted request at an address, left for its warp. -/
def failAt (o : Op) (p : Part) (cause : Nat) (s : State) : State :=
  failPosted o.coh o.warp { code := 0x0E, detail := cause * 65536 + peerOf p.line, pc := o.pc, addr := p.va
                            imprecise := true } s

/-- The loads of an operation that wait for a line fail. -/
def Op.fillFailed (line cause : Nat) (o : Op) : Op :=
  { o with parts := o.parts.map fun q =>
      if !q.done && !q.late && q.line = line && q.act = .load then q.failed cause else q }

/-- A failed fill is reported to each load that waits for it (14 R249). -/
def failFill (o : Op) (p : Part) (cause : Nat) (s : State) : State :=
  let die := dieOf o.core
  let ids := (s.ops.filter fun e => e.2.waitsFill die p.line).map Prod.fst
  let s := { s with ops := s.ops.mapVals fun _ x => cond (x.waitsFill die p.line) (x.fillFailed p.line cause) x }
  forEach ids finishPosted s

/-- A request fails: a long instruction's registers are to be marked; a posted operation leaves the failure for its warp;
a prefetch ends. -/
def failPart (id i : Nat) (o : Op) (p : Part) (cause : Nat) (s : State) : State :=
  if p.loads then failFill o p cause (finishPosted id (setPart id i (p.failed cause) s))
  else
    let s := setPart id i (p.failed cause) s
    if o.long then s
    else if o.mailbox then completeOp id (failAt o p cause s) else finishPosted id (failAt o p cause s)

/-- The failure of a request of an operation: of one of its parts, of the step it has still to make at a mailbox's header, of
an engine command's access to a line of a peer, or of a monitor, whose WAITC returns with its register marked (log 69). -/
def failRequest (id : Nat) (o : Op) (part cause : Nat) (reach : Nat → Bool) (s : State) : State :=
  match o.kind with
  | .eng _ => match o.parts[part]? with
    | some p => if reach p.line && p.fail.isNone && o.held.isNone then setPart id part (p.failed cause) s else s
    | none => s
  | .waitc key _ _ _ dst _ _ =>
    if reach (lineOf key) && o.held.isNone then
      completeOp id (s.markRegs o.coh o.warp (markLane false dst 1 0 0x0E (cause * 65536 + peerOf (lineOf key)) o.vacc))
    else s
  | _ => match o.parts[part]?, o.hdr with
    | some p, _ => if !p.done && reach p.line && !acqAhead s id o.coh o.warp (reachOf p.line) then failPart id part o p cause s else s
    | none, some h => if part = o.parts.length && reach h.line then completeOp id (failAt o h cause s) else s
    | none, none => s

/-- FABRIC_TIMEOUT (31 R517): a request to a peer that was not delivered fails; one to an absent module with cause 1. The
requests of the module's own agents, which are made and answered within one turn, fail in that turn (`Turn.lost`). -/
def execFabricTimeout (op part cause : Nat) (s : State) : Host.Outcome State Fault Refusal :=
  if cause = 0 || 4 < cause then .next s
  else match s.ops.find op with
    | none => .next s
    | some o => .next (failRequest op o part cause
        (fun line => isPeer line && (cause = 1 || !s.absent.contains (peerOf line))) s)

/-! ## Soft errors -/

/-- Add an element to a list of marks. -/
def markElem (k : Nat) (l : List Nat) : List Nat := if l.contains k then l else k :: l

/-- A register of a resident cohort's warp is marked (02 R42). -/
def markReg (coh w : Nat) (vec : Bool) (idx lane : Nat) (s : State) : State :=
  if (s.coh coh).status = .resident && (s.cohorts.find coh).isSome then
    s.markRegs coh w [{ vec, idx, lane, code := 0x0F, detail := 1, addr := 0 }]
  else s

/-- SOFT_ERROR_MARK: an uncorrectable soft error marks what it strikes. -/
def softError (t : SoftTarget) (s : State) : State :=
  match t with
  | .vreg coh w reg lane => if 255 ≤ reg || 32 ≤ lane then s else markReg coh w true reg lane s
  | .sreg coh w reg => if 63 ≤ reg then s else markReg coh w false reg 0 s
  | .acc core tile m n z =>
    let k := 16384 * tile + 128 * m + n
    s.modMx core fun u =>
      if u.owner.isNone || 4 ≤ tile || 128 ≤ m || 128 ≤ n then u
      else
        let u := { u with status := statusOr u.status 0 true }
        if z then { u with zmark := markElem k u.zmark } else { u with pmark := markElem k u.pmark }
  | .wtable core entry => s.modCore core fun k => { k with wts := listModify (fun x => { x with bad := true }) entry k.wts }
  | .reply op => s.modOp op fun o => if o.long || (match o.kind with
      | .eng _ => true
      | _ => false) then { o with soft := true } else o
  | .scratch coh off => s.modCoh coh fun h =>
    if h.status = .resident && off < h.scratchSize then { h with scratchBad := markElem off h.scratchBad } else h
  | .control ctx addr =>
    let st := (s.ctx ctx).st
    if st = .active || st = .saving || st = .loading then contextFault ctx 6 0 { code := 0, addr := addr / 128 * 128 } s else s
  | .world op => s.modOp op fun o => if o.rotunda then { o with soft := true } else o

/-- SOFT_ERROR_MARK (19 R371). -/
def execSoftErrorMark (target : SoftTarget) (s : State) : Host.Outcome State Fault Refusal := .next (softError target s)

/-! ## Resets and the module number -/

/-- MODULE_NUMBER_ASSIGNMENT (31 R511). -/
def execModuleNumberAssignment (number : Nat) (s : State) : Host.Outcome State Fault Refusal :=
  .next { s with modnum := BitVec.ofNat 11 number }

/-- A context of a function that is reset. The spec does not say what becomes of the images of its earlier CTXSAVEs: they are
forgotten, and a CTXLOAD of one returns 4 (DESIGN CHOICE, log 93). -/
def clearContext (ctx : Nat) (s : State) : State :=
  let s := dropTlb (fun e => e.ctx = ctx) (endContext ctx s)
  { s.modCtx ctx (fun _ => {}) with worlds := s.worlds.filter fun e => e.1 / 256 ≠ ctx }

/-- FUNCTION_RESET (01 R22): its contexts and registers are as at reset, and its capability list is built anew; the
physical function grants every capability. -/
def execFunctionReset (fn : Nat) (withheld : List Nat) (s : State) : Host.Outcome State Fault Refusal :=
  if 64 ≤ fn then .next s
  else
    let s := forEach (upto 16) (fun c => clearContext (16 * fn + c)) s
    let s := s.modFn fn fun f => { withheld := if fn = 0 then [] else withheld, bar2size := f.bar2size }
    .next (if fn = 0 then { s with hqBase := 0, hqLog2 := 0, hqTail := 0, hqHead := 0, hqReply := 0, hqOut := [] } else s)

/-- MODULE_RESET (16 R300, 22 R402): the state after reset. What is not the module's state stays: host and peer memory,
the parts that were serviced, the firmware, the replies already given, and the model's own counters and agenda. -/
def execModuleReset (s : State) : Host.Outcome State Fault Refusal :=
  .next { State.reset with
    mem := s.mem.filter fun c => 2 ^ 52 ≤ c.1
    cores := State.reset.cores.map fun e => (e.1, Core.reset (s.core e.1).phys)
    nextOp := s.nextOp, fw := s.fw, spares := s.spares, rows := s.rows, channels := s.channels, lanes := s.lanes
    absent := s.absent, routes := s.routes, doe := s.doe, hostRead := s.hostRead, free := s.free, agenda := s.agenda }

end Sys2Proof.Machine
end

