-- ==== Sys2Proof/Machine/System.lean ====
section
/-! DEFINITION. Group 13: the system instructions (08 R162 to R177). -/

namespace Sys2Proof.Machine

/-! ## Traps and handlers -/

/-- TRAP (08 R164): the guard-holding part of the group takes the software trap and resumes at PC + 1. -/
def execTrap (f : Fields) (s : State) : Host.Outcome State Fault Refusal :=
  issue (.trap f) f noCheck (fun c s =>
    let on := c.on f s
    if on.isEmpty then leaveNext c true s
    else takeTrap c on on (fun _ => { code := 0x0C, detail := f.imm.toNat }) (c.pc + 1) (c.pc + 1) s) s

/-- Whether a thread belongs to its warp's active handler (08 R165). -/
def inHandler (s : State) (coh w l : Nat) : Bool := (s.warp coh w).handler && laneIn (s.warp coh w).hleft l

/-- TRET (08 R165, 07 R134): each handler thread ends the handler for itself. -/
def execTret (f : Fields) (s : State) : Host.Outcome State Fault Refusal :=
  issue (.tret f) f
    (fun c s => if (c.on f s).all fun t => inHandler s c.coh t.1 t.2 then .pass s else .trap { code := 2, detail := 1 })
    (fun c s =>
      let on := c.on f s
      let rest := c.ths.filter fun t => !on.contains t
      let s := noteHang c (endRun c s)
      let s := forEach rest (fun t => State.modThread c.coh t.1 t.2 fun x => { x with pc := c.pc + 1, exempt := none }) s
      let s := forEach on (fun t => State.modThread c.coh t.1 t.2 fun x => { x with held := true }) s
      let parts : List Group :=
        (if rest.isEmpty then [] else [{ coh := c.coh, pc := c.pc + 1, ths := rest }]) ++
          (partsBy Prod.fst on).map fun p => { coh := c.coh, pc := c.pc, ths := p.2, held := true }
      let s := placeParts c.core c.ent parts s
      forEach (sortedNats (on.map Prod.fst)) (fun w =>
        handlerReturn c.coh w ((on.filter fun t => t.1 = w).map Prod.snd)) s) s

/-- RDTRAP (08 R166): a doubleword of the head record while a handler is active, else 0. -/
def execRdtrap (f : Fields) (s : State) : Host.Outcome State Fault Refusal :=
  issueLongS (.rdtrap f) f noCheck (fun s k w =>
    let x := s.warp k w
    match x.handler, x.trapq with
    | true, t :: r => BitVec.ofNat 64 (fieldN (t.bytes r.length) (8 * f.opt) 8)
    | _, _ => 0) s

/-! ## Pre-emption points -/

/-- The scratchpad ranges of a list (07 R141): offset and length; none when one breaks the rule. -/
def rangeList (bs : List Byte) (size : Nat) : Option (List (Nat × Nat)) :=
  let es := (upto 4).map fun j => (fieldN bs (8 * j) 4, fieldN bs (8 * j + 4) 4)
  let used := es.filter fun e => e.2 ≠ 0
  if used.all fun e => e.2 % 128 = 0 && e.1 % 128 = 0 && e.1 + e.2 ≤ size then some used else none

/-- The address of a warp's range list. -/
def rangeAddr (s : State) (c : Iss) (f : Fields) (w : Nat) : Nat := ((s.warp c.coh w).readS f.sa.idx.toNat).toNat

/-- The warps that read a range list: under a pending request, unless SA is sz (07 R140, 08 R168). -/
def rangeWarps (s : State) (c : Iss) (f : Fields) : List Nat :=
  if (s.coh c.coh).preq.isNone || f.sa.idx.toNat = 63 then [] else c.warpsOn f s

/-- The checks of a warp's 32-byte read (14 R243; 22 R420). -/
def rangeRead (c : Iss) (f : Fields) (w : Nat) (s : State) : Gate :=
  (accessGate c .read (rangeAddr s c f w) 32 s).andThen (sealedGate false c [(rangeAddr s c f w, 32)])

/-- A warp's address passes them. -/
def rangeReads (s : State) (c : Iss) (f : Fields) (w : Nat) : Bool :=
  match rangeRead c f w s with
  | .pass _ => true
  | _ => false

/-- The bytes of a warp's range list, read as a load. -/
def readRanges (c : Iss) (f : Fields) (w : Nat) (s : State) : State × List Byte :=
  warpRead c w 0 (rangeAddr s c f w) 32 s

/-- A warp's list can be read, and obeys 07 R141, or DETAIL 1; a missing module fails the read. -/
def rangeCheck (c : Iss) (f : Fields) (w : Nat) (s : State) : Gate :=
  (fabricGate c w (rangeAddr s c f w, 32) s).andThen fun s =>
    let (t, bs) := readRanges c f w s
    if (rangeList bs (s.coh c.coh).scratchSize).isSome then .pass t else badOperand 1 (rangeAddr s c f w)

/-- The read of the lists of warps whose addresses are good: outstanding acquires and accesses of their own hold it, and it
touches the sets in reach (16 R307, R310; 22 R416). -/
def rangeReady (c : Iss) (f : Fields) (ws : List Nat) (s : State) : Gate :=
  let line := fun (w : Nat) => lineOf (keyOf s c (rangeAddr s c f w))
  if ws.any fun w => ownOut s c.coh w (line w) then .hold (keepSince c s)
  else (gateAcq c (ws.map fun w => (w, reachOf (line w))) s).andThen
    (gateSets c (ws.map fun w => (rangeAddr s c f w, 32)))

/-- The range lists of a PREEMPT under a pending request, read as may-fault accesses (07 R124, R140; 08 R168): SA is waited
for and its mark raised, as of any register an instruction reads (02 R41, R42); the first failure is that of the lowest
warp (07 R125). -/
def rangesGate (f : Fields) (c : Iss) (s : State) : Gate :=
  let ws := rangeWarps s c f
  let sa := f.sa.idx.toNat
  if ws.any fun w => pendingS s c.coh w sa then .hold s
  else match ws.findSome? fun w => poisonMet (s.warp c.coh w) [{ vec := false, idx := sa }] [] with
    | some p => .trap p.trapRec
    | none =>
      let good := ws.takeWhile (rangeReads s c f)
      (rangeReady c f good s).andThen fun s => (gateAll good (rangeCheck c f) s).andThen
        (gateAll ws (rangeRead c f))

/-- The ranges a warp's list names. -/
def rangesOf (s : State) (c : Iss) (f : Fields) (w : Nat) : List (Nat × Nat) :=
  (rangeList (readRanges c f w s).2 (s.coh c.coh).scratchSize).getD []

/-- The ranges of every warp that reads a list. -/
def allRanges (s : State) (c : Iss) (f : Fields) : List (Nat × Nat) := (rangeWarps s c f).flatMap (rangesOf s c f)

/-- What a thread's PREEMPT names. -/
def pointOf (s : State) (c : Iss) (f : Fields) (w : Nat) : Point :=
  { regs := f.imm, acc := f.mod.setWidth 4, ranges := if (rangeWarps s c f).contains w then rangesOf s c f w else [] }

/-- PREEMPT (08 R167, R168; 07 R139, R140). -/
def execPreempt (f : Fields) (s : State) : Host.Outcome State Fault Refusal :=
  issue (.preempt f) f
    (rangesGate f)
    (fun c s =>
      let on := c.on f s
      if (s.coh c.coh).preq.isNone || on.isEmpty then leaveNext c true s
      else
        let ranges := allRanges s c f
        let point := pointOf s c f
        let rest := c.ths.filter fun t => !on.contains t
        let s := s.modCoh c.coh fun h => { h with
          liveAcc := h.liveAcc ||| f.mod.setWidth 4, liveRanges := h.liveRanges ++ ranges }
        let s := forEach (c.warpsOn f s) (fun w => State.modWarp c.coh w fun x =>
          { x with live := some ((x.live.getD 0) ||| f.imm) }) s
        let s := noteHang c (endRun c s)
        let s := forEach rest (fun t => State.modThread c.coh t.1 t.2 fun x => { x with pc := c.pc + 1, exempt := none }) s
        let s := forEach on (fun t => State.modThread c.coh t.1 t.2 fun x =>
          { x with stopped := true, point := some (point t.1) }) s
        placeParts c.core c.ent ((if rest.isEmpty then [] else [{ coh := c.coh, pc := c.pc + 1, ths := rest }]) ++
          [{ coh := c.coh, pc := c.pc, ths := on, held := true }]) s) s

/-! ## Context switching -/

/-- The context a CTXSAVE or CTXLOAD targets. -/
def phaseTarget (s : State) (coh w : Nat) (f : Fields) : Nat := (s.srcS coh w f.sa).toNat % 1024
/-- Its image address. -/
def phaseImage (s : State) (coh w : Nat) (f : Fields) : Nat := ((s.warp coh w).readS f.sb.idx.toNat).toNat

/-- The checks of a warp before its phase: canonical form and alignment (14 R243), then every page of the image region
(08 R169). -/
def phaseCheck (save : Bool) (c : Iss) (f : Fields) (w : Nat) (s : State) : Gate :=
  let a := phaseImage s c.coh w f
  if !canonical a then .trap (memFault 1 a (if save then 1 else 0))
  else if a % 4096 ≠ 0 then .trap { code := 4, detail := 12, addr := a }
  else match translateAll s c.core (s.coh c.coh).ctx (if save then .write else .read)
      (pagesOf a Config.imageBytes) with
    | none => .pass s
    | some (va, .fault n) => .trap (memFault n va (if save then 1 else 0))
    | some (_, .hole) => .hole
    | some (_, .ok _) => .pass s

/-- The checks of the group. A warp of a function being pre-empted is held before execution (07 R153, 08 R170). -/
def phaseGate (save : Bool) (f : Fields) (c : Iss) (s : State) : Gate :=
  if vfPaused s (fnOf (s.coh c.coh).ctx) then .hold s
  else gateAll (c.warpsOn f s) (phaseCheck save c f) s

/-- A warp's phase starts, waits for the phase in flight on its target, or is refused: an operation the warp waits for,
or its status (07 R151, R152; 08 R169, R170). -/
def startPhase (save : Bool) (c : Iss) (f : Fields) (w : Nat) (p : State × List Nat) : State × List Nat :=
  let (s, ids) := p
  let t := phaseTarget s c.coh w f
  let image := phaseImage s c.coh w f
  match phaseRefused s (s.coh c.coh).ctx save t image with
  | some n => (s.writeS c.coh w f.dst.idx.toNat (BitVec.ofNat 64 n), ids)
  | none =>
    let id := s.nextOp
    let late := phaseInFlight s t
    let s := s.addOp { kind := .phase save t image f.dst.idx.toNat late, coh := c.coh, warp := w, core := c.core, pc := c.pc
                       ths := c.ths, dests := destsOf (usesOf f.dst 1) 0 }
    (if late then s else beginPhase save t s, ids ++ [id])

/-- CTXSAVE and CTXLOAD: the group leaves its slot until its phases have ended. -/
def runPhase (save : Bool) (f : Fields) (c : Iss) (s : State) : State :=
  let (s, ids) := (c.warpsOn f s).foldl (fun p w => startPhase save c f w p) (s, [])
  leaveBlocked c ids false s

/-- CTXSAVE (08 R169, R170). -/
def execCtxsave (f : Fields) (s : State) : Host.Outcome State Fault Refusal :=
  issue (.ctxsave f) f (phaseGate true f) (runPhase true f) s
/-- CTXLOAD (08 R169, R170). -/
def execCtxload (f : Fields) (s : State) : Host.Outcome State Fault Refusal :=
  issue (.ctxload f) f (phaseGate false f) (runPhase false f) s

/-! ## System registers (07 R160, R161; 08 R171, R172) -/

/-- The index of a system register, IMM[11:0]. -/
def sysIdx (f : Fields) : Nat := f.immBits 11 0

/-- Whether an index is assigned (07 R160). -/
def sysAssigned (n : Nat) : Bool := n ≤ 6 || n = 8 || (0x10 ≤ n && n ≤ 0x1A) || (0x20 ≤ n && n ≤ 0x23)

/-- Whether a register is of access RW. -/
def sysWritable (n : Nat) : Bool := [0, 1, 3, 4, 5, 6, 8, 0x11, 0x12, 0x13, 0x14].contains n || (0x20 ≤ n && n ≤ 0x23)

/-- TQST (07 R161). -/
def tqst (x : Warp) : W64 :=
  BitVec.ofNat 64 ((x.trapq.head?.map TrapRec.code).getD 0 * 256 + x.handler.toNat * 16 + x.trapq.length)

/-- What RDSR reads (08 R171): a context-scope register as the warp sees it (07 R160, 08 R172). -/
def sysRead (s : State) (c : Iss) (w n : Nat) : W64 :=
  let x := s.warp c.coh w
  match n with
  | 0 => x.tvec
  | 1 => x.trpc
  | 2 => tqst x
  | 8 => x.fpflags.setWidth 64
  | 0x10 => (s.coh c.coh).codebase
  | _ =>
    if n ≤ 6 then x.tsch.getD 0 (n - 3) else s.seenReg c.coh w n

/-- RDSR and WRSR of FPFLAGS wait for the warps' outstanding long instructions (08 R172). -/
def flagsReady (f : Fields) (c : Iss) (s : State) : Bool :=
  sysIdx f ≠ 8 || !(c.warpsOn f s).any fun w => (s.opsOf c.coh w).any fun e => e.2.long

/-- The checks that the index alone decides, for a warp that executes the instruction (08 R171; 02 R29, log 70): DETAIL 1, and
for WRSR DETAIL 2. -/
def sysIdxCheck (write : Bool) (f : Fields) (c : Iss) (s : State) : Gate :=
  let n := sysIdx f
  if (c.warpsOn f s).isEmpty then .pass s
  else if !sysAssigned n then .trap { code := 2, detail := 1 }
  else if write && !sysWritable n then .trap { code := 2, detail := 2 }
  else .pass s

/-- RDSR (08 R171). -/
def execRdsr (f : Fields) (s : State) : Host.Outcome State Fault Refusal :=
  issue (.rdsr f) f
    (fun c s => (sysIdxCheck false f c s).andThen fun s => if flagsReady f c s then .pass s else .hold s)
    (fun c s =>
      leaveNext c f.bnd (if f.dst.kind = .vec then
          perThread c f s (fun w l => State.writeV c.coh w f.dst.idx.toNat l ((sysRead s c w (sysIdx f)).setWidth 32)) s
        else perWarp c f s (fun w => State.writeS c.coh w f.dst.idx.toNat (sysRead s c w (sysIdx f))) s)) s

/-- The value breaks a field the register marks zero (08 R171, DETAIL 4). -/
def sysBadValue (n : Nat) (v : W64) : Bool :=
  if n = 0 then v.toNat / 2 ^ 32 ≠ 0
  else if n = 0x12 then v.toNat / 2 ^ 8 ≠ 0
  else if n = 8 then v.toNat / 2 ^ 5 ≠ 0
  else if 0x20 ≤ n then bits v.toNat 62 32 ≠ 0
  else false

/-- The check of a warp's WRSR after the index (08 R171). Where two causes apply the spec gives no order, and the lower DETAIL is
reported: 2 for a WRSR to TQST whose value is also one that row 4 names (DESIGN CHOICE, log 90). -/
def wrsrCheck (f : Fields) (c : Iss) (w : Nat) (s : State) : Gate :=
  let n := sysIdx f
  let bad := fun (d : Nat) => Gate.trap { code := 2, detail := d }
  if n = 1 && !(s.warp c.coh w).handler then bad 3
  else if sysBadValue n (s.srcS c.coh w f.sa) then bad 4
  else .pass s

/-- Write a system register: its warp's, or its context's, which the writing warp reads at once (08 R172) and which has
effect from each warp's next run (07 R160). -/
def sysWrite (c : Iss) (w n : Nat) (v : W64) (s : State) : State :=
  let ctx := (s.coh c.coh).ctx
  let toCtx (g : Context → Context) : State :=
    (s.modCtx ctx g).modWarp c.coh w fun x => { x with seen := x.seen.map fun m => FMap.put n v m }
  match n with
  | 0 => s.modWarp c.coh w fun x => { x with tvec := v }
  | 1 => s.modWarp c.coh w fun x => { x with trpc := v, trpcSet := true }
  | 8 => s.modWarp c.coh w fun x => { x with fpflags := v.setWidth 5 }
  | 0x11 => toCtx fun x => { x with hanglim := v }
  | 0x12 => toCtx fun x => { x with binage := v }
  | 0x13 => toCtx fun x => { x with lspan := v }
  | 0x14 => toCtx fun x => { x with pfall := v }
  | _ =>
    if n ≤ 6 then s.modWarp c.coh w fun x => { x with tsch := x.tsch.set 0 (n - 3) v }
    else toCtx fun x => { x with bkpt := x.bkpt.set 0 (n - 0x20) v }

/-- WRSR (08 R171, R172). -/
def execWrsr (f : Fields) (s : State) : Host.Outcome State Fault Refusal :=
  issue (.wrsr f) f
    (fun c s => ((sysIdxCheck true f c s).andThen (gateAll (c.warpsOn f s) (wrsrCheck f c))).andThen fun s =>
      if flagsReady f c s then .pass s else .hold s)
    (fun c s => leaveNext c f.bnd
      (perWarp c f s (fun w => sysWrite c w (sysIdx f) (s.srcS c.coh w f.sa)) s)) s

/-! ## Discovery, counters and energy -/

/-- Capability identifiers of a function's list (01 R24). -/
def capIds (s : State) (fn : Nat) : List Nat := (upto 9).filter fun n => n = 0 || s.hasCap fn n

/-- The 16-byte header of a capability entry (01 R20). -/
def capHeader (id len next : Nat) : List Byte :=
  leBytes 2 id ++ leBytes 2 0x0100 ++ leBytes 4 next ++ leBytes 4 len ++ leBytes 4 0

/-- The 32 bytes of fields of the device entry (01 R23). -/
def deviceFields : List Byte :=
  leBytes 1 2 ++ leBytes 1 4 ++ leBytes 2 192 ++ leBytes 2 64 ++ leBytes 2 0 ++ leBytes 8 (2 ^ 39) ++
    leBytes 4 1700000 ++ leBytes 4 2600 ++ leBytes 4 1000000 ++ leBytes 4 0

/-- The capability list of a function (01 R19 to R24): the device entry, then the granted entries. R21 fixes no order for
those and tells software not to depend on one: that they stand at 48 + 16i in rising order of identifier, with nothing
between, is the model's choice (DESIGN CHOICE, log 65). -/
def capList (s : State) (fn : Nat) : List Byte :=
  let others := (capIds s fn).drop 1
  let n := others.length
  capHeader 0 32 (if n = 0 then 0 else 48) ++ deviceFields ++
    others.zipIdx.flatMap fun e => capHeader e.1 0 (if e.2 + 1 = n then 0 else 48 + 16 * (e.2 + 1))

/-- The check of a warp's CAPRD offset (08 R173). One that is both misaligned and at or above 65,536 has DETAIL 1, the lower
code: the spec gives no order (DESIGN CHOICE, log 81). -/
def caprdCheck (f : Fields) (c : Iss) (w : Nat) (s : State) : Gate :=
  let a := (s.srcS c.coh w f.sa).toNat
  if a % 8 ≠ 0 then .trap { code := 2, detail := 1 }
  else if 65536 ≤ a then .trap { code := 2, detail := 2 }
  else .pass s
/-- CAPRD (08 R173). -/
def execCaprd (f : Fields) (s : State) : Host.Outcome State Fault Refusal :=
  issueLongS (.caprd f) f (fun c s => gateAll (c.warpsOn f s) (caprdCheck f c) s)
    (fun s k w => BitVec.ofNat 64 (fieldN (capList s (fnOf (s.coh k).ctx)) (s.srcS k w f.sa).toNat 8)) s

/-- RDCYC (08 R174). -/
def execRdcyc (f : Fields) (s : State) : Host.Outcome State Fault Refusal :=
  issueFixed (.rdcyc f) f (fun c s =>
    let v : W64 := BitVec.ofNat 64 (s.core c.core).cycle
    if f.dst.kind = .vec then
      perThread c f s (fun w l => State.writeV c.coh w f.dst.idx.toNat l (v.setWidth 32)) s
    else perWarp c f s (fun w => State.writeS c.coh w f.dst.idx.toNat v) s) s

/-- EBUD (08 R175). -/
def execEbud (f : Fields) (s : State) : Host.Outcome State Fault Refusal :=
  issueLongS (.ebud f) f noCheck (fun s k _ => BitVec.ofNat 64 (s.ctx (s.coh k).ctx).allow) s

/-- A cohort asks for a reservation: the earlier one is returned first (08 R176). The state, and whether it is
granted. -/
def reserve (coh amount : Nat) (s : State) : State × Bool :=
  let h := s.coh coh
  let s := (s.modCtx h.ctx fun x => { x with allow := x.allow + h.resv }).modCoh coh fun h => { h with resv := 0 }
  if amount ≤ (s.ctx h.ctx).allow then
    ((s.modCtx h.ctx fun x => { x with allow := x.allow - amount }).modCoh coh fun h => { h with resv := amount }, true)
  else (s, false)

/-- ERESV (08 R176). -/
def execEresv (f : Fields) (s : State) : Host.Outcome State Fault Refusal :=
  issue (.eresv f) f
    (fun c s => if (c.warpsOn f s).any fun w => 2 ^ 40 < (s.srcS c.coh w f.sa).toNat
      then .trap { code := 2, detail := 1 } else .pass s)
    (fun c s => leaveNext c f.bnd (forEach (c.warpsOn f s) (fun w t =>
      let (t, ok) := reserve c.coh (s.srcS c.coh w f.sa).toNat t
      addCalc (.eresv f) f c w (c.lanesOn f s w) [.s f.dst.idx.toNat (if ok then 1 else 0)] 0 t) s)) s

/-! ## Hypervisor calls -/

/-- HCALL (08 R177): at once for the physical function; otherwise a call is to be posted and the warp waits. -/
def execHcall (f : Fields) (s : State) : Host.Outcome State Fault Refusal :=
  issue (.hcall f) f noCheck (fun c s =>
    let ws := c.warpsOn f s
    let fn := fnOf (s.coh c.coh).ctx
    if fn = 0 then
      leaveNext c true (forEach ws (fun w => State.writeS c.coh w f.dst.idx.toNat 0xFFFFFFFFFFFFFFFF) s)
    else
      let ids := (upto ws.length).map fun i => s.nextOp + i
      leaveBlocked c ids false (forEach ws (fun w t => t.addOp
        { kind := .hcall fn (f.immBits 15 0) f.dst.idx.toNat ((s.warp c.coh w).readS f.sa.idx.toNat) false
          coh := c.coh, warp := w, core := c.core, pc := c.pc, ths := c.ths, busy := false
          dests := destsOf (usesOf f.dst 1) 0 }) s)) s

end Sys2Proof.Machine
end

