-- ==== Sys2Proof/Machine/Dispatch.lean ====
section
/-! DEFINITION. One arm per constructor of Instr: the meaning it calls. -/

namespace Sys2Proof.Machine

/-- The meaning of every instruction and of every event of the device. -/
def exec (i : Instr) (s : State) : Host.Outcome State Fault Refusal :=
  match i with
  | .nop f => Sys2Proof.Machine.execNop f s
  | .bra f => Sys2Proof.Machine.execBra f s
  | .brx f => Sys2Proof.Machine.execBrx f s
  | .call f => Sys2Proof.Machine.execCall f s
  | .callx f => Sys2Proof.Machine.execCallx f s
  | .ret f => Sys2Proof.Machine.execRet f s
  | .vbra f => Sys2Proof.Machine.execVbra f s
  | .reform f => Sys2Proof.Machine.execReform f s
  | .wconv f => Sys2Proof.Machine.execWconv f s
  | .exit f => Sys2Proof.Machine.execExit f s
  | .yield f => Sys2Proof.Machine.execYield f s
  | .loopd f => Sys2Proof.Machine.execLoopd f s
  | .sadd f => Sys2Proof.Machine.execSadd f s
  | .ssub f => Sys2Proof.Machine.execSsub f s
  | .smul f => Sys2Proof.Machine.execSmul f s
  | .smulh f => Sys2Proof.Machine.execSmulh f s
  | .sdiv f => Sys2Proof.Machine.execSdiv f s
  | .srem f => Sys2Proof.Machine.execSrem f s
  | .sand f => Sys2Proof.Machine.execSand f s
  | .sor f => Sys2Proof.Machine.execSor f s
  | .sxor f => Sys2Proof.Machine.execSxor f s
  | .sshl f => Sys2Proof.Machine.execSshl f s
  | .sshr f => Sys2Proof.Machine.execSshr f s
  | .smin f => Sys2Proof.Machine.execSmin f s
  | .smax f => Sys2Proof.Machine.execSmax f s
  | .scmp f => Sys2Proof.Machine.execScmp f s
  | .ssel f => Sys2Proof.Machine.execSsel f s
  | .smov f => Sys2Proof.Machine.execSmov f s
  | .smovi f => Sys2Proof.Machine.execSmovi f s
  | .sclz f => Sys2Proof.Machine.execSclz f s
  | .spopc f => Sys2Proof.Machine.execSpopc f s
  | .saddr f => Sys2Proof.Machine.execSaddr f s
  | .iadd f => Sys2Proof.Machine.execIadd f s
  | .isub f => Sys2Proof.Machine.execIsub f s
  | .imul f => Sys2Proof.Machine.execImul f s
  | .imad f => Sys2Proof.Machine.execImad f s
  | .idiv f => Sys2Proof.Machine.execIdiv f s
  | .irem f => Sys2Proof.Machine.execIrem f s
  | .imin f => Sys2Proof.Machine.execImin f s
  | .imax f => Sys2Proof.Machine.execImax f s
  | .iabs f => Sys2Proof.Machine.execIabs f s
  | .ineg f => Sys2Proof.Machine.execIneg f s
  | .iand f => Sys2Proof.Machine.execIand f s
  | .ior f => Sys2Proof.Machine.execIor f s
  | .ixor f => Sys2Proof.Machine.execIxor f s
  | .inot f => Sys2Proof.Machine.execInot f s
  | .ishl f => Sys2Proof.Machine.execIshl f s
  | .ishr f => Sys2Proof.Machine.execIshr f s
  | .irot f => Sys2Proof.Machine.execIrot f s
  | .icmp f => Sys2Proof.Machine.execIcmp f s
  | .isel f => Sys2Proof.Machine.execIsel f s
  | .ipopc f => Sys2Proof.Machine.execIpopc f s
  | .iclz f => Sys2Proof.Machine.execIclz f s
  | .ibfx f => Sys2Proof.Machine.execIbfx f s
  | .ibfi f => Sys2Proof.Machine.execIbfi f s
  | .iaddc f => Sys2Proof.Machine.execIaddc f s
  | .idot4 f => Sys2Proof.Machine.execIdot4 f s
  | .lea f => Sys2Proof.Machine.execLea f s
  | .fadd f => Sys2Proof.Machine.execFadd f s
  | .fsub f => Sys2Proof.Machine.execFsub f s
  | .fmul f => Sys2Proof.Machine.execFmul f s
  | .ffma f => Sys2Proof.Machine.execFfma f s
  | .fmin f => Sys2Proof.Machine.execFmin f s
  | .fmax f => Sys2Proof.Machine.execFmax f s
  | .fcmp f => Sys2Proof.Machine.execFcmp f s
  | .frcp f => Sys2Proof.Machine.execFrcp f s
  | .frsq f => Sys2Proof.Machine.execFrsq f s
  | .fsqrt f => Sys2Proof.Machine.execFsqrt f s
  | .fdiv f => Sys2Proof.Machine.execFdiv f s
  | .fexp2 f => Sys2Proof.Machine.execFexp2 f s
  | .flog2 f => Sys2Proof.Machine.execFlog2 f s
  | .fsin f => Sys2Proof.Machine.execFsin f s
  | .fcos f => Sys2Proof.Machine.execFcos f s
  | .ffrc f => Sys2Proof.Machine.execFfrc f s
  | .frint f => Sys2Proof.Machine.execFrint f s
  | .fclass f => Sys2Proof.Machine.execFclass f s
  | .fldexp f => Sys2Proof.Machine.execFldexp f s
  | .hfma2 f => Sys2Proof.Machine.execHfma2 f s
  | .hadd2 f => Sys2Proof.Machine.execHadd2 f s
  | .hmul2 f => Sys2Proof.Machine.execHmul2 f s
  | .cvt f => Sys2Proof.Machine.execCvt f s
  | .cvtfi f => Sys2Proof.Machine.execCvtfi f s
  | .cvtif f => Sys2Proof.Machine.execCvtif f s
  | .cvtn f => Sys2Proof.Machine.execCvtn f s
  | .cvtw f => Sys2Proof.Machine.execCvtw f s
  | .prmb f => Sys2Proof.Machine.execPrmb f s
  | .sclx f => Sys2Proof.Machine.execSclx f s
  | .mov f => Sys2Proof.Machine.execMov f s
  | .movi f => Sys2Proof.Machine.execMovi f s
  | .movs f => Sys2Proof.Machine.execMovs f s
  | .rdl f => Sys2Proof.Machine.execRdl f s
  | .shfl f => Sys2Proof.Machine.execShfl f s
  | .vote f => Sys2Proof.Machine.execVote f s
  | .plop f => Sys2Proof.Machine.execPlop f s
  | .p2v f => Sys2Proof.Machine.execP2v f s
  | .v2p f => Sys2Proof.Machine.execV2p f s
  | .rdsp f => Sys2Proof.Machine.execRdsp f s
  | .matchv f => Sys2Proof.Machine.execMatchv f s
  | .ld f => Sys2Proof.Machine.execLd f s
  | .st f => Sys2Proof.Machine.execSt f s
  | .sld f => Sys2Proof.Machine.execSld f s
  | .sst f => Sys2Proof.Machine.execSst f s
  | .lds f => Sys2Proof.Machine.execLds f s
  | .sts f => Sys2Proof.Machine.execSts f s
  | .ldk f => Sys2Proof.Machine.execLdk f s
  | .pref f => Sys2Proof.Machine.execPref f s
  | .evict f => Sys2Proof.Machine.execEvict f s
  | .acopy f => Sys2Proof.Machine.execAcopy f s
  | .agath f => Sys2Proof.Machine.execAgath f s
  | .ascat f => Sys2Proof.Machine.execAscat f s
  | .ablkg f => Sys2Proof.Machine.execAblkg f s
  | .ablks f => Sys2Proof.Machine.execAblks f s
  | .axpose f => Sys2Proof.Machine.execAxpose f s
  | .subs f => Sys2Proof.Machine.execSubs f s
  | .slotw f => Sys2Proof.Machine.execSlotw f s
  | .slotf f => Sys2Proof.Machine.execSlotf f s
  | .ftest f => Sys2Proof.Machine.execFtest f s
  | .fcancel f => Sys2Proof.Machine.execFcancel f s
  | .fwait f => Sys2Proof.Machine.execFwait f s
  | .rfence f => Sys2Proof.Machine.execRfence f s
  | .atom f => Sys2Proof.Machine.execAtom f s
  | .atoms f => Sys2Proof.Machine.execAtoms f s
  | .satom f => Sys2Proof.Machine.execSatom f s
  | .redc f => Sys2Proof.Machine.execRedc f s
  | .fence f => Sys2Proof.Machine.execFence f s
  | .bar f => Sys2Proof.Machine.execBar f s
  | .barArv f => Sys2Proof.Machine.execBarArv f s
  | .barWt f => Sys2Proof.Machine.execBarWt f s
  | .waitc f => Sys2Proof.Machine.execWaitc f s
  | .succok f => Sys2Proof.Machine.execSuccok f s
  | .waitpred f => Sys2Proof.Machine.execWaitpred f s
  | .mbxput f => Sys2Proof.Machine.execMbxput f s
  | .mbxget f => Sys2Proof.Machine.execMbxget f s
  | .mmcfg f => Sys2Proof.Machine.execMmcfg f s
  | .mmcfgRel f => Sys2Proof.Machine.execMmcfgRel f s
  | .mmzero f => Sys2Proof.Machine.execMmzero f s
  | .mmready f => Sys2Proof.Machine.execMmready f s
  | .mmloop f => Sys2Proof.Machine.execMmloop f s
  | .mmscale f => Sys2Proof.Machine.execMmscale f s
  | .mmdrain f => Sys2Proof.Machine.execMmdrain f s
  | .mmstore f => Sys2Proof.Machine.execMmstore f s
  | .mmload f => Sys2Proof.Machine.execMmload f s
  | .mmwait f => Sys2Proof.Machine.execMmwait f s
  | .mmstat f => Sys2Proof.Machine.execMmstat f s
  | .wspawn f => Sys2Proof.Machine.execWspawn f s
  | .wkill f => Sys2Proof.Machine.execWkill f s
  | .waddc f => Sys2Proof.Machine.execWaddc f s
  | .wremc f => Sys2Proof.Machine.execWremc f s
  | .wsync f => Sys2Proof.Machine.execWsync f s
  | .wqry f => Sys2Proof.Machine.execWqry f s
  | .wnext f => Sys2Proof.Machine.execWnext f s
  | .wclose f => Sys2Proof.Machine.execWclose f s
  | .wres f => Sys2Proof.Machine.execWres f s
  | .wcol f => Sys2Proof.Machine.execWcol f s
  | .tspawn f => Sys2Proof.Machine.execTspawn f s
  | .wdnext f => Sys2Proof.Machine.execWdnext f s
  | .resq f => Sys2Proof.Machine.execResq f s
  | .respin f => Sys2Proof.Machine.execRespin f s
  | .asdecl f => Sys2Proof.Machine.execAsdecl f s
  | .asseal f => Sys2Proof.Machine.execAsseal f s
  | .asstat f => Sys2Proof.Machine.execAsstat f s
  | .reggrow f => Sys2Proof.Machine.execReggrow f s
  | .regshr f => Sys2Proof.Machine.execRegshr f s
  | .prio f => Sys2Proof.Machine.execPrio f s
  | .launch f => Sys2Proof.Machine.execLaunch f s
  | .texs f => Sys2Proof.Machine.execTexs f s
  | .texl f => Sys2Proof.Machine.execTexl f s
  | .texg f => Sys2Proof.Machine.execTexg f s
  | .texq f => Sys2Proof.Machine.execTexq f s
  | .twfence f => Sys2Proof.Machine.execTwfence f s
  | .rayq f => Sys2Proof.Machine.execRayq f s
  | .texd f => Sys2Proof.Machine.execTexd f s
  | .trap f => Sys2Proof.Machine.execTrap f s
  | .tret f => Sys2Proof.Machine.execTret f s
  | .rdtrap f => Sys2Proof.Machine.execRdtrap f s
  | .preempt f => Sys2Proof.Machine.execPreempt f s
  | .ctxsave f => Sys2Proof.Machine.execCtxsave f s
  | .ctxload f => Sys2Proof.Machine.execCtxload f s
  | .rdsr f => Sys2Proof.Machine.execRdsr f s
  | .wrsr f => Sys2Proof.Machine.execWrsr f s
  | .caprd f => Sys2Proof.Machine.execCaprd f s
  | .rdcyc f => Sys2Proof.Machine.execRdcyc f s
  | .ebud f => Sys2Proof.Machine.execEbud f s
  | .eresv f => Sys2Proof.Machine.execEresv f s
  | .hcall f => Sys2Proof.Machine.execHcall f s
  | .arbitrationRound core slot => Sys2Proof.Machine.execArbitrationRound core slot s
  | .runForcedBoundary core slot => Sys2Proof.Machine.execRunForcedBoundary core slot s
  | .binAgeExpiry core bin => Sys2Proof.Machine.execBinAgeExpiry core bin s
  | .yieldBackoffExpiry core entry => Sys2Proof.Machine.execYieldBackoffExpiry core entry s
  | .hangTrap core entry => Sys2Proof.Machine.execHangTrap core entry s
  | .reggrowGrant core => Sys2Proof.Machine.execReggrowGrant core s
  | .reggrowFailure core => Sys2Proof.Machine.execReggrowFailure core s
  | .breakpoint core slot => Sys2Proof.Machine.execBreakpoint core slot s
  | .trapDelivery cohort warp => Sys2Proof.Machine.execTrapDelivery cohort warp s
  | .longInstructionCompletion op => Sys2Proof.Machine.execLongInstructionCompletion op s
  | .cohortSave cohort => Sys2Proof.Machine.execCohortSave cohort s
  | .pfallExpiry cohort => Sys2Proof.Machine.execPfallExpiry cohort s
  | .cohortResume cohort core => Sys2Proof.Machine.execCohortResume cohort core s
  | .warpRetirement cohort warp => Sys2Proof.Machine.execWarpRetirement cohort warp s
  | .cohortRetirement cohort => Sys2Proof.Machine.execCohortRetirement cohort s
  | .launchAcceptance ctx mailbox => Sys2Proof.Machine.execLaunchAcceptance ctx mailbox s
  | .dispatchDecision => Sys2Proof.Machine.execDispatchDecision s
  | .recordArrival op => Sys2Proof.Machine.execRecordArrival op s
  | .binTimerExpiry launch node => Sys2Proof.Machine.execBinTimerExpiry launch node s
  | .residencyReport core => Sys2Proof.Machine.execResidencyReport core s
  | .undoRestore cohort => Sys2Proof.Machine.execUndoRestore cohort s
  | .setHandoff ctx decl => Sys2Proof.Machine.execSetHandoff ctx decl s
  | .sealRecord cohort => Sys2Proof.Machine.execSealRecord cohort s
  | .homeLoadRequest op part => Sys2Proof.Machine.execHomeLoadRequest op part s
  | .storePerform op part => Sys2Proof.Machine.execStorePerform op part s
  | .atomicPerform op part => Sys2Proof.Machine.execAtomicPerform op part s
  | .waitcPoll op => Sys2Proof.Machine.execWaitcPoll op s
  | .l2Eviction line => Sys2Proof.Machine.execL2Eviction line s
  | .remoteDataCacheFill op part => Sys2Proof.Machine.execRemoteDataCacheFill op part s
  | .redcContribution op part => Sys2Proof.Machine.execRedcContribution op part s
  | .mailboxReserve op => Sys2Proof.Machine.execMailboxReserve op s
  | .mailboxTailAdvance op => Sys2Proof.Machine.execMailboxTailAdvance op s
  | .mailboxHeadRelease op => Sys2Proof.Machine.execMailboxHeadRelease op s
  | .streamFillStart cohort stream => Sys2Proof.Machine.execStreamFillStart cohort stream s
  | .streamFillComplete cohort stream slot => Sys2Proof.Machine.execStreamFillComplete cohort stream slot s
  | .streamStoreStart cohort stream slot => Sys2Proof.Machine.execStreamStoreStart cohort stream slot s
  | .streamStoreComplete cohort stream slot => Sys2Proof.Machine.execStreamStoreComplete cohort stream slot s
  | .engineCommandCompletion op => Sys2Proof.Machine.execEngineCommandCompletion op s
  | .matrixCommandStart core => Sys2Proof.Machine.execMatrixCommandStart core s
  | .matrixCommandCompletion core => Sys2Proof.Machine.execMatrixCommandCompletion core s
  | .matrixOwnershipGrant core => Sys2Proof.Machine.execMatrixOwnershipGrant core s
  | .syncStart ctx world => Sys2Proof.Machine.execSyncStart ctx world s
  | .syncStallRelease ctx world => Sys2Proof.Machine.execSyncStallRelease ctx world s
  | .worldRegistration ctx world addr => Sys2Proof.Machine.execWorldRegistration ctx world addr s
  | .worldDeregistration ctx world => Sys2Proof.Machine.execWorldDeregistration ctx world s
  | .deregistrationEffect ctx world => Sys2Proof.Machine.execDeregistrationEffect ctx world s
  | .savePhaseCompletion ctx => Sys2Proof.Machine.execSavePhaseCompletion ctx s
  | .loadPhaseCompletion ctx => Sys2Proof.Machine.execLoadPhaseCompletion ctx s
  | .ctxctlCreate ctx => Sys2Proof.Machine.execCtxctlCreate ctx s
  | .ctxctlReset ctx => Sys2Proof.Machine.execCtxctlReset ctx s
  | .ctxctlPreempt ctx => Sys2Proof.Machine.execCtxctlPreempt ctx s
  | .egrant ctx amount => Sys2Proof.Machine.execEgrant ctx amount s
  | .energyDebit cohort amount => Sys2Proof.Machine.execEnergyDebit cohort amount s
  | .tlbinvPage fn ctx page => Sys2Proof.Machine.execTlbinvPage fn ctx page s
  | .tlbinvContext fn ctx => Sys2Proof.Machine.execTlbinvContext fn ctx s
  | .tlbinvFunction fn => Sys2Proof.Machine.execTlbinvFunction fn s
  | .tlbinvComplete fn => Sys2Proof.Machine.execTlbinvComplete fn s
  | .vfprePreempt vf => Sys2Proof.Machine.execVfprePreempt vf s
  | .vfpreResume vf => Sys2Proof.Machine.execVfpreResume vf s
  | .intstatClear fn mask => Sys2Proof.Machine.execIntstatClear fn mask s
  | .hcallPost op => Sys2Proof.Machine.execHcallPost op s
  | .hcallReply tag value => Sys2Proof.Machine.execHcallReply tag value s
  | .registerWrite fn off value => Sys2Proof.Machine.execRegisterWrite fn off value s
  | .hostWrite fn off data => Sys2Proof.Machine.execHostWrite fn off data s
  | .hostRead fn off len => Sys2Proof.Machine.execHostRead fn off len s
  | .atsInvalidation pasid addr => Sys2Proof.Machine.execAtsInvalidation pasid addr s
  | .getVersion => Sys2Proof.Machine.execGetVersion s
  | .getCapabilities => Sys2Proof.Machine.execGetCapabilities s
  | .negotiateAlgorithms => Sys2Proof.Machine.execNegotiateAlgorithms s
  | .getDigests => Sys2Proof.Machine.execGetDigests s
  | .getCertificate slot => Sys2Proof.Machine.execGetCertificate slot s
  | .challenge nonce => Sys2Proof.Machine.execChallenge nonce s
  | .getMeasurements index => Sys2Proof.Machine.execGetMeasurements index s
  | .firmwareImageAccept controller image signature => Sys2Proof.Machine.execFirmwareImageAccept controller image signature s
  | .firmwareActivation controller => Sys2Proof.Machine.execFirmwareActivation controller s
  | .laneRecalibration port lane => Sys2Proof.Machine.execLaneRecalibration port lane s
  | .pseudoChannelRetirement stack channel => Sys2Proof.Machine.execPseudoChannelRetirement stack channel s
  | .rowSparing stack row => Sys2Proof.Machine.execRowSparing stack row s
  | .coreDrain core => Sys2Proof.Machine.execCoreDrain core s
  | .spareSubstitution core => Sys2Proof.Machine.execSpareSubstitution core s
  | .moduleRemoval peer => Sys2Proof.Machine.execModuleRemoval peer s
  | .moduleReplacement peer => Sys2Proof.Machine.execModuleReplacement peer s
  | .routeChange port => Sys2Proof.Machine.execRouteChange port s
  | .fabricTimeout op part cause => Sys2Proof.Machine.execFabricTimeout op part cause s
  | .moduleReset => Sys2Proof.Machine.execModuleReset s
  | .fetchFault core slot => Sys2Proof.Machine.execFetchFault core slot s
  | .unassignedOpcode core slot => Sys2Proof.Machine.execUnassignedOpcode core slot s
  | .nodeRegistration ctx addr => Sys2Proof.Machine.execNodeRegistration ctx addr s
  | .softErrorMark target => Sys2Proof.Machine.execSoftErrorMark target s
  | .moduleNumberAssignment number => Sys2Proof.Machine.execModuleNumberAssignment number s
  | .functionReset fn withheld => Sys2Proof.Machine.execFunctionReset fn withheld s

end Sys2Proof.Machine
end

