-- ==== Sys2Proof/Machine/HostAccess.lean ====
section
/-! DEFINITION. What the host reads through BAR0, its AtomicOps through BAR2, and its configuration of a function (01 R19; 31
R509 to R515). -/

namespace Sys2Proof.Machine

/-! ## Reads of BAR0 (31 R510 to R512, R515) -/

/-- CTXSTATE (31 R512). -/
def CtxSt.code : CtxSt → Nat
  | .free => 0
  | .active => 1
  | .saving => 2
  | .saved => 3
  | .loading => 4
  | .faulted => 5

/-- VFPRE as it reads, with BUSY (31 R511). -/
def vfpreRead (s : State) : Nat :=
  let v := (s.fn 0).vfpre.toNat
  v + 512 * (vfBusy s (v % 64)).toNat

/-- A function register; none where the register is only written, and what a read gives is left open (log 68). A register of
the physical function reads zero in a virtual one. -/
def readFn (s : State) (fn off : Nat) : Option Nat :=
  let f := s.fn fn
  match off with
  | 0x000 => some fn
  | 0x008 => some s.modnum.toNat
  | 0x010 => some f.intstat.toNat
  | 0x018 => none
  | 0x020 => some f.tlbBusy.toNat
  | 0x028 => some f.bar2base.toNat
  | 0x030 => some (if fn = 0 then vfpreRead s else 0)
  | 0x038 => some (if fn = 0 then f.vfsave.toNat else 0)
  | 0x040 => some f.atsen.toNat
  | _ => some 0

/-- A register of a context window; none where it is only written. -/
def readWindow (s : State) (ctx off : Nat) : Option Nat :=
  let x := s.ctx ctx
  match off with
  | 0x000 | 0x048 => none
  | 0x008 => some x.st.code
  | 0x010 => some x.ecfg.toNat
  | 0x018 => some x.priv.toNat
  | 0x020 => some x.csave.toNat
  | 0x028 => some x.csaven.toNat
  | 0x030 => some x.ptbase.toNat
  | 0x040 => some x.allow
  | 0x050 => some x.edebt
  | 0x060 => some x.starve
  | 0x068 => some x.ovfbase.toNat
  | 0x070 => some x.ovfsize.toNat
  | _ => some (
    if 0x080 ≤ off && off < 0x0A0 then x.faultrec / 256 ^ (off - 0x080)
    else if 0x100 ≤ off && off < 0x500 then
      let m := (off - 0x100) / 16
      if off % 16 = 0 then (FMap.getD 0 x.hdr m).toNat else (FMap.getD 0 x.discard m).toNat
    else if 0x800 ≤ off then ((s.worlds.find (256 * ctx + (off - 0x800) / 8)).map fun w => w.geo.desc).getD 0
    else 0)

/-- A register of the hypervisor call queue; what TAG's place reads is left open (log 68). -/
def readQueue (s : State) (off : Nat) : Option Nat :=
  match off with
  | 0x00 => some s.hqBase.toNat
  | 0x08 => some s.hqLog2.toNat
  | 0x10 => some s.hqTail.toNat
  | 0x18 => some s.hqHead.toNat
  | 0x20 => none
  | 0x28 => some s.hqReply.toNat
  | _ => some 0

/-- What an aligned 64-bit read of BAR0 gives: a register, the capability list (01 R19), or zero at a reserved offset. -/
def readBar0 (s : State) (fn off : Nat) : Option Nat :=
  if off < 0x1000 then readFn s fn off
  else if 0x10000 ≤ off && off < 0x20000 then readWindow s (16 * fn + (off - 0x10000) / 0x1000) (off % 0x1000)
  else if 0x20000 ≤ off && off < 0x20100 && fn = 0 then readQueue s (off - 0x20000)
  else if 0xF00000 ≤ off then some (fieldN (capList s fn) (off - 0xF00000) 8)
  else some 0

/-- The host reads BAR0: a register whole at an aligned offset; any other read completes with zero data. -/
def hostReadReg (fn off len : Nat) (s : State) : State :=
  if 64 ≤ fn || 2 ^ 24 < off + len then s
  else if off % 8 ≠ 0 || len ≠ 8 then { s with hostRead := List.replicate len 0 }
  else match readBar0 s fn off with
    | some v => { s with hostRead := leBytes 8 v }
    | none => { s with hostRead := leBytes 8 (Config.freeValue s.free), free := s.free + 1 }

/-! ## AtomicOps through BAR2 (31 R509, R513) -/

/-- The operation of a host AtomicOp, as 17 R333 numbers it. -/
def HostAtomic.op : HostAtomic → Nat
  | .fetchAdd => 0
  | .swap => 6
  | .cas => 7

/-- An AtomicOp of the host, 32 or 64 bits, naturally aligned: at the home as a host write performs (16 R321); its reply is the
old value. -/
def hostAtomicOp (fn off : Nat) (wide : Bool) (k : HostAtomic) (x cmp : Nat) (s : State) :
    Host.Outcome State Fault Refusal :=
  let n := if wide then 8 else 4
  let a := bar2Addr s fn off
  if !inBar2 s fn off n || off % n ≠ 0 then .next s
  else if Config.hbmBytes < a + n then .fault .noSuchMemory
  else
    let m := 2 ^ (8 * n)
    let old := s.num a n
    let new := atomNew k.op (if wide then 2 else 0) old (x % m) (cmp % m)
    .next { hostStore (cellsOfL a (leBytes n new)) s with hostRead := leBytes n old }

/-! ## Configuration (31 R513, R514) -/

/-- The BAR2 window of a function takes a size of 1 GiB to 64 GiB. BAR2BASE keeps its value (log 15). -/
def resizeBar2 (fn log2 : Nat) (s : State) : State :=
  if 64 ≤ fn || log2 < 30 || 36 < log2 then s else s.modFn fn fun f => { f with bar2size := 2 ^ log2 }

/-- The driver binds a PASID, of 20 bits, to a context. -/
def bindPasid (ctx pasid : Nat) (s : State) : State :=
  if 1024 ≤ ctx || 2 ^ 20 ≤ pasid then s else s.modCtx ctx fun x => { x with pasid }

/-- A request of the host that is no event of the opcode table. -/
def execHost (h : HostReq) (s : State) : Host.Outcome State Fault Refusal :=
  match h with
  | .readReg fn off len => .next (hostReadReg fn off len s)
  | .atomic fn off wide k x cmp => hostAtomicOp fn off wide k x cmp s
  | .resizeBar2 fn log2 => .next (resizeBar2 fn log2 s)
  | .bindPasid ctx pasid => .next (bindPasid ctx pasid s)

end Sys2Proof.Machine
end

