-- ==== Sys2Proof/Machine/Place.lean ====
section
/-! DEFINITION. Placing one instruction where the next step fetches (log 9). A program comes to run on the module when
the host writes memory, creates a context, puts a launch message in a mailbox, and Belfry accepts it and admits its
cohorts; this operation stands for all of that. -/

namespace Sys2Proof.Machine

/-- Page tables for context 0 at 0x1000, 0x2000 and 0x3000: virtual addresses below 2^30 map to the same module
addresses, writable and executable. -/
def placeTables (s : State) : State :=
  let s := s.setBytes (cellsOf 0x1000 8 0x2001)
  let s := s.setBytes (cellsOf 0x2000 8 0x3001)
  s.setBytes (cellsOf 0x3000 8 0xF)

/-- A cohort of one warp of 32 threads, at PC 0 of code at 0x10000. -/
def placedCohort : Cohort :=
  { tx := 32, scratchSize := 4096, codebase := 0x10000
    warps := [{ alloc := 256, threads := List.replicate 32 {} }] }

/-- Its one issue group. -/
def placedGroup (coh : Nat) : Group := { coh, pc := 0, ths := (upto 32).map fun l => (0, l) }

/-- Context 0 active with those tables; the cohort resident on core 0; its group in entry 0 and slot 0. -/
def placeCohort (s : State) : State :=
  let k := s.ageNext
  let s := placeTables { s with ageNext := k + 1, cohorts := s.cohorts.put k placedCohort }
  let s := s.modCtx 0 fun x => { x with st := .active, ptbase := 0x1000, bkpt := [] }
  let s := { s with dieTlb := [] }
  s.modCore 0 fun c => { c with
    tlb := [], entries := [(0, placedGroup k)], slots := [some 0, none, none, none] }

/-- Put an instruction word where slot 0 of core 0 fetches next, and let that slot's issue step be the next turn. A
slot whose group cannot fetch is first given the cohort above. -/
def placeWord (w : Nat) (s : State) : State :=
  let ready := { s with cur := (0, 0) }
  let s := match found ready with
    | .instr _ | .unassigned => s
    | _ => placeCohort s
  let s := match issOf s 0 0 with
    | some c =>
      match fetchKeys s 0 (s.coh c.coh).ctx ((upto instrBytes).map fun i => (fetchAddr s c.coh c.pc + i) % 2 ^ 64) with
      | .ok ks => s.setBytes (ks.zip (bytesOfNat instrBytes w))
      | .error _ => s
    | none => s
  { s with agenda := { act := .issue 0 0 } :: s.agenda }

end Sys2Proof.Machine
end

