-- ==== Sys2Proof/Machine/Schedule.lean ====
section
/-! DEFINITION. The turn the model takes when the agenda is empty (DESIGN CHOICE, log 2): the spec leaves the order of
the module's agents open, and a run whose agenda is empty needs one order. The turns that have something to work on are
listed, and the dispatcher-local clock picks one of them; a turn whose event is not enabled does nothing. -/

namespace Sys2Proof.Machine

/-- Turns of a core: issue steps, arbitration, bins, pauses, register requests, the matrix unit. -/
def coreActs (s : State) (n : Nat) (k : Core) : List Act :=
  let some_ := !k.entries.isEmpty || !k.bins.isEmpty
  (k.slots.zipIdx.flatMap fun x =>
    if x.1.isSome then [.issue n x.2] else if some_ then [.event (.arbitrationRound n x.2)] else []) ++
  (k.bins.filter fun b => !b.ripe).map (fun b => .event (.binAgeExpiry n b.num)) ++
  (k.entries.filter fun e => e.2.backoff.isSome).map (fun e => .event (.yieldBackoffExpiry n e.1)) ++
  (if s.ops.any fun e => e.2.core = n && (match e.2.kind with
      | .grow _ _ => true
      | _ => false)
    then [.event (.reggrowGrant n), .event (.reggrowFailure n)] else []) ++
  (if k.mx.queue.isEmpty then [] else
    [.event (if k.mx.started then .matrixCommandCompletion n else .matrixCommandStart n)]) ++
  (if k.mx.claims.isEmpty || k.mx.owner.isSome then [] else [.event (.matrixOwnershipGrant n)])

/-- Turns of a cohort: traps, saves, retirement, streams, seals and undo records. -/
def cohortActs (s : State) (n : Nat) (h : Cohort) : List Act :=
  match h.status with
  | .resident =>
    (h.warps.zipIdx.flatMap fun x =>
      (if !x.1.trapq.isEmpty && !x.1.handler then [.event (.trapDelivery n x.2)] else []) ++
      (if !x.1.retired && x.1.threads.all (fun t => t.st = .finished) then [.event (.warpRetirement n x.2)] else [])) ++
    (if h.warps.all fun x => x.retired then [.event (.cohortRetirement n)] else []) ++
    (if canSave s n then [.event (.cohortSave n)] else if h.preq.isSome then [.event (.pfallExpiry n)] else []) ++
    (h.streams.flatMap fun x => .event (.streamFillStart n x.1) ::
      x.2.slots.zipIdx.flatMap fun y =>
        [.event (.streamFillComplete n x.1 y.2), .event (.streamStoreStart n x.1 y.2),
         .event (.streamStoreComplete n x.1 y.2)]) ++
    (if h.sealReq.isSome then [.event (.sealRecord n)] else [])
  | .saved => (s.cores.filter fun k => canResume s n k.1).map fun k => .event (.cohortResume n k.1)
  | .wounded => [.event (.undoRestore n)]

/-- The turn of a request. -/
def partAct (id i : Nat) (o : Op) (p : Part) : Act :=
  .event (match p.act with
    | .load => if !o.sp && isRemote (dieOf o.core) p.line then .remoteDataCacheFill id i else .homeLoadRequest id i
    | .store _ => .storePerform id i
    | .atomic _ _ _ _ | .claim => .atomicPerform id i
    | .redc _ _ _ _ _ _ => .redcContribution id i)

/-- Turns of an outstanding operation. -/
def opActs (id : Nat) (o : Op) : List Act :=
  (o.parts.zipIdx.filter fun x => !x.1.done).map (fun x => partAct id x.2 o x.1) ++
  (if o.long && o.replied then [.event (.longInstructionCompletion id)] else []) ++
  (match o.kind with
    | .eng (.tspawn _ _ _ _ _ _) => [.event (.recordArrival id), .event (.engineCommandCompletion id)]
    | .eng _ => [.event (.engineCommandCompletion id)]
    | .waitc _ _ _ _ _ poll _ => if poll || o.held.isSome then [.event (.waitcPoll id)] else []
    | .mbxput _ _ _ _ _ _ => [.event (.mailboxReserve id), .event (.mailboxTailAdvance id)]
    | .mbxget _ _ _ _ _ _ _ => [.event (.mailboxHeadRelease id)]
    | .hcall _ _ _ _ false => [.event (.hcallPost id)]
    | _ => [])

/-- Turns of a context: its mailboxes, phases and sets. -/
def ctxActs (n : Nat) (x : Context) : List Act :=
  (if x.st = .active then x.hdr.map fun e => .event (.launchAcceptance n e.1) else []) ++
  (if x.st = .saving then [.event (.savePhaseCompletion n)] else []) ++
  (if x.st = .loading then [.event (.loadPhaseCompletion n)] else []) ++
  (x.decls.filter fun d => d.holder.isNone).map (fun d => .event (.setHandoff n d.num))

/-- Turns of a world. -/
def worldActs (key : Nat) (w : World) : List Act :=
  (if w.mark.isSome then [.event (.syncStallRelease (key / 256) (key % 256))]
    else if w.syncs.isEmpty then [] else [.event (.syncStart (key / 256) (key % 256))]) ++
  (if w.dereg then [.event (.deregistrationEffect (key / 256) (key % 256))] else [])

/-- Turns of Belfry, and of the functions' invalidations. -/
def belfryActs (s : State) : List Act :=
  (if s.launches.any fun e => !e.2.done then [.event .dispatchDecision] else []) ++
  s.bins.map (fun b => .event (.binTimerExpiry b.launch b.node)) ++
  (s.fns.filter fun e => e.2.tlbBusy).map (fun e => .event (.tlbinvComplete e.1))

/-- The turns that have something to work on. -/
def turnsOpen (s : State) : List Act :=
  s.cores.flatMap (fun e => coreActs s e.1 e.2) ++ s.cohorts.flatMap (fun e => cohortActs s e.1 e.2) ++
    s.ops.flatMap (fun e => opActs e.1 e.2) ++ s.ctxs.flatMap (fun e => ctxActs e.1 e.2) ++
    s.worlds.flatMap (fun e => worldActs e.1 e.2) ++ belfryActs s

/-- The turn taken when the agenda is empty: one cycle of each clock passes. -/
def autoTurn (s : State) : Turn :=
  let l := turnsOpen s
  { dcycles := 1, act := l.getD (s.dclk % max l.length 1) (.issue 0 0) }

end Sys2Proof.Machine
end

