-- ==== Sys2Proof/Machine/Step.lean ====
section
/-! DEFINITION. One step of the module: the next turn of the agenda, or the turn the model's own policy picks (log 2);
time passes; then an issue slot takes an issue step, one of the device's events happens, or the host makes a
request. -/

namespace Sys2Proof.Machine

/-- An issue step of a slot: what it finds decides what it does. -/
def issueStep (s : State) : Host.Outcome State Fault Refusal :=
  match found s with
  | .empty | .suspended => .next s
  | .due => .next (takeDue s)
  | .boundary => exec (.runForcedBoundary s.cur.1 s.cur.2) s
  | .hang => exec (.hangTrap s.cur.1 (((s.core s.cur.1).slots.getD s.cur.2 none).getD 0)) s
  | .breakpoint => exec (.breakpoint s.cur.1 s.cur.2) s
  | .fetchFault => exec (.fetchFault s.cur.1 s.cur.2) s
  | .unassigned => exec (.unassignedOpcode s.cur.1 s.cur.2) (noteFetch s)
  | .hole => .fault .noSuchMemory
  | .instr i => exec i (noteFetch s)

/-- One act. An instruction is no event of the device: it runs only when a slot issues it. -/
def act (a : Act) (s : State) : Host.Outcome State Fault Refusal :=
  match a with
  | .issue core slot => issueStep { s with cur := (core, slot) }
  | .event e => if (fieldsOf e).isSome then .next s else exec e s
  | .host h => execHost h s

/-- The step. -/
def step (s : State) : Host.Outcome State Fault Refusal :=
  match s.agenda with
  | t :: r => act t.act (passTime t { s with agenda := r })
  | [] => act (autoTurn s).act (passTime (autoTurn s) s)

/-- The state with one instruction placed where the next step fetches (log 9): context 0 active, a cohort of one warp
in slot 0 of core 0, the instruction at its PC, and the slot's issue step next on the agenda. -/
def State.withFetchWord (s : State) (nbits w : Nat) : State := placeWord (w % 2 ^ nbits) s

end Sys2Proof.Machine
end

