-- ==== Sys2Proof/Safety.lean ====
section
/-! DEFINITION. What a safe run is, and the terms claims are stated in: when an instruction issues, what its effect
leaves alone, and how its group goes on. -/

namespace Sys2Proof.Safety

open Sys2Proof.Machine

/-- The state after `n` steps, when none stops. -/
def runFor : Nat → State → Option State
  | 0, s => some s
  | n + 1, s =>
    match step s with
    | .next t => runFor n t
    | .fault _ => none
    | .refused _ => none

/-- A state from which no run stops. -/
def safe (s : State) : Prop := ∀ n, (runFor n s).isSome = true

/-! ## When an instruction issues -/

/-- The group `c` in the slot at hand issues instruction `i`, whose word has the fields `f`: every check of 02 R48
passes, no deferred fabric failure is raised (07 R127), nothing stalls it (02 R40, R41), and it reads no marked register
(02 R42). -/
structure Ready (i : Instr) (f : Fields) (c : Iss) (s : State) : Prop where
  group : curIss s = some c
  legal : illegal i f c s = none
  calm : deferred i c s = none
  free : stalled i f c s = false
  clean : marked i f c s = none

/-- A warp that is there. -/
def HasWarp (s : State) (k w : Nat) : Prop := w < (s.coh k).warps.length

/-- A thread that is there. -/
def HasThread (s : State) (k w l : Nat) : Prop := HasWarp s k w ∧ l < (s.warp k w).threads.length

/-- No thread of the group is parked: a thread stands in one place (04 R94). -/
def noneParked (c : Iss) (s : State) : Prop := ∀ x ∈ c.ths, (c.coh, x.1, x.2) ∉ (s.core c.core).parked

/-! ## What is left alone -/

/-- Memory, contexts, functions, launches and worlds: all that lies outside cores and cohorts. -/
structure SameOutside (s t : State) : Prop where
  mem : ∀ a, t.byte a = s.byte a
  ctxs : t.ctxs = s.ctxs
  fns : t.fns = s.fns
  launches : t.launches = s.launches
  worlds : t.worlds = s.worlds

/-- The registers a trap saves into and a handler works with, of every warp; every accumulator and its status. -/
structure SameSpecial (s t : State) : Prop where
  tvec : ∀ k w, (t.warp k w).tvec = (s.warp k w).tvec
  trpc : ∀ k w, (t.warp k w).trpc = (s.warp k w).trpc
  tsch : ∀ k w, (t.warp k w).tsch = (s.warp k w).tsch
  trapq : ∀ k w, (t.warp k w).trapq = (s.warp k w).trapq
  handler : ∀ k w, (t.warp k w).handler = (s.warp k w).handler
  acc : ∀ k, (t.core k).mx = (s.core k).mx

/-- Every vector register lane but those of `v` (cohort, warp, register, lane). -/
def SameV (s t : State) (v : Nat → Nat → Nat → Nat → Prop) : Prop :=
  ∀ k w r l, ¬ v k w r l → (t.warp k w).readV r l = (s.warp k w).readV r l

/-- Every scalar register but those of `v` (cohort, warp, register). -/
def SameS (s t : State) (v : Nat → Nat → Nat → Prop) : Prop :=
  ∀ k w r, ¬ v k w r → (t.warp k w).readS r = (s.warp k w).readS r

/-- Every predicate, p0 to pt, but those of `v` (cohort, warp, lane, predicate). -/
def SameP (s t : State) (v : Nat → Nat → Nat → Nat → Prop) : Prop :=
  ∀ k w l p, p < 8 → ¬ v k w l p → (t.thread k w l).readP p = (s.thread k w l).readP p

/-- The exception flags of every warp but those of `v` (cohort, warp). -/
def SameFlags (s t : State) (v : Nat → Nat → Prop) : Prop :=
  ∀ k w, ¬ v k w → (t.warp k w).fpflags = (s.warp k w).fpflags

/-- Every byte of every scratchpad. -/
def SameScratch (s t : State) : Prop := ∀ k a, (t.coh k).readSp a = (s.coh k).readSp a

/-- The frame of an instruction that writes registers alone: those of `v`, `r`, `p` and the flags of `x`. -/
structure RegFrame (s t : State) (v : Nat → Nat → Nat → Nat → Prop) (r : Nat → Nat → Nat → Prop)
    (p : Nat → Nat → Nat → Nat → Prop) (x : Nat → Nat → Prop) : Prop where
  outside : SameOutside s t
  special : SameSpecial s t
  scratch : SameScratch s t
  vregs : SameV s t v
  sregs : SameS s t r
  preds : SameP s t p
  flags : SameFlags s t x

/-- No register. -/
def none4 (_ _ _ _ : Nat) : Prop := False
def none3 (_ _ _ : Nat) : Prop := False
def none2 (_ _ : Nat) : Prop := False

/-- What the checks of an access leave when they pass (07 R124; 22 R416): no register, flag or byte changes. They may keep
translations, and they may acquire atomic sets, which raises views and names the holder. -/
structure GateFrame (s u : State) : Prop where
  regs : RegFrame s { u with ctxs := s.ctxs } none4 none3 none4 none2
  ctxs : ∀ k, { u.ctx k with decls := (s.ctx k).decls } = s.ctx k
  ops : u.ops = s.ops

/-! ## How a group goes on -/

/-- Every thread of the group is at PC + 1. -/
def Advanced (c : Iss) (s t : State) : Prop :=
  ∀ x ∈ c.ths, HasThread s c.coh x.1 x.2 → (t.thread c.coh x.1 x.2).pc = c.pc + 1

/-- Every thread of the group is at the PC `next` gives. -/
def MovedTo (c : Iss) (s t : State) (next : Nat × Nat → W32) : Prop :=
  ∀ x ∈ c.ths, HasThread s c.coh x.1 x.2 → (t.thread c.coh x.1 x.2).pc = next x

/-- The group is partitioned by the next PCs `next` gives (05 R111): the part of its first thread keeps the entry, any other
has an entry of its own or is parked; the run ends, and the slot is empty, where there is more than one part or `bnd` says
so, and goes on otherwise. -/
def Parted (c : Iss) (bnd : Bool) (t : State) (next : Nat × Nat → W32) : Prop :=
  let part := fun (x : Nat × Nat) => c.ths.filter fun y => next y = next x
  let inEntry := fun e x => ∃ g, FMap.find (t.core c.core).entries e = some g ∧ g.coh = c.coh ∧ g.pc = next x ∧ g.ths = part x
  let one := ∀ x ∈ c.ths, ∀ y ∈ c.ths, next x = next y
  (∀ x, c.ths.head? = some x → inEntry c.ent x) ∧
  (∀ x ∈ c.ths, (∃ e, inEntry e x) ∨ ∀ y ∈ part x, (c.coh, y.1, y.2) ∈ (t.core c.core).parked) ∧
  (c.ths ≠ [] → (¬ one ∨ bnd = true → (t.core c.core).slots.getD c.slot none = none) ∧
    (one → bnd = false → (t.core c.core).slots.getD c.slot none = some c.ent))

/-- The group waits at its instruction: its entry holds it with operations to wait for, and its slot is empty. -/
def Blocked (c : Iss) (t : State) : Prop :=
  (∃ g, FMap.find (t.core c.core).entries c.ent = some g ∧ g.coh = c.coh ∧ g.pc = c.pc ∧ g.ths = c.ths ∧ g.waits ≠ []) ∧
    (t.core c.core).slots.getD c.slot none = none

/-- A command that has been accepted is outstanding under a number, its warp is there, and nothing else of its cohort waits for
an operation to complete. -/
structure Running (s : State) (op : Nat) (o : Op) : Prop where
  found : FMap.find s.ops op = some o
  accepted : o.held = none
  warp : HasWarp s o.coh o.warp
  calm : ∀ e ∈ s.ops, e.2.coh = o.coh → e.2.isWait = false

/-- The future register of a command holds `v`; sz reads 0. -/
def FutureIs (o : Op) (t : State) (v : W64) : Prop :=
  ∀ reg, (o.dests.find? fun d => !d.vec).map Dest.idx = some reg → (t.warp o.coh o.warp).readS reg = if reg = 63 then 0 else v

/-! ## What a command reads and writes -/

/-- The key of an address that a command may access as it needs. -/
def keyAt (s : State) (o : Op) (va : Nat) (need : Need) : Nat :=
  match translate s o.core (s.coh o.coh).ctx va need with
  | .ok k => k
  | .fault _ | .hole => 0

/-- The bytes of a virtual range as memory holds them, line by line. -/
def bytesAt (s : State) (o : Op) (va n : Nat) : List Byte :=
  (chunksOf va n).flatMap fun ch => s.bytes (keyAt s o ch.1 .read) ch.2

/-- Where the bytes written to a virtual range lie in memory. -/
def cellsAt (s : State) (o : Op) (va : Nat) (bs : List Byte) : List (Nat × Byte) :=
  (chunksOf va bs.length).flatMap fun ch => cellsOfL (keyAt s o ch.1 .write) ((bs.drop (ch.1 - va)).take ch.2)

/-- A command can read a virtual range: each line's part translates to its place in a line, whose home can be reached; and
where the command reads through its die's remote-data cache, that holds no copy that serves it. -/
def CanRead (s : State) (o : Op) (through : Bool) (va n : Nat) : Prop :=
  ∀ ch ∈ chunksOf va n, ∃ k, translate s o.core (s.coh o.coh).ctx ch.1 .read = .ok k ∧ k % 128 = ch.1 % 128 ∧
    s.unreachable (lineOf k) = false ∧
    (through = true → isRemote (dieOf o.core) (lineOf k) = true →
      serving (s.rdcOf (dieOf o.core)) (lineOf k) o.vacc = none)

/-- A command can write a virtual range. -/
def CanWrite (s : State) (o : Op) (va n : Nat) : Prop :=
  ∀ ch ∈ chunksOf va n, ∃ k, translate s o.core (s.coh o.coh).ctx ch.1 .write = .ok k ∧ s.unreachable (lineOf k) = false

/-- A write to some bytes of memory moves none of these addresses: no entry that translates them lies there. -/
def Steady (s : State) (o : Op) (written : Nat → Prop) (vas : List Nat) : Prop :=
  ∀ u : State, (∀ a, ¬ written a → u.byte a = s.byte a) → u.ctxs = s.ctxs → u.fns = s.fns → u.modnum = s.modnum →
    (u.core o.core).tlb = (s.core o.core).tlb → u.dieTlb = s.dieTlb →
    ∀ va ∈ vas, translate u o.core (s.coh o.coh).ctx va .write = translate s o.core (s.coh o.coh).ctx va .write

/-- The same of the addresses an agent without a TLB writes. -/
def SteadyDev (s : State) (ctx : Nat) (written : Nat → Prop) (vas : List Nat) : Prop :=
  ∀ u : State, (∀ a, ¬ written a → u.byte a = s.byte a) → u.ctxs = s.ctxs → u.fns = s.fns → u.modnum = s.modnum →
    u.absent = s.absent → u.lost = s.lost → ∀ va ∈ vas, translateDev u ctx va .write = translateDev s ctx va .write

/-- The code of an element of a tensor as memory holds it. -/
def codeAt (s : State) (o : Op) (t : Tensor) (x : List Int) : Nat :=
  let v := leNat (bytesAt s o (t.addr x) t.elemBytes)
  if t.bits = 4 then (if t.highHalf x then v / 16 else v % 16) else v

/-! ## What a sample delivers (28 R487 to R490) -/

/-- The colour of a tap, from the bytes memory holds: the texel it reads, or the border. -/
def tapColour (s : State) (o : Op) (d : TexDesc) (weights : List (BitVec 16)) (l : Nat) (x y : Int) : List Val :=
  match d.tapAt l x y with
  | none => d.border.map valF
  | some (a, b) => texelOf d weights (bytesAt s o (d.addrOf l a b) d.texelBytes) a b

/-- The colour of one level: its one texel, or the sum of its texels by their weights. -/
def levelColour (s : State) (o : Op) (d : TexDesc) (weights : List (BitVec 16)) (x : LevelTaps) : List Val :=
  x.taps.foldl (fun a t =>
    let c := tapColour s o d weights x.level t.2.1 t.2.2
    if x.single then c else (a.zip c).map fun p => addScaled p.1 (Val.ofRat t.1 65536 false) p.2) (List.replicate 4 zeroV)

/-- The colour of a sample: one level, or two by their weights. -/
def sampleColour (s : State) (o : Op) (d : TexDesc) (weights : List (BitVec 16)) : List (Nat × LevelTaps) → List Val
  | [(w0, a), (w1, b)] => ((levelColour s o d weights a).zip (levelColour s o d weights b)).map fun p =>
      addScaled (rne (mulVal p.1 (Val.ofRat w0 256 false)).1) (Val.ofRat w1 256 false) p.2
  | (_, a) :: _ => levelColour s o d weights a
  | [] => List.replicate 4 zeroV

/-- What a covered thread gets: a sample, one channel of four taps, or the mean of the samples of a footprint. -/
def planColour (s : State) (o : Op) (d : TexDesc) (weights : List (BitVec 16)) : TexPlan → List Val
  | .one x => sampleColour s o d weights x
  | .gather ch x => x.taps.map fun t => (tapColour s o d weights x.level t.2.1 t.2.2).getD ch zeroV
  | .cone xs =>
    (xs.foldl (fun a x => (a.zip (sampleColour s o d weights x)).map fun p => rne (addVal 0 p.1 p.2).1)
      (List.replicate 4 zeroV)).map fun v => rne (divVal v (Val.ofInt xs.length)).1

/-! ## Shapes of results -/

/-- Instruction `i` completes: each guard-holding thread's vector register DST holds `v` (warp, lane); vz stays 0; nothing
else a program reads changes, and the group goes on at PC + 1. -/
def WritesV (i : Instr) (f : Fields) (c : Iss) (s : State) (v : Nat → Nat → W32) : Prop :=
  ∃ t, exec i s = .next t ∧ Advanced c s t ∧
    (∀ x ∈ c.on f s, HasWarp s c.coh x.1 → x.2 < 32 →
      (t.warp c.coh x.1).readV f.dst.idx.toNat x.2 = if f.dst.idx.toNat = 255 then 0 else v x.1 x.2) ∧
    RegFrame s t (fun k w r l => k = c.coh ∧ (w, l) ∈ c.on f s ∧ r = f.dst.idx.toNat) none3 none4 none2

/-- The same with exception flags: a warp's flags gain those its threads raise, `fl` (warp, lane). -/
def WritesF (i : Instr) (f : Fields) (c : Iss) (s : State) (v : Nat → Nat → W32 × BitVec 5) : Prop :=
  ∃ t, exec i s = .next t ∧ Advanced c s t ∧
    (∀ x ∈ c.on f s, HasWarp s c.coh x.1 → x.2 < 32 →
      (t.warp c.coh x.1).readV f.dst.idx.toNat x.2 = if f.dst.idx.toNat = 255 then 0 else (v x.1 x.2).1) ∧
    (∀ w, HasWarp s c.coh w → (t.warp c.coh w).fpflags =
      ((c.on f s).filter fun x => x.1 = w).foldl (fun a x => a ||| (v x.1 x.2).2) (s.warp c.coh w).fpflags) ∧
    RegFrame s t (fun k w r l => k = c.coh ∧ (w, l) ∈ c.on f s ∧ r = f.dst.idx.toNat) none3 none4 fun k _ => k = c.coh

/-- Instruction `i` completes: each executing warp's scalar register DST holds `v` of the warp; sz stays 0; nothing else a
program reads changes, and the group goes on at PC + 1. -/
def WritesS (i : Instr) (f : Fields) (c : Iss) (s : State) (v : Nat → W64) : Prop :=
  ∃ t, exec i s = .next t ∧ Advanced c s t ∧
    (∀ w ∈ c.warpsOn f s, HasWarp s c.coh w →
      (t.warp c.coh w).readS f.dst.idx.toNat = if f.dst.idx.toNat = 63 then 0 else v w) ∧
    RegFrame s t none4 (fun k w r => k = c.coh ∧ w ∈ c.warpsOn f s ∧ r = f.dst.idx.toNat) none4 none2

/-- Instruction `i` completes: each guard-holding thread's predicate DST holds `v` (warp, lane); pt stays 1; nothing else a
program reads changes, and the group goes on at PC + 1. -/
def WritesP (i : Instr) (f : Fields) (c : Iss) (s : State) (v : Nat → Nat → Bool) : Prop :=
  ∃ t, exec i s = .next t ∧ Advanced c s t ∧
    (∀ x ∈ c.on f s, HasThread s c.coh x.1 x.2 → f.dst.idx.toNat < 8 →
      (t.thread c.coh x.1 x.2).readP f.dst.idx.toNat = if f.dst.idx.toNat = 7 then true else v x.1 x.2) ∧
    RegFrame s t none4 none3 (fun k w l p => k = c.coh ∧ (w, l) ∈ c.on f s ∧ p = f.dst.idx.toNat) none2

/-- Instruction `i` completes and leaves one operation, `o` of the warp, outstanding for each executing warp, numbered
from the next free number up; every earlier operation but for its lookahead windows, and all a program reads, is as
before, and the group goes on at PC + 1. -/
def Leaves (i : Instr) (f : Fields) (c : Iss) (s : State) (o : Nat → Op) : Prop :=
  ∃ t, exec i s = .next t ∧ Advanced c s t ∧ RegFrame s t none4 none3 none4 none2 ∧
    t.nextOp = s.nextOp + (c.warpsOn f s).length ∧
    (∀ j w, (c.warpsOn f s)[j]? = some w → FMap.find t.ops (s.nextOp + j) = some (o w)) ∧
    (∀ id, id < s.nextOp → FMap.find t.ops id = FMap.find (useWindows c s).ops id)

/-- Instruction `i` completes past its own checks, which leave state `u`: for each executing warp one operation, `o` of
the warp, is outstanding, numbered from the next free number up; no register, no byte of memory or scratchpad changes, and
the group goes on at PC + 1. -/
def Starts (i : Instr) (f : Fields) (c : Iss) (s u : State) (o : Nat → Op → Prop) : Prop :=
  ∃ t, exec i s = .next t ∧ Advanced c u t ∧ RegFrame u t none4 none3 none4 none2 ∧
    t.nextOp = u.nextOp + (c.warpsOn f u).length ∧
    ∀ j w, (c.warpsOn f u)[j]? = some w → ∃ x, FMap.find t.ops (u.nextOp + j) = some x ∧ x.coh = c.coh ∧ x.warp = w ∧
      x.core = c.core ∧ x.pc = c.pc ∧ x.ths = c.ths ∧ o w x

/-- A warp's command is outstanding, as its engine port has accepted it at state `s`: numbered next, under the core's engine
sequence number, with `p` of the operation. -/
def Accepted (c : Iss) (w : Nat) (s t : State) (p : Op → Prop) : Prop :=
  ∃ o, FMap.find t.ops s.nextOp = some o ∧ o.coh = c.coh ∧ o.warp = w ∧ o.core = c.core ∧ o.pc = c.pc ∧ o.busy = true ∧
    o.fut = some (s.core c.core).engSeq.toNat ∧ p o

/-- The outstanding operation of a long computation of one warp (02 R40 to R42): its results and flags, its pending
registers, and LA for each of its threads. -/
def longOp (i : Instr) (f : Fields) (c : Iss) (s : State) (ws : List RegW) (fl : BitVec 5) (w : Nat) : Op :=
  { kind := .calc ws fl, coh := c.coh, warp := w, core := c.core, pc := c.pc, ths := c.ths
    dests := destsOf (footOf i).writes (laneMask (c.lanesOn f s w))
    wins := (c.lanesOn f s w).map fun l => (l, f.la.toNat), long := true }

/-- A long instruction whose result is one scalar per warp. -/
def LeavesS (i : Instr) (f : Fields) (c : Iss) (s : State) (v : Nat → W64) : Prop :=
  Leaves i f c s fun w => longOp i f c s [.s f.dst.idx.toNat (v w)] 0 w

/-- A long instruction whose result is one vector register per thread, with the flags its threads raise. -/
def LeavesV (i : Instr) (f : Fields) (c : Iss) (s : State) (v : Nat → Nat → W32 × BitVec 5) : Prop :=
  Leaves i f c s fun w => longOp i f c s ((c.lanesOn f s w).map fun l => .v f.dst.idx.toNat l (v w l).1)
    ((c.lanesOn f s w).foldl (fun a l => a ||| (v w l).2) 0) w

end Sys2Proof.Safety
end

