-- ==== Sys2Proof/Certificates/Slice0/Obligations.lean ====
section
/-! DEFINITION. The statements for the provers, from the numbered rules of spec/. A statement of several claims about one
subject has them under `Claims`. Statements about values name the model's own readers (`srcT`, `srcV`, ...) for the operands
the spec writes a, b and c. Where a clause rests on a choice of the model, its docstring says so. -/

open Sys2Proof Sys2Proof.Machine Sys2Proof.Safety

/-! ## Groups 1 to 5: results in registers -/

/-- R197, R199, R201, R203: what the scalar instructions of the fixed class write. `A` and `B` are the two scalar sources
read as the word's type; the result is wrapped, or saturated under SAT (10 R189, R190), and written to all 64 bits. -/
def Obligations.ScalarResults : Prop :=
  ∀ (f : Fields) (c : Iss) (s : State),
    let A := fun w => s.srcT c.coh w f.modn f.sa
    let B := fun w => s.srcT c.coh w f.modn f.sb
    let n := tyWidth f.modn
    let a := fun w => (s.srcS c.coh w f.sa).toNat % 2 ^ n
    let b := fun w => (s.srcS c.coh w f.sb).toNat % 2 ^ n
    let fit := fun (y : Int) => BitVec.ofInt 64 (fitTy f.modn f.sat y)
    let bit := fun (y : Nat) => BitVec.ofInt 64 (asTy f.modn y)
    (Ready (.sadd f) f c s → WritesS (.sadd f) f c s fun w => fit (A w + B w)) ∧
    (Ready (.ssub f) f c s → WritesS (.ssub f) f c s fun w => fit (A w - B w)) ∧
    (Ready (.smul f) f c s → WritesS (.smul f) f c s fun w => fit (A w * B w)) ∧
    (Ready (.smulh f) f c s → WritesS (.smulh f) f c s fun w => fit ((A w * B w).fdiv (2 ^ n))) ∧
    (Ready (.sand f) f c s → WritesS (.sand f) f c s fun w => bit (a w &&& b w)) ∧
    (Ready (.sor f) f c s → WritesS (.sor f) f c s fun w => bit (a w ||| b w)) ∧
    (Ready (.sxor f) f c s → WritesS (.sxor f) f c s fun w => bit (a w ^^^ b w)) ∧
    (Ready (.sshl f) f c s → WritesS (.sshl f) f c s fun w => BitVec.ofInt 64 (shlTy f.modn (A w) (b w))) ∧
    (Ready (.sshr f) f c s → WritesS (.sshr f) f c s fun w => BitVec.ofInt 64 (shrTy f.modn (A w) (b w))) ∧
    (Ready (.smin f) f c s → WritesS (.smin f) f c s fun w => fit (min (A w) (B w))) ∧
    (Ready (.smax f) f c s → WritesS (.smax f) f c s fun w => fit (max (A w) (B w))) ∧
    (Ready (.ssel f) f c s → WritesS (.ssel f) f c s fun w =>
      BitVec.ofInt 64 (if s.srcS c.coh w f.third ≠ 0 then A w else B w)) ∧
    (Ready (.smov f) f c s → WritesS (.smov f) f c s fun w => bit (a w)) ∧
    (Ready (.smovi f) f c s → WritesS (.smovi f) f c s fun w =>
      if f.modn = 0 then f.imm.signExtend 64
      else if f.modn = 1 then f.imm.setWidth 64
      else f.imm ++ ((s.warp c.coh w).readS f.dst.idx.toNat).setWidth 32) ∧
    (Ready (.sclz f) f c s → WritesS (.sclz f) f c s fun w => bit (clz n (a w))) ∧
    (Ready (.spopc f) f c s → WritesS (.spopc f) f c s fun w => bit (popcount (a w) 64)) ∧
    (Ready (.saddr f) f c s → WritesS (.saddr f) f c s fun w =>
      s.srcS c.coh w f.sa + s.srcS c.coh w f.sb * BitVec.ofNat 64 (2 ^ (f.opt % 64)) + s.srcS c.coh w f.third)

/-- R204, R206, R207, R209: what the vector integer instructions of the fixed class write. `A` and `B` are the sources of a
thread read as the word's type, `a` and `b` as 32-bit patterns. -/
def Obligations.VectorIntegerResults : Prop :=
  ∀ (f : Fields) (c : Iss) (s : State),
    let A := fun w l => s.srcI c.coh w l f.modn f.sa
    let B := fun w l => s.srcI c.coh w l f.modn f.sb
    let C := fun w l => s.srcI c.coh w l f.modn f.third
    let a := fun w l => s.srcN c.coh w l f.sa
    let b := fun w l => s.srcN c.coh w l f.sb
    let fit := fun (y : Int) => BitVec.ofInt 32 (fitTy f.modn f.sat y)
    (Ready (.iadd f) f c s → WritesV (.iadd f) f c s fun w l => fit (A w l + B w l)) ∧
    (Ready (.isub f) f c s → WritesV (.isub f) f c s fun w l => fit (A w l - B w l)) ∧
    (Ready (.imul f) f c s → WritesV (.imul f) f c s fun w l =>
      fit (if f.opt = 0 then A w l * B w l else (A w l * B w l).fdiv (2 ^ 32))) ∧
    (Ready (.imad f) f c s → WritesV (.imad f) f c s fun w l => fit (A w l * B w l + C w l)) ∧
    (Ready (.imin f) f c s → WritesV (.imin f) f c s fun w l => fit (min (A w l) (B w l))) ∧
    (Ready (.imax f) f c s → WritesV (.imax f) f c s fun w l => fit (max (A w l) (B w l))) ∧
    (Ready (.iabs f) f c s → WritesV (.iabs f) f c s fun w l => fit (A w l).natAbs) ∧
    (Ready (.ineg f) f c s → WritesV (.ineg f) f c s fun w l => fit (-(A w l))) ∧
    (Ready (.iand f) f c s → WritesV (.iand f) f c s fun w l => BitVec.ofNat 32 (a w l &&& b w l)) ∧
    (Ready (.ior f) f c s → WritesV (.ior f) f c s fun w l => BitVec.ofNat 32 (a w l ||| b w l)) ∧
    (Ready (.ixor f) f c s → WritesV (.ixor f) f c s fun w l => BitVec.ofNat 32 (a w l ^^^ b w l)) ∧
    (Ready (.inot f) f c s → WritesV (.inot f) f c s fun w l => ~~~(s.srcV c.coh w l f.sa)) ∧
    (Ready (.ishl f) f c s → WritesV (.ishl f) f c s fun w l => BitVec.ofInt 32 (shlTy f.modn (A w l) (b w l))) ∧
    (Ready (.ishr f) f c s → WritesV (.ishr f) f c s fun w l => BitVec.ofInt 32 (shrTy f.modn (A w l) (b w l))) ∧
    (Ready (.irot f) f c s → WritesV (.irot f) f c s fun w l => BitVec.ofNat 32 (rotl32 (a w l) (b w l))) ∧
    (Ready (.isel f) f c s → WritesV (.isel f) f c s fun w l =>
      if s.srcP c.coh w l f.third then s.srcV c.coh w l f.sa else s.srcV c.coh w l f.sb) ∧
    (Ready (.ipopc f) f c s → WritesV (.ipopc f) f c s fun w l => BitVec.ofNat 32 (popcount (a w l) 32)) ∧
    (Ready (.iclz f) f c s → WritesV (.iclz f) f c s fun w l => BitVec.ofNat 32 (clz 32 (a w l))) ∧
    (Ready (.ibfx f) f c s → WritesV (.ibfx f) f c s fun w l => BitVec.ofNat 32 (bitExtract f.modn (a w l) (b w l))) ∧
    (Ready (.ibfi f) f c s → WritesV (.ibfi f) f c s fun w l =>
      BitVec.ofNat 32 (bitInsert (a w l) (b w l) (s.srcN c.coh w l f.third))) ∧
    (Ready (.idot4 f) f c s → WritesV (.idot4 f) f c s fun w l => BitVec.ofInt 32 (fitTy 3 f.sat
      (dot4 f.modn (if f.opt = 0 then 28 else 29) (a w l) (b w l) (s.srcN c.coh w l f.third))))

/-- R212, R215, R216, R217, R229, R237, R238: what moves, permutations and classifications write. -/
def Claims.MoveResults : Prop :=
  ∀ (f : Fields) (c : Iss) (s : State),
    (Ready (.mov f) f c s → WritesV (.mov f) f c s fun w l => s.srcV c.coh w l f.sa) ∧
    (Ready (.movi f) f c s → WritesV (.movi f) f c s fun _ _ => f.imm) ∧
    (Ready (.movs f) f c s → WritesV (.movs f) f c s fun w _ =>
      if f.modn = 0 then (s.srcS c.coh w f.sa).setWidth 32 else (s.srcS c.coh w f.sa >>> 32).setWidth 32) ∧
    (Ready (.p2v f) f c s → WritesV (.p2v f) f c s fun w l =>
      if s.srcP c.coh w l f.sa then (if f.modn = 0 then 1 else 0xFFFFFFFF) else 0) ∧
    (Ready (.matchv f) f c s → WritesV (.matchv f) f c s fun w l =>
      laneMask ((c.lanesOn f s w).filter fun m => s.srcV c.coh w m f.sa = s.srcV c.coh w l f.sa)) ∧
    (Ready (.shfl f) f c s →
      (∀ x ∈ c.on f s, markOf (s.warp c.coh x.1) f.sa.idx.toNat [shflFrom f s c.coh x.1 x.2] = none) →
      WritesV (.shfl f) f c s fun w l =>
        (s.warp c.coh w).readV f.sa.idx.toNat ((shflLane f.modn (s.srcN c.coh w l f.sb) l).getD l)) ∧
    (Ready (.prmb f) f c s → WritesV (.prmb f) f c s fun w l =>
      let pool := s.srcN c.coh w l f.sa + ((s.warp c.coh w).readV f.dst.idx.toNat l).toNat * 2 ^ 32
      let b := s.srcN c.coh w l f.sb
      BitVec.ofNat 32 ((upto 4).foldl (fun x i => x + prmbByte pool (bits b (4 * i + 3) (4 * i)) * 256 ^ i) 0)) ∧
    (Ready (.fclass f) f c s → WritesV (.fclass f) f c s fun w l =>
      BitVec.ofNat 32 (2 ^ classBit f.modn (s.srcF c.coh w l f.modn f.sa))) ∧
    (Ready (.sclx f) f c s → WritesV (.sclx f) f c s fun w l =>
      BitVec.ofNat 32 (sclxCode f.modn (infMode f) (s.srcConv c.coh w l f)))

/-- R202, R217: what compares and predicate instructions write. -/
def Claims.PredicateResults : Prop :=
  ∀ (f : Fields) (c : Iss) (s : State),
    (Ready (.scmp f) f c s → WritesP (.scmp f) f c s fun w _ =>
      condHolds f.opt (s.srcT c.coh w f.modn f.sa) (s.srcT c.coh w f.modn f.sb)) ∧
    (Ready (.icmp f) f c s → WritesP (.icmp f) f c s fun w l =>
      condHolds f.opt (s.srcI c.coh w l f.modn f.sa) (s.srcI c.coh w l f.modn f.sb)) ∧
    (Ready (.v2p f) f c s → WritesP (.v2p f) f c s fun w l => s.srcV c.coh w l f.sa ≠ 0) ∧
    (Ready (.plop f) f c s → WritesP (.plop f) f c s fun w l =>
      f.imm.getLsbD ((s.srcP c.coh w l f.sa).toNat + 2 * (s.srcP c.coh w l f.sb).toNat +
        4 * ((s.thread c.coh w l).readP (f.immBits 10 8)).toNat))

/-- Together: `Claims.MoveResults` and `Claims.PredicateResults`. -/
def Obligations.MovesAndPredicates : Prop := Claims.MoveResults ∧ Claims.PredicateResults

/-- R222 to R228, R230, R232 to R236: what the floating-point instructions and conversions of the fixed class write, and
the flags they raise (R191). `F` reads a source as a value, `out` rounds the exact result into the word's type. -/
def Obligations.FloatResults : Prop :=
  ∀ (f : Fields) (c : Iss) (s : State),
    let A := fun w l => s.srcF c.coh w l f.modn f.sa
    let B := fun w l => s.srcF c.coh w l f.modn f.sb
    let C := fun w l => s.srcF c.coh w l f.modn f.third
    let out := fun (x : Val × BitVec 5) (fl : BitVec 5) => deliver f x.1 (fl ||| x.2)
    (Ready (.fadd f) f c s → WritesF (.fadd f) f c s fun w l =>
      out (addVal f.rc (A w l) (B w l)) ((A w l).sig ||| (B w l).sig)) ∧
    (Ready (.fsub f) f c s → WritesF (.fsub f) f c s fun w l =>
      out (addVal f.rc (A w l) (B w l).negate) ((A w l).sig ||| (B w l).sig)) ∧
    (Ready (.fmul f) f c s → WritesF (.fmul f) f c s fun w l =>
      out (mulVal (A w l) (B w l)) ((A w l).sig ||| (B w l).sig)) ∧
    (Ready (.ffma f) f c s → WritesF (.ffma f) f c s fun w l =>
      out (fmaVal f.rc (A w l) (B w l) (C w l)) ((A w l).sig ||| (B w l).sig ||| (C w l).sig)) ∧
    (Ready (.fmin f) f c s → WritesF (.fmin f) f c s fun w l => minMax f (fun a b => ltVal true a b) s c.coh w l) ∧
    (Ready (.fmax f) f c s → WritesF (.fmax f) f c s fun w l => minMax f (fun a b => ltVal true b a) s c.coh w l) ∧
    (Ready (.ffrc f) f c s → WritesF (.ffrc f) f c s fun w l => out (fracVal (A w l)) (A w l).sig) ∧
    (Ready (.frint f) f c s → WritesF (.frint f) f c s fun w l => out (rintVal f.rc (A w l)) (A w l).sig) ∧
    (Ready (.fldexp f) f c s → WritesF (.fldexp f) f c s fun w l =>
      deliver f (scaleVal (A w l) (s.srcI c.coh w l 3 f.sb)) (A w l).sig) ∧
    (Ready (.hfma2 f) f c s → WritesF (.hfma2 f) f c s fun w l => packed f (fmaVal f.rc) true s c.coh w l) ∧
    (Ready (.hadd2 f) f c s → WritesF (.hadd2 f) f c s fun w l =>
      packed f (fun a b _ => addVal f.rc a b) false s c.coh w l) ∧
    (Ready (.hmul2 f) f c s → WritesF (.hmul2 f) f c s fun w l => packed f (fun a b _ => mulVal a b) false s c.coh w l) ∧
    (Ready (.cvt f) f c s → WritesF (.cvt f) f c s fun w l => deliverTo f (s.srcConv c.coh w l f)) ∧
    (Ready (.cvtfi f) f c s → WritesF (.cvtfi f) f c s fun w l =>
      let r := toInt f.modn f.rc f.sat (s.srcConv c.coh w l f)
      (BitVec.ofInt 32 r.1, r.2)) ∧
    (Ready (.cvtif f) f c s → WritesF (.cvtif f) f c s fun w l =>
      deliverTo f (Val.ofInt (s.srcI c.coh w l f.src f.sa))) ∧
    (Ready (.cvtn f) f c s → WritesF (.cvtn f) f c s fun w l =>
      let n := codeWidth f.modn
      let p := n * (2 * (f.opt / 4 % 4))
      let x0 := deliverTo f (s.srcF c.coh w l (f.opt % 4) f.sa)
      let x1 := deliverTo f (s.srcF c.coh w l (f.opt % 4) f.sb)
      let d := ((s.warp c.coh w).readV f.dst.idx.toNat l).toNat
      (BitVec.ofNat 32 (placeBits (placeBits d p n x0.1.toNat) (p + n) n x1.1.toNat), x0.2 ||| x1.2)) ∧
    (Ready (.cvtw f) f c s → WritesF (.cvtw f) f c s fun w l =>
      let n := codeWidth f.src
      let i := if n = 8 then s.srcN c.coh w l f.sb % 4 else s.srcN c.coh w l f.sb % 8
      let x := bits (s.srcN c.coh w l f.sa) (n * i + n - 1) (n * i)
      if [3, 4].contains f.modn then (BitVec.ofInt 32 (asTy f.src x), 0)
      else deliverTo f (if [28, 29, 32, 33].contains f.src then Val.ofInt (asTy f.src x)
        else decodeF f.src (infMode f) x))

/-- R208, R210, R225: IADDC writes the sum and its carry out, LEA a register pair, FCMP a predicate and the flags of
signalling operands. -/
def Obligations.CarryPairAndFlagResults : Prop :=
  ∀ (f : Fields) (c : Iss) (s : State),
    (Ready (.iaddc f) f c s →
      let sum := fun (x : Nat × Nat) => s.srcN c.coh x.1 x.2 f.sa + s.srcN c.coh x.1 x.2 f.sb +
        (s.srcP c.coh x.1 x.2 f.third).toNat
      ∃ t, exec (.iaddc f) s = .next t ∧ Advanced c s t ∧
        (∀ x ∈ c.on f s, HasThread s c.coh x.1 x.2 →
          (x.2 < 32 → (t.warp c.coh x.1).readV f.dst.idx.toNat x.2 =
            if f.dst.idx.toNat = 255 then 0 else BitVec.ofNat 32 (sum x)) ∧
          (t.thread c.coh x.1 x.2).readP (f.opt % 8) = if f.opt % 8 = 7 then true else decide (2 ^ 32 ≤ sum x)) ∧
        RegFrame s t (fun k w r l => k = c.coh ∧ (w, l) ∈ c.on f s ∧ r = f.dst.idx.toNat) none3
          (fun k w l p => k = c.coh ∧ (w, l) ∈ c.on f s ∧ p = f.opt % 8) none2) ∧
    (Ready (.lea f) f c s →
      let ea := fun (x : Nat × Nat) => s.srcPair c.coh x.1 x.2 f.sa +
        BitVec.ofInt 64 (s.srcI c.coh x.1 x.2 f.modn f.sb * 2 ^ (f.opt % 64)) +
        (s.srcV c.coh x.1 x.2 f.third).signExtend 64
      let d := f.dst.idx.toNat
      ∃ t, exec (.lea f) s = .next t ∧ Advanced c s t ∧
        (∀ x ∈ c.on f s, HasWarp s c.coh x.1 → x.2 < 32 → d ≠ 255 →
          (t.warp c.coh x.1).readV d x.2 = (ea x).setWidth 32 ∧
          (t.warp c.coh x.1).readV (d + 1) x.2 = (if d + 1 = 255 then 0 else (ea x >>> 32).setWidth 32 : W32)) ∧
        RegFrame s t (fun k w r l => k = c.coh ∧ (w, l) ∈ c.on f s ∧ d ≠ 255 ∧ (r = d ∨ r = d + 1)) none3 none4 none2) ∧
    (Ready (.fcmp f) f c s →
      let A := fun (x : Nat × Nat) => s.srcF c.coh x.1 x.2 f.modn f.sa
      let B := fun (x : Nat × Nat) => s.srcF c.coh x.1 x.2 f.modn f.sb
      ∃ t, exec (.fcmp f) s = .next t ∧ Advanced c s t ∧
        (∀ x ∈ c.on f s, HasThread s c.coh x.1 x.2 → f.dst.idx.toNat < 8 →
          (t.thread c.coh x.1 x.2).readP f.dst.idx.toNat =
            if f.dst.idx.toNat = 7 then true else fcmpHolds f.opt (A x) (B x)) ∧
        (∀ w, HasWarp s c.coh w → (t.warp c.coh w).fpflags =
          ((c.on f s).filter fun x => x.1 = w).foldl (fun fl x => fl ||| ((A x).sig ||| (B x).sig))
            (s.warp c.coh w).fpflags) ∧
        RegFrame s t none4 none3 (fun k w l p => k = c.coh ∧ (w, l) ∈ c.on f s ∧ p = f.dst.idx.toNat)
          fun k _ => k = c.coh)

/-- R174, R171, R214, R216, R218, R295: results an instruction writes once per warp, or per thread where its DST is a vector
register. -/
def Obligations.WarpResults : Prop :=
  ∀ (f : Fields) (c : Iss) (s : State),
    (Ready (.vote f) f c s → WritesS (.vote f) f c s fun w =>
      let vs := c.lanesOn f s w
      let p := fun (l : Nat) => s.srcP c.coh w l f.sa
      if f.modn = 0 then (if vs.any p then 1 else 0)
      else if f.modn = 1 then (if vs.all p then 1 else 0)
      else (laneMask (vs.filter p)).setWidth 64) ∧
    (Ready (.rdl f) f c s →
      (∀ x ∈ c.on f s, markOf (s.warp c.coh x.1) f.sa.idx.toNat [rdlLane f s c.coh x.1] = none) →
      WritesS (.rdl f) f c s fun w =>
        let v := (s.warp c.coh w).readV f.sa.idx.toNat ((s.srcWord c.coh w f.sb).toNat % 32)
        if f.modn = 0 then v.setWidth 64 else v.signExtend 64) ∧
    (Ready (.ftest f) f c s → WritesS (.ftest f) f c s fun w =>
      if pendingS s c.coh w f.sa.idx.toNat then 0 else 1) ∧
    (Ready (.rdsp f) f c s → f.dst.kind = .vec → WritesV (.rdsp f) f c s fun w l =>
      BitVec.ofNat 32 (specialReg s c.core c.coh w l f.sa.idx.toNat)) ∧
    (Ready (.rdsp f) f c s → f.dst.kind ≠ .vec → WritesS (.rdsp f) f c s fun w =>
      BitVec.ofNat 64 (specialReg s c.core c.coh w ((c.lanesOn f s w).head?.getD 0) f.sa.idx.toNat)) ∧
    (Ready (.rdcyc f) f c s → f.dst.kind = .vec → WritesV (.rdcyc f) f c s fun _ _ =>
      (BitVec.ofNat 64 (s.core c.core).cycle).setWidth 32) ∧
    (Ready (.rdcyc f) f c s → f.dst.kind ≠ .vec → WritesS (.rdcyc f) f c s fun _ =>
      BitVec.ofNat 64 (s.core c.core).cycle) ∧
    (Ready (.rdsr f) f c s → sysAssigned (sysIdx f) = true → flagsReady f c s = true → f.dst.kind = .vec →
      WritesV (.rdsr f) f c s fun w _ => (sysRead s c w (sysIdx f)).setWidth 32) ∧
    (Ready (.rdsr f) f c s → sysAssigned (sysIdx f) = true → flagsReady f c s = true → f.dst.kind ≠ .vec →
      WritesS (.rdsr f) f c s fun w => sysRead s c w (sysIdx f))

/-- R40 to R42, R44, R200, R222, R226, R227: a long-class computation leaves one operation outstanding per executing warp:
its results, its flags, its pending registers and the lookahead windows of its threads. The values of FEXP2, FLOG2, FSIN and
FCOS within the bounds of R227 are the model's choice (log 11). -/
def Claims.LongComputations : Prop :=
  ∀ (f : Fields) (c : Iss) (s : State),
    let divS := fun (g : Int × Int → Int) w =>
      BitVec.ofInt 64 (fitTy f.modn f.sat (g (divTy (s.srcT c.coh w f.modn f.sa) (s.srcT c.coh w f.modn f.sb))))
    let divV := fun (g : Int × Int → Int) w l =>
      (BitVec.ofInt 32 (fitTy f.modn f.sat (g (divTy (s.srcI c.coh w l f.modn f.sa) (s.srcI c.coh w l f.modn f.sb)))),
        (0 : BitVec 5))
    let A := fun w l => s.srcF c.coh w l f.modn f.sa
    let B := fun w l => s.srcF c.coh w l f.modn f.sb
    let out := fun (x : Val × BitVec 5) (fl : BitVec 5) => deliver f x.1 (fl ||| x.2)
    let code := fun w l => BitVec.ofNat 32 (s.srcCode c.coh w l 0 false f.sa)
    let fn := fun (x : Nat × BitVec 5) => (BitVec.ofNat 32 x.1, x.2)
    (Ready (.sdiv f) f c s → LeavesS (.sdiv f) f c s (divS Prod.fst)) ∧
    (Ready (.srem f) f c s → LeavesS (.srem f) f c s (divS Prod.snd)) ∧
    (Ready (.idiv f) f c s → LeavesV (.idiv f) f c s (divV Prod.fst)) ∧
    (Ready (.irem f) f c s → LeavesV (.irem f) f c s (divV Prod.snd)) ∧
    (Ready (.fdiv f) f c s → LeavesV (.fdiv f) f c s fun w l =>
      out (divVal (A w l) (B w l)) ((A w l).sig ||| (B w l).sig)) ∧
    (Ready (.frcp f) f c s → LeavesV (.frcp f) f c s fun w l => out (divVal (.fin false 1 1) (A w l)) (A w l).sig) ∧
    (Ready (.frsq f) f c s → LeavesV (.frsq f) f c s fun w l => out (rsqVal (A w l)) (A w l).sig) ∧
    (Ready (.fsqrt f) f c s → LeavesV (.fsqrt f) f c s fun w l => out (rootVal (A w l)) (A w l).sig) ∧
    (Ready (.fexp2 f) f c s → LeavesV (.fexp2 f) f c s fun w l => fn (exp2F (code w l))) ∧
    (Ready (.flog2 f) f c s → LeavesV (.flog2 f) f c s fun w l => fn (log2F (code w l))) ∧
    (Ready (.fsin f) f c s → LeavesV (.fsin f) f c s fun w l => fn (sinF 2 (code w l))) ∧
    (Ready (.fcos f) f c s → LeavesV (.fcos f) f c s fun w l => fn (sinF 3 (code w l)))

/-- R166, R173, R175, R432, R436: a long-class read of the machine's own state leaves its value outstanding. That the value
is the one of the moment of issue (R175 says of the moment it performs) is the model's choice (log 39). -/
def Claims.LongReads : Prop :=
  ∀ (f : Fields) (c : Iss) (s : State),
    (Ready (.rdtrap f) f c s → LeavesS (.rdtrap f) f c s fun w =>
      match (s.warp c.coh w).handler, (s.warp c.coh w).trapq with
      | true, t :: r => BitVec.ofNat 64 (fieldN (t.bytes r.length) (8 * f.opt) 8)
      | _, _ => 0) ∧
    (Ready (.ebud f) f c s → LeavesS (.ebud f) f c s fun _ =>
      BitVec.ofNat 64 (s.ctx (s.coh c.coh).ctx).allow) ∧
    (Ready (.asstat f) f c s →
      (f.modn = 0 → ∀ w ∈ c.warpsOn f s, (s.srcS c.coh w f.sa).toNat < 4096) →
      LeavesS (.asstat f) f c s fun w => BitVec.ofNat 64
        (if f.modn = 0 then setStatus s (s.coh c.coh).ctx c.coh (s.srcS c.coh w f.sa).toNat else taskStatus s c.coh)) ∧
    (Ready (.resq f) f c s → LeavesS (.resq f) f c s fun w => BitVec.ofNat 64
      (match residOf s c.core (c.ctx s) (opSA s c f w) with
      | some r => 2 ^ 16 * r.pin.isSome.toNat + 2 ^ 15 + r.bytes
      | none => 0)) ∧
    (Ready (.caprd f) f c s →
      (∀ w ∈ c.warpsOn f s, (s.srcS c.coh w f.sa).toNat % 8 = 0 ∧ (s.srcS c.coh w f.sa).toNat < 65536) →
      LeavesS (.caprd f) f c s fun w => BitVec.ofNat 64
        (fieldN (capList s (fnOf (s.coh c.coh).ctx)) (s.srcS c.coh w f.sa).toNat 8))

/-- Together: `Claims.LongComputations` and `Claims.LongReads`. -/
def Obligations.LongResults : Prop := Claims.LongComputations ∧ Claims.LongReads

/-- R109, R111, R114 to R119: where each thread of the group goes on. The group is partitioned by next PC (`Parted`);
branches write no register but the link, and LOOPD its counter. -/
def Claims.BranchTargets : Prop :=
  ∀ (f : Fields) (c : Iss) (s : State),
    let rel := c.pc + f.imm
    let abs := fun (x : Nat × Nat) => s.srcV c.coh x.1 x.2 f.sa
    let go := fun (target : Nat × Nat → W32) (x : Nat × Nat) => if x ∈ c.on f s then target x else c.pc + 1
    let quiet := fun (i : Instr) (next : Nat × Nat → W32) =>
      Ready i f c s → ∃ t, exec i s = .next t ∧ MovedTo c s t next ∧ Parted c f.bnd t next ∧
        RegFrame s t none4 none3 none4 none2
    let links := fun (i : Instr) (next : Nat × Nat → W32) =>
      Ready i f c s → ∃ t, exec i s = .next t ∧ MovedTo c s t next ∧ Parted c f.bnd t next ∧
        (∀ x ∈ c.on f s, HasWarp s c.coh x.1 → x.2 < 32 →
          (t.warp c.coh x.1).readV f.dst.idx.toNat x.2 = if f.dst.idx.toNat = 255 then 0 else c.pc + 1) ∧
        RegFrame s t (fun k w r l => k = c.coh ∧ (w, l) ∈ c.on f s ∧ r = f.dst.idx.toNat) none3 none4 none2
    quiet (.nop f) (fun _ => c.pc + 1) ∧
    quiet (.bra f) (go fun _ => rel) ∧
    quiet (.brx f) (go abs) ∧
    quiet (.ret f) (go abs) ∧
    links (.call f) (go fun _ => rel) ∧
    links (.callx f) (go abs) ∧
    quiet (.vbra f) (fun _ =>
      let p := fun (x : Nat × Nat) => s.srcP c.coh x.1 x.2 f.sa
      let taken := if f.modn = 0 then (c.on f s).any p else !(c.on f s).isEmpty && (c.on f s).all p
      if taken then rel else c.pc + 1) ∧
    (Ready (.loopd f) f c s →
      let dec := fun w => (s.warp c.coh w).readS f.dst.idx.toNat - 1
      let next := go fun x => if dec x.1 ≠ 0 then rel else c.pc + 1
      ∃ t, exec (.loopd f) s = .next t ∧ MovedTo c s t next ∧ Parted c f.bnd t next ∧
        (∀ w ∈ c.warpsOn f s, HasWarp s c.coh w → (t.warp c.coh w).readS f.dst.idx.toNat =
          if f.dst.idx.toNat = 63 then 0 else dec w) ∧
        RegFrame s t none4 (fun k w r => k = c.coh ∧ w ∈ c.warpsOn f s ∧ r = f.dst.idx.toNat) none4 none2)

/-- R97, R120, R123: REFORM files the guard-holding threads in the bin of the cohort and PC + 1, where it is open or a bin is
free; the others go on at PC + 1 in the group's entry; the run ends. YIELD ends the run with the group at PC + 1, out of
arbitration for the rounds its IMM gives. No register changes. -/
def Claims.RunEndings : Prop :=
  ∀ (f : Fields) (c : Iss) (s : State),
    (Ready (.reform f) f c s → ∃ t, exec (.reform f) s = .next t ∧ Advanced c s t ∧ RegFrame s t none4 none3 none4 none2 ∧
      ((∃ b ∈ (s.core c.core).bins, b.coh = c.coh ∧ b.pc = c.pc + 1) ∨ (s.core c.core).freeBin.isSome = true →
        ∀ x ∈ c.on f s, ∃ b ∈ (t.core c.core).bins, b.coh = c.coh ∧ b.pc = c.pc + 1 ∧ x ∈ b.ths) ∧
      (c.ths.filter (fun x => !(c.on f s).contains x) ≠ [] → ∃ g, FMap.find (t.core c.core).entries c.ent = some g ∧
        g.pc = c.pc + 1 ∧ g.ths = c.ths.filter fun x => !(c.on f s).contains x) ∧
      (t.core c.core).slots.getD c.slot none = none) ∧
    (Ready (.yield f) f c s → ∃ t, exec (.yield f) s = .next t ∧ Advanced c s t ∧ RegFrame s t none4 none3 none4 none2 ∧
      (c.ths ≠ [] → (FMap.find (t.core c.core).entries c.ent).bind Group.backoff =
          (if (c.on f s).isEmpty || f.immBits 15 0 = 0 then none else some (f.immBits 15 0)) ∧
        (FMap.find (t.core c.core).entries c.ent).map Group.yielded =
          some (!((c.on f s).isEmpty || f.immBits 15 0 = 0)) ∧
        (t.core c.core).slots.getD c.slot none = none))

/-- Together: `Claims.BranchTargets` and `Claims.RunEndings`. -/
def Obligations.ControlTransfers : Prop := Claims.BranchTargets ∧ Claims.RunEndings

/-- R103, R121, R437, R438: at WCONV the guard-holding threads, and at REGGROW and REGSHR all threads, become warp-waiting;
the others go on at PC + 1. With other live threads of their warps still elsewhere they wait, and no register
changes. -/
def Claims.WarpWaits : Prop :=
  ∀ (f : Fields) (c : Iss) (s : State),
    let elsewhere := fun (gone : List (Nat × Nat)) => ∀ x ∈ gone, ∃ l ∈ (s.warp c.coh x.1).liveLanes,
      (x.1, l) ∉ gone ∧ (s.thread c.coh x.1 l).st ≠ .waiting
    let waits := fun (i : Instr) (gone : List (Nat × Nat)) (k : Nat × Nat → WaitKind) =>
      Ready i f c s → elsewhere gone → (∀ x ∈ c.ths, HasThread s c.coh x.1 x.2) → noneParked c s →
      ∃ t, exec i s = .next t ∧ RegFrame s t none4 none3 none4 none2 ∧
        (∀ x ∈ gone, (t.thread c.coh x.1 x.2).st = .waiting ∧ (t.thread c.coh x.1 x.2).wait = k x) ∧
        (∀ x ∈ c.ths, x ∉ gone → (t.thread c.coh x.1 x.2).pc = c.pc + 1)
    waits (.wconv f) (c.on f s) (fun _ => .conv) ∧
    waits (.reggrow f) c.ths (fun x => .grow f (guardHolds f.grd (s.thread c.coh x.1 x.2))) ∧
    waits (.regshr f) c.ths (fun x => .shr f (guardHolds f.grd (s.thread c.coh x.1 x.2)))

/-- R103, R121, R438: the convergence that ends a wait. With the threads of the group every live thread of their warp waits at
one WCONV, and all go on at PC + 1 as one group, which has an entry or is parked, and keeps the group's own entry where no guard
fails; at one REGSHR with a legal count and nothing outstanding, the allocation is the lesser of the two, DST gets it, and the
registers below it keep their values. At one REGGROW the group keeps the entry: it goes on with DST unchanged when no guard held,
and with the allocation in DST when that holds the count already; else its request is pending, and it is blocked there. -/
def Claims.ConvergenceEnds : Prop :=
  ∀ (f : Fields) (c : Iss) (s : State) (w : Nat),
    let live := (s.warp c.coh w).liveLanes
    let x := s.warp c.coh w
    let meets := fun (gone : List (Nat × Nat)) (k : WaitKind → Prop) => gone ≠ [] ∧ (∀ y ∈ gone, y.1 = w) ∧
      (∀ l ∈ live, (w, l) ∈ gone ∨
      (s.thread c.coh w l).st = .waiting ∧ k (s.thread c.coh w l).wait ∧ (s.thread c.coh w l).pc = c.pc)
    let keeps := fun (t : State) (p : Group → Prop) => ∃ g, FMap.find (t.core c.core).entries c.ent = some g ∧ g.coh = c.coh ∧
      (g.ths = live.map fun l => (w, l)) ∧ p g
    let guarded := fun (y : Nat × Nat) => guardHolds f.grd (s.thread c.coh y.1 y.2)
    (∀ y ∈ c.ths, HasThread s c.coh y.1 y.2 ∧ y.2 < 32 ∧ (s.thread c.coh y.1 y.2).st = .grouped ∧
      (s.thread c.coh y.1 y.2).pc = c.pc) →
    (∀ e g, e ≠ c.ent → FMap.find (s.core c.core).entries e = some g → g.coh = c.coh → ∀ y ∈ g.ths, y.1 ≠ w) →
    (∀ l, (c.coh, w, l) ∉ (s.core c.core).parked) →
    (Ready (.wconv f) f c s → meets (c.on f s) (fun k => k = .conv) → ∃ t, exec (.wconv f) s = .next t ∧
      (∀ l ∈ live, (t.thread c.coh w l).pc = c.pc + 1 ∧ (t.thread c.coh w l).st ≠ .waiting) ∧
      (∀ y ∈ c.ths, y ∉ c.on f s → (t.thread c.coh y.1 y.2).pc = c.pc + 1) ∧
      ((∃ e g, FMap.find (t.core c.core).entries e = some g ∧ g.coh = c.coh ∧ g.pc = c.pc + 1 ∧
          g.ths = live.map fun l => (w, l)) ∨ ∀ l ∈ live, (c.coh, w, l) ∈ (t.core c.core).parked) ∧
      ((∀ y ∈ c.ths, y ∈ c.on f s) → keeps t fun g => g.pc = c.pc + 1) ∧ RegFrame s t none4 none3 none4 none2) ∧
    (Ready (.regshr f) f c s → meets c.ths (fun k => ∃ b, k = .shr f b) →
      (∃ y ∈ c.ths, guardHolds f.grd (s.thread c.coh y.1 y.2) = true) →
      goodCount (s.srcS c.coh w f.sa).toNat = true → s.opsOf c.coh w = [] → poisonMet x (usesOf f.sa 1) [] = none →
      let n := min x.alloc (s.srcS c.coh w f.sa).toNat
      ∃ t, exec (.regshr f) s = .next t ∧ (∀ l ∈ live, (t.thread c.coh w l).pc = c.pc + 1) ∧ (t.warp c.coh w).alloc = n ∧
        (t.warp c.coh w).readS f.dst.idx.toNat = (if f.dst.idx.toNat = 63 then 0 else BitVec.ofNat 64 n) ∧
        RegFrame s t (fun k v r l => k = c.coh ∧ v = w ∧ (n ≤ r ∨ 32 ≤ l))
          (fun k v r => k = c.coh ∧ v = w ∧ r = f.dst.idx.toNat) none4 none2) ∧
    (Ready (.reggrow f) f c s → meets c.ths (fun k => ∃ b, k = .grow f b) →
      let n := (s.srcS c.coh w f.sa).toNat
      let onward := fun (t : State) => (∀ l ∈ live, (t.thread c.coh w l).pc = c.pc + 1) ∧
        (t.core c.core).slots.getD c.slot none = none ∧ keeps t fun g => g.pc = c.pc + 1 ∧ g.waits = []
      ((∀ y ∈ c.ths, guarded y = false) → (∀ l ∈ live, (w, l) ∉ c.ths → (s.thread c.coh w l).wait = .grow f false) →
        ∃ t, exec (.reggrow f) s = .next t ∧ onward t ∧ RegFrame s t none4 none3 none4 none2) ∧
      ((∃ y ∈ c.ths, guarded y = true) → goodCount n = true → s.opsOf c.coh w = [] → poisonMet x (usesOf f.sa 1) [] = none →
        (n ≤ x.alloc → ∃ t, exec (.reggrow f) s = .next t ∧ onward t ∧ (t.warp c.coh w).alloc = x.alloc ∧
          (t.warp c.coh w).readS f.dst.idx.toNat = (if f.dst.idx.toNat = 63 then 0 else BitVec.ofNat 64 x.alloc) ∧
          RegFrame s t none4 (fun k v r => k = c.coh ∧ v = w ∧ r = f.dst.idx.toNat) none4 none2) ∧
        (x.alloc < n → ∃ t o, exec (.reggrow f) s = .next t ∧ (t.core c.core).slots.getD c.slot none = none ∧
          (keeps t fun g => g.pc = c.pc ∧ g.waits = [s.nextOp] ∧ g.again = false) ∧
          FMap.find t.ops s.nextOp = some o ∧ o.kind = .grow n f.dst.idx.toNat ∧ o.coh = c.coh ∧ o.warp = w ∧
          (t.warp c.coh w).alloc = x.alloc ∧ RegFrame s t none4 none3 none4 none2)))

/-- Together: `Claims.WarpWaits` and `Claims.ConvergenceEnds`. -/
def Obligations.WarpWideWaits : Prop := Claims.WarpWaits ∧ Claims.ConvergenceEnds

/-- R122: the guard-holding threads of EXIT finish and the others go on at PC + 1, when no warp of the group has an active
handler or an undelivered trap and each keeps a live thread that does not wait: no register changes. -/
def Claims.ExitFinishesThreads : Prop :=
  ∀ (f : Fields) (c : Iss) (s : State), Ready (.exit f) f c s →
    (∀ x ∈ c.ths, HasThread s c.coh x.1 x.2) → noneParked c s →
    (∀ x ∈ c.on f s, (s.warp c.coh x.1).handler = false ∧ (s.warp c.coh x.1).trapq = [] ∧
      ∃ l ∈ (s.warp c.coh x.1).liveLanes, (x.1, l) ∉ c.on f s ∧ (s.thread c.coh x.1 l).st ≠ .waiting) →
    ∃ t, exec (.exit f) s = .next t ∧
      (∀ x ∈ c.on f s, (t.thread c.coh x.1 x.2).st = .finished) ∧
      (∀ x ∈ c.ths, x ∉ c.on f s → (t.thread c.coh x.1 x.2).pc = c.pc + 1) ∧
      RegFrame s t none4 none3 none4 none2

/-- R92, R104, R105: EXIT of the last live threads of a warp that do not wait, the group being theirs alone. With none left the
warp is done, and a trap still queued for it is a context fault of cause 4; where the others wait at one WCONV, their wait
ends and they go on past it; where they wait at several instructions, they take the convergence-conflict trap, each held at
its own PC. -/
def Claims.LastThreadsExit : Prop :=
  ∀ (f : Fields) (c : Iss) (s : State) (w : Nat), Ready (.exit f) f c s → c.on f s = c.ths → c.ths ≠ [] →
    (∀ x ∈ c.ths, x.1 = w ∧ x.2 < 32 ∧ HasThread s c.coh w x.2) → (s.warp c.coh w).handler = false →
    (∀ e g, e ≠ c.ent → FMap.find (s.core c.core).entries e = some g → g.coh = c.coh → ∀ y ∈ g.ths, y.1 ≠ w) →
    (∀ l, (c.coh, w, l) ∉ (s.core c.core).parked) →
    let left := (s.warp c.coh w).liveLanes.filter fun l => !c.ths.contains (w, l)
    let pcs := sortedNats (left.map fun l => (s.thread c.coh w l).pc.toNat)
    let done := fun (t : State) => ∀ x ∈ c.ths, (t.thread c.coh w x.2).st = .finished
    (left = [] → (s.warp c.coh w).trapq = [] → ∃ t, exec (.exit f) s = .next t ∧ done t ∧ (t.warp c.coh w).liveLanes = [] ∧
      RegFrame s t none4 none3 none4 none2) ∧
    (∀ r rest, left = [] → (s.warp c.coh w).trapq = r :: rest → (FMap.find s.ctxs (s.coh c.coh).ctx).isSome = true →
      ∃ t, exec (.exit f) s = .next t ∧ (t.ctx (s.coh c.coh).ctx).st = .faulted ∧
        (t.ctx (s.coh c.coh).ctx).faultrec = leNat (TrapRec.bytes { r with code := 0x84 } rest.length)) ∧
    (∀ p, left ≠ [] → (∀ l ∈ left, (s.thread c.coh w l).st = .waiting ∧ (s.thread c.coh w l).wait = .conv ∧
        (s.thread c.coh w l).pc = p) →
      ∃ t, exec (.exit f) s = .next t ∧ done t ∧ (∀ l ∈ left, (t.thread c.coh w l).pc = p + 1) ∧
        RegFrame s t none4 none3 none4 none2) ∧
    ((∀ l ∈ left, (s.thread c.coh w l).st = .waiting) → 1 < pcs.length → (s.warp c.coh w).trapq.length < 8 →
      ∃ t, exec (.exit f) s = .next t ∧ done t ∧
        (∀ l ∈ left, (t.thread c.coh w l).held = true ∧ (t.thread c.coh w l).tpc = (s.thread c.coh w l).pc) ∧
        (t.warp c.coh w).trapq = (s.warp c.coh w).trapq ++
          [{ code := 6, detail := pcs.length, pc := (s.thread c.coh w (left.headD 0)).pc, lmask := laneMask left }] ∧
        SameOutside s t ∧ SameScratch s t ∧ SameV s t none4 ∧ SameS s t none3 ∧ SameP s t none4 ∧ SameFlags s t none2)

/-- Together: `Claims.ExitFinishesThreads` and `Claims.LastThreadsExit`. -/
def Obligations.ThreadsExit : Prop := Claims.ExitFinishesThreads ∧ Claims.LastThreadsExit

/-! ## What comes before an effect -/

/-- R40 to R42, R48, R124, R127: how every instruction issues. A failing check of R48 traps before any other effect; a
deferred fabric failure traps next; a stalled instruction leaves the state as it is; a marked register it reads traps. -/
def Obligations.IssueChecks : Prop :=
  ∀ (i : Instr) (f : Fields) (c : Iss) (s : State), fieldsOf i = some f → curIss s = some c →
    (∀ n, illegal i f c s = some n → exec i s = .next (trapAll c { code := 1, detail := n } s)) ∧
    (∀ w t, illegal i f c s = none → deferred i c s = some (w, t) →
      exec i s = .next (trapAll c t (s.modWarp c.coh w fun x => { x with fabFail := none }))) ∧
    (illegal i f c s = none → deferred i c s = none → stalled i f c s = true → exec i s = .next s) ∧
    (∀ p, illegal i f c s = none → deferred i c s = none → stalled i f c s = false → marked i f c s = some p →
      exec i s = .next (trapAll c p.trapRec s))

/-- R125, R130, R131: a trap of a whole group whose warps have no active handler and room in their queues. Its threads are
held with the PC of the instruction as resume PC; each warp's queue takes one record; the slot is empty; nothing else a
program reads changes. -/
def Obligations.TrapIsTaken : Prop :=
  ∀ (c : Iss) (t : TrapRec) (s : State), c.ths ≠ [] → (∀ x ∈ c.ths, HasThread s c.coh x.1 x.2) →
    (∀ w ∈ c.warps, (s.warp c.coh w).handler = false ∧ (s.warp c.coh w).trapq.length < 8) →
    let t' := trapAll c t s
    (∀ x ∈ c.ths, (t'.thread c.coh x.1 x.2).tpc = c.pc ∧ (t'.thread c.coh x.1 x.2).held = true) ∧
    (∀ w, (t'.warp c.coh w).trapq = (s.warp c.coh w).trapq ++
      if w ∈ c.warps then
        [{ t with pc := c.pc, lmask := laneMask (c.lanesOf w), split := decide (1 < c.warps.length) }]
      else []) ∧
    (t'.core c.core).slots.getD c.slot none = none ∧
    SameOutside s t' ∧ SameScratch s t' ∧ SameV s t' none4 ∧ SameS s t' none3 ∧ SameP s t' none4 ∧ SameFlags s t' none2 ∧
    (∀ k, (t'.core k).mx = (s.core k).mx)

/-- R30, R31: vz, sz and pt read as their constants and discard writes; any other register reads back what was written, and
the registers beside it keep their values. -/
def Obligations.HardWiredRegisters : Prop :=
  ∀ (x : Warp) (h : Thread) (v : W32) (y : W64) (b : Bool),
    (∀ l, x.readV 255 l = 0 ∧ x.writeV 255 l v = x) ∧ x.readS 63 = 0 ∧ x.writeS 63 y = x ∧
    h.readP 7 = true ∧ h.writeP 7 b = h ∧
    (∀ r l r' l', r < 255 → l < 32 → (x.writeV r l v).readV r' l' = if r' = r ∧ l' = l then v else x.readV r' l') ∧
    (∀ r r', r < 63 → (x.writeS r y).readS r' = if r' = r then y else x.readS r') ∧
    (∀ p p', p < 7 → p' < 8 → (h.writeP p b).readP p' = if p' = p then b else h.readP p')

/-! ## Group 6: memory -/

/-- R243, R244, R270: the checks of one global and of one scratchpad access, in their order: canonical form, alignment,
translation; alignment, range. -/
def Claims.SingleAccessChecks : Prop :=
  ∀ (c : Iss) (s : State) (w : Nat),
    (∀ (need : Need) (ea : Nat),
      let aux := if need = .write then 1 else 0
      let tr := translate s c.core (s.coh c.coh).ctx ea need
      (canonical ea = false → accessGate c need ea w s = .trap { code := 3, detail := 1, addr := ea, aux }) ∧
      (canonical ea = true → ea % w ≠ 0 → accessGate c need ea w s = .trap { code := 4, detail := Nat.log2 w, addr := ea }) ∧
      (canonical ea = true → ea % w = 0 → ∀ n, tr = .fault n →
        accessGate c need ea w s = .trap { code := 3, detail := n, addr := ea, aux }) ∧
      (canonical ea = true → ea % w = 0 → ∀ k, tr = .ok k → ∃ u, accessGate c need ea w s = .pass u ∧
        RegFrame s u none4 none3 none4 none2)) ∧
    (∀ so : Int,
      (so % (w : Int) ≠ 0 → spGate c so w s = .trap { code := 4, detail := Nat.log2 w, addr := wrapN 64 so }) ∧
      (so % (w : Int) = 0 → so < 0 ∨ ((s.coh c.coh).scratchSize : Int) < so + w →
        spGate c so w s = .trap { code := 2, detail := 16, addr := wrapN 64 so }) ∧
      (so % (w : Int) = 0 → 0 ≤ so → so + w ≤ (s.coh c.coh).scratchSize → spGate c so w s = .pass s))

/-- R124, R243, R337, R347, R169: the checks of global accesses, atomics, contributions, mailbox instructions and context phases
change no register, flag or byte when they pass; they may acquire atomic sets (22 R416). So do the checks of an engine command,
where each of its own changes none. -/
def Claims.CheckFrames : Prop :=
  ∀ (f : Fields) (c : Iss) (s u : State),
    (∀ need ths ea w, globalGate c need ths ea w s = .pass u → GateFrame s u) ∧
    (∀ ths, atomGate c f ths s = .pass u → GateFrame s u) ∧
    (redcGate c f s = .pass u → GateFrame s u) ∧
    (∀ put, mbxGate c f put s = .pass u → GateFrame s u) ∧
    (∀ save, phaseGate save f c s = .pass u → u = s) ∧
    (∀ check accs irr, (∀ w x y, check w x = .pass y → GateFrame x y) →
      engGate c f check accs irr s = .pass u → GateFrame s u)

/-- Together: `Claims.SingleAccessChecks` and `Claims.CheckFrames`. -/
def Obligations.AccessChecks : Prop := Claims.SingleAccessChecks ∧ Claims.CheckFrames

/-- R269, R274, R275, R307, R310: LDS and LDK leave the bytes they read outstanding for their registers, when every offset is
aligned and in range. The LDS of a warp whose earlier acquire, or access that waits for one, holds the scratchpad back leaves its
request instead, which reads nothing yet. The model's own readings in it: log 17. -/
def Claims.ScratchLoads : Prop :=
  ∀ (f : Fields) (c : Iss) (s : State),
    let n := accWidth f.modn
    let h := s.coh c.coh
    (Ready (.lds f) f c s →
      let so := fun w l => soOf s c f true w l
      let bad := fun w => (c.lanesOn f s w).filter fun l =>
        h.scratchBad.any fun a => (so w l).toNat ≤ a && a < (so w l).toNat + n
      (∀ x ∈ c.on f s, so x.1 x.2 % (n : Int) = 0 ∧ 0 ≤ so x.1 x.2 ∧ so x.1 x.2 + n ≤ h.scratchSize) →
      Leaves (.lds f) f c s fun w =>
        let o := longOp (.lds f) f c s [] 0 w
        if spWaits s c.coh w then
          { o with
            kind := .load n (accSigned f.modn) false f.dst.idx.toNat, sp := true
            parts := [{ act := .load, line := spLine, reads := (c.lanesOn f s w).map fun l => (l, (so w l).toNat, n), late := true }] }
        else
          { o with
            kind := .calc ((c.lanesOn f s w).flatMap fun l =>
              loadV n (accSigned f.modn) f.dst.idx.toNat l (h.readSpN (so w l).toNat n)) 0
            marks := (bad w).flatMap fun l => markLane true f.dst.idx.toNat (memRegs f.modn) l 0x0F 3 0, sp := true }) ∧
    (Ready (.ldk f) f c s →
      let so := fun w l => soOf s c f false w l
      (∀ x ∈ ldkOrder c f s, so x.1 x.2 % (n : Int) = 0 ∧ 0 ≤ so x.1 x.2 ∧ so x.1 x.2 + n ≤ 2048) →
      Leaves (.ldk f) f c s fun w => longOp (.ldk f) f c s
        (((ldkOrder c f s).filter fun x => x.1 = w).map Prod.snd |>.flatMap fun l =>
          let v := argValue s c.coh (so w l).toNat n
          if f.dst.kind = .vec then loadV n false f.dst.idx.toNat l v else loadS n false f.dst.idx.toNat v) 0 w)

/-- R272, R274, R307, R310: STS writes each guard-holding thread's bytes; of several threads that write one byte the highest
(%warp, home lane) stands; every other byte of scratchpad, every register and all of memory keep their values. The STS of a warp
whose earlier acquire, or access that waits for one, holds the scratchpad back writes nothing yet: its bytes are outstanding; so
are those of a warp that names an offset of a lower one that waits. With none that waits all are written.
The model's own readings in it: log 17. -/
def Claims.ScratchStores : Prop :=
  ∀ (f : Fields) (c : Iss) (s : State), Ready (.sts f) f c s →
    let n := accWidth f.modn
    let so := fun (x : Nat × Nat) => soOf s c f true x.1 x.2
    let late := spLate c f so s
    let byte := fun (x : Nat × Nat) i =>
      BitVec.ofNat 8 (((s.warp c.coh x.1).readV (f.dst.idx.toNat + i / 4) x.2).toNat / 256 ^ (i % 4))
    (FMap.find s.cohorts c.coh).isSome = true →
    (∀ x ∈ c.on f s, so x % (n : Int) = 0 ∧ 0 ≤ so x ∧ so x + n ≤ (s.coh c.coh).scratchSize) →
    (∀ w ∈ c.warpsOn f s, spWaits s c.coh w = true → w ∈ late) ∧
    ((∀ w ∈ c.warpsOn f s, spWaits s c.coh w = false) → late = []) ∧
    ∃ t, exec (.sts f) s = .next t ∧ Advanced c s t ∧
      (∀ pre x post, threadOrder c f s = pre ++ x :: post → x.1 ∉ late → ∀ i, i < n →
        (∀ y ∈ post, y.1 ∉ late → (so x).toNat + i < (so y).toNat ∨ (so y).toNat + n ≤ (so x).toNat + i) →
        (t.coh c.coh).readSp ((so x).toNat + i) = byte x i) ∧
      (∀ k a, (k = c.coh → ∀ x ∈ c.on f s, x.1 ∉ late → a < (so x).toNat ∨ (so x).toNat + n ≤ a) →
        (t.coh k).readSp a = (s.coh k).readSp a) ∧
      (∀ w ∈ late, ∃ id o p, FMap.find t.ops id = some o ∧ s.nextOp ≤ id ∧ o.coh = c.coh ∧ o.warp = w ∧ o.sp = true ∧
        o.kind = .store ∧ o.parts = [p] ∧ p.late = true ∧ p.done = false ∧ p.act = .store ((c.lanesOn f s w).flatMap fun l =>
          cellsOfL (so (w, l)).toNat ((upto n).map (byte (w, l))))) ∧
      SameOutside s t ∧ SameSpecial s t ∧ SameV s t none4 ∧ SameS s t none3 ∧ SameP s t none4 ∧ SameFlags s t none2

/-- R274, R307, R310, R315: a scratchpad access that has had to wait, when its turn comes: a load is answered with the bytes
scratchpad holds then, a store writes its bytes and no other, an atomic applies its lanes' operations in order and answers each
with the value before. Memory keeps every byte. Before its turn it does nothing. -/
def Claims.ScratchTurns : Prop :=
  ∀ (op i : Nat) (o : Op) (p : Part) (s : State), FMap.find s.ops op = some o → o.parts[i]? = some p → o.sp = true →
    (FMap.find s.cohorts o.coh).isSome = true →
    let h := s.coh o.coh
    let event := match p.act with
      | .load => Instr.homeLoadRequest op i
      | .store _ => .storePerform op i
      | .atomic _ _ _ _ | .redc _ _ _ _ _ _ | .claim => .atomicPerform op i
    let acts := fun (vals : List (Nat × Nat)) (sp : State → Prop) => ∃ t, exec event s = .next t ∧ sp t ∧
      (∀ a, t.byte a = s.byte a) ∧ (o.long = true → ∃ o' p', FMap.find t.ops op = some o' ∧ o'.parts[i]? = some p' ∧
        p'.done = true ∧ p'.vals = vals ∧ o'.kind = o.kind)
    (partTurn s op o i p = false → exec event s = .next s) ∧
    (partTurn s op o i p = true →
      (p.act = .load → acts (p.reads.map fun r => (r.1, h.readSpN r.2.1 r.2.2)) fun t =>
        ∀ a, (t.coh o.coh).readSp a = h.readSp a) ∧
      (∀ bs, p.act = .store bs → acts [] fun t =>
        (∀ pre b post, bs = pre ++ b :: post → (∀ e ∈ post, e.1 ≠ b.1) → (t.coh o.coh).readSp b.1 = b.2) ∧
        ∀ a, (∀ b ∈ bs, b.1 ≠ a) → (t.coh o.coh).readSp a = h.readSp a) ∧
      (∀ aop ty off lanes, p.act = .atomic aop ty off lanes →
        let n := tyBytes ty
        let r := atomRun aop ty lanes (h.readSpN off n)
        acts r.2 fun t => (t.coh o.coh).readSpN off n = r.1 % 2 ^ (8 * n) ∧
          ∀ a, a < off ∨ off + n ≤ a → (t.coh o.coh).readSp a = h.readSp a))

/-- Together: `Claims.ScratchLoads` and `Claims.ScratchStores` and `Claims.ScratchTurns`. -/
def Obligations.ScratchAccesses : Prop := Claims.ScratchLoads ∧ Claims.ScratchStores ∧ Claims.ScratchTurns

/-- R307, R310, R315, R334, R335: ATOMS changes each thread's location to the new value of its operation, and the old value is
outstanding for the thread's register; stated for a thread whose bytes no other thread of the group touches. The ATOMS of a warp
whose scratchpad accesses an earlier acquire holds back changes nothing yet: each of its locations has its request. That the
scratchpad changes when ATOMS issues (log 17), and what a 32-bit operand gives under a 64-bit type (log 56), are the
model's choice. -/
def Obligations.ScratchAtomics : Prop :=
  ∀ (f : Fields) (c : Iss) (s : State), Ready (.atoms f) f c s →
    let n := tyBytes (atomTy f)
    let so := fun (x : Nat × Nat) => soOf s c f false x.1 x.2
    let old := fun x => (s.coh c.coh).readSpN (so x).toNat n
    let arg := fun (x : Nat × Nat) => atomOperands s c f false x.1 x.2
    let late := spLate c f so s
    (FMap.find s.cohorts c.coh).isSome = true →
    (∀ x ∈ c.on f s, so x % (n : Int) = 0 ∧ 0 ≤ so x ∧ so x + n ≤ (s.coh c.coh).scratchSize) →
    (∀ w ∈ c.warpsOn f s, spWaits s c.coh w = true → w ∈ late) ∧
    ((∀ w ∈ c.warpsOn f s, spWaits s c.coh w = false) → late = []) ∧
    ∃ t, exec (.atoms f) s = .next t ∧ Advanced c s t ∧
      (∀ pre x post, threadOrder c f s = pre ++ x :: post → x.1 ∉ late →
        (∀ y ∈ pre ++ post, (so y).toNat + n ≤ (so x).toNat ∨ (so x).toNat + n ≤ (so y).toNat) →
        (t.coh c.coh).readSpN (so x).toNat n =
          atomNew (atomOp f) (atomTy f) (old x) (arg x).1 (arg x).2 % 2 ^ (8 * n) ∧
        (discards f.dst = false → ∃ id o ws, FMap.find t.ops id = some o ∧ s.nextOp ≤ id ∧ o.coh = c.coh ∧ o.warp = x.1 ∧
          o.long = true ∧ o.kind = .calc ws 0 ∧ ∀ r ∈ loadV n false f.dst.idx.toNat x.2 (old x), r ∈ ws)) ∧
      (∀ k a, (k = c.coh → ∀ x ∈ c.on f s, x.1 ∉ late → a < (so x).toNat ∨ (so x).toNat + n ≤ a) →
        (t.coh k).readSp a = (s.coh k).readSp a) ∧
      (∀ w ∈ late, ∃ id o, FMap.find t.ops id = some o ∧ s.nextOp ≤ id ∧ o.coh = c.coh ∧ o.warp = w ∧ o.sp = true ∧
        o.kind = .atomic (atom64 f) (atomTy f % 2 = 1) false (if discards f.dst then none else some f.dst.idx.toNat) ∧
        o.long = !discards f.dst ∧ ∀ l ∈ c.lanesOn f s w, ∃ p ∈ o.parts, p.late = true ∧ p.done = false ∧ ∃ lanes,
          p.act = .atomic (atomOp f) (atomTy f) (so (w, l)).toNat lanes ∧ (l, arg (w, l)) ∈ lanes) ∧
      SameOutside s t ∧ SameSpecial s t ∧ SameV s t none4 ∧ SameS s t none3 ∧ SameP s t none4 ∧ SameFlags s t none2

/-- R271 to R273, R301, R310, R313, R334: a global access whose checks pass leaves one operation per executing warp, with one
request for each line (for each address of an atomic), asked under the warp's view; a request that an acquire of its own warp
holds back has to wait; no register, no byte of memory changes when it issues. The model's own readings in it: log 17, log 19
and log 101. -/
def Obligations.GlobalAccessIssue : Prop :=
  ∀ (f : Fields) (c : Iss) (s u : State),
    let n := accWidth f.modn
    let at_ := fun w (l : Nat) => (l, eaOf u c f true w l, keyOf u c (eaOf u c f true w l))
    let view := fun w => (u.warp c.coh w).view
    let held := fun w line => acqHolds u c.coh w (reachOf line)
    let ask := fun (p : Part) => (p.act, p.line, p.va, p.vreq, p.ret, p.reads)
    let loads := fun (ls : Nat → List Nat) (scal : Bool) (i : Instr) w (x : Op) =>
      x.kind = .load n (accSigned f.modn) scal f.dst.idx.toNat ∧ x.long = true ∧ x.acq = memAcq f ∧ x.vacc = view w ∧
      x.dests = destsOf (footOf i).writes (laneMask (c.lanesOn f u w)) ∧
      x.wins = (c.lanesOn f u w).map (fun l => (l, f.la.toNat)) ∧
      x.parts.map ask = (requestsOf ((ls w).map (at_ w)) fun line va here =>
        { act := .load, line, va, vreq := view w, ret := memRet f, reads := here.map fun e => (e.1, e.2.2, n) }).map ask ∧
      (∀ p ∈ x.parts, held w p.line = true → p.late = true ∧ p.done = false)
    let stores := fun (ls : Nat → List Nat) (bytes : Nat → Nat → List Byte) w (x : Op) =>
      x.kind = .store ∧ x.long = false ∧ x.vacc = view w ∧ x.dests = [] ∧
      x.parts = requestsOf ((ls w).map (at_ w)) fun line va here =>
        { act := .store (here.flatMap fun e => cellsOfL e.2.2 (bytes w e.1)), line, va, vreq := view w, ret := memRet f
          late := held w line }
    let atomics := fun (ls : Nat → List Nat) (scal : Bool) w (x : Op) =>
      x.kind = .atomic (atom64 f) (atomTy f % 2 = 1) scal (if discards f.dst then none else some f.dst.idx.toNat) ∧
      x.long = !discards f.dst ∧ x.acq = memAcq f ∧ x.vacc = view w ∧ x.parts = atomParts u c f scal w (ls w) ∧
      ∀ p ∈ x.parts, p.late = held w p.line
    let one := fun (_ : Nat) => [0]
    let ea := fun (t : Nat × Nat) => eaOf s c f true t.1 t.2
    (Ready (.ld f) f c s → globalGate c .read (threadOrder c f s) ea n s = .pass u →
      Starts (.ld f) f c s u (loads (c.lanesOn f u) false (.ld f))) ∧
    (Ready (.sld f) f c s → globalGate c .read (warpOrder c f s) ea n s = .pass u →
      Starts (.sld f) f c s u (loads one true (.sld f))) ∧
    (Ready (.st f) f c s → globalGate c .write (threadOrder c f s) ea n s = .pass u →
      Starts (.st f) f c s u (stores (c.lanesOn f u) fun w l => imageV (u.warp c.coh w) f.dst.idx.toNat l n)) ∧
    (Ready (.sst f) f c s → globalGate c .write (warpOrder c f s) ea n s = .pass u →
      Starts (.sst f) f c s u (stores one fun w _ => leBytes n ((u.warp c.coh w).readS f.dst.idx.toNat).toNat)) ∧
    (Ready (.atom f) f c s → atomGate c f (threadOrder c f s) s = .pass u →
      Starts (.atom f) f c s u (atomics (c.lanesOn f u) false)) ∧
    (Ready (.satom f) f c s → atomGate c f (warpOrder c f s) s = .pass u →
      Starts (.satom f) f c s u (atomics one true))

/-- R276, R277, R310, R337, R347 to R349: REDC, MBXPUT, MBXGET, PREF and EVICT once their checks pass. REDC leaves one
contribution per lane, MBXPUT its reservation with the message taken, MBXGET its claim; PREF leaves requests for lines not yet
held; a contribution or prefetch that an acquire of its warp holds back has to wait; EVICT acts at once on the caches and
changes no register and no byte of memory. -/
def Obligations.OtherAccessIssue : Prop :=
  ∀ (f : Fields) (c : Iss) (s u : State),
    let va := fun w => eaOf u c f false w 0
    let key := fun w => keyOf u c (va w)
    let view := fun w => (u.warp c.coh w).view
    (Ready (.redc f) f c s → redcGate c f s = .pass u → Starts (.redc f) f c s u fun w x =>
      let ready := ((u.warp c.coh w).readS f.dst.idx.toNat).toNat
      let count := ((u.warp c.coh w).readS (f.dst.idx.toNat + 1)).toNat % 65536
      x.kind = .redc ∧ x.long = false ∧ x.parts = (c.lanesOn f u w).map fun l =>
        let k := keyOf u c (eaOf u c f false w l)
        { act := .redc (atomOp f) (atomTy f) k (atomOperands u c f false w l).1 count (keyOf u c ready), line := lineOf k
          va := eaOf u c f false w l, vreq := view w, ret := memRet f, late := acqHolds u c.coh w (reachOf (lineOf k)) }) ∧
    (Ready (.mbxput f) f c s → mbxGate c f true s = .pass u → Starts (.mbxput f) f c s u fun w x =>
      x.kind = .mbxput (key w) (mbxSlots u (key w)) (mbxLog u (key w))
        ((upto 8).flatMap fun m => leBytes 8 ((u.warp c.coh w).readS (f.sb.idx.toNat + m)).toNat) none 0 ∧
      x.long = false ∧ x.parts = [] ∧ x.vacc = view w) ∧
    (Ready (.mbxget f) f c s → mbxGate c f false s = .pass u → Starts (.mbxget f) f c s u fun w x =>
      x.kind = .mbxget (key w) (mbxSlots u (key w)) (mbxLog u (key w)) f.dst.idx.toNat f.sb.idx.toNat none 0 ∧
      x.long = true ∧ x.acq = some (max 1 (memScope f)) ∧
      x.parts = [{ act := .claim, line := lineOf (key w), va := va w, vreq := view w, ret := memRet f }]) ∧
    (Ready (.pref f) f c s → ∃ t, exec (.pref f) s = .next t ∧ Advanced c s t ∧ RegFrame s t none4 none3 none4 none2 ∧
        ∀ w ∈ c.warpsOn f s, ∀ e ∈ softLanes c f s w,
          let dev := memScope f = 1 || memRet f = 3
          prefHit s c.core (s.warp c.coh w).view dev { act := .load, line := lineOf e.2.2 } = true ∨
            ∃ id o, FMap.find t.ops id = some o ∧ s.nextOp ≤ id ∧ o.kind = .prefetch dev ∧ o.coh = c.coh ∧ o.warp = w ∧
              ∃ p ∈ o.parts, p.line = lineOf e.2.2 ∧ p.act = .load ∧ p.done = false ∧
                p.late = acqHolds s c.coh w (reachOf p.line)) ∧
    (Ready (.evict f) f c s → ∃ t, exec (.evict f) s = .next t ∧ Advanced c s t ∧ RegFrame s t none4 none3 none4 none2 ∧
      (f.modn = 1 → ∀ w ∈ c.warpsOn f s, ∀ e ∈ softLanes c f s w, ∀ x ∈ (t.core c.core).l1, x.line ≠ lineOf e.2.2))

/-! ## Homes and completion -/

/-- R247, R249, R301, R305, R310: a load request that is performed at its home (its own die's or a host line: the home; another
die's or a peer's: the remote-data cache missed) is answered with the bytes memory holds then, one value per lane; memory
keeps every byte; the lease leaves the line's write stamp as it was. No request performs while an earlier acquire of its warp,
whose scope reaches its class, is outstanding. That a request that had to wait asks under the view its warp has when it leaves is
log 101's. -/
def Obligations.HomeLoads : Prop :=
  ∀ (op i : Nat) (o : Op) (p : Part) (s : State), FMap.find s.ops op = some o → o.parts[i]? = some p → o.sp = false →
    ((∃ e ∈ s.ops, e.1 < op ∧ e.2.coh = o.coh ∧ e.2.warp = o.warp ∧ ∃ scope, e.2.acq = some scope ∧ reachOf p.line ≤ scope) →
      ∀ event ∈ [Instr.homeLoadRequest op i, .remoteDataCacheFill op i, .storePerform op i, .atomicPerform op i,
        .redcContribution op i], exec event s = .next s) ∧
    (let view := if p.late then max p.vreq (s.warp o.coh o.warp).view else p.vreq;
      p.act = .load → partTurn s op o i p = true → o.long = true →
      (∀ r ∈ p.reads, p.line * 128 ≤ r.2.1 ∧ r.2.1 + r.2.2 ≤ p.line * 128 + 128) →
      (p.late = true → serving (s.core o.core).l1 p.line view = none) →
      (isRemote (dieOf o.core) p.line = true → serving (s.rdcOf (dieOf o.core)) p.line view = none) →
      ∃ t, (if isRemote (dieOf o.core) p.line then exec (.remoteDataCacheFill op i) s else exec (.homeLoadRequest op i) s) =
          .next t ∧
        (∀ a, t.byte a = s.byte a) ∧ (t.home p.line).1 = (s.home p.line).1 ∧
        ∃ o', FMap.find t.ops op = some o' ∧ o'.parts[i]? = some { p with
          vreq := view, done := true, vals := p.reads.map fun r => (r.1, s.num r.2.1 r.2.2) } ∧ (s.home p.line).1 ≤ o'.rd)

/-- R303, R313, R316, R338: a store, an atomic and a counted contribution performed at their home, of a task that is in no
set. Memory holds the new bytes and no other byte changes (a contribution may also complete its round); the line's write stamp
and lease end become its stamp, above every lease of the line and at or above the view it was asked under (of a request that had
to wait, by log 101, the view its warp has now). -/
def Claims.HomeWrites : Prop :=
  ∀ (op i : Nat) (o : Op) (p : Part) (s : State), FMap.find s.ops op = some o → o.parts[i]? = some p →
    partTurn s op o i p = true → o.sp = false → (s.ctx (s.coh o.coh).ctx).decls = [] →
    let stamp := max ((s.home p.line).2 + 1) (if p.late then max p.vreq (s.warp o.coh o.warp).view else p.vreq)
    (∀ bs, p.act = .store bs → ∃ t, exec (.storePerform op i) s = .next t ∧
      (∀ a, t.byte a = (s.setBytes bs).byte a) ∧ t.home p.line = (stamp, stamp)) ∧
    (∀ aop ty key lanes, p.act = .atomic aop ty key lanes → ∃ t, exec (.atomicPerform op i) s = .next t ∧
      (∀ a, t.byte a = (s.setBytes (cellsOf key (tyBytes ty) (atomRun aop ty lanes (s.num key (tyBytes ty))).1)).byte a) ∧
      t.home p.line = (stamp, stamp)) ∧
    (∀ rop ty key x n ready, p.act = .redc rop ty key x n ready → roundRoom s p.line = true →
      (∀ r, roundOf s p.line = some r → r.got + 1 < r.n) → (roundOf s p.line = none → 1 < n) →
      ∃ t, exec (.redcContribution op i) s = .next t ∧
        (∀ a, t.byte a = (s.setBytes (cellsOf key (tyBytes ty) (atomNew rop ty (s.num key (tyBytes ty)) x 0))).byte a) ∧
        t.home p.line = (stamp, stamp) ∧
        ((roundOf t p.line).map Round.got) = some (((roundOf s p.line).map Round.got).getD 0 + 1))

/-- R316, R338, R517: the last contribution of a round closes it and writes 1 to its ready word, 64 bits, when that lies apart from
the location; a ready word that the fabric does not deliver keeps its bytes and leaves its failure for the warp (log 75). -/
def Claims.RoundCompletion : Prop :=
  ∀ (op i : Nat) (o : Op) (p : Part) (s : State) (rop ty key x n ready : Nat) (r : Round),
    FMap.find s.ops op = some o → o.parts[i]? = some p → partTurn s op o i p = true →
    (s.ctx (s.coh o.coh).ctx).decls = [] → p.act = .redc rop ty key x n ready → roundOf s p.line = some r →
    r.got + 1 = r.n → (key + tyBytes ty ≤ r.ready ∨ r.ready + 8 ≤ key) →
    ∃ t, exec (.redcContribution op i) s = .next t ∧ roundOf t p.line = none ∧
      t.num key (tyBytes ty) = atomNew rop ty (s.num key (tyBytes ty)) x 0 % 2 ^ (8 * tyBytes ty) ∧
      (readyLoss s p.line r.ready = none → t.num r.ready 8 = 1 ∧
        ∀ a, (a < key ∨ key + tyBytes ty ≤ a) → (a < r.ready ∨ r.ready + 8 ≤ a) → t.byte a = s.byte a) ∧
      (∀ cause, readyLoss s p.line r.ready = some cause → HasWarp s o.coh o.warp →
        (∀ a, (a < key ∨ key + tyBytes ty ≤ a) → t.byte a = s.byte a) ∧
        (t.warp o.coh o.warp).fabFail = some ((s.warp o.coh o.warp).fabFail.getD
          { code := 0x0E, detail := cause * 65536 + peerOf (lineOf r.ready), pc := o.pc, addr := p.va, imprecise := true }))

/-- R419: a store, performed at its home, of a task that holds the declared set it writes to. The first write to a line
records the line's bytes while the core's undo store has room, and a line recorded already is written without; with no room
an unsealed task's write is held for a seal, and a sealed one's performs without a record; a write held when a wound came,
or one that would be held under a wound, is discarded: memory keeps every byte. That a sealed task records while there is room,
and writes without a record when there is none, is the model's choice (log 19). -/
def Claims.HeldSetWrites : Prop :=
  ∀ (op i : Nat) (o : Op) (p : Part) (s : State) (bs : List Host.Cell), FMap.find s.ops op = some o →
    o.parts[i]? = some p → partTurn s op o i p = true → o.sp = false → p.act = .store bs →
    (FMap.find s.cohorts o.coh).isSome = true →
    let h := s.coh o.coh
    ((s.ctx h.ctx).decls.any fun d => d.heldBy o.coh && d.meets (p.va, 1)) = true →
    let vreq := if p.late then max p.vreq (s.warp o.coh o.warp).view else p.vreq
    let stamp := max ((s.home p.line).2 + 1) vreq
    let recorded := h.undo.any fun u => u.line = p.line
    let room := decide (undoUsed s h.core < Config.undoMax)
    let performs := fun (undo : List Undo) => ∃ t, exec (.storePerform op i) s = .next t ∧
      (∀ a, t.byte a = (s.setBytes bs).byte a) ∧ t.home p.line = (stamp, stamp) ∧ (t.coh o.coh).undo = undo
    let keeps := fun (t : State) => exec (.storePerform op i) s = .next t ∧ (∀ a, t.byte a = s.byte a) ∧
      (t.coh o.coh).undo = h.undo
    (recorded = true → performs h.undo) ∧
    (recorded = false → (h.wounded && p.heldSeal) = false →
      (room = true → performs ({ line := p.line, bytes := s.lineBytes p.line } :: h.undo)) ∧
      (room = false → h.sealed ≠ .unsealed → performs h.undo) ∧
      (room = false → h.sealed = .unsealed → h.wounded = false → ∃ t o', keeps t ∧
        (t.coh o.coh).sealReq = some (h.sealReq.getD .undoFull) ∧ FMap.find t.ops op = some o' ∧
        o'.parts[i]? = some { p with vreq, heldSeal := true })) ∧
    (recorded = false → h.wounded = true → p.heldSeal = true ∨ room = false ∧ h.sealed = .unsealed →
      ∃ t, keeps t ∧ (∀ o', FMap.find t.ops op = some o' → (o'.parts[i]?.map Part.done) = some true))

/-- R416 to R418, R420: touching a declared set. A task that holds it goes on; a free set with no older task waiting is
acquired, and the views of the task's warps rise to its release stamp; the group waits for a set that an older, a sealed, a
wounded or an ended task holds, or an older one waits for; a younger unsealed holder is wounded first: it leaves its core, its
streams stop, and only what replies stays, cancelled. A sealed task that reaches a set it does not hold traps, with the set's
number and the first address touching it (the lowest of an engine command). A group that waits is blocked at its instruction.
That a wounded task leaves its core at the wound (log 46), and which sets govern an access that waits (log 84), is the model's
choice. -/
def Claims.SetAcquisition : Prop :=
  ∀ (c : Iss) (s : State),
    let ctx := (s.coh c.coh).ctx
    (∀ (d0 d : DeclSet), (s.ctx ctx).decls.find? (fun e => e.num = d0.num) = some d →
      let older := (setWaiters s ctx d.num).any fun k => k < c.coh
      let waits := fun (u : State) => ∃ t o, touchSet c d0 s = .block t [u.nextOp] ∧ FMap.find t.ops u.nextOp = some o ∧
        o.kind = .setWait d.num ∧ o.coh = c.coh ∧ o.pc = c.pc ∧ o.ths = c.ths ∧ t.cohorts = u.cohorts ∧ t.mem = u.mem ∧
        t.ctxs = u.ctxs ∧ ∀ g, FMap.find (u.core c.core).entries c.ent = some g →
          FMap.find (t.core c.core).entries c.ent = some { g with since := some (g.since.getD (u.ctx ctx).decls.length) }
      (d.holder = some c.coh → touchSet c d0 s = .pass s) ∧
      (d.holder = none → older = false → ∃ u, touchSet c d0 s = .pass u ∧
        (u.ctx ctx).decls = ((s.ctx ctx).decls.map fun e => if e.num = d.num then { e with holder := some c.coh } else e) ∧
        (∀ w, HasWarp s c.coh w → (u.warp c.coh w).view = max (s.warp c.coh w).view d.release) ∧ u.mem = s.mem ∧
        u.ops = s.ops ∧ SameV s u none4 ∧ SameS s u none3 ∧ SameP s u none4) ∧
      (d.holder = none → older = true → waits s) ∧
      (∀ k, d.holder = some k → k ≠ c.coh →
        let yields := c.coh < k ∧ (s.coh k).sealed = .unsealed ∧ (s.coh k).wounded = false ∧ (s.coh k).over = false
        (¬ yields → waits s) ∧
        (yields → waits (wound k s) ∧ (wound k s).mem = s.mem ∧
          ((FMap.find s.cohorts k).isSome = true → ((wound k s).coh k).wounded = true ∧
            ((wound k s).coh k).status = .wounded ∧
            ∀ e ∈ ((wound k s).coh k).streams, e.2.stopped = true) ∧
          ∀ e ∈ (wound k s).ops, e.2.coh = k → e.2.replies = true ∧ e.2.held = none ∧ e.2.cancelled = true))) ∧
    (∀ (eng : Bool) (as_ : List Acc) (d : DeclSet) (r : List DeclSet), (s.coh c.coh).sealed ≠ .unsealed →
      ((reachedSets s ctx as_).filter fun d => !d.heldBy c.coh && d.governs s c) = d :: r →
      ∃ addr, gateTouch eng c as_ s = .trap { code := 5, detail := d.num, addr } ∧
        (eng = false → ∃ pre a post, as_ = pre ++ a :: post ∧ (∀ x ∈ pre, d.meets x = false) ∧ d.meets a = true ∧ addr = a.1) ∧
        (eng = true →
          let reached := fun (b : Nat) => d.base ≤ b ∧ b < d.base + d.len ∧ ∃ a ∈ as_, a.1 ≤ b ∧ b < a.1 + a.2
          reached addr ∧ ∀ b, reached b → addr ≤ b)) ∧
    (∀ (f : Fields) (u : State) (ws : List Nat),
      let t := leaveBlocked c ws true u
      (Ready (.ld f) f c s →
        globalGate c .read (threadOrder c f s) (fun t => eaOf s c f true t.1 t.2) (accWidth f.modn) s = .block u ws →
        exec (.ld f) s = .next t ∧ RegFrame u t none4 none3 none4 none2) ∧
      (Ready (.st f) f c s →
        globalGate c .write (threadOrder c f s) (fun t => eaOf s c f true t.1 t.2) (accWidth f.modn) s = .block u ws →
        exec (.st f) s = .next t ∧ RegFrame u t none4 none3 none4 none2))

/-- Together: `Claims.HomeWrites` and `Claims.RoundCompletion` and `Claims.HeldSetWrites` and `Claims.SetAcquisition`. -/
def Obligations.WritesAtTheHome : Prop :=
  Claims.HomeWrites ∧ Claims.RoundCompletion ∧ Claims.HeldSetWrites ∧ Claims.SetAcquisition

/-- R42, R305: a long instruction whose requests have all replied completes: its registers hold its results in order, its
flags are raised, the operation is gone, and its registers are no longer pending; nothing is written elsewhere. -/
def Obligations.LongCompletion : Prop :=
  ∀ (op : Nat) (o : Op) (s : State), FMap.find s.ops op = some o → o.plainLong = true → o.replied = true →
    (∀ e ∈ s.ops, e.2.coh = o.coh → e.2.isWait = false) → HasWarp s o.coh o.warp →
    ∃ t, exec (.longInstructionCompletion op) s = .next t ∧ FMap.find t.ops op = none ∧
      (∀ id, id ≠ op → FMap.find t.ops id = FMap.find s.ops id) ∧
      (∀ r l, (t.warp o.coh o.warp).readV r l = ((s.regWs o.coh o.warp o.results).warp o.coh o.warp).readV r l) ∧
      (∀ r, (t.warp o.coh o.warp).readS r = ((s.regWs o.coh o.warp o.results).warp o.coh o.warp).readS r) ∧
      (t.warp o.coh o.warp).fpflags = ((s.warp o.coh o.warp).fpflags |||
        match o.kind with
        | .calc _ fl => fl
        | _ => 0) ∧
      RegFrame s t (fun k w _ _ => k = o.coh ∧ w = o.warp) (fun k w _ => k = o.coh ∧ w = o.warp) none4
        (fun k w => k = o.coh ∧ w = o.warp)

/-- R248, R252, R307, R310, R312, R517: an eviction of the line that goes next in the retention order of its set moves its stamps
into its slice's floor, and memory keeps every byte; no other line of the set leaves. A poll that is due reads the word at its
home: when the condition holds the WAITC returns, else the next poll follows 256 cycles later. A WAITC that an acquire of its warp
or an access of it to the word's line has held back is registered, or returns, once those before it are done. The model's own
readings in it: log 10; and log 27, by which a poll of a home that cannot be reached comes again 256 cycles later. -/
def Obligations.EvictionsAndPolls : Prop :=
  ∀ (s : State),
    (∀ (line : Nat) (h : HLine), s.l2.find? (fun x => x.line = line) = some h → isHost line = false →
      ((s.l2Victim line).any fun x => x.line = line) = true →
      ∃ t, exec (.l2Eviction line) s = .next t ∧ (∀ a, t.byte a = s.byte a) ∧ (∀ x ∈ t.l2, x.line ≠ line) ∧
        h.w ≤ (t.home line).1 ∧ h.e ≤ (t.home line).2) ∧
    (∀ (line : Nat), ((s.l2Victim line).any fun x => x.line = line) = false → exec (.l2Eviction line) s = .next s) ∧
    (∀ (op : Nat) (o : Op) (key ty cond cmp dst due : Nat) (poll : Bool), FMap.find s.ops op = some o →
      o.kind = .waitc key ty cond cmp dst poll due →
      let line := lineOf key
      let now := (s.core o.core).cycle
      let met := condHolds cond (readTy ty (s.num key (tyBytes ty))) (readTy ty cmp) = true ∧ s.unreachable line = false
      let goesOn := fun (poll : Bool) =>
        (¬ met → ∃ t o', exec (.waitcPoll op) s = .next t ∧ FMap.find t.ops op = some o' ∧ o'.held = none ∧
          o'.kind = .waitc key ty cond cmp dst poll (now + 256) ∧ RegFrame s t none4 none3 none4 none2) ∧
        (met → HasWarp s o.coh o.warp → ∃ t, exec (.waitcPoll op) s = .next t ∧ FMap.find t.ops op = none ∧
          (dst ≠ 63 → (∀ e ∈ s.ops, e.2.coh = o.coh → e.1 = op ∨ e.2.isWait = false) →
            (t.warp o.coh o.warp).readS dst = BitVec.ofInt 64 (readTy ty (s.num key (tyBytes ty)))))
      (o.held = none → (poll = false ∨ now < due → exec (.waitcPoll op) s = .next s) ∧
        (poll = true → due ≤ now → goesOn true)) ∧
      (∀ r, o.held = some r →
        let before := ∃ e ∈ s.ops, e.1 < op ∧ e.2.coh = o.coh ∧ e.2.warp = o.warp ∧
          ((∃ scope, e.2.acq = some scope ∧ r ≤ scope) ∨ e.2.holdsLine line = true)
        (before → exec (.waitcPoll op) s = .next s) ∧ (¬ before → goesOn (isHost line || !monitorFree s line))))

/-! ## The engine port -/

/-- R279, R280, R310: what accepting a command does: the warp's command is outstanding under the core's engine sequence number,
which then counts on; its future register and the vector registers it writes are pending; no register, no byte of memory or
scratchpad changes, and no thread moves. A command one of whose global operands an acquire of its warp holds back is not accepted
yet, and takes no number; it is accepted, under the view its warp then has, once the acquires before it are done. -/
def Obligations.EngineAcceptance : Prop :=
  ∀ (c : Iss) (w : Nat) (dst : Operand) (vecs : List RegUse) (lanes : BitVec 32) (cmd : EngCmd) (s : State),
    (FMap.find s.cores c.core).isSome = true →
    let t := startEng c w dst vecs lanes cmd s
    (∃ o, FMap.find t.ops s.nextOp = some o ∧ o.kind = .eng cmd ∧ o.coh = c.coh ∧ o.warp = w ∧ o.core = c.core ∧
      o.pc = c.pc ∧ o.busy = true ∧ o.fut = some (s.core c.core).engSeq.toNat ∧
      o.dests = destsOf (usesOf dst 1 ++ vecs) lanes ∧ o.vacc = (s.warp c.coh w).view) ∧
    t.nextOp = s.nextOp + 1 ∧ (t.core c.core).engSeq = (s.core c.core).engSeq + 1 ∧
    (∀ k, k ≠ c.core → t.core k = s.core k) ∧ t.cohorts = s.cohorts ∧ t.mem = s.mem ∧ t.ctxs = s.ctxs ∧
    (∀ id, id ≠ s.nextOp → FMap.find t.ops id = FMap.find s.ops id) ∧
    (∀ (rs : List Nat) (id : Nat) (o : Op), FMap.find s.ops id = some o →
      let u := holdCommand c w id rs s
      ((∀ r ∈ rs, acqHolds s c.coh w r = false) → u = s) ∧
      ((∃ r ∈ rs, acqHolds s c.coh w r = true) →
        FMap.find u.ops id = some { o with fut := none, held := some (rs.foldl min 3) } ∧
        (u.core c.core).engSeq = (s.core c.core).engSeq - 1 ∧ u.cohorts = s.cohorts ∧ u.mem = s.mem)) ∧
    (∀ (id r : Nat) (o : Op) (cmd : EngCmd), FMap.find s.ops id = some o → o.kind = .eng cmd → o.held = some r →
      (FMap.find s.cores o.core).isSome = true →
      let before := ∃ e ∈ s.ops, e.1 < id ∧ e.2.coh = o.coh ∧ e.2.warp = o.warp ∧ ∃ scope, e.2.acq = some scope ∧ r ≤ scope
      (before → exec (.engineCommandCompletion id) s = .next s) ∧
      (¬ before → ∃ u, exec (.engineCommandCompletion id) s = .next u ∧ FMap.find u.ops id = some { o with
          fut := some (s.core o.core).engSeq.toNat, held := none, vacc := (s.warp o.coh o.warp).view } ∧
        (u.core o.core).engSeq = (s.core o.core).engSeq + 1 ∧ u.cohorts = s.cohorts ∧ u.mem = s.mem))

/-- R278, R279, R284 to R291, R298, R429, R431, R440, R503 to R506, R508: a command of groups 7, 11 and 12 is accepted once
its checks pass: each executing warp starts its command, in ascending order, and the group goes on at PC + 1. That RFENCE
and TWFENCE drop the cached entries at acceptance (log 40), and that sampling commands and RAYQ read their operands then
(log 18), that TSPAWN reserves slots of the overflow ring then (log 42), and that what a check reads raises the view before
acceptance (log 63), is the model's choice. -/
def Claims.CommandIssue : Prop :=
  ∀ (f : Fields) (c : Iss) (s u : State),
    let startsThen := fun (i : Instr) (one : Nat → State → State) (after : State → State) =>
      exec i s = .next (leaveNext c f.bnd (after (forEach (c.warpsOn f u) one (useWindows c u))))
    let starts := fun (i : Instr) (one : Nat → State → State) => startsThen i one fun t => t
    let b := useWindows c u
    (Ready (.acopy f) f c s →
      engGate c f (if copyXf f = 0 then plainGate c f else xformGate c f) (copyAccs c f) (copyDir f = 1 || copyDir f = 3) s =
        .pass u →
      starts (.acopy f) fun w t =>
        let q := copyCmd c f w t
        holdCommand c w q.1.nextOp ((copyAccs c f t w).flatMap (accReach t c)) (withPeers q.1.nextOp (peerParts t c (copyAccs c f t w))
          (startPlain c f w q.2 q.1))) ∧
    (Ready (.agath f) f c s → engGate c f (listGate true false c f) (listAccs false c f) false s = .pass u →
      starts (.agath f) (startLists true false c f)) ∧
    (Ready (.ascat f) f c s → engGate c f (listGate false false c f) (listAccs false c f) true s = .pass u →
      starts (.ascat f) (startLists false false c f)) ∧
    (Ready (.ablkg f) f c s → engGate c f (listGate true true c f) (listAccs true c f) false s = .pass u →
      starts (.ablkg f) (startLists true true c f)) ∧
    (Ready (.ablks f) f c s → engGate c f (listGate false true c f) (listAccs true c f) true s = .pass u →
      starts (.ablks f) (startLists false true c f)) ∧
    (Ready (.axpose f) f c s → engGate c f (xposeGate c f) (fun _ _ => []) false s = .pass u →
      starts (.axpose f) fun w t => startPlain c f w (.xpose (lo32 (opSA t c f w)) (lo32 (opSB t c f w)) (xposeRows t c f w)
        (xposeCols t c f w) (f.immBits 1 0)) t) ∧
    (Ready (.subs f) f c s → engGate c f (subsGate c f) (fun s w => [(opSA s c f w, 64)]) false s = .pass u →
      (c.warpsOn f u).length ≤ 1 → (subsStores u c f = true → (u.coh c.coh).sealed ≠ .unsealed) →
      starts (.subs f) (startSubs c f)) ∧
    (Ready (.rfence f) f c s → u = s → starts (.rfence f) fun w t =>
      startPlain c f w .rfence (t.modCore c.core fun k => { k with recs := [] })) ∧
    (Ready (.tspawn f) f c s → engGate c f (spawnGate c f)
        (fun s w => if spawnTiles s c f w = 0 then [] else [(spawnTiles s c f w, 64)]) true s = .pass u →
      starts (.tspawn f) (startSpawn c f)) ∧
    (Ready (.wdnext f) f c s → engGate c f (wdnextGate c f) (fun s w => [(opSA s c f w, 64)]) true s = .pass u →
      starts (.wdnext f) fun w t => withPeers t.nextOp (peerParts t c [(opSA b c f w, 64)])
        (startPlain c f w (.wdnext (opSA b c f w) (lo32 (opSB b c f w))) t)) ∧
    (Ready (.launch f) f c s → engGate c f (fun w s =>
        (alignGate 7 (opSA s c f w) s).andThen (readGate c w (opSA s c f w, 128))) (fun s w => [(opSA s c f w, 128)]) true s =
        .pass u →
      starts (.launch f) (startLaunchCmd c f)) ∧
    (Ready (.texs f) f c s → engGate c f (sampleGate 2 planTexs c f) (sampleAccs planTexs c f) false s = .pass u →
      startsThen (.texs f) (startSample planTexs c f) (dropBad c.core (groupTables c f b) (b.coh c.coh).ctx)) ∧
    (Ready (.texl f) f c s → engGate c f (sampleGate (if f.modn = 1 then 8 else 4) (planTexl f) c f)
        (sampleAccs (planTexl f) c f) false s = .pass u →
      startsThen (.texl f) (startSample (planTexl f) c f) (dropBad c.core (groupTables c f b) (b.coh c.coh).ctx)) ∧
    (Ready (.texg f) f c s → engGate c f (sampleGate 2 (planTexg f) c f) (sampleAccs (planTexg f) c f) false s = .pass u →
      startsThen (.texg f) (startSample (planTexg f) c f) (dropBad c.core (groupTables c f b) (b.coh c.coh).ctx)) ∧
    (Ready (.texq f) f c s → engGate c f (fun w s => (runsGate c f 1 true w s).andThen
        (descGate c f texDescBytes (texFault (s.hasCap (fnOf (s.coh c.coh).ctx) 2)) w))
        (fun s w => [(opSA s c f w, texDescBytes)]) false s = .pass u →
      starts (.texq f) fun w t => startTex c f w (c.lanesOn f b w) ((c.lanesOn f b w).flatMap fun l => quadWrites f l
          (queryLevel (texDesc b w) ((b.warp c.coh w).readV f.sb.idx.toNat l).toNat)) false
          (peerParts t c [(opSA b c f w, texDescBytes)]) { s := t }) ∧
    (Ready (.texd f) f c s → engGate c f (texdGate c f) (texdAccs c f) false s = .pass u →
      startsThen (.texd f) (startTexd c f) (dropBad c.core ((c.warpsOn f b).map (opSA b c f)) (b.coh c.coh).ctx)) ∧
    (Ready (.twfence f) f c s → u = s → starts (.twfence f) fun w t =>
      startPlain c f w .twfence (t.modCore c.core fun k => { k with wts := [] })) ∧
    (Ready (.rayq f) f c s → engGate c f (rayGate c f) (rayqAccs c f) false s = .pass u →
      starts (.rayq f) (startRayq c f))

/-- R284 to R289, R291, R429, R440, R446, R454, R464, R467 to R469, R485, R487 to R490, R503 to R505, R508: what a command leaves
when it starts: its operation, with the operands of its registers and of scratchpad, the stream it subscribes, the launch it makes;
no register changes, nor a byte of memory. A sampling command has its results then: each covered thread the colour of its taps as
memory holds them, TEXD the texel of its block, TEXQ what the descriptor says. A copy, a change, a handle, a cursor number and a
query are what the fields of their operands say. Stated for gathers, scatters and RAYQ that no acquire holds back (held ones:
EngineAcceptance). The model's own readings in it: log 18; log 87 for the descriptor, which the checks have read; log 42 for the
slots that TSPAWN reserves, and log 63 for what a check reads before acceptance, which raises the view. -/
def Claims.CommandStarts : Prop :=
  ∀ (f : Fields) (c : Iss) (w : Nat) (s : State),
    let x := s.warp c.coh w
    let h := s.coh c.coh
    let a := (s.srcS c.coh w f.sa).toNat
    let b := (x.readS f.sb.idx.toNat).toNat
    let b1 := (x.readS (f.sb.idx.toNat + 1)).toNat
    let ret := f.immBits 25 24
    let quiet := fun (t : State) => (∀ a, t.byte a = s.byte a) ∧ SameV s t none4 ∧ SameS s t none3 ∧ SameP s t none4 ∧
      SameScratch s t ∧ SameFlags s t none2
    let starts := fun (t : State) (cmd : EngCmd) (p : Op → Prop) =>
      quiet t ∧ Accepted c w s t fun o => o.kind = .eng cmd ∧ p o
    let plain := fun (o : Op) => o.dests = destsOf (usesOf f.dst 1) 0
    let free := fun (accs : List Acc) => ∀ r ∈ accs.flatMap (accReach s c), acqHolds s c.coh w r = false
    let int := fun (n : Nat) => signExt 32 (n % 2 ^ 32)
    -- copies
    (let q := copyCmd c f w s
      let xf := f.immBits 5 4
      (xf = 0 → q = (s, .copy (f.immBits 3 0) a b (b1 % 2 ^ 32) ret)) ∧
      (xf ≠ 0 → quiet q.1 ∧ q.2 = if xf = 1 then
          .planes (recordOf s c w a) (f.immBits 6 6) (if f.immBits 23 16 = 0 then 256 else f.immBits 23 16) (b % 2 ^ 32) (int b1)
            (int (b1 / 2 ^ 32)) ret
        else .cv32 (recordOf s c w a) (f.immBits 3 0 = 0) (b % 2 ^ 32) (int b1) (int (b1 / 2 ^ 32)) ret)) ∧
    -- changes, handles, cursors and queries
    (cursorOf s c f w = a % 1024 ∧ ∀ l,
      let pair := fun (o : Operand) => match o.kind with
        | .vec => (x.readV o.idx.toNat l).toNat + 2 ^ 32 * (x.readV (o.idx.toNat + 1) l).toNat
        | .scalar | .imm | .karg | .pred | .acc | .special | .none => (s.srcS c.coh w o).toNat
      let handle := handleOf s c f w l
      handle = pair f.sa ∧ (∀ op,
        let world := if op = 0 then a % 256 else handle / 2 ^ 56 % 256
        let value := (changeOf s c f op w l).value
        changeOf s c f op w l = { world, op, comp := if op < 2 then 0 else f.immBits 25 16, ord := f.immBits 15 0, coh := h.cidx
                                  thread := 32 * w + l, seq := 0, handle := if op = 0 then 0 else handle, value } ∧
        (op ≠ 2 → value = []) ∧
        (op = 2 → worldFailed s h.ctx world = false →
          let log := compLog s h.ctx world (f.immBits 25 16)
          (log ≤ 2 → value = leBytes (2 ^ log) (s.srcV c.coh w l f.sb).toNat) ∧ (log = 3 → value = leBytes 8 (pair f.sb)) ∧
          (4 ≤ log → value = h.readSpL (s.srcV c.coh w l f.sb).toNat (2 ^ log))))) ∧
    (∀ world gen i, world < 256 → gen < 2 ^ 24 → i < 2 ^ 32 → let n := mkHandle world gen i
      handleWorld n = world ∧ handleGen n = gen ∧ handleIdx n = i) ∧
    (∀ bs : List Byte, bs.length = 512 →
      let q := parseQuery bs
      let byte := fun (i : Nat) => (bs.getD i 0).toNat
      q.world = byte 290 ∧ (∀ k < 1024, q.req.testBit k = (byte (k / 8)).testBit (k % 8) ∧
        q.excl.testBit k = (byte (128 + k / 8)).testBit (k % 8)) ∧
      q.ret = (upto (byte 288 + 256 * byte 289)).map fun i => fieldN bs (256 + 2 * i) 2) ∧
    -- gathers and scatters
    (∀ gather block, free (listAccs block c f s w) →
      let lo := b % 2 ^ 32
      let n := b1 % 2 ^ 32
      let int := fun (i : Nat) => signExt 32 (h.readSpN i 4)
      let bad := h.scratchBad.any fun i => lo ≤ i && i < lo + 32 + 4 * n
      starts (startLists gather block c f w s)
        (.lists (recordOf s c w a) gather block (b / 2 ^ 32 % 2 ^ 32) (f.immBits 2 0) ((upto 6).map fun i => int (lo + 4 * i))
          (if bad then [] else (upto n).map fun i => int (lo + 32 + 4 * i)) ret)
        fun o => plain o ∧ o.soft = bad) ∧
    -- streams
    (let r := streamDesc s c f w
      let t := startSubs c f w s
      quiet t ∧ ((FMap.find s.cohorts c.coh).isSome = true → ∃ y, FMap.find (t.coh c.coh).streams (streamNo f) = some y ∧
        y.src = recordOf r.1 c w r.2.srcrec ∧ y.dst.isSome = decide (r.2.dstrec ≠ 0) ∧ y.ring = r.2.ring ∧
        y.slotBytes = 4096 * r.2.slotsz ∧ y.nslot = r.2.nslot ∧ y.count = r.2.count ∧ y.op = s.nextOp ∧ y.warp = w ∧
        y.slots = List.replicate r.2.nslot (.empty, 0) ∧ y.nextFill = 0 ∧ y.nextTake = 0 ∧ y.finished = 0 ∧
        y.stopped = false) ∧
      ∃ o, FMap.find t.ops s.nextOp = some o ∧ o.kind = .eng (.subs (streamNo f)) ∧ o.coh = c.coh ∧ o.warp = w ∧
        o.fut = some (s.core c.core).engSeq.toNat ∧ plain o) ∧
    -- records and launches
    (∀ n u l,
      let r := if b1 = 0 then (s, []) else warpRead c w 0 b1 64 s
      let count := b / 2 ^ 32 % 2 ^ 32
      let stored := min count ((Config.binStoreBytes - binStoreUsed r.1 (dieOf c.core)) / n.recsize)
      (r.1.ctx h.ctx).nodes.find? (fun n => n.addr = a) = some n →
      takeSlots c.core h.ctx n.idx n.recsize (count - stored) r.1 = .ok (u, l) →
      starts (startSpawn c f w s) (.tspawn n.idx (b % 2 ^ 32) count (if b1 = 0 then [] else usableTiles r.2) l 0) plain) ∧
    (let t := startLaunchCmd c f w s
      let waits := fun (n : Option Nat) => Accepted c w s t fun o => o.kind = .eng (.launch n) ∧ plain o ∧
        o.rd = (s.home (lineOf (keyOf s c a))).1
      (s.readVirt h.ctx a 128 = none → waits none ∧ t.launches = s.launches) ∧
      (∀ bs, s.readVirt h.ctx a 128 = some bs → waits (some s.seqNext) ∧ t.seqNext = s.seqNext + 1 ∧
        ∃ l, FMap.find t.launches s.seqNext = some l ∧ l.ctx = h.ctx ∧ l.addr = a ∧ l.prio = fieldN bs 21 1)) ∧
    -- samples
    (let o := readerOp s c w
      let hit := fun (va : Nat) => tableHit s c.core h.ctx va
      let samples := fun (t : State) (lanes : List Nat) (val : Nat → List W32) (bad : Bool) =>
        starts t (.tex (lanes.flatMap fun l => (val l).zipIdx.map fun v => RegW.v (f.immBits 7 0 + v.2) l v.1) lanes.length 0 0)
          fun o => o.dests = destsOf (usesOf f.dst 1 ++ quadVd f) (laneMask lanes) ∧ o.soft = bad
      let d := texDesc s w
      (∀ plan : Planner,
        let lanes := c.lanesOn f s w
        let taps := fun (l : Nat) => plan d fun i => valF (x.readV (f.sb.idx.toNat + i) l)
        let table := if d.format = 0 then hit d.wtable else some { ctx := h.ctx, addr := 0, weights := [] }
        ∀ e, table = some e → (∀ l ∈ lanes, ∀ g ∈ (taps l).accs d, CanRead s o true g.1 g.2) →
        samples (startSample plan c f w s) lanes (fun l => (planColour s o d e.weights (taps l)).map codeF)
          (d.format = 0 && e.bad)) ∧
      (∀ e, hit a = some e →
        let addr := fun (l : Nat) => (x.readV f.sb.idx.toNat l).toNat + 2 ^ 32 * (x.readV (f.sb.idx.toNat + 1) l).toNat
        let pos := fun (l : Nat) => (x.readV (f.sb.idx.toNat + 2) l).toNat
        (∀ l ∈ c.lanesOn f s w, CanRead s o true (addr l) 8) →
        samples (startTexd c f w s) (c.lanesOn f s w)
          (fun l => (lantern e.weights (bytesAt s o (addr l) 8) (pos l % 4) (pos l / 4 % 4)).map codeF) e.bad) ∧
      (∀ lanes val ps, samples (startTex c f w lanes (lanes.flatMap fun l => quadWrites f l (val l)) false ps { s }) lanes
        val false)) ∧
    -- rays
    (free (rayqAccs c f s w) → starts (startRayq c f w s)
      (.rayq (parseBvh (descBytes s w)) ((c.lanesOn f s w).map fun l => (l, (upto 8).map fun i => x.readV (f.sb.idx.toNat + i) l))
        (f.modn = 1) (f.immBits 20 0) ret) plain)

/-- R465 to R469, R471 to R475: a command of group 10 is accepted once its checks pass: each executing warp starts it, its
changes, query or handles read from the state at hand, and the group goes on at PC + 1. -/
def Claims.WorldCommandIssue : Prop :=
  ∀ (f : Fields) (c : Iss) (s u : State),
    let starts := fun (i : Instr) (one : Nat → State → State) =>
      exec i s = .next (leaveNext c f.bnd (forEach (c.warpsOn f u) one (useWindows c u)))
    let b := useWindows c u
    let changes := fun (op : Nat) (i : Instr) =>
      Ready i f c s → engGate c f (fun w s => laneGate c f (fun w l s =>
          changeGate c f op (changeWorld s c f op w l) w l s) w s) (fun _ _ => []) true s = .pass u →
      starts i fun w t => (startEng c w f.dst (if op = 0 then usesOf f.sb 2 else []) (laneMask (c.lanesOn f b w))
        (.queueChange ((c.lanesOn f b w).map fun l => changeOf b c f op w l)
          (if op = 0 then some f.sb.idx.toNat else none)) t).modOp t.nextOp fun o => { o with soft := changesSoft b c f op w }
    let cursor := fun w => cursorOf b c f w
    let onWorld := fun w => (cursorWorld b (c.ctx b) c.coh (cursor w)).getD 0
    let handles := fun w => (c.lanesOn f b w).map fun l => (l, handleOf b c f w l)
    changes 0 (.wspawn f) ∧ changes 1 (.wkill f) ∧ changes 2 (.waddc f) ∧ changes 3 (.wremc f) ∧
    (Ready (.wqry f) f c s → engGate c f (queryGate c f) (fun s w => [(opSA s c f w, 512)]) false s = .pass u →
      starts (.wqry f) fun w t =>
        let r := warpRead c w 0 (opSA b c f w) 512 t
        startPlain c f w (.wqry (parseQuery r.2).world (parseQuery r.2)) r.1) ∧
    (Ready (.wnext f) f c s → engGate c f (fun w s => (alignGate 6 (lo32 (opSB s c f w)) s).andThen fun s =>
        (rangeGate c (lo32 (opSB s c f w)) 256 s).andThen (cursorGate c f w)) (fun _ _ => []) false s = .pass u →
      starts (.wnext f) fun w t => startPlain c f w (.wnext (onWorld w) (cursor w) (lo32 (opSB b c f w))) t) ∧
    (Ready (.wclose f) f c s → engGate c f (cursorGate c f) (fun _ _ => []) false s = .pass u →
      starts (.wclose f) fun w t => startPlain c f w (.wclose (onWorld w) (cursor w)) t) ∧
    (Ready (.wres f) f c s → engGate c f (fun w s => (alignGate 4 (lo32 (opSB s c f w)) s).andThen fun s =>
        (rangeGate c (lo32 (opSB s c f w)) 512 s).andThen
          (laneGate c f (fun w l s => worldGate c (handleWorld (handleOf s c f w l)) s) w)) (fun _ _ => []) false s =
        .pass u →
      starts (.wres f) fun w t => startPlain c f w (.wres (handles w) (lo32 (opSB b c f w))) t) ∧
    (Ready (.wcol f) f c s → engGate c f (laneGate c f (fun w l s =>
        let n := handleWorld (handleOf s c f w l)
        (worldGate c n s).andThen fun s =>
          if worldFailed s (c.ctx s) n then .pass s else compGate c n (f.immBits 9 0) s)) (fun _ _ => []) false s = .pass u →
      starts (.wcol f) fun w t => startEng c w f.dst (usesOf f.sb 2) (laneMask (c.lanesOn f b w))
        (.wcol (handles w) (f.immBits 9 0) f.sb.idx.toNat) t)

/-- Together: `Claims.CommandIssue` and `Claims.CommandStarts` and `Claims.WorldCommandIssue`. -/
def Obligations.CommandsAreAccepted : Prop := Claims.CommandIssue ∧ Claims.CommandStarts ∧ Claims.WorldCommandIssue

/-- R262, R264, R279, R280, R283 to R290, R414, R430, R431, R497: a command of group 7, 11 or 12 that is neither cancelled nor
failed, at its completion: its future holds its COUNT, CAUSE and CODE, and the command is gone. A plain copy leaves the bytes
it read at its destination, in scratchpad or in memory, and no other byte changes; a copy or gather into scratchpad changes no
byte of memory and none outside its region; a gather leaves each element's code at its place; a copy or scatter out of it
changes none of it, a scatter no byte of memory but its elements'. TSPAWN ends when its records arrive. WDNEXT takes its item
at the table and writes its index. RAYQ writes one record a ray, nothing else. -/
def Claims.CommandEffects : Prop :=
  ∀ (op : Nat) (o : Op) (s : State) (seq : Nat), Running s op o → o.fut = some seq → o.soft = false →
    o.cancelled = false → o.fabricFail = none →
    let h := s.coh o.coh
    let sound := fun (off n : Nat) => ∀ a ∈ h.scratchBad, a < off ∨ off + n ≤ a
    let ends := fun (v : W64) (mem : Nat → Byte) (sp : Nat → Byte) =>
      ∃ t, exec (.engineCommandCompletion op) s = .next t ∧ FMap.find t.ops op = none ∧
        FutureIs o t v ∧ (∀ a, t.byte a = mem a) ∧ ∀ a, (t.coh o.coh).readSp a = sp a
    let spWith := fun (off : Nat) (bs : List Byte) (a : Nat) =>
      if off ≤ a ∧ a < off + bs.length then bs.getD (a - off) 0 else h.readSp a
    let ok := futureValue seq 0 0 0
    let vas := fun (va n : Nat) => (chunksOf va n).map Prod.fst
    let moves := fun (va : Nat) (bs : List Byte) => CanWrite s o va bs.length →
      Steady s o (fun a => ∃ c ∈ cellsAt s o va bs, c.1 = a) (vas va bs.length) →
      ends ok (s.setBytes (cellsAt s o va bs)).byte h.readSp
    let inside := fun (cmd : EngCmd) (off n : Nat) => o.kind = .eng cmd →
      ∃ t, exec (.engineCommandCompletion op) s = .next t ∧ FMap.find t.ops op = none ∧ (∀ a, t.byte a = s.byte a) ∧
        ∀ a, a < off ∨ off + n ≤ a → (t.coh o.coh).readSp a = h.readSp a
    let here := fun (t : Tensor) (places : List (Nat × Nat × List Int)) => places.filter fun q => t.inBounds q.2.2
    let gathers := fun (t : Tensor) (places : List (Nat × Nat × List Int)) (through : Bool) (count : Nat) =>
      (∀ q ∈ here t places, CanRead s o through (t.addr q.2.2) t.elemBytes) →
      ∃ u, exec (.engineCommandCompletion op) s = .next u ∧ FutureIs o u (futureValue seq count 0 0) ∧
        ∀ q ∈ places, (spElem o t q.1 q.2.1 { s := u }).1 = if t.inBounds q.2.2 then codeAt s o t q.2.2 else 0
    let scatters := fun (t : Tensor) (places : List (Nat × Nat × List Int)) =>
      let addrs := (here t places).map fun q => t.addr q.2.2
      let cells := fun (q : Nat × Nat × List Int) =>
        cellsAt s o (t.addr q.2.2) (leBytes t.elemBytes (spElem o t q.1 q.2.1 { s }).1)
      (∀ q ∈ here t places, sound (q.1 + q.2.1 * t.bits / 8) t.elemBytes) → (∀ a ∈ addrs, CanWrite s o a t.elemBytes) →
      Steady s o (fun a => ∃ q ∈ here t places, ∃ c ∈ cells q, c.1 = a) (addrs.flatMap fun a => a :: vas a t.elemBytes) →
      ∃ u, exec (.engineCommandCompletion op) s = .next u ∧ FutureIs o u ok ∧
        (∀ a, (u.coh o.coh).readSp a = h.readSp a) ∧
        (∀ a, (∀ q ∈ here t places, ∀ c ∈ cells q, c.1 ≠ a) → u.byte a = s.byte a) ∧
        (t.bits ≠ 4 → ∀ pre q post, here t places = pre ++ q :: post → ∀ c ∈ cells q,
          (∀ r ∈ q :: post, ∀ e ∈ cells r, e.1 = c.1 → r = q ∧ e = c) → u.byte c.1 = c.2)
    -- copies
    (∀ a b len ret, o.kind = .eng (.copy 0 a b len ret) → CanRead s o true a len →
      ends ok s.byte (spWith (lo32 b) (bytesAt s o a len))) ∧
    (∀ a b len ret, o.kind = .eng (.copy 1 a b len ret) → sound (lo32 b) len → moves a (h.readSpL (lo32 b) len)) ∧
    (∀ a b len ret, o.kind = .eng (.copy 2 a b len ret) → sound (lo32 a) len →
      ends ok s.byte (spWith (lo32 b) (h.readSpL (lo32 a) len))) ∧
    (∀ a b len ret, o.kind = .eng (.copy 3 a b len ret) → CanRead s o true a len → moves b (bytesAt s o a len)) ∧
    (∀ t role nblk off b0 b1 ret, inside (.planes t role nblk off b0 b1 ret) off (nblk * planeBlock t.type) ∧
      (o.kind = .eng (.planes t role nblk off b0 b1 ret) → planeType t.type = true →
        let at_ := fun (i m k : Nat) => planeCoord role (planeBlockAt role b0 b1 i) m k
        (∀ i < nblk, ∀ m < 128, ∀ k < 32, t.inBounds (at_ i m k) = true → CanRead s o true (t.addr (at_ i m k)) t.elemBytes) →
        ∃ u, exec (.engineCommandCompletion op) s = .next u ∧ FutureIs o u ok ∧ ∀ i < nblk, ∀ m < 128, ∀ k < 32,
          planeCode (u.coh o.coh) t.type (off + i * planeBlock t.type) m k =
            if t.inBounds (at_ i m k) then codeAt s o t (at_ i m k) else 0)) ∧
    (∀ t toScratch off b0 b1 ret,
      let places := (upto t.blockLen).map fun n =>
        (off, cv32Pos t (blockIndex t.blk n), t.inBlock [b0, b1] (blockIndex t.blk n))
      (dimD t.blk 0 % 32 = 0 → inside (.cv32 t true off b0 b1 ret) off (t.packed t.blockLen)) ∧
      (o.kind = .eng (.cv32 t toScratch off b0 b1 ret) →
        (toScratch = true → dimD t.blk 0 % 32 = 0 → gathers t places true 0) ∧ (toScratch = false → scatters t places))) ∧
    -- gathers and scatters
    (∀ t block d dim base idx ret, inside (.lists t true block d dim base idx ret) d
      (if block then idx.length * blockStep t else t.packed idx.length)) ∧
    (∀ t gather block d dim base idx ret, o.kind = .eng (.lists t gather block d dim base idx ret) →
      let places := (idx.zipIdx).flatMap fun i => itemPlaces t block d i.2 (listCoord dim base i.1)
      (gather = true → (∀ i ∈ idx, (itemFault s o.core h.ctx .read t block (listCoord dim base i)).1 = 0) →
        gathers t places false idx.length) ∧
      (gather = false → scatters t places)) ∧
    -- tasks
    (∀ node off n ts l k, o.kind = .eng (.tspawn node off n ts l k) →
      (k < n → exec (.engineCommandCompletion op) s = .next s) ∧ (n ≤ k → ends (futureValue seq n 0 0) s.byte h.readSp)) ∧
    (∀ table off, o.kind = .eng (.wdnext table off) →
      let r := engRead o 0 table 64 { s, rd := o.rd, via := .home }
      let l := untaken o table (fieldN r.1 8 4) (fieldN r.1 8 4) 0 256 r.2
      let ts := itemTiles o (fieldN r.1 0 8) l.1 l.2
      let won := pickItem ts.2.s o.core (ts.2.s.coh o.coh).ctx ts.1
      ts.2.bad = false →
      (won = none → ends ok s.byte (spWith off (leBytes 4 0xFFFFFFFF))) ∧
      (∀ i j k, won = some i → translate s o.core h.ctx (table + 16) .write = .ok j →
        translate s o.core h.ctx (table + 64 + i / 8) .write = .ok k → s.unreachable (lineOf j) = false →
        s.unreachable (lineOf k) = false →
        ends ok (s.setBytes (cellsOfL k [s.byte k ||| BitVec.twoPow 8 (i % 8)] ++
          cellsOfL j (leBytes 8 (fieldN r.1 16 8 + 1)))).byte (spWith off (leBytes 4 i)))) ∧
    -- rays
    (∀ d rays any off ret, o.kind = .eng (.rayq d rays any off ret) →
      ∃ t, exec (.engineCommandCompletion op) s = .next t ∧ FMap.find t.ops op = none ∧ (∀ a, t.byte a = s.byte a) ∧
        ∀ a, (∀ r ∈ rays, a < off + 32 * r.1 ∨ off + 32 * r.1 + 32 ≤ a) → (t.coh o.coh).readSp a = h.readSp a) ∧
    (∀ d l codes any off ret, o.kind = .eng (.rayq d [(l, codes)] any off ret) →
      let q := castRay o d ret any codes none { s, rd := o.rd }
      let st := q.2.e.status o 0
      ends (futureValue seq 1 st.1 st.2) s.byte (spWith (off + 32 * l) (rayRecord q.1 q.2)))

/-- R444, R449, R467, R472 to R475: a command of group 10 at its completion. It waits for its turn at Rotunda; of a failed
world it answers status 7 and writes nothing; WNEXT writes its cursor's next chunk's record, WRES an answer for each handle,
and WCLOSE is CORRUPT where its pins cannot be released. No other byte of scratchpad changes. The model's own readings: log 43
(structures out of form), log 44 (failed worlds by thread). -/
def Claims.WorldCommandEffects : Prop :=
  ∀ (op : Nat) (o : Op) (s : State) (seq : Nat), Running s op o → o.fut = some seq → o.soft = false →
    let h := s.coh o.coh
    let ctx := h.ctx
    let turn := fun (cmd : EngCmd) => o.kind = .eng cmd ∧ worldTurn s op o cmd = true
    let ends := fun (count cause : Nat) (mem : Nat → Byte) (sp : Nat → Byte) =>
      ∃ t, exec (.engineCommandCompletion op) s = .next t ∧ FMap.find t.ops op = none ∧
        FutureIs o t (futureValue seq count cause 0) ∧ (∀ a, t.byte a = mem a) ∧
        ∀ a, (t.coh o.coh).readSp a = sp a
    let spWith := fun (off : Nat) (bs : List Byte) (a : Nat) =>
      if off ≤ a ∧ a < off + bs.length then bs.getD (a - off) 0 else h.readSp a
    (∀ cmd, o.kind = .eng cmd → cmd.worldKeys ctx ≠ [] → worldTurn s op o cmd = false →
      exec (.engineCommandCompletion op) s = .next s) ∧
    (∀ n q, turn (.wqry n q) →
      (worldFailed s ctx n = true → ends 0 7 s.byte h.readSp) ∧
      (worldFailed s ctx n = false → ∀ u k stamp, openCursor s ctx n (some o.coh) q = .ok u k stamp →
        Running u op o → ∃ t, exec (.engineCommandCompletion op) s = .next t ∧ (∀ a, t.byte a = u.byte a) ∧
          FutureIs o t (futureValue seq k 0 0) ∧ stamp ≤ (t.warp o.coh o.warp).view)) ∧
    (∀ n cur off, turn (.wnext n cur off) →
      (worldFailed s ctx n = true → ends 0 7 s.byte h.readSp) ∧
      (worldFailed s ctx n = false → ∀ w x r, FMap.find s.worlds (worldKey ctx n) = some w →
        FMap.find w.cursors cur = some x → rotOf s ctx n = some r →
        (r.nthChunk x.taken x.pins = some none → ends 0 0 s.byte h.readSp) ∧
        (∀ ch b, r.nthChunk x.taken x.pins = some (some ch) → r.record x.q cur ch = some b →
          ends 1 0 s.byte (spWith off b)))) ∧
    (∀ n cur, turn (.wclose n cur) →
      (worldFailed s ctx n = true → ends 0 7 s.byte h.readSp) ∧
      (worldFailed s ctx n = false → closeCursor? (worldKey ctx n) cur s = none → ends 0 7 s.byte h.readSp) ∧
      (∀ u, worldFailed s ctx n = false → closeCursor? (worldKey ctx n) cur s = some u → Running u op o →
        ∃ t, exec (.engineCommandCompletion op) s = .next t ∧ (∀ a, t.byte a = u.byte a) ∧
          FutureIs o t (futureValue seq 0 0 0))) ∧
    (∀ hs off, turn (.wres hs off) → (hs.map Prod.fst).Nodup →
      let as_ := hs.map fun x => (x.1, answerHandle s ctx x.2)
      ∃ t, exec (.engineCommandCompletion op) s = .next t ∧ (∀ a, t.byte a = s.byte a) ∧
        FutureIs o t (futureValue seq ((as_.filter fun a => a.2.1 = 0).length) ((as_.head?.map fun a => a.2.1).getD 0) 0) ∧
        (∀ a ∈ as_, (t.coh o.coh).readSpL (off + 16 * a.1) 16 = leBytes 4 a.2.2.1 ++ leBytes 1 a.2.1 ++ leBytes 1 0 ++
          leBytes 2 ((a.2.2.2.map Tab.num).getD 0) ++ leBytes 8 ((a.2.2.2.map Tab.version).getD 0)) ∧
        ∀ b, (∀ x ∈ hs, b < off + 16 * x.1 ∨ off + 16 * x.1 + 16 ≤ b) → (t.coh o.coh).readSp b = h.readSp b) ∧
    (∀ hs comp vd, turn (.wcol hs comp vd) → (hs.map Prod.fst).Nodup → vd + 1 < 255 → (∀ x ∈ hs, x.1 < 32) →
      let sts := hs.map fun x => (columnOf s ctx x.2 comp).1
      ∃ t, exec (.engineCommandCompletion op) s = .next t ∧ (∀ a, t.byte a = s.byte a) ∧
        FutureIs o t (futureValue seq ((sts.filter fun x => x = 0).length) (sts.headD 0) 0) ∧
        (∀ a, (t.coh o.coh).readSp a = h.readSp a) ∧
        ∀ x ∈ hs, (t.warp o.coh o.warp).readV vd x.1 = BitVec.ofNat 32 (columnOf s ctx x.2 comp).2 ∧
          (t.warp o.coh o.warp).readV (vd + 1) x.1 = BitVec.ofNat 32 ((columnOf s ctx x.2 comp).2 / 2 ^ 32))

/-- R446, R450, R467 to R469: a queuing command at its turn numbers the changes of its threads whose world has not failed and
appends all of their entries or none: COUNT is the entries appended, CAUSE 4 where there is no room, 7 where a structure is
out of form or the first thread's world has failed. WSPAWN leaves each handle in sb and sb + 1, 0 to a
thread that appended nothing. The model's own readings: entry n's place, n modulo the
capacity, and what is out of form (log 43); log 44. -/
def Claims.QueuedChanges : Prop :=
  ∀ (s : State) (ctx : Nat),
    -- the command
    (∀ op o seq cs vh, Running s op o → o.kind = .eng (.queueChange cs vh) → o.fut = some seq → o.soft = false →
      worldTurn s op o (.queueChange cs vh) = true → (s.coh o.coh).ctx = ctx →
      let failed := fun (c : Change) => worldFailed s ctx c.world
      let q := queueAll s ctx (numberChanges s o.coh o.warp (cs.filter fun c => !failed c))
      let first := (cs.head?.map failed).getD false
      let ends := fun (u : State) (count cause : Nat) (handle : Change → Nat) (p : State → Prop) =>
        ∃ t, exec (.engineCommandCompletion op) s = .next t ∧ FMap.find t.ops op = none ∧ (∀ a, t.byte a = u.byte a) ∧
          FutureIs o t (futureValue seq count cause 0) ∧ p t ∧
          ∀ v, vh = some v → v + 1 < 255 → (cs.map fun c => c.thread % 32).Nodup → ∀ c ∈ cs,
            (t.warp o.coh o.warp).readV v (c.thread % 32) = BitVec.ofNat 32 (handle c) ∧
            (t.warp o.coh o.warp).readV (v + 1) (c.thread % 32) = BitVec.ofNat 32 (handle c / 2 ^ 32)
      (q = .corrupt → ends s 0 7 (fun _ => 0) fun _ => True) ∧
      (q = .full → ends s 0 (if first then 7 else 4) (fun _ => 0) fun _ => True) ∧
      (∀ u done hi, q = .ok u done hi → Running u op o →
        ends u (done.map Change.entries).sum (if first then 7 else 0)
          (fun c => ((done.find? fun d => d.thread = c.thread).map Change.handle).getD 0) fun t =>
          hi ≤ (t.warp o.coh o.warp).hst ∧ ((done.map fun d => d.thread % 32).Nodup → ∀ d ∈ done,
            HasThread u o.coh o.warp (d.thread % 32) →
            (t.thread o.coh o.warp (d.thread % 32)).seq = (u.thread o.coh o.warp (d.thread % 32)).seq + 1))) ∧
    -- the changes of one world
    (∀ n live, live ≠ [] → (∀ c ∈ live, c.world = n) → queueAll s ctx live = queueOn s ctx n live) ∧
    (∀ n live r, rotOf s ctx n = some r →
      let room := r.room (live.map Change.entries).sum
      (room = none ∨ Rot.reserveAll live r = none → queueOn s ctx n live = .corrupt) ∧
      (room = some false → Rot.reserveAll live r ≠ none → queueOn s ctx n live = .full) ∧
      (room = some true → Rot.reserveAll live r = some none → queueOn s ctx n live = .full) ∧
      (∀ x done tail, room = some true → Rot.reserveAll live r = some (some (x, done)) → x.bad = false →
        x.field 160 8 = some tail →
        let entries := done.flatMap Change.bytes
        let place := fun (j : Nat) => x.geo.slot (tail + j)
        let qtail := x.geo.desc + 160
        ∀ (key : Nat → Nat),
          let cells := (entries.zipIdx.flatMap fun e => cellsOfL (key (place e.2)) e.1) ++
            cellsOfL (key qtail) (leBytes 8 (tail + entries.length))
          let vas := qtail :: (upto entries.length).map place
          (∀ va ∈ vas, translateDev x.s x.ctx va .write = .ok (key va)) → SteadyDev x.s x.ctx (fun a => ∃ e ∈ cells, e.1 = a) vas →
          (∀ j < entries.length, place j % 32 = 0 ∧ x.inside (place j) 32 = true) → qtail % 8 = 0 → x.inside qtail 8 = true →
          ∃ u hi, queueOn s ctx n live = .ok u done hi ∧ ∀ a, u.byte a = (x.s.setBytes cells).byte a)) ∧
    -- the index of a spawn
    (∀ r : Rot, (∀ live, (∀ c ∈ live, c.op ≠ 0) → Rot.reserveAll live r = some (some (r, live))) ∧
      (∀ c live x h y done, c.op = 0 → r.reserve = some (some (x, h)) → Rot.reserveAll live x = some (some (y, done)) →
        Rot.reserveAll (c :: live) r = some (some (y, { c with handle := h } :: done))) ∧
      (∀ head next, r.freeEnd 132 = some head → r.nextIdx = some next →
        let pending := fun (i : Nat) (d : DirEnt) => r.putDir 0 i { d with flags := 2, table := 0, row := 0 }
        (head ≠ 0 → ∀ tail d, r.freeEnd 136 = some tail → r.dir head = some d → d.row < next →
          r.reserve = some (some (if head = tail then ((pending head d).putField 0 132 4 0).putField 0 136 4 0
            else (pending head d).putField 0 132 4 d.row, mkHandle r.num d.gen head))) ∧
        (head = 0 → next = r.geo.dirCap → r.reserve = some none) ∧
        (head = 0 → next ≠ r.geo.dirCap → ∀ d, r.dir next = some d →
          r.reserve = some (some ((pending next d).putField 0 124 4 (next + 1), mkHandle r.num d.gen next)))) ∧
      ∀ stamp va bs k, r.bad = false → r.inside va bs.length = true → 0 < bs.length → va % 128 + bs.length ≤ 128 →
        translateDev r.s r.ctx va .write = .ok k →
        let t := r.put stamp va bs
        t.bad = false ∧ stamp ≤ t.hi ∧ ∀ a, t.s.byte a = (r.s.setBytes (cellsOfL k bs)).byte a)

/-- R279, R295, R296, R305, R441, R467, R501: the completion of an engine command writes its future (sequence number,
COUNT, CAUSE, CODE), no longer pending, and the command is gone: a fence; a transpose that is neither
cancelled nor failed; a cancelled transfer (CODE 2); a LAUNCH whose launch has completed; a sampling command, with its
results. The model's own reading: log 18. -/
def Claims.EngineCompletion : Prop :=
  ∀ (op : Nat) (o : Op) (s : State) (seq : Nat), Running s op o → o.fut = some seq → o.soft = false →
    let ends := fun (v : W64) => ∃ t, exec (.engineCommandCompletion op) s = .next t ∧ FMap.find t.ops op = none ∧
      FutureIs o t v
    (o.kind = .eng .rfence ∨ o.kind = .eng .twfence → ends (futureValue seq 0 0 0)) ∧
    (∀ src dst r k z, o.kind = .eng (.xpose src dst r k z) → o.cancelled = false → o.fabricFail = none →
      (∀ a ∈ (s.coh o.coh).scratchBad, a < src ∨ src + r * k * 2 ^ z ≤ a) →
      let cell := fun (x : State) (at_ i n j : Nat) => (x.coh o.coh).readSpL (at_ + (i * n + j) * 2 ^ z) (2 ^ z)
      ∃ t, exec (.engineCommandCompletion op) s = .next t ∧ FMap.find t.ops op = none ∧
        FutureIs o t (futureValue seq 0 0 0) ∧ (∀ a, t.byte a = s.byte a) ∧
        (∀ i < r, ∀ j < k, cell t dst j r i = cell s src i k j) ∧
        ∀ a, a < dst ∨ dst + r * k * 2 ^ z ≤ a → (t.coh o.coh).readSp a = (s.coh o.coh).readSp a) ∧
    (∀ dir a b len ret, o.kind = .eng (.copy dir a b len ret) → o.cancelled = true → ends (futureValue seq 0 0 2)) ∧
    (∀ n l, o.kind = .eng (.launch (some n)) → FMap.find s.launches n = some l → l.done = true →
      ends (futureValue seq 0 l.status (if l.status = 0 then 0 else 1))) ∧
    (∀ ws count, o.kind = .eng (.tex ws count 0 0) → o.fabricFail = none → (∀ r ∈ ws, ∃ d l x, r = .v d l x) →
      ∃ t, exec (.engineCommandCompletion op) s = .next t ∧ FMap.find t.ops op = none ∧
        FutureIs o t (futureValue seq count 0 0) ∧ (∀ a, t.byte a = s.byte a) ∧
        (∀ pre d l x post, ws = pre ++ .v d l x :: post → (∀ y, .v d l y ∉ post) → d < 255 → l < 32 →
          (t.warp o.coh o.warp).readV d l = x) ∧
        ∀ d l, d < 255 → l < 32 → (∀ e ∈ s.ops, e.1 ≠ op → e.2.coh = o.coh → e.2.warp = o.warp → ∀ x ∈ e.2.dests,
          x.vec = true → x.idx = d → x.lanes.getLsbD l = false) →
          pendingMeets t o.coh o.warp [{ vec := true, idx := d }] (laneMask [l]) = false)

/-- Together: `Claims.CommandEffects` and `Claims.WorldCommandEffects` and `Claims.QueuedChanges` and `Claims.EngineCompletion`. -/
def Obligations.CommandCompletion : Prop :=
  Claims.CommandEffects ∧ Claims.WorldCommandEffects ∧ Claims.QueuedChanges ∧ Claims.EngineCompletion

/-! ## Futures, streams, fences, barriers, monitors -/

/-- R295 to R297: FCANCEL marks the transfer whose future SA names as cancelled; FWAIT returns at once with the registers
that are not pending when its condition is met in every warp, and otherwise leaves its group blocked at the instruction. -/
def Obligations.FutureInstructions : Prop :=
  ∀ (f : Fields) (c : Iss) (s : State),
    (Ready (.fcancel f) f c s → ∃ t, exec (.fcancel f) s = .next t ∧ Advanced c s t ∧
      RegFrame s t none4 none3 none4 none2 ∧
      ∀ w ∈ c.warpsOn f s, ∀ id o cmd, FMap.find s.ops id = some o → o.coh = c.coh → o.warp = w → o.kind = .eng cmd →
        cmd.cancels = true → (o.dests.any fun d => !d.vec && d.idx = f.sa.idx.toNat) = true →
        ∃ o', FMap.find t.ops id = some o' ∧ o'.cancelled = true) ∧
    (Ready (.fwait f) f c s →
      let ready := fun w => futuresReady s c.coh w f.imm (f.modn % 2 = 1)
      let met := fun w => futuresMet f.imm (ready w) (f.modn / 2 = 1)
      ((∀ w ∈ c.warpsOn f s, met w = true) → ∃ t, exec (.fwait f) s = .next t ∧ Advanced c s t ∧
        (∀ w ∈ c.warpsOn f s, HasWarp s c.coh w → (t.warp c.coh w).readS f.dst.idx.toNat =
          if f.dst.idx.toNat = 63 then 0 else (ready w).setWidth 64) ∧
        RegFrame s t none4 (fun k w r => k = c.coh ∧ w ∈ c.warpsOn f s ∧ r = f.dst.idx.toNat) none4 none2) ∧
      ((∃ w ∈ c.warpsOn f s, met w = false) → ∃ t, exec (.fwait f) s = .next t ∧ Blocked c t ∧
        RegFrame s t none4 (fun k w r => k = c.coh ∧ w ∈ c.warpsOn f s ∧ r = f.dst.idx.toNat) none4 none2))

/-- R262, R292, R293: SLOTW on a subscribed stream serves the warps in ascending order and blocks the group while one must
wait: a warp gets the next slot in item order when it is FULL; SLOTF frees the slots named by warps whose checks pass: a
HELD slot becomes DONE, or EMPTY at once in a stream without a storer. -/
def Obligations.RingInstructions : Prop :=
  ∀ (f : Fields) (c : Iss) (s : State) (x : Stream), FMap.find (s.coh c.coh).streams (streamNo f) = some x →
    (∀ w, Ready (.slotw f) f c s → c.warpsOn f s = [w] → HasWarp s c.coh w → f.dst.idx.toNat < 63 →
      (∀ v y, x.take = some (v, y) → ∃ t, exec (.slotw f) s = .next t ∧ Advanced c s t ∧
        (t.warp c.coh w).readS f.dst.idx.toNat = v ∧ FMap.find (t.coh c.coh).streams (streamNo f) = some y) ∧
      (x.take = none → ∃ t, exec (.slotw f) s = .next t ∧ Blocked c t ∧ RegFrame s t none4 none3 none4 none2)) ∧
    (Ready (.slotw f) f c s →
      let served := (c.warpsOn f s).foldl (fun (a : State × List Nat) w =>
        match takeSlot c.coh w (streamNo f) f.dst.idx.toNat a.1 with
        | some t => (t, a.2)
        | none => (a.1.addOp
            { kind := .slotw (streamNo f) f.dst.idx.toNat, coh := c.coh, warp := w, core := c.core, pc := c.pc, ths := c.ths
              busy := false, dests := destsOf (usesOf f.dst 1) 0 }, a.2 ++ [a.1.nextOp])) (useWindows c s, [])
      exec (.slotw f) s = .next (leaveBlocked c served.2 false served.1)) ∧
    (∀ k, x.take = none → k = x.nextTake % x.nslot → x.slot k ≠ (.full, x.nextTake)) ∧
    (x.nextTake < x.count → x.slot (x.nextTake % x.nslot) = (.full, x.nextTake) → ∃ y, x.take =
        some (BitVec.ofNat 64 (x.nextTake % 2 ^ 32 * 2 ^ 32 + x.offset (x.nextTake % x.nslot)), y) ∧
      y.nextTake = x.nextTake + 1 ∧ y.slots = x.slots.set (x.nextTake % x.nslot) (.held, x.nextTake)) ∧
    (∀ u, Ready (.slotf f) f c s → gateAll (c.warpsOn f s) (slotfGate c f) s = .pass u → u = s ∧
      exec (.slotf f) s = .next (leaveNext c f.bnd (forEach (c.warpsOn f s)
        (fun w => finishSlot c.coh (streamNo f) (lo32 (opSA s c f w))) (useWindows c s)))) ∧
    (∀ off k, x.slotAt off = some k → (x.slot k).1 = .held → k < x.slots.length →
      let t := finishSlot c.coh (streamNo f) off s
      let y := (FMap.find (t.coh c.coh).streams (streamNo f)).getD x
      (x.dst.isSome = true → (y.slot k).1 = .done) ∧
      (x.dst = none → (x.slot k).2 + 1 ≠ x.count → (y.slot k).1 = .empty ∧ y.finished = x.finished + 1))

/-- R308, R340: FENCE stalls while an earlier access of an executing warp within its scope has not replied; then each
warp's view rises to its highest write stamp. -/
def Claims.FenceOrders : Prop :=
  ∀ (f : Fields) (c : Iss) (s : State), Ready (.fence f) f c s →
    ((∃ w ∈ c.warpsOn f s, fenceOpen s c.coh w (f.immBits 1 0) = true) → exec (.fence f) s = .next s) ∧
    ((∀ w ∈ c.warpsOn f s, fenceOpen s c.coh w (f.immBits 1 0) = false) →
      ∃ t, exec (.fence f) s = .next t ∧ Advanced c s t ∧ RegFrame s t none4 none3 none4 none2 ∧
        ∀ w ∈ c.warpsOn f s, (s.warp c.coh w).hst ≤ (t.warp c.coh w).view ∧
          (s.warp c.coh w).view ≤ (t.warp c.coh w).view)

/-- R305, R317, R341, R342: the barriers. An arrival joins the open phase and fixes its count when it is the first; the
arrival that makes the count ends the phase, raises the view of every warp that arrived to the highest recorded (that all
of them are raised, and at the pass, is the model's choice: log 37), and lets the waiting groups go on. BAR.ARV goes on.
BAR and BAR.WT then wait: the guard-holding threads of warps whose last phase is open form a group blocked on that phase,
and the other threads go on at PC + 1. That the waiting part always has an entry is the model's choice (log 37): R111 would give
it to the part of the lowest lane, where no other is free. -/
def Claims.NamedBarriers : Prop :=
  ∀ (f : Fields) (c : Iss) (s : State),
    let n := f.immBits 3 0
    let m := f.immBits 13 8
    let arrive := fun w => arriveBar c.coh n m w
    (Ready (.barArv f) f c s → barGate c f s = .pass s →
      exec (.barArv f) s = .next (leaveNext c f.bnd (forEach (c.warpsOn f s) arrive (useWindows c s)))) ∧
    (Ready (.bar f) f c s → barGate c f s = .pass s →
      exec (.bar f) s = .next (waitBar c f (c.on f s) (forEach (c.warpsOn f s) arrive (useWindows c s)))) ∧
    (Ready (.barWt f) f c s → exec (.barWt f) s = .next (waitBar c f (c.on f s) (useWindows c s))) ∧
    (∀ (k w count : Nat) (u : State), (FMap.find u.cohorts k).isSome = true → w ∉ ((u.coh k).bar n).arrived →
      let b := (u.coh k).bar n
      let size := match b.count.getD count with
        | 0 => ((u.coh k).warps.filter fun w => !w.retired).length
        | z => z
      (b.arrived.length + 1 < size →
        let t := arriveBar k n count w u
        ((t.coh k).bar n).arrived = b.arrived ++ [w] ∧ ((t.coh k).bar n).count = some (b.count.getD count) ∧
          ((t.coh k).bar n).phase = b.phase ∧ RegFrame u t none4 none3 none4 none2) ∧
      (size ≤ b.arrived.length + 1 → (∀ e ∈ u.ops, e.2.coh = k → e.2.isWait = true → ∃ m p, e.2.kind = .barWait m p) →
        let t := arriveBar k n count w u
        ((t.coh k).bar n).arrived = [] ∧ ((t.coh k).bar n).count = none ∧ ((t.coh k).bar n).phase = b.phase + 1 ∧
          (∀ v ∈ b.arrived ++ [w], HasWarp u k v →
            (t.warp k v).view = max (u.warp k v).view (max b.hi (u.warp k w).view)) ∧
          (∀ id o, FMap.find u.ops id = some o → o.coh = k → o.kind = .barWait n b.phase → FMap.find t.ops id = none ∧
            ∀ e g, FMap.find (u.core o.core).entries e = some g → g.waits = [id] → g.again = false →
              ∃ g', FMap.find (t.core o.core).entries e = some g' ∧ g'.waits = [] ∧ g'.pc = g.pc + 1 ∧ g'.ths = g.ths) ∧
          RegFrame u t none4 none3 none4 none2)) ∧
    (∀ (on : List (Nat × Nat)) (u : State), c.ths ≠ [] → (∀ x ∈ on, x ∈ c.ths) → (FMap.find u.cores c.core).isSome = true →
      let b := (u.coh c.coh).bar n
      let held := on.filter fun x => (barOpen u c.coh n x.1).isSome
      let rest := c.ths.filter fun x => !held.contains x
      let t := waitBar c f on u
      RegFrame u t none4 none3 none4 none2 ∧ (held = [] → Advanced c u t) ∧
      (held ≠ [] → (t.core c.core).slots.getD c.slot none = none ∧
        (∀ x ∈ rest, HasThread u c.coh x.1 x.2 → (t.thread c.coh x.1 x.2).pc = c.pc + 1) ∧
        ∃ e g, FMap.find (t.core c.core).entries e = some g ∧ g.coh = c.coh ∧ g.pc = c.pc ∧ (∀ x, x ∈ g.ths ↔ x ∈ held) ∧
          g.waits ≠ [] ∧ ∀ id ∈ g.waits, ∃ o, FMap.find t.ops id = some o ∧ o.kind = .barWait n b.phase ∧ o.coh = c.coh))

/-- Together: `Claims.FenceOrders` and `Claims.NamedBarriers`. -/
def Obligations.FencesAndBarriers : Prop := Claims.FenceOrders ∧ Claims.NamedBarriers

/-- R307, R310 to R312, R343: WAITC once its checks pass. Where the word meets the condition the warp gets the word and a view at
or above the line's stamp; else it waits, blocked, under a monitor, or by polls of a host line or of a slice with no monitor free.
Where an acquire of the warp, or an access of it to the line, holds the read back, it is blocked with nothing registered yet. That
it waits too while its home cannot be reached is the model's choice (log 27). -/
def Obligations.WaitcReturnsOrWaits : Prop :=
  ∀ (f : Fields) (c : Iss) (s u : State) (w : Nat), Ready (.waitc f) f c s → c.warpsOn f u = [w] → HasWarp u c.coh w →
    globalGate c .read (warpOrder c f s) (fun t => eaOf s c f false t.1 t.2) (tyBytes (waitcTy f)) s = .pass u →
    let key := keyOf u c (eaOf u c f false w 0)
    let v := readTy (waitcTy f) (u.num key (tyBytes (waitcTy f)))
    let cmp := (u.srcS c.coh w f.sb).toNat
    let held := acqHolds u c.coh w (reachOf (lineOf key)) || ownOut u c.coh w (lineOf key)
    let waits := fun (p : Op → Prop) => ∃ t, exec (.waitc f) s = .next t ∧ Blocked c t ∧
      RegFrame u t none4 none3 none4 none2 ∧ ∃ o, FMap.find t.ops u.nextOp = some o ∧ o.coh = c.coh ∧ o.warp = w ∧ p o
    c.warpsOn f s = [w] → (∀ e ∈ u.ops, e.2.coh = c.coh → e.2.isWait = false) → (∀ e ∈ u.ops, e.1 < u.nextOp) →
    (held = false → condHolds (waitcCond f) v (readTy (waitcTy f) cmp) = true → u.unreachable (lineOf key) = false →
      ∃ t, exec (.waitc f) s = .next t ∧ Advanced c u t ∧ (u.home (lineOf key)).1 ≤ (t.warp c.coh w).view ∧
      (t.warp c.coh w).readS f.dst.idx.toNat = (if f.dst.idx.toNat = 63 then 0 else BitVec.ofInt 64 v) ∧
      RegFrame u t none4 (fun k x r => k = c.coh ∧ x = w ∧ r = f.dst.idx.toNat) none4 none2) ∧
    (held = false → condHolds (waitcCond f) v (readTy (waitcTy f) cmp) = false ∨ u.unreachable (lineOf key) = true →
      waits fun o => o.held = none ∧ o.kind = .waitc key (waitcTy f) (waitcCond f) cmp f.dst.idx.toNat
        (isHost (lineOf key) || !monitorFree u (lineOf key)) ((u.core c.core).cycle + 256)) ∧
    (held = true → waits fun o => o.held = some (reachOf (lineOf key)) ∧ ∃ due,
      o.kind = .waitc key (waitcTy f) (waitcCond f) cmp f.dst.idx.toNat false due)

/-- R320, R344, R345: SUCCOK signals the cohort to its launch; WAITPRED returns the status of a completed predecessor and raises
the view to its C, and blocks the group while it has not completed. When the predecessor completes, a warp that waits gets the
same. -/
def Obligations.DependentLaunches : Prop :=
  ∀ (f : Fields) (c : Iss) (s : State),
    (Ready (.succok f) f c s → c.warpsOn f s ≠ [] → (FMap.find s.cohorts c.coh).isSome = true →
      ∃ t, exec (.succok f) s = .next t ∧ Advanced c s t ∧ (t.coh c.coh).signalled = true ∧
        ((s.coh c.coh).node = none → ∀ l, FMap.find s.launches (s.coh c.coh).launch = some l →
          ∃ l', FMap.find t.launches (s.coh c.coh).launch = some l' ∧ (s.coh c.coh).cidx ∈ l'.signalled) ∧
        (∀ a, t.byte a = s.byte a) ∧ SameSpecial s t ∧ SameV s t none4 ∧ SameS s t none3 ∧ SameP s t none4 ∧ SameScratch s t) ∧
    (∀ p, Ready (.waitpred f) f c s → predecessor s (s.coh c.coh).launch = some p →
      (WritesS (.waitpred f) f c s fun _ => BitVec.ofNat 64 p.1) ∧ ∃ t, exec (.waitpred f) s = .next t ∧
        ∀ w ∈ c.warpsOn f s, HasWarp s c.coh w → (t.warp c.coh w).view = max (s.warp c.coh w).view p.2) ∧
    (Ready (.waitpred f) f c s → predecessor s (s.coh c.coh).launch = none → c.warpsOn f s ≠ [] →
      ∃ t, exec (.waitpred f) s = .next t ∧ Blocked c t ∧ RegFrame s t none4 none3 none4 none2) ∧
    (∀ seq status l, FMap.find s.launches seq = some l → l.done = false → ∃ u l', completeLaunch seq status s = wakePreds u ∧
      FMap.find u.launches seq = some l' ∧ l'.done = true ∧ l'.status = status) ∧
    (∀ id o dst p, FMap.find s.ops id = some o → (s.ops.map Prod.fst).Nodup → o.kind = .waitpred dst →
      predecessor s (s.coh o.coh).launch = some p → HasWarp s o.coh o.warp →
      (∀ e ∈ s.ops, e.2.coh = o.coh → e.1 = id ∨ e.2.isWait = false) →
      let t := wakePreds s
      FMap.find t.ops id = none ∧ (t.warp o.coh o.warp).view = max (s.warp o.coh o.warp).view p.2 ∧
        (t.warp o.coh o.warp).readS dst = if dst = 63 then 0 else BitVec.ofNat 64 p.1)

/-! ## The matrix unit -/

/-- R353, R363, R380 to R390: matrix instructions once their checks pass. MMCFG configures the unit for the cohort, warp by
warp, and stalls with its claim recorded while another cohort owns the unit; REL gives it up; a command enters the queue once
per executing warp, in ascending order, with the operands of that warp, and the group stalls with what finds no room; a .J
share is recorded, and the command enters when the joint set has issued it; MMREADY only orders. That MMREADY waits for vector
registers alone, that REL acts once for its group, and what STEPS = 0 means (log 41) is the model's choice. -/
def Claims.MatrixIssue : Prop :=
  ∀ (f : Fields) (c : Iss) (s : State), c.warpsOn f s ≠ [] →
    let b := useWindows c s
    let g := (b.mx c.core).cfg
    let goes := fun (i : Instr) (one : Nat → State → State) =>
      exec i s = .next (leaveNext c f.bnd (forEach (c.warpsOn f s) one b))
    let room := (s.mx c.core).room
    let owner := (s.mx c.core).owner = some c.coh
    let plain := fun (i : Instr) (gate : Nat → State → Gate) (dests : List Dest) (cmd : Nat → MatCmd) =>
      Ready i f c s → owner → gateAll (c.warpsOn f s) gate s = .pass s →
      (room = false → exec i s = .next s) ∧
      (room = true → exec i s = .next (leaveQueued c f.bnd
        (forEach (c.warpsOn f s) (fun w => queueMat c f.bnd w dests (cmd w)) b)))
    let joint := fun (i : Instr) (gate : Nat → State → Gate) (cmd : State → Iss → Nat → MatCmd) =>
      Ready i f c s → owner → gateAll (c.warpsOn f s) gate s = .pass s → (room = false → exec i s = .next s) ∧
      (room = true → exec i s = .next (enterJoint c.core (leaveNext c f.bnd
        (forEach (c.warpsOn f s) (fun w => queueShare c w (cmd b c w)) b))))
    (Ready (.mmcfg f) f c s →
      let d := s.modMx c.core fun m => { m with claims := m.claims.filter fun k => k ≠ c.coh }
      gateAll (c.warpsOn f s) (cfgGate c f) d = .pass d →
      (claimGate c d = .pass d → exec (.mmcfg f) s = .next (leaveNext c f.bnd
        (forEach (c.warpsOn f s) (configure c f) (useWindows c d)))) ∧
      (∀ k, (s.mx c.core).owner = some k → k ≠ c.coh → (FMap.find s.cores c.core).isSome = true →
        ∃ t, exec (.mmcfg f) s = .next t ∧ (t.mx c.core).owner = some k ∧ t.cohorts = s.cohorts ∧ t.mem = s.mem ∧
          ∀ j, j ∈ (t.mx c.core).claims ↔ j = c.coh ∨ j ∈ (s.mx c.core).claims)) ∧
    (Ready (.mmcfgRel f) f c s → owner → (s.mx c.core).queue = [] →
      exec (.mmcfgRel f) s = .next (leaveNext c f.bnd (releaseUnit c b))) ∧
    plain (.mmzero f) (fun _ => maskGate c f) [] (fun _ => .zero (f.modn / 16 ≠ 1) (f.modn / 16 ≠ 2) (actTiles g f)) ∧
    (isJoint f = false → plain (.mmloop f) (fun w s => (maskGate c f s).andThen (loopGate c f w)) [] fun w =>
      .loop (offOf b c f.sa w) (offOf b c f.sb w) (stepsOf f) (aincOf f) (bincOf f) (actTiles g f) false) ∧
    (isJoint f = true → joint (.mmloop f) (fun w s => (maskGate c f s).andThen fun s =>
      (shareGate c f (loopCmd f) w s).andThen (loopGate c f w)) (loopCmd f)) ∧
    plain (.mmscale f) (fun w s => (maskGate c f s).andThen (scaleGate c f w)) [] (fun w =>
      .scale (offOf b c f.sa w) (offOf b c f.sb w) (scaleA8 f) (scaleB8 f) (actTiles g f)) ∧
    (isJoint f = false → plain (.mmdrain f) (fun w s => (rowGate f s).andThen (runGate c f f.dst.idx.toNat w))
      (destsOf (vecRun f.dst.idx.toNat (4 * nrowOf f) true) 0) fun _ =>
        .drain (f.sa.idx.toNat % 4) (row0Of f) (nrowOf f) (partP f) f.dst.idx.toNat false) ∧
    (isJoint f = true → joint (.mmdrain f) (fun w s => (shareGate c f (drainCmd f) w s).andThen (rowGate f)) (drainCmd f)) ∧
    plain (.mmstore f) (fun w s => (rowGate f s).andThen (blockGate c 4 [(offOf s c f.sb w, 512 * nrowOf f)])) [] (fun w =>
      .store (f.sa.idx.toNat % 4) (row0Of f) (nrowOf f) (partP f) (offOf b c f.sb w)) ∧
    plain (.mmload f) (fun w s => (rowGate f s).andThen (runGate c f f.sa.idx.toNat w)) [] (fun _ =>
      .load (f.dst.idx.toNat % 4) (row0Of f) (nrowOf f) (partP f) f.sa.idx.toNat) ∧
    (Ready (.mmready f) f c s → owner → (∀ w ∈ c.warpsOn f s, vectorOut s c.coh w = false) →
      exec (.mmready f) s = .next (leaveNext c f.bnd b)) ∧
    (Ready (.mmready f) f c s → owner → (∃ w ∈ c.warpsOn f s, vectorOut s c.coh w = true) → exec (.mmready f) s = .next s)

/-- R352, R353, R360, R380: what MMCFG leaves (a unit of the cohort that reads zero everywhere when it was not the owner, the
shape and formats of the fields), and what queueing a command does: one more command, last in the queue, or where that is
full last of those that wait for room (R361). -/
def Claims.MatrixConfiguration : Prop :=
  ∀ (f : Fields) (c : Iss) (w : Nat) (s : State), (FMap.find s.cores c.core).isSome = true →
    (let t := configure c f w s;
      (t.mx c.core).owner = some c.coh ∧ (t.mx c.core).cfg.shape = f.modn % 4 ∧ (t.mx c.core).cfg.fa = f.immBits 5 0 ∧
      (t.mx c.core).cfg.fb = f.immBits 11 6 ∧
      ((s.mx c.core).owner ≠ some c.coh → (t.mx c.core).z = [] ∧ (t.mx c.core).p = [] ∧ (t.mx c.core).status = 0) ∧
      ((s.mx c.core).owner = some c.coh → (t.mx c.core).z = (s.mx c.core).z ∧ (t.mx c.core).p = (s.mx c.core).p ∧
        (t.mx c.core).status = (s.mx c.core).status)) ∧
    (∀ dests cmd, let t := queueMat c f.bnd w dests cmd s;
      (t.mx c.core).queue = (s.mx c.core).queue ++ (if (s.mx c.core).room then [s.nextOp] else []) ∧
      (t.mx c.core).late = (s.mx c.core).late ++
        (if (s.mx c.core).room then [] else [{ op := s.nextOp, slot := c.slot, ent := c.ent, bnd := f.bnd }]) ∧
      (t.mx c.core).z = (s.mx c.core).z ∧
      (t.mx c.core).p = (s.mx c.core).p ∧ t.cohorts = s.cohorts ∧ t.mem = s.mem ∧
      ∃ o, FMap.find t.ops s.nextOp = some o ∧ o.kind = .mat cmd ∧ o.warp = w ∧ o.coh = c.coh ∧ o.dests = dests)

/-- Together: `Claims.MatrixIssue` and `Claims.MatrixConfiguration`. -/
def Obligations.MatrixCommands : Prop := Claims.MatrixIssue ∧ Claims.MatrixConfiguration

/-- R361, R362, R390, R391: MMSTAT leaves the status and the queue length outstanding, and with its clear bit clears the
status; MMWAIT goes on when the executing warps have no matrix command outstanding, and else blocks the group.
The model's own readings in it: log 39. -/
def Obligations.MatrixStatusAndWait : Prop :=
  ∀ (f : Fields) (c : Iss) (s : State),
    (∀ w, Ready (.mmstat f) f c s → c.warpsOn f s = [w] → (s.mx c.core).owner = some c.coh →
      ∃ t, exec (.mmstat f) s = .next t ∧ Advanced c s t ∧
        FMap.find t.ops s.nextOp = some (longOp (.mmstat f) f c s [.s f.dst.idx.toNat
          (BitVec.ofNat 64 ((s.mx c.core).status.toNat + 2 ^ 16 * (s.mx c.core).queue.length))] 0 w) ∧
        (t.mx c.core).status = (if f.modn % 2 = 1 then 0 else (s.mx c.core).status) ∧
        SameOutside s t ∧ SameScratch s t ∧ SameV s t none4 ∧ SameS s t none3 ∧ SameP s t none4 ∧ SameFlags s t none2 ∧
        (t.mx c.core).z = (s.mx c.core).z ∧ (t.mx c.core).p = (s.mx c.core).p) ∧
    (Ready (.mmwait f) f c s → (∀ w ∈ c.warpsOn f s, matsOf s c.coh w = []) →
      ∃ t, exec (.mmwait f) s = .next t ∧ Advanced c s t ∧ RegFrame s t none4 none3 none4 none2) ∧
    (Ready (.mmwait f) f c s → (∃ w ∈ c.warpsOn f s, matsOf s c.coh w ≠ []) →
      ∃ t, exec (.mmwait f) s = .next t ∧ Blocked c t ∧ RegFrame s t none4 none3 none4 none2)

/-- The joint command that would enter next, if any, has still a share to come (19 R363). -/
def nextUnfull (s : State) (core : Nat) : Prop :=
  ∀ x, (s.mx core).cfg.shares.head? = some x → sharesFull (s.mx core).cfg x.2 = false

/-- R361, R380, R382, R386 to R389: the sequencer starts the first queued command, and at its completion the command makes its
writes, the operation is gone, and the oldest command that waited for room enters the queue; a drain whose registers an
earlier long instruction of its warp has still to write does not complete yet (the model's choice, log 41); a free unit goes to
the oldest stalled claim, whose MMCFG then executes: the unit is its cohort's, zeroed and configured, and the claim is gone. With no
claim, or with an owner, nothing happens. -/
def Claims.MatrixSequencer : Prop :=
  ∀ (core : Nat) (s : State), (FMap.find s.cores core).isSome = true →
    (∃ t, exec (.matrixCommandStart core) s = .next t ∧
      (t.mx core).started = !(s.mx core).queue.isEmpty ∧ (t.mx core).queue = (s.mx core).queue ∧ t.mem = s.mem ∧
      t.cohorts = s.cohorts) ∧
    (∀ id rest o cmd, (s.mx core).started = true → (s.mx core).queue = id :: rest → FMap.find s.ops id = some o →
      o.kind = .mat cmd → o.core = core → nextUnfull s core → (∀ e ∈ s.ops, e.2.isWait = false) →
      ((id :: o.joint).any (drainWaits s) = true → exec (.matrixCommandCompletion core) s = .next s) ∧
      ((id :: o.joint).any (drainWaits s) = false → ∃ t, exec (.matrixCommandCompletion core) s = .next t ∧
        (∀ i ∈ id :: o.joint, FMap.find t.ops i = none) ∧
        (t.mx core).queue = rest ++ ((s.mx core).late.head?.map LateCmd.op).toList ∧
        (t.mx core).started = false ∧ (∀ a, t.byte a = s.byte a) ∧
        (let u := forEach o.joint (runShare core false) (runMat core o.coh o.warp cmd s);
          (t.mx core).z = (u.mx core).z ∧ (t.mx core).p = (u.mx core).p ∧ (t.mx core).status = (u.mx core).status ∧
          (∀ k w r l, (t.warp k w).readV r l = (u.warp k w).readV r l) ∧
          (∀ k a, (t.coh k).readSp a = (u.coh k).readSp a) ∧ SameS s t none3))) ∧
    ((s.mx core).owner ≠ none ∨ claimsOn s core = [] → exec (.matrixOwnershipGrant core) s = .next s) ∧
    (∀ k slot f r, (s.mx core).owner = none → claimsOn s core = (k, slot, f) :: r →
      let u := noteFetch { s with cur := (core, slot) }
      exec (.matrixOwnershipGrant core) s = exec (.mmcfg f) u ∧
      (∀ c, Ready (.mmcfg f) f c u → c.core = core → c.coh = k → c.warpsOn f u ≠ [] →
        let d := u.modMx core fun m => { m with claims := m.claims.filter fun j => j ≠ k }
        gateAll (c.warpsOn f u) (cfgGate c f) d = .pass d → claimGate c d = .pass d →
        ∃ t, exec (.matrixOwnershipGrant core) s = .next t ∧ (t.mx core).owner = some k ∧ (t.mx core).z = [] ∧
          (t.mx core).p = [] ∧ (t.mx core).status = 0 ∧ (t.mx core).cfg.shape = f.modn % 4 ∧ k ∉ (t.mx core).claims))

/-- R194 to R196, R356, R358, R359, R369, R382, R384 to R389: what a command of a warp leaves when it completes. MMZERO makes
elements of its tiles +0; MMLOOP adds to each product element of its tiles, step by step, the sum of the products of its row
of A and its column of B over 32 depths; MMSCALE adds the scaled product to the accumulator and clears it; MMDRAIN leaves rows
in vector registers, MMSTORE in scratchpad, and MMLOAD takes them from registers; every other element, register and byte
keeps its value. A joint MMLOOP runs once. -/
def Claims.MatrixEffects : Prop :=
  ∀ (core id : Nat) (rest : List Nat) (o : Op) (cmd : MatCmd) (s : State), (FMap.find s.cores core).isSome = true →
    (s.mx core).started = true → (s.mx core).queue = id :: rest → FMap.find s.ops id = some o → o.kind = .mat cmd →
    (∀ i ∈ o.joint, ∀ x tile row0 n p vd j, FMap.find s.ops i = some x → x.kind ≠ .mat (.drain tile row0 n p vd j)) →
    o.core = core → nextUnfull s core → (∀ e ∈ s.ops, e.2.isWait = false) → (id :: o.joint).any (drainWaits s) = false →
    HasWarp s o.coh o.warp →
    let m := s.mx core
    let g := m.cfg
    let h := s.coh o.coh
    ∃ t, exec (.matrixCommandCompletion core) s = .next t ∧ (∀ a, t.byte a = s.byte a) ∧ SameS s t none3 ∧
      SameP s t none4 ∧
      let acc := fun (z p : Nat → W32) => ∀ k, k < 65536 → (t.mx core).elem false k = z k ∧ (t.mx core).elem true k = p k
      let sameAcc := acc (m.elem false) (m.elem true)
      (∀ z p tiles, cmd = .zero z p tiles → SameV s t none4 ∧ SameScratch s t ∧
        acc (fun k => if z = true ∧ accTile k ∈ tiles then 0 else m.elem false k)
          (fun k => if p = true ∧ accTile k ∈ tiles then 0 else m.elem true k)) ∧
      (∀ a b steps ainc binc tiles j, cmd = .loop a b steps ainc binc tiles j → SameV s t none4 ∧ SameScratch s t ∧
        let rowA := fun (k i : Nat) => depths.map fun d =>
          planeCode h g.fa (blockA g a ainc i (tileA g.shape (accTile k))) (accRow k) d
        let colB := fun (k i : Nat) => depths.map fun d =>
          planeCode h g.fb (blockB g b binc i (tileB g.shape (accTile k))) (accCol k) d
        acc (m.elem false) (fun k => if accTile k ∈ tiles then
          (upto steps).foldl (fun x i => (kstep g x (rowA k i) (colB k i)).1) (m.elem true k) else m.elem true k) ∧
        (g.ints = true → steps = 1 → ∀ k, k < 65536 → accTile k ∈ tiles → (t.mx core).elem true k =
          BitVec.ofInt 32 (signExt 32 (m.elem true k).toNat + (((rowA k 0).zip (colB k 0)).map fun x =>
            intOperand g.fa x.1 * intOperand g.fb x.2).foldl (fun x y => x + y) 0))) ∧
      (∀ a b ea eb tiles, cmd = .scale a b ea eb tiles → SameV s t none4 ∧ SameScratch s t ∧
        acc (fun k => if accTile k ∈ tiles then
            (foldElem g.ints (m.elem false k) (m.elem true k) (matScale h a ea (opRow g.shape (accTile k) (accRow k)))
              (matScale h b eb (opCol g.shape (accTile k) (accCol k)))).1 else m.elem false k)
          (fun k => if accTile k ∈ tiles then 0 else m.elem true k)) ∧
      (∀ tile row0 n p vd j, cmd = .drain tile row0 n p vd j → vd + 4 * n ≤ 256 → sameAcc ∧ SameScratch s t ∧
        (∀ i c, i < n → c < 128 → (t.warp o.coh o.warp).readV (vd + 4 * i + c / 32) (c % 32) =
          if vd + 4 * i + c / 32 = 255 then 0 else m.elem p (accKey tile (row0 + i) c)) ∧
        SameV s t fun k w r _ => k = o.coh ∧ w = o.warp ∧ vd ≤ r ∧ r < vd + 4 * n) ∧
      (∀ tile row0 n p off, cmd = .store tile row0 n p off → sameAcc ∧ SameV s t none4 ∧
        (∀ i, i < 128 * n → (t.coh o.coh).readSpN (off + 4 * i) 4 =
          (m.elem p (accKey tile (row0 + i / 128) (i % 128))).toNat) ∧
        ∀ k a, (k = o.coh → a < off ∨ off + 512 * n ≤ a) → (t.coh k).readSp a = (s.coh k).readSp a) ∧
      (∀ tile row0 n p va, cmd = .load tile row0 n p va → SameV s t none4 ∧ SameScratch s t ∧
        let new := fun (k : Nat) => if accTile k = tile ∧ row0 ≤ accRow k ∧ accRow k < row0 + n then
          (s.warp o.coh o.warp).readV (va + 4 * (accRow k - row0) + accCol k / 32) (accCol k % 32) else m.elem p k
        acc (if p then m.elem false else new) (if p then new else m.elem true))

/-- R353, R363, R364, R381, R387: a .J share is recorded under its warp's next joint command, and is no outstanding command. The
first joint command enters the queue, last, once each warp of the set has issued its share and there is room, a drain with each
warp's own rows; a drain whose rows do not divide, or overrun a warp's allocation, stops the warps of the set, each at its own
share. A drain that completes leaves each warp its rows. REL discards the shares with the contents and the status. -/
def Claims.JointCommands : Prop :=
  ∀ (core : Nat) (s : State), (FMap.find s.cores core).isSome = true →
    let m := s.mx core
    let sharesOf := fun (u : MatrixUnit) (n : Nat) => ((u.cfg.shares.find? fun x => x.1 = n).map Prod.snd).getD []
    (∀ c w cmd, c.core = core → HasWarp s c.coh w →
      let n := (s.warp c.coh w).mshare
      let t := queueShare c w cmd s
      (t.warp c.coh w).mshare = n + 1 ∧ (t.mx core).queue = m.queue ∧ (t.mx core).z = m.z ∧ (t.mx core).p = m.p ∧
        t.mem = s.mem ∧ (∀ k, sharesOf (t.mx core) k = sharesOf m k ++ if k = n then [(w, s.nextOp, c.pc)] else []) ∧
        ∃ o, FMap.find t.ops s.nextOp = some o ∧ o.kind = .mat cmd ∧ o.coh = c.coh ∧ o.warp = w ∧ o.pc = c.pc ∧
          o.busy = false) ∧
    (nextUnfull s core ∨ m.room = false → enterJoint core s = s) ∧
    (m.cfg.shares.length = 1 → enterJoint core s = enterFirst core s) ∧
    (∀ coh n l rest y more o cmd, m.owner = some coh → m.cfg.shares = (n, l) :: rest → sharesFull m.cfg l = true →
      m.room = true → l = y :: more → (l.map fun y => y.2.1).Nodup → FMap.find s.ops y.2.1 = some o → o.kind = .mat cmd →
      let t := enterFirst core s
      let refused := match cmd with
        | .drain _ _ nrow _ vd _ => drainRefused s coh m.cfg.joint nrow vd
        | _ => none
      (t.mx core).cfg.shares = rest ∧
      (refused = none → (t.mx core).queue = m.queue ++ [y.2.1] ∧ t.cohorts = s.cohorts ∧
        (∃ x, FMap.find t.ops y.2.1 = some x ∧ x.joint = more.map fun y => y.2.1) ∧
        ∀ z ∈ l, ∀ x, FMap.find s.ops z.2.1 = some x → ∃ x', FMap.find t.ops z.2.1 = some x' ∧ x'.busy = true ∧
          x'.coh = x.coh ∧ x'.warp = x.warp ∧
          (∀ tile row0 nrow p vd j, x.kind = .mat (.drain tile row0 nrow p vd j) →
            let k := if z.1 ∈ m.cfg.joint then nrow / m.cfg.joint.length else 0
            x'.kind = .mat (.drain tile (row0 + rankOf m.cfg.joint z.1 * k) k p vd j) ∧
              x'.dests = destsOf (vecRun vd (4 * k) true) 0) ∧
          (∀ a b steps ainc binc tiles j, x.kind = .mat (.loop a b steps ainc binc tiles j) → x'.kind = x.kind)) ∧
      (∀ d, refused = some d → (FMap.find s.cohorts coh).isSome = true → (l.map Prod.fst).Nodup →
        (∀ z ∈ l, z.1 ∈ m.cfg.joint → HasWarp s coh z.1 ∧ (s.warp coh z.1).liveLanes ≠ [] ∧
          (s.warp coh z.1).handler = false ∧ (s.warp coh z.1).trapq.length < Config.trapQueue) →
        (t.mx core).queue = m.queue ∧ (∀ z ∈ l, FMap.find t.ops z.2.1 = none) ∧
        ∀ z ∈ l, z.1 ∈ m.cfg.joint → (t.warp coh z.1).trapq = (s.warp coh z.1).trapq ++
          [{ code := 9, detail := d, pc := z.2.2, lmask := laneMask (s.warp coh z.1).liveLanes, imprecise := true }])) ∧
    (∀ id rest o, m.started = true → m.queue = id :: rest → FMap.find s.ops id = some o → o.core = core →
      nextUnfull s core → (∀ e ∈ s.ops, e.2.isWait = false) → (id :: o.joint).any (drainWaits s) = false →
      let drains := fun (i : Nat) (x : Op) (tile row0 n : Nat) (p : Bool) (vd : Nat) => i ∈ id :: o.joint ∧
        FMap.find s.ops i = some x ∧ x.coh = o.coh ∧ HasWarp s o.coh x.warp ∧ ∃ j, x.kind = .mat (.drain tile row0 n p vd j)
      (∀ i ∈ id :: o.joint, ∃ x tile row0 n p vd, drains i x tile row0 n p vd) →
      ((id :: o.joint).map fun i => (FMap.find s.ops i).map Op.warp).Nodup →
      ∃ t, exec (.matrixCommandCompletion core) s = .next t ∧ SameScratch s t ∧ (t.mx core).z = m.z ∧ (t.mx core).p = m.p ∧
        SameV s t (fun k w r _ => k = o.coh ∧ ∃ i x tile row0 n p vd, drains i x tile row0 n p vd ∧ x.warp = w ∧ vd ≤ r ∧
          r < vd + 4 * n) ∧
        ∀ i x tile row0 n p vd, drains i x tile row0 n p vd → vd + 4 * n ≤ 256 → ∀ r c, r < n → c < 128 →
          (t.warp o.coh x.warp).readV (vd + 4 * r + c / 32) (c % 32) =
            if vd + 4 * r + c / 32 = 255 then 0 else m.elem p (accKey tile (row0 + r) c)) ∧
    (∀ c, c.core = core →
      let t := releaseUnit c s
      (t.mx core).owner = none ∧ (t.mx core).z = [] ∧ (t.mx core).p = [] ∧ (t.mx core).status = 0 ∧
        (t.mx core).cfg.shares = [] ∧ t.mem = s.mem ∧ ∀ x ∈ m.cfg.shares, ∀ y ∈ x.2, FMap.find t.ops y.2.1 = none)

/-- Together: `Claims.MatrixSequencer` and `Claims.MatrixEffects` and `Claims.JointCommands`. -/
def Obligations.MatrixSequence : Prop := Claims.MatrixSequencer ∧ Claims.MatrixEffects ∧ Claims.JointCommands

/-! ## Worlds -/

/-- R465, R470: WSYNC once its checks pass: the warp's sync arrives, last in the world's order, and the group is blocked until
it returns; several warps arrive in ascending order. -/
def Claims.SyncArrival : Prop :=
  ∀ (f : Fields) (c : Iss) (s u : State), Ready (.wsync f) f c s →
    engGate c f (fun w s => worldGate c (worldOf s c f w) s) (fun _ _ => []) true s = .pass u →
    let served := (c.warpsOn f u).foldl (fun a w => startWsync f c w a) (useWindows c u, [])
    exec (.wsync f) s = .next (leaveBlocked c served.2 false served.1) ∧
    (∀ w x, c.warpsOn f u = [w] → FMap.find u.worlds (worldKey (c.ctx u) (worldOf u c f w)) = some x →
      ∃ t, exec (.wsync f) s = .next t ∧ Blocked c t ∧
        (∃ y, FMap.find t.worlds (worldKey (c.ctx u) (worldOf u c f w)) = some y ∧ y.syncs = x.syncs ++ [u.nextOp]) ∧
        ∃ o, FMap.find t.ops u.nextOp = some o ∧ o.coh = c.coh ∧ o.warp = w ∧
          o.kind = .wsync (worldKey (c.ctx u) (worldOf u c f w)) f.dst.idx.toNat false)

/-- R449, R451 to R453, R470: the oldest sync that has arrived starts and takes the world's tail as its mark, when no earlier
command of its warp to the world is outstanding; a sync on a failed world returns status 7, and one that finds no space status
5; the started sync stalls while a table it changes has an open previous version; then it publishes, and its warp gets status
0, the sync number and a view at or above the sync's stamp; one that meets a structure out of form fails the world, leaves the
syncs behind it to arrive in their order, and returns status 7 with SYNCNO as it then stands. The model's own readings in it:
log 43, log 44 and log 67. -/
def Obligations.SyncSteps : Prop :=
  ∀ (ctx n : Nat) (s : State) (w : World) (r : Rot) (id : Nat) (rest : List Nat) (o : Op) (dst : Nat) (b : Bool),
    FMap.find s.worlds (worldKey ctx n) = some w → rotOf s ctx n = some r → w.syncs = id :: rest →
    FMap.find s.ops id = some o → o.kind = .wsync (worldKey ctx n) dst b → HasWarp s o.coh o.warp →
    (∀ e ∈ s.ops, e.2.coh = o.coh → e.1 = id ∨ e.2.isWait = false) →
    let returned := fun (t : State) (status no : Nat) => FMap.find t.ops id = none ∧
      (t.warp o.coh o.warp).readS dst = (if dst = 63 then 0 else BitVec.ofNat 64 (no % 2 ^ 32 * 2 ^ 32 + status)) ∧
      ∃ y, FMap.find t.worlds (worldKey ctx n) = some y ∧ y.syncs = rest ∧ y.mark = none
    (w.mark = none → earlierOnWorld s o.coh o.warp (worldKey ctx n) id = false → worldFailed s ctx n = true →
      ∃ t, exec (.syncStart ctx n) s = .next t ∧ returned t 7 ((r.field 144 8).getD 0) ∧ (∀ a, t.byte a = s.byte a)) ∧
    (w.mark = none → earlierOnWorld s o.coh o.warp (worldKey ctx n) id = false → worldFailed s ctx n = false →
      r.plan ((r.field 160 8).getD 0) = .noSpace → (r.close 5 {}).1.bad = false →
      ∃ t, exec (.syncStart ctx n) s = .next t ∧ returned t 5 (r.close 5 {}).2 ∧ ∀ a, t.byte a = (r.close 5 {}).1.s.byte a) ∧
    (w.mark = none → earlierOnWorld s o.coh o.warp (worldKey ctx n) id = false → worldFailed s ctx n = false →
      r.plan ((r.field 160 8).getD 0) ≠ .noSpace → ∃ t, exec (.syncStart ctx n) s = .next t ∧
        (∀ a, t.byte a = s.byte a) ∧ ∃ y, FMap.find t.worlds (worldKey ctx n) = some y ∧
          y.mark = some ((r.field 160 8).getD 0) ∧ y.syncs = w.syncs) ∧
    (∀ mark p, w.mark = some mark → r.plan mark = .ok p → p.stall = true → exec (.syncStallRelease ctx n) s = .next s) ∧
    (∀ mark p, w.mark = some mark → r.plan mark = .ok p → p.stall = false → p.fail = none → (r.publish p).bad = false →
      ((r.publish p).close 0 p.counts).1.bad = false →
      let z := (r.publish p).close 0 p.counts
      let u := (z.1.putStamps p.tabs z.1.hi).s
      (∃ x, FMap.find u.worlds (worldKey ctx n) = some x ∧ x.syncs = w.syncs) → FMap.find u.ops id = some o →
      (∀ e ∈ u.ops, e.2.coh = o.coh → e.1 = id ∨ e.2.isWait = false) → HasWarp u o.coh o.warp →
      ∃ t, exec (.syncStallRelease ctx n) s = .next t ∧ returned t 0 z.2 ∧ z.1.hi ≤ (t.warp o.coh o.warp).view ∧
        (∀ a, t.byte a = u.byte a) ∧
        ∃ x y, FMap.find u.worlds (worldKey ctx n) = some x ∧ FMap.find t.worlds (worldKey ctx n) = some y ∧
          y.syncStamp = z.1.hi ∧ y.cstamp = p.tabs.foldl (fun m t => FMap.put t.num z.1.hi m) x.cstamp) ∧
    (∀ mark p c, w.mark = some mark → r.plan mark = .ok p → p.stall = false → p.fail = some c →
      exec (.syncStallRelease ctx n) s = .next (corruptSync w ctx n id c s)) ∧
    (∀ mark, w.mark = some mark → r.plan mark = .corrupt →
      exec (.syncStallRelease ctx n) s = .next (corruptSync w ctx n id {} s)) ∧
    (∀ c, let u := corruptSync w ctx n id c s
      (∃ x, FMap.find u.worlds (worldKey ctx n) = some x ∧ x.failed = true) ∧ (∃ no, returned u 7 no) ∧
      ∀ no, w.geo.number s ctx (w.geo.desc + 144) 8 = some no →
        let start : Rot := { s := dropSync (worldKey ctx n) (s.modWorld (worldKey ctx n) fun x => { x with failed := true })
                             ctx, num := n, geo := w.geo, reg := w.geo }
        let q := ((start.putField 0 122 1 1).close 7 c).1
        returned u 7 (if q.bad then no else no + 1) ∧ ∀ a, u.byte a = q.s.byte a)

/-- R442, R443: a registration whose descriptor and component table are good enters the world, with table 0 made; a bad or
repeated one changes nothing; a deregistration is noted, and takes effect once no cursor is open, no sync runs or has arrived
and no command is at work on the world. The model's own readings in it: log 42 and log 44. -/
def Claims.WorldRegistration : Prop :=
  ∀ (ctx n addr : Nat) (s : State),
    ((FMap.find s.worlds (worldKey ctx n)).isSome = true ∨ addr = 0 →
      exec (.worldRegistration ctx n addr) s = .next s) ∧
    (∀ b ct, addr ≠ 0 → n < 256 → FMap.find s.worlds (worldKey ctx n) = none → (FMap.find s.ctxs ctx).isSome = true →
      s.readVirt ctx addr 256 = some b → s.readVirt ctx (fieldN b 16 8) 1024 = some ct →
      (worldGood addr b ct = false → exec (.worldRegistration ctx n addr) s = .next s) ∧
      (∀ r, worldGood addr b ct = true →
        Rot.create { s, ctx, num := n, geo := geoOf addr b, reg := geoOf addr b } = some r → r.bad = false →
        ∃ t x, exec (.worldRegistration ctx n addr) s = .next t ∧ FMap.find t.worlds (worldKey ctx n) = some x ∧
          x.geo = geoOf addr b ∧ x.comptab = ct.map BitVec.toNat ∧ x.syncs = [] ∧ x.cursors = [] ∧ x.mark = none ∧
          (∀ a, t.byte a = r.s.byte a))) ∧
    (∀ w, FMap.find s.worlds (worldKey ctx n) = some w → ∃ t, exec (.worldDeregistration ctx n) s = .next t ∧
      FMap.find t.worlds (worldKey ctx n) = some { w with dereg := true }) ∧
    (∀ w, FMap.find s.worlds (worldKey ctx n) = some w → w.dereg = true → w.cursors = [] → w.mark = none → w.syncs = [] →
      (∀ e ∈ s.ops, (s.coh e.2.coh).ctx = ctx → ∀ cmd, e.2.kind = .eng cmd → worldKey ctx n ∉ cmd.worldKeys ctx) →
      ∃ t, exec (.deregistrationEffect ctx n) s = .next t ∧ FMap.find t.worlds (worldKey ctx n) = none ∧
        ∀ a, t.byte a = s.byte a) ∧
    (∀ w, FMap.find s.worlds (worldKey ctx n) = some w → (w.dereg = false ∨ w.cursors ≠ [] ∨ w.mark ≠ none ∨ w.syncs ≠ []) →
      exec (.deregistrationEffect ctx n) s = .next s)

/-- Together: `Claims.SyncArrival` and `Claims.WorldRegistration`. -/
def Obligations.SyncsAndRegistration : Prop := Claims.SyncArrival ∧ Claims.WorldRegistration

/-! ## Streams -/

/-- R261 to R263, R279: the filler and the storer of a subscribed stream. The filler starts the next item in an EMPTY slot; an
item it has moved without a fault becomes FULL, in item order; the storer takes a DONE slot, and when its writes have replied
the slot is EMPTY and one more item is finished. Either stops the stream at a fault, and the stream's future gets its CAUSE
and CODE; with its every item stored it gets 0. The model's own readings in it: log 18 and log 66; and log 85, by which a stream
with a storer completes when COUNT of its items are finished. -/
def Obligations.StreamSteps : Prop :=
  ∀ (k n j : Nat) (s : State) (x : Stream), liveStream s k n = some x → j < x.slots.length →
    let after := fun (t : State) => FMap.find (t.coh k).streams n
    let o := x.asOp s k n
    let e0 := x.atWork s k (x.slot j).2
    let filled := fillItem o x (x.slot j).2 (x.offset j) e0
    let stored := fun (d : Tensor) => storeItem o x d (x.slot j).2 (x.offset j) e0
    let future := fun (t : State) (cause code : Nat) => ∀ p, FMap.find s.ops x.op = some p → p.cancelled = false →
      HasWarp s p.coh p.warp → FutureIs p t (futureValue (p.fut.getD 0) 0 cause code)
    let quiet := ∀ e ∈ s.ops, e.2.isWait = false
    (j = x.nextFill % x.nslot → x.paused = false → x.nextFill < x.count → (x.slot j).1 = .empty →
      ∃ t, exec (.streamFillStart k n) s = .next t ∧ t.mem = s.mem ∧ after t = some { x with
        slots := x.slots.set j (.filling, x.nextFill), nextFill := x.nextFill + 1 }) ∧
    ((x.slot j).1 = .filling → (x.slot j).2 = x.nextFull → x.stops filled = none → quiet →
      ∃ t, exec (.streamFillComplete k n j) s = .next t ∧ after t = some { x with
        slots := x.slots.set j (.full, x.nextFull), nextFull := x.nextFull + 1 } ∧
        (∀ a, (t.coh k).readSp a = (filled.s.coh k).readSp a) ∧ (∀ a, t.byte a = s.byte a)) ∧
    (∀ st, (x.slot j).1 = .filling → (x.slot j).2 = x.nextFull → x.stops filled = some st → quiet →
      ∃ t y, exec (.streamFillComplete k n j) s = .next t ∧ after t = some y ∧ y.stopped = true ∧ future t st.1 st.2 ∧
        (∀ a, t.byte a = s.byte a)) ∧
    ((x.slot j).1 = .done → x.dst.isSome = true → ∃ t, exec (.streamStoreStart k n j) s = .next t ∧ t.mem = s.mem ∧
      after t = some { x with slots := x.slots.set j (.storing, (x.slot j).2) }) ∧
    (∀ d, (x.slot j).1 = .storing → x.dst = some d → x.stops (stored d) = none → quiet →
      ∃ t, exec (.streamStoreComplete k n j) s = .next t ∧ after t = some { x with
        slots := x.slots.set j (.empty, 0), finished := x.finished + 1 } ∧
        (x.finished + 1 = x.count → future t 0 0) ∧ ∀ a, t.byte a = (stored d).s.byte a) ∧
    (∀ d st, (x.slot j).1 = .storing → x.dst = some d → x.stops (stored d) = some st → quiet →
      ∃ t y, exec (.streamStoreComplete k n j) s = .next t ∧ after t = some y ∧ y.stopped = true ∧ future t st.1 st.2 ∧
        ∀ a, t.byte a = (stored d).s.byte a)

/-! ## Atomic sets, residency, priority -/

/-- R434, R435, R420: ASDECL numbers the declarations of a group's warps and records them; ASSEAL of a sealed task goes on, and
of an unsealed one stalls with the seal asked for; the seal is recorded. -/
def Claims.SetDeclarationAndSeal : Prop :=
  ∀ (f : Fields) (c : Iss) (s : State),
    (∀ u, Ready (.asdecl f) f c s → gateAll (c.warpsOn f s) (declare c f) s = .pass u →
      (FMap.find s.ctxs (s.coh c.coh).ctx).isSome = true →
      ∃ t, exec (.asdecl f) s = .next t ∧ Advanced c s t ∧
        (∀ i w, (c.warpsOn f s)[i]? = some w → HasWarp s c.coh w → (t.warp c.coh w).readS f.dst.idx.toNat =
          if f.dst.idx.toNat = 63 then 0 else BitVec.ofNat 64 ((s.ctx (s.coh c.coh).ctx).decls.length + i)) ∧
        (t.ctx (s.coh c.coh).ctx).decls = (s.ctx (s.coh c.coh).ctx).decls ++ (c.warpsOn f s).zipIdx.map (fun x =>
          { num := (s.ctx (s.coh c.coh).ctx).decls.length + x.2, base := opSA s c f x.1
            len := (s.srcS c.coh x.1 f.sb).toNat }) ∧
        (∀ a, t.byte a = s.byte a) ∧ SameSpecial s t ∧ SameScratch s t ∧ SameV s t none4 ∧
        SameS s t (fun k w r => k = c.coh ∧ w ∈ c.warpsOn f s ∧ r = f.dst.idx.toNat) ∧ SameP s t none4) ∧
    (Ready (.asseal f) f c s → (c.warpsOn f s ≠ [] → (s.coh c.coh).sealed ≠ .unsealed) →
      ∃ t, exec (.asseal f) s = .next t ∧ Advanced c s t ∧ RegFrame s t none4 none3 none4 none2) ∧
    (Ready (.asseal f) f c s → c.warpsOn f s ≠ [] → (s.coh c.coh).sealed = .unsealed →
      (FMap.find s.cohorts c.coh).isSome = true →
      ∃ t, exec (.asseal f) s = .next t ∧ (t.coh c.coh).sealReq.isSome = true ∧ curIss t = some c ∧
        RegFrame s t none4 none3 none4 none2) ∧
    (∀ k h why, FMap.find s.cohorts k = some h → h.sealReq = some why → h.status = .resident → h.wounded = false →
      h.sealed = .unsealed → ∃ t, exec (.sealRecord k) s = .next t ∧ (t.coh k).sealed = why ∧ (t.coh k).sealReq = none ∧
        RegFrame s t none4 none3 none4 none2)

/-- R417, R418, R421: a free set with waiters goes to the oldest of them, whose view rises to the set's release stamp; once the
accesses of a wounded task have replied its cursors are closed, then its lines hold the bytes they had before its first write,
its sets are free with a release stamp at or above the task's stamps, and it is wounded no longer. The model's own readings in
it: log 46. -/
def Claims.SetHandoffAndUndo : Prop :=
  ∀ (s : State),
    (∀ ctx num d k ws, (s.ctx ctx).decls.find? (fun d => d.num = num) = some d → d.holder = none →
      setWaiters s ctx num = k :: ws → (s.coh k).sealed = .unsealed → (s.coh k).ctx = ctx →
      (FMap.find s.ctxs ctx).isSome = true → (FMap.find s.cohorts k).isSome = true →
      ∃ t, exec (.setHandoff ctx num) s = .next t ∧
        (∃ d', (t.ctx ctx).decls.find? (fun d => d.num = num) = some d' ∧ d'.holder = some k) ∧
        (∀ w, HasWarp s k w → d.release ≤ (t.warp k w).view) ∧ (∀ a, t.byte a = s.byte a)) ∧
    (∀ k h, FMap.find s.cohorts k = some h → h.wounded = true → (∀ e ∈ s.ops, e.2.coh ≠ k) →
      (h.undo.map Undo.line).Nodup → (∀ u ∈ h.undo, u.bytes.length = 128) → (FMap.find s.ctxs h.ctx).isSome = true →
      let closed := closeCursors k s
      ∃ t, exec (.undoRestore k) s = .next t ∧ (t.coh k).wounded = false ∧ (t.coh k).undo = [] ∧
        (∀ u ∈ h.undo, closed.agentLoss u.line = none → t.bytes (u.line * 128) 128 = u.bytes) ∧
        (∀ a, (∀ u ∈ h.undo, a / 128 ≠ u.line) → t.byte a = closed.byte a) ∧ t.worlds = closed.worlds ∧
        (∀ d ∈ (s.ctx h.ctx).decls, d.holder = some k → ∃ d' ∈ (t.ctx h.ctx).decls, d'.num = d.num ∧ d'.holder = none ∧
          h.hmax ≤ d'.release))

/-- Together: `Claims.SetDeclarationAndSeal` and `Claims.SetHandoffAndUndo`. -/
def Obligations.AtomicSets : Prop := Claims.SetDeclarationAndSeal ∧ Claims.SetHandoffAndUndo

/-- R93, R433, R437 to R439: RESPIN's answer, and what it pins: a free granule becomes the cohort's with answer 1, one of its
own is given up with answer 3, every other answer changes nothing, and no other pinned granule leaves the table; PRIO sets the
cohort's priority, at most its launch's; the oldest REGGROW request is granted with its count when it fits the free units,
with every warp waiting each one that fits, oldest first, and where none fits the youngest fails with 0. -/
def Obligations.ResourceInstructions : Prop :=
  ∀ (f : Fields) (c : Iss) (s : State),
    (Ready (.respin f) f c s → exec (.respin f) s = .next (leaveNext c f.bnd (forEach (c.warpsOn f s) (fun w t =>
      (respin c (f.modn = 1) (opSA s c f w) t).1.writeS c.coh w f.dst.idx.toNat
        (BitVec.ofNat 64 (respin c (f.modn = 1) (opSA s c f w) t).2)) (useWindows c s)))) ∧
    (∀ va, let pin := (residOf s c.core (c.ctx s) va).bind Resid.pin
      (pin = some c.coh → (respin c true va s).2 = 3 ∧ (respin c false va s).2 = 4) ∧
      (pin = none → (respin c true va s).2 = 4 ∧ (respin c false va s).2 =
        if 256 ≤ ((s.core c.core).resid.filter fun r => r.pin.isSome).length then 0 else 1) ∧
      (∀ k, pin = some k → k ≠ c.coh → (respin c true va s).2 = 4 ∧ (respin c false va s).2 = 2) ∧
      ∀ unpin, let r := respin c unpin va s
        RegFrame s r.1 none4 none3 none4 none2 ∧ (r.2 ≠ 1 → r.2 ≠ 3 → r.1 = s) ∧
        ((FMap.find s.cores c.core).isSome = true →
          (r.2 = 1 → (residOf r.1 c.core (c.ctx s) va).bind Resid.pin = some c.coh) ∧
          (r.2 = 3 → (residOf r.1 c.core (c.ctx s) va).bind Resid.pin = none)) ∧
        ∀ x ∈ (s.core c.core).resid, x.pin.isSome = true → ¬ (x.ctx = c.ctx s ∧ x.gran = granOf va) →
          x ∈ (r.1.core c.core).resid) ∧
    (Ready (.prio f) f c s →
      (c.warpsOn f s ≠ [] → f.immBits 4 0 ≤ ((FMap.find s.launches (s.coh c.coh).launch).map Launch.prio).getD 0) →
      (FMap.find s.cohorts c.coh).isSome = true →
      ∃ t, exec (.prio f) s = .next t ∧ Advanced c s t ∧ RegFrame s t none4 none3 none4 none2 ∧
        (t.coh c.coh).prio = if c.warpsOn f s = [] then (s.coh c.coh).prio else f.immBits 4 0) ∧
    (∀ core id k w n dst rs, growRequests s core = (id, k, w, n, dst) :: rs → growFits s core (id, k, w, n, dst) = true →
      dst < 63 → HasWarp s k w →
      (∀ e ∈ s.ops, e.2.coh = k → e.1 = id ∨ ∀ ids any hi d, e.2.kind ≠ .fwait ids any hi d) →
      (∀ r ∈ rs, r.2.1 = k → r.2.2.1 ≠ w) →
      ∃ t, exec (.reggrowGrant core) s = .next t ∧ FMap.find t.ops id = none ∧ (t.warp k w).alloc = n ∧
        (t.warp k w).readS dst = BitVec.ofNat 64 n ∧ (∀ r l, (t.warp k w).readV r l = (s.warp k w).readV r l)) ∧
    (∀ core, exec (.reggrowGrant core) s = .next (forEach (if allGrowing s core then growRequests s core
      else (growRequests s core).take 1) (grantGrow core) s)) ∧
    (∀ core r (u : State), growFits u core r = false → grantGrow core r u = u) ∧
    (∀ core id k w n dst, (growRequests s core).getLast? = some (id, k, w, n, dst) → allGrowing s core = true →
      (growRequests s core).any (growFits s core) = false → dst < 63 → HasWarp s k w →
      (∀ e ∈ s.ops, e.2.coh = k → e.1 = id ∨ ∀ ids any hi d, e.2.kind ≠ .fwait ids any hi d) →
      ∃ t, exec (.reggrowFailure core) s = .next t ∧ FMap.find t.ops id = none ∧ (t.warp k w).readS dst = 0 ∧
        (t.warp k w).alloc = (s.warp k w).alloc)

/-! ## System instructions -/

/-- R164, R165, R167, R168: TRAP takes its software trap, with IMM as DETAIL and PC + 1 as resume PC, for the guard-holding
threads; TRET outside a handler traps; the last handler thread's TRET ends the handler, and its threads go on at their resume
PC, or at TRPC when the handler wrote it; PREEMPT with no request pending only goes on. -/
def Claims.TrapsAndReturns : Prop :=
  ∀ (f : Fields) (c : Iss) (s : State),
    (Ready (.trap f) f c s → c.on f s ≠ [] → (∀ x ∈ c.ths, HasThread s c.coh x.1 x.2) →
      (∀ w ∈ c.warps, (s.warp c.coh w).handler = false ∧ (s.warp c.coh w).trapq.length < 8) →
      ∃ t, exec (.trap f) s = .next t ∧
        (∀ x ∈ c.on f s, (t.thread c.coh x.1 x.2).tpc = c.pc + 1 ∧ (t.thread c.coh x.1 x.2).held = true) ∧
        (∀ x ∈ c.ths, x ∉ c.on f s → (t.thread c.coh x.1 x.2).pc = c.pc + 1) ∧
        (∀ w ∈ c.warpsOn f s, (t.warp c.coh w).trapq = (s.warp c.coh w).trapq ++
          [{ code := 0x0C, detail := f.imm.toNat, pc := c.pc, lmask := laneMask (c.lanesOn f s w)
             split := decide (1 < (c.warpsOn f s).length) }]) ∧
        SameOutside s t ∧ SameScratch s t ∧ SameV s t none4 ∧ SameS s t none3 ∧ SameP s t none4 ∧ SameFlags s t none2) ∧
    (Ready (.tret f) f c s → (∃ x ∈ c.on f s, inHandler s c.coh x.1 x.2 = false) →
      exec (.tret f) s = .next (trapAll c { code := 2, detail := 1 } s)) ∧
    (∀ w r, Ready (.tret f) f c s → c.on f s = c.ths → (∀ x ∈ c.ths, x.1 = w ∧ x.2 < 32 ∧ HasThread s c.coh w x.2) →
      (s.warp c.coh w).handler = true → (s.warp c.coh w).hret = 0 → (s.warp c.coh w).trapq = [r] →
      c.ths ≠ [] → (∀ l, laneIn (s.warp c.coh w).hleft l = true ↔ (w, l) ∈ c.ths) → noneParked c s →
      ∃ t, exec (.tret f) s = .next t ∧ (t.warp c.coh w).handler = false ∧ (t.warp c.coh w).trapq = [] ∧
        (∀ x ∈ c.ths, (t.thread c.coh w x.2).held = false ∧ (t.thread c.coh w x.2).pc =
          if (s.warp c.coh w).trpcSet then (s.warp c.coh w).trpc.setWidth 32 else (s.thread c.coh w x.2).tpc) ∧
        SameOutside s t ∧ SameScratch s t ∧ SameV s t none4 ∧ SameS s t none3 ∧ SameP s t none4 ∧ SameFlags s t none2) ∧
    (Ready (.preempt f) f c s → (s.coh c.coh).preq = none →
      ∃ t, exec (.preempt f) s = .next t ∧ Advanced c s t ∧ RegFrame s t none4 none3 none4 none2)

/-- R41, R42, R140, R141, R167, R168, R243: with a pre-emption request pending, PREEMPT waits for SA while a warp's is pending,
traps at a marked one and at a list that cannot be read or breaks the rule (a list whose address is not canonical before any
other reason); once the lists have been read it stops the guard-holding threads and notes the registers, accumulator tiles
and scratchpad ranges they name. -/
def Claims.PreemptStops : Prop :=
  ∀ (f : Fields) (c : Iss) (s : State), Ready (.preempt f) f c s →
    let ws := rangeWarps s c f
    ((∃ w ∈ ws, pendingS s c.coh w f.sa.idx.toNat = true) → exec (.preempt f) s = .next s) ∧
    (∀ w rest p, ws = w :: rest → (∀ v ∈ ws, pendingS s c.coh v f.sa.idx.toNat = false) →
      poisonMet (s.warp c.coh w) [{ vec := false, idx := f.sa.idx.toNat }] [] = some p →
      exec (.preempt f) s = .next (trapAll c p.trapRec s)) ∧
    (∀ w rest, ws = w :: rest → (∀ v ∈ ws, pendingS s c.coh v f.sa.idx.toNat = false) →
      (∀ v ∈ ws, poisonMet (s.warp c.coh v) [{ vec := false, idx := f.sa.idx.toNat }] [] = none) →
      canonical (rangeAddr s c f w) = false →
      exec (.preempt f) s = .next (trapAll c { code := 3, detail := 1, addr := rangeAddr s c f w } s)) ∧
    (∀ u, rangesGate f c s = .pass u → (u.coh c.coh).preq.isSome = true → c.on f u ≠ [] →
      (∀ x ∈ c.ths, HasThread u c.coh x.1 x.2) →
      ∃ t, exec (.preempt f) s = .next t ∧
        (∀ x ∈ c.on f u, (t.thread c.coh x.1 x.2).stopped = true) ∧
        (∀ x ∈ c.ths, x ∉ c.on f u → (t.thread c.coh x.1 x.2).pc = c.pc + 1) ∧
        (t.coh c.coh).liveAcc = (u.coh c.coh).liveAcc ||| f.mod.setWidth 4 ∧
        (t.coh c.coh).liveRanges = (u.coh c.coh).liveRanges ++ allRanges u c f ∧
        (∀ w ∈ c.warpsOn f u, (t.warp c.coh w).live = some (((u.warp c.coh w).live.getD 0) ||| f.imm)) ∧
        RegFrame u t none4 none3 none4 none2)

/-- Together: `Claims.TrapsAndReturns` and `Claims.PreemptStops`. -/
def Obligations.TrapInstructions : Prop := Claims.TrapsAndReturns ∧ Claims.PreemptStops

/-- R151, R152, R169, R170: CTXSAVE and CTXLOAD once their checks pass. A target that is refused gives its status at once; a
phase whose target is in another phase waits for that; else the target is SAVING or LOADING, its resident cohorts are asked
to stop for a save, and the warp waits. -/
def Claims.ContextPhases : Prop :=
  ∀ (save : Bool) (f : Fields) (c : Iss) (s u : State) (w : Nat),
    let i := if save then Instr.ctxsave f else Instr.ctxload f
    let t0 := phaseTarget u c.coh w f
    let image := phaseImage u c.coh w f
    Ready i f c s → phaseGate save f c s = .pass u → c.warpsOn f u = [w] → f.dst.idx.toNat < 63 → HasWarp u c.coh w →
    (∀ n, phaseRefused u (u.coh c.coh).ctx save t0 image = some n → ∃ t, exec i s = .next t ∧ Advanced c u t ∧
      (t.warp c.coh w).readS f.dst.idx.toNat = BitVec.ofNat 64 n ∧
      RegFrame u t none4 (fun k x r => k = c.coh ∧ x = w ∧ r = f.dst.idx.toNat) none4 none2) ∧
    (phaseRefused u (u.coh c.coh).ctx save t0 image = none → (FMap.find u.ctxs t0).isSome = true →
      ∃ t o, exec i s = .next t ∧ Blocked c t ∧ FMap.find t.ops u.nextOp = some o ∧ o.coh = c.coh ∧ o.warp = w ∧
        o.kind = .phase save t0 image f.dst.idx.toNat (phaseInFlight u t0) ∧
        (phaseInFlight u t0 = true → (t.ctx t0).st = (u.ctx t0).st) ∧
        (phaseInFlight u t0 = false → (t.ctx t0).st = (if save then .saving else .loading)) ∧
        (phaseInFlight u t0 = false → save = true →
          ∀ k h, FMap.find u.cohorts k = some h → h.ctx = t0 → h.status = .resident →
            (t.coh k).preq.isSome = true ∨ (t.coh k).preqWait = true) ∧
        SameV u t none4 ∧ SameS u t none3 ∧ SameP u t none4 ∧ ∀ a, t.byte a = u.byte a)

/-- R137, R151, R152, R169: the end of a phase. With no cohort of a SAVING context resident it is SAVED, its image is written, and
the CTXSAVE that asked gets its size, of at least one page; a LOADING context is ACTIVE with the context-scope registers its image
holds, and the CTXLOAD gets 0. An image that cannot be written, or read, is a context fault of cause 5, and the context FAULTED;
that one which lies there no more when the load ends is such a failure is the model's choice (log 99). The model's own readings
in it: log 4, and log 73 for the bytes of the image. -/
def Claims.PhaseEnds : Prop :=
  ∀ (ctx op image dst : Nat) (o : Op) (s : State), (FMap.find s.ctxs ctx).isSome = true → dst < 63 →
    HasWarp s o.coh o.warp → (s.ctx ctx).vfHeld = false →
    (∀ e ∈ s.ops, e.2.coh = o.coh → e.2.isWait = false) → FMap.find s.ops op = some o →
    phaseQueued s ctx = none →
    (∀ b, o.kind = .phase b ctx image dst false → phaseOn s ctx b = some (op, o) →
      let own := (s.coh o.coh).ctx
      let n := imageUnits s
      let faulted := fun (i : Instr) => ∃ t, exec i s = .next t ∧ (t.ctx ctx).st = .faulted ∧
        (t.ctx ctx).faultrec = leNat (TrapRec.bytes { code := 0x85, addr := image } 0)
      (b = true → (s.ctx ctx).st = .saving → cohortsOf s ctx .resident = [] →
        (∀ c, areaFailure .write s own image (4096 * n) = some (.fault c) → faulted (.savePhaseCompletion ctx)) ∧
        (areaFailure .write s own image (4096 * n) = none → ∃ t, exec (.savePhaseCompletion ctx) s = .next t ∧ (t.ctx ctx).st = .saved ∧
          (t.ctx ctx).images.head? = some (imageOf s ctx (imagePages s own image n)) ∧
          FMap.find t.ops op = none ∧ 1 ≤ n ∧ n ≤ 10240 ∧
          (t.warp o.coh o.warp).readS dst = BitVec.ofNat 64 (n * 2 ^ 32) ∧
          ∀ a, t.byte a = (writePrivate own image (4096 * n) { s with free := s.free + 1 }).byte a)) ∧
      (b = false → (s.ctx ctx).st = .loading → imageAt s own ctx image = none → faulted (.loadPhaseCompletion ctx)) ∧
      (b = false → (s.ctx ctx).st = .loading → ∀ i, imageAt s own ctx image = some i →
        (∀ c, areaFailure .read s own image (4096 * i.pages.length) = some (.fault c) → faulted (.loadPhaseCompletion ctx)) ∧
        (areaFailure .read s own image (4096 * i.pages.length) = none → ∃ t, exec (.loadPhaseCompletion ctx) s = .next t ∧ FMap.find t.ops op = none ∧
          t.ctx ctx = Context.setRegs i.regs { s.ctx ctx with st := .active } ∧
          (t.warp o.coh o.warp).readS dst = 0 ∧ ∀ a, t.byte a = s.byte a)))

/-- R170: of two CTXSAVEs issued on an ACTIVE context, one returns 0 and the other returns 2: the second, which waits for
the first, is judged against the state that the end of the first leaves. The model's own readings in it: log 4. -/
def Claims.PhasesSerialised : Prop :=
  ∀ (ctx op dst image late dst2 image2 : Nat) (o o2 : Op) (s : State), (FMap.find s.ctxs ctx).isSome = true →
    dst < 63 → dst2 < 63 → HasWarp s o.coh o.warp → HasWarp s o2.coh o2.warp →
    (o.coh, o.warp, dst) ≠ (o2.coh, o2.warp, dst2) → (s.ctx ctx).vfHeld = false →
    (∀ e ∈ s.ops, e.2.coh = o.coh ∨ e.2.coh = o2.coh → e.2.isWait = false) →
    (∀ e ∈ s.ops, (∃ b i d, e.2.kind = .phase b ctx i d true) → e.1 = late) →
    FMap.find s.ops op = some o → phaseOn s ctx true = some (op, o) → o.kind = .phase true ctx image dst false →
    FMap.find s.ops late = some o2 → phaseQueued s ctx = some (late, o2) → o2.kind = .phase true ctx image2 dst2 true →
    phaseRefused s (s.coh o2.coh).ctx true ctx image2 = none →
    (s.ctx ctx).st = .saving → cohortsOf s ctx .resident = [] →
    areaFailure .write s (s.coh o.coh).ctx image (4096 * imageUnits s) = none →
    ∃ t n, exec (.savePhaseCompletion ctx) s = .next t ∧ (t.ctx ctx).st = .saved ∧
      FMap.find t.ops op = none ∧ FMap.find t.ops late = none ∧ 1 ≤ n ∧ n ≤ 10240 ∧
      (t.warp o.coh o.warp).readS dst = BitVec.ofNat 64 (n * 2 ^ 32) ∧ (t.warp o2.coh o2.warp).readS dst2 = 2

/-- Together: `Claims.ContextPhases` and `Claims.PhaseEnds` and `Claims.PhasesSerialised`. -/
def Obligations.ContextSwitches : Prop := Claims.ContextPhases ∧ Claims.PhaseEnds ∧ Claims.PhasesSerialised

/-- R160, R171, R172, R176, R177: WRSR writes its warp's or its context's register once its checks pass; ERESV returns the old
reservation and takes the new one when the allowance holds it, with its answer outstanding; HCALL of the physical function
answers all ones at once, and of a virtual function waits with its call still to be posted.
The model's own readings in it: log 39. -/
def Obligations.SystemWrites : Prop :=
  ∀ (f : Fields) (c : Iss) (s : State) (w : Nat), c.warpsOn f s = [w] → HasWarp s c.coh w →
    (FMap.find s.ctxs (s.coh c.coh).ctx).isSome = true → (FMap.find s.cohorts c.coh).isSome = true →
    let v := s.srcS c.coh w f.sa
    let n := sysIdx f
    let x := s.ctx (s.coh c.coh).ctx
    (Ready (.wrsr f) f c s → sysIdxCheck true f c s = .pass s → wrsrCheck f c w s = .pass s → flagsReady f c s = true →
      ∃ t, exec (.wrsr f) s = .next t ∧ Advanced c s t ∧
        (n = 0 → (t.warp c.coh w).tvec = v) ∧ (n = 1 → (t.warp c.coh w).trpc = v ∧ (t.warp c.coh w).trpcSet = true) ∧
        (3 ≤ n → n ≤ 6 → (t.warp c.coh w).tsch.getD 0 (n - 3) = v) ∧
        (n = 8 → (t.warp c.coh w).fpflags = v.setWidth 5) ∧
        (n = 0x11 → (t.ctx (s.coh c.coh).ctx).hanglim = v) ∧ (n = 0x12 → (t.ctx (s.coh c.coh).ctx).binage = v) ∧
        (n = 0x13 → (t.ctx (s.coh c.coh).ctx).lspan = v) ∧ (n = 0x14 → (t.ctx (s.coh c.coh).ctx).pfall = v) ∧
        (0x20 ≤ n → (t.ctx (s.coh c.coh).ctx).bkpt.getD 0 (n - 0x20) = v) ∧
        (∀ a, t.byte a = s.byte a) ∧ SameScratch s t ∧ SameV s t none4 ∧ SameS s t none3 ∧ SameP s t none4) ∧
    (Ready (.eresv f) f c s → v.toNat ≤ 2 ^ 40 → ∃ t, exec (.eresv f) s = .next t ∧ Advanced c s t ∧
      (let pool := x.allow + (s.coh c.coh).resv
        let ok := decide (v.toNat ≤ pool)
        FMap.find t.ops s.nextOp = some (longOp (.eresv f) f c s [.s f.dst.idx.toNat (if ok then 1 else 0)] 0 w) ∧
        (t.coh c.coh).resv = (if ok then v.toNat else 0) ∧
        (t.ctx (s.coh c.coh).ctx).allow = (if ok then pool - v.toNat else pool)) ∧
      (∀ a, t.byte a = s.byte a) ∧ SameScratch s t ∧ SameV s t none4 ∧ SameS s t none3 ∧ SameP s t none4) ∧
    (Ready (.hcall f) f c s → fnOf (s.coh c.coh).ctx = 0 → WritesS (.hcall f) f c s fun _ => 0xFFFFFFFFFFFFFFFF) ∧
    (Ready (.hcall f) f c s → fnOf (s.coh c.coh).ctx ≠ 0 → ∃ t o, exec (.hcall f) s = .next t ∧ Blocked c t ∧
      FMap.find t.ops s.nextOp = some o ∧ o.coh = c.coh ∧ o.warp = w ∧
      o.kind = .hcall (fnOf (s.coh c.coh).ctx) (f.immBits 15 0) f.dst.idx.toNat
        ((s.warp c.coh w).readS f.sa.idx.toNat) false ∧ RegFrame s t none4 none3 none4 none2)

/-! ## Encoding, the step, reset and memory -/

/-- R25, R26, R30, R45 and the worked encodings of 02: FFMA.F32.RNE v3, v1, v2, v3; ?!p3 BRA #-1 :: end; IADD.S32 v4, v4, #-3;
and words of the other groups, decode to the instruction they stand for; an opcode without an instruction is unassigned. -/
def Obligations.SpecWordsDecode : Prop :=
  let u : Operand := ⟨.none, 0⟩
  let v := fun (n : BitVec 9) => (⟨.vec, n⟩ : Operand)
  let sc := fun (n : BitVec 9) => (⟨.scalar, n⟩ : Operand)
  let pt : Guard := ⟨false, 7⟩
  let reads := fun (w2 w1 w0 : Nat) (i : Instr) =>
    decode (bytesOfNat 4 w0 ++ bytesOfNat 4 w1 ++ bytesOfNat 4 w2) = .instr i []
  reads 0x00000000 0x000C0080 0x0400DCC3 (.ffma ⟨pt, v 3, v 1, v 2, 3, 0, 0, false, 0⟩) ∧
  reads 0x1003FFFF 0xFFFF8038 0x03802C01 (.bra ⟨⟨true, 3⟩, u, u, u, 0xFFFFFFFF, 0, 0, true, 0⟩) ∧
  reads 0x000C0000 0x00027F40 0x10011C80 (.iadd ⟨pt, v 4, v 4, ⟨.imm, 0x1FD⟩, 0, 3, 0, false, 0⟩) ∧
  -- SADD.U64 s1, s2, s3
  reads 0x00180000 0x000080C8 0x08805C40 (.sadd ⟨pt, sc 1, sc 2, sc 3, 0, 6, 0, false, 0⟩) ∧
  -- LD v8, [v2 + 16], 32 bits, LA 5
  reads 0x05080000 0x00438000 0x08021D80 (.ld ⟨pt, v 8, v 2, u, 16, 2, 5, false, 0⟩) ∧
  -- TRAP with IMM 9
  reads 0x00000000 0x00278038 0x03801F40 (.trap ⟨pt, u, u, u, 9, 0, 0, false, 0⟩) ∧
  -- group 0, index 12
  decode (bytesOfNat 4 0x03801C0C ++ bytesOfNat 4 0x00038038 ++ bytesOfNat 4 0) = .unassigned 0x00C

/-- Decoding the encoding of any well-formed instruction, whatever follows it, gives it back with every operand. -/
def Obligations.EncodeThenDecode : Prop :=
  ∀ (i : Instr) (rest : List Byte), WellFormed i = true → decode (encode i ++ rest) = .instr i rest

/-- Every word that decodes to an instruction, well formed or not, is that instruction's encoding: no bit is dropped, and no
two words decode to one instruction; and what follows it is left. -/
def Obligations.DecodeThenEncode : Prop :=
  ∀ (bs rest : List Byte) (i : Instr), decode bs = .instr i rest → bs = encode i ++ rest ∧ (encode i).length = 12

/-- R25, R43, R107, R124, R135: when the next turn is an issue step of a slot whose group is within its run, has no member due
for a trap, is neither suspended nor stalled and is stopped by no breakpoint, and the bytes at its PC lie on modules that are
there and decode to instruction i, the step is exec of i at the state in which time has passed and the page is noted in the
TLBs; an event's turn is exec of the event, and a turn of the host its request. Time passing and the fetch change no cohort,
operation or memory. The model's own readings in it: log 2 and log 59. -/
def Obligations.StepRunsDecodedInstruction : Prop :=
  ∀ (s : State) (t : Turn) (r : List Turn), s.agenda = t :: r →
    let u := passTime t { s with agenda := r }
    u.cohorts = s.cohorts ∧ u.ops = s.ops ∧ u.mem = s.mem ∧ u.dclk = s.dclk + t.dcycles ∧
    (∀ k, (FMap.find s.cores k).isSome = true → (u.core k).cycle = (s.core k).cycle + t.cycles) ∧
    (∀ (core slot : Nat) (c : Iss) (g : Group) (bs rest : List Byte) (i : Instr), t.act = .issue core slot →
      let x := { u with cur := (core, slot) }
      curIss x = some c → FMap.find (x.core c.core).entries c.ent = some g → g.ran < 24 →
      fetchSuspended x c = false → issueStalls x c = false →
      (∀ y ∈ c.ths, (x.thread c.coh y.1 y.2).hang = false ∧ (x.thread c.coh y.1 y.2).due = false) → breakThs x c = [] →
      fetchLost x c = none → fetchBytes x c = .ok bs → decode bs = .instr i rest →
      step s = exec i (noteFetch x) ∧ (noteFetch x).cohorts = s.cohorts ∧ (noteFetch x).ops = s.ops ∧
        (noteFetch x).mem = s.mem) ∧
    (∀ e, t.act = .event e → fieldsOf e = none → step s = exec e u) ∧
    (∀ h, t.act = .host h → step s = execHost h u)

/-- R151, R160, R248, R279, R300, R402, R174: what reset leaves. Every context is FREE and its registers hold their reset
values; every stamp, lease end and floor is 0; the first age stamp is 1; every core's counters are 0, its slots and tables are
empty; no cohort is resident and nothing is outstanding; memory lists nothing (what a byte that nothing has written reads as
is the model's choice, log 1). -/
def Obligations.ResetState : Prop :=
  let s := State.reset
  (∀ k, k < 1024 → (FMap.find s.ctxs k).isSome = true ∧ (s.ctx k).st = .free ∧ (s.ctx k).hanglim = 2 ^ 20 ∧
    (s.ctx k).binage = 4 ∧ (s.ctx k).lspan = 16 ∧ (s.ctx k).pfall = 4096 ∧ (s.ctx k).ecfg = 1 ∧ (s.ctx k).priv = 0 ∧
    (s.ctx k).csave = 0 ∧ (s.ctx k).csaven = 0 ∧ (s.ctx k).ptbase = 0 ∧ ∀ n, n < 4 → (s.ctx k).bkpt.getD 0 n = 0) ∧
  (∀ line, isPeer line = false → isHost line = false → s.home line = (0, 0)) ∧ s.ageNext = 1 ∧
  (∀ k, k < 192 → (FMap.find s.cores k).isSome = true ∧ (s.core k).cycle = 0 ∧ (s.core k).engSeq = 0 ∧
    (s.core k).slots = [none, none, none, none] ∧ (s.core k).entries = [] ∧ (s.core k).bins = []) ∧
  s.cohorts = [] ∧ s.ops = [] ∧ s.mem = []

/-- Memory after reset is in its canonical form, which is the model's own (log 1). -/
def Obligations.MemoryFormAtReset : Prop := Memory.wf State.reset.mem = true

/-- Memory stays in its canonical form, which is the model's own (log 1): addresses strictly rising, no entry equal to what an
unlisted address reads as. It holds of every step from every state whose memory is in that form. -/
def Obligations.StepKeepsMemoryForm : Prop :=
  ∀ (s t : State), Memory.wf s.mem = true → step s = .next t → Memory.wf t.mem = true

/-! ## Events of the slots -/

/-- R97, R98, R100, R123, R160: an arbitration round of a slot that holds no group. With no candidate the slot stays empty; a
group that wins is in the slot, and a bin that wins is drawn into the lowest free entry, for each home lane the thread of the
lowest warp; the winner's warps see the context's registers of that moment. No register a thread reads changes.
The model's own readings in it: log 54, log 58 and log 60. -/
def Claims.ArbitrationRounds : Prop :=
  ∀ (core slot : Nat) (s : State), (s.core core).slots[slot]? = some none →
    let u := endBackoffs core (ageBins core s)
    let win := winner (s.core core).lastWin (candidates u core)
    ∃ t, exec (.arbitrationRound core slot) s = .next t ∧ RegFrame s t none4 none3 none4 none2 ∧ t.ops = s.ops ∧
      (win = none → (t.core core).slots = (s.core core).slots) ∧
      (∀ x, win = some x → x.pos < 160 → (t.core core).slots.getD slot none = some x.pos ∧ (t.core core).lastWin = x.pos ∧
        (∀ g, FMap.find (t.core core).entries x.pos = some g → ∀ y ∈ g.ths, HasWarp s g.coh y.1 →
          (t.warp g.coh y.1).atRun = some (s.ctxRegs (s.coh g.coh).ctx) ∧
          (t.warp g.coh y.1).seen = some (s.ctxRegs (s.coh g.coh).ctx))) ∧
      (∀ x b e, win = some x → 160 ≤ x.pos →
        (u.core core).bins.find? (fun b => b.num + 160 = x.pos) = some b → (u.core core).freeEntry = some e →
        (t.core core).slots.getD slot none = some e ∧
        ∃ g, FMap.find (t.core core).entries e = some g ∧ g.coh = b.coh ∧ g.pc = b.pc ∧ g.ths = drawn b)

/-- R43, R98, R123: the 24th instruction of a run ends it: the slot is empty and the group keeps its entry and PC; a bin older
than BINAGE becomes drawable; a backoff that has run out ends. No register a thread reads changes. -/
def Claims.RunAndAgeExpiries : Prop :=
  ∀ (core slot : Nat) (s : State),
    (∀ c g, issOf s core slot = some c → FMap.find (s.core c.core).entries c.ent = some g → 24 ≤ g.ran →
      ∃ t, exec (.runForcedBoundary core slot) s = .next t ∧ (t.core core).slots.getD slot none = none ∧
        FMap.find (t.core core).entries c.ent = some { g with ran := 0, ranAt := (s.core core).runNo + 1 } ∧
        RegFrame s t none4 none3 none4 none2) ∧
    (∀ bin, ∃ t, exec (.binAgeExpiry core bin) s = .next t ∧ RegFrame s t none4 none3 none4 none2 ∧
      ∀ b ∈ (s.core core).bins, b.num = bin → (s.ctx (s.coh b.coh).ctx).binage.toNat < b.age →
        { b with ripe := true } ∈ (t.core core).bins) ∧
    (∀ entry, ∃ t, exec (.yieldBackoffExpiry core entry) s = .next t ∧ RegFrame s t none4 none3 none4 none2 ∧
      ∀ g, FMap.find (s.core core).entries entry = some g → g.backoff = some 0 →
        FMap.find (t.core core).entries entry = some { g with backoff := none })

/-- Together: `Claims.ArbitrationRounds` and `Claims.RunAndAgeExpiries`. -/
def Obligations.SlotRounds : Prop := Claims.ArbitrationRounds ∧ Claims.RunAndAgeExpiries

/-- R107, R108, R123, R130, R135: the hang trap and the breakpoint, in warps without a handler and with room in their trap
queues. The stopped threads are held with the group's PC as resume PC, each warp's queue takes its record, a hang trap's
members count from zero again; a breakpoint does not stop the members that may pass it. No register, predicate or memory
changes. The model's own readings in it: log 33. -/
def Claims.HangsAndBreakpoints : Prop :=
  ∀ (core n : Nat) (c : Iss) (s : State),
    let room := fun (ws : List (Nat × Nat)) => ∀ x ∈ ws, (s.warp c.coh x.1).handler = false ∧
      (s.warp c.coh x.1).trapq.length < 8
    let kept := fun (t : State) => SameOutside s t ∧ SameScratch s t ∧ SameV s t none4 ∧ SameS s t none3 ∧ SameP s t none4
    (∀ x ∈ c.ths, HasThread s c.coh x.1 x.2) →
    (let due := c.ths.filter fun x => (s.thread c.coh x.1 x.2).hang
      let top := fun (w : Nat) => (c.lanesOf w).foldl (fun a l => max a (s.thread c.coh w l).spin) 0
      entIss s core n = some c → due ≠ [] → room due →
      (∀ g, FMap.find (s.core core).entries n = some g → g.held = false ∧ g.waits = [] ∧ (g.yielded = false ∨ c.slot ≠ 4)) →
      ∃ t, exec (.hangTrap core n) s = .next t ∧ kept t ∧
        (∀ x ∈ due, (t.thread c.coh x.1 x.2).spin = 0 ∧ (t.thread c.coh x.1 x.2).hang = false) ∧
        (∀ x ∈ c.ths, x.1 ∈ due.map Prod.fst →
          (t.thread c.coh x.1 x.2).held = true ∧ (t.thread c.coh x.1 x.2).tpc = c.pc) ∧
        (∀ w ∈ due.map Prod.fst, (t.warp c.coh w).trapq = (s.warp c.coh w).trapq ++
          [{ code := 7, detail := top w % 2 ^ 32, pc := c.pc, lmask := laneMask (c.lanesOf w)
             split := decide (1 < c.warps.length) }])) ∧
    (issOf s core n = some c → breakThs s c ≠ [] → room (breakThs s c) →
      ∃ t, exec (.breakpoint core n) s = .next t ∧ kept t ∧
        (∀ x ∈ breakThs s c, (t.thread c.coh x.1 x.2).held = true ∧ (t.thread c.coh x.1 x.2).tpc = c.pc) ∧
        (∀ x ∈ c.ths, x ∉ breakThs s c → (t.thread c.coh x.1 x.2).pc = c.pc) ∧
        (∀ w ∈ (breakThs s c).map Prod.fst, (t.warp c.coh w).trapq = (s.warp c.coh w).trapq ++
          [{ code := 0x0D, detail := (breakAt s c w).getD 0, pc := c.pc
             lmask := laneMask (((breakThs s c).filter fun x => x.1 = w).map Prod.snd)
             split := decide (1 < (sortedNats ((breakThs s c).map Prod.fst)).length) }]))

/-- R25, R45, R112, R132, R520: a fetch that fails is the memory fault at the PC, of the whole group; one from a module that is
out, or to which the fabric fails the request, is the fabric trap with that cause (the model's own reading, log 64); an opcode
that names no instruction is the illegal-instruction trap, DETAIL 1 when a reserved bit is set and 2 otherwise; the head record
of a queue is delivered when no handler is active and the warp is quiet: with TVEC unset it is a context fault of cause 3, else
the handler is active and the record's held threads go on at TVEC. The model's own readings in it: log 38. -/
def Claims.FetchFailuresAndDelivery : Prop :=
  ∀ (core slot : Nat) (s : State),
    (∀ c va n, issOf s core slot = some c → fetchFailure s c = some (va, .fault n) →
      exec (.fetchFault core slot) s = .next (trapAll c { code := 3, detail := n, addr := va, aux := 2 } s)) ∧
    (∀ c va d, issOf s core slot = some c → fetchFailure s c = none → fetchLost s c = some (va, d) →
      exec (.fetchFault core slot) s = .next (trapAll c { code := 0x0E, detail := d, addr := va } s) ∧
      ∃ i key cause, i < 12 ∧ va = (fetchAddr s c.coh c.pc + i) % 2 ^ 64 ∧
        translate s c.core (s.coh c.coh).ctx va .fetch = .ok key ∧ d = cause * 65536 + peerOf (lineOf key) ∧
        isPeer (lineOf key) = true ∧ (if peerOf (lineOf key) ∈ s.absent then cause = 1 else
          (peerOf (lineOf key), cause) ∈ s.lost)) ∧
    (∀ c bs opc, issOf s core slot = some c → fetchBytes s c = .ok bs → decode bs = .unassigned opc →
      exec (.unassignedOpcode core slot) s =
        .next (trapAll c { code := 1, detail := if leNat bs / 2 ^ 93 % 8 ≠ 0 then 1 else 2 } s)) ∧
    (∀ k w r rest, (s.coh k).status = .resident → (s.warp k w).handler = false → (s.warp k w).trapq = r :: rest →
      warpQuiet s k w = true → trapDue (s.warp k w) = false →
      ((s.warp k w).tvec = 0xFFFFFFFF →
        exec (.trapDelivery k w) s = .next (contextFault (s.coh k).ctx 3 rest.length r s)) ∧
      ((s.warp k w).tvec ≠ 0xFFFFFFFF → ∃ t, exec (.trapDelivery k w) s = .next t ∧
        (t.warp k w).handler = true ∧ (t.warp k w).trapq = r :: rest ∧
        (∀ l, l < 32 → laneIn r.lmask l = true → (s.thread k w l).held = true → HasThread s k w l →
          (t.thread k w l).held = false ∧ (t.thread k w l).pc = (s.warp k w).tvec.setWidth 32) ∧
        SameOutside s t ∧ SameScratch s t ∧ SameV s t none4 ∧ SameS s t none3 ∧ SameP s t none4 ∧ SameFlags s t none2))

/-- Together: `Claims.HangsAndBreakpoints` and `Claims.FetchFailuresAndDelivery`. -/
def Obligations.SlotTraps : Prop := Claims.HangsAndBreakpoints ∧ Claims.FetchFailuresAndDelivery

/-! ## Events of cohorts -/

/-- R139 to R146, R148: a resident cohort that has not come to rest within PFALL runs falls back; one that can be saved and
whose slot can be written is saved: the slot's bytes are written, it has no group on its core any more and keeps the registers
that were named, the others reading 0; one that is the head of the queue chosen next, and fits the core, is resident on it, with
all it held, and its threads stopped at a PREEMPT go on after it; no other cohort resumes. A slot that cannot be written, or read,
is a context fault of cause 5. The model's own readings in it: log 32, and log 73 for the bytes. -/
def Claims.SavesAndResumptions : Prop :=
  ∀ (k : Nat) (h : Cohort) (s : State), FMap.find s.cohorts k = some h →
    (∀ n, h.preq = some n → h.status = .resident → (s.ctx h.ctx).pfall.toNat ≤ n → cohortRests s k = false →
      ∃ t, exec (.pfallExpiry k) s = .next t ∧ (t.coh k).fallback = true ∧ RegFrame s t none4 none3 none4 none2) ∧
    (∀ n, canSave s k = true → areaFailure .write s h.ctx (saveAddr s k) Config.saveSlotBytes = some (.fault n) →
      exec (.cohortSave k) s = .next (contextFault h.ctx 5 0 { code := 0, addr := saveAddr s k } s)) ∧
    (canSave s k = true → areaFailure .write s h.ctx (saveAddr s k) Config.saveSlotBytes = none →
      ∃ t, exec (.cohortSave k) s = .next t ∧
      (t.coh k).status = .saved ∧ (t.coh k).preq = none ∧ (t.coh k).savedAt = saveAddr s k ∧
      (∀ e g, FMap.find (t.core h.core).entries e = some g → g.coh ≠ k) ∧
      (∀ w r l, l < 32 → (t.warp k w).readV r l =
        if regNamed h.fallback (s.warp k w).live r then (s.warp k w).readV r l else 0) ∧
      (∀ a, t.byte a = (writePrivate h.ctx (saveAddr s k) Config.saveSlotBytes s).byte a) ∧
      SameS s t (fun j _ _ => ∃ e ∈ s.ops, e.2.coh = j ∧ e.2.isWait = true) ∧ SameP s t none4 ∧ SameFlags s t none2) ∧
    (∀ core, (∀ q, chooseQueue s = some q → q.head ≠ .saved k ∨ q.fitsOn s core = false) →
      exec (.cohortResume k core) s = .next s) ∧
    (∀ core q, chooseQueue s = some q → q.head = .saved k → q.fitsOn s core = true →
      let slot := areaFailure .read s h.ctx h.savedAt Config.saveSlotBytes
      (∀ n, slot = some (.fault n) → bringBack k core s = contextFault h.ctx 5 0 { code := 0, addr := h.savedAt } s ∧
        exec (.cohortResume k core) s = .next (q.admitHead core s)) ∧
      (slot = none → ∃ t, exec (.cohortResume k core) s = .next t ∧
        (t.coh k).status = .resident ∧ (t.coh k).core = core ∧
        (∀ w l, HasThread s k w l → (t.thread k w l).stopped = false ∧
          (t.thread k w l).pc = if (s.thread k w l).stopped then (s.thread k w l).pc + 1 else (s.thread k w l).pc) ∧
        (∀ a, t.byte a = s.byte a) ∧ t.ctxs = s.ctxs ∧ SameScratch s t ∧ SameV s t none4 ∧ SameS s t none3 ∧
        SameP s t none4 ∧ SameFlags s t none2))

/-- R90, R104, R127, R137: a warp whose threads have all finished, with nothing outstanding and no trap queued, retires and its
registers are lost; with a fabric failure left for it, that is a context fault of cause 4. A cohort whose warps have all
retired, with no stream and nothing outstanding, retires: it is gone, its launch counts it and its highest stamp, and its
energy reservation returns to the allowance. The model's own readings in it: log 27. -/
def Claims.Retirements : Prop :=
  ∀ (k : Nat) (h : Cohort) (s : State), FMap.find s.cohorts k = some h → h.status = .resident →
    (∀ w, HasWarp s k w → (s.warp k w).retired = false → (∀ x ∈ (s.warp k w).threads, x.st = .finished) →
      (s.warp k w).trapq = [] → s.opsOf k w = [] →
      (∀ r, (s.warp k w).fabFail = some r → exec (.warpRetirement k w) s = .next (contextFault h.ctx 4 0 r s)) ∧
      ((s.warp k w).fabFail = none → ∃ t, exec (.warpRetirement k w) s = .next t ∧ (t.warp k w).retired = true ∧
        (∀ r l, (t.warp k w).readV r l = 0) ∧ (∀ r, (t.warp k w).readS r = 0) ∧ ∀ a, t.byte a = s.byte a)) ∧
    (∀ l, (∀ x ∈ h.warps, x.retired = true) → h.streams = [] → (∀ e ∈ s.ops, e.2.coh ≠ k) →
      FMap.find s.launches h.launch = some l → (FMap.find s.ctxs h.ctx).isSome = true →
      ∃ t l', exec (.cohortRetirement k) s = .next t ∧ FMap.find t.cohorts k = none ∧
        FMap.find t.launches h.launch = some l' ∧ l'.retired = l.retired + 1 ∧ h.hmax ≤ l'.hiC ∧
        (t.ctx h.ctx).allow = (s.ctx h.ctx).allow + h.resv)

/-- Together: `Claims.SavesAndResumptions` and `Claims.Retirements`. -/
def Obligations.CohortLives : Prop := Claims.SavesAndResumptions ∧ Claims.Retirements

/-! ## Belfry and the mailboxes -/

/-- R394, R395, R396, R397, R404, R408, R412: Belfry takes a mailbox's message: CLAIM and HEAD advance, and a malformed one is
discarded and counted, a good one is the launch its record describes; a dispatch decision that chooses a fresh cohort makes it
resident on the chosen core under its age stamp, with its coordinates, every thread at the kernel's entry; a bin that is due and
has room emits a batch of at most COUNT records under the next stamp; a core's report is noted.
The model's own readings in it: log 42 and log 45. -/
def Claims.BelfryDecisions : Prop :=
  ∀ (s : State),
    (∀ ctx m i slot msg, mailboxOffer s ctx m = some (i, slot) → mailboxTurn s ctx m = true →
      s.readVirt ctx slot 64 = some msg →
      let hdr := (FMap.getD 0 (s.ctx ctx).hdr m).toNat
      let u := (devStore ctx (hdr + 24) 8 (i + 1) 0
        (devStore ctx (hdr + 16) 8 (i + 1) 0 { s with mboxAt := (64 * ctx + m + 1) % 65536 }).1).1
      let addr := fieldN msg 0 8
      (fieldN msg 8 56 ≠ 0 ∨ addr % 128 ≠ 0 ∨ u.readVirt ctx addr 128 = none →
        ∃ t, exec (.launchAcceptance ctx m) s = .next t ∧ t.launches = u.launches ∧ t.mem = u.mem ∧
          ((FMap.find u.ctxs ctx).isSome = true →
            FMap.getD 0 (t.ctx ctx).discard m = FMap.getD 0 (u.ctx ctx).discard m + 1)) ∧
      (∀ b, fieldN msg 8 56 = 0 → addr % 128 = 0 → u.readVirt ctx addr 128 = some b →
        ∃ t, exec (.launchAcceptance ctx m) s = .next t ∧ t = acceptLaunch ctx addr b u ∧ t.seqNext = u.seqNext + 1 ∧
          ∃ l, FMap.find t.launches u.seqNext = some l ∧ l.ctx = ctx ∧ l.addr = addr ∧ l.prio = fieldN b 21 1)) ∧
    (∀ q cidx view l core, chooseQueue s = some q → q.head = .fresh cidx view → FMap.find s.launches q.launch = some l →
      chooseCore s l.ctx (q.tiles s) (q.cores s) = some core →
      ∃ t h, exec .dispatchDecision s = .next t ∧ FMap.find t.cohorts (l.base + cidx) = some h ∧ h.status = .resident ∧
        h.core = core ∧ h.ctx = l.ctx ∧ h.launch = q.launch ∧ h.cidx = cidx ∧ h.stage = cidx / l.sweep ∧
        h.cx = l.place cidx % l.gx ∧ h.cy = l.place cidx / l.gx % l.gy ∧ h.cz = l.place cidx / l.gx / l.gy ∧
        h.warps.length = l.kern.warps ∧
        (∀ w i, w < l.kern.warps → i < 32 → (t.thread (l.base + cidx) w i).pc = l.kern.entry) ∧
        ∀ w, w < l.kern.warps → (t.warp (l.base + cidx) w).alloc = l.kern.vregs ∧ (t.warp (l.base + cidx) w).view = view) ∧
    (∀ launch node l n b, FMap.find s.launches launch = some l → nodeOf s l.ctx node = some n →
      binOf s launch node = some b → ((s.ctx l.ctx).st = .active ∨ (s.ctx l.ctx).st = .saving) →
      (binDue s b n = false → exec (.binTimerExpiry launch node) s = .next s) ∧
      (binDue s b n = true → (takeOverflow l.ctx (up128 (128 + (b.recs.take n.count).length * n.recsize)) s).isSome = true →
        ∃ t x, exec (.binTimerExpiry launch node) s = .next t ∧ t.batches = s.batches ++ [x] ∧ x.launch = launch ∧
          x.node = node ∧ x.recs = b.recs.take n.count ∧ x.age = s.ageNext ∧ x.cidx = l.grid + l.emitted ∧
          t.ageNext = s.ageNext + 1 ∧ FMap.find t.launches launch = some { l with emitted := l.emitted + 1 })) ∧
    (∀ core, exec (.residencyReport core) s = .next { s with reported := FMap.put core (s.core core).resid s.reported })

/-- R81, R407, R430: an entry of a node in range is registered under the next number, and one out of range is not; the next
record of a TSPAWN at its turn enters its bin, which emits while it is due. The model's own readings in it: log 46 and log 71. -/
def Claims.NodesAndRecords : Prop :=
  ∀ (s : State),
    (∀ ctx addr b, s.readVirt ctx addr 32 = some b → (FMap.find s.ctxs ctx).isSome = true →
      let n := (s.ctx ctx).nodes.length
      let good := fieldN b 20 12 = 0 ∧ fieldN b 8 4 = 0 ∧ fieldN b 18 2 % 16 = 0 ∧ 16 ≤ fieldN b 18 2 ∧ fieldN b 18 2 ≤ 512 ∧
        1 ≤ fieldN b 16 2 ∧ fieldN b 16 2 ≤ 1024 ∧ 1 ≤ fieldN b 12 4 ∧ fieldN b 12 4 ≤ 2 ^ 24
      n < 65535 → (∀ x ∈ (s.ctx ctx).nodes, x.addr ≠ addr) →
      (good → ∃ t, exec (.nodeRegistration ctx addr) s = .next t ∧ (t.ctx ctx).nodes = (s.ctx ctx).nodes ++
        [{ idx := n, addr, kdesc := fieldN b 0 8, timer := fieldN b 12 4, count := fieldN b 16 2, recsize := fieldN b 18 2 }] ∧
        (∀ c, c ≠ ctx → t.ctx c = s.ctx c) ∧ t.mem = s.mem ∧ t.cohorts = s.cohorts) ∧
      (¬ good → exec (.nodeRegistration ctx addr) s = .next s)) ∧
    (∀ op o node off count tiles i n, FMap.find s.ops op = some o →
      o.kind = .eng (.tspawn node off count tiles [] i) → nodeOf s (s.coh o.coh).ctx node = some n → i < count →
      spawnTurn s op o node = true →
      (∀ x, binOf s (s.coh o.coh).launch node = some x → x.recs.length + 1 < n.count) → 1 < n.count →
      launchBusy s (s.coh o.coh).launch = true →
      (∀ l, FMap.find s.launches (s.coh o.coh).launch = some l → l.ctx = (s.coh o.coh).ctx) →
      (∀ x, binOf s (s.coh o.coh).launch node = some x → ∀ r ∈ x.recs, s.dclk < r.at_ + n.timer) → 0 < n.timer →
      ∃ t o' x, exec (.recordArrival op) s = .next t ∧ FMap.find t.ops op = some o' ∧
        o'.kind = .eng (.tspawn node off count tiles [] (i + 1)) ∧ binOf t (s.coh o.coh).launch node = some x ∧
        x.recs = ((binOf s (s.coh o.coh).launch node).map NodeBin.recs).getD [] ++
          [{ bytes := (s.coh o.coh).readSpL (off + i * n.recsize) n.recsize, at_ := s.dclk, die := dieOf o.core
             spill := none, tiles }] ∧ t.mem = s.mem)

/-- Together: `Claims.BelfryDecisions` and `Claims.NodesAndRecords`. -/
def Obligations.BelfryAndNodes : Prop := Claims.BelfryDecisions ∧ Claims.NodesAndRecords

/-- R322, R348, R349: the three steps of a ring at its header's home. MAILBOX_RESERVE takes the next index when the ring has
room, and the message is to be stored in its slot; MAILBOX_TAIL_ADVANCE, once the message has replied and TAIL is the reserved
index, and MAILBOX_HEAD_RELEASE, once HEAD is the claimed index, advance them and end the operation. The header's home is
reached: no step is performed on a module that is out. No other byte of memory changes. -/
def Obligations.MailboxSteps : Prop :=
  ∀ (op : Nat) (o : Op) (h : Part) (s : State), FMap.find s.ops op = some o → o.hdr = some h → s.unreachable h.line = false →
    let only := fun (t : State) (a : Nat) (v : Nat) => t.num a 8 = v % 2 ^ 64 ∧
      ∀ b, (b < a ∨ a + 8 ≤ b) → t.byte b = s.byte b
    (∀ hdr slots log msg key, o.kind = .mbxput hdr slots log msg none 0 → (s.coh o.coh).status = .resident →
      (∀ e ∈ s.ops, e.2.coh = o.coh → e.1 = op) →
      (s.num hdr 8 + 2 ^ 64 - s.num (hdr + 24) 8) % 2 ^ 64 < 2 ^ log →
      translate s o.core (s.coh o.coh).ctx (slots + 64 * (s.num hdr 8 % 2 ^ log)) .write = .ok key →
      ∃ t o' p, exec (.mailboxReserve op) s = .next t ∧ only t hdr (s.num hdr 8 + 1) ∧ FMap.find t.ops op = some o' ∧
        o'.kind = .mbxput hdr slots log msg (some (s.num hdr 8)) 1 ∧ o'.hdr = some h ∧ o'.parts = [p] ∧
        p.act = .store (cellsOfL key msg) ∧ p.done = false ∧ p.ret = h.ret) ∧
    (∀ hdr slots log msg i st, o.kind = .mbxput hdr slots log msg (some i) st → o.replied = true →
      s.num (hdr + 8) 8 = i →
      ∃ t, exec (.mailboxTailAdvance op) s = .next t ∧ only t (hdr + 8) (i + 1) ∧ FMap.find t.ops op = none) ∧
    (∀ hdr slots log dst sb i, o.kind = .mbxget hdr slots log dst sb (some i) 2 → s.num (hdr + 24) 8 = i →
      ∃ t, exec (.mailboxHeadRelease op) s = .next t ∧ only t (hdr + 24) (i + 1) ∧ FMap.find t.ops op = none)

/-! ## The drivers -/

/-- Every context but those of `p`. -/
def sameCtxs (s t : State) (p : Nat → Prop) : Prop := ∀ k, ¬ p k → t.ctx k = s.ctx k

/-- R138, R151, R512: CREATE makes a FREE context ACTIVE; RESET makes any FREE, ends its cohorts, completes its launches
and returns the registers that programs write to their reset values, keeping those the driver writes; PREEMPT asks every
resident cohort to stop. The model's own readings in it: log 25. -/
def Obligations.DriverContexts : Prop :=
  ∀ (ctx : Nat) (s : State), (FMap.find s.ctxs ctx).isSome = true →
    let x := s.ctx ctx
    (x.st = .free → ∃ t, exec (.ctxctlCreate ctx) s = .next t ∧ (t.ctx ctx).st = .active ∧ sameCtxs s t (fun k => k = ctx) ∧
      t.cohorts = s.cohorts ∧ t.ops = s.ops ∧ t.mem = s.mem) ∧
    (x.st ≠ .free → exec (.ctxctlCreate ctx) s = .next s) ∧
    (x.vfHeld = false → ∃ t, exec (.ctxctlReset ctx) s = .next t ∧ (t.ctx ctx).st = .free ∧
      (t.ctx ctx).hanglim = 2 ^ 20 ∧ (t.ctx ctx).binage = 4 ∧ (t.ctx ctx).lspan = 16 ∧ (t.ctx ctx).pfall = 4096 ∧
      (t.ctx ctx).bkpt = [] ∧ (t.ctx ctx).faultrec = 0 ∧ (t.ctx ctx).decls = [] ∧ (t.ctx ctx).discard = [] ∧
      (t.ctx ctx).ptbase = x.ptbase ∧ (t.ctx ctx).csave = x.csave ∧ (t.ctx ctx).csaven = x.csaven ∧
      (t.ctx ctx).priv = x.priv ∧ (t.ctx ctx).ecfg = x.ecfg ∧
      (∀ k h, FMap.find t.cohorts k = some h → h.ctx ≠ ctx) ∧
      (∀ n l, FMap.find t.launches n = some l → l.ctx = ctx → l.done = true) ∧
      ∀ e ∈ t.worlds, e.1 / 256 ≠ ctx) ∧
    (∃ t, exec (.ctxctlPreempt ctx) s = .next t ∧ RegFrame s t none4 none3 none4 none2 ∧
      ∀ k h, FMap.find s.cohorts k = some h → h.ctx = ctx → h.status = .resident →
        (t.coh k).preq.isSome = true ∨ (t.coh k).preqWait = true)

/-- R147, R153: VFPRE with bit 8 set names the virtual function being pre-empted, and all its 16 contexts are held; a save
phase it began ends with the context's image in the area at VFSAVE. With bit 8 clear they are let go, each in the state it
held, with the context-scope registers of its image; one whose image cannot be read is FAULTED. A write is ignored while the
last is busy. The model's own readings in it: log 20. -/
def Claims.FunctionPreemption : Prop :=
  ∀ (vf : Nat) (s : State), (FMap.find s.fns 0).isSome = true →
    (∀ c, c < 16 → (FMap.find s.ctxs (16 * vf + c)).isSome = true) →
    (vfIgnored s vf = true → exec (.vfprePreempt vf) s = .next s ∧ exec (.vfpreResume vf) s = .next s) ∧
    (vfIgnored s vf = false →
      (∃ t, exec (.vfprePreempt vf) s = .next t ∧ (t.fn 0).vfpre = BitVec.ofNat 64 (vf + 256) ∧
        (∀ c, c < 16 → (t.ctx (16 * vf + c)).vfHeld = true) ∧ sameCtxs s t (fun k => k / 16 = vf) ∧ t.mem = s.mem) ∧
      (∀ ctx, (FMap.find s.ctxs ctx).isSome = true → ∀ i va c, (s.ctx ctx).vfImage = some i → (s.ctx ctx).vfAt = some va →
        areaFailure .read s ctx va (4096 * i.pages.length) = some (.fault c) → ((vfReturn ctx s).ctx ctx).st = .faulted) ∧
      ((∀ c, c < 16 → vfReadFailure s (16 * vf + c) = none) →
        ∃ t, exec (.vfpreResume vf) s = .next t ∧ (t.fn 0).vfpre = BitVec.ofNat 64 vf ∧
        (∀ c, c < 16 → (t.ctx (16 * vf + c)).vfHeld = false ∧
          (t.ctx (16 * vf + c)).st = ((s.ctx (16 * vf + c)).vfState).getD (s.ctx (16 * vf + c)).st ∧
          ∀ i, (s.ctx (16 * vf + c)).vfImage = some i →
            let x := Context.setRegs i.regs (s.ctx (16 * vf + c))
            t.ctx (16 * vf + c) =
              { x with st := x.vfState.getD x.st, vfHeld := false, vfState := none, vfAt := none, vfImage := none }) ∧
        sameCtxs s t (fun k => k / 16 = vf) ∧ t.cohorts = s.cohorts ∧ t.mem = s.mem)) ∧
    ∀ ctx va, (FMap.find s.ctxs ctx).isSome = true → saveDone s ctx = true → phaseOn s ctx true = none →
      (s.ctx ctx).vfAt = some va → areaFailure .write s ctx va (4096 * imageUnits s) = none →
      let n := imageUnits s
      let t := endSave ctx s
      exec (.savePhaseCompletion ctx) s = .next (afterPhase ctx t) ∧ (t.ctx ctx).st = .saved ∧
        (t.ctx ctx).vfImage = some (imageOf s ctx (imagePages s ctx va n)) ∧
        ∀ a, t.byte a = (writePrivate ctx va (4096 * n) { s with free := s.free + 1 }).byte a

/-- R176, R405, R518: a grant pays off EDEBT first and adds the rest to the allowance; a debit takes from the cohort's
reservation, then from the allowance, and what is still owed is EDEBT's. -/
def Claims.EnergyAccounts : Prop :=
  ∀ (s : State),
    (∀ ctx n, (FMap.find s.ctxs ctx).isSome = true → ∃ t, exec (.egrant ctx n) s = .next t ∧
      (n ≤ (s.ctx ctx).edebt → (t.ctx ctx).edebt = (s.ctx ctx).edebt - n ∧ (t.ctx ctx).allow = (s.ctx ctx).allow) ∧
      ((s.ctx ctx).edebt ≤ n → (t.ctx ctx).edebt = 0 ∧
        (t.ctx ctx).allow = (s.ctx ctx).allow + (n - (s.ctx ctx).edebt)) ∧
      sameCtxs s t (fun k => k = ctx) ∧ t.cohorts = s.cohorts ∧ t.mem = s.mem) ∧
    (∀ k n h, FMap.find s.cohorts k = some h → (FMap.find s.ctxs h.ctx).isSome = true →
      ∃ t, exec (.energyDebit k n) s = .next t ∧ RegFrame s { t with ctxs := s.ctxs } none4 none3 none4 none2 ∧
        (n ≤ h.resv → (t.coh k).resv = h.resv - n ∧ t.ctx h.ctx = s.ctx h.ctx) ∧
        (h.resv ≤ n → n ≤ h.resv + (s.ctx h.ctx).allow → (t.coh k).resv = 0 ∧
          (t.ctx h.ctx).allow = (s.ctx h.ctx).allow - (n - h.resv) ∧ (t.ctx h.ctx).edebt = (s.ctx h.ctx).edebt) ∧
        (h.resv + (s.ctx h.ctx).allow ≤ n → (t.coh k).resv = 0 ∧ (t.ctx h.ctx).allow = 0 ∧
          (t.ctx h.ctx).edebt = (s.ctx h.ctx).edebt + (n - h.resv - (s.ctx h.ctx).allow)))

/-- Together: `Claims.FunctionPreemption` and `Claims.EnergyAccounts`. -/
def Obligations.FunctionsAndEnergy : Prop := Claims.FunctionPreemption ∧ Claims.EnergyAccounts

/-- R157, R511, R514: an invalidation leaves no entry that it covers in any TLB, is busy, and completes once every access it
waits for has replied; one that comes while another is busy is ignored. An ATS invalidation, once no access uses its page or
the page of an entry that covers its address, leaves no such entry; until then it changes nothing. The model's own
readings in it: log 24. -/
def Obligations.Invalidations : Prop :=
  ∀ (fn ctx page : Nat) (s : State),
    let k := 16 * fn + ctx % 16
    let gone := fun (t : State) (p : TlbEnt → Prop) =>
      (∀ c, ∀ e ∈ (t.core c).tlb, ¬ p e) ∧ ∀ d, ∀ e ∈ t.dieTlbOf d, ¬ p e
    let drops := fun (i : Instr) (p : TlbEnt → Prop) => ∃ t, exec i s = .next t ∧ gone t p ∧
      ((FMap.find s.fns fn).isSome = true → (t.fn fn).tlbBusy = true) ∧ t.cohorts = s.cohorts ∧ t.mem = s.mem
    ((s.fn fn).tlbBusy = false →
      drops (.tlbinvPage fn ctx page) (fun e => e.ctx = k ∧ page * 4096 / 2 ^ e.bits * 2 ^ e.bits = e.va) ∧
      drops (.tlbinvContext fn ctx) (fun e => e.ctx = k) ∧
      drops (.tlbinvFunction fn) (fun e => e.ctx / 16 = fn)) ∧
    ((s.fn fn).tlbBusy = true → exec (.tlbinvPage fn ctx page) s = .next s ∧ exec (.tlbinvContext fn ctx) s = .next s ∧
      exec (.tlbinvFunction fn) s = .next s) ∧
    ((FMap.find s.fns fn).isSome = true → (∀ i ∈ (s.fn fn).tlbWait, ∀ o, FMap.find s.ops i = some o → o.busy = false) →
      ∃ t, exec (.tlbinvComplete fn) s = .next t ∧ (t.fn fn).tlbBusy = false ∧ t.cores = s.cores ∧ t.mem = s.mem) ∧
    (∀ pasid addr,
      let covers := fun (e : TlbEnt) => e.target = 2 ∧ (s.ctx e.ctx).pasid = pasid ∧ e.frame ≤ addr ∧
        addr < e.frame + 2 ^ e.bits
      let free := fun (a len : Nat) => ∀ e ∈ s.ops, e.2.usesHost (hostKey pasid a) (hostKey pasid a + len) = false
      (free (addr / 4096 * 4096) 4096 → (∀ e ∈ s.tlbEnts, covers e → free e.frame (2 ^ e.bits)) →
        ∃ t, exec (.atsInvalidation pasid addr) s = .next t ∧ t.cohorts = s.cohorts ∧ t.mem = s.mem ∧ gone t covers) ∧
      (¬ free (addr / 4096 * 4096) 4096 → exec (.atsInvalidation pasid addr) s = .next s) ∧
      ∀ e ∈ s.tlbEnts, covers e → ¬ free e.frame (2 ^ e.bits) → exec (.atsInvalidation pasid addr) s = .next s)

/-- R177, R511, R515: a call with room in its ring is written at TAIL, which advances, and the interrupt bit is set; a reply
gives its value to the outstanding call of its TAG and is ignored for any other; INTSTAT is cleared by ones.
The model's own readings in it: log 21. -/
def Claims.HypervisorQueue : Prop :=
  ∀ (s : State),
    (∀ op o fn num dst arg, FMap.find s.ops op = some o → o.kind = .hcall fn num dst arg false → ringRoom s = true →
      (s.coh o.coh).status = .resident →
      (FMap.find s.fns 0).isSome = true →
      let key := hostKey 0 (s.hqBase.toNat + 32 * (s.hqTail.toNat % 2 ^ s.hqLog2.toNat))
      ∃ t, exec (.hcallPost op) s = .next t ∧ t.hqTail = s.hqTail + 1 ∧
        t.bytes key 32 = callRecord (s.coh o.coh).ctx num arg op ∧
        (∀ a, (a < key ∨ key + 32 ≤ a) → t.byte a = s.byte a) ∧
        FMap.find t.ops op = some { o with kind := .hcall fn num dst arg true, busy := true } ∧
        (t.fn 0).intstat = (s.fn 0).intstat ||| 0x10000) ∧
    (∀ tag v op o fn num dst arg, s.hqOut.find? (fun e => e.1 = tag) = some (tag, op) → FMap.find s.ops op = some o →
      o.kind = .hcall fn num dst arg true → dst < 63 → HasWarp s o.coh o.warp →
      (∀ e ∈ s.ops, e.2.coh = o.coh → e.2.isWait = false) →
      ∃ t, exec (.hcallReply tag v) s = .next t ∧ (t.warp o.coh o.warp).readS dst = BitVec.ofNat 64 v ∧
        FMap.find t.ops op = none ∧ (∀ e ∈ t.hqOut, e.1 ≠ tag) ∧
        RegFrame s t none4 (fun k w r => k = o.coh ∧ w = o.warp ∧ r = dst) none4 none2) ∧
    (∀ tag v, (∀ e ∈ s.hqOut, e.1 ≠ tag) →
      exec (.hcallReply tag v) s = .next { s with hqReply := BitVec.ofNat 64 v }) ∧
    (∀ fn mask, (FMap.find s.fns fn).isSome = true → ∃ t, exec (.intstatClear fn mask) s = .next t ∧
      (t.fn fn).intstat = (s.fn fn).intstat &&& ~~~(BitVec.ofNat 64 mask) ∧ (∀ k, k ≠ fn → t.fn k = s.fn k) ∧
      t.ctxs = s.ctxs ∧ t.cohorts = s.cohorts ∧ t.mem = s.mem)

/-- R19, R321, R509 to R514: a D register of a context takes a write only while the context is FREE or SAVED and the value keeps
its rule (that PRIV has no rule on its value is the model's choice, log 22); a read of BAR0 gives a function, window or list
register whole, and zero when it is misaligned or not of 64 bits; a host write through BAR2 stores its bytes and nothing else, a
host read returns the bytes memory holds, an AtomicOp answers the old value and stores the new; an access beyond the window has
no effect; the window takes a size of 1 to 64 GiB, and a context a PASID of 20 bits. The model's own readings in it: log 15,
log 22, log 23 and log 68. -/
def Claims.HostAccess : Prop :=
  ∀ (s : State),
    (∀ ctx off v, ctx < 1024 → (FMap.find s.ctxs ctx).isSome = true → v < 2 ^ 64 →
      let x := s.ctx ctx
      let idle := x.st = .free ∨ x.st = .saved
      let ok := fun (b : Prop) (r : Context → W64) => (idle → b → ∃ t,
          exec (.registerWrite (ctx / 16) (0x10000 + 0x1000 * (ctx % 16) + off) v) s = .next t ∧
          r (t.ctx ctx) = BitVec.ofNat 64 v ∧ sameCtxs s t (fun k => k = ctx) ∧ t.cohorts = s.cohorts ∧ t.mem = s.mem) ∧
        (¬ idle ∨ ¬ b → exec (.registerWrite (ctx / 16) (0x10000 + 0x1000 * (ctx % 16) + off) v) s = .next s)
      (off = 0x010 → ok (v ≤ 1) Context.ecfg) ∧ (off = 0x018 → ok True Context.priv) ∧
      (off = 0x020 → ok (v % 4096 = 0) Context.csave) ∧ (off = 0x028 → ok (v ≤ 65535) Context.csaven) ∧
      (off = 0x030 → ok (v % 4096 = 0) Context.ptbase)) ∧
    (∀ fn off data, off + data.length ≤ (s.fn fn).bar2size → (s.fn fn).bar2base.toNat + off + data.length ≤ 2 ^ 39 →
      ∃ t, exec (.hostWrite fn off data) s = .next t ∧
        t.bytes ((s.fn fn).bar2base.toNat + off) data.length = data ∧
        (∀ a, (a < (s.fn fn).bar2base.toNat + off ∨ (s.fn fn).bar2base.toNat + off + data.length ≤ a) → t.byte a = s.byte a)) ∧
    (∀ fn off data, (s.fn fn).bar2size < off + data.length → exec (.hostWrite fn off data) s = .next s) ∧
    (∀ fn off len, off + len ≤ (s.fn fn).bar2size → (s.fn fn).bar2base.toNat + off + len ≤ 2 ^ 39 →
      exec (.hostRead fn off len) s = .next { s with hostRead := s.bytes ((s.fn fn).bar2base.toNat + off) len }) ∧
    (
      let reads := fun (fn off len : Nat) (bs : List Byte) =>
        execHost (.readReg fn off len) s = .next { s with hostRead := bs }
      (∀ fn off len, fn < 64 → off + len ≤ 2 ^ 24 → (off % 8 ≠ 0 ∨ len ≠ 8) → reads fn off len (List.replicate len 0)) ∧
      (∀ fn, fn < 64 → reads fn 0 8 (leBytes 8 fn) ∧ reads fn 8 8 (leBytes 8 s.modnum.toNat) ∧
        reads fn 0x10 8 (leBytes 8 (s.fn fn).intstat.toNat) ∧
        reads fn 0x20 8 (leBytes 8 (if (s.fn fn).tlbBusy then 1 else 0)) ∧
        reads fn 0x28 8 (leBytes 8 (s.fn fn).bar2base.toNat) ∧
        (fn ≠ 0 → reads fn 0x30 8 (leBytes 8 0) ∧ reads fn 0x38 8 (leBytes 8 0))) ∧
      (∀ ctx, ctx < 1024 →
        let at_ := fun (off v : Nat) => reads (ctx / 16) (0x10000 + 0x1000 * (ctx % 16) + off) 8 (leBytes 8 v)
        let x := s.ctx ctx
        at_ 0x008 x.st.code ∧ at_ 0x010 x.ecfg.toNat ∧ at_ 0x018 x.priv.toNat ∧ at_ 0x020 x.csave.toNat ∧
        at_ 0x028 x.csaven.toNat ∧ at_ 0x030 x.ptbase.toNat ∧ at_ 0x040 x.allow ∧ at_ 0x050 x.edebt ∧ at_ 0x060 x.starve ∧
        (∀ i, i < 4 → at_ (0x080 + 8 * i) (x.faultrec / 2 ^ (64 * i))) ∧
        ∀ m, m < 64 → at_ (0x100 + 16 * m) (FMap.getD 0 x.hdr m).toNat ∧
          at_ (0x108 + 16 * m) (FMap.getD 0 x.discard m).toNat) ∧
      (∀ fn off, fn < 64 → off % 8 = 0 → 0xF00000 ≤ off → off < 2 ^ 24 →
        reads fn off 8 (leBytes 8 (fieldN (capList s fn) (off - 0xF00000) 8)))) ∧
    (∀ fn off wide k x cmp,
      let n := if wide then 8 else 4
      let a := (s.fn fn).bar2base.toNat + off
      let old := s.num a n
      let new := match k with
        | .fetchAdd => (old + x) % 2 ^ (8 * n)
        | .swap => x % 2 ^ (8 * n)
        | .cas => if old = cmp % 2 ^ (8 * n) then x % 2 ^ (8 * n) else old
      off % n = 0 → off + n ≤ (s.fn fn).bar2size → a + n ≤ 2 ^ 39 →
      ∃ t, execHost (.atomic fn off wide k x cmp) s = .next t ∧ t.hostRead = leBytes n old ∧ t.num a n = new ∧
        ∀ b, (b < a ∨ a + n ≤ b) → t.byte b = s.byte b) ∧
    (∀ fn n, fn < 64 → (FMap.find s.fns fn).isSome = true → 30 ≤ n → n ≤ 36 →
      ∃ t, execHost (.resizeBar2 fn n) s = .next t ∧ (t.fn fn).bar2size = 2 ^ n ∧ (∀ k, k ≠ fn → t.fn k = s.fn k) ∧
        { t with fns := s.fns } = s) ∧
    (∀ ctx pasid, ctx < 1024 → (FMap.find s.ctxs ctx).isSome = true → pasid < 2 ^ 20 →
      ∃ t, execHost (.bindPasid ctx pasid) s = .next t ∧ (t.ctx ctx).pasid = pasid ∧ sameCtxs s t (fun k => k = ctx) ∧
        { t with ctxs := s.ctxs } = s)

/-- R393, R510 to R513, R515: a driver writes the registers that are no D registers: a value that breaks a register's rule is
ignored, and a write changes its own register alone; VFSAVE and the call queue's registers belong to the physical function; a
register that is only read, or an offset that is not aligned, takes no write. -/
def Claims.RegisterWrites : Prop :=
  ∀ (s : State) (v : Nat), v < 2 ^ 64 →
    let w := BitVec.ofNat 64 v
    (∀ ctx, ctx < 1024 → (FMap.find s.ctxs ctx).isSome = true →
      let x := s.ctx ctx
      let write := fun (off : Nat) => exec (.registerWrite (ctx / 16) (0x10000 + 0x1000 * (ctx % 16) + off) v) s
      let takes := fun (off : Nat) (ok : Prop) (p : Context → Prop) =>
        (ok → ∃ t, write off = .next t ∧ p (t.ctx ctx) ∧ sameCtxs s t (fun k => k = ctx) ∧ { t with ctxs := s.ctxs } = s) ∧
        (¬ ok → write off = .next s)
      takes 0x060 (1 ≤ v ∧ v ≤ 65535) (fun y => y = { x with starve := v }) ∧
      takes 0x068 (v % 65536 = 0) (fun y => y = { x with ovfbase := w }) ∧
      takes 0x070 (v % 65536 = 0) (fun y => y = { x with ovfsize := w }) ∧
      (∀ m, m < 64 → takes (0x100 + 16 * m) True fun y =>
        (∀ j, FMap.getD 0 y.hdr j = if j = m then w else FMap.getD 0 x.hdr j) ∧ { y with hdr := x.hdr } = x) ∧
      ∀ off, off ∈ [0x008, 0x040, 0x050] ∨ 0x080 ≤ off ∧ off < 0x0A0 ∨ (∃ m, m < 64 ∧ off = 0x108 + 16 * m) →
        write off = .next s) ∧
    (∀ fn, fn < 64 → (FMap.find s.fns fn).isSome = true →
      let x := s.fn fn
      let takes := fun (off : Nat) (ok : Prop) (y : Function) =>
        (ok → ∃ t, exec (.registerWrite fn off v) s = .next t ∧ t.fn fn = y ∧ (∀ k, k ≠ fn → t.fn k = s.fn k) ∧
          { t with fns := s.fns } = s) ∧
        (¬ ok → exec (.registerWrite fn off v) s = .next s)
      takes 0x028 (v % x.bar2size = 0) { x with bar2base := w } ∧
      takes 0x038 (fn = 0 ∧ v % 4096 = 0) { x with vfsave := w } ∧
      takes 0x040 True { x with atsen := w &&& 1 } ∧
      ∀ off, off = 0x000 ∨ off = 0x008 ∨ off = 0x020 → exec (.registerWrite fn off v) s = .next s) ∧
    (∀ e ∈ [(0x00, { s with hqBase := w }), (0x08, { s with hqLog2 := w }), (0x10, s), (0x18, { s with hqHead := w }),
        (0x28, { s with hqReply := w })], exec (.registerWrite 0 (0x20000 + e.1) v) s = .next e.2) ∧
    (∀ fn off, 0 < fn → 0x20000 ≤ off → off < 0x20100 → exec (.registerWrite fn off v) s = .next s) ∧
    ∀ fn off, off % 8 ≠ 0 → exec (.registerWrite fn off v) s = .next s

/-- Together: `Claims.HypervisorQueue` and `Claims.HostAccess` and `Claims.RegisterWrites`. -/
def Obligations.QueueAndHostAccess : Prop := Claims.HypervisorQueue ∧ Claims.HostAccess ∧ Claims.RegisterWrites

/-! ## Attestation, firmware and live service -/

/-- R516: each SPDM request is answered by one reply over DOE and changes nothing else: a measurement is the hash of the
controller's active image, and a challenge's reply is the digest and the nonce, signed; a digest is SHA-512. What the other
reply data and the signature are is the implementation's (log 13). The model's own readings in it: log 29, and log 72 for
what SHA-512 is. -/
def Claims.AttestationReplies : Prop :=
  ∀ (s : State),
    let answers := fun (i : Instr) (bs : List Byte) => exec i s = .next { s with doe := bs :: s.doe }
    answers .getVersion (Config.spdm 0 0) ∧ answers .getCapabilities (Config.spdm 1 0) ∧
    answers .negotiateAlgorithms (Config.spdm 2 0) ∧
    (∀ slot, answers (.getCertificate slot) (Config.spdm 3 slot)) ∧
    answers .getDigests (sha512 (Config.spdm 3 0)) ∧
    (∀ nonce, answers (.challenge nonce) (signed (sha512 (Config.spdm 3 0) ++ leBytes 32 nonce))) ∧
    (∀ k f, FMap.find s.fw k = some f →
      answers (.getMeasurements k) (signed (leBytes 1 k ++ leBytes 64 (if f.active then f.b else f.a))))

/-- R516, R519: an image whose signature verifies goes into its controller's inactive slot, and the measurement stays; one
whose signature does not is refused; an accepted image becomes active once the controller has no command in flight, and the
measurement is then its hash. No memory, register or context changes. The model's own readings in it: log 28. -/
def Claims.FirmwareUpdate : Prop :=
  ∀ (k : Nat) (f : Firmware) (s : State), FMap.find s.fw k = some f →
    (∀ image sig, Config.verify (leNat (sha512 image)) sig = false →
      exec (.firmwareImageAccept k image sig) s = .next s) ∧
    (∀ image sig, Config.verify (leNat (sha512 image)) sig = true →
      ∃ t g, exec (.firmwareImageAccept k image sig) s = .next t ∧ FMap.find t.fw k = some g ∧
        g.measurement = f.measurement ∧ g.pending = true ∧
        (if f.active then g.a else g.b) = leNat (sha512 image) ∧ t.mem = s.mem ∧ t.cohorts = s.cohorts ∧
        t.ctxs = s.ctxs) ∧
    (f.pending = true → controllerIdle s k = true →
      ∃ t g, exec (.firmwareActivation k) s = .next t ∧ FMap.find t.fw k = some g ∧ g.pending = false ∧
        g.measurement = (if f.active then f.a else f.b) ∧ t.mem = s.mem ∧ t.cohorts = s.cohorts ∧ t.ctxs = s.ctxs) ∧
    ((f.pending = false ∨ controllerIdle s k = false) → exec (.firmwareActivation k) s = .next s)

/-- R517, R520: servicing parts of a running module. At most one lane of a port is out for recalibration; a retired
pseudo-channel and a spared row leave every byte, stamp and lease as they were; a draining core's cohorts are asked to stop,
and once none is resident a spare of its die takes its number, the die having one fewer; a peer leaves and returns, and a
port is routed around, with no state of the module changed; of a stack, port or peer that does not exist there is nothing
to service. The model's own readings in it: log 28. -/
def Claims.LiveService : Prop :=
  ∀ (s : State),
    (∀ port lane, port < 64 → lane < 4 → ∃ t, exec (.laneRecalibration port lane) s = .next t ∧
      ((port, lane) ∈ s.lanes → (port, lane) ∉ t.lanes) ∧
      ((∀ x ∈ s.lanes, x.1 ≠ port) → (port, lane) ∈ t.lanes) ∧
      ((port, lane) ∉ s.lanes → (∃ x ∈ s.lanes, x.1 = port) → t.lanes = s.lanes) ∧ { t with lanes := s.lanes } = s) ∧
    (∀ stack n, stack < 8 → ∃ t, exec (.pseudoChannelRetirement stack n) s = .next t ∧ (stack, n) ∈ t.channels ∧
      { t with channels := s.channels } = s) ∧
    (∀ stack n, stack < 8 → ∃ t, exec (.rowSparing stack n) s = .next t ∧ (stack, n) ∈ t.rows ∧
      { t with rows := s.rows } = s) ∧
    (∀ stack n, 8 ≤ stack → exec (.pseudoChannelRetirement stack n) s = .next s ∧
      exec (.rowSparing stack n) s = .next s) ∧
    (∀ core, (FMap.find s.cores core).isSome = true → ∃ t, exec (.coreDrain core) s = .next t ∧
      (t.core core).draining = true ∧ RegFrame s t none4 none3 none4 none2 ∧
      ∀ k h, FMap.find s.cohorts k = some h → h.core = core → h.status = .resident →
        (t.coh k).preq.isSome = true ∨ (t.coh k).preqWait = true) ∧
    (∀ core left, (s.core core).draining = true →
      (∀ e ∈ s.cohorts, e.2.core = core → e.2.status ≠ .resident) →
      FMap.find s.spares (dieOf core) = some left → 0 < left →
      ∃ t, exec (.spareSubstitution core) s = .next t ∧ (t.core core).phys = dieOf core * 52 + 52 - left ∧
        (t.core core).draining = false ∧ (t.core core).entries = [] ∧ (t.core core).cycle = 0 ∧
        FMap.find t.spares (dieOf core) = some (left - 1) ∧ (∀ k, k ≠ core → t.core k = s.core k) ∧
        t.cohorts = s.cohorts ∧ t.mem = s.mem) ∧
    (∀ peer, peer < 2048 → ∃ t, exec (.moduleRemoval peer) s = .next t ∧ peer ∈ t.absent ∧ { t with absent := s.absent } = s) ∧
    (∀ peer, 2048 ≤ peer → exec (.moduleRemoval peer) s = .next s) ∧
    (∀ peer, ∃ t, exec (.moduleReplacement peer) s = .next t ∧ peer ∉ t.absent ∧ { t with absent := s.absent } = s) ∧
    (∀ port, port < 64 → ∃ t, exec (.routeChange port) s = .next t ∧ port ∈ t.routes ∧ { t with routes := s.routes } = s) ∧
    (∀ port, 64 ≤ port → exec (.routeChange port) s = .next s)

/-- Together: `Claims.AttestationReplies` and `Claims.FirmwareUpdate` and `Claims.LiveService`. -/
def Obligations.ServiceOfTheModule : Prop := Claims.AttestationReplies ∧ Claims.FirmwareUpdate ∧ Claims.LiveService

/-! ## Failures and resets -/

/-- R127, R249, R517: a request to a peer module that the fabric does not deliver. Of a long instruction, the request has failed
and counts as replied, and memory keeps every byte; of a load, each load of the die that waits for the same fill has failed
too; of a store, the failure is left for the warp's next instruction that raises it, with the cause and the peer as DETAIL, and
an earlier failure stands. A request that an earlier acquire of its warp still holds back cannot fail, nor can a command that is
not accepted yet. A failed access of an engine's command is noted with it. A monitor that fails returns its WAITC with
the register marked, by the model's choice (log 69). The model's own readings in it: log 27 and log 69. -/
def Claims.FabricFailures : Prop :=
  ∀ (op cause : Nat) (o : Op) (s : State), FMap.find s.ops op = some o → 1 ≤ cause → cause ≤ 4 →
    (∀ i p, o.parts[i]? = some p → p.done = false → isPeer p.line = true →
      (cause = 1 ∨ peerOf p.line ∉ s.absent) →
      (∀ c, o.kind ≠ .eng c) → (∀ k ty cond ref dst poll due, o.kind ≠ .waitc k ty cond ref dst poll due) →
      (acqAhead s op o.coh o.warp (reachOf p.line) = true → exec (.fabricTimeout op i cause) s = .next s) ∧
      (acqAhead s op o.coh o.warp (reachOf p.line) = false →
      (o.long = true → p.act = .load → ∃ t o', exec (.fabricTimeout op i cause) s = .next t ∧ FMap.find t.ops op = some o' ∧
        o'.parts[i]? = some { p with done := true, heldSeal := false, fail := some (cause, peerOf p.line) } ∧
        ((∀ e ∈ s.ops, e.2.isWait = false) → RegFrame s t none4 none3 none4 none2) ∧
        ∀ n x, n ≠ op → FMap.find s.ops n = some x → x.isWait = false → x.waitsFill (dieOf o.core) p.line = true →
          x.long = true →
          ∃ x', FMap.find t.ops n = some x' ∧ ∀ (j : Nat) (q : Part), x.parts[j]? = some q → q.done = false → q.late = false →
            q.line = p.line → q.act = .load →
            x'.parts[j]? = some { q with done := true, heldSeal := false, fail := some (cause, peerOf q.line) }) ∧
      (o.long = true → p.loads = false → ∃ t o', exec (.fabricTimeout op i cause) s = .next t ∧ FMap.find t.ops op = some o' ∧
        o'.parts[i]? = some { p with done := true, heldSeal := false, fail := some (cause, peerOf p.line) } ∧
        RegFrame s t none4 none3 none4 none2) ∧
      (o.long = false → o.kind = .store → HasWarp s o.coh o.warp →
        ∃ t, exec (.fabricTimeout op i cause) s = .next t ∧ SameOutside s t ∧
          (t.warp o.coh o.warp).fabFail = some ((s.warp o.coh o.warp).fabFail.getD
            { code := 0x0E, detail := cause * 65536 + peerOf p.line, pc := o.pc, addr := p.va, imprecise := true })))) ∧
    (∀ i, o.held ≠ none → (∃ c, o.kind = .eng c) ∨ (∃ k ty cond ref dst poll due, o.kind = .waitc k ty cond ref dst poll due) →
      exec (.fabricTimeout op i cause) s = .next s) ∧
    (∀ c i p, o.kind = .eng c → o.held = none → o.parts[i]? = some p → p.fail = none → isPeer p.line = true →
      (cause = 1 ∨ peerOf p.line ∉ s.absent) →
      ∃ t o', exec (.fabricTimeout op i cause) s = .next t ∧ FMap.find t.ops op = some o' ∧
        o'.parts[i]? = some { p with done := true, heldSeal := false, fail := some (cause, peerOf p.line) } ∧
        RegFrame s t none4 none3 none4 none2) ∧
    (∀ key ty cond ref dst poll due, o.kind = .waitc key ty cond ref dst poll due → o.held = none → isPeer (lineOf key) = true →
      (cause = 1 ∨ peerOf (lineOf key) ∉ s.absent) → dst < 63 → HasWarp s o.coh o.warp →
      (∀ e ∈ s.ops, e.1 ≠ op → e.2.isWait = false) →
      ∃ t, exec (.fabricTimeout op 0 cause) s = .next t ∧ FMap.find t.ops op = none ∧
        poisonMet (t.warp o.coh o.warp) [{ vec := false, idx := dst, wide := false }] [] ≠ none ∧
        (∀ a, t.byte a = s.byte a))

/-- R42, R245, R279, R371, R467, R486: an uncorrectable soft error marks what it strikes, and no value changes. A register of a
resident cohort raises trap 0x0F with DETAIL 1 at its next read; a write clears its mark. A scratchpad byte and an element of
either part of an accumulator are marked until they are written, and the unit's SOFT bit is set. A weight table's entry is bad. A
reply, or a command of Rotunda, carries the error to its end: CODE 4, and a sample marks its registers. One in a context's
control state is a context fault of cause 6. The model's own readings in it: log 26; and log 34 for the COUNT 0 that a sampling
command reports beside CODE 4. -/
def Claims.SoftErrorMarks : Prop :=
  ∀ (s : State),
    let marks := fun (target : SoftTarget) (k w : Nat) (p : Poison) (write : Warp → Warp) =>
      let met := fun (x : Warp) => poisonMet x [{ vec := p.vec, idx := p.idx }] [p.lane]
      ∃ t, exec (.softErrorMark target) s = .next t ∧ RegFrame s t none4 none3 none4 none2 ∧ p ∈ (t.warp k w).poison ∧
        met (t.warp k w) ≠ none ∧ (met (s.warp k w) = none → met (t.warp k w) = some p) ∧ met (write (t.warp k w)) = none
    (∀ k w r l v, r < 255 → l < 32 → HasWarp s k w → (s.coh k).status = .resident →
      marks (.vreg k w r l) k w { vec := true, idx := r, lane := l, code := 0x0F, detail := 1, addr := 0 } (Warp.writeV r l v)) ∧
    (∀ k w r v, r < 63 → HasWarp s k w → (s.coh k).status = .resident →
      marks (.sreg k w r) k w { vec := false, idx := r, code := 0x0F, detail := 1, addr := 0 } (Warp.writeS r v)) ∧
    (∀ k a, (FMap.find s.cohorts k).isSome = true → (s.coh k).status = .resident → a < (s.coh k).scratchSize →
      ∃ t, exec (.softErrorMark (.scratch k a)) s = .next t ∧ a ∈ (t.coh k).scratchBad ∧
        RegFrame s t none4 none3 none4 none2 ∧ ∀ b, a ∉ ((t.coh k).writeSp a b).scratchBad) ∧
    (∀ core tile m n z, tile < 4 → m < 128 → n < 128 → (FMap.find s.cores core).isSome = true →
      (s.mx core).owner.isSome = true →
      let key := 16384 * tile + 128 * m + n
      let marksOf := fun (u : MatrixUnit) => if z then u.zmark else u.pmark
      ∃ t, exec (.softErrorMark (.acc core tile m n z)) s = .next t ∧ key ∈ marksOf (t.mx core) ∧
        (t.mx core).z = (s.mx core).z ∧ (t.mx core).p = (s.mx core).p ∧ (t.mx core).status = (s.mx core).status ||| 256 ∧
        t.cohorts = s.cohorts ∧ t.mem = s.mem ∧ key ∉ marksOf (unitZero z (!z) [tile] (t.mx core)) ∧
        ∀ (x : Warp) (va : Nat), x.poison = [] → key ∉ marksOf (loadRows x tile m 1 (!z) va (t.mx core))) ∧
    (∀ core entry e, (FMap.find s.cores core).isSome = true → (s.core core).wts[entry]? = some e →
      ∃ t, exec (.softErrorMark (.wtable core entry)) s = .next t ∧ (t.core core).wts[entry]? = some { e with bad := true } ∧
        (∀ j, j ≠ entry → (t.core core).wts[j]? = (s.core core).wts[j]?) ∧ RegFrame s t none4 none3 none4 none2) ∧
    (∀ op o target, FMap.find s.ops op = some o →
      (target = .reply op ∧ (o.long = true ∨ ∃ cmd, o.kind = .eng cmd)) ∨ (target = .world op ∧ o.rotunda = true) →
      ∃ t, exec (.softErrorMark target) s = .next t ∧ FMap.find t.ops op = some { o with soft := true } ∧
        (∀ i, i ≠ op → FMap.find t.ops i = FMap.find s.ops i) ∧ RegFrame s t none4 none3 none4 none2) ∧
    (∀ op o seq cmd, Running s op o → o.kind = .eng cmd → o.soft = true → o.fut = some seq →
      let ends := ∃ t, exec (.engineCommandCompletion op) s = .next t ∧ FMap.find t.ops op = none ∧
        FutureIs o t (futureValue seq 0 0 4) ∧ (∀ a, t.byte a = s.byte a) ∧ SameV s t none4 ∧ SameScratch s t
      (o.rotunda = true → worldTurn s op o cmd = true → ends) ∧
      (∀ ws count code cause, cmd = .tex ws count code cause → ends ∧
        ∃ t, exec (.engineCommandCompletion op) s = .next t ∧ ∀ d ∈ o.dests, d.vec = true → d.idx < 255 → ∀ l, l < 32 →
          d.lanes.getLsbD l = true → { vec := true, idx := d.idx, lane := l, code := 0x0F, detail := 2, addr := 0 } ∈
            (t.warp o.coh o.warp).poison)) ∧
    (∀ ctx a, let t := contextFault ctx 6 0 { code := 0, addr := a / 128 * 128 } s
      ((s.ctx ctx).st = .active ∨ (s.ctx ctx).st = .saving ∨ (s.ctx ctx).st = .loading →
        exec (.softErrorMark (.control ctx a)) s = .next t) ∧
      ((s.ctx ctx).st ≠ .active → (s.ctx ctx).st ≠ .saving → (s.ctx ctx).st ≠ .loading →
        exec (.softErrorMark (.control ctx a)) s = .next s) ∧
      ((FMap.find s.ctxs ctx).isSome = true → (t.ctx ctx).st = .faulted))

/-- Together: `Claims.FabricFailures` and `Claims.SoftErrorMarks`. -/
def Obligations.FailuresAndSoftErrors : Prop := Claims.FabricFailures ∧ Claims.SoftErrorMarks

/-- R22, R248, R300, R402, R511: a module reset gives the state after reset: no cohort, every stamp and floor 0, the first age
stamp 1, the module's own memory unlisted, other modules' and the host's as it was. A function reset frees its contexts, ends
their cohorts and builds its capability list; the physical function withholds nothing. The module takes its number.
The model's own readings in it: log 25. -/
def Obligations.Resets : Prop :=
  ∀ (s : State),
    (∃ t, exec .moduleReset s = .next t ∧ t.cohorts = [] ∧ t.ctxs = State.reset.ctxs ∧ t.fns = State.reset.fns ∧
      t.ops = [] ∧ t.launches = [] ∧ t.worlds = [] ∧ (∀ line, isPeer line = false → isHost line = false → t.home line = (0, 0)) ∧
      t.ageNext = 1 ∧
      (∀ k, k < 192 → (t.core k).cycle = 0 ∧ (t.core k).engSeq = 0 ∧ (t.core k).entries = [] ∧
        (t.core k).phys = (s.core k).phys) ∧
      (∀ a, a < 2 ^ 52 → t.byte a = Memory.unlisted) ∧ ∀ a, 2 ^ 52 ≤ a → t.byte a = s.byte a) ∧
    (∀ fn withheld, fn < 64 → (∀ c, c < 16 → (FMap.find s.ctxs (16 * fn + c)).isSome = true) →
      (FMap.find s.fns fn).isSome = true → ∃ t, exec (.functionReset fn withheld) s = .next t ∧
      (∀ c, c < 16 → t.ctx (16 * fn + c) = {}) ∧ (t.fn fn).withheld = (if fn = 0 then [] else withheld) ∧
      (t.fn fn).intstat = 0 ∧ (t.fn fn).tlbBusy = false ∧ (t.fn fn).bar2size = (s.fn fn).bar2size ∧
      ∀ k h, FMap.find t.cohorts k = some h → h.ctx / 16 ≠ fn) ∧
    (∀ n, exec (.moduleNumberAssignment n) s = .next { s with modnum := BitVec.ofNat 11 n })
end

