-- ==== Sys2Proof/Laws/Sparse.lean ====
section
/-! SUPPORT. Laws of sparse tables: reading after a change, and the canonical form. -/

namespace Sys2Proof.Machine

variable {α : Type}

/-! ## Reading after a change -/

theorem FMap.find_put_self (k : Nat) (x : α) (m : FMap α) : FMap.find (FMap.put k x m) k = some x := by
  induction m with
  | nil => simp [FMap.put, FMap.find]
  | cons e r ih =>
    obtain ⟨j, y⟩ := e
    simp only [FMap.put]
    split
    · simp [FMap.find]
    · split
      · simp [FMap.find]
      · simp only [FMap.find]
        rw [if_neg (by omega), ih]

theorem FMap.find_put_ne {k j : Nat} (h : j ≠ k) (x : α) (m : FMap α) :
    FMap.find (FMap.put k x m) j = FMap.find m j := by
  induction m with
  | nil => simp [FMap.put, FMap.find, h.symm]
  | cons e r ih =>
    obtain ⟨i, y⟩ := e
    simp only [FMap.put]
    split
    · simp [FMap.find, h.symm]
    · split
      · simp only [FMap.find]
        rw [if_neg (by omega), if_neg (by omega)]
      · simp only [FMap.find, ih]

theorem FMap.find_del_self (k : Nat) (m : FMap α) : FMap.find (FMap.del k m) k = none := by
  induction m with
  | nil => rfl
  | cons e r ih =>
    obtain ⟨j, y⟩ := e
    simp only [FMap.del] at ih ⊢
    by_cases h : j = k
    · simpa [List.filter, h] using ih
    · simpa [List.filter, h, FMap.find] using ih

theorem FMap.find_del_ne {k j : Nat} (h : j ≠ k) (m : FMap α) : FMap.find (FMap.del k m) j = FMap.find m j := by
  induction m with
  | nil => rfl
  | cons e r ih =>
    obtain ⟨i, y⟩ := e
    simp only [FMap.del] at ih ⊢
    by_cases hi : i = k
    · have : i ≠ j := by omega
      simpa [List.filter, hi, FMap.find, this, h.symm] using ih
    · by_cases hj : i = j
      · simp [List.filter, FMap.find, hj, h]
      · simpa [List.filter, hi, FMap.find, hj] using ih

@[simp] theorem FMap.getD_put_self (d : α) (k : Nat) (x : α) (m : FMap α) :
    FMap.getD d (FMap.put k x m) k = x := by simp [FMap.getD, FMap.find_put_self]

theorem FMap.getD_put_ne {k j : Nat} (h : j ≠ k) (d x : α) (m : FMap α) :
    FMap.getD d (FMap.put k x m) j = FMap.getD d m j := by simp [FMap.getD, FMap.find_put_ne h]

@[simp] theorem FMap.getD_set_self [DecidableEq α] (d : α) (k : Nat) (x : α) (m : FMap α) :
    FMap.getD d (FMap.set d k x m) k = x := by
  simp only [FMap.set]
  split
  · simp [FMap.getD, FMap.find_del_self, *]
  · simp

theorem FMap.getD_set_ne [DecidableEq α] {k j : Nat} (h : j ≠ k) (d x : α) (m : FMap α) :
    FMap.getD d (FMap.set d k x m) j = FMap.getD d m j := by
  simp only [FMap.set]
  split
  · simp [FMap.getD, FMap.find_del_ne h]
  · exact FMap.getD_put_ne h d x m

theorem FMap.getD_set [DecidableEq α] (k j : Nat) (d x : α) (m : FMap α) :
    FMap.getD d (FMap.set d k x m) j = if j = k then x else FMap.getD d m j := by
  by_cases h : j = k
  · subst h; simp
  · simp [h, FMap.getD_set_ne h]

theorem FMap.find_modify_self (k : Nat) (f : α → α) (m : FMap α) :
    FMap.find (FMap.modify k f m) k = (FMap.find m k).map f := by
  simp only [FMap.modify]
  split <;> simp [FMap.find_put_self, *]

theorem FMap.find_modify_ne {k j : Nat} (h : j ≠ k) (f : α → α) (m : FMap α) :
    FMap.find (FMap.modify k f m) j = FMap.find m j := by
  simp only [FMap.modify]
  split <;> simp [FMap.find_put_ne h]

theorem FMap.find_modify (k j : Nat) (f : α → α) (m : FMap α) :
    FMap.find (FMap.modify k f m) j = if j = k then (FMap.find m k).map f else FMap.find m j := by
  by_cases h : j = k
  · subst h; simp [FMap.find_modify_self]
  · simp [h, FMap.find_modify_ne h]

theorem FMap.find_mapVals (f : Nat → α → α) (m : FMap α) (k : Nat) :
    FMap.find (FMap.mapVals f m) k = (FMap.find m k).map (f k) := by
  induction m with
  | nil => rfl
  | cons e r ih =>
    obtain ⟨j, y⟩ := e
    simp only [FMap.mapVals, List.map_cons, FMap.find] at ih ⊢
    by_cases h : j = k
    · simp [h]
    · simp [h, ih]

/-! ## Lists -/

theorem getElem?_listModify (f : α → α) :
    ∀ (n : Nat) (l : List α) (m : Nat), (listModify f n l)[m]? = if m = n then (l[m]?).map f else l[m]?
  | _, [], _ => by simp [listModify]
  | 0, _ :: _, 0 => by simp [listModify]
  | 0, _ :: _, m + 1 => by simp [listModify]
  | n + 1, _ :: _, 0 => by simp [listModify]
  | n + 1, _ :: r, m + 1 => by simpa [listModify] using getElem?_listModify f n r m

theorem listModify_getD (f : α → α) (d : α) (n m : Nat) (l : List α) :
    (listModify f n l).getD m d = if m = n ∧ n < l.length then f (l.getD n d) else l.getD m d := by
  simp only [List.getD_eq_getElem?_getD, getElem?_listModify]
  by_cases h : m = n
  · subst h
    by_cases hl : m < l.length
    · simp [hl]
    · simp [hl]
  · simp [h]

@[simp] theorem listModify_length (f : α → α) : ∀ (n : Nat) (l : List α), (listModify f n l).length = l.length
  | _, [] => by simp [listModify]
  | 0, _ :: _ => rfl
  | n + 1, _ :: r => by simp [listModify, listModify_length f n r]

/-! ## The canonical form -/

theorem FMap.sortedFrom_mono {lo hi : Nat} (h : lo ≤ hi) :
    ∀ {m : FMap α}, FMap.sortedFrom hi m = true → FMap.sortedFrom lo m = true
  | [], _ => rfl
  | (k, _) :: _, hm => by
    simp only [FMap.sortedFrom, Bool.and_eq_true, decide_eq_true_eq] at hm ⊢
    exact ⟨by omega, hm.2⟩

theorem FMap.sortedFrom_put (k : Nat) (x : α) :
    ∀ {lo : Nat} {m : FMap α}, lo ≤ k → FMap.sortedFrom lo m = true → FMap.sortedFrom lo (FMap.put k x m) = true
  | lo, [], h, _ => by simp [FMap.put, FMap.sortedFrom, h]
  | lo, (j, y) :: r, h, hm => by
    simp only [FMap.sortedFrom, Bool.and_eq_true, decide_eq_true_eq] at hm
    simp only [FMap.put]
    split
    · simp only [FMap.sortedFrom, Bool.and_eq_true, decide_eq_true_eq]
      exact ⟨h, by omega, hm.2⟩
    · split
      · subst_vars
        simp only [FMap.sortedFrom, Bool.and_eq_true, decide_eq_true_eq]
        exact hm
      · simp only [FMap.sortedFrom, Bool.and_eq_true, decide_eq_true_eq]
        exact ⟨hm.1, FMap.sortedFrom_put k x (by omega) hm.2⟩

theorem FMap.sortedFrom_filter (p : Nat × α → Bool) :
    ∀ {lo : Nat} {m : FMap α}, FMap.sortedFrom lo m = true → FMap.sortedFrom lo (m.filter p) = true
  | _, [], _ => rfl
  | lo, e :: r, hm => by
    simp only [FMap.sortedFrom, Bool.and_eq_true, decide_eq_true_eq] at hm
    have ih := FMap.sortedFrom_filter p hm.2
    simp only [List.filter]
    split
    · simp only [FMap.sortedFrom, Bool.and_eq_true, decide_eq_true_eq]
      exact ⟨hm.1, ih⟩
    · exact FMap.sortedFrom_mono (by omega) ih

theorem FMap.mem_put {k : Nat} {x : α} {e : Nat × α} :
    ∀ {m : FMap α}, e ∈ FMap.put k x m → e = (k, x) ∨ e ∈ m
  | [], h => by simpa [FMap.put] using h
  | (j, y) :: r, h => by
    simp only [FMap.put] at h
    split at h
    · simpa using h
    · split at h
      · rcases List.mem_cons.1 h with h | h
        · exact .inl h
        · exact .inr (List.mem_cons_of_mem _ h)
      · rcases List.mem_cons.1 h with h | h
        · exact .inr (by simp [h])
        · rcases FMap.mem_put h with h | h
          · exact .inl h
          · exact .inr (List.mem_cons_of_mem _ h)

/-- A write keeps the canonical form. -/
theorem FMap.wf_set [DecidableEq α] (d : α) (k : Nat) (x : α) {m : FMap α} (h : FMap.wf d m = true) :
    FMap.wf d (FMap.set d k x m) = true := by
  simp only [FMap.wf, Bool.and_eq_true, List.all_eq_true] at h ⊢
  simp only [FMap.set]
  split
  · exact ⟨FMap.sortedFrom_filter _ h.1, fun e he => h.2 e (List.mem_filter.1 he).1⟩
  · refine ⟨FMap.sortedFrom_put k x (Nat.zero_le _) h.1, fun e he => ?_⟩
    rcases FMap.mem_put he with rfl | he
    · simpa using ‹¬x = d›
    · exact h.2 e he

/-- Dropping entries keeps the canonical form. -/
theorem FMap.wf_filter [DecidableEq α] (d : α) (p : Nat × α → Bool) {m : FMap α} (h : FMap.wf d m = true) :
    FMap.wf d (m.filter p) = true := by
  simp only [FMap.wf, Bool.and_eq_true, List.all_eq_true] at h ⊢
  exact ⟨FMap.sortedFrom_filter _ h.1, fun e he => h.2 e (List.mem_filter.1 he).1⟩

end Sys2Proof.Machine
end

