-- ==== Sys2Proof/Laws/State.lean ====
section
/-! SUPPORT. One lemma per field of the state and per update: what an update leaves alone. Each is true by computation,
so that no later proof unfolds a record update. -/

namespace Sys2Proof.Machine

variable (s : State)

/-! ## `State.modCore` -/

@[simp] theorem State.modCore_mem (k : Nat) (f : Core → Core) : (s.modCore k f).mem = s.mem := rfl
@[simp] theorem State.modCore_cohorts (k : Nat) (f : Core → Core) : (s.modCore k f).cohorts = s.cohorts := rfl
@[simp] theorem State.modCore_ctxs (k : Nat) (f : Core → Core) : (s.modCore k f).ctxs = s.ctxs := rfl
@[simp] theorem State.modCore_fns (k : Nat) (f : Core → Core) : (s.modCore k f).fns = s.fns := rfl
@[simp] theorem State.modCore_launches (k : Nat) (f : Core → Core) : (s.modCore k f).launches = s.launches := rfl
@[simp] theorem State.modCore_worlds (k : Nat) (f : Core → Core) : (s.modCore k f).worlds = s.worlds := rfl
@[simp] theorem State.modCore_ops (k : Nat) (f : Core → Core) : (s.modCore k f).ops = s.ops := rfl
@[simp] theorem State.modCore_nextOp (k : Nat) (f : Core → Core) : (s.modCore k f).nextOp = s.nextOp := rfl
@[simp] theorem State.modCore_l2 (k : Nat) (f : Core → Core) : (s.modCore k f).l2 = s.l2 := rfl
@[simp] theorem State.modCore_floors (k : Nat) (f : Core → Core) : (s.modCore k f).floors = s.floors := rfl
@[simp] theorem State.modCore_hostW (k : Nat) (f : Core → Core) : (s.modCore k f).hostW = s.hostW := rfl
@[simp] theorem State.modCore_rdc (k : Nat) (f : Core → Core) : (s.modCore k f).rdc = s.rdc := rfl
@[simp] theorem State.modCore_dieTlb (k : Nat) (f : Core → Core) : (s.modCore k f).dieTlb = s.dieTlb := rfl
@[simp] theorem State.modCore_rounds (k : Nat) (f : Core → Core) : (s.modCore k f).rounds = s.rounds := rfl
@[simp] theorem State.modCore_ageNext (k : Nat) (f : Core → Core) : (s.modCore k f).ageNext = s.ageNext := rfl
@[simp] theorem State.modCore_seqNext (k : Nat) (f : Core → Core) : (s.modCore k f).seqNext = s.seqNext := rfl
@[simp] theorem State.modCore_bins (k : Nat) (f : Core → Core) : (s.modCore k f).bins = s.bins := rfl
@[simp] theorem State.modCore_batches (k : Nat) (f : Core → Core) : (s.modCore k f).batches = s.batches := rfl
@[simp] theorem State.modCore_mboxAt (k : Nat) (f : Core → Core) : (s.modCore k f).mboxAt = s.mboxAt := rfl
@[simp] theorem State.modCore_reported (k : Nat) (f : Core → Core) : (s.modCore k f).reported = s.reported := rfl
@[simp] theorem State.modCore_dclk (k : Nat) (f : Core → Core) : (s.modCore k f).dclk = s.dclk := rfl
@[simp] theorem State.modCore_modnum (k : Nat) (f : Core → Core) : (s.modCore k f).modnum = s.modnum := rfl
@[simp] theorem State.modCore_hqBase (k : Nat) (f : Core → Core) : (s.modCore k f).hqBase = s.hqBase := rfl
@[simp] theorem State.modCore_hqLog2 (k : Nat) (f : Core → Core) : (s.modCore k f).hqLog2 = s.hqLog2 := rfl
@[simp] theorem State.modCore_hqTail (k : Nat) (f : Core → Core) : (s.modCore k f).hqTail = s.hqTail := rfl
@[simp] theorem State.modCore_hqHead (k : Nat) (f : Core → Core) : (s.modCore k f).hqHead = s.hqHead := rfl
@[simp] theorem State.modCore_hqReply (k : Nat) (f : Core → Core) : (s.modCore k f).hqReply = s.hqReply := rfl
@[simp] theorem State.modCore_hqOut (k : Nat) (f : Core → Core) : (s.modCore k f).hqOut = s.hqOut := rfl
@[simp] theorem State.modCore_fw (k : Nat) (f : Core → Core) : (s.modCore k f).fw = s.fw := rfl
@[simp] theorem State.modCore_spares (k : Nat) (f : Core → Core) : (s.modCore k f).spares = s.spares := rfl
@[simp] theorem State.modCore_rows (k : Nat) (f : Core → Core) : (s.modCore k f).rows = s.rows := rfl
@[simp] theorem State.modCore_channels (k : Nat) (f : Core → Core) : (s.modCore k f).channels = s.channels := rfl
@[simp] theorem State.modCore_lanes (k : Nat) (f : Core → Core) : (s.modCore k f).lanes = s.lanes := rfl
@[simp] theorem State.modCore_absent (k : Nat) (f : Core → Core) : (s.modCore k f).absent = s.absent := rfl
@[simp] theorem State.modCore_routes (k : Nat) (f : Core → Core) : (s.modCore k f).routes = s.routes := rfl
@[simp] theorem State.modCore_doe (k : Nat) (f : Core → Core) : (s.modCore k f).doe = s.doe := rfl
@[simp] theorem State.modCore_hostRead (k : Nat) (f : Core → Core) : (s.modCore k f).hostRead = s.hostRead := rfl
@[simp] theorem State.modCore_free (k : Nat) (f : Core → Core) : (s.modCore k f).free = s.free := rfl
@[simp] theorem State.modCore_agenda (k : Nat) (f : Core → Core) : (s.modCore k f).agenda = s.agenda := rfl
@[simp] theorem State.modCore_lost (k : Nat) (f : Core → Core) : (s.modCore k f).lost = s.lost := rfl
@[simp] theorem State.modCore_descs (k : Nat) (f : Core → Core) : (s.modCore k f).descs = s.descs := rfl
@[simp] theorem State.modCore_cur (k : Nat) (f : Core → Core) : (s.modCore k f).cur = s.cur := rfl
@[simp] theorem State.modCore_coh_at (k : Nat) (f : Core → Core) (j : Nat) : (s.modCore k f).coh j = s.coh j := rfl
@[simp] theorem State.modCore_warp_at (k : Nat) (f : Core → Core) (j i : Nat) : (s.modCore k f).warp j i = s.warp j i := rfl
@[simp] theorem State.modCore_thread_at (k : Nat) (f : Core → Core) (j i m : Nat) : (s.modCore k f).thread j i m = s.thread j i m := rfl
@[simp] theorem State.modCore_ctx_at (k : Nat) (f : Core → Core) (j : Nat) : (s.modCore k f).ctx j = s.ctx j := rfl
@[simp] theorem State.modCore_fn_at (k : Nat) (f : Core → Core) (j : Nat) : (s.modCore k f).fn j = s.fn j := rfl
@[simp] theorem State.modCore_byte_at (k : Nat) (f : Core → Core) (j : Nat) : (s.modCore k f).byte j = s.byte j := rfl

/-! ## `State.modCoh` -/

@[simp] theorem State.modCoh_mem (k : Nat) (f : Cohort → Cohort) : (s.modCoh k f).mem = s.mem := rfl
@[simp] theorem State.modCoh_cores (k : Nat) (f : Cohort → Cohort) : (s.modCoh k f).cores = s.cores := rfl
@[simp] theorem State.modCoh_ctxs (k : Nat) (f : Cohort → Cohort) : (s.modCoh k f).ctxs = s.ctxs := rfl
@[simp] theorem State.modCoh_fns (k : Nat) (f : Cohort → Cohort) : (s.modCoh k f).fns = s.fns := rfl
@[simp] theorem State.modCoh_launches (k : Nat) (f : Cohort → Cohort) : (s.modCoh k f).launches = s.launches := rfl
@[simp] theorem State.modCoh_worlds (k : Nat) (f : Cohort → Cohort) : (s.modCoh k f).worlds = s.worlds := rfl
@[simp] theorem State.modCoh_ops (k : Nat) (f : Cohort → Cohort) : (s.modCoh k f).ops = s.ops := rfl
@[simp] theorem State.modCoh_nextOp (k : Nat) (f : Cohort → Cohort) : (s.modCoh k f).nextOp = s.nextOp := rfl
@[simp] theorem State.modCoh_l2 (k : Nat) (f : Cohort → Cohort) : (s.modCoh k f).l2 = s.l2 := rfl
@[simp] theorem State.modCoh_floors (k : Nat) (f : Cohort → Cohort) : (s.modCoh k f).floors = s.floors := rfl
@[simp] theorem State.modCoh_hostW (k : Nat) (f : Cohort → Cohort) : (s.modCoh k f).hostW = s.hostW := rfl
@[simp] theorem State.modCoh_rdc (k : Nat) (f : Cohort → Cohort) : (s.modCoh k f).rdc = s.rdc := rfl
@[simp] theorem State.modCoh_dieTlb (k : Nat) (f : Cohort → Cohort) : (s.modCoh k f).dieTlb = s.dieTlb := rfl
@[simp] theorem State.modCoh_rounds (k : Nat) (f : Cohort → Cohort) : (s.modCoh k f).rounds = s.rounds := rfl
@[simp] theorem State.modCoh_ageNext (k : Nat) (f : Cohort → Cohort) : (s.modCoh k f).ageNext = s.ageNext := rfl
@[simp] theorem State.modCoh_seqNext (k : Nat) (f : Cohort → Cohort) : (s.modCoh k f).seqNext = s.seqNext := rfl
@[simp] theorem State.modCoh_bins (k : Nat) (f : Cohort → Cohort) : (s.modCoh k f).bins = s.bins := rfl
@[simp] theorem State.modCoh_batches (k : Nat) (f : Cohort → Cohort) : (s.modCoh k f).batches = s.batches := rfl
@[simp] theorem State.modCoh_mboxAt (k : Nat) (f : Cohort → Cohort) : (s.modCoh k f).mboxAt = s.mboxAt := rfl
@[simp] theorem State.modCoh_reported (k : Nat) (f : Cohort → Cohort) : (s.modCoh k f).reported = s.reported := rfl
@[simp] theorem State.modCoh_dclk (k : Nat) (f : Cohort → Cohort) : (s.modCoh k f).dclk = s.dclk := rfl
@[simp] theorem State.modCoh_modnum (k : Nat) (f : Cohort → Cohort) : (s.modCoh k f).modnum = s.modnum := rfl
@[simp] theorem State.modCoh_hqBase (k : Nat) (f : Cohort → Cohort) : (s.modCoh k f).hqBase = s.hqBase := rfl
@[simp] theorem State.modCoh_hqLog2 (k : Nat) (f : Cohort → Cohort) : (s.modCoh k f).hqLog2 = s.hqLog2 := rfl
@[simp] theorem State.modCoh_hqTail (k : Nat) (f : Cohort → Cohort) : (s.modCoh k f).hqTail = s.hqTail := rfl
@[simp] theorem State.modCoh_hqHead (k : Nat) (f : Cohort → Cohort) : (s.modCoh k f).hqHead = s.hqHead := rfl
@[simp] theorem State.modCoh_hqReply (k : Nat) (f : Cohort → Cohort) : (s.modCoh k f).hqReply = s.hqReply := rfl
@[simp] theorem State.modCoh_hqOut (k : Nat) (f : Cohort → Cohort) : (s.modCoh k f).hqOut = s.hqOut := rfl
@[simp] theorem State.modCoh_fw (k : Nat) (f : Cohort → Cohort) : (s.modCoh k f).fw = s.fw := rfl
@[simp] theorem State.modCoh_spares (k : Nat) (f : Cohort → Cohort) : (s.modCoh k f).spares = s.spares := rfl
@[simp] theorem State.modCoh_rows (k : Nat) (f : Cohort → Cohort) : (s.modCoh k f).rows = s.rows := rfl
@[simp] theorem State.modCoh_channels (k : Nat) (f : Cohort → Cohort) : (s.modCoh k f).channels = s.channels := rfl
@[simp] theorem State.modCoh_lanes (k : Nat) (f : Cohort → Cohort) : (s.modCoh k f).lanes = s.lanes := rfl
@[simp] theorem State.modCoh_absent (k : Nat) (f : Cohort → Cohort) : (s.modCoh k f).absent = s.absent := rfl
@[simp] theorem State.modCoh_routes (k : Nat) (f : Cohort → Cohort) : (s.modCoh k f).routes = s.routes := rfl
@[simp] theorem State.modCoh_doe (k : Nat) (f : Cohort → Cohort) : (s.modCoh k f).doe = s.doe := rfl
@[simp] theorem State.modCoh_hostRead (k : Nat) (f : Cohort → Cohort) : (s.modCoh k f).hostRead = s.hostRead := rfl
@[simp] theorem State.modCoh_free (k : Nat) (f : Cohort → Cohort) : (s.modCoh k f).free = s.free := rfl
@[simp] theorem State.modCoh_agenda (k : Nat) (f : Cohort → Cohort) : (s.modCoh k f).agenda = s.agenda := rfl
@[simp] theorem State.modCoh_lost (k : Nat) (f : Cohort → Cohort) : (s.modCoh k f).lost = s.lost := rfl
@[simp] theorem State.modCoh_descs (k : Nat) (f : Cohort → Cohort) : (s.modCoh k f).descs = s.descs := rfl
@[simp] theorem State.modCoh_cur (k : Nat) (f : Cohort → Cohort) : (s.modCoh k f).cur = s.cur := rfl
@[simp] theorem State.modCoh_core_at (k : Nat) (f : Cohort → Cohort) (j : Nat) : (s.modCoh k f).core j = s.core j := rfl
@[simp] theorem State.modCoh_ctx_at (k : Nat) (f : Cohort → Cohort) (j : Nat) : (s.modCoh k f).ctx j = s.ctx j := rfl
@[simp] theorem State.modCoh_fn_at (k : Nat) (f : Cohort → Cohort) (j : Nat) : (s.modCoh k f).fn j = s.fn j := rfl
@[simp] theorem State.modCoh_byte_at (k : Nat) (f : Cohort → Cohort) (j : Nat) : (s.modCoh k f).byte j = s.byte j := rfl

/-! ## `State.modWarp` -/

@[simp] theorem State.modWarp_mem (k w : Nat) (f : Warp → Warp) : (s.modWarp k w f).mem = s.mem := rfl
@[simp] theorem State.modWarp_cores (k w : Nat) (f : Warp → Warp) : (s.modWarp k w f).cores = s.cores := rfl
@[simp] theorem State.modWarp_ctxs (k w : Nat) (f : Warp → Warp) : (s.modWarp k w f).ctxs = s.ctxs := rfl
@[simp] theorem State.modWarp_fns (k w : Nat) (f : Warp → Warp) : (s.modWarp k w f).fns = s.fns := rfl
@[simp] theorem State.modWarp_launches (k w : Nat) (f : Warp → Warp) : (s.modWarp k w f).launches = s.launches := rfl
@[simp] theorem State.modWarp_worlds (k w : Nat) (f : Warp → Warp) : (s.modWarp k w f).worlds = s.worlds := rfl
@[simp] theorem State.modWarp_ops (k w : Nat) (f : Warp → Warp) : (s.modWarp k w f).ops = s.ops := rfl
@[simp] theorem State.modWarp_nextOp (k w : Nat) (f : Warp → Warp) : (s.modWarp k w f).nextOp = s.nextOp := rfl
@[simp] theorem State.modWarp_l2 (k w : Nat) (f : Warp → Warp) : (s.modWarp k w f).l2 = s.l2 := rfl
@[simp] theorem State.modWarp_floors (k w : Nat) (f : Warp → Warp) : (s.modWarp k w f).floors = s.floors := rfl
@[simp] theorem State.modWarp_hostW (k w : Nat) (f : Warp → Warp) : (s.modWarp k w f).hostW = s.hostW := rfl
@[simp] theorem State.modWarp_rdc (k w : Nat) (f : Warp → Warp) : (s.modWarp k w f).rdc = s.rdc := rfl
@[simp] theorem State.modWarp_dieTlb (k w : Nat) (f : Warp → Warp) : (s.modWarp k w f).dieTlb = s.dieTlb := rfl
@[simp] theorem State.modWarp_rounds (k w : Nat) (f : Warp → Warp) : (s.modWarp k w f).rounds = s.rounds := rfl
@[simp] theorem State.modWarp_ageNext (k w : Nat) (f : Warp → Warp) : (s.modWarp k w f).ageNext = s.ageNext := rfl
@[simp] theorem State.modWarp_seqNext (k w : Nat) (f : Warp → Warp) : (s.modWarp k w f).seqNext = s.seqNext := rfl
@[simp] theorem State.modWarp_bins (k w : Nat) (f : Warp → Warp) : (s.modWarp k w f).bins = s.bins := rfl
@[simp] theorem State.modWarp_batches (k w : Nat) (f : Warp → Warp) : (s.modWarp k w f).batches = s.batches := rfl
@[simp] theorem State.modWarp_mboxAt (k w : Nat) (f : Warp → Warp) : (s.modWarp k w f).mboxAt = s.mboxAt := rfl
@[simp] theorem State.modWarp_reported (k w : Nat) (f : Warp → Warp) : (s.modWarp k w f).reported = s.reported := rfl
@[simp] theorem State.modWarp_dclk (k w : Nat) (f : Warp → Warp) : (s.modWarp k w f).dclk = s.dclk := rfl
@[simp] theorem State.modWarp_modnum (k w : Nat) (f : Warp → Warp) : (s.modWarp k w f).modnum = s.modnum := rfl
@[simp] theorem State.modWarp_hqBase (k w : Nat) (f : Warp → Warp) : (s.modWarp k w f).hqBase = s.hqBase := rfl
@[simp] theorem State.modWarp_hqLog2 (k w : Nat) (f : Warp → Warp) : (s.modWarp k w f).hqLog2 = s.hqLog2 := rfl
@[simp] theorem State.modWarp_hqTail (k w : Nat) (f : Warp → Warp) : (s.modWarp k w f).hqTail = s.hqTail := rfl
@[simp] theorem State.modWarp_hqHead (k w : Nat) (f : Warp → Warp) : (s.modWarp k w f).hqHead = s.hqHead := rfl
@[simp] theorem State.modWarp_hqReply (k w : Nat) (f : Warp → Warp) : (s.modWarp k w f).hqReply = s.hqReply := rfl
@[simp] theorem State.modWarp_hqOut (k w : Nat) (f : Warp → Warp) : (s.modWarp k w f).hqOut = s.hqOut := rfl
@[simp] theorem State.modWarp_fw (k w : Nat) (f : Warp → Warp) : (s.modWarp k w f).fw = s.fw := rfl
@[simp] theorem State.modWarp_spares (k w : Nat) (f : Warp → Warp) : (s.modWarp k w f).spares = s.spares := rfl
@[simp] theorem State.modWarp_rows (k w : Nat) (f : Warp → Warp) : (s.modWarp k w f).rows = s.rows := rfl
@[simp] theorem State.modWarp_channels (k w : Nat) (f : Warp → Warp) : (s.modWarp k w f).channels = s.channels := rfl
@[simp] theorem State.modWarp_lanes (k w : Nat) (f : Warp → Warp) : (s.modWarp k w f).lanes = s.lanes := rfl
@[simp] theorem State.modWarp_absent (k w : Nat) (f : Warp → Warp) : (s.modWarp k w f).absent = s.absent := rfl
@[simp] theorem State.modWarp_routes (k w : Nat) (f : Warp → Warp) : (s.modWarp k w f).routes = s.routes := rfl
@[simp] theorem State.modWarp_doe (k w : Nat) (f : Warp → Warp) : (s.modWarp k w f).doe = s.doe := rfl
@[simp] theorem State.modWarp_hostRead (k w : Nat) (f : Warp → Warp) : (s.modWarp k w f).hostRead = s.hostRead := rfl
@[simp] theorem State.modWarp_free (k w : Nat) (f : Warp → Warp) : (s.modWarp k w f).free = s.free := rfl
@[simp] theorem State.modWarp_agenda (k w : Nat) (f : Warp → Warp) : (s.modWarp k w f).agenda = s.agenda := rfl
@[simp] theorem State.modWarp_lost (k w : Nat) (f : Warp → Warp) : (s.modWarp k w f).lost = s.lost := rfl
@[simp] theorem State.modWarp_descs (k w : Nat) (f : Warp → Warp) : (s.modWarp k w f).descs = s.descs := rfl
@[simp] theorem State.modWarp_cur (k w : Nat) (f : Warp → Warp) : (s.modWarp k w f).cur = s.cur := rfl
@[simp] theorem State.modWarp_core_at (k w : Nat) (f : Warp → Warp) (j : Nat) : (s.modWarp k w f).core j = s.core j := rfl
@[simp] theorem State.modWarp_ctx_at (k w : Nat) (f : Warp → Warp) (j : Nat) : (s.modWarp k w f).ctx j = s.ctx j := rfl
@[simp] theorem State.modWarp_fn_at (k w : Nat) (f : Warp → Warp) (j : Nat) : (s.modWarp k w f).fn j = s.fn j := rfl
@[simp] theorem State.modWarp_byte_at (k w : Nat) (f : Warp → Warp) (j : Nat) : (s.modWarp k w f).byte j = s.byte j := rfl

/-! ## `State.modThread` -/

@[simp] theorem State.modThread_mem (k w l : Nat) (f : Thread → Thread) : (s.modThread k w l f).mem = s.mem := rfl
@[simp] theorem State.modThread_cores (k w l : Nat) (f : Thread → Thread) : (s.modThread k w l f).cores = s.cores := rfl
@[simp] theorem State.modThread_ctxs (k w l : Nat) (f : Thread → Thread) : (s.modThread k w l f).ctxs = s.ctxs := rfl
@[simp] theorem State.modThread_fns (k w l : Nat) (f : Thread → Thread) : (s.modThread k w l f).fns = s.fns := rfl
@[simp] theorem State.modThread_launches (k w l : Nat) (f : Thread → Thread) : (s.modThread k w l f).launches = s.launches := rfl
@[simp] theorem State.modThread_worlds (k w l : Nat) (f : Thread → Thread) : (s.modThread k w l f).worlds = s.worlds := rfl
@[simp] theorem State.modThread_ops (k w l : Nat) (f : Thread → Thread) : (s.modThread k w l f).ops = s.ops := rfl
@[simp] theorem State.modThread_nextOp (k w l : Nat) (f : Thread → Thread) : (s.modThread k w l f).nextOp = s.nextOp := rfl
@[simp] theorem State.modThread_l2 (k w l : Nat) (f : Thread → Thread) : (s.modThread k w l f).l2 = s.l2 := rfl
@[simp] theorem State.modThread_floors (k w l : Nat) (f : Thread → Thread) : (s.modThread k w l f).floors = s.floors := rfl
@[simp] theorem State.modThread_hostW (k w l : Nat) (f : Thread → Thread) : (s.modThread k w l f).hostW = s.hostW := rfl
@[simp] theorem State.modThread_rdc (k w l : Nat) (f : Thread → Thread) : (s.modThread k w l f).rdc = s.rdc := rfl
@[simp] theorem State.modThread_dieTlb (k w l : Nat) (f : Thread → Thread) : (s.modThread k w l f).dieTlb = s.dieTlb := rfl
@[simp] theorem State.modThread_rounds (k w l : Nat) (f : Thread → Thread) : (s.modThread k w l f).rounds = s.rounds := rfl
@[simp] theorem State.modThread_ageNext (k w l : Nat) (f : Thread → Thread) : (s.modThread k w l f).ageNext = s.ageNext := rfl
@[simp] theorem State.modThread_seqNext (k w l : Nat) (f : Thread → Thread) : (s.modThread k w l f).seqNext = s.seqNext := rfl
@[simp] theorem State.modThread_bins (k w l : Nat) (f : Thread → Thread) : (s.modThread k w l f).bins = s.bins := rfl
@[simp] theorem State.modThread_batches (k w l : Nat) (f : Thread → Thread) : (s.modThread k w l f).batches = s.batches := rfl
@[simp] theorem State.modThread_mboxAt (k w l : Nat) (f : Thread → Thread) : (s.modThread k w l f).mboxAt = s.mboxAt := rfl
@[simp] theorem State.modThread_reported (k w l : Nat) (f : Thread → Thread) : (s.modThread k w l f).reported = s.reported := rfl
@[simp] theorem State.modThread_dclk (k w l : Nat) (f : Thread → Thread) : (s.modThread k w l f).dclk = s.dclk := rfl
@[simp] theorem State.modThread_modnum (k w l : Nat) (f : Thread → Thread) : (s.modThread k w l f).modnum = s.modnum := rfl
@[simp] theorem State.modThread_hqBase (k w l : Nat) (f : Thread → Thread) : (s.modThread k w l f).hqBase = s.hqBase := rfl
@[simp] theorem State.modThread_hqLog2 (k w l : Nat) (f : Thread → Thread) : (s.modThread k w l f).hqLog2 = s.hqLog2 := rfl
@[simp] theorem State.modThread_hqTail (k w l : Nat) (f : Thread → Thread) : (s.modThread k w l f).hqTail = s.hqTail := rfl
@[simp] theorem State.modThread_hqHead (k w l : Nat) (f : Thread → Thread) : (s.modThread k w l f).hqHead = s.hqHead := rfl
@[simp] theorem State.modThread_hqReply (k w l : Nat) (f : Thread → Thread) : (s.modThread k w l f).hqReply = s.hqReply := rfl
@[simp] theorem State.modThread_hqOut (k w l : Nat) (f : Thread → Thread) : (s.modThread k w l f).hqOut = s.hqOut := rfl
@[simp] theorem State.modThread_fw (k w l : Nat) (f : Thread → Thread) : (s.modThread k w l f).fw = s.fw := rfl
@[simp] theorem State.modThread_spares (k w l : Nat) (f : Thread → Thread) : (s.modThread k w l f).spares = s.spares := rfl
@[simp] theorem State.modThread_rows (k w l : Nat) (f : Thread → Thread) : (s.modThread k w l f).rows = s.rows := rfl
@[simp] theorem State.modThread_channels (k w l : Nat) (f : Thread → Thread) : (s.modThread k w l f).channels = s.channels := rfl
@[simp] theorem State.modThread_lanes (k w l : Nat) (f : Thread → Thread) : (s.modThread k w l f).lanes = s.lanes := rfl
@[simp] theorem State.modThread_absent (k w l : Nat) (f : Thread → Thread) : (s.modThread k w l f).absent = s.absent := rfl
@[simp] theorem State.modThread_routes (k w l : Nat) (f : Thread → Thread) : (s.modThread k w l f).routes = s.routes := rfl
@[simp] theorem State.modThread_doe (k w l : Nat) (f : Thread → Thread) : (s.modThread k w l f).doe = s.doe := rfl
@[simp] theorem State.modThread_hostRead (k w l : Nat) (f : Thread → Thread) : (s.modThread k w l f).hostRead = s.hostRead := rfl
@[simp] theorem State.modThread_free (k w l : Nat) (f : Thread → Thread) : (s.modThread k w l f).free = s.free := rfl
@[simp] theorem State.modThread_agenda (k w l : Nat) (f : Thread → Thread) : (s.modThread k w l f).agenda = s.agenda := rfl
@[simp] theorem State.modThread_lost (k w l : Nat) (f : Thread → Thread) : (s.modThread k w l f).lost = s.lost := rfl
@[simp] theorem State.modThread_descs (k w l : Nat) (f : Thread → Thread) : (s.modThread k w l f).descs = s.descs := rfl
@[simp] theorem State.modThread_cur (k w l : Nat) (f : Thread → Thread) : (s.modThread k w l f).cur = s.cur := rfl
@[simp] theorem State.modThread_core_at (k w l : Nat) (f : Thread → Thread) (j : Nat) : (s.modThread k w l f).core j = s.core j := rfl
@[simp] theorem State.modThread_ctx_at (k w l : Nat) (f : Thread → Thread) (j : Nat) : (s.modThread k w l f).ctx j = s.ctx j := rfl
@[simp] theorem State.modThread_fn_at (k w l : Nat) (f : Thread → Thread) (j : Nat) : (s.modThread k w l f).fn j = s.fn j := rfl
@[simp] theorem State.modThread_byte_at (k w l : Nat) (f : Thread → Thread) (j : Nat) : (s.modThread k w l f).byte j = s.byte j := rfl

/-! ## `State.modCtx` -/

@[simp] theorem State.modCtx_mem (k : Nat) (f : Context → Context) : (s.modCtx k f).mem = s.mem := rfl
@[simp] theorem State.modCtx_cores (k : Nat) (f : Context → Context) : (s.modCtx k f).cores = s.cores := rfl
@[simp] theorem State.modCtx_cohorts (k : Nat) (f : Context → Context) : (s.modCtx k f).cohorts = s.cohorts := rfl
@[simp] theorem State.modCtx_fns (k : Nat) (f : Context → Context) : (s.modCtx k f).fns = s.fns := rfl
@[simp] theorem State.modCtx_launches (k : Nat) (f : Context → Context) : (s.modCtx k f).launches = s.launches := rfl
@[simp] theorem State.modCtx_worlds (k : Nat) (f : Context → Context) : (s.modCtx k f).worlds = s.worlds := rfl
@[simp] theorem State.modCtx_ops (k : Nat) (f : Context → Context) : (s.modCtx k f).ops = s.ops := rfl
@[simp] theorem State.modCtx_nextOp (k : Nat) (f : Context → Context) : (s.modCtx k f).nextOp = s.nextOp := rfl
@[simp] theorem State.modCtx_l2 (k : Nat) (f : Context → Context) : (s.modCtx k f).l2 = s.l2 := rfl
@[simp] theorem State.modCtx_floors (k : Nat) (f : Context → Context) : (s.modCtx k f).floors = s.floors := rfl
@[simp] theorem State.modCtx_hostW (k : Nat) (f : Context → Context) : (s.modCtx k f).hostW = s.hostW := rfl
@[simp] theorem State.modCtx_rdc (k : Nat) (f : Context → Context) : (s.modCtx k f).rdc = s.rdc := rfl
@[simp] theorem State.modCtx_dieTlb (k : Nat) (f : Context → Context) : (s.modCtx k f).dieTlb = s.dieTlb := rfl
@[simp] theorem State.modCtx_rounds (k : Nat) (f : Context → Context) : (s.modCtx k f).rounds = s.rounds := rfl
@[simp] theorem State.modCtx_ageNext (k : Nat) (f : Context → Context) : (s.modCtx k f).ageNext = s.ageNext := rfl
@[simp] theorem State.modCtx_seqNext (k : Nat) (f : Context → Context) : (s.modCtx k f).seqNext = s.seqNext := rfl
@[simp] theorem State.modCtx_bins (k : Nat) (f : Context → Context) : (s.modCtx k f).bins = s.bins := rfl
@[simp] theorem State.modCtx_batches (k : Nat) (f : Context → Context) : (s.modCtx k f).batches = s.batches := rfl
@[simp] theorem State.modCtx_mboxAt (k : Nat) (f : Context → Context) : (s.modCtx k f).mboxAt = s.mboxAt := rfl
@[simp] theorem State.modCtx_reported (k : Nat) (f : Context → Context) : (s.modCtx k f).reported = s.reported := rfl
@[simp] theorem State.modCtx_dclk (k : Nat) (f : Context → Context) : (s.modCtx k f).dclk = s.dclk := rfl
@[simp] theorem State.modCtx_modnum (k : Nat) (f : Context → Context) : (s.modCtx k f).modnum = s.modnum := rfl
@[simp] theorem State.modCtx_hqBase (k : Nat) (f : Context → Context) : (s.modCtx k f).hqBase = s.hqBase := rfl
@[simp] theorem State.modCtx_hqLog2 (k : Nat) (f : Context → Context) : (s.modCtx k f).hqLog2 = s.hqLog2 := rfl
@[simp] theorem State.modCtx_hqTail (k : Nat) (f : Context → Context) : (s.modCtx k f).hqTail = s.hqTail := rfl
@[simp] theorem State.modCtx_hqHead (k : Nat) (f : Context → Context) : (s.modCtx k f).hqHead = s.hqHead := rfl
@[simp] theorem State.modCtx_hqReply (k : Nat) (f : Context → Context) : (s.modCtx k f).hqReply = s.hqReply := rfl
@[simp] theorem State.modCtx_hqOut (k : Nat) (f : Context → Context) : (s.modCtx k f).hqOut = s.hqOut := rfl
@[simp] theorem State.modCtx_fw (k : Nat) (f : Context → Context) : (s.modCtx k f).fw = s.fw := rfl
@[simp] theorem State.modCtx_spares (k : Nat) (f : Context → Context) : (s.modCtx k f).spares = s.spares := rfl
@[simp] theorem State.modCtx_rows (k : Nat) (f : Context → Context) : (s.modCtx k f).rows = s.rows := rfl
@[simp] theorem State.modCtx_channels (k : Nat) (f : Context → Context) : (s.modCtx k f).channels = s.channels := rfl
@[simp] theorem State.modCtx_lanes (k : Nat) (f : Context → Context) : (s.modCtx k f).lanes = s.lanes := rfl
@[simp] theorem State.modCtx_absent (k : Nat) (f : Context → Context) : (s.modCtx k f).absent = s.absent := rfl
@[simp] theorem State.modCtx_routes (k : Nat) (f : Context → Context) : (s.modCtx k f).routes = s.routes := rfl
@[simp] theorem State.modCtx_doe (k : Nat) (f : Context → Context) : (s.modCtx k f).doe = s.doe := rfl
@[simp] theorem State.modCtx_hostRead (k : Nat) (f : Context → Context) : (s.modCtx k f).hostRead = s.hostRead := rfl
@[simp] theorem State.modCtx_free (k : Nat) (f : Context → Context) : (s.modCtx k f).free = s.free := rfl
@[simp] theorem State.modCtx_agenda (k : Nat) (f : Context → Context) : (s.modCtx k f).agenda = s.agenda := rfl
@[simp] theorem State.modCtx_lost (k : Nat) (f : Context → Context) : (s.modCtx k f).lost = s.lost := rfl
@[simp] theorem State.modCtx_descs (k : Nat) (f : Context → Context) : (s.modCtx k f).descs = s.descs := rfl
@[simp] theorem State.modCtx_cur (k : Nat) (f : Context → Context) : (s.modCtx k f).cur = s.cur := rfl
@[simp] theorem State.modCtx_core_at (k : Nat) (f : Context → Context) (j : Nat) : (s.modCtx k f).core j = s.core j := rfl
@[simp] theorem State.modCtx_coh_at (k : Nat) (f : Context → Context) (j : Nat) : (s.modCtx k f).coh j = s.coh j := rfl
@[simp] theorem State.modCtx_warp_at (k : Nat) (f : Context → Context) (j i : Nat) : (s.modCtx k f).warp j i = s.warp j i := rfl
@[simp] theorem State.modCtx_thread_at (k : Nat) (f : Context → Context) (j i m : Nat) : (s.modCtx k f).thread j i m = s.thread j i m := rfl
@[simp] theorem State.modCtx_fn_at (k : Nat) (f : Context → Context) (j : Nat) : (s.modCtx k f).fn j = s.fn j := rfl
@[simp] theorem State.modCtx_byte_at (k : Nat) (f : Context → Context) (j : Nat) : (s.modCtx k f).byte j = s.byte j := rfl

/-! ## `State.modFn` -/

@[simp] theorem State.modFn_mem (k : Nat) (f : Function → Function) : (s.modFn k f).mem = s.mem := rfl
@[simp] theorem State.modFn_cores (k : Nat) (f : Function → Function) : (s.modFn k f).cores = s.cores := rfl
@[simp] theorem State.modFn_cohorts (k : Nat) (f : Function → Function) : (s.modFn k f).cohorts = s.cohorts := rfl
@[simp] theorem State.modFn_ctxs (k : Nat) (f : Function → Function) : (s.modFn k f).ctxs = s.ctxs := rfl
@[simp] theorem State.modFn_launches (k : Nat) (f : Function → Function) : (s.modFn k f).launches = s.launches := rfl
@[simp] theorem State.modFn_worlds (k : Nat) (f : Function → Function) : (s.modFn k f).worlds = s.worlds := rfl
@[simp] theorem State.modFn_ops (k : Nat) (f : Function → Function) : (s.modFn k f).ops = s.ops := rfl
@[simp] theorem State.modFn_nextOp (k : Nat) (f : Function → Function) : (s.modFn k f).nextOp = s.nextOp := rfl
@[simp] theorem State.modFn_l2 (k : Nat) (f : Function → Function) : (s.modFn k f).l2 = s.l2 := rfl
@[simp] theorem State.modFn_floors (k : Nat) (f : Function → Function) : (s.modFn k f).floors = s.floors := rfl
@[simp] theorem State.modFn_hostW (k : Nat) (f : Function → Function) : (s.modFn k f).hostW = s.hostW := rfl
@[simp] theorem State.modFn_rdc (k : Nat) (f : Function → Function) : (s.modFn k f).rdc = s.rdc := rfl
@[simp] theorem State.modFn_dieTlb (k : Nat) (f : Function → Function) : (s.modFn k f).dieTlb = s.dieTlb := rfl
@[simp] theorem State.modFn_rounds (k : Nat) (f : Function → Function) : (s.modFn k f).rounds = s.rounds := rfl
@[simp] theorem State.modFn_ageNext (k : Nat) (f : Function → Function) : (s.modFn k f).ageNext = s.ageNext := rfl
@[simp] theorem State.modFn_seqNext (k : Nat) (f : Function → Function) : (s.modFn k f).seqNext = s.seqNext := rfl
@[simp] theorem State.modFn_bins (k : Nat) (f : Function → Function) : (s.modFn k f).bins = s.bins := rfl
@[simp] theorem State.modFn_batches (k : Nat) (f : Function → Function) : (s.modFn k f).batches = s.batches := rfl
@[simp] theorem State.modFn_mboxAt (k : Nat) (f : Function → Function) : (s.modFn k f).mboxAt = s.mboxAt := rfl
@[simp] theorem State.modFn_reported (k : Nat) (f : Function → Function) : (s.modFn k f).reported = s.reported := rfl
@[simp] theorem State.modFn_dclk (k : Nat) (f : Function → Function) : (s.modFn k f).dclk = s.dclk := rfl
@[simp] theorem State.modFn_modnum (k : Nat) (f : Function → Function) : (s.modFn k f).modnum = s.modnum := rfl
@[simp] theorem State.modFn_hqBase (k : Nat) (f : Function → Function) : (s.modFn k f).hqBase = s.hqBase := rfl
@[simp] theorem State.modFn_hqLog2 (k : Nat) (f : Function → Function) : (s.modFn k f).hqLog2 = s.hqLog2 := rfl
@[simp] theorem State.modFn_hqTail (k : Nat) (f : Function → Function) : (s.modFn k f).hqTail = s.hqTail := rfl
@[simp] theorem State.modFn_hqHead (k : Nat) (f : Function → Function) : (s.modFn k f).hqHead = s.hqHead := rfl
@[simp] theorem State.modFn_hqReply (k : Nat) (f : Function → Function) : (s.modFn k f).hqReply = s.hqReply := rfl
@[simp] theorem State.modFn_hqOut (k : Nat) (f : Function → Function) : (s.modFn k f).hqOut = s.hqOut := rfl
@[simp] theorem State.modFn_fw (k : Nat) (f : Function → Function) : (s.modFn k f).fw = s.fw := rfl
@[simp] theorem State.modFn_spares (k : Nat) (f : Function → Function) : (s.modFn k f).spares = s.spares := rfl
@[simp] theorem State.modFn_rows (k : Nat) (f : Function → Function) : (s.modFn k f).rows = s.rows := rfl
@[simp] theorem State.modFn_channels (k : Nat) (f : Function → Function) : (s.modFn k f).channels = s.channels := rfl
@[simp] theorem State.modFn_lanes (k : Nat) (f : Function → Function) : (s.modFn k f).lanes = s.lanes := rfl
@[simp] theorem State.modFn_absent (k : Nat) (f : Function → Function) : (s.modFn k f).absent = s.absent := rfl
@[simp] theorem State.modFn_routes (k : Nat) (f : Function → Function) : (s.modFn k f).routes = s.routes := rfl
@[simp] theorem State.modFn_doe (k : Nat) (f : Function → Function) : (s.modFn k f).doe = s.doe := rfl
@[simp] theorem State.modFn_hostRead (k : Nat) (f : Function → Function) : (s.modFn k f).hostRead = s.hostRead := rfl
@[simp] theorem State.modFn_free (k : Nat) (f : Function → Function) : (s.modFn k f).free = s.free := rfl
@[simp] theorem State.modFn_agenda (k : Nat) (f : Function → Function) : (s.modFn k f).agenda = s.agenda := rfl
@[simp] theorem State.modFn_lost (k : Nat) (f : Function → Function) : (s.modFn k f).lost = s.lost := rfl
@[simp] theorem State.modFn_descs (k : Nat) (f : Function → Function) : (s.modFn k f).descs = s.descs := rfl
@[simp] theorem State.modFn_cur (k : Nat) (f : Function → Function) : (s.modFn k f).cur = s.cur := rfl
@[simp] theorem State.modFn_core_at (k : Nat) (f : Function → Function) (j : Nat) : (s.modFn k f).core j = s.core j := rfl
@[simp] theorem State.modFn_coh_at (k : Nat) (f : Function → Function) (j : Nat) : (s.modFn k f).coh j = s.coh j := rfl
@[simp] theorem State.modFn_warp_at (k : Nat) (f : Function → Function) (j i : Nat) : (s.modFn k f).warp j i = s.warp j i := rfl
@[simp] theorem State.modFn_thread_at (k : Nat) (f : Function → Function) (j i m : Nat) : (s.modFn k f).thread j i m = s.thread j i m := rfl
@[simp] theorem State.modFn_ctx_at (k : Nat) (f : Function → Function) (j : Nat) : (s.modFn k f).ctx j = s.ctx j := rfl
@[simp] theorem State.modFn_byte_at (k : Nat) (f : Function → Function) (j : Nat) : (s.modFn k f).byte j = s.byte j := rfl

/-! ## `State.modLaunch` -/

@[simp] theorem State.modLaunch_mem (k : Nat) (f : Launch → Launch) : (s.modLaunch k f).mem = s.mem := rfl
@[simp] theorem State.modLaunch_cores (k : Nat) (f : Launch → Launch) : (s.modLaunch k f).cores = s.cores := rfl
@[simp] theorem State.modLaunch_cohorts (k : Nat) (f : Launch → Launch) : (s.modLaunch k f).cohorts = s.cohorts := rfl
@[simp] theorem State.modLaunch_ctxs (k : Nat) (f : Launch → Launch) : (s.modLaunch k f).ctxs = s.ctxs := rfl
@[simp] theorem State.modLaunch_fns (k : Nat) (f : Launch → Launch) : (s.modLaunch k f).fns = s.fns := rfl
@[simp] theorem State.modLaunch_worlds (k : Nat) (f : Launch → Launch) : (s.modLaunch k f).worlds = s.worlds := rfl
@[simp] theorem State.modLaunch_ops (k : Nat) (f : Launch → Launch) : (s.modLaunch k f).ops = s.ops := rfl
@[simp] theorem State.modLaunch_nextOp (k : Nat) (f : Launch → Launch) : (s.modLaunch k f).nextOp = s.nextOp := rfl
@[simp] theorem State.modLaunch_l2 (k : Nat) (f : Launch → Launch) : (s.modLaunch k f).l2 = s.l2 := rfl
@[simp] theorem State.modLaunch_floors (k : Nat) (f : Launch → Launch) : (s.modLaunch k f).floors = s.floors := rfl
@[simp] theorem State.modLaunch_hostW (k : Nat) (f : Launch → Launch) : (s.modLaunch k f).hostW = s.hostW := rfl
@[simp] theorem State.modLaunch_rdc (k : Nat) (f : Launch → Launch) : (s.modLaunch k f).rdc = s.rdc := rfl
@[simp] theorem State.modLaunch_dieTlb (k : Nat) (f : Launch → Launch) : (s.modLaunch k f).dieTlb = s.dieTlb := rfl
@[simp] theorem State.modLaunch_rounds (k : Nat) (f : Launch → Launch) : (s.modLaunch k f).rounds = s.rounds := rfl
@[simp] theorem State.modLaunch_ageNext (k : Nat) (f : Launch → Launch) : (s.modLaunch k f).ageNext = s.ageNext := rfl
@[simp] theorem State.modLaunch_seqNext (k : Nat) (f : Launch → Launch) : (s.modLaunch k f).seqNext = s.seqNext := rfl
@[simp] theorem State.modLaunch_bins (k : Nat) (f : Launch → Launch) : (s.modLaunch k f).bins = s.bins := rfl
@[simp] theorem State.modLaunch_batches (k : Nat) (f : Launch → Launch) : (s.modLaunch k f).batches = s.batches := rfl
@[simp] theorem State.modLaunch_mboxAt (k : Nat) (f : Launch → Launch) : (s.modLaunch k f).mboxAt = s.mboxAt := rfl
@[simp] theorem State.modLaunch_reported (k : Nat) (f : Launch → Launch) : (s.modLaunch k f).reported = s.reported := rfl
@[simp] theorem State.modLaunch_dclk (k : Nat) (f : Launch → Launch) : (s.modLaunch k f).dclk = s.dclk := rfl
@[simp] theorem State.modLaunch_modnum (k : Nat) (f : Launch → Launch) : (s.modLaunch k f).modnum = s.modnum := rfl
@[simp] theorem State.modLaunch_hqBase (k : Nat) (f : Launch → Launch) : (s.modLaunch k f).hqBase = s.hqBase := rfl
@[simp] theorem State.modLaunch_hqLog2 (k : Nat) (f : Launch → Launch) : (s.modLaunch k f).hqLog2 = s.hqLog2 := rfl
@[simp] theorem State.modLaunch_hqTail (k : Nat) (f : Launch → Launch) : (s.modLaunch k f).hqTail = s.hqTail := rfl
@[simp] theorem State.modLaunch_hqHead (k : Nat) (f : Launch → Launch) : (s.modLaunch k f).hqHead = s.hqHead := rfl
@[simp] theorem State.modLaunch_hqReply (k : Nat) (f : Launch → Launch) : (s.modLaunch k f).hqReply = s.hqReply := rfl
@[simp] theorem State.modLaunch_hqOut (k : Nat) (f : Launch → Launch) : (s.modLaunch k f).hqOut = s.hqOut := rfl
@[simp] theorem State.modLaunch_fw (k : Nat) (f : Launch → Launch) : (s.modLaunch k f).fw = s.fw := rfl
@[simp] theorem State.modLaunch_spares (k : Nat) (f : Launch → Launch) : (s.modLaunch k f).spares = s.spares := rfl
@[simp] theorem State.modLaunch_rows (k : Nat) (f : Launch → Launch) : (s.modLaunch k f).rows = s.rows := rfl
@[simp] theorem State.modLaunch_channels (k : Nat) (f : Launch → Launch) : (s.modLaunch k f).channels = s.channels := rfl
@[simp] theorem State.modLaunch_lanes (k : Nat) (f : Launch → Launch) : (s.modLaunch k f).lanes = s.lanes := rfl
@[simp] theorem State.modLaunch_absent (k : Nat) (f : Launch → Launch) : (s.modLaunch k f).absent = s.absent := rfl
@[simp] theorem State.modLaunch_routes (k : Nat) (f : Launch → Launch) : (s.modLaunch k f).routes = s.routes := rfl
@[simp] theorem State.modLaunch_doe (k : Nat) (f : Launch → Launch) : (s.modLaunch k f).doe = s.doe := rfl
@[simp] theorem State.modLaunch_hostRead (k : Nat) (f : Launch → Launch) : (s.modLaunch k f).hostRead = s.hostRead := rfl
@[simp] theorem State.modLaunch_free (k : Nat) (f : Launch → Launch) : (s.modLaunch k f).free = s.free := rfl
@[simp] theorem State.modLaunch_agenda (k : Nat) (f : Launch → Launch) : (s.modLaunch k f).agenda = s.agenda := rfl
@[simp] theorem State.modLaunch_lost (k : Nat) (f : Launch → Launch) : (s.modLaunch k f).lost = s.lost := rfl
@[simp] theorem State.modLaunch_descs (k : Nat) (f : Launch → Launch) : (s.modLaunch k f).descs = s.descs := rfl
@[simp] theorem State.modLaunch_cur (k : Nat) (f : Launch → Launch) : (s.modLaunch k f).cur = s.cur := rfl
@[simp] theorem State.modLaunch_core_at (k : Nat) (f : Launch → Launch) (j : Nat) : (s.modLaunch k f).core j = s.core j := rfl
@[simp] theorem State.modLaunch_coh_at (k : Nat) (f : Launch → Launch) (j : Nat) : (s.modLaunch k f).coh j = s.coh j := rfl
@[simp] theorem State.modLaunch_warp_at (k : Nat) (f : Launch → Launch) (j i : Nat) : (s.modLaunch k f).warp j i = s.warp j i := rfl
@[simp] theorem State.modLaunch_thread_at (k : Nat) (f : Launch → Launch) (j i m : Nat) : (s.modLaunch k f).thread j i m = s.thread j i m := rfl
@[simp] theorem State.modLaunch_ctx_at (k : Nat) (f : Launch → Launch) (j : Nat) : (s.modLaunch k f).ctx j = s.ctx j := rfl
@[simp] theorem State.modLaunch_fn_at (k : Nat) (f : Launch → Launch) (j : Nat) : (s.modLaunch k f).fn j = s.fn j := rfl
@[simp] theorem State.modLaunch_byte_at (k : Nat) (f : Launch → Launch) (j : Nat) : (s.modLaunch k f).byte j = s.byte j := rfl

/-! ## `State.modWorld` -/

@[simp] theorem State.modWorld_mem (k : Nat) (f : World → World) : (s.modWorld k f).mem = s.mem := rfl
@[simp] theorem State.modWorld_cores (k : Nat) (f : World → World) : (s.modWorld k f).cores = s.cores := rfl
@[simp] theorem State.modWorld_cohorts (k : Nat) (f : World → World) : (s.modWorld k f).cohorts = s.cohorts := rfl
@[simp] theorem State.modWorld_ctxs (k : Nat) (f : World → World) : (s.modWorld k f).ctxs = s.ctxs := rfl
@[simp] theorem State.modWorld_fns (k : Nat) (f : World → World) : (s.modWorld k f).fns = s.fns := rfl
@[simp] theorem State.modWorld_launches (k : Nat) (f : World → World) : (s.modWorld k f).launches = s.launches := rfl
@[simp] theorem State.modWorld_ops (k : Nat) (f : World → World) : (s.modWorld k f).ops = s.ops := rfl
@[simp] theorem State.modWorld_nextOp (k : Nat) (f : World → World) : (s.modWorld k f).nextOp = s.nextOp := rfl
@[simp] theorem State.modWorld_l2 (k : Nat) (f : World → World) : (s.modWorld k f).l2 = s.l2 := rfl
@[simp] theorem State.modWorld_floors (k : Nat) (f : World → World) : (s.modWorld k f).floors = s.floors := rfl
@[simp] theorem State.modWorld_hostW (k : Nat) (f : World → World) : (s.modWorld k f).hostW = s.hostW := rfl
@[simp] theorem State.modWorld_rdc (k : Nat) (f : World → World) : (s.modWorld k f).rdc = s.rdc := rfl
@[simp] theorem State.modWorld_dieTlb (k : Nat) (f : World → World) : (s.modWorld k f).dieTlb = s.dieTlb := rfl
@[simp] theorem State.modWorld_rounds (k : Nat) (f : World → World) : (s.modWorld k f).rounds = s.rounds := rfl
@[simp] theorem State.modWorld_ageNext (k : Nat) (f : World → World) : (s.modWorld k f).ageNext = s.ageNext := rfl
@[simp] theorem State.modWorld_seqNext (k : Nat) (f : World → World) : (s.modWorld k f).seqNext = s.seqNext := rfl
@[simp] theorem State.modWorld_bins (k : Nat) (f : World → World) : (s.modWorld k f).bins = s.bins := rfl
@[simp] theorem State.modWorld_batches (k : Nat) (f : World → World) : (s.modWorld k f).batches = s.batches := rfl
@[simp] theorem State.modWorld_mboxAt (k : Nat) (f : World → World) : (s.modWorld k f).mboxAt = s.mboxAt := rfl
@[simp] theorem State.modWorld_reported (k : Nat) (f : World → World) : (s.modWorld k f).reported = s.reported := rfl
@[simp] theorem State.modWorld_dclk (k : Nat) (f : World → World) : (s.modWorld k f).dclk = s.dclk := rfl
@[simp] theorem State.modWorld_modnum (k : Nat) (f : World → World) : (s.modWorld k f).modnum = s.modnum := rfl
@[simp] theorem State.modWorld_hqBase (k : Nat) (f : World → World) : (s.modWorld k f).hqBase = s.hqBase := rfl
@[simp] theorem State.modWorld_hqLog2 (k : Nat) (f : World → World) : (s.modWorld k f).hqLog2 = s.hqLog2 := rfl
@[simp] theorem State.modWorld_hqTail (k : Nat) (f : World → World) : (s.modWorld k f).hqTail = s.hqTail := rfl
@[simp] theorem State.modWorld_hqHead (k : Nat) (f : World → World) : (s.modWorld k f).hqHead = s.hqHead := rfl
@[simp] theorem State.modWorld_hqReply (k : Nat) (f : World → World) : (s.modWorld k f).hqReply = s.hqReply := rfl
@[simp] theorem State.modWorld_hqOut (k : Nat) (f : World → World) : (s.modWorld k f).hqOut = s.hqOut := rfl
@[simp] theorem State.modWorld_fw (k : Nat) (f : World → World) : (s.modWorld k f).fw = s.fw := rfl
@[simp] theorem State.modWorld_spares (k : Nat) (f : World → World) : (s.modWorld k f).spares = s.spares := rfl
@[simp] theorem State.modWorld_rows (k : Nat) (f : World → World) : (s.modWorld k f).rows = s.rows := rfl
@[simp] theorem State.modWorld_channels (k : Nat) (f : World → World) : (s.modWorld k f).channels = s.channels := rfl
@[simp] theorem State.modWorld_lanes (k : Nat) (f : World → World) : (s.modWorld k f).lanes = s.lanes := rfl
@[simp] theorem State.modWorld_absent (k : Nat) (f : World → World) : (s.modWorld k f).absent = s.absent := rfl
@[simp] theorem State.modWorld_routes (k : Nat) (f : World → World) : (s.modWorld k f).routes = s.routes := rfl
@[simp] theorem State.modWorld_doe (k : Nat) (f : World → World) : (s.modWorld k f).doe = s.doe := rfl
@[simp] theorem State.modWorld_hostRead (k : Nat) (f : World → World) : (s.modWorld k f).hostRead = s.hostRead := rfl
@[simp] theorem State.modWorld_free (k : Nat) (f : World → World) : (s.modWorld k f).free = s.free := rfl
@[simp] theorem State.modWorld_agenda (k : Nat) (f : World → World) : (s.modWorld k f).agenda = s.agenda := rfl
@[simp] theorem State.modWorld_lost (k : Nat) (f : World → World) : (s.modWorld k f).lost = s.lost := rfl
@[simp] theorem State.modWorld_descs (k : Nat) (f : World → World) : (s.modWorld k f).descs = s.descs := rfl
@[simp] theorem State.modWorld_cur (k : Nat) (f : World → World) : (s.modWorld k f).cur = s.cur := rfl
@[simp] theorem State.modWorld_core_at (k : Nat) (f : World → World) (j : Nat) : (s.modWorld k f).core j = s.core j := rfl
@[simp] theorem State.modWorld_coh_at (k : Nat) (f : World → World) (j : Nat) : (s.modWorld k f).coh j = s.coh j := rfl
@[simp] theorem State.modWorld_warp_at (k : Nat) (f : World → World) (j i : Nat) : (s.modWorld k f).warp j i = s.warp j i := rfl
@[simp] theorem State.modWorld_thread_at (k : Nat) (f : World → World) (j i m : Nat) : (s.modWorld k f).thread j i m = s.thread j i m := rfl
@[simp] theorem State.modWorld_ctx_at (k : Nat) (f : World → World) (j : Nat) : (s.modWorld k f).ctx j = s.ctx j := rfl
@[simp] theorem State.modWorld_fn_at (k : Nat) (f : World → World) (j : Nat) : (s.modWorld k f).fn j = s.fn j := rfl
@[simp] theorem State.modWorld_byte_at (k : Nat) (f : World → World) (j : Nat) : (s.modWorld k f).byte j = s.byte j := rfl

/-! ## `State.modOp` -/

@[simp] theorem State.modOp_mem (k : Nat) (f : Op → Op) : (s.modOp k f).mem = s.mem := rfl
@[simp] theorem State.modOp_cores (k : Nat) (f : Op → Op) : (s.modOp k f).cores = s.cores := rfl
@[simp] theorem State.modOp_cohorts (k : Nat) (f : Op → Op) : (s.modOp k f).cohorts = s.cohorts := rfl
@[simp] theorem State.modOp_ctxs (k : Nat) (f : Op → Op) : (s.modOp k f).ctxs = s.ctxs := rfl
@[simp] theorem State.modOp_fns (k : Nat) (f : Op → Op) : (s.modOp k f).fns = s.fns := rfl
@[simp] theorem State.modOp_launches (k : Nat) (f : Op → Op) : (s.modOp k f).launches = s.launches := rfl
@[simp] theorem State.modOp_worlds (k : Nat) (f : Op → Op) : (s.modOp k f).worlds = s.worlds := rfl
@[simp] theorem State.modOp_nextOp (k : Nat) (f : Op → Op) : (s.modOp k f).nextOp = s.nextOp := rfl
@[simp] theorem State.modOp_l2 (k : Nat) (f : Op → Op) : (s.modOp k f).l2 = s.l2 := rfl
@[simp] theorem State.modOp_floors (k : Nat) (f : Op → Op) : (s.modOp k f).floors = s.floors := rfl
@[simp] theorem State.modOp_hostW (k : Nat) (f : Op → Op) : (s.modOp k f).hostW = s.hostW := rfl
@[simp] theorem State.modOp_rdc (k : Nat) (f : Op → Op) : (s.modOp k f).rdc = s.rdc := rfl
@[simp] theorem State.modOp_dieTlb (k : Nat) (f : Op → Op) : (s.modOp k f).dieTlb = s.dieTlb := rfl
@[simp] theorem State.modOp_rounds (k : Nat) (f : Op → Op) : (s.modOp k f).rounds = s.rounds := rfl
@[simp] theorem State.modOp_ageNext (k : Nat) (f : Op → Op) : (s.modOp k f).ageNext = s.ageNext := rfl
@[simp] theorem State.modOp_seqNext (k : Nat) (f : Op → Op) : (s.modOp k f).seqNext = s.seqNext := rfl
@[simp] theorem State.modOp_bins (k : Nat) (f : Op → Op) : (s.modOp k f).bins = s.bins := rfl
@[simp] theorem State.modOp_batches (k : Nat) (f : Op → Op) : (s.modOp k f).batches = s.batches := rfl
@[simp] theorem State.modOp_mboxAt (k : Nat) (f : Op → Op) : (s.modOp k f).mboxAt = s.mboxAt := rfl
@[simp] theorem State.modOp_reported (k : Nat) (f : Op → Op) : (s.modOp k f).reported = s.reported := rfl
@[simp] theorem State.modOp_dclk (k : Nat) (f : Op → Op) : (s.modOp k f).dclk = s.dclk := rfl
@[simp] theorem State.modOp_modnum (k : Nat) (f : Op → Op) : (s.modOp k f).modnum = s.modnum := rfl
@[simp] theorem State.modOp_hqBase (k : Nat) (f : Op → Op) : (s.modOp k f).hqBase = s.hqBase := rfl
@[simp] theorem State.modOp_hqLog2 (k : Nat) (f : Op → Op) : (s.modOp k f).hqLog2 = s.hqLog2 := rfl
@[simp] theorem State.modOp_hqTail (k : Nat) (f : Op → Op) : (s.modOp k f).hqTail = s.hqTail := rfl
@[simp] theorem State.modOp_hqHead (k : Nat) (f : Op → Op) : (s.modOp k f).hqHead = s.hqHead := rfl
@[simp] theorem State.modOp_hqReply (k : Nat) (f : Op → Op) : (s.modOp k f).hqReply = s.hqReply := rfl
@[simp] theorem State.modOp_hqOut (k : Nat) (f : Op → Op) : (s.modOp k f).hqOut = s.hqOut := rfl
@[simp] theorem State.modOp_fw (k : Nat) (f : Op → Op) : (s.modOp k f).fw = s.fw := rfl
@[simp] theorem State.modOp_spares (k : Nat) (f : Op → Op) : (s.modOp k f).spares = s.spares := rfl
@[simp] theorem State.modOp_rows (k : Nat) (f : Op → Op) : (s.modOp k f).rows = s.rows := rfl
@[simp] theorem State.modOp_channels (k : Nat) (f : Op → Op) : (s.modOp k f).channels = s.channels := rfl
@[simp] theorem State.modOp_lanes (k : Nat) (f : Op → Op) : (s.modOp k f).lanes = s.lanes := rfl
@[simp] theorem State.modOp_absent (k : Nat) (f : Op → Op) : (s.modOp k f).absent = s.absent := rfl
@[simp] theorem State.modOp_routes (k : Nat) (f : Op → Op) : (s.modOp k f).routes = s.routes := rfl
@[simp] theorem State.modOp_doe (k : Nat) (f : Op → Op) : (s.modOp k f).doe = s.doe := rfl
@[simp] theorem State.modOp_hostRead (k : Nat) (f : Op → Op) : (s.modOp k f).hostRead = s.hostRead := rfl
@[simp] theorem State.modOp_free (k : Nat) (f : Op → Op) : (s.modOp k f).free = s.free := rfl
@[simp] theorem State.modOp_agenda (k : Nat) (f : Op → Op) : (s.modOp k f).agenda = s.agenda := rfl
@[simp] theorem State.modOp_lost (k : Nat) (f : Op → Op) : (s.modOp k f).lost = s.lost := rfl
@[simp] theorem State.modOp_descs (k : Nat) (f : Op → Op) : (s.modOp k f).descs = s.descs := rfl
@[simp] theorem State.modOp_cur (k : Nat) (f : Op → Op) : (s.modOp k f).cur = s.cur := rfl
@[simp] theorem State.modOp_core_at (k : Nat) (f : Op → Op) (j : Nat) : (s.modOp k f).core j = s.core j := rfl
@[simp] theorem State.modOp_coh_at (k : Nat) (f : Op → Op) (j : Nat) : (s.modOp k f).coh j = s.coh j := rfl
@[simp] theorem State.modOp_warp_at (k : Nat) (f : Op → Op) (j i : Nat) : (s.modOp k f).warp j i = s.warp j i := rfl
@[simp] theorem State.modOp_thread_at (k : Nat) (f : Op → Op) (j i m : Nat) : (s.modOp k f).thread j i m = s.thread j i m := rfl
@[simp] theorem State.modOp_ctx_at (k : Nat) (f : Op → Op) (j : Nat) : (s.modOp k f).ctx j = s.ctx j := rfl
@[simp] theorem State.modOp_fn_at (k : Nat) (f : Op → Op) (j : Nat) : (s.modOp k f).fn j = s.fn j := rfl
@[simp] theorem State.modOp_byte_at (k : Nat) (f : Op → Op) (j : Nat) : (s.modOp k f).byte j = s.byte j := rfl

/-! ## `State.addOp` -/

@[simp] theorem State.addOp_mem (o : Op) : (s.addOp o).mem = s.mem := rfl
@[simp] theorem State.addOp_cores (o : Op) : (s.addOp o).cores = s.cores := rfl
@[simp] theorem State.addOp_cohorts (o : Op) : (s.addOp o).cohorts = s.cohorts := rfl
@[simp] theorem State.addOp_ctxs (o : Op) : (s.addOp o).ctxs = s.ctxs := rfl
@[simp] theorem State.addOp_fns (o : Op) : (s.addOp o).fns = s.fns := rfl
@[simp] theorem State.addOp_launches (o : Op) : (s.addOp o).launches = s.launches := rfl
@[simp] theorem State.addOp_worlds (o : Op) : (s.addOp o).worlds = s.worlds := rfl
@[simp] theorem State.addOp_l2 (o : Op) : (s.addOp o).l2 = s.l2 := rfl
@[simp] theorem State.addOp_floors (o : Op) : (s.addOp o).floors = s.floors := rfl
@[simp] theorem State.addOp_hostW (o : Op) : (s.addOp o).hostW = s.hostW := rfl
@[simp] theorem State.addOp_rdc (o : Op) : (s.addOp o).rdc = s.rdc := rfl
@[simp] theorem State.addOp_dieTlb (o : Op) : (s.addOp o).dieTlb = s.dieTlb := rfl
@[simp] theorem State.addOp_rounds (o : Op) : (s.addOp o).rounds = s.rounds := rfl
@[simp] theorem State.addOp_ageNext (o : Op) : (s.addOp o).ageNext = s.ageNext := rfl
@[simp] theorem State.addOp_seqNext (o : Op) : (s.addOp o).seqNext = s.seqNext := rfl
@[simp] theorem State.addOp_bins (o : Op) : (s.addOp o).bins = s.bins := rfl
@[simp] theorem State.addOp_batches (o : Op) : (s.addOp o).batches = s.batches := rfl
@[simp] theorem State.addOp_mboxAt (o : Op) : (s.addOp o).mboxAt = s.mboxAt := rfl
@[simp] theorem State.addOp_reported (o : Op) : (s.addOp o).reported = s.reported := rfl
@[simp] theorem State.addOp_dclk (o : Op) : (s.addOp o).dclk = s.dclk := rfl
@[simp] theorem State.addOp_modnum (o : Op) : (s.addOp o).modnum = s.modnum := rfl
@[simp] theorem State.addOp_hqBase (o : Op) : (s.addOp o).hqBase = s.hqBase := rfl
@[simp] theorem State.addOp_hqLog2 (o : Op) : (s.addOp o).hqLog2 = s.hqLog2 := rfl
@[simp] theorem State.addOp_hqTail (o : Op) : (s.addOp o).hqTail = s.hqTail := rfl
@[simp] theorem State.addOp_hqHead (o : Op) : (s.addOp o).hqHead = s.hqHead := rfl
@[simp] theorem State.addOp_hqReply (o : Op) : (s.addOp o).hqReply = s.hqReply := rfl
@[simp] theorem State.addOp_hqOut (o : Op) : (s.addOp o).hqOut = s.hqOut := rfl
@[simp] theorem State.addOp_fw (o : Op) : (s.addOp o).fw = s.fw := rfl
@[simp] theorem State.addOp_spares (o : Op) : (s.addOp o).spares = s.spares := rfl
@[simp] theorem State.addOp_rows (o : Op) : (s.addOp o).rows = s.rows := rfl
@[simp] theorem State.addOp_channels (o : Op) : (s.addOp o).channels = s.channels := rfl
@[simp] theorem State.addOp_lanes (o : Op) : (s.addOp o).lanes = s.lanes := rfl
@[simp] theorem State.addOp_absent (o : Op) : (s.addOp o).absent = s.absent := rfl
@[simp] theorem State.addOp_routes (o : Op) : (s.addOp o).routes = s.routes := rfl
@[simp] theorem State.addOp_doe (o : Op) : (s.addOp o).doe = s.doe := rfl
@[simp] theorem State.addOp_hostRead (o : Op) : (s.addOp o).hostRead = s.hostRead := rfl
@[simp] theorem State.addOp_free (o : Op) : (s.addOp o).free = s.free := rfl
@[simp] theorem State.addOp_agenda (o : Op) : (s.addOp o).agenda = s.agenda := rfl
@[simp] theorem State.addOp_lost (o : Op) : (s.addOp o).lost = s.lost := rfl
@[simp] theorem State.addOp_descs (o : Op) : (s.addOp o).descs = s.descs := rfl
@[simp] theorem State.addOp_cur (o : Op) : (s.addOp o).cur = s.cur := rfl
@[simp] theorem State.addOp_core_at (o : Op) (j : Nat) : (s.addOp o).core j = s.core j := rfl
@[simp] theorem State.addOp_coh_at (o : Op) (j : Nat) : (s.addOp o).coh j = s.coh j := rfl
@[simp] theorem State.addOp_warp_at (o : Op) (j i : Nat) : (s.addOp o).warp j i = s.warp j i := rfl
@[simp] theorem State.addOp_thread_at (o : Op) (j i m : Nat) : (s.addOp o).thread j i m = s.thread j i m := rfl
@[simp] theorem State.addOp_ctx_at (o : Op) (j : Nat) : (s.addOp o).ctx j = s.ctx j := rfl
@[simp] theorem State.addOp_fn_at (o : Op) (j : Nat) : (s.addOp o).fn j = s.fn j := rfl
@[simp] theorem State.addOp_byte_at (o : Op) (j : Nat) : (s.addOp o).byte j = s.byte j := rfl

/-! ## `State.delOp` -/

@[simp] theorem State.delOp_mem (k : Nat) : (s.delOp k).mem = s.mem := rfl
@[simp] theorem State.delOp_cores (k : Nat) : (s.delOp k).cores = s.cores := rfl
@[simp] theorem State.delOp_cohorts (k : Nat) : (s.delOp k).cohorts = s.cohorts := rfl
@[simp] theorem State.delOp_ctxs (k : Nat) : (s.delOp k).ctxs = s.ctxs := rfl
@[simp] theorem State.delOp_fns (k : Nat) : (s.delOp k).fns = s.fns := rfl
@[simp] theorem State.delOp_launches (k : Nat) : (s.delOp k).launches = s.launches := rfl
@[simp] theorem State.delOp_worlds (k : Nat) : (s.delOp k).worlds = s.worlds := rfl
@[simp] theorem State.delOp_nextOp (k : Nat) : (s.delOp k).nextOp = s.nextOp := rfl
@[simp] theorem State.delOp_l2 (k : Nat) : (s.delOp k).l2 = s.l2 := rfl
@[simp] theorem State.delOp_floors (k : Nat) : (s.delOp k).floors = s.floors := rfl
@[simp] theorem State.delOp_hostW (k : Nat) : (s.delOp k).hostW = s.hostW := rfl
@[simp] theorem State.delOp_rdc (k : Nat) : (s.delOp k).rdc = s.rdc := rfl
@[simp] theorem State.delOp_dieTlb (k : Nat) : (s.delOp k).dieTlb = s.dieTlb := rfl
@[simp] theorem State.delOp_rounds (k : Nat) : (s.delOp k).rounds = s.rounds := rfl
@[simp] theorem State.delOp_ageNext (k : Nat) : (s.delOp k).ageNext = s.ageNext := rfl
@[simp] theorem State.delOp_seqNext (k : Nat) : (s.delOp k).seqNext = s.seqNext := rfl
@[simp] theorem State.delOp_bins (k : Nat) : (s.delOp k).bins = s.bins := rfl
@[simp] theorem State.delOp_batches (k : Nat) : (s.delOp k).batches = s.batches := rfl
@[simp] theorem State.delOp_mboxAt (k : Nat) : (s.delOp k).mboxAt = s.mboxAt := rfl
@[simp] theorem State.delOp_reported (k : Nat) : (s.delOp k).reported = s.reported := rfl
@[simp] theorem State.delOp_dclk (k : Nat) : (s.delOp k).dclk = s.dclk := rfl
@[simp] theorem State.delOp_modnum (k : Nat) : (s.delOp k).modnum = s.modnum := rfl
@[simp] theorem State.delOp_hqBase (k : Nat) : (s.delOp k).hqBase = s.hqBase := rfl
@[simp] theorem State.delOp_hqLog2 (k : Nat) : (s.delOp k).hqLog2 = s.hqLog2 := rfl
@[simp] theorem State.delOp_hqTail (k : Nat) : (s.delOp k).hqTail = s.hqTail := rfl
@[simp] theorem State.delOp_hqHead (k : Nat) : (s.delOp k).hqHead = s.hqHead := rfl
@[simp] theorem State.delOp_hqReply (k : Nat) : (s.delOp k).hqReply = s.hqReply := rfl
@[simp] theorem State.delOp_hqOut (k : Nat) : (s.delOp k).hqOut = s.hqOut := rfl
@[simp] theorem State.delOp_fw (k : Nat) : (s.delOp k).fw = s.fw := rfl
@[simp] theorem State.delOp_spares (k : Nat) : (s.delOp k).spares = s.spares := rfl
@[simp] theorem State.delOp_rows (k : Nat) : (s.delOp k).rows = s.rows := rfl
@[simp] theorem State.delOp_channels (k : Nat) : (s.delOp k).channels = s.channels := rfl
@[simp] theorem State.delOp_lanes (k : Nat) : (s.delOp k).lanes = s.lanes := rfl
@[simp] theorem State.delOp_absent (k : Nat) : (s.delOp k).absent = s.absent := rfl
@[simp] theorem State.delOp_routes (k : Nat) : (s.delOp k).routes = s.routes := rfl
@[simp] theorem State.delOp_doe (k : Nat) : (s.delOp k).doe = s.doe := rfl
@[simp] theorem State.delOp_hostRead (k : Nat) : (s.delOp k).hostRead = s.hostRead := rfl
@[simp] theorem State.delOp_free (k : Nat) : (s.delOp k).free = s.free := rfl
@[simp] theorem State.delOp_agenda (k : Nat) : (s.delOp k).agenda = s.agenda := rfl
@[simp] theorem State.delOp_lost (k : Nat) : (s.delOp k).lost = s.lost := rfl
@[simp] theorem State.delOp_descs (k : Nat) : (s.delOp k).descs = s.descs := rfl
@[simp] theorem State.delOp_cur (k : Nat) : (s.delOp k).cur = s.cur := rfl
@[simp] theorem State.delOp_core_at (k : Nat) (j : Nat) : (s.delOp k).core j = s.core j := rfl
@[simp] theorem State.delOp_coh_at (k : Nat) (j : Nat) : (s.delOp k).coh j = s.coh j := rfl
@[simp] theorem State.delOp_warp_at (k : Nat) (j i : Nat) : (s.delOp k).warp j i = s.warp j i := rfl
@[simp] theorem State.delOp_thread_at (k : Nat) (j i m : Nat) : (s.delOp k).thread j i m = s.thread j i m := rfl
@[simp] theorem State.delOp_ctx_at (k : Nat) (j : Nat) : (s.delOp k).ctx j = s.ctx j := rfl
@[simp] theorem State.delOp_fn_at (k : Nat) (j : Nat) : (s.delOp k).fn j = s.fn j := rfl
@[simp] theorem State.delOp_byte_at (k : Nat) (j : Nat) : (s.delOp k).byte j = s.byte j := rfl

/-! ## `State.writeV` -/

@[simp] theorem State.writeV_mem (k w r l : Nat) (v : W32) : (s.writeV k w r l v).mem = s.mem := rfl
@[simp] theorem State.writeV_cores (k w r l : Nat) (v : W32) : (s.writeV k w r l v).cores = s.cores := rfl
@[simp] theorem State.writeV_ctxs (k w r l : Nat) (v : W32) : (s.writeV k w r l v).ctxs = s.ctxs := rfl
@[simp] theorem State.writeV_fns (k w r l : Nat) (v : W32) : (s.writeV k w r l v).fns = s.fns := rfl
@[simp] theorem State.writeV_launches (k w r l : Nat) (v : W32) : (s.writeV k w r l v).launches = s.launches := rfl
@[simp] theorem State.writeV_worlds (k w r l : Nat) (v : W32) : (s.writeV k w r l v).worlds = s.worlds := rfl
@[simp] theorem State.writeV_ops (k w r l : Nat) (v : W32) : (s.writeV k w r l v).ops = s.ops := rfl
@[simp] theorem State.writeV_nextOp (k w r l : Nat) (v : W32) : (s.writeV k w r l v).nextOp = s.nextOp := rfl
@[simp] theorem State.writeV_l2 (k w r l : Nat) (v : W32) : (s.writeV k w r l v).l2 = s.l2 := rfl
@[simp] theorem State.writeV_floors (k w r l : Nat) (v : W32) : (s.writeV k w r l v).floors = s.floors := rfl
@[simp] theorem State.writeV_hostW (k w r l : Nat) (v : W32) : (s.writeV k w r l v).hostW = s.hostW := rfl
@[simp] theorem State.writeV_rdc (k w r l : Nat) (v : W32) : (s.writeV k w r l v).rdc = s.rdc := rfl
@[simp] theorem State.writeV_dieTlb (k w r l : Nat) (v : W32) : (s.writeV k w r l v).dieTlb = s.dieTlb := rfl
@[simp] theorem State.writeV_rounds (k w r l : Nat) (v : W32) : (s.writeV k w r l v).rounds = s.rounds := rfl
@[simp] theorem State.writeV_ageNext (k w r l : Nat) (v : W32) : (s.writeV k w r l v).ageNext = s.ageNext := rfl
@[simp] theorem State.writeV_seqNext (k w r l : Nat) (v : W32) : (s.writeV k w r l v).seqNext = s.seqNext := rfl
@[simp] theorem State.writeV_bins (k w r l : Nat) (v : W32) : (s.writeV k w r l v).bins = s.bins := rfl
@[simp] theorem State.writeV_batches (k w r l : Nat) (v : W32) : (s.writeV k w r l v).batches = s.batches := rfl
@[simp] theorem State.writeV_mboxAt (k w r l : Nat) (v : W32) : (s.writeV k w r l v).mboxAt = s.mboxAt := rfl
@[simp] theorem State.writeV_reported (k w r l : Nat) (v : W32) : (s.writeV k w r l v).reported = s.reported := rfl
@[simp] theorem State.writeV_dclk (k w r l : Nat) (v : W32) : (s.writeV k w r l v).dclk = s.dclk := rfl
@[simp] theorem State.writeV_modnum (k w r l : Nat) (v : W32) : (s.writeV k w r l v).modnum = s.modnum := rfl
@[simp] theorem State.writeV_hqBase (k w r l : Nat) (v : W32) : (s.writeV k w r l v).hqBase = s.hqBase := rfl
@[simp] theorem State.writeV_hqLog2 (k w r l : Nat) (v : W32) : (s.writeV k w r l v).hqLog2 = s.hqLog2 := rfl
@[simp] theorem State.writeV_hqTail (k w r l : Nat) (v : W32) : (s.writeV k w r l v).hqTail = s.hqTail := rfl
@[simp] theorem State.writeV_hqHead (k w r l : Nat) (v : W32) : (s.writeV k w r l v).hqHead = s.hqHead := rfl
@[simp] theorem State.writeV_hqReply (k w r l : Nat) (v : W32) : (s.writeV k w r l v).hqReply = s.hqReply := rfl
@[simp] theorem State.writeV_hqOut (k w r l : Nat) (v : W32) : (s.writeV k w r l v).hqOut = s.hqOut := rfl
@[simp] theorem State.writeV_fw (k w r l : Nat) (v : W32) : (s.writeV k w r l v).fw = s.fw := rfl
@[simp] theorem State.writeV_spares (k w r l : Nat) (v : W32) : (s.writeV k w r l v).spares = s.spares := rfl
@[simp] theorem State.writeV_rows (k w r l : Nat) (v : W32) : (s.writeV k w r l v).rows = s.rows := rfl
@[simp] theorem State.writeV_channels (k w r l : Nat) (v : W32) : (s.writeV k w r l v).channels = s.channels := rfl
@[simp] theorem State.writeV_lanes (k w r l : Nat) (v : W32) : (s.writeV k w r l v).lanes = s.lanes := rfl
@[simp] theorem State.writeV_absent (k w r l : Nat) (v : W32) : (s.writeV k w r l v).absent = s.absent := rfl
@[simp] theorem State.writeV_routes (k w r l : Nat) (v : W32) : (s.writeV k w r l v).routes = s.routes := rfl
@[simp] theorem State.writeV_doe (k w r l : Nat) (v : W32) : (s.writeV k w r l v).doe = s.doe := rfl
@[simp] theorem State.writeV_hostRead (k w r l : Nat) (v : W32) : (s.writeV k w r l v).hostRead = s.hostRead := rfl
@[simp] theorem State.writeV_free (k w r l : Nat) (v : W32) : (s.writeV k w r l v).free = s.free := rfl
@[simp] theorem State.writeV_agenda (k w r l : Nat) (v : W32) : (s.writeV k w r l v).agenda = s.agenda := rfl
@[simp] theorem State.writeV_lost (k w r l : Nat) (v : W32) : (s.writeV k w r l v).lost = s.lost := rfl
@[simp] theorem State.writeV_descs (k w r l : Nat) (v : W32) : (s.writeV k w r l v).descs = s.descs := rfl
@[simp] theorem State.writeV_cur (k w r l : Nat) (v : W32) : (s.writeV k w r l v).cur = s.cur := rfl
@[simp] theorem State.writeV_core_at (k w r l : Nat) (v : W32) (j : Nat) : (s.writeV k w r l v).core j = s.core j := rfl
@[simp] theorem State.writeV_ctx_at (k w r l : Nat) (v : W32) (j : Nat) : (s.writeV k w r l v).ctx j = s.ctx j := rfl
@[simp] theorem State.writeV_fn_at (k w r l : Nat) (v : W32) (j : Nat) : (s.writeV k w r l v).fn j = s.fn j := rfl
@[simp] theorem State.writeV_byte_at (k w r l : Nat) (v : W32) (j : Nat) : (s.writeV k w r l v).byte j = s.byte j := rfl

/-! ## `State.writeS` -/

@[simp] theorem State.writeS_mem (k w r : Nat) (v : W64) : (s.writeS k w r v).mem = s.mem := rfl
@[simp] theorem State.writeS_cores (k w r : Nat) (v : W64) : (s.writeS k w r v).cores = s.cores := rfl
@[simp] theorem State.writeS_ctxs (k w r : Nat) (v : W64) : (s.writeS k w r v).ctxs = s.ctxs := rfl
@[simp] theorem State.writeS_fns (k w r : Nat) (v : W64) : (s.writeS k w r v).fns = s.fns := rfl
@[simp] theorem State.writeS_launches (k w r : Nat) (v : W64) : (s.writeS k w r v).launches = s.launches := rfl
@[simp] theorem State.writeS_worlds (k w r : Nat) (v : W64) : (s.writeS k w r v).worlds = s.worlds := rfl
@[simp] theorem State.writeS_ops (k w r : Nat) (v : W64) : (s.writeS k w r v).ops = s.ops := rfl
@[simp] theorem State.writeS_nextOp (k w r : Nat) (v : W64) : (s.writeS k w r v).nextOp = s.nextOp := rfl
@[simp] theorem State.writeS_l2 (k w r : Nat) (v : W64) : (s.writeS k w r v).l2 = s.l2 := rfl
@[simp] theorem State.writeS_floors (k w r : Nat) (v : W64) : (s.writeS k w r v).floors = s.floors := rfl
@[simp] theorem State.writeS_hostW (k w r : Nat) (v : W64) : (s.writeS k w r v).hostW = s.hostW := rfl
@[simp] theorem State.writeS_rdc (k w r : Nat) (v : W64) : (s.writeS k w r v).rdc = s.rdc := rfl
@[simp] theorem State.writeS_dieTlb (k w r : Nat) (v : W64) : (s.writeS k w r v).dieTlb = s.dieTlb := rfl
@[simp] theorem State.writeS_rounds (k w r : Nat) (v : W64) : (s.writeS k w r v).rounds = s.rounds := rfl
@[simp] theorem State.writeS_ageNext (k w r : Nat) (v : W64) : (s.writeS k w r v).ageNext = s.ageNext := rfl
@[simp] theorem State.writeS_seqNext (k w r : Nat) (v : W64) : (s.writeS k w r v).seqNext = s.seqNext := rfl
@[simp] theorem State.writeS_bins (k w r : Nat) (v : W64) : (s.writeS k w r v).bins = s.bins := rfl
@[simp] theorem State.writeS_batches (k w r : Nat) (v : W64) : (s.writeS k w r v).batches = s.batches := rfl
@[simp] theorem State.writeS_mboxAt (k w r : Nat) (v : W64) : (s.writeS k w r v).mboxAt = s.mboxAt := rfl
@[simp] theorem State.writeS_reported (k w r : Nat) (v : W64) : (s.writeS k w r v).reported = s.reported := rfl
@[simp] theorem State.writeS_dclk (k w r : Nat) (v : W64) : (s.writeS k w r v).dclk = s.dclk := rfl
@[simp] theorem State.writeS_modnum (k w r : Nat) (v : W64) : (s.writeS k w r v).modnum = s.modnum := rfl
@[simp] theorem State.writeS_hqBase (k w r : Nat) (v : W64) : (s.writeS k w r v).hqBase = s.hqBase := rfl
@[simp] theorem State.writeS_hqLog2 (k w r : Nat) (v : W64) : (s.writeS k w r v).hqLog2 = s.hqLog2 := rfl
@[simp] theorem State.writeS_hqTail (k w r : Nat) (v : W64) : (s.writeS k w r v).hqTail = s.hqTail := rfl
@[simp] theorem State.writeS_hqHead (k w r : Nat) (v : W64) : (s.writeS k w r v).hqHead = s.hqHead := rfl
@[simp] theorem State.writeS_hqReply (k w r : Nat) (v : W64) : (s.writeS k w r v).hqReply = s.hqReply := rfl
@[simp] theorem State.writeS_hqOut (k w r : Nat) (v : W64) : (s.writeS k w r v).hqOut = s.hqOut := rfl
@[simp] theorem State.writeS_fw (k w r : Nat) (v : W64) : (s.writeS k w r v).fw = s.fw := rfl
@[simp] theorem State.writeS_spares (k w r : Nat) (v : W64) : (s.writeS k w r v).spares = s.spares := rfl
@[simp] theorem State.writeS_rows (k w r : Nat) (v : W64) : (s.writeS k w r v).rows = s.rows := rfl
@[simp] theorem State.writeS_channels (k w r : Nat) (v : W64) : (s.writeS k w r v).channels = s.channels := rfl
@[simp] theorem State.writeS_lanes (k w r : Nat) (v : W64) : (s.writeS k w r v).lanes = s.lanes := rfl
@[simp] theorem State.writeS_absent (k w r : Nat) (v : W64) : (s.writeS k w r v).absent = s.absent := rfl
@[simp] theorem State.writeS_routes (k w r : Nat) (v : W64) : (s.writeS k w r v).routes = s.routes := rfl
@[simp] theorem State.writeS_doe (k w r : Nat) (v : W64) : (s.writeS k w r v).doe = s.doe := rfl
@[simp] theorem State.writeS_hostRead (k w r : Nat) (v : W64) : (s.writeS k w r v).hostRead = s.hostRead := rfl
@[simp] theorem State.writeS_free (k w r : Nat) (v : W64) : (s.writeS k w r v).free = s.free := rfl
@[simp] theorem State.writeS_agenda (k w r : Nat) (v : W64) : (s.writeS k w r v).agenda = s.agenda := rfl
@[simp] theorem State.writeS_lost (k w r : Nat) (v : W64) : (s.writeS k w r v).lost = s.lost := rfl
@[simp] theorem State.writeS_descs (k w r : Nat) (v : W64) : (s.writeS k w r v).descs = s.descs := rfl
@[simp] theorem State.writeS_cur (k w r : Nat) (v : W64) : (s.writeS k w r v).cur = s.cur := rfl
@[simp] theorem State.writeS_core_at (k w r : Nat) (v : W64) (j : Nat) : (s.writeS k w r v).core j = s.core j := rfl
@[simp] theorem State.writeS_ctx_at (k w r : Nat) (v : W64) (j : Nat) : (s.writeS k w r v).ctx j = s.ctx j := rfl
@[simp] theorem State.writeS_fn_at (k w r : Nat) (v : W64) (j : Nat) : (s.writeS k w r v).fn j = s.fn j := rfl
@[simp] theorem State.writeS_byte_at (k w r : Nat) (v : W64) (j : Nat) : (s.writeS k w r v).byte j = s.byte j := rfl

/-! ## `State.writeP` -/

@[simp] theorem State.writeP_mem (k w l p : Nat) (b : Bool) : (s.writeP k w l p b).mem = s.mem := rfl
@[simp] theorem State.writeP_cores (k w l p : Nat) (b : Bool) : (s.writeP k w l p b).cores = s.cores := rfl
@[simp] theorem State.writeP_ctxs (k w l p : Nat) (b : Bool) : (s.writeP k w l p b).ctxs = s.ctxs := rfl
@[simp] theorem State.writeP_fns (k w l p : Nat) (b : Bool) : (s.writeP k w l p b).fns = s.fns := rfl
@[simp] theorem State.writeP_launches (k w l p : Nat) (b : Bool) : (s.writeP k w l p b).launches = s.launches := rfl
@[simp] theorem State.writeP_worlds (k w l p : Nat) (b : Bool) : (s.writeP k w l p b).worlds = s.worlds := rfl
@[simp] theorem State.writeP_ops (k w l p : Nat) (b : Bool) : (s.writeP k w l p b).ops = s.ops := rfl
@[simp] theorem State.writeP_nextOp (k w l p : Nat) (b : Bool) : (s.writeP k w l p b).nextOp = s.nextOp := rfl
@[simp] theorem State.writeP_l2 (k w l p : Nat) (b : Bool) : (s.writeP k w l p b).l2 = s.l2 := rfl
@[simp] theorem State.writeP_floors (k w l p : Nat) (b : Bool) : (s.writeP k w l p b).floors = s.floors := rfl
@[simp] theorem State.writeP_hostW (k w l p : Nat) (b : Bool) : (s.writeP k w l p b).hostW = s.hostW := rfl
@[simp] theorem State.writeP_rdc (k w l p : Nat) (b : Bool) : (s.writeP k w l p b).rdc = s.rdc := rfl
@[simp] theorem State.writeP_dieTlb (k w l p : Nat) (b : Bool) : (s.writeP k w l p b).dieTlb = s.dieTlb := rfl
@[simp] theorem State.writeP_rounds (k w l p : Nat) (b : Bool) : (s.writeP k w l p b).rounds = s.rounds := rfl
@[simp] theorem State.writeP_ageNext (k w l p : Nat) (b : Bool) : (s.writeP k w l p b).ageNext = s.ageNext := rfl
@[simp] theorem State.writeP_seqNext (k w l p : Nat) (b : Bool) : (s.writeP k w l p b).seqNext = s.seqNext := rfl
@[simp] theorem State.writeP_bins (k w l p : Nat) (b : Bool) : (s.writeP k w l p b).bins = s.bins := rfl
@[simp] theorem State.writeP_batches (k w l p : Nat) (b : Bool) : (s.writeP k w l p b).batches = s.batches := rfl
@[simp] theorem State.writeP_mboxAt (k w l p : Nat) (b : Bool) : (s.writeP k w l p b).mboxAt = s.mboxAt := rfl
@[simp] theorem State.writeP_reported (k w l p : Nat) (b : Bool) : (s.writeP k w l p b).reported = s.reported := rfl
@[simp] theorem State.writeP_dclk (k w l p : Nat) (b : Bool) : (s.writeP k w l p b).dclk = s.dclk := rfl
@[simp] theorem State.writeP_modnum (k w l p : Nat) (b : Bool) : (s.writeP k w l p b).modnum = s.modnum := rfl
@[simp] theorem State.writeP_hqBase (k w l p : Nat) (b : Bool) : (s.writeP k w l p b).hqBase = s.hqBase := rfl
@[simp] theorem State.writeP_hqLog2 (k w l p : Nat) (b : Bool) : (s.writeP k w l p b).hqLog2 = s.hqLog2 := rfl
@[simp] theorem State.writeP_hqTail (k w l p : Nat) (b : Bool) : (s.writeP k w l p b).hqTail = s.hqTail := rfl
@[simp] theorem State.writeP_hqHead (k w l p : Nat) (b : Bool) : (s.writeP k w l p b).hqHead = s.hqHead := rfl
@[simp] theorem State.writeP_hqReply (k w l p : Nat) (b : Bool) : (s.writeP k w l p b).hqReply = s.hqReply := rfl
@[simp] theorem State.writeP_hqOut (k w l p : Nat) (b : Bool) : (s.writeP k w l p b).hqOut = s.hqOut := rfl
@[simp] theorem State.writeP_fw (k w l p : Nat) (b : Bool) : (s.writeP k w l p b).fw = s.fw := rfl
@[simp] theorem State.writeP_spares (k w l p : Nat) (b : Bool) : (s.writeP k w l p b).spares = s.spares := rfl
@[simp] theorem State.writeP_rows (k w l p : Nat) (b : Bool) : (s.writeP k w l p b).rows = s.rows := rfl
@[simp] theorem State.writeP_channels (k w l p : Nat) (b : Bool) : (s.writeP k w l p b).channels = s.channels := rfl
@[simp] theorem State.writeP_lanes (k w l p : Nat) (b : Bool) : (s.writeP k w l p b).lanes = s.lanes := rfl
@[simp] theorem State.writeP_absent (k w l p : Nat) (b : Bool) : (s.writeP k w l p b).absent = s.absent := rfl
@[simp] theorem State.writeP_routes (k w l p : Nat) (b : Bool) : (s.writeP k w l p b).routes = s.routes := rfl
@[simp] theorem State.writeP_doe (k w l p : Nat) (b : Bool) : (s.writeP k w l p b).doe = s.doe := rfl
@[simp] theorem State.writeP_hostRead (k w l p : Nat) (b : Bool) : (s.writeP k w l p b).hostRead = s.hostRead := rfl
@[simp] theorem State.writeP_free (k w l p : Nat) (b : Bool) : (s.writeP k w l p b).free = s.free := rfl
@[simp] theorem State.writeP_agenda (k w l p : Nat) (b : Bool) : (s.writeP k w l p b).agenda = s.agenda := rfl
@[simp] theorem State.writeP_lost (k w l p : Nat) (b : Bool) : (s.writeP k w l p b).lost = s.lost := rfl
@[simp] theorem State.writeP_descs (k w l p : Nat) (b : Bool) : (s.writeP k w l p b).descs = s.descs := rfl
@[simp] theorem State.writeP_cur (k w l p : Nat) (b : Bool) : (s.writeP k w l p b).cur = s.cur := rfl
@[simp] theorem State.writeP_core_at (k w l p : Nat) (b : Bool) (j : Nat) : (s.writeP k w l p b).core j = s.core j := rfl
@[simp] theorem State.writeP_ctx_at (k w l p : Nat) (b : Bool) (j : Nat) : (s.writeP k w l p b).ctx j = s.ctx j := rfl
@[simp] theorem State.writeP_fn_at (k w l p : Nat) (b : Bool) (j : Nat) : (s.writeP k w l p b).fn j = s.fn j := rfl
@[simp] theorem State.writeP_byte_at (k w l p : Nat) (b : Bool) (j : Nat) : (s.writeP k w l p b).byte j = s.byte j := rfl

/-! ## `State.raiseFlags` -/

@[simp] theorem State.raiseFlags_mem (k w : Nat) (x : BitVec 5) : (s.raiseFlags k w x).mem = s.mem := rfl
@[simp] theorem State.raiseFlags_cores (k w : Nat) (x : BitVec 5) : (s.raiseFlags k w x).cores = s.cores := rfl
@[simp] theorem State.raiseFlags_ctxs (k w : Nat) (x : BitVec 5) : (s.raiseFlags k w x).ctxs = s.ctxs := rfl
@[simp] theorem State.raiseFlags_fns (k w : Nat) (x : BitVec 5) : (s.raiseFlags k w x).fns = s.fns := rfl
@[simp] theorem State.raiseFlags_launches (k w : Nat) (x : BitVec 5) : (s.raiseFlags k w x).launches = s.launches := rfl
@[simp] theorem State.raiseFlags_worlds (k w : Nat) (x : BitVec 5) : (s.raiseFlags k w x).worlds = s.worlds := rfl
@[simp] theorem State.raiseFlags_ops (k w : Nat) (x : BitVec 5) : (s.raiseFlags k w x).ops = s.ops := rfl
@[simp] theorem State.raiseFlags_nextOp (k w : Nat) (x : BitVec 5) : (s.raiseFlags k w x).nextOp = s.nextOp := rfl
@[simp] theorem State.raiseFlags_l2 (k w : Nat) (x : BitVec 5) : (s.raiseFlags k w x).l2 = s.l2 := rfl
@[simp] theorem State.raiseFlags_floors (k w : Nat) (x : BitVec 5) : (s.raiseFlags k w x).floors = s.floors := rfl
@[simp] theorem State.raiseFlags_hostW (k w : Nat) (x : BitVec 5) : (s.raiseFlags k w x).hostW = s.hostW := rfl
@[simp] theorem State.raiseFlags_rdc (k w : Nat) (x : BitVec 5) : (s.raiseFlags k w x).rdc = s.rdc := rfl
@[simp] theorem State.raiseFlags_dieTlb (k w : Nat) (x : BitVec 5) : (s.raiseFlags k w x).dieTlb = s.dieTlb := rfl
@[simp] theorem State.raiseFlags_rounds (k w : Nat) (x : BitVec 5) : (s.raiseFlags k w x).rounds = s.rounds := rfl
@[simp] theorem State.raiseFlags_ageNext (k w : Nat) (x : BitVec 5) : (s.raiseFlags k w x).ageNext = s.ageNext := rfl
@[simp] theorem State.raiseFlags_seqNext (k w : Nat) (x : BitVec 5) : (s.raiseFlags k w x).seqNext = s.seqNext := rfl
@[simp] theorem State.raiseFlags_bins (k w : Nat) (x : BitVec 5) : (s.raiseFlags k w x).bins = s.bins := rfl
@[simp] theorem State.raiseFlags_batches (k w : Nat) (x : BitVec 5) : (s.raiseFlags k w x).batches = s.batches := rfl
@[simp] theorem State.raiseFlags_mboxAt (k w : Nat) (x : BitVec 5) : (s.raiseFlags k w x).mboxAt = s.mboxAt := rfl
@[simp] theorem State.raiseFlags_reported (k w : Nat) (x : BitVec 5) : (s.raiseFlags k w x).reported = s.reported := rfl
@[simp] theorem State.raiseFlags_dclk (k w : Nat) (x : BitVec 5) : (s.raiseFlags k w x).dclk = s.dclk := rfl
@[simp] theorem State.raiseFlags_modnum (k w : Nat) (x : BitVec 5) : (s.raiseFlags k w x).modnum = s.modnum := rfl
@[simp] theorem State.raiseFlags_hqBase (k w : Nat) (x : BitVec 5) : (s.raiseFlags k w x).hqBase = s.hqBase := rfl
@[simp] theorem State.raiseFlags_hqLog2 (k w : Nat) (x : BitVec 5) : (s.raiseFlags k w x).hqLog2 = s.hqLog2 := rfl
@[simp] theorem State.raiseFlags_hqTail (k w : Nat) (x : BitVec 5) : (s.raiseFlags k w x).hqTail = s.hqTail := rfl
@[simp] theorem State.raiseFlags_hqHead (k w : Nat) (x : BitVec 5) : (s.raiseFlags k w x).hqHead = s.hqHead := rfl
@[simp] theorem State.raiseFlags_hqReply (k w : Nat) (x : BitVec 5) : (s.raiseFlags k w x).hqReply = s.hqReply := rfl
@[simp] theorem State.raiseFlags_hqOut (k w : Nat) (x : BitVec 5) : (s.raiseFlags k w x).hqOut = s.hqOut := rfl
@[simp] theorem State.raiseFlags_fw (k w : Nat) (x : BitVec 5) : (s.raiseFlags k w x).fw = s.fw := rfl
@[simp] theorem State.raiseFlags_spares (k w : Nat) (x : BitVec 5) : (s.raiseFlags k w x).spares = s.spares := rfl
@[simp] theorem State.raiseFlags_rows (k w : Nat) (x : BitVec 5) : (s.raiseFlags k w x).rows = s.rows := rfl
@[simp] theorem State.raiseFlags_channels (k w : Nat) (x : BitVec 5) : (s.raiseFlags k w x).channels = s.channels := rfl
@[simp] theorem State.raiseFlags_lanes (k w : Nat) (x : BitVec 5) : (s.raiseFlags k w x).lanes = s.lanes := rfl
@[simp] theorem State.raiseFlags_absent (k w : Nat) (x : BitVec 5) : (s.raiseFlags k w x).absent = s.absent := rfl
@[simp] theorem State.raiseFlags_routes (k w : Nat) (x : BitVec 5) : (s.raiseFlags k w x).routes = s.routes := rfl
@[simp] theorem State.raiseFlags_doe (k w : Nat) (x : BitVec 5) : (s.raiseFlags k w x).doe = s.doe := rfl
@[simp] theorem State.raiseFlags_hostRead (k w : Nat) (x : BitVec 5) : (s.raiseFlags k w x).hostRead = s.hostRead := rfl
@[simp] theorem State.raiseFlags_free (k w : Nat) (x : BitVec 5) : (s.raiseFlags k w x).free = s.free := rfl
@[simp] theorem State.raiseFlags_agenda (k w : Nat) (x : BitVec 5) : (s.raiseFlags k w x).agenda = s.agenda := rfl
@[simp] theorem State.raiseFlags_lost (k w : Nat) (x : BitVec 5) : (s.raiseFlags k w x).lost = s.lost := rfl
@[simp] theorem State.raiseFlags_descs (k w : Nat) (x : BitVec 5) : (s.raiseFlags k w x).descs = s.descs := rfl
@[simp] theorem State.raiseFlags_cur (k w : Nat) (x : BitVec 5) : (s.raiseFlags k w x).cur = s.cur := rfl
@[simp] theorem State.raiseFlags_core_at (k w : Nat) (x : BitVec 5) (j : Nat) : (s.raiseFlags k w x).core j = s.core j := rfl
@[simp] theorem State.raiseFlags_ctx_at (k w : Nat) (x : BitVec 5) (j : Nat) : (s.raiseFlags k w x).ctx j = s.ctx j := rfl
@[simp] theorem State.raiseFlags_fn_at (k w : Nat) (x : BitVec 5) (j : Nat) : (s.raiseFlags k w x).fn j = s.fn j := rfl
@[simp] theorem State.raiseFlags_byte_at (k w : Nat) (x : BitVec 5) (j : Nat) : (s.raiseFlags k w x).byte j = s.byte j := rfl

/-! ## `State.raiseView` -/

@[simp] theorem State.raiseView_mem (k w v : Nat) : (s.raiseView k w v).mem = s.mem := rfl
@[simp] theorem State.raiseView_cores (k w v : Nat) : (s.raiseView k w v).cores = s.cores := rfl
@[simp] theorem State.raiseView_ctxs (k w v : Nat) : (s.raiseView k w v).ctxs = s.ctxs := rfl
@[simp] theorem State.raiseView_fns (k w v : Nat) : (s.raiseView k w v).fns = s.fns := rfl
@[simp] theorem State.raiseView_launches (k w v : Nat) : (s.raiseView k w v).launches = s.launches := rfl
@[simp] theorem State.raiseView_worlds (k w v : Nat) : (s.raiseView k w v).worlds = s.worlds := rfl
@[simp] theorem State.raiseView_ops (k w v : Nat) : (s.raiseView k w v).ops = s.ops := rfl
@[simp] theorem State.raiseView_nextOp (k w v : Nat) : (s.raiseView k w v).nextOp = s.nextOp := rfl
@[simp] theorem State.raiseView_l2 (k w v : Nat) : (s.raiseView k w v).l2 = s.l2 := rfl
@[simp] theorem State.raiseView_floors (k w v : Nat) : (s.raiseView k w v).floors = s.floors := rfl
@[simp] theorem State.raiseView_hostW (k w v : Nat) : (s.raiseView k w v).hostW = s.hostW := rfl
@[simp] theorem State.raiseView_rdc (k w v : Nat) : (s.raiseView k w v).rdc = s.rdc := rfl
@[simp] theorem State.raiseView_dieTlb (k w v : Nat) : (s.raiseView k w v).dieTlb = s.dieTlb := rfl
@[simp] theorem State.raiseView_rounds (k w v : Nat) : (s.raiseView k w v).rounds = s.rounds := rfl
@[simp] theorem State.raiseView_ageNext (k w v : Nat) : (s.raiseView k w v).ageNext = s.ageNext := rfl
@[simp] theorem State.raiseView_seqNext (k w v : Nat) : (s.raiseView k w v).seqNext = s.seqNext := rfl
@[simp] theorem State.raiseView_bins (k w v : Nat) : (s.raiseView k w v).bins = s.bins := rfl
@[simp] theorem State.raiseView_batches (k w v : Nat) : (s.raiseView k w v).batches = s.batches := rfl
@[simp] theorem State.raiseView_mboxAt (k w v : Nat) : (s.raiseView k w v).mboxAt = s.mboxAt := rfl
@[simp] theorem State.raiseView_reported (k w v : Nat) : (s.raiseView k w v).reported = s.reported := rfl
@[simp] theorem State.raiseView_dclk (k w v : Nat) : (s.raiseView k w v).dclk = s.dclk := rfl
@[simp] theorem State.raiseView_modnum (k w v : Nat) : (s.raiseView k w v).modnum = s.modnum := rfl
@[simp] theorem State.raiseView_hqBase (k w v : Nat) : (s.raiseView k w v).hqBase = s.hqBase := rfl
@[simp] theorem State.raiseView_hqLog2 (k w v : Nat) : (s.raiseView k w v).hqLog2 = s.hqLog2 := rfl
@[simp] theorem State.raiseView_hqTail (k w v : Nat) : (s.raiseView k w v).hqTail = s.hqTail := rfl
@[simp] theorem State.raiseView_hqHead (k w v : Nat) : (s.raiseView k w v).hqHead = s.hqHead := rfl
@[simp] theorem State.raiseView_hqReply (k w v : Nat) : (s.raiseView k w v).hqReply = s.hqReply := rfl
@[simp] theorem State.raiseView_hqOut (k w v : Nat) : (s.raiseView k w v).hqOut = s.hqOut := rfl
@[simp] theorem State.raiseView_fw (k w v : Nat) : (s.raiseView k w v).fw = s.fw := rfl
@[simp] theorem State.raiseView_spares (k w v : Nat) : (s.raiseView k w v).spares = s.spares := rfl
@[simp] theorem State.raiseView_rows (k w v : Nat) : (s.raiseView k w v).rows = s.rows := rfl
@[simp] theorem State.raiseView_channels (k w v : Nat) : (s.raiseView k w v).channels = s.channels := rfl
@[simp] theorem State.raiseView_lanes (k w v : Nat) : (s.raiseView k w v).lanes = s.lanes := rfl
@[simp] theorem State.raiseView_absent (k w v : Nat) : (s.raiseView k w v).absent = s.absent := rfl
@[simp] theorem State.raiseView_routes (k w v : Nat) : (s.raiseView k w v).routes = s.routes := rfl
@[simp] theorem State.raiseView_doe (k w v : Nat) : (s.raiseView k w v).doe = s.doe := rfl
@[simp] theorem State.raiseView_hostRead (k w v : Nat) : (s.raiseView k w v).hostRead = s.hostRead := rfl
@[simp] theorem State.raiseView_free (k w v : Nat) : (s.raiseView k w v).free = s.free := rfl
@[simp] theorem State.raiseView_agenda (k w v : Nat) : (s.raiseView k w v).agenda = s.agenda := rfl
@[simp] theorem State.raiseView_lost (k w v : Nat) : (s.raiseView k w v).lost = s.lost := rfl
@[simp] theorem State.raiseView_descs (k w v : Nat) : (s.raiseView k w v).descs = s.descs := rfl
@[simp] theorem State.raiseView_cur (k w v : Nat) : (s.raiseView k w v).cur = s.cur := rfl
@[simp] theorem State.raiseView_core_at (k w v : Nat) (j : Nat) : (s.raiseView k w v).core j = s.core j := rfl
@[simp] theorem State.raiseView_ctx_at (k w v : Nat) (j : Nat) : (s.raiseView k w v).ctx j = s.ctx j := rfl
@[simp] theorem State.raiseView_fn_at (k w v : Nat) (j : Nat) : (s.raiseView k w v).fn j = s.fn j := rfl
@[simp] theorem State.raiseView_byte_at (k w v : Nat) (j : Nat) : (s.raiseView k w v).byte j = s.byte j := rfl

/-! ## `State.raiseH` -/

@[simp] theorem State.raiseH_mem (k w v : Nat) : (s.raiseH k w v).mem = s.mem := rfl
@[simp] theorem State.raiseH_cores (k w v : Nat) : (s.raiseH k w v).cores = s.cores := rfl
@[simp] theorem State.raiseH_ctxs (k w v : Nat) : (s.raiseH k w v).ctxs = s.ctxs := rfl
@[simp] theorem State.raiseH_fns (k w v : Nat) : (s.raiseH k w v).fns = s.fns := rfl
@[simp] theorem State.raiseH_launches (k w v : Nat) : (s.raiseH k w v).launches = s.launches := rfl
@[simp] theorem State.raiseH_worlds (k w v : Nat) : (s.raiseH k w v).worlds = s.worlds := rfl
@[simp] theorem State.raiseH_ops (k w v : Nat) : (s.raiseH k w v).ops = s.ops := rfl
@[simp] theorem State.raiseH_nextOp (k w v : Nat) : (s.raiseH k w v).nextOp = s.nextOp := rfl
@[simp] theorem State.raiseH_l2 (k w v : Nat) : (s.raiseH k w v).l2 = s.l2 := rfl
@[simp] theorem State.raiseH_floors (k w v : Nat) : (s.raiseH k w v).floors = s.floors := rfl
@[simp] theorem State.raiseH_hostW (k w v : Nat) : (s.raiseH k w v).hostW = s.hostW := rfl
@[simp] theorem State.raiseH_rdc (k w v : Nat) : (s.raiseH k w v).rdc = s.rdc := rfl
@[simp] theorem State.raiseH_dieTlb (k w v : Nat) : (s.raiseH k w v).dieTlb = s.dieTlb := rfl
@[simp] theorem State.raiseH_rounds (k w v : Nat) : (s.raiseH k w v).rounds = s.rounds := rfl
@[simp] theorem State.raiseH_ageNext (k w v : Nat) : (s.raiseH k w v).ageNext = s.ageNext := rfl
@[simp] theorem State.raiseH_seqNext (k w v : Nat) : (s.raiseH k w v).seqNext = s.seqNext := rfl
@[simp] theorem State.raiseH_bins (k w v : Nat) : (s.raiseH k w v).bins = s.bins := rfl
@[simp] theorem State.raiseH_batches (k w v : Nat) : (s.raiseH k w v).batches = s.batches := rfl
@[simp] theorem State.raiseH_mboxAt (k w v : Nat) : (s.raiseH k w v).mboxAt = s.mboxAt := rfl
@[simp] theorem State.raiseH_reported (k w v : Nat) : (s.raiseH k w v).reported = s.reported := rfl
@[simp] theorem State.raiseH_dclk (k w v : Nat) : (s.raiseH k w v).dclk = s.dclk := rfl
@[simp] theorem State.raiseH_modnum (k w v : Nat) : (s.raiseH k w v).modnum = s.modnum := rfl
@[simp] theorem State.raiseH_hqBase (k w v : Nat) : (s.raiseH k w v).hqBase = s.hqBase := rfl
@[simp] theorem State.raiseH_hqLog2 (k w v : Nat) : (s.raiseH k w v).hqLog2 = s.hqLog2 := rfl
@[simp] theorem State.raiseH_hqTail (k w v : Nat) : (s.raiseH k w v).hqTail = s.hqTail := rfl
@[simp] theorem State.raiseH_hqHead (k w v : Nat) : (s.raiseH k w v).hqHead = s.hqHead := rfl
@[simp] theorem State.raiseH_hqReply (k w v : Nat) : (s.raiseH k w v).hqReply = s.hqReply := rfl
@[simp] theorem State.raiseH_hqOut (k w v : Nat) : (s.raiseH k w v).hqOut = s.hqOut := rfl
@[simp] theorem State.raiseH_fw (k w v : Nat) : (s.raiseH k w v).fw = s.fw := rfl
@[simp] theorem State.raiseH_spares (k w v : Nat) : (s.raiseH k w v).spares = s.spares := rfl
@[simp] theorem State.raiseH_rows (k w v : Nat) : (s.raiseH k w v).rows = s.rows := rfl
@[simp] theorem State.raiseH_channels (k w v : Nat) : (s.raiseH k w v).channels = s.channels := rfl
@[simp] theorem State.raiseH_lanes (k w v : Nat) : (s.raiseH k w v).lanes = s.lanes := rfl
@[simp] theorem State.raiseH_absent (k w v : Nat) : (s.raiseH k w v).absent = s.absent := rfl
@[simp] theorem State.raiseH_routes (k w v : Nat) : (s.raiseH k w v).routes = s.routes := rfl
@[simp] theorem State.raiseH_doe (k w v : Nat) : (s.raiseH k w v).doe = s.doe := rfl
@[simp] theorem State.raiseH_hostRead (k w v : Nat) : (s.raiseH k w v).hostRead = s.hostRead := rfl
@[simp] theorem State.raiseH_free (k w v : Nat) : (s.raiseH k w v).free = s.free := rfl
@[simp] theorem State.raiseH_agenda (k w v : Nat) : (s.raiseH k w v).agenda = s.agenda := rfl
@[simp] theorem State.raiseH_lost (k w v : Nat) : (s.raiseH k w v).lost = s.lost := rfl
@[simp] theorem State.raiseH_descs (k w v : Nat) : (s.raiseH k w v).descs = s.descs := rfl
@[simp] theorem State.raiseH_cur (k w v : Nat) : (s.raiseH k w v).cur = s.cur := rfl
@[simp] theorem State.raiseH_core_at (k w v : Nat) (j : Nat) : (s.raiseH k w v).core j = s.core j := rfl
@[simp] theorem State.raiseH_ctx_at (k w v : Nat) (j : Nat) : (s.raiseH k w v).ctx j = s.ctx j := rfl
@[simp] theorem State.raiseH_fn_at (k w v : Nat) (j : Nat) : (s.raiseH k w v).fn j = s.fn j := rfl
@[simp] theorem State.raiseH_byte_at (k w v : Nat) (j : Nat) : (s.raiseH k w v).byte j = s.byte j := rfl

/-! ## `State.markRegs` -/

@[simp] theorem State.markRegs_mem (k w : Nat) (x : List Poison) : (s.markRegs k w x).mem = s.mem := rfl
@[simp] theorem State.markRegs_cores (k w : Nat) (x : List Poison) : (s.markRegs k w x).cores = s.cores := rfl
@[simp] theorem State.markRegs_ctxs (k w : Nat) (x : List Poison) : (s.markRegs k w x).ctxs = s.ctxs := rfl
@[simp] theorem State.markRegs_fns (k w : Nat) (x : List Poison) : (s.markRegs k w x).fns = s.fns := rfl
@[simp] theorem State.markRegs_launches (k w : Nat) (x : List Poison) : (s.markRegs k w x).launches = s.launches := rfl
@[simp] theorem State.markRegs_worlds (k w : Nat) (x : List Poison) : (s.markRegs k w x).worlds = s.worlds := rfl
@[simp] theorem State.markRegs_ops (k w : Nat) (x : List Poison) : (s.markRegs k w x).ops = s.ops := rfl
@[simp] theorem State.markRegs_nextOp (k w : Nat) (x : List Poison) : (s.markRegs k w x).nextOp = s.nextOp := rfl
@[simp] theorem State.markRegs_l2 (k w : Nat) (x : List Poison) : (s.markRegs k w x).l2 = s.l2 := rfl
@[simp] theorem State.markRegs_floors (k w : Nat) (x : List Poison) : (s.markRegs k w x).floors = s.floors := rfl
@[simp] theorem State.markRegs_hostW (k w : Nat) (x : List Poison) : (s.markRegs k w x).hostW = s.hostW := rfl
@[simp] theorem State.markRegs_rdc (k w : Nat) (x : List Poison) : (s.markRegs k w x).rdc = s.rdc := rfl
@[simp] theorem State.markRegs_dieTlb (k w : Nat) (x : List Poison) : (s.markRegs k w x).dieTlb = s.dieTlb := rfl
@[simp] theorem State.markRegs_rounds (k w : Nat) (x : List Poison) : (s.markRegs k w x).rounds = s.rounds := rfl
@[simp] theorem State.markRegs_ageNext (k w : Nat) (x : List Poison) : (s.markRegs k w x).ageNext = s.ageNext := rfl
@[simp] theorem State.markRegs_seqNext (k w : Nat) (x : List Poison) : (s.markRegs k w x).seqNext = s.seqNext := rfl
@[simp] theorem State.markRegs_bins (k w : Nat) (x : List Poison) : (s.markRegs k w x).bins = s.bins := rfl
@[simp] theorem State.markRegs_batches (k w : Nat) (x : List Poison) : (s.markRegs k w x).batches = s.batches := rfl
@[simp] theorem State.markRegs_mboxAt (k w : Nat) (x : List Poison) : (s.markRegs k w x).mboxAt = s.mboxAt := rfl
@[simp] theorem State.markRegs_reported (k w : Nat) (x : List Poison) : (s.markRegs k w x).reported = s.reported := rfl
@[simp] theorem State.markRegs_dclk (k w : Nat) (x : List Poison) : (s.markRegs k w x).dclk = s.dclk := rfl
@[simp] theorem State.markRegs_modnum (k w : Nat) (x : List Poison) : (s.markRegs k w x).modnum = s.modnum := rfl
@[simp] theorem State.markRegs_hqBase (k w : Nat) (x : List Poison) : (s.markRegs k w x).hqBase = s.hqBase := rfl
@[simp] theorem State.markRegs_hqLog2 (k w : Nat) (x : List Poison) : (s.markRegs k w x).hqLog2 = s.hqLog2 := rfl
@[simp] theorem State.markRegs_hqTail (k w : Nat) (x : List Poison) : (s.markRegs k w x).hqTail = s.hqTail := rfl
@[simp] theorem State.markRegs_hqHead (k w : Nat) (x : List Poison) : (s.markRegs k w x).hqHead = s.hqHead := rfl
@[simp] theorem State.markRegs_hqReply (k w : Nat) (x : List Poison) : (s.markRegs k w x).hqReply = s.hqReply := rfl
@[simp] theorem State.markRegs_hqOut (k w : Nat) (x : List Poison) : (s.markRegs k w x).hqOut = s.hqOut := rfl
@[simp] theorem State.markRegs_fw (k w : Nat) (x : List Poison) : (s.markRegs k w x).fw = s.fw := rfl
@[simp] theorem State.markRegs_spares (k w : Nat) (x : List Poison) : (s.markRegs k w x).spares = s.spares := rfl
@[simp] theorem State.markRegs_rows (k w : Nat) (x : List Poison) : (s.markRegs k w x).rows = s.rows := rfl
@[simp] theorem State.markRegs_channels (k w : Nat) (x : List Poison) : (s.markRegs k w x).channels = s.channels := rfl
@[simp] theorem State.markRegs_lanes (k w : Nat) (x : List Poison) : (s.markRegs k w x).lanes = s.lanes := rfl
@[simp] theorem State.markRegs_absent (k w : Nat) (x : List Poison) : (s.markRegs k w x).absent = s.absent := rfl
@[simp] theorem State.markRegs_routes (k w : Nat) (x : List Poison) : (s.markRegs k w x).routes = s.routes := rfl
@[simp] theorem State.markRegs_doe (k w : Nat) (x : List Poison) : (s.markRegs k w x).doe = s.doe := rfl
@[simp] theorem State.markRegs_hostRead (k w : Nat) (x : List Poison) : (s.markRegs k w x).hostRead = s.hostRead := rfl
@[simp] theorem State.markRegs_free (k w : Nat) (x : List Poison) : (s.markRegs k w x).free = s.free := rfl
@[simp] theorem State.markRegs_agenda (k w : Nat) (x : List Poison) : (s.markRegs k w x).agenda = s.agenda := rfl
@[simp] theorem State.markRegs_lost (k w : Nat) (x : List Poison) : (s.markRegs k w x).lost = s.lost := rfl
@[simp] theorem State.markRegs_descs (k w : Nat) (x : List Poison) : (s.markRegs k w x).descs = s.descs := rfl
@[simp] theorem State.markRegs_cur (k w : Nat) (x : List Poison) : (s.markRegs k w x).cur = s.cur := rfl
@[simp] theorem State.markRegs_core_at (k w : Nat) (x : List Poison) (j : Nat) : (s.markRegs k w x).core j = s.core j := rfl
@[simp] theorem State.markRegs_ctx_at (k w : Nat) (x : List Poison) (j : Nat) : (s.markRegs k w x).ctx j = s.ctx j := rfl
@[simp] theorem State.markRegs_fn_at (k w : Nat) (x : List Poison) (j : Nat) : (s.markRegs k w x).fn j = s.fn j := rfl
@[simp] theorem State.markRegs_byte_at (k w : Nat) (x : List Poison) (j : Nat) : (s.markRegs k w x).byte j = s.byte j := rfl

/-! ## `State.setByte` -/

@[simp] theorem State.setByte_cores (a : Nat) (b : Byte) : (s.setByte a b).cores = s.cores := rfl
@[simp] theorem State.setByte_cohorts (a : Nat) (b : Byte) : (s.setByte a b).cohorts = s.cohorts := rfl
@[simp] theorem State.setByte_ctxs (a : Nat) (b : Byte) : (s.setByte a b).ctxs = s.ctxs := rfl
@[simp] theorem State.setByte_fns (a : Nat) (b : Byte) : (s.setByte a b).fns = s.fns := rfl
@[simp] theorem State.setByte_launches (a : Nat) (b : Byte) : (s.setByte a b).launches = s.launches := rfl
@[simp] theorem State.setByte_worlds (a : Nat) (b : Byte) : (s.setByte a b).worlds = s.worlds := rfl
@[simp] theorem State.setByte_ops (a : Nat) (b : Byte) : (s.setByte a b).ops = s.ops := rfl
@[simp] theorem State.setByte_nextOp (a : Nat) (b : Byte) : (s.setByte a b).nextOp = s.nextOp := rfl
@[simp] theorem State.setByte_l2 (a : Nat) (b : Byte) : (s.setByte a b).l2 = s.l2 := rfl
@[simp] theorem State.setByte_floors (a : Nat) (b : Byte) : (s.setByte a b).floors = s.floors := rfl
@[simp] theorem State.setByte_hostW (a : Nat) (b : Byte) : (s.setByte a b).hostW = s.hostW := rfl
@[simp] theorem State.setByte_rdc (a : Nat) (b : Byte) : (s.setByte a b).rdc = s.rdc := rfl
@[simp] theorem State.setByte_dieTlb (a : Nat) (b : Byte) : (s.setByte a b).dieTlb = s.dieTlb := rfl
@[simp] theorem State.setByte_rounds (a : Nat) (b : Byte) : (s.setByte a b).rounds = s.rounds := rfl
@[simp] theorem State.setByte_ageNext (a : Nat) (b : Byte) : (s.setByte a b).ageNext = s.ageNext := rfl
@[simp] theorem State.setByte_seqNext (a : Nat) (b : Byte) : (s.setByte a b).seqNext = s.seqNext := rfl
@[simp] theorem State.setByte_bins (a : Nat) (b : Byte) : (s.setByte a b).bins = s.bins := rfl
@[simp] theorem State.setByte_batches (a : Nat) (b : Byte) : (s.setByte a b).batches = s.batches := rfl
@[simp] theorem State.setByte_mboxAt (a : Nat) (b : Byte) : (s.setByte a b).mboxAt = s.mboxAt := rfl
@[simp] theorem State.setByte_reported (a : Nat) (b : Byte) : (s.setByte a b).reported = s.reported := rfl
@[simp] theorem State.setByte_dclk (a : Nat) (b : Byte) : (s.setByte a b).dclk = s.dclk := rfl
@[simp] theorem State.setByte_modnum (a : Nat) (b : Byte) : (s.setByte a b).modnum = s.modnum := rfl
@[simp] theorem State.setByte_hqBase (a : Nat) (b : Byte) : (s.setByte a b).hqBase = s.hqBase := rfl
@[simp] theorem State.setByte_hqLog2 (a : Nat) (b : Byte) : (s.setByte a b).hqLog2 = s.hqLog2 := rfl
@[simp] theorem State.setByte_hqTail (a : Nat) (b : Byte) : (s.setByte a b).hqTail = s.hqTail := rfl
@[simp] theorem State.setByte_hqHead (a : Nat) (b : Byte) : (s.setByte a b).hqHead = s.hqHead := rfl
@[simp] theorem State.setByte_hqReply (a : Nat) (b : Byte) : (s.setByte a b).hqReply = s.hqReply := rfl
@[simp] theorem State.setByte_hqOut (a : Nat) (b : Byte) : (s.setByte a b).hqOut = s.hqOut := rfl
@[simp] theorem State.setByte_fw (a : Nat) (b : Byte) : (s.setByte a b).fw = s.fw := rfl
@[simp] theorem State.setByte_spares (a : Nat) (b : Byte) : (s.setByte a b).spares = s.spares := rfl
@[simp] theorem State.setByte_rows (a : Nat) (b : Byte) : (s.setByte a b).rows = s.rows := rfl
@[simp] theorem State.setByte_channels (a : Nat) (b : Byte) : (s.setByte a b).channels = s.channels := rfl
@[simp] theorem State.setByte_lanes (a : Nat) (b : Byte) : (s.setByte a b).lanes = s.lanes := rfl
@[simp] theorem State.setByte_absent (a : Nat) (b : Byte) : (s.setByte a b).absent = s.absent := rfl
@[simp] theorem State.setByte_routes (a : Nat) (b : Byte) : (s.setByte a b).routes = s.routes := rfl
@[simp] theorem State.setByte_doe (a : Nat) (b : Byte) : (s.setByte a b).doe = s.doe := rfl
@[simp] theorem State.setByte_hostRead (a : Nat) (b : Byte) : (s.setByte a b).hostRead = s.hostRead := rfl
@[simp] theorem State.setByte_free (a : Nat) (b : Byte) : (s.setByte a b).free = s.free := rfl
@[simp] theorem State.setByte_agenda (a : Nat) (b : Byte) : (s.setByte a b).agenda = s.agenda := rfl
@[simp] theorem State.setByte_lost (a : Nat) (b : Byte) : (s.setByte a b).lost = s.lost := rfl
@[simp] theorem State.setByte_descs (a : Nat) (b : Byte) : (s.setByte a b).descs = s.descs := rfl
@[simp] theorem State.setByte_cur (a : Nat) (b : Byte) : (s.setByte a b).cur = s.cur := rfl
@[simp] theorem State.setByte_core_at (a : Nat) (b : Byte) (j : Nat) : (s.setByte a b).core j = s.core j := rfl
@[simp] theorem State.setByte_coh_at (a : Nat) (b : Byte) (j : Nat) : (s.setByte a b).coh j = s.coh j := rfl
@[simp] theorem State.setByte_warp_at (a : Nat) (b : Byte) (j i : Nat) : (s.setByte a b).warp j i = s.warp j i := rfl
@[simp] theorem State.setByte_thread_at (a : Nat) (b : Byte) (j i m : Nat) : (s.setByte a b).thread j i m = s.thread j i m := rfl
@[simp] theorem State.setByte_ctx_at (a : Nat) (b : Byte) (j : Nat) : (s.setByte a b).ctx j = s.ctx j := rfl
@[simp] theorem State.setByte_fn_at (a : Nat) (b : Byte) (j : Nat) : (s.setByte a b).fn j = s.fn j := rfl

end Sys2Proof.Machine
end

