-- ==== Sys2Proof/Laws/Access.lean ====
section
/-! SUPPORT. Laws of the accessors: what reading one record gives after another is changed, and read after write for
every register, predicate, scratchpad byte and byte of memory. -/

namespace Sys2Proof.Machine

variable (s : State)

/-! ## Records -/

theorem State.core_modCore (k j : Nat) (f : Core → Core) :
    (s.modCore k f).core j = if j = k ∧ (FMap.find s.cores k).isSome then f (s.core k) else s.core j := by
  simp only [State.core, State.modCore, FMap.find_modify]
  by_cases h : j = k
  · subst h; cases hf : FMap.find s.cores j <;> simp
  · simp [h]

theorem State.coh_modCoh (k j : Nat) (f : Cohort → Cohort) :
    (s.modCoh k f).coh j = if j = k ∧ (FMap.find s.cohorts k).isSome then f (s.coh k) else s.coh j := by
  simp only [State.coh, State.modCoh, FMap.find_modify]
  by_cases h : j = k
  · subst h; cases hf : FMap.find s.cohorts j <;> simp
  · simp [h]

theorem State.ctx_modCtx (k j : Nat) (f : Context → Context) :
    (s.modCtx k f).ctx j = if j = k ∧ (FMap.find s.ctxs k).isSome then f (s.ctx k) else s.ctx j := by
  simp only [State.ctx, State.modCtx, FMap.find_modify]
  by_cases h : j = k
  · subst h; cases hf : FMap.find s.ctxs j <;> simp
  · simp [h]

theorem State.fn_modFn (k j : Nat) (f : Function → Function) :
    (s.modFn k f).fn j = if j = k ∧ (FMap.find s.fns k).isSome then f (s.fn k) else s.fn j := by
  simp only [State.fn, State.modFn, FMap.find_modify]
  by_cases h : j = k
  · subst h; cases hf : FMap.find s.fns j <;> simp
  · simp [h]

/-- A change that keeps one part of every core keeps it in every core. -/
theorem State.core_modCore_proj {β : Type} (φ : Core → β) (k j : Nat) (f : Core → Core) (h : ∀ c, φ (f c) = φ c) :
    φ ((s.modCore k f).core j) = φ (s.core j) := by
  rw [State.core_modCore]; split
  · rename_i h'; rw [h, h'.1]
  · rfl

theorem State.coh_modCoh_proj {β : Type} (φ : Cohort → β) (k j : Nat) (f : Cohort → Cohort)
    (h : ∀ c, φ (f c) = φ c) : φ ((s.modCoh k f).coh j) = φ (s.coh j) := by
  rw [State.coh_modCoh]; split
  · rename_i h'; rw [h, h'.1]
  · rfl

theorem Cohort.warps_modWarp_length (c : Cohort) (w : Nat) (f : Warp → Warp) :
    (c.modWarp w f).warps.length = c.warps.length := by simp [Cohort.modWarp]

theorem State.warp_modWarp (k w j i : Nat) (f : Warp → Warp) :
    (s.modWarp k w f).warp j i =
      if j = k ∧ i = w ∧ w < (s.coh k).warps.length then f (s.warp k w) else s.warp j i := by
  simp only [State.warp, State.modWarp, State.coh_modCoh]
  by_cases hj : j = k
  · subst hj
    cases hf : FMap.find s.cohorts j with
    | none => simp [State.coh, hf]
    | some x =>
      simp only [Option.isSome_some, and_self, if_true, true_and, Cohort.warp, Cohort.modWarp, listModify_getD]
  · simp [hj]

theorem State.warp_modWarp_proj {β : Type} (φ : Warp → β) (k w j i : Nat) (f : Warp → Warp)
    (h : ∀ x, φ (f x) = φ x) : φ ((s.modWarp k w f).warp j i) = φ (s.warp j i) := by
  rw [State.warp_modWarp]; split
  · rename_i h'; rw [h, h'.1, h'.2.1]
  · rfl

theorem State.coh_modWarp_proj {β : Type} (φ : Cohort → β) (k w j : Nat) (f : Warp → Warp)
    (h : ∀ c : Cohort, φ (c.modWarp w f) = φ c) : φ ((s.modWarp k w f).coh j) = φ (s.coh j) :=
  State.coh_modCoh_proj s φ k j _ h

@[simp] theorem State.modWarp_warps_length (k w j : Nat) (f : Warp → Warp) :
    ((s.modWarp k w f).coh j).warps.length = (s.coh j).warps.length :=
  State.coh_modWarp_proj s (fun c => c.warps.length) k w j f fun c => Cohort.warps_modWarp_length c w f

@[simp] theorem State.modWarp_scratch (k w j : Nat) (f : Warp → Warp) :
    ((s.modWarp k w f).coh j).scratch = (s.coh j).scratch :=
  State.coh_modWarp_proj s Cohort.scratch k w j f fun _ => rfl

theorem State.thread_modThread (k w l j i m : Nat) (f : Thread → Thread) :
    (s.modThread k w l f).thread j i m =
      if j = k ∧ i = w ∧ m = l ∧ w < (s.coh k).warps.length ∧ l < (s.warp k w).threads.length
      then f (s.thread k w l) else s.thread j i m := by
  simp only [State.thread, State.modThread, State.warp_modWarp]
  by_cases h : j = k ∧ i = w ∧ w < (s.coh k).warps.length
  · obtain ⟨rfl, rfl, h⟩ := h
    simp only [h, and_self, if_true, true_and, Warp.thread, listModify_getD]
  · rw [if_neg h, if_neg fun h' => h ⟨h'.1, h'.2.1, h'.2.2.2.1⟩]

theorem State.thread_modThread_proj {β : Type} (φ : Thread → β) (k w l j i m : Nat) (f : Thread → Thread)
    (h : ∀ x, φ (f x) = φ x) : φ ((s.modThread k w l f).thread j i m) = φ (s.thread j i m) := by
  rw [State.thread_modThread]; split
  · rename_i h'; rw [h, h'.1, h'.2.1, h'.2.2.1]
  · rfl

/-- A change of a warp that keeps its threads keeps every thread. -/
theorem State.thread_modWarp (k w j i m : Nat) (f : Warp → Warp) (h : ∀ x, (f x).threads = x.threads) :
    (s.modWarp k w f).thread j i m = s.thread j i m :=
  congrArg (fun l : List Thread => l.getD m {})
    (State.warp_modWarp_proj s Warp.threads k w j i f h)

theorem State.warp_modThread_proj {β : Type} (φ : Warp → β) (k w l j i : Nat) (f : Thread → Thread)
    (h : ∀ (x : Warp) (ts : List Thread), φ { x with threads := ts } = φ x) :
    φ ((s.modThread k w l f).warp j i) = φ (s.warp j i) :=
  State.warp_modWarp_proj s φ k w j i _ fun x => h x _

/-! ## Registers -/

/-- A vector register after a write of a lane of one. -/
theorem Warp.readV_writeV (x : Warp) (r l : Nat) (v : W32) (r' l' : Nat) :
    (x.writeV r l v).readV r' l' =
      if r' = r ∧ l' = l ∧ r ≠ 255 ∧ l < 32 then v else x.readV r' l' := by
  simp only [Warp.writeV, Warp.readV]
  by_cases hw : r = 255 ∨ 32 ≤ l
  · rcases hw with hw | hw
    · simp [hw]
    · have : ¬ l < 32 := by omega
      simp [hw, this]
  · have h1 : r ≠ 255 := fun h => hw (.inl h)
    have h2 : ¬ 32 ≤ l := fun h => hw (.inr h)
    have h3 : l < 32 := by omega
    by_cases hr : r' = 255 ∨ 32 ≤ l'
    · rcases hr with hr | hr
      · have : ¬ r' = r := by omega
        simp [hr, this, h1, h2]
        intro h; exact absurd h.symm h1
      · have : ¬ l' = l := by omega
        simp [hr, this, h1, h2]
    · have h4 : r' ≠ 255 := fun h => hr (.inl h)
      have h5 : ¬ 32 ≤ l' := fun h => hr (.inr h)
      have h6 : vkey r' l' = vkey r l ↔ r' = r ∧ l' = l := by simp only [vkey]; omega
      simp [h1, h2, h3, h4, h5, FMap.getD_set, h6]

@[simp] theorem Warp.readS_writeS_self (x : Warp) (r : Nat) (v : W64) :
    (x.writeS r v).readS r = if r = 63 then 0 else v := by
  simp only [Warp.writeS, Warp.readS]
  split <;> simp_all

theorem Warp.readS_writeS_ne (x : Warp) {r r' : Nat} (v : W64) (h : r' ≠ r) :
    (x.writeS r v).readS r' = x.readS r' := by
  simp only [Warp.writeS, Warp.readS]
  split
  · rfl
  · split
    · rfl
    · exact FMap.getD_set_ne h 0 v x.sregs

@[simp] theorem Warp.readS_writeV (x : Warp) (r l : Nat) (v : W32) (r' : Nat) :
    (x.writeV r l v).readS r' = x.readS r' := by
  simp only [Warp.writeV]; split <;> rfl

@[simp] theorem Warp.readV_writeS (x : Warp) (r : Nat) (v : W64) (r' l' : Nat) :
    (x.writeS r v).readV r' l' = x.readV r' l' := by
  simp only [Warp.writeS]; split <;> rfl

theorem Thread.readP_writeP (t : Thread) (p q : Nat) (b : Bool) (hp : p < 8) (hq : q < 8) :
    (t.writeP p b).readP q = if q = p ∧ p ≠ 7 then b else t.readP q := by
  simp only [Thread.writeP, Thread.readP]
  by_cases h7 : p = 7
  · simp [h7]
  · have hp' : p < 7 := by omega
    by_cases hqp : q = p
    · subst hqp
      cases b <;> simp [h7, hp']
    · by_cases hq7 : q = 7
      · simp [hq7, h7]; omega
      · have hq' : q < 7 := by omega
        cases b <;> simp [h7, hqp, hq', hq7]

/-! ## Bytes -/

@[simp] theorem State.byte_setByte_self (a : Nat) (b : Byte) : (s.setByte a b).byte a = b := by
  simp [State.byte, State.setByte]

theorem State.byte_setByte_ne {a a' : Nat} (b : Byte) (h : a' ≠ a) : (s.setByte a b).byte a' = s.byte a' := by
  simp only [State.byte, State.setByte]; exact FMap.getD_set_ne h _ _ _

@[simp] theorem Cohort.readSp_writeSp_self (c : Cohort) (a : Nat) (b : Byte) : (c.writeSp a b).readSp a = b := by
  simp [Cohort.readSp, Cohort.writeSp]

theorem Cohort.readSp_writeSp_ne (c : Cohort) {a a' : Nat} (b : Byte) (h : a' ≠ a) :
    (c.writeSp a b).readSp a' = c.readSp a' := by
  simp only [Cohort.readSp, Cohort.writeSp]; exact FMap.getD_set_ne h _ _ _

end Sys2Proof.Machine
end

