-- ==== Sys2Proof/Laws/Frame.lean ====
section
/-! SUPPORT. What the issue machinery leaves alone: moving threads, ending runs, taking entries and parking change PCs,
the issue-group table and the counts behind runs, and nothing a program reads beside them. -/

namespace Sys2Proof.Laws

open Sys2Proof.Machine Sys2Proof.Safety

/-- The two states agree on all a program reads but PCs and outstanding operations. -/
structure Same (s t : State) : Prop where
  mem : t.mem = s.mem
  ctxs : t.ctxs = s.ctxs
  fns : t.fns = s.fns
  launches : t.launches = s.launches
  worlds : t.worlds = s.worlds
  vregs : ∀ k w, (t.warp k w).vregs = (s.warp k w).vregs
  sregs : ∀ k w, (t.warp k w).sregs = (s.warp k w).sregs
  tvec : ∀ k w, (t.warp k w).tvec = (s.warp k w).tvec
  trpc : ∀ k w, (t.warp k w).trpc = (s.warp k w).trpc
  tsch : ∀ k w, (t.warp k w).tsch = (s.warp k w).tsch
  trapq : ∀ k w, (t.warp k w).trapq = (s.warp k w).trapq
  handler : ∀ k w, (t.warp k w).handler = (s.warp k w).handler
  hleft : ∀ k w, (t.warp k w).hleft = (s.warp k w).hleft
  flags : ∀ k w, (t.warp k w).fpflags = (s.warp k w).fpflags
  preds : ∀ k w l, (t.thread k w l).preds = (s.thread k w l).preds
  scratch : ∀ k, (t.coh k).scratch = (s.coh k).scratch
  acc : ∀ k, (t.core k).mx = (s.core k).mx
  warps : ∀ k, (t.coh k).warps.length = (s.coh k).warps.length
  threads : ∀ k w, (t.warp k w).threads.length = (s.warp k w).threads.length
  cohCtx : ∀ k, (t.coh k).ctx = (s.coh k).ctx

theorem Same.refl (s : State) : Same s s := by constructor <;> intros <;> rfl

theorem Same.trans {s t u : State} (h : Same s t) (g : Same t u) : Same s u where
  mem := g.mem.trans h.mem
  ctxs := g.ctxs.trans h.ctxs
  fns := g.fns.trans h.fns
  launches := g.launches.trans h.launches
  worlds := g.worlds.trans h.worlds
  vregs k w := (g.vregs k w).trans (h.vregs k w)
  sregs k w := (g.sregs k w).trans (h.sregs k w)
  tvec k w := (g.tvec k w).trans (h.tvec k w)
  trpc k w := (g.trpc k w).trans (h.trpc k w)
  tsch k w := (g.tsch k w).trans (h.tsch k w)
  trapq k w := (g.trapq k w).trans (h.trapq k w)
  handler k w := (g.handler k w).trans (h.handler k w)
  hleft k w := (g.hleft k w).trans (h.hleft k w)
  flags k w := (g.flags k w).trans (h.flags k w)
  preds k w l := (g.preds k w l).trans (h.preds k w l)
  scratch k := (g.scratch k).trans (h.scratch k)
  acc k := (g.acc k).trans (h.acc k)
  warps k := (g.warps k).trans (h.warps k)
  threads k w := (g.threads k w).trans (h.threads k w)
  cohCtx k := (g.cohCtx k).trans (h.cohCtx k)

/-- A change of fields outside cores and cohorts. -/
theorem Same.of_eq {s t : State} (h1 : t.mem = s.mem) (h2 : t.ctxs = s.ctxs) (h3 : t.fns = s.fns)
    (h4 : t.launches = s.launches) (h5 : t.worlds = s.worlds) (h6 : t.cohorts = s.cohorts) (h7 : t.cores = s.cores) :
    Same s t := by
  have hc : ∀ k, t.coh k = s.coh k := fun k => by simp only [State.coh, h6]
  have hw : ∀ k w, t.warp k w = s.warp k w := fun k w => by simp only [State.warp, hc]
  constructor <;> intros <;> first | assumption | simp only [hw, hc, State.thread, State.core, h7]

theorem same_modCore (s : State) (k : Nat) (f : Core → Core) (h : ∀ c, (f c).mx = c.mx) : Same s (s.modCore k f) := by
  constructor <;> intros <;> first | rfl | exact State.core_modCore_proj s Core.mx k _ f h

theorem same_modThread (s : State) (k w l : Nat) (f : Thread → Thread) (h : ∀ x, (f x).preds = x.preds) :
    Same s (s.modThread k w l f) := by
  constructor <;> intros <;> first
    | rfl
    | exact State.thread_modThread_proj s Thread.preds k w l _ _ _ f h
    | exact State.warp_modThread_proj s _ k w l _ _ f fun _ _ => rfl
    | exact State.modWarp_warps_length s k w _ _
    | exact State.modWarp_scratch s k w _ _
    | exact State.coh_modWarp_proj s _ k w _ _ fun _ => rfl
    | exact State.warp_modWarp_proj s (fun x => x.threads.length) k w _ _ _ fun x => by simp

theorem same_modWarp (s : State) (k w : Nat) (f : Warp → Warp)
    (h : ∀ x, (f x).vregs = x.vregs ∧ (f x).sregs = x.sregs ∧ (f x).tvec = x.tvec ∧ (f x).trpc = x.trpc ∧
      (f x).tsch = x.tsch ∧ (f x).trapq = x.trapq ∧ (f x).handler = x.handler ∧ (f x).hleft = x.hleft ∧
      (f x).fpflags = x.fpflags ∧ (f x).threads = x.threads) : Same s (s.modWarp k w f) := by
  constructor <;> intros <;> first
    | rfl
    | rw [State.thread_modWarp s k w _ _ _ f fun x => (h x).2.2.2.2.2.2.2.2.2]
    | exact State.modWarp_warps_length s k w _ _
    | exact State.modWarp_scratch s k w _ _
    | exact State.coh_modWarp_proj s _ k w _ _ fun _ => rfl
    | exact State.warp_modWarp_proj s Warp.vregs k w _ _ f fun x => (h x).1
    | exact State.warp_modWarp_proj s Warp.sregs k w _ _ f fun x => (h x).2.1
    | exact State.warp_modWarp_proj s Warp.tvec k w _ _ f fun x => (h x).2.2.1
    | exact State.warp_modWarp_proj s Warp.trpc k w _ _ f fun x => (h x).2.2.2.1
    | exact State.warp_modWarp_proj s Warp.tsch k w _ _ f fun x => (h x).2.2.2.2.1
    | exact State.warp_modWarp_proj s Warp.trapq k w _ _ f fun x => (h x).2.2.2.2.2.1
    | exact State.warp_modWarp_proj s Warp.handler k w _ _ f fun x => (h x).2.2.2.2.2.2.1
    | exact State.warp_modWarp_proj s Warp.hleft k w _ _ f fun x => (h x).2.2.2.2.2.2.2.1
    | exact State.warp_modWarp_proj s Warp.fpflags k w _ _ f fun x => (h x).2.2.2.2.2.2.2.2.1
    | exact State.warp_modWarp_proj s (fun x => x.threads.length) k w _ _ f fun x => by
        simp only [(h x).2.2.2.2.2.2.2.2.2]

theorem same_modCoh (s : State) (k : Nat) (f : Cohort → Cohort)
    (h : ∀ x, (f x).warps = x.warps ∧ (f x).scratch = x.scratch ∧ (f x).ctx = x.ctx) : Same s (s.modCoh k f) := by
  have hw : ∀ j i, (s.modCoh k f).warp j i = s.warp j i := fun j i =>
    State.coh_modCoh_proj s (fun c => c.warp i) k j f fun c => by simp only [Cohort.warp, (h c).1]
  constructor <;> intros <;> first
    | rfl
    | simp only [hw, State.thread]
    | exact State.coh_modCoh_proj s Cohort.scratch k _ f fun c => (h c).2.1
    | exact State.coh_modCoh_proj s Cohort.ctx k _ f fun c => (h c).2.2
    | exact State.coh_modCoh_proj s (fun c => c.warps.length) k _ f fun c => by simp only [(h c).1]

theorem same_forEach {α : Type} (l : List α) (f : α → State → State) (h : ∀ x s, Same s (f x s)) (s : State) :
    Same s (forEach l f s) := by
  induction l generalizing s with
  | nil => exact Same.refl s
  | cons x r ih => exact (h x s).trans (ih (f x s))

/-! ## The same, from a state reached before -/

theorem Same.modCore {s t : State} (h : Same s t) {k : Nat} {f : Core → Core} (hf : ∀ c, (f c).mx = c.mx) :
    Same s (t.modCore k f) := h.trans (same_modCore t k f hf)

theorem Same.modThread {s t : State} (h : Same s t) {k w l : Nat} {f : Thread → Thread}
    (hf : ∀ x, (f x).preds = x.preds) : Same s (t.modThread k w l f) := h.trans (same_modThread t k w l f hf)

theorem Same.modWarp {s t : State} (h : Same s t) {k w : Nat} {f : Warp → Warp}
    (hf : ∀ x, (f x).vregs = x.vregs ∧ (f x).sregs = x.sregs ∧ (f x).tvec = x.tvec ∧ (f x).trpc = x.trpc ∧
      (f x).tsch = x.tsch ∧ (f x).trapq = x.trapq ∧ (f x).handler = x.handler ∧ (f x).hleft = x.hleft ∧
      (f x).fpflags = x.fpflags ∧ (f x).threads = x.threads) : Same s (t.modWarp k w f) :=
  h.trans (same_modWarp t k w f hf)

theorem Same.modCoh {s t : State} (h : Same s t) {k : Nat} {f : Cohort → Cohort}
    (hf : ∀ x, (f x).warps = x.warps ∧ (f x).scratch = x.scratch ∧ (f x).ctx = x.ctx) : Same s (t.modCoh k f) :=
  h.trans (same_modCoh t k f hf)

theorem Same.forEach {α : Type} {s t : State} (h : Same s t) {l : List α} {f : α → State → State}
    (hf : ∀ x s, Same s (f x s)) : Same s (forEach l f t) := h.trans (same_forEach l f hf t)

/-! ## The operations of the issue machinery -/

theorem same_setSt (k : Nat) (ths : List (Nat × Nat)) (st : ThSt) (s : State) : Same s (setSt k ths st s) :=
  same_forEach ths _ (fun _ s => by exact same_modThread s _ _ _ _ fun _ => rfl) s

theorem same_setPcs (k : Nat) (ths : List (Nat × Nat)) (pc : W32) (s : State) : Same s (setPcs k ths pc s) :=
  same_forEach ths _ (fun _ s => by exact same_modThread s _ _ _ _ fun _ => rfl) s

theorem same_park (core k : Nat) (ths : List (Nat × Nat)) (s : State) : Same s (park core k ths s) :=
  (same_setSt k ths .parked s).trans (by exact same_modCore _ _ _ fun _ => rfl)

theorem same_putEntry (core e : Nat) (g : Group) (s : State) : Same s (putEntry core e g s) :=
  (same_setSt g.coh g.ths .grouped s).trans (by exact same_modCore _ _ _ fun _ => rfl)

theorem same_placePart (core : Nat) (g : Group) (s : State) : Same s (placePart core g s) := by
  simp only [placePart]; split
  · exact same_putEntry _ _ _ _
  · exact same_park _ _ _ _

theorem same_formParked (core e : Nat) (s : State) : Same s (formParked core e s) := by
  simp only [formParked]; split
  · exact Same.refl s
  · exact Same.trans (by exact same_modCore s core _ fun _ => rfl) (same_putEntry _ _ _ _)

theorem same_freeEntry (core e : Nat) (s : State) : Same s (freeEntry core e s) :=
  Same.trans (by exact same_modCore s core _ fun _ => rfl) (same_formParked _ _ _)

theorem same_drainParked (core n : Nat) (s : State) : Same s (drainParked core n s) := by
  induction n generalizing s with
  | zero => exact Same.refl s
  | succ n ih =>
    simp only [drainParked]; split
    · exact (same_formParked _ _ _).trans (ih _)
    · exact Same.refl s

theorem same_progress (core k : Nat) (ths : List (Nat × Nat)) (s : State) : Same s (progress core k ths s) :=
  same_forEach ths _ (fun _ s => by exact same_modThread s _ _ _ _ fun _ => rfl) s

theorem same_endRun (c : Iss) (s : State) : Same s (endRun c s) := by
  apply Same.modCoh
  · apply Same.forEach
    · apply Same.forEach
      · apply Same.modCore (Same.refl s)
        exact fun _ => rfl
      · exact fun _ s => same_modThread s _ _ _ _ fun _ => rfl
    · exact fun _ s => same_modWarp s _ _ _ fun _ => ⟨rfl, rfl, rfl, rfl, rfl, rfl, rfl, rfl, rfl, rfl⟩
  · exact fun _ => ⟨rfl, rfl, rfl⟩

theorem same_noteHang (c : Iss) (s : State) : Same s (noteHang c s) :=
  same_forEach _ _ (fun _ s => by exact same_modThread s _ _ _ _ fun _ => rfl) s

theorem same_placeParts (core e : Nat) (parts : List Group) (s : State) : Same s (placeParts core e parts s) := by
  simp only [placeParts]; split
  · exact same_freeEntry _ _ _
  · exact Same.forEach (Same.modCore (same_setSt _ _ _ s) (f := Core.keepEntry e _) fun _ => rfl)
      (by exact fun _ s => same_placePart _ _ s)

theorem same_leave (c : Iss) (bnd : Bool) (next : Nat × Nat → W32) (s : State) : Same s (leave c bnd next s) := by
  have h0 : Same s (forEach c.ths (fun t => State.modThread c.coh t.1 t.2 fun x =>
      { x with pc := next t, exempt := none }) s) :=
    same_forEach _ _ (fun _ s => by exact same_modThread s _ _ _ _ fun _ => rfl) s
  simp only [leave]
  split
  · exact h0
  · split
    · exact h0.trans (by exact same_modCore _ _ _ fun _ => rfl)
    · refine h0.trans ((same_endRun c _).trans (Same.trans ?_
        ((same_forEach _ _ (fun _ s => same_placePart _ _ s) _).trans (same_noteHang _ _))))
      exact same_modCore _ _ _ fun _ => rfl

theorem same_leaveNext (c : Iss) (bnd : Bool) (s : State) : Same s (leaveNext c bnd s) := same_leave _ _ _ _

theorem same_leaveBlocked (c : Iss) (ws : List Nat) (again : Bool) (s : State) : Same s (leaveBlocked c ws again s) := by
  simp only [leaveBlocked]; split
  · exact same_leaveNext _ _ _
  · refine (same_endRun c s).trans (Same.trans ?_ (same_noteHang _ _))
    exact same_modCore _ _ _ fun _ => rfl

theorem same_useWindows (c : Iss) (s : State) : Same s (useWindows c s) := Same.of_eq rfl rfl rfl rfl rfl rfl rfl

theorem same_addOp (o : Op) (s : State) : Same s (s.addOp o) := Same.of_eq rfl rfl rfl rfl rfl rfl rfl

theorem same_modOp (k : Nat) (f : Op → Op) (s : State) : Same s (s.modOp k f) := Same.of_eq rfl rfl rfl rfl rfl rfl rfl

theorem same_raiseView (k w v : Nat) (s : State) : Same s (s.raiseView k w v) :=
  same_modWarp s _ _ _ fun _ => ⟨rfl, rfl, rfl, rfl, rfl, rfl, rfl, rfl, rfl, rfl⟩

theorem same_raiseH (k w v : Nat) (s : State) : Same s (s.raiseH k w v) :=
  same_modWarp s _ _ _ fun _ => ⟨rfl, rfl, rfl, rfl, rfl, rfl, rfl, rfl, rfl, rfl⟩

theorem same_addCalc (i : Instr) (f : Fields) (c : Iss) (w : Nat) (lanes : List Nat) (ws : List RegW) (fl : BitVec 5)
    (s : State) : Same s (addCalc i f c w lanes ws fl s) := same_addOp _ s

/-! ## What follows for frames -/

theorem Same.outside {s t : State} (h : Same s t) : SameOutside s t where
  mem a := by simp only [State.byte, h.mem]
  ctxs := h.ctxs
  fns := h.fns
  launches := h.launches
  worlds := h.worlds

theorem Same.special {s t : State} (h : Same s t) : SameSpecial s t :=
  ⟨h.tvec, h.trpc, h.tsch, h.trapq, h.handler, h.acc⟩

theorem Same.readV {s t : State} (h : Same s t) (k w r l : Nat) : (t.warp k w).readV r l = (s.warp k w).readV r l := by
  simp only [Warp.readV, h.vregs]

theorem Same.readS {s t : State} (h : Same s t) (k w r : Nat) : (t.warp k w).readS r = (s.warp k w).readS r := by
  simp only [Warp.readS, h.sregs]

theorem Same.readP {s t : State} (h : Same s t) (k w l p : Nat) :
    (t.thread k w l).readP p = (s.thread k w l).readP p := by simp only [Thread.readP, h.preds]

theorem Same.readSp {s t : State} (h : Same s t) (k a : Nat) : (t.coh k).readSp a = (s.coh k).readSp a := by
  simp only [Cohort.readSp, h.scratch]

theorem Same.hasWarp {s t : State} (h : Same s t) (k w : Nat) : HasWarp t k w ↔ HasWarp s k w := by
  simp only [HasWarp, h.warps]

theorem Same.hasThread {s t : State} (h : Same s t) (k w l : Nat) : HasThread t k w l ↔ HasThread s k w l := by
  simp only [HasThread, h.hasWarp, h.threads]

theorem Same.on {s t : State} (h : Same s t) (c : Iss) (f : Fields) : c.on f t = c.on f s := by
  simp only [Iss.on, guardHolds, h.readP]

theorem Same.warpsOn {s t : State} (h : Same s t) (c : Iss) (f : Fields) : c.warpsOn f t = c.warpsOn f s := by
  simp only [Iss.warpsOn, h.on]

theorem Same.lanesOn {s t : State} (h : Same s t) (c : Iss) (f : Fields) (w : Nat) : c.lanesOn f t w = c.lanesOn f s w := by
  simp only [Iss.lanesOn, h.on]

/-- A state the issue machinery reached keeps every register. -/
theorem Same.regFrame {s t : State} (h : Same s t) (v r p x) : RegFrame s t v r p x where
  outside := h.outside
  special := h.special
  scratch := h.readSp
  vregs k w r l _ := h.readV k w r l
  sregs k w r _ := h.readS k w r
  preds k w l p _ _ := h.readP k w l p
  flags k w _ := h.flags k w

/-- A frame goes on through a state that agrees. -/
theorem RegFrame.same {s t u : State} {v r p x} (h : RegFrame s t v r p x) (g : Same t u) : RegFrame s u v r p x where
  outside := ⟨fun a => (g.outside.mem a).trans (h.outside.mem a), g.ctxs.trans h.outside.ctxs,
    g.fns.trans h.outside.fns, g.launches.trans h.outside.launches, g.worlds.trans h.outside.worlds⟩
  special := ⟨fun k w => (g.tvec k w).trans (h.special.tvec k w), fun k w => (g.trpc k w).trans (h.special.trpc k w),
    fun k w => (g.tsch k w).trans (h.special.tsch k w), fun k w => (g.trapq k w).trans (h.special.trapq k w),
    fun k w => (g.handler k w).trans (h.special.handler k w), fun k => (g.acc k).trans (h.special.acc k)⟩
  scratch k a := (g.readSp k a).trans (h.scratch k a)
  vregs k w r l hn := (g.readV k w r l).trans (h.vregs k w r l hn)
  sregs k w r hn := (g.readS k w r).trans (h.sregs k w r hn)
  preds k w l p hp hn := (g.readP k w l p).trans (h.preds k w l p hp hn)
  flags k w hn := (g.flags k w).trans (h.flags k w hn)

/-- And starts from a state that agrees. -/
theorem Same.thenFrame {s t u : State} {v r p x} (g : Same s t) (h : RegFrame t u v r p x) : RegFrame s u v r p x where
  outside := ⟨fun a => (h.outside.mem a).trans (g.outside.mem a), h.outside.ctxs.trans g.ctxs,
    h.outside.fns.trans g.fns, h.outside.launches.trans g.launches, h.outside.worlds.trans g.worlds⟩
  special := ⟨fun k w => (h.special.tvec k w).trans (g.tvec k w), fun k w => (h.special.trpc k w).trans (g.trpc k w),
    fun k w => (h.special.tsch k w).trans (g.tsch k w), fun k w => (h.special.trapq k w).trans (g.trapq k w),
    fun k w => (h.special.handler k w).trans (g.handler k w), fun k => (h.special.acc k).trans (g.acc k)⟩
  scratch k a := (h.scratch k a).trans (g.readSp k a)
  vregs k w r l hn := (h.vregs k w r l hn).trans (g.readV k w r l)
  sregs k w r hn := (h.sregs k w r hn).trans (g.readS k w r)
  preds k w l p hp hn := (h.preds k w l p hp hn).trans (g.readP k w l p)
  flags k w hn := (h.flags k w hn).trans (g.flags k w)

end Sys2Proof.Laws
end

