-- ==== Sys2Proof/Laws/Gates.lean ====
section
/-! SUPPORT. Chains of checks: what a passed chain says of its links, and the checks that change nothing when they pass. -/

namespace Sys2Proof.Laws

open Sys2Proof.Machine

/-- A passed chain passed each link. -/
theorem Gate.andThen_pass {g : Gate} {k : State → Gate} {u : State} :
    g.andThen k = .pass u ↔ ∃ t, g = .pass t ∧ k t = .pass u := by
  cases g <;> simp [Gate.andThen]

theorem foldl_andThen_pass {α : Type} (k : α → State → Gate) (l : List α) (g : Gate) {u : State} :
    l.foldl (fun g x => g.andThen (k x)) g = .pass u → ∃ t, g = .pass t := by
  induction l generalizing g with
  | nil => exact fun h => ⟨u, h⟩
  | cons x l ih =>
    intro h
    obtain ⟨t, ht⟩ := ih _ h
    obtain ⟨t', h', -⟩ := Gate.andThen_pass.mp ht
    exact ⟨t', h'⟩

/-- The checks of a list pass when the first does and then the rest. -/
theorem gateAll_cons_pass {α : Type} {k : α → State → Gate} {x : α} {l : List α} {s u : State}
    (h : gateAll (x :: l) k s = .pass u) : ∃ t, k x s = .pass t ∧ gateAll l k t = .pass u := by
  have h' : l.foldl (fun g x => g.andThen (k x)) (k x s) = .pass u := h
  obtain ⟨t, ht⟩ := foldl_andThen_pass k l _ h'
  exact ⟨t, ht, by rw [ht] at h'; exact h'⟩

/-- What each check of a list keeps, the list keeps. -/
theorem gateAll_pass {α : Type} {R : State → State → Prop} (refl : ∀ s, R s s)
    (trans : ∀ s t u, R s t → R t u → R s u) {k : α → State → Gate} (hk : ∀ x s t, k x s = .pass t → R s t)
    (l : List α) {s u : State} (h : gateAll l k s = .pass u) : R s u := by
  induction l generalizing s with
  | nil => cases h; exact refl _
  | cons x l ih =>
    obtain ⟨t, h1, h2⟩ := gateAll_cons_pass h
    exact trans _ _ _ (hk x s t h1) (ih h2)

/-- The sets of a sealed task are only looked at (22 R420). -/
theorem sealedGate_pass {eng : Bool} {c : Iss} {as_ : List Acc} {s t : State} (h : sealedGate eng c as_ s = .pass t) :
    t = s := by
  unfold sealedGate at h
  split at h
  · split at h <;> cases h; rfl
  · cases h; rfl

/-- An acquire holds an access back or leaves the state as it is (16 R310). -/
theorem gateAcq_pass {c : Iss} {rs : List (Nat × Nat)} {s t : State} (h : gateAcq c rs s = .pass t) : t = s := by
  unfold gateAcq at h
  split at h <;> cases h; rfl

/-- What a warp's checks keep, those of the whole group keep. -/
theorem warpGate_pass {R : State → State → Prop} (refl : ∀ s, R s s) (trans : ∀ s t u, R s t → R t u → R s u)
    {c : Iss} {ths : List (Nat × Nat)} {acc : Nat × Nat → Acc} {check : Nat × Nat → State → Gate}
    (hk : ∀ x s t, check x s = .pass t → R s t) {s u : State} (h : warpGate c ths acc check s = .pass u) : R s u := by
  refine gateAll_pass refl trans (fun p s t hp => ?_) _ h
  obtain ⟨s', h1, h2⟩ := Gate.andThen_pass.mp hp
  rw [sealedGate_pass h2]
  exact gateAll_pass refl trans hk _ h1

/-- A stall changes no register and no byte: it notes what governs the access (23 R434). -/
theorem same_keepSince (c : Iss) (s : State) : Same s (keepSince c s) := same_modCore _ _ _ fun _ => rfl

/-- Placing the parts of a trapping group changes no register and no byte (07 R130). -/
theorem same_placeStopped (core e : Nat) (apart : Bool) (rest : List Group) (whole : Group) (s : State) :
    Same s (placeStopped core e apart rest whole s) := by
  simp only [placeStopped]
  split
  · split
    · exact (same_placeParts _ _ _ s).trans (same_placeParts _ _ _ _)
    · exact same_placeParts _ _ _ s
  · exact same_placeParts _ _ _ s

end Sys2Proof.Laws
end

