-- ==== Sys2Proof/Laws/Held.lean ====
section
/-! SUPPORT. Accesses and commands that an acquire of their warp holds back (16 R310): what each shared operation on them can
do. -/

namespace Sys2Proof.Laws

open Sys2Proof.Machine

/-- An access reaches a set when it has a byte and shares one with it (22 R416). -/
theorem DeclSet.meets_iff (d : DeclSet) (a n : Nat) :
    d.meets (a, n) = true ↔ ∃ b, (a ≤ b ∧ b < a + n) ∧ d.base ≤ b ∧ b < d.base + d.len := by
  simp only [DeclSet.meets, decide_eq_true_eq]
  exact ⟨fun h => ⟨max a d.base, by omega⟩, fun ⟨b, h⟩ => by omega⟩

/-- An acquire that is ahead of an operation holds back the warp's next access too. -/
theorem acqHolds_of_ahead {s : State} {id coh w r : Nat} (h : acqAhead s id coh w r = true) : acqHolds s coh w r = true := by
  simp only [acqAhead, acqHolds, List.any_eq_true, Bool.and_eq_true] at h ⊢
  obtain ⟨e, he, -, ha⟩ := h
  exact ⟨e, he, ha⟩

@[simp] theorem notOf_nil (ths : List (Nat × Nat)) : notOf [] ths = ths := List.filter_eq_self.mpr fun _ _ => rfl
theorem mem_notOf {late : List Nat} {ths : List (Nat × Nat)} {x : Nat × Nat} : x ∈ notOf late ths ↔ x ∈ ths ∧ x.1 ∉ late := by
  simp [notOf]

/-- With no warp that waits, the whole group's scratchpad accesses are made at once. -/
theorem spLate_nil {c : Iss} {f : Fields} {so : Nat × Nat → Int} {s : State}
    (h : ∀ w ∈ c.warpsOn f s, spWaits s c.coh w = false) : spLate c f so s = [] := by
  unfold spLate
  generalize c.warpsOn f s = l at h
  induction l with
  | nil => rfl
  | cons w l ih =>
    simp only [List.foldl_cons, h w List.mem_cons_self, List.any_nil]
    exact ih fun v hv => h v (List.mem_cons_of_mem _ hv)

@[simp] theorem Part.issued_act (s : State) (coh w : Nat) (p : Part) : (p.issued s coh w).act = p.act := rfl
@[simp] theorem Part.issued_line (s : State) (coh w : Nat) (p : Part) : (p.issued s coh w).line = p.line := rfl
@[simp] theorem Part.issued_done (s : State) (coh w : Nat) (p : Part) : (p.issued s coh w).done = p.done := rfl
@[simp] theorem Part.issued_late (s : State) (coh w : Nat) (p : Part) :
    (p.issued s coh w).late = acqHolds s coh w (reachOf p.line) := rfl

/-- A request that never waited performs as it was issued (log 101). -/
theorem Part.sent_of_not_late {p : Part} (h : p.late = false) (s : State) (o : Op) : p.sent s o = p := by simp [Part.sent, h]
/-- A request that waited asks under its warp's view (log 101). -/
theorem Part.sent_of_late {p : Part} (h : p.late = true) (s : State) (o : Op) :
    p.sent s o = { p with vreq := max p.vreq (s.warp o.coh o.warp).view } := by simp [Part.sent, h]

/-- A command none of whose operands is held back is accepted as it started. -/
theorem holdCommand_free {c : Iss} {w : Nat} {rs : List Nat} {s : State} (h : ∀ r ∈ rs, acqHolds s c.coh w r = false) (id : Nat) :
    holdCommand c w id rs s = s := by
  have : rs.any (acqHolds s c.coh w) = false := List.any_eq_false.mpr fun r hr => by simp [h r hr]
  simp [holdCommand, this]

/-- Holding a command back, and accepting it later, change no register and no byte (15 R279). -/
theorem same_holdCommand (c : Iss) (w id : Nat) (rs : List Nat) (s : State) : Same s (holdCommand c w id rs s) := by
  unfold holdCommand
  split
  · refine Same.trans ?_ (same_modOp _ _ _)
    exact same_modCore _ _ _ fun _ => rfl
  · exact Same.refl s
theorem same_acceptHeld (id : Nat) (o : Op) (s : State) : Same s (acceptHeld id o s) := by
  refine Same.trans ?_ (same_modOp _ _ _)
  exact same_modCore _ _ _ fun _ => rfl

/-- A phase whose image the engine reaches ends as it should; another is a fault of its context (07 R137, R151). -/
@[simp] theorem endPhase_none (ctx : Nat) (done : State → State) (s : State) :
    endPhase ctx none done s = .next (afterPhase ctx (done s)) := rfl
@[simp] theorem endPhase_fault (ctx va n : Nat) (done : State → State) (s : State) :
    endPhase ctx (some (va, .fault n)) done s = .next (afterPhase ctx (areaFault ctx va s)) := rfl

/-- Belfry resumes no cohort but the head of the queue chosen next (22 R397). -/
theorem cohortResume_not_head {k core : Nat} {s : State}
    (h : ∀ q, chooseQueue s = some q → q.head ≠ .saved k ∨ q.fitsOn s core = false) : execCohortResume k core s = .next s := by
  unfold execCohortResume
  split
  · rfl
  · rename_i q hq
    rcases h q hq with h | h <;> simp [h]

end Sys2Proof.Laws
end

