-- ==== Sys2Proof/Laws/Moves.lean ====
section
/-! SUPPORT. PCs: what keeps every PC, and where `leave` sends a group's threads. -/

namespace Sys2Proof.Laws

open Sys2Proof.Machine Sys2Proof.Safety

/-- Every thread's PC is as before. -/
def SamePc (s t : State) : Prop := ∀ k w l, (t.thread k w l).pc = (s.thread k w l).pc

theorem SamePc.refl (s : State) : SamePc s s := fun _ _ _ => rfl

theorem SamePc.trans {s t u : State} (h : SamePc s t) (g : SamePc t u) : SamePc s u :=
  fun k w l => (g k w l).trans (h k w l)

theorem SamePc.modCore {s t : State} (h : SamePc s t) {k : Nat} {f : Core → Core} : SamePc s (t.modCore k f) := h

theorem SamePc.modThread {s t : State} (h : SamePc s t) {k w l : Nat} {f : Thread → Thread}
    (hf : ∀ x, (f x).pc = x.pc) : SamePc s (t.modThread k w l f) :=
  h.trans fun _ _ _ => State.thread_modThread_proj t Thread.pc k w l _ _ _ f hf

theorem SamePc.modWarp {s t : State} (h : SamePc s t) {k w : Nat} {f : Warp → Warp}
    (hf : ∀ x, (f x).threads = x.threads) : SamePc s (t.modWarp k w f) :=
  h.trans fun _ _ _ => by rw [State.thread_modWarp t k w _ _ _ f hf]

theorem SamePc.modCoh {s t : State} (h : SamePc s t) {k : Nat} {f : Cohort → Cohort}
    (hf : ∀ x, (f x).warps = x.warps) : SamePc s (t.modCoh k f) :=
  h.trans fun j i m => State.coh_modCoh_proj t (fun c => ((c.warp i).thread m).pc) k j f fun c => by
    simp only [Cohort.warp, hf c]

theorem SamePc.forEach {α : Type} {s t : State} (h : SamePc s t) {l : List α} {f : α → State → State}
    (hf : ∀ x s, SamePc s (f x s)) : SamePc s (forEach l f t) := by
  induction l generalizing t with
  | nil => exact h
  | cons x r ih => exact ih (h.trans (hf x t))

theorem samePc_setSt (k : Nat) (ths : List (Nat × Nat)) (st : ThSt) (s : State) : SamePc s (setSt k ths st s) := by
  apply SamePc.forEach (SamePc.refl s)
  exact fun _ s => SamePc.modThread (SamePc.refl s) fun _ => rfl

theorem samePc_park (core k : Nat) (ths : List (Nat × Nat)) (s : State) : SamePc s (park core k ths s) :=
  SamePc.modCore (samePc_setSt k ths .parked s)

theorem samePc_putEntry (core e : Nat) (g : Group) (s : State) : SamePc s (putEntry core e g s) :=
  SamePc.modCore (samePc_setSt g.coh g.ths .grouped s)

theorem samePc_placePart (core : Nat) (g : Group) (s : State) : SamePc s (placePart core g s) := by
  simp only [placePart]; split
  · exact samePc_putEntry _ _ _ _
  · exact samePc_park _ _ _ _

theorem samePc_formParked (core e : Nat) (s : State) : SamePc s (formParked core e s) := by
  simp only [formParked]; split
  · exact SamePc.refl s
  · exact SamePc.trans (SamePc.modCore (SamePc.refl s)) (samePc_putEntry _ _ _ _)

theorem samePc_freeEntry (core e : Nat) (s : State) : SamePc s (freeEntry core e s) :=
  SamePc.trans (SamePc.modCore (SamePc.refl s)) (samePc_formParked _ _ _)

theorem samePc_placeParts (core e : Nat) (parts : List Group) (s : State) : SamePc s (placeParts core e parts s) := by
  simp only [placeParts]; split
  · exact samePc_freeEntry _ _ _
  · exact SamePc.forEach (SamePc.modCore (samePc_setSt _ _ _ s) (f := Core.keepEntry e _))
      (by exact fun _ s => samePc_placePart _ _ s)

theorem samePc_endRun (c : Iss) (s : State) : SamePc s (endRun c s) := by
  apply SamePc.modCoh
  · apply SamePc.forEach
    · apply SamePc.forEach
      · exact SamePc.modCore (SamePc.refl s)
      · exact fun _ s => SamePc.modThread (SamePc.refl s) fun _ => rfl
    · exact fun _ s => SamePc.modWarp (SamePc.refl s) fun _ => rfl
  · exact fun _ => rfl

theorem samePc_noteHang (c : Iss) (s : State) : SamePc s (noteHang c s) := by
  apply SamePc.forEach (SamePc.refl s)
  exact fun _ s => SamePc.modThread (SamePc.refl s) fun _ => rfl

/-- Sending each thread of a list to its PC. -/
theorem pc_sendAll (k : Nat) (next : Nat × Nat → W32) (ths : List (Nat × Nat)) (s : State) (x : Nat × Nat)
    (hx : HasThread s k x.1 x.2) :
    ((forEach ths (fun t => State.modThread k t.1 t.2 fun y => { y with pc := next t, exempt := none }) s).thread
      k x.1 x.2).pc = if x ∈ ths then next x else (s.thread k x.1 x.2).pc := by
  induction ths generalizing s with
  | nil => rfl
  | cons a r ih =>
    have hs := same_modThread s k a.1 a.2 (fun y => { y with pc := next a, exempt := none }) fun _ => rfl
    refine (ih _ ((hs.hasThread k x.1 x.2).2 hx)).trans ?_
    by_cases hr : x ∈ r
    · simp [hr]
    · rw [if_neg hr, State.thread_modThread]
      by_cases hxa : x = a
      · subst hxa
        have h1 := hx.1
        have h2 := hx.2
        simp only [HasWarp] at h1
        simp [h1, h2]
      · rw [if_neg, if_neg (by simp [hr, hxa])]
        rintro ⟨-, h1, h2, -⟩
        exact hxa (Prod.ext h1 h2)

theorem pc_leave (c : Iss) (bnd : Bool) (next : Nat × Nat → W32) (s : State) : MovedTo c s (leave c bnd next s) next := by
  intro x hx ht
  have h0 := pc_sendAll c.coh next c.ths s x ht
  rw [if_pos hx] at h0
  simp only [leave]
  split
  · exact h0
  · split
    · exact h0
    · refine Eq.trans ?_ h0
      refine (samePc_noteHang _ _ _ _ _).trans ?_
      refine (SamePc.forEach (SamePc.refl _) (fun _ s => samePc_placePart _ _ s) _ _ _).trans ?_
      exact samePc_endRun c _ _ _ _

theorem advanced_leaveNext (c : Iss) (bnd : Bool) (s : State) : Advanced c s (leaveNext c bnd s) :=
  pc_leave c bnd _ s

/-- Where a group goes is judged alike in a state that agrees. -/
theorem Same.movedTo {s t u : State} (h : Same s t) {c : Iss} {next : Nat × Nat → W32} (g : MovedTo c t u next) :
    MovedTo c s u next := fun x hx ht => g x hx ((h.hasThread _ _ _).2 ht)

theorem Same.advanced {s t u : State} (h : Same s t) {c : Iss} (g : Advanced c t u) : Advanced c s u :=
  fun x hx ht => g x hx ((h.hasThread _ _ _).2 ht)

end Sys2Proof.Laws
end

