-- ==== Sys2Proof/Laws/Issue.lean ====
section
/-! SUPPORT. The issue path once for all instructions, and the shapes of results: one register per thread, one per warp,
one predicate per thread, results left outstanding. -/

namespace Sys2Proof.Laws

open Sys2Proof.Machine Sys2Proof.Safety

variable {i : Instr} {f : Fields} {c : Iss} {s t : State}

/-- A ready instruction does what its own checks decide. -/
theorem issue_ready (h : Ready i f c s) (chk : Iss → State → Gate) (act : Iss → State → State) :
    issue i f chk act s = match chk c s with
      | .pass t => .next (act c (useWindows c t))
      | .trap t => .next (trapAll c t s)
      | .hold t => .next t
      | .block t w => .next (leaveBlocked c w true t)
      | .hole => .fault .noSuchMemory := by
  simp only [issue, h.group, h.legal, h.calm, h.free, h.clean, Bool.false_eq_true, if_false] <;> rfl

/-- Its checks pass: it completes. -/
theorem issue_pass (h : Ready i f c s) {chk : Iss → State → Gate} (hc : chk c s = .pass t) (act : Iss → State → State) :
    issue i f chk act s = .next (act c (useWindows c t)) := by rw [issue_ready h, hc]

/-- An instruction whose checks pass has its effect. -/
theorem exec_pass {chk : Iss → State → Gate} {act : Iss → State → State} {r : State}
    (hx : exec i s = issue i f chk act s) (h : Ready i f c s) (hc : chk c s = .pass t) (hr : act c (useWindows c t) = r) :
    exec i s = .next r := by rw [hx, issue_pass h hc, hr]

/-- Its checks trap. -/
theorem issue_trap (h : Ready i f c s) {chk : Iss → State → Gate} {r : TrapRec} (hc : chk c s = .trap r)
    (act : Iss → State → State) : issue i f chk act s = .next (trapAll c r s) := by rw [issue_ready h, hc]

theorem issueFixed_ready (h : Ready i f c s) (eff : Iss → State → State) :
    issueFixed i f eff s = .next (leaveNext c f.bnd (eff c (useWindows c s))) := issue_pass h rfl _

theorem mem_warpsOn_of {x : Nat × Nat} (hx : x ∈ c.on f s) : x.1 ∈ c.warpsOn f s := by
  have ins : ∀ (k : Nat) (l : List Nat) (y : Nat), y ∈ insertNat k l ↔ y = k ∨ y ∈ l := by
    intro k l
    induction l with
    | nil => intro y; simp [insertNat]
    | cons a r ih =>
      intro y
      simp only [insertNat]
      split
      · simp
      · split
        · subst_vars; simp
        · simp only [List.mem_cons, ih]
          constructor
          · rintro (h | h | h)
            · exact .inr (.inl h)
            · exact .inl h
            · exact .inr (.inr h)
          · rintro (h | h | h)
            · exact .inr (.inl h)
            · exact .inl h
            · exact .inr (.inr h)
  have srt : ∀ (l acc : List Nat) (y : Nat), y ∈ l.foldl (fun a x => insertNat x a) acc ↔ y ∈ acc ∨ y ∈ l := by
    intro l
    induction l with
    | nil => intro acc y; simp
    | cons a r ih =>
      intro acc y
      simp only [List.foldl_cons, ih, ins, List.mem_cons]
      constructor
      · rintro ((h | h) | h)
        · exact .inr (.inl h)
        · exact .inl h
        · exact .inr (.inr h)
      · rintro (h | h | h)
        · exact .inl (.inr h)
        · exact .inl (.inl h)
        · exact .inr h
  simp only [Iss.warpsOn, sortedNats, srt]
  exact .inr (List.mem_map_of_mem hx)

/-! ## One vector register per thread -/

theorem writeV_same_but (k w r l : Nat) (v : W32) (s : State) :
    RegFrame s (s.writeV k w r l v) (fun k' w' r' l' => k' = k ∧ w' = w ∧ r' = r ∧ l' = l) none3 none4 none2 where
  outside := ⟨fun _ => rfl, rfl, rfl, rfl, rfl⟩
  special := by
    have h : ∀ {β : Type} (φ : Warp → β), (∀ x a b, φ { x with vregs := a, poison := b } = φ x) →
        ∀ j i, φ ((s.writeV k w r l v).warp j i) = φ (s.warp j i) := fun φ hφ j i =>
      State.warp_modWarp_proj s φ k w j i _ fun x => by
        simp only [Warp.writeV]; split
        · rfl
        · exact hφ x _ _
    exact ⟨h Warp.tvec fun _ _ _ => rfl, h Warp.trpc fun _ _ _ => rfl, h Warp.tsch fun _ _ _ => rfl,
      h Warp.trapq fun _ _ _ => rfl, h Warp.handler fun _ _ _ => rfl, fun _ => rfl⟩
  scratch j a := by simp only [Cohort.readSp, State.writeV, State.modWarp_scratch]
  vregs j i r' l' hn := by
    simp only [State.writeV, State.warp_modWarp]
    split
    · rename_i h
      rw [Warp.readV_writeV, h.1, h.2.1, if_neg]
      rintro ⟨h1, h2, -⟩; exact hn ⟨h.1, h.2.1, h1, h2⟩
    · rfl
  sregs j i r' _ := State.warp_modWarp_proj s (fun x => x.readS r') k w j i _ fun x => Warp.readS_writeV x r l v r'
  preds j i l' p _ _ := by
    rw [State.writeV, State.thread_modWarp]
    intro x; simp only [Warp.writeV]; split <;> rfl
  flags j i _ := State.warp_modWarp_proj s Warp.fpflags k w j i _ fun x => by
    simp only [Warp.writeV]; split <;> rfl

theorem writeV_warps (k w r l : Nat) (v : W32) (s : State) (j : Nat) :
    ((s.writeV k w r l v).coh j).warps.length = (s.coh j).warps.length := by
  simp only [State.writeV, State.modWarp_warps_length]

theorem writeV_threads (k w r l : Nat) (v : W32) (s : State) (j i : Nat) :
    ((s.writeV k w r l v).warp j i).threads = (s.warp j i).threads :=
  State.warp_modWarp_proj s Warp.threads k w j i _ fun x => by
    simp only [Warp.writeV]; split <;> rfl

/-- What a vector register lane reads after one value per thread of a list is written to register `r`. -/
theorem readV_writeAll (k r : Nat) (v : Nat → Nat → W32) (ths : List (Nat × Nat)) (s : State) (x : Nat × Nat)
    (hx : HasWarp s k x.1) (hl : x.2 < 32) :
    ((forEach ths (fun y => State.writeV k y.1 r y.2 (v y.1 y.2)) s).warp k x.1).readV r x.2 =
      if x ∈ ths ∧ r ≠ 255 then v x.1 x.2 else (s.warp k x.1).readV r x.2 := by
  induction ths generalizing s with
  | nil => simp [forEach]
  | cons a q ih =>
    have hx' : HasWarp (s.writeV k a.1 r a.2 (v a.1 a.2)) k x.1 := by
      simpa only [HasWarp, writeV_warps] using hx
    refine (ih _ hx').trans ?_
    by_cases h255 : r = 255
    · subst h255; simp [Warp.readV]
    · by_cases hq : x ∈ q
      · simp [hq, h255]
      · simp only [hq, if_false, h255, ne_eq, not_false_eq_true, and_true, List.mem_cons, or_false]
        simp only [State.writeV, State.warp_modWarp]
        by_cases ha : x = a
        · subst ha
          simp only [HasWarp] at hx
          simp [hx, Warp.readV_writeV, h255, hl]
        · rw [if_neg ha]
          split
          · rename_i h
            rw [Warp.readV_writeV, if_neg, h.2.1]
            rintro ⟨-, h2, -⟩
            exact ha (Prod.ext h.2.1 h2)
          · rfl

theorem regFrame_trans {s t u : State} {v r p x} (h : RegFrame s t v r p x) (g : RegFrame t u v r p x) :
    RegFrame s u v r p x where
  outside := ⟨fun a => (g.outside.mem a).trans (h.outside.mem a), g.outside.ctxs.trans h.outside.ctxs,
    g.outside.fns.trans h.outside.fns, g.outside.launches.trans h.outside.launches,
    g.outside.worlds.trans h.outside.worlds⟩
  special := ⟨fun k w => (g.special.tvec k w).trans (h.special.tvec k w),
    fun k w => (g.special.trpc k w).trans (h.special.trpc k w),
    fun k w => (g.special.tsch k w).trans (h.special.tsch k w),
    fun k w => (g.special.trapq k w).trans (h.special.trapq k w),
    fun k w => (g.special.handler k w).trans (h.special.handler k w),
    fun k => (g.special.acc k).trans (h.special.acc k)⟩
  scratch k a := (g.scratch k a).trans (h.scratch k a)
  vregs k w r l hn := (g.vregs k w r l hn).trans (h.vregs k w r l hn)
  sregs k w r hn := (g.sregs k w r hn).trans (h.sregs k w r hn)
  preds k w l p hp hn := (g.preds k w l p hp hn).trans (h.preds k w l p hp hn)
  flags k w hn := (g.flags k w hn).trans (h.flags k w hn)

theorem regFrame_refl (s : State) (v r p x) : RegFrame s s v r p x := (Same.refl s).regFrame v r p x

/-- A frame holds for more registers too. -/
theorem RegFrame.mono {s t : State} {v r p x} {v' r' p' x'} (h : RegFrame s t v r p x)
    (hv : ∀ k w n l, v k w n l → v' k w n l) (hr : ∀ k w n, r k w n → r' k w n)
    (hp : ∀ k w l n, p k w l n → p' k w l n) (hx : ∀ k w, x k w → x' k w) : RegFrame s t v' r' p' x' where
  outside := h.outside
  special := h.special
  scratch := h.scratch
  vregs k w n l hn := h.vregs k w n l fun h' => hn (hv _ _ _ _ h')
  sregs k w n hn := h.sregs k w n fun h' => hn (hr _ _ _ h')
  preds k w l n hq hn := h.preds k w l n hq fun h' => hn (hp _ _ _ _ h')
  flags k w hn := h.flags k w fun h' => hn (hx _ _ h')

theorem regFrame_forEach {α : Type} {v r p x} (l : List α) (g : α → State → State)
    (h : ∀ a ∈ l, ∀ s, RegFrame s (g a s) v r p x) (s : State) : RegFrame s (forEach l g s) v r p x := by
  induction l generalizing s with
  | nil => exact regFrame_refl s v r p x
  | cons a q ih =>
    exact regFrame_trans (h a (List.mem_cons_self ..) s) (ih (fun b hb => h b (List.mem_cons_of_mem _ hb)) _)

theorem none_mono3 {r : Nat → Nat → Nat → Prop} (k w n : Nat) (h : none3 k w n) : r k w n := h.elim
theorem none_mono4 {r : Nat → Nat → Nat → Nat → Prop} (k w n l : Nat) (h : none4 k w n l) : r k w n l := h.elim
theorem none_mono2 {r : Nat → Nat → Prop} (k w : Nat) (h : none2 k w) : r k w := h.elim

/-! ## Threads stay where they are -/

/-- Every warp, every thread and every PC is as before. -/
structure SameThreads (s t : State) : Prop where
  warps : ∀ k, (t.coh k).warps.length = (s.coh k).warps.length
  threads : ∀ k w, (t.warp k w).threads.length = (s.warp k w).threads.length
  pcs : SamePc s t

theorem SameThreads.refl (s : State) : SameThreads s s := ⟨fun _ => rfl, fun _ _ => rfl, SamePc.refl s⟩

theorem SameThreads.trans {s t u : State} (h : SameThreads s t) (g : SameThreads t u) : SameThreads s u :=
  ⟨fun k => (g.warps k).trans (h.warps k), fun k w => (g.threads k w).trans (h.threads k w), h.pcs.trans g.pcs⟩

theorem sameThreads_modWarp (s : State) (k w : Nat) (f : Warp → Warp) (h : ∀ x, (f x).threads = x.threads) :
    SameThreads s (s.modWarp k w f) where
  warps j := State.modWarp_warps_length s k w j f
  threads j i := State.warp_modWarp_proj s (fun x => x.threads.length) k w j i f fun x => by simp only [h]
  pcs := SamePc.modWarp (SamePc.refl s) h

theorem sameThreads_writeV (k w r l : Nat) (v : W32) (s : State) : SameThreads s (s.writeV k w r l v) :=
  sameThreads_modWarp s k w _ fun x => by simp only [Warp.writeV]; split <;> rfl

theorem sameThreads_writeS (k w r : Nat) (v : W64) (s : State) : SameThreads s (s.writeS k w r v) :=
  sameThreads_modWarp s k w _ fun x => by simp only [Warp.writeS]; split <;> rfl

theorem sameThreads_raiseFlags (k w : Nat) (x : BitVec 5) (s : State) : SameThreads s (s.raiseFlags k w x) :=
  sameThreads_modWarp s k w _ fun _ => rfl

theorem sameThreads_writeP (k w l p : Nat) (b : Bool) (s : State) : SameThreads s (s.writeP k w l p b) where
  warps j := State.modWarp_warps_length s k w j _
  threads j i := State.warp_modWarp_proj s (fun x => x.threads.length) k w j i _ fun x => by simp
  pcs := SamePc.modThread (SamePc.refl s) fun x => by simp only [Thread.writeP]; split <;> rfl

theorem sameThreads_forEach {α : Type} (l : List α) (g : α → State → State) (h : ∀ x s, SameThreads s (g x s)) (s : State) :
    SameThreads s (forEach l g s) := by
  induction l generalizing s with
  | nil => exact SameThreads.refl s
  | cons x r ih => exact (h x s).trans (ih (g x s))

theorem SameThreads.hasWarp {s t : State} (h : SameThreads s t) (k w : Nat) : HasWarp t k w ↔ HasWarp s k w := by
  simp only [HasWarp, h.warps]

theorem SameThreads.hasThread {s t : State} (h : SameThreads s t) (k w l : Nat) :
    HasThread t k w l ↔ HasThread s k w l := by simp only [HasThread, h.hasWarp, h.threads]

theorem SameThreads.advanced {s t u : State} (h : SameThreads s t) (g : Advanced c t u) : Advanced c s u :=
  fun x hx ht => g x hx ((h.hasThread _ _ _).2 ht)

theorem SameThreads.movedTo {s t u : State} (h : SameThreads s t) {next} (g : MovedTo c t u next) : MovedTo c s u next :=
  fun x hx ht => g x hx ((h.hasThread _ _ _).2 ht)

/-- The issue of an instruction whose effect keeps its threads in place ends at PC + 1. -/
theorem advanced_of (eff : State → State) (h : SameThreads (useWindows c s) (eff (useWindows c s))) (bnd : Bool) :
    Advanced c s (leaveNext c bnd (eff (useWindows c s))) :=
  (same_useWindows c s).advanced (h.advanced (advanced_leaveNext c bnd _))

/-- The frame of an instruction from that of its effect. -/
theorem frame_of (eff : State → State) {v r p x} (h : RegFrame (useWindows c s) (eff (useWindows c s)) v r p x)
    (bnd : Bool) : RegFrame s (leaveNext c bnd (eff (useWindows c s))) v r p x :=
  (same_useWindows c s).thenFrame (RegFrame.same h (same_leaveNext c bnd _))

/-! ### Using a lookahead window changes no source -/

@[simp] theorem on_useWindows : c.on f (useWindows c s) = c.on f s := rfl
@[simp] theorem lanesOn_useWindows (w : Nat) : c.lanesOn f (useWindows c s) w = c.lanesOn f s w := rfl
@[simp] theorem warpsOn_useWindows : c.warpsOn f (useWindows c s) = c.warpsOn f s := rfl
@[simp] theorem core_useWindows (k : Nat) : (useWindows c s).core k = s.core k := rfl
@[simp] theorem coh_useWindows (k : Nat) : (useWindows c s).coh k = s.coh k := rfl
@[simp] theorem ctx_useWindows (k : Nat) : (useWindows c s).ctx k = s.ctx k := rfl
@[simp] theorem warp_useWindows (k w : Nat) : (useWindows c s).warp k w = s.warp k w := rfl
@[simp] theorem thread_useWindows (k w l : Nat) : (useWindows c s).thread k w l = s.thread k w l := rfl
@[simp] theorem byte_useWindows (a : Nat) : (useWindows c s).byte a = s.byte a := rfl
@[simp] theorem srcV_useWindows (k w l : Nat) (o : Operand) : (useWindows c s).srcV k w l o = s.srcV k w l o := rfl
@[simp] theorem srcS_useWindows (k w : Nat) (o : Operand) : (useWindows c s).srcS k w o = s.srcS k w o := rfl
@[simp] theorem srcP_useWindows (k w l : Nat) (o : Operand) : (useWindows c s).srcP k w l o = s.srcP k w l o := rfl
@[simp] theorem srcPair_useWindows (k w l : Nat) (o : Operand) :
    (useWindows c s).srcPair k w l o = s.srcPair k w l o := rfl
@[simp] theorem srcT_useWindows (k w n : Nat) (o : Operand) : (useWindows c s).srcT k w n o = s.srcT k w n o := rfl
@[simp] theorem srcN_useWindows (k w l : Nat) (o : Operand) : (useWindows c s).srcN k w l o = s.srcN k w l o := rfl
@[simp] theorem srcI_useWindows (k w l n : Nat) (o : Operand) :
    (useWindows c s).srcI k w l n o = s.srcI k w l n o := rfl
@[simp] theorem srcF_useWindows (k w l n : Nat) (o : Operand) :
    (useWindows c s).srcF k w l n o = s.srcF k w l n o := rfl
@[simp] theorem srcCode_useWindows (k w l n : Nat) (b : Bool) (o : Operand) :
    (useWindows c s).srcCode k w l n b o = s.srcCode k w l n b o := rfl
@[simp] theorem srcH_useWindows (k w l n i : Nat) (o : Operand) :
    (useWindows c s).srcH k w l n i o = s.srcH k w l n i o := rfl
@[simp] theorem srcConv_useWindows (k w l : Nat) (g : Fields) :
    (useWindows c s).srcConv k w l g = s.srcConv k w l g := rfl

/-! ## One vector register per thread: the shape -/

theorem sameThreads_effV (f : Fields) (val : State → Nat → Nat → Nat → W32) (c : Iss) (s : State) :
    SameThreads s (effV f val c s) :=
  sameThreads_forEach _ _ (fun _ s => sameThreads_writeV _ _ _ _ _ s) s

theorem regFrame_effV (f : Fields) (val : State → Nat → Nat → Nat → W32) (c : Iss) (s : State) :
    RegFrame s (effV f val c s) (fun k w r l => k = c.coh ∧ (w, l) ∈ c.on f s ∧ r = f.dst.idx.toNat) none3 none4 none2 :=
  regFrame_forEach _ _ (fun a ha s => RegFrame.mono (writeV_same_but _ _ _ _ _ s)
    (fun k w r l h => by obtain ⟨rfl, rfl, rfl, rfl⟩ := h; exact ⟨rfl, ha, rfl⟩)
    none_mono3 none_mono4 none_mono2) s

theorem readV_effV (f : Fields) (val : State → Nat → Nat → Nat → W32) (c : Iss) (s : State) (x : Nat × Nat)
    (hx : x ∈ c.on f s) (hw : HasWarp s c.coh x.1) (hl : x.2 < 32) :
    ((effV f val c s).warp c.coh x.1).readV f.dst.idx.toNat x.2 =
      if f.dst.idx.toNat = 255 then 0 else val s c.coh x.1 x.2 := by
  refine (readV_writeAll c.coh f.dst.idx.toNat (fun w l => val s c.coh w l) (c.on f s) s x hw hl).trans ?_
  by_cases h : f.dst.idx.toNat = 255
  · simp [h, Warp.readV]
  · simp [h, hx]

/-- An instruction that writes one vector register per thread, whatever its own checks. -/
theorem writesV_of {chk : Iss → State → Gate} {val : Iss → State → Nat → Nat → Nat → W32}
    (hx : exec i s = issue i f chk (fun c s => leaveNext c f.bnd (effV f (val c) c s)) s)
    (hc : chk c s = .pass s) (h : Ready i f c s) (v : Nat → Nat → W32)
    (hv : ∀ w l, val c (useWindows c s) c.coh w l = v w l) : WritesV i f c s v := by
  refine ⟨_, hx.trans (issue_pass h hc _), advanced_of _ (sameThreads_effV f (val c) c _) f.bnd, ?_,
    frame_of _ (regFrame_effV f (val c) c (useWindows c s)) f.bnd⟩
  intro x hx hw hl
  rw [(same_leaveNext c f.bnd _).readV, readV_effV f (val c) c (useWindows c s) x hx hw hl, hv]

/-! ## One vector register per thread with flags -/

theorem raiseFlags_same_but (k w : Nat) (x : BitVec 5) (s : State) :
    RegFrame s (s.raiseFlags k w x) none4 none3 none4 (fun k' w' => k' = k ∧ w' = w) where
  outside := ⟨fun _ => rfl, rfl, rfl, rfl, rfl⟩
  special := by
    have h : ∀ {β : Type} (φ : Warp → β), (∀ y : Warp, φ { y with fpflags := y.fpflags ||| x } = φ y) →
        ∀ j i, φ ((s.raiseFlags k w x).warp j i) = φ (s.warp j i) := fun φ hφ j i =>
      State.warp_modWarp_proj s φ k w j i _ hφ
    exact ⟨h Warp.tvec fun _ => rfl, h Warp.trpc fun _ => rfl, h Warp.tsch fun _ => rfl, h Warp.trapq fun _ => rfl,
      h Warp.handler fun _ => rfl, fun _ => rfl⟩
  scratch j a := by simp only [Cohort.readSp, State.raiseFlags, State.modWarp_scratch]
  vregs j i r l _ := State.warp_modWarp_proj s (fun y => y.readV r l) k w j i _ fun _ => rfl
  sregs j i r _ := State.warp_modWarp_proj s (fun y => y.readS r) k w j i _ fun _ => rfl
  preds j i l p _ _ := by
    rw [State.raiseFlags, State.thread_modWarp]; exact fun _ => rfl
  flags j i hn := by
    simp only [State.raiseFlags, State.warp_modWarp]
    split
    · rename_i h; exact absurd ⟨h.1, h.2.1⟩ hn
    · rfl

theorem flags_writeV (k w r l : Nat) (v : W32) (s : State) (j i : Nat) :
    ((s.writeV k w r l v).warp j i).fpflags = (s.warp j i).fpflags :=
  (writeV_same_but k w r l v s).flags j i id

theorem readV_raiseFlags (k w : Nat) (x : BitVec 5) (s : State) (j i r l : Nat) :
    ((s.raiseFlags k w x).warp j i).readV r l = (s.warp j i).readV r l :=
  (raiseFlags_same_but k w x s).vregs j i r l id

theorem flags_raiseFlags (k w : Nat) (x : BitVec 5) (s : State) (i : Nat) (h : HasWarp s k i) :
    ((s.raiseFlags k w x).warp k i).fpflags =
      if i = w then (s.warp k i).fpflags ||| x else (s.warp k i).fpflags := by
  simp only [State.raiseFlags, State.warp_modWarp]
  by_cases hi : i = w
  · subst hi; simp only [HasWarp] at h; simp [h]
  · simp [hi]

/-- The step of `effF` for one thread. -/
def stepF (k r : Nat) (v : Nat → Nat → W32 × BitVec 5) (y : Nat × Nat) (s : State) : State :=
  (s.writeV k y.1 r y.2 (v y.1 y.2).1).raiseFlags k y.1 (v y.1 y.2).2

theorem sameThreads_stepF (k r : Nat) (v : Nat → Nat → W32 × BitVec 5) (y : Nat × Nat) (s : State) :
    SameThreads s (stepF k r v y s) := (sameThreads_writeV _ _ _ _ _ s).trans (sameThreads_raiseFlags _ _ _ _)

theorem readV_stepAll (k r : Nat) (v : Nat → Nat → W32 × BitVec 5) (ths : List (Nat × Nat)) (s : State) (x : Nat × Nat)
    (hx : HasWarp s k x.1) (hl : x.2 < 32) :
    ((forEach ths (stepF k r v) s).warp k x.1).readV r x.2 =
      if x ∈ ths ∧ r ≠ 255 then (v x.1 x.2).1 else (s.warp k x.1).readV r x.2 := by
  induction ths generalizing s with
  | nil => simp [forEach]
  | cons a q ih =>
    refine (ih _ (((sameThreads_stepF k r v a s).hasWarp k x.1).2 hx)).trans ?_
    have h1 := readV_writeAll k r (fun w l => (v w l).1) [a] s x hx hl
    simp only [forEach, List.foldl_cons, List.foldl_nil, List.mem_singleton] at h1
    by_cases hq : x ∈ q
    · by_cases h255 : r = 255 <;> simp [hq, h255, Warp.readV]
    · simp only [stepF, readV_raiseFlags, h1, hq, false_and, if_false, List.mem_cons, or_false]

theorem flags_stepAll (k r : Nat) (v : Nat → Nat → W32 × BitVec 5) (ths : List (Nat × Nat)) (s : State) (w : Nat)
    (hw : HasWarp s k w) :
    ((forEach ths (stepF k r v) s).warp k w).fpflags =
      (ths.filter fun x => x.1 = w).foldl (fun a x => a ||| (v x.1 x.2).2) (s.warp k w).fpflags := by
  induction ths generalizing s with
  | nil => rfl
  | cons a q ih =>
    refine (ih _ (((sameThreads_stepF k r v a s).hasWarp k w).2 hw)).trans ?_
    have h1 : ((stepF k r v a s).warp k w).fpflags =
        if w = a.1 then (s.warp k w).fpflags ||| (v a.1 a.2).2 else (s.warp k w).fpflags := by
      rw [stepF, flags_raiseFlags _ _ _ _ _ (((sameThreads_writeV _ _ _ _ _ s).hasWarp k w).2 hw), flags_writeV]
    rw [h1]
    by_cases ha : a.1 = w
    · simp [ha]
    · have : ¬ w = a.1 := fun h => ha h.symm
      simp [ha, this]

theorem regFrame_stepF (k r : Nat) (v : Nat → Nat → W32 × BitVec 5) (y : Nat × Nat) (s : State) :
    RegFrame s (stepF k r v y s) (fun k' w' r' l' => k' = k ∧ (w', l') = y ∧ r' = r) none3 none4
      (fun k' _ => k' = k) := by
  refine regFrame_trans (RegFrame.mono (writeV_same_but k y.1 r y.2 _ s) ?_ none_mono3 none_mono4 none_mono2)
    (RegFrame.mono (raiseFlags_same_but k y.1 _ _) none_mono4 none_mono3 none_mono4 fun _ _ h => h.1)
  rintro k' w' r' l' ⟨rfl, rfl, rfl, rfl⟩
  exact ⟨rfl, rfl, rfl⟩

theorem effF_eq (f : Fields) (val : State → Nat → Nat → Nat → W32 × BitVec 5) (c : Iss) (s : State) :
    effF f val c s = forEach (c.on f s) (stepF c.coh f.dst.idx.toNat fun w l => val s c.coh w l) s := rfl

/-- An instruction that writes one vector register per thread and raises flags. -/
theorem writesF_of {val : State → Nat → Nat → Nat → W32 × BitVec 5}
    (hx : exec i s = issueFixed i f (effF f val) s) (h : Ready i f c s) (v : Nat → Nat → W32 × BitVec 5)
    (hv : ∀ w l, val (useWindows c s) c.coh w l = v w l) : WritesF i f c s v := by
  have hv' : (fun w l => val (useWindows c s) c.coh w l) = v := funext fun w => funext fun l => hv w l
  have he : effF f val c (useWindows c s) = forEach (c.on f s) (stepF c.coh f.dst.idx.toNat v) (useWindows c s) := by
    rw [effF_eq, hv']; rfl
  refine ⟨_, hx.trans (issueFixed_ready h _), ?_, ?_, ?_, ?_⟩ <;> rw [he]
  · exact (same_useWindows c s).advanced (SameThreads.advanced
      (sameThreads_forEach _ _ (fun y s => sameThreads_stepF _ _ v y s) _) (advanced_leaveNext c f.bnd _))
  · intro x hx hw hl
    rw [(same_leaveNext c f.bnd _).readV]
    refine (readV_stepAll _ _ v (c.on f s) (useWindows c s) x hw hl).trans ?_
    by_cases h : f.dst.idx.toNat = 255
    · simp [h, Warp.readV]
    · simp [h, hx]
  · intro w hw
    rw [(same_leaveNext c f.bnd _).flags]
    exact flags_stepAll _ _ v (c.on f s) (useWindows c s) w hw
  · refine (same_useWindows c s).thenFrame (RegFrame.same ?_ (same_leaveNext c f.bnd _))
    exact regFrame_forEach _ _ (fun a ha s => RegFrame.mono (regFrame_stepF _ _ v a s)
      (fun k w r l h => by obtain ⟨rfl, rfl, rfl⟩ := h; exact ⟨rfl, ha, rfl⟩) none_mono3 none_mono4 (fun _ _ h => h)) _

/-! ## One scalar register per warp -/

theorem writeS_same_but (k w r : Nat) (v : W64) (s : State) :
    RegFrame s (s.writeS k w r v) none4 (fun k' w' r' => k' = k ∧ w' = w ∧ r' = r) none4 none2 where
  outside := ⟨fun _ => rfl, rfl, rfl, rfl, rfl⟩
  special := by
    have h : ∀ {β : Type} (φ : Warp → β), (∀ x a b, φ { x with sregs := a, poison := b } = φ x) →
        ∀ j i, φ ((s.writeS k w r v).warp j i) = φ (s.warp j i) := fun φ hφ j i =>
      State.warp_modWarp_proj s φ k w j i _ fun x => by
        simp only [Warp.writeS]; split
        · rfl
        · exact hφ x _ _
    exact ⟨h Warp.tvec fun _ _ _ => rfl, h Warp.trpc fun _ _ _ => rfl, h Warp.tsch fun _ _ _ => rfl,
      h Warp.trapq fun _ _ _ => rfl, h Warp.handler fun _ _ _ => rfl, fun _ => rfl⟩
  scratch j a := by simp only [Cohort.readSp, State.writeS, State.modWarp_scratch]
  vregs j i r' l' _ := State.warp_modWarp_proj s (fun x => x.readV r' l') k w j i _ fun x =>
    Warp.readV_writeS x r v r' l'
  sregs j i r' hn := by
    simp only [State.writeS, State.warp_modWarp]
    split
    · rename_i h
      rw [h.1, h.2.1]
      exact Warp.readS_writeS_ne _ v fun h3 => hn ⟨h.1, h.2.1, h3⟩
    · rfl
  preds j i l' p _ _ := by
    rw [State.writeS, State.thread_modWarp]
    intro x; simp only [Warp.writeS]; split <;> rfl
  flags j i _ := State.warp_modWarp_proj s Warp.fpflags k w j i _ fun x => by
    simp only [Warp.writeS]; split <;> rfl

theorem readS_writeS (k w r : Nat) (v : W64) (s : State) (h : HasWarp s k w) :
    ((s.writeS k w r v).warp k w).readS r = if r = 63 then 0 else v := by
  simp only [HasWarp] at h
  simp only [State.writeS, State.warp_modWarp]
  simp [h]

/-- What a scalar register reads after one value per warp of a list is written. -/
theorem readS_writeAll (k r : Nat) (v : Nat → W64) (ws : List Nat) (s : State) (w : Nat) (hw : HasWarp s k w) :
    ((forEach ws (fun y => State.writeS k y r (v y)) s).warp k w).readS r =
      if w ∈ ws ∧ r ≠ 63 then v w else (s.warp k w).readS r := by
  induction ws generalizing s with
  | nil => simp [forEach]
  | cons a q ih =>
    refine (ih _ (((sameThreads_writeS k a r (v a) s).hasWarp k w).2 hw)).trans ?_
    by_cases h63 : r = 63
    · subst h63; simp [Warp.readS]
    · by_cases hq : w ∈ q
      · simp [hq, h63]
      · by_cases ha : w = a
        · subst ha
          simp [hq, h63, readS_writeS k w r (v w) s hw]
        · simp only [hq, if_false, h63, ne_eq, not_false_eq_true, and_true, List.mem_cons, or_false, ha]
          exact (writeS_same_but k a r (v a) s).sregs k w r fun h => ha h.2.1

theorem sameThreads_perWarpS (f : Fields) (v : Nat → W64) (c : Iss) (s0 s : State) :
    SameThreads s (perWarp c f s0 (fun w => State.writeS c.coh w f.dst.idx.toNat (v w)) s) :=
  sameThreads_forEach _ _ (fun _ s => sameThreads_writeS _ _ _ _ s) s

theorem regFrame_perWarpS (f : Fields) (v : Nat → W64) (c : Iss) (s : State) :
    RegFrame s (perWarp c f s (fun w => State.writeS c.coh w f.dst.idx.toNat (v w)) s) none4
      (fun k w r => k = c.coh ∧ w ∈ c.warpsOn f s ∧ r = f.dst.idx.toNat) none4 none2 :=
  regFrame_forEach _ _ (fun a ha s => RegFrame.mono (writeS_same_but _ _ _ _ s) none_mono4
    (fun k w r h => by obtain ⟨rfl, rfl, rfl⟩ := h; exact ⟨rfl, ha, rfl⟩) none_mono4 none_mono2) s

/-- An instruction that writes one scalar register per warp, whatever its own checks. -/
theorem writesS_of {chk : Iss → State → Gate} {eff : Iss → State → State}
    (hx : exec i s = issue i f chk (fun c s => leaveNext c f.bnd (eff c s)) s)
    (hc : chk c s = .pass s) (h : Ready i f c s) (v : Nat → W64)
    (he : eff c (useWindows c s) = perWarp c f (useWindows c s) (fun w => State.writeS c.coh w f.dst.idx.toNat (v w))
      (useWindows c s)) : WritesS i f c s v := by
  refine ⟨_, hx.trans (issue_pass h hc _), ?_, ?_, ?_⟩ <;> rw [he]
  · exact (same_useWindows c s).advanced (SameThreads.advanced (sameThreads_perWarpS f v c _ _) (advanced_leaveNext c f.bnd _))
  · intro w hw hh
    rw [(same_leaveNext c f.bnd _).readS]
    refine (readS_writeAll c.coh f.dst.idx.toNat v (c.warpsOn f s) (useWindows c s) w hh).trans ?_
    by_cases h : f.dst.idx.toNat = 63
    · simp [h, Warp.readS]
    · simp [h, hw]
  · exact (same_useWindows c s).thenFrame (RegFrame.same (regFrame_perWarpS f v c (useWindows c s)) (same_leaveNext c f.bnd _))

/-! ## One predicate per thread -/

theorem writeP_same_but (k w l p : Nat) (b : Bool) (s : State) :
    RegFrame s (s.writeP k w l p b) none4 none3 (fun k' w' l' p' => k' = k ∧ w' = w ∧ l' = l ∧ p' = p) none2 where
  outside := ⟨fun _ => rfl, rfl, rfl, rfl, rfl⟩
  special := by
    have h : ∀ {β : Type} (φ : Warp → β), (∀ x a, φ { x with threads := a } = φ x) →
        ∀ j i, φ ((s.writeP k w l p b).warp j i) = φ (s.warp j i) := fun φ hφ j i =>
      State.warp_modThread_proj s φ k w l j i _ fun x a => hφ x a
    exact ⟨h Warp.tvec fun _ _ => rfl, h Warp.trpc fun _ _ => rfl, h Warp.tsch fun _ _ => rfl,
      h Warp.trapq fun _ _ => rfl, h Warp.handler fun _ _ => rfl, fun _ => rfl⟩
  scratch j a := by simp only [Cohort.readSp, State.writeP, State.modThread, State.modWarp_scratch]
  vregs j i r' l' _ := State.warp_modThread_proj s (fun x => x.readV r' l') k w l j i _ fun _ _ => rfl
  sregs j i r' _ := State.warp_modThread_proj s (fun x => x.readS r') k w l j i _ fun _ _ => rfl
  preds j i l' p' hp hn := by
    simp only [State.writeP, State.thread_modThread]
    split
    · rename_i h
      obtain ⟨rfl, rfl, rfl, -, -⟩ := h
      by_cases hp8 : p < 8
      · rw [Thread.readP_writeP _ _ _ _ hp8 hp, if_neg]
        rintro ⟨h, -⟩; exact hn ⟨rfl, rfl, rfl, h⟩
      · have h7 : ¬ p = 7 := by omega
        have hz : ∀ n : Nat, 8 ≤ n → BitVec.twoPow 7 n = 0 := fun n hn => by
          apply BitVec.eq_of_getLsbD_eq; intro j hj; simp; omega
        have ha : ∀ v : BitVec 7, v &&& ~~~(0 : BitVec 7) = v := fun v => BitVec.and_allOnes
        simp only [Thread.writeP, h7, if_false, Thread.readP, hz p (by omega), ha]
        split <;> simp
    · rfl
  flags j i _ := State.warp_modThread_proj s Warp.fpflags k w l j i _ fun _ _ => rfl

theorem readP_writeP (k w l p : Nat) (b : Bool) (s : State) (h : HasThread s k w l) (hp : p < 8) :
    ((s.writeP k w l p b).thread k w l).readP p = if p = 7 then true else b := by
  simp only [HasThread, HasWarp] at h
  simp only [State.writeP, State.thread_modThread, h, and_self, if_true]
  rw [Thread.readP_writeP _ _ _ _ hp hp]
  by_cases h7 : p = 7
  · simp [h7, Thread.readP]
  · simp [h7]

/-- What a predicate reads after one value per thread of a list is written. -/
theorem readP_writeAll (k p : Nat) (hp : p < 8) (v : Nat → Nat → Bool) (ths : List (Nat × Nat)) (s : State) (x : Nat × Nat)
    (hx : HasThread s k x.1 x.2) :
    ((forEach ths (fun y => State.writeP k y.1 y.2 p (v y.1 y.2)) s).thread k x.1 x.2).readP p =
      if x ∈ ths ∧ p ≠ 7 then v x.1 x.2 else (s.thread k x.1 x.2).readP p := by
  induction ths generalizing s with
  | nil => simp [forEach]
  | cons a q ih =>
    refine (ih _ (((sameThreads_writeP k a.1 a.2 p (v a.1 a.2) s).hasThread k x.1 x.2).2 hx)).trans ?_
    by_cases h7 : p = 7
    · subst h7; simp [Thread.readP]
    · by_cases hq : x ∈ q
      · simp [hq, h7]
      · by_cases ha : x = a
        · subst ha
          simp [hq, h7, readP_writeP k x.1 x.2 p (v x.1 x.2) s hx hp]
        · simp only [hq, if_false, h7, ne_eq, not_false_eq_true, and_true, List.mem_cons, or_false, ha]
          exact (writeP_same_but k a.1 a.2 p _ s).preds k x.1 x.2 p hp fun h => ha (Prod.ext h.2.1 h.2.2.1)

/-- An instruction that writes one predicate per thread. -/
theorem writesP_of {eff : Iss → State → State} (hx : exec i s = issueFixed i f eff s) (h : Ready i f c s)
    (v : Nat → Nat → Bool)
    (he : eff c (useWindows c s) = perThread c f (useWindows c s)
      (fun w l => State.writeP c.coh w l f.dst.idx.toNat (v w l)) (useWindows c s)) : WritesP i f c s v := by
  refine ⟨_, hx.trans (issueFixed_ready h _), ?_, ?_, ?_⟩ <;> rw [he]
  · exact (same_useWindows c s).advanced (SameThreads.advanced
      (sameThreads_forEach _ _ (fun _ s => sameThreads_writeP _ _ _ _ _ s) _) (advanced_leaveNext c f.bnd _))
  · intro x hx ht hp
    rw [(same_leaveNext c f.bnd _).readP]
    refine (readP_writeAll c.coh f.dst.idx.toNat hp v (c.on f s) (useWindows c s) x ht).trans ?_
    by_cases h : f.dst.idx.toNat = 7
    · simp [h, Thread.readP]
    · simp [h, hx]
  · refine (same_useWindows c s).thenFrame (RegFrame.same ?_ (same_leaveNext c f.bnd _))
    exact regFrame_forEach _ _ (fun a ha s => RegFrame.mono (writeP_same_but _ _ _ _ _ s) none_mono4 none_mono3
      (fun k w l p h => by obtain ⟨rfl, rfl, rfl, rfl⟩ := h; exact ⟨rfl, ha, rfl⟩) none_mono2) _

/-! ## The shapes of the fixed class -/

theorem writesV_fixed {val : State → Nat → Nat → Nat → W32} (hx : exec i s = issueFixed i f (effV f val) s)
    (h : Ready i f c s) (v : Nat → Nat → W32) (hv : ∀ w l, val (useWindows c s) c.coh w l = v w l) :
    WritesV i f c s v := writesV_of (chk := noCheck) (val := fun _ => val) hx rfl h v hv

theorem writesS_fixed {val : State → Nat → Nat → W64} (hx : exec i s = issueFixed i f (effS f val) s)
    (h : Ready i f c s) (v : Nat → W64) (hv : ∀ w, val (useWindows c s) c.coh w = v w) : WritesS i f c s v := by
  refine writesS_of (chk := noCheck) (eff := effS f val) hx rfl h v ?_
  have : (fun w => val (useWindows c s) c.coh w) = v := funext hv
  simp only [effS, ← this]

theorem writesP_fixed {val : Iss → State → Nat → Nat → Bool}
    (hx : exec i s = issueFixed i f (fun c s => perThread c f s
      (fun w l => State.writeP c.coh w l f.dst.idx.toNat (val c s w l)) s) s)
    (h : Ready i f c s) (v : Nat → Nat → Bool) (hv : ∀ w l, val c (useWindows c s) w l = v w l) : WritesP i f c s v := by
  refine writesP_of hx h v ?_
  have : val c (useWindows c s) = v := funext fun w => funext fun l => hv w l
  simp only [← this]

/-! ## Operations left outstanding -/

theorem find_addOp_ne (o : Op) (s : State) {id : Nat} (h : id ≠ s.nextOp) :
    FMap.find (s.addOp o).ops id = FMap.find s.ops id := FMap.find_put_ne h o s.ops

theorem find_addOp_self (o : Op) (s : State) : FMap.find (s.addOp o).ops s.nextOp = some o :=
  FMap.find_put_self s.nextOp o s.ops

/-- One operation added for each element of a list: their numbers, and the operations before them. -/
theorem ops_addAll {α : Type} (l : List α) (o : α → Op) (s : State) :
    (forEach l (fun w t => t.addOp (o w)) s).nextOp = s.nextOp + l.length ∧
    (∀ j w, l[j]? = some w → FMap.find (forEach l (fun w t => t.addOp (o w)) s).ops (s.nextOp + j) = some (o w)) ∧
    (∀ id, id < s.nextOp → FMap.find (forEach l (fun w t => t.addOp (o w)) s).ops id = FMap.find s.ops id) := by
  induction l generalizing s with
  | nil => exact ⟨rfl, fun j w h => by simp at h, fun _ _ => rfl⟩
  | cons a r ih =>
    obtain ⟨h1, h2, h3⟩ := ih (s.addOp (o a))
    refine ⟨h1.trans (by simp [State.addOp]; omega), fun j w hj => ?_, fun id hid => ?_⟩
    · cases j with
      | zero =>
        have ha : a = w := by simpa using hj
        subst ha
        exact (h3 s.nextOp (Nat.lt_succ_self _)).trans (find_addOp_self (o a) s)
      | succ j =>
        have := h2 j w (by simpa using hj)
        rw [show (s.addOp (o a)).nextOp = s.nextOp + 1 from rfl] at this
        rw [show s.nextOp + (j + 1) = s.nextOp + 1 + j by omega]
        exact this
    · refine (h3 id ?_).trans (find_addOp_ne (o a) s (by omega))
      rw [show (s.addOp (o a)).nextOp = s.nextOp + 1 from rfl]
      omega

theorem sameThreads_addAll {α : Type} (l : List α) (o : α → Op) (s : State) :
    SameThreads s (forEach l (fun w t => t.addOp (o w)) s) :=
  sameThreads_forEach l (fun w t => t.addOp (o w)) (fun _ s => ⟨fun _ => rfl, fun _ _ => rfl, SamePc.refl s⟩) s

theorem same_addAll {α : Type} (l : List α) (o : α → Op) (s : State) :
    Same s (forEach l (fun w t => t.addOp (o w)) s) := same_forEach l _ (fun _ s => same_addOp _ s) s

theorem ops_sendAll (k : Nat) (next : Nat × Nat → W32) (ths : List (Nat × Nat)) (s : State) :
    (forEach ths (fun t => State.modThread k t.1 t.2 fun y => { y with pc := next t, exempt := none }) s).ops = s.ops ∧
    (forEach ths (fun t => State.modThread k t.1 t.2 fun y => { y with pc := next t, exempt := none }) s).nextOp =
      s.nextOp := by
  induction ths generalizing s with
  | nil => exact ⟨rfl, rfl⟩
  | cons a r ih => exact ⟨(ih _).1, (ih _).2⟩

/-- The operations and their next number are as before. -/
structure SameOps (s t : State) : Prop where
  ops : t.ops = s.ops
  next : t.nextOp = s.nextOp

theorem SameOps.refl (s : State) : SameOps s s := ⟨rfl, rfl⟩
theorem SameOps.trans {s t u : State} (h : SameOps s t) (g : SameOps t u) : SameOps s u :=
  ⟨g.ops.trans h.ops, g.next.trans h.next⟩

theorem sameOps_forEach {α : Type} (l : List α) (g : α → State → State) (h : ∀ x s, SameOps s (g x s)) (s : State) :
    SameOps s (forEach l g s) := by
  induction l generalizing s with
  | nil => exact SameOps.refl s
  | cons x r ih => exact (h x s).trans (ih (g x s))

theorem sameOps_setSt (k : Nat) (ths : List (Nat × Nat)) (st : ThSt) (s : State) : SameOps s (setSt k ths st s) :=
  sameOps_forEach ths (fun t => State.modThread k t.1 t.2 fun x => { x with st }) (fun _ _ => ⟨rfl, rfl⟩) s

theorem sameOps_park (core k : Nat) (ths : List (Nat × Nat)) (s : State) : SameOps s (park core k ths s) :=
  (sameOps_setSt k ths .parked s).trans ⟨rfl, rfl⟩

theorem sameOps_putEntry (core e : Nat) (g : Group) (s : State) : SameOps s (putEntry core e g s) :=
  (sameOps_setSt g.coh g.ths .grouped s).trans ⟨rfl, rfl⟩

theorem sameOps_placePart (core : Nat) (g : Group) (s : State) : SameOps s (placePart core g s) := by
  simp only [placePart]; split
  · exact sameOps_putEntry _ _ _ _
  · exact sameOps_park _ _ _ _

theorem sameOps_endRun (c : Iss) (s : State) : SameOps s (endRun c s) := by
  refine SameOps.trans (t := State.modCore c.core (fun k => { k with
      runNo := (s.core c.core).runNo + 1, slots := k.slots.set c.slot none
      entries := k.entries.modify c.ent fun g => { g with ranAt := (s.core c.core).runNo + 1 } }) s) ⟨rfl, rfl⟩ ?_
  refine SameOps.trans (sameOps_forEach c.ths (fun t => State.modThread c.coh t.1 t.2 fun x =>
      { x with spin := x.spin + 1, zeroAt := if x.spin = 0 then (s.core c.core).runNo else x.zeroAt })
    (fun _ _ => ⟨rfl, rfl⟩) _) ?_
  exact SameOps.trans (sameOps_forEach c.warps (fun w => State.modWarp c.coh w fun x => { x with view := x.view + 1 })
    (fun _ _ => ⟨rfl, rfl⟩) _) ⟨rfl, rfl⟩

theorem sameOps_noteHang (c : Iss) (s : State) : SameOps s (noteHang c s) :=
  sameOps_forEach _ (fun (t : Nat × Nat) => State.modThread c.coh t.1 t.2 fun x => { x with hang := true }) (fun _ _ => ⟨rfl, rfl⟩) s

theorem sameOps_leave (c : Iss) (bnd : Bool) (next : Nat × Nat → W32) (s : State) : SameOps s (leave c bnd next s) := by
  have h0 : SameOps s _ := ⟨(ops_sendAll c.coh next c.ths s).1, (ops_sendAll c.coh next c.ths s).2⟩
  simp only [leave]
  split
  · exact h0
  · split
    · exact h0.trans ⟨rfl, rfl⟩
    · refine h0.trans ((sameOps_endRun c _).trans (SameOps.trans ?_ (sameOps_noteHang _ _)))
      have g := fun (more : List (W32 × List (Nat × Nat))) (t : State) => sameOps_forEach more
        (fun p => placePart c.core { coh := c.coh, pc := p.1, ths := p.2 }) (fun _ s => sameOps_placePart _ _ s) t
      exact ⟨(g _ _).ops, (g _ _).next⟩

/-- An instruction that leaves one operation per warp. -/
theorem leaves_of {chk : Iss → State → Gate} {eff : Iss → State → State}
    (hx : exec i s = issue i f chk (fun c s => leaveNext c f.bnd (eff c s)) s)
    (hc : chk c s = .pass s) (h : Ready i f c s) (o : Nat → Op)
    (he : eff c (useWindows c s) = forEach (c.warpsOn f s) (fun w t => t.addOp (o w)) (useWindows c s)) :
    Leaves i f c s o := by
  obtain ⟨h1, h2, h3⟩ := ops_addAll (c.warpsOn f s) o (useWindows c s)
  have hl := sameOps_leave c f.bnd (fun _ => c.pc + 1)
    (forEach (c.warpsOn f s) (fun w t => t.addOp (o w)) (useWindows c s))
  refine ⟨_, hx.trans (issue_pass h hc _), ?_, ?_, ?_, ?_, ?_⟩ <;> rw [he]
  · exact (same_useWindows c s).advanced ((sameThreads_addAll _ _ _).advanced (advanced_leaveNext c f.bnd _))
  · exact ((same_useWindows c s).trans ((same_addAll _ _ _).trans (same_leaveNext c f.bnd _))).regFrame _ _ _ _
  · exact hl.next.trans h1
  · intro j w hj
    rw [leaveNext, hl.ops]
    exact h2 j w hj
  · intro id hid
    rw [leaveNext, hl.ops]
    exact h3 id hid

/-- A long-class scalar instruction. -/
theorem leavesS_of {chk : Iss → State → Gate} {val : State → Nat → Nat → W64}
    (hx : exec i s = issueLongS i f chk val s) (hc : chk c s = .pass s) (h : Ready i f c s) (v : Nat → W64)
    (hv : ∀ w, val (useWindows c s) c.coh w = v w) : LeavesS i f c s v := by
  refine leaves_of (eff := fun c s => forEach (c.warpsOn f s) (fun w t =>
    addCalc i f c w (c.lanesOn f s w) [.s f.dst.idx.toNat (val s c.coh w)] 0 t) s) hx hc h _ ?_
  simp only [hv]; rfl

/-- A long-class vector instruction. -/
theorem leavesV_of {val : State → Nat → Nat → Nat → W32 × BitVec 5}
    (hx : exec i s = issueLongV i f val s) (h : Ready i f c s) (v : Nat → Nat → W32 × BitVec 5)
    (hv : ∀ w l, val (useWindows c s) c.coh w l = v w l) : LeavesV i f c s v := by
  refine leaves_of (chk := noCheck) (eff := fun c s => forEach (c.warpsOn f s) (fun w t =>
      let lanes := c.lanesOn f s w
      addCalc i f c w lanes (lanes.map fun l => .v f.dst.idx.toNat l (val s c.coh w l).1)
        (lanes.foldl (fun a l => a ||| (val s c.coh w l).2) 0) t) s) hx rfl h _ ?_
  simp only [hv]; rfl

end Sys2Proof.Laws
end

