-- ==== Sys2Proof/Laws/Memory.lean ====
section
/-! SUPPORT. Memory: its canonical form, which every memory operation keeps; equal readings make equal memories; what a store
of bytes leaves alone; and the operations around a store that change no byte. -/

namespace Sys2Proof.Laws

open Sys2Proof.Machine

/-! ## The canonical form -/

theorem find_lt {α : Type} {m : FMap α} {lo k : Nat} (h : FMap.sortedFrom lo m = true) (hk : k < lo) :
    FMap.find m k = none := by
  induction m generalizing lo with
  | nil => rfl
  | cons e r ih =>
    obtain ⟨j, x⟩ := e
    simp only [FMap.sortedFrom, Bool.and_eq_true, decide_eq_true_eq] at h
    rw [FMap.find, if_neg (by omega)]
    exact ih h.2 (by omega)

/-- Two tables in canonical form that read alike at every key are equal. -/
theorem canonical_ext {α : Type} [DecidableEq α] (d : α) {m n : FMap α} (hm : FMap.wf d m = true) (hn : FMap.wf d n = true)
    (h : ∀ k, FMap.getD d m k = FMap.getD d n k) : m = n := by
  simp only [FMap.wf, Bool.and_eq_true, List.all_eq_true, decide_eq_true_eq] at hm hn
  obtain ⟨hm, vm⟩ := hm
  obtain ⟨hn, vn⟩ := hn
  suffices H : ∀ lo, FMap.sortedFrom lo m = true → FMap.sortedFrom lo n = true → m = n from H 0 hm hn
  clear hm hn
  induction m generalizing n with
  | nil =>
    intro lo _ _
    cases n with
    | nil => rfl
    | cons e r =>
      obtain ⟨j, x⟩ := e
      have := h j
      simp only [FMap.getD, FMap.find, if_true, Option.getD] at this
      exact absurd this.symm (vn (j, x) (by simp))
  | cons e r ih =>
    obtain ⟨i, x⟩ := e
    intro lo hs hs'
    cases n with
    | nil =>
      have := h i
      simp only [FMap.getD, FMap.find, if_true, Option.getD] at this
      exact absurd this (vm (i, x) (by simp))
    | cons e' r' =>
      obtain ⟨j, y⟩ := e'
      simp only [FMap.sortedFrom, Bool.and_eq_true, decide_eq_true_eq] at hs hs'
      have hij : i = j := by
        rcases Nat.lt_trichotomy i j with hl | he | hl
        · have := h i
          simp only [FMap.getD, FMap.find, if_true, if_neg (show ¬ j = i by omega),
            find_lt hs'.2 (show i < j + 1 by omega), Option.getD] at this
          exact absurd this (vm (i, x) (by simp))
        · exact he
        · have := h j
          simp only [FMap.getD, FMap.find, if_true, if_neg (show ¬ i = j by omega),
            find_lt hs.2 (show j < i + 1 by omega), Option.getD] at this
          exact absurd this.symm (vn (j, y) (by simp))
      subst hij
      have hxy : x = y := by
        have := h i
        simpa only [FMap.getD, FMap.find, if_true, Option.getD] using this
      subst hxy
      congr 1
      refine ih (fun k => ?_) (fun e he => vm e (by simp [he])) (fun e he => vn e (by simp [he])) (i + 1) hs.2 hs'.2
      by_cases hk : i = k
      · subst hk
        simp only [FMap.getD, find_lt hs.2 (Nat.lt_succ_self i), find_lt hs'.2 (Nat.lt_succ_self i)]
      · have := h k
        simpa only [FMap.getD, FMap.find, if_neg hk] using this

/-- The change from `s` to `t` keeps memory's canonical form. -/
def KeepsForm (s t : State) : Prop := Memory.wf s.mem = true → Memory.wf t.mem = true

theorem KeepsForm.refl (s : State) : KeepsForm s s := id
theorem KeepsForm.trans {s t u : State} (h : KeepsForm s t) (g : KeepsForm t u) : KeepsForm s u := g ∘ h
theorem KeepsForm.of_mem {s t : State} (h : t.mem = s.mem) : KeepsForm s t := fun w => by rw [h]; exact w

theorem keepsForm_forEach {α : Type} (l : List α) (f : α → State → State) (h : ∀ x s, KeepsForm s (f x s)) (s : State) :
    KeepsForm s (forEach l f s) := by
  unfold forEach
  induction l generalizing s with
  | nil => exact KeepsForm.refl s
  | cons x r ih => exact (h x s).trans (ih (f x s))

theorem keepsForm_setByte (a : Nat) (b : Byte) (s : State) : KeepsForm s (s.setByte a b) := fun h => FMap.wf_set _ _ _ h

theorem keepsForm_setBytes (bs : List (Nat × Byte)) (s : State) : KeepsForm s (s.setBytes bs) :=
  keepsForm_forEach bs _ (fun e s => keepsForm_setByte e.1 e.2 s) s

/-! ## What changes no byte -/

theorem mem_forEach {α : Type} (l : List α) (f : α → State → State) (h : ∀ x s, (f x s).mem = s.mem) (s : State) :
    (forEach l f s).mem = s.mem := by
  unfold forEach
  induction l generalizing s with
  | nil => rfl
  | cons x r ih => exact (ih (f x s)).trans (h x s)

@[simp] theorem setHome_mem (line w e ret : Nat) (s : State) : (s.setHome line w e ret).mem = s.mem := by
  unfold State.setHome
  split
  · rfl
  · split
    · dsimp only
      split
      · rfl
      · split <;> rfl
    · dsimp only
      rw [mem_forEach _ State.raiseFloor fun _ _ => rfl]

@[simp] theorem stampWrite_mem (line vreq ret : Nat) (s : State) : (s.stampWrite line vreq ret).mem = s.mem :=
  setHome_mem ..

theorem homeStore_mem (line vreq ret : Nat) (bs : List (Nat × Byte)) (s : State) :
    (s.homeStore line vreq ret bs).1.mem = (s.setBytes bs).mem := by
  suffices H : ∀ t u : State, t.mem = u.mem → (t.setBytes bs).mem = (u.setBytes bs).mem from H _ _ (stampWrite_mem ..)
  unfold State.setBytes forEach
  induction bs with
  | nil => exact fun _ _ h => h
  | cons e r ih => exact fun t u h => ih _ _ (by simp only [State.setByte, h])

theorem keepsForm_homeStore (line vreq ret : Nat) (bs : List (Nat × Byte)) (s : State) :
    KeepsForm s (s.homeStore line vreq ret bs).1 :=
  (KeepsForm.of_mem (stampWrite_mem line vreq ret s)).trans (keepsForm_setBytes bs _)

theorem setPcs_mem (k : Nat) (ths : List (Nat × Nat)) (pc : W32) (s : State) : (setPcs k ths pc s).mem = s.mem := by
  unfold setPcs
  rw [mem_forEach]
  exact fun _ _ => rfl

@[simp] theorem finishOp_mem (id : Nat) (s : State) : (finishOp id s).mem = s.mem := by
  unfold finishOp
  split
  · rfl
  · dsimp only
    rw [mem_forEach _ (fun g : Group => setPcs g.coh g.ths (g.pc + 1)) fun g s => setPcs_mem ..]
    rfl

@[simp] theorem wakeWaits_mem (k : Nat) (s : State) : (wakeWaits k s).mem = s.mem := by
  refine mem_forEach _ _ (fun e s => ?_) s
  dsimp only
  split
  · split
    · exact finishOp_mem ..
    · rfl
  · split
    · rfl
    · exact finishOp_mem ..
  · rfl

@[simp] theorem completeOp_mem (id : Nat) (s : State) : (completeOp id s).mem = s.mem := by
  unfold completeOp
  split
  · rfl
  · exact (wakeWaits_mem ..).trans (finishOp_mem ..)

@[simp] theorem progress_mem (core k : Nat) (ths : List (Nat × Nat)) (s : State) : (progress core k ths s).mem = s.mem := by
  unfold progress
  rw [mem_forEach]
  exact fun _ _ => rfl

@[simp] theorem waitcReturn_mem (id : Nat) (s : State) : (waitcReturn id s).mem = s.mem := by
  unfold waitcReturn
  split
  · dsimp only
    split
    · exact (completeOp_mem ..).trans (progress_mem ..)
    · rfl
  · rfl

@[simp] theorem fireMonitors_mem (line : Nat) (s : State) : (fireMonitors line s).mem = s.mem :=
  mem_forEach _ _ waitcReturn_mem s

theorem keepsForm_devStore (ctx va n v vreq : Nat) (s : State) : KeepsForm s (devStore ctx va n v vreq s).1 := by
  unfold devStore
  split
  · exact (keepsForm_homeStore _ _ _ _ s).trans (KeepsForm.of_mem (fireMonitors_mem ..))
  all_goals exact KeepsForm.refl s

theorem keepsForm_devPut (ctx va : Nat) (bs : List Byte) (s : State) : KeepsForm s (devPut ctx va bs s) := by
  refine keepsForm_forEach _ _ (fun ch s => ?_) s
  dsimp only
  split
  · exact (keepsForm_homeStore _ _ _ _ s).trans (KeepsForm.of_mem (fireMonitors_mem ..))
  all_goals exact KeepsForm.refl s

/-- What a save writes into its slot or an image (07 R146, R152). -/
theorem keepsForm_writePrivate (ctx va n : Nat) (s : State) : KeepsForm s (writePrivate ctx va n s) := by
  refine keepsForm_forEach _ _ (fun ch s => ?_) s
  dsimp only
  split
  · exact (KeepsForm.of_mem (s := s) (t := { s with free := s.free + 1 }) rfl).trans
      ((keepsForm_homeStore _ _ _ _ _).trans (KeepsForm.of_mem (fireMonitors_mem ..)))
  all_goals exact KeepsForm.refl s

theorem keepsForm_writeImage (own ctx va units : Nat) (s : State) : KeepsForm s (writeImage own ctx va units s).1 :=
  (keepsForm_writePrivate own va (4096 * units) s).trans (KeepsForm.of_mem rfl)

/-- An undo record's store, or its loss in the fabric (22 R418). -/
theorem keepsForm_restoreUndo (coh vreq : Nat) (u : Undo) (a : State × Nat) :
    KeepsForm a.1 (restoreUndo coh vreq u a).1 := by
  have key : ∀ s : State, s.mem = a.1.mem → ∀ line bs,
      KeepsForm a.1 (fireMonitors line (s.homeStore line vreq 0 bs).1) := fun s h line bs =>
    (KeepsForm.of_mem h).trans ((keepsForm_homeStore _ _ _ _ s).trans (KeepsForm.of_mem (fireMonitors_mem ..)))
  unfold restoreUndo
  dsimp only
  split <;> split
  · exact KeepsForm.of_mem rfl
  · exact key ((a.1.modCore _ (Core.l1Drop u.line)).rdcDrop _ u.line) rfl _ _
  · exact KeepsForm.of_mem rfl
  · exact key (a.1.modCore _ (Core.l1Drop u.line)) rfl _ _

theorem keepsForm_hostStore (bs : List (Nat × Byte)) (s : State) : KeepsForm s (hostStore bs s) := by
  refine keepsForm_forEach _ _ (fun line s => ?_) s
  have h : KeepsForm s (s.dropEverywhere line) := KeepsForm.of_mem rfl
  exact (h.trans (keepsForm_homeStore line 0 0 (onLine line bs) _)).trans (KeepsForm.of_mem (fireMonitors_mem ..))

/-! ## What a store leaves alone -/

/-- A store of bytes changes no other byte. -/
theorem byte_setBytes_ne (bs : List (Nat × Byte)) (s : State) (a : Nat) (h : ∀ e ∈ bs, e.1 ≠ a) :
    (s.setBytes bs).byte a = s.byte a := by
  unfold State.setBytes forEach
  induction bs generalizing s with
  | nil => rfl
  | cons e r ih =>
    refine (ih (s.setByte e.1 e.2) fun e he => h e (by simp [he])).trans ?_
    exact State.byte_setByte_ne s _ (fun ha => h e (by simp) ha.symm)

/-- A store at a home changes no other byte. -/
theorem byte_homeStore_ne (line vreq ret : Nat) (bs : List (Nat × Byte)) (s : State) (a : Nat) (h : ∀ e ∈ bs, e.1 ≠ a) :
    (s.homeStore line vreq ret bs).1.byte a = s.byte a := by
  unfold State.byte
  rw [homeStore_mem]
  exact byte_setBytes_ne bs s a h

end Sys2Proof.Laws
end

