-- ==== Sys2Proof/Laws/PerInstr.lean ====
section
/-! SUPPORT. One lemma per constructor: the opcode and the fields of a well-formed instruction name it again. -/

namespace Sys2Proof.Laws.Roundtrip

/-- The opcode map (02 R45) gives the instruction back from its OPC and its fields. An event has neither. -/
def Statement (i : Instr) : Prop :=
  WellFormed i = true → ∀ o f, opcOf i = some o → fieldsOf i = some f → instrOf o f = some i

/-- A constructor whose opcode names no other. -/
theorem of_plain {i : Instr} {o : Nat} {f : Fields} (ho : opcOf i = some o) (hf : fieldsOf i = some f)
    (h : instrOf o f = some i) : Statement i := by
  intro _ o' f' ho' hf'
  rw [ho] at ho'; rw [hf] at hf'
  cases ho'; cases hf'; exact h

/-- An event has no encoding. -/
theorem of_event {i : Instr} (ho : opcOf i = none) : Statement i := by
  intro _ o f h _
  rw [ho] at h; cases h

/-- A well-formed word holds accepted values of MOD and IMM. -/
theorem modes_ok {e : Enc} {f : Fields} (h : e.firstFail f (fun _ => true) 256 false = none) :
    e.modOk = true ∧ e.immOk = true := by
  cases hm : e.modOk <;> cases hi : e.immOk <;> simp_all [Enc.firstFail] <;> grind

/-- A constructor that shares its opcode: the accepted modes tell it apart. -/
theorem of_mode {i : Instr} {o : Nat} {f : Fields} {e : Enc} (ho : opcOf i = some o) (hf : fieldsOf i = some f)
    (he : encOf i = some e) (h : e.modOk = true ∧ e.immOk = true → instrOf o f = some i) : Statement i := by
  intro hw o' f' ho' hf'
  rw [ho] at ho'; rw [hf] at hf'
  cases ho'; cases hf'
  refine h (modes_ok (f := f) ?_)
  simpa [WellFormed, he, hf] using hw

theorem nop (f : Fields) : Statement (.nop f) := of_plain rfl rfl rfl
theorem bra (f : Fields) : Statement (.bra f) := of_plain rfl rfl rfl
theorem brx (f : Fields) : Statement (.brx f) := of_plain rfl rfl rfl
theorem call (f : Fields) : Statement (.call f) := of_plain rfl rfl rfl
theorem callx (f : Fields) : Statement (.callx f) := of_plain rfl rfl rfl
theorem ret (f : Fields) : Statement (.ret f) := of_plain rfl rfl rfl
theorem vbra (f : Fields) : Statement (.vbra f) := of_plain rfl rfl rfl
theorem reform (f : Fields) : Statement (.reform f) := of_plain rfl rfl rfl
theorem wconv (f : Fields) : Statement (.wconv f) := of_plain rfl rfl rfl
theorem exit (f : Fields) : Statement (.exit f) := of_plain rfl rfl rfl
theorem yield (f : Fields) : Statement (.yield f) := of_plain rfl rfl rfl
theorem loopd (f : Fields) : Statement (.loopd f) := of_plain rfl rfl rfl
theorem sadd (f : Fields) : Statement (.sadd f) := of_plain rfl rfl rfl
theorem ssub (f : Fields) : Statement (.ssub f) := of_plain rfl rfl rfl
theorem smul (f : Fields) : Statement (.smul f) := of_plain rfl rfl rfl
theorem smulh (f : Fields) : Statement (.smulh f) := of_plain rfl rfl rfl
theorem sdiv (f : Fields) : Statement (.sdiv f) := of_plain rfl rfl rfl
theorem srem (f : Fields) : Statement (.srem f) := of_plain rfl rfl rfl
theorem sand (f : Fields) : Statement (.sand f) := of_plain rfl rfl rfl
theorem sor (f : Fields) : Statement (.sor f) := of_plain rfl rfl rfl
theorem sxor (f : Fields) : Statement (.sxor f) := of_plain rfl rfl rfl
theorem sshl (f : Fields) : Statement (.sshl f) := of_plain rfl rfl rfl
theorem sshr (f : Fields) : Statement (.sshr f) := of_plain rfl rfl rfl
theorem smin (f : Fields) : Statement (.smin f) := of_plain rfl rfl rfl
theorem smax (f : Fields) : Statement (.smax f) := of_plain rfl rfl rfl
theorem scmp (f : Fields) : Statement (.scmp f) := of_plain rfl rfl rfl
theorem ssel (f : Fields) : Statement (.ssel f) := of_plain rfl rfl rfl
theorem smov (f : Fields) : Statement (.smov f) := of_plain rfl rfl rfl
theorem smovi (f : Fields) : Statement (.smovi f) := of_plain rfl rfl rfl
theorem sclz (f : Fields) : Statement (.sclz f) := of_plain rfl rfl rfl
theorem spopc (f : Fields) : Statement (.spopc f) := of_plain rfl rfl rfl
theorem saddr (f : Fields) : Statement (.saddr f) := of_plain rfl rfl rfl
theorem iadd (f : Fields) : Statement (.iadd f) := of_plain rfl rfl rfl
theorem isub (f : Fields) : Statement (.isub f) := of_plain rfl rfl rfl
theorem imul (f : Fields) : Statement (.imul f) := of_plain rfl rfl rfl
theorem imad (f : Fields) : Statement (.imad f) := of_plain rfl rfl rfl
theorem idiv (f : Fields) : Statement (.idiv f) := of_plain rfl rfl rfl
theorem irem (f : Fields) : Statement (.irem f) := of_plain rfl rfl rfl
theorem imin (f : Fields) : Statement (.imin f) := of_plain rfl rfl rfl
theorem imax (f : Fields) : Statement (.imax f) := of_plain rfl rfl rfl
theorem iabs (f : Fields) : Statement (.iabs f) := of_plain rfl rfl rfl
theorem ineg (f : Fields) : Statement (.ineg f) := of_plain rfl rfl rfl
theorem iand (f : Fields) : Statement (.iand f) := of_plain rfl rfl rfl
theorem ior (f : Fields) : Statement (.ior f) := of_plain rfl rfl rfl
theorem ixor (f : Fields) : Statement (.ixor f) := of_plain rfl rfl rfl
theorem inot (f : Fields) : Statement (.inot f) := of_plain rfl rfl rfl
theorem ishl (f : Fields) : Statement (.ishl f) := of_plain rfl rfl rfl
theorem ishr (f : Fields) : Statement (.ishr f) := of_plain rfl rfl rfl
theorem irot (f : Fields) : Statement (.irot f) := of_plain rfl rfl rfl
theorem icmp (f : Fields) : Statement (.icmp f) := of_plain rfl rfl rfl
theorem isel (f : Fields) : Statement (.isel f) := of_plain rfl rfl rfl
theorem ipopc (f : Fields) : Statement (.ipopc f) := of_plain rfl rfl rfl
theorem iclz (f : Fields) : Statement (.iclz f) := of_plain rfl rfl rfl
theorem ibfx (f : Fields) : Statement (.ibfx f) := of_plain rfl rfl rfl
theorem ibfi (f : Fields) : Statement (.ibfi f) := of_plain rfl rfl rfl
theorem iaddc (f : Fields) : Statement (.iaddc f) := of_plain rfl rfl rfl
theorem idot4 (f : Fields) : Statement (.idot4 f) := of_plain rfl rfl rfl
theorem lea (f : Fields) : Statement (.lea f) := of_plain rfl rfl rfl
theorem fadd (f : Fields) : Statement (.fadd f) := of_plain rfl rfl rfl
theorem fsub (f : Fields) : Statement (.fsub f) := of_plain rfl rfl rfl
theorem fmul (f : Fields) : Statement (.fmul f) := of_plain rfl rfl rfl
theorem ffma (f : Fields) : Statement (.ffma f) := of_plain rfl rfl rfl
theorem fmin (f : Fields) : Statement (.fmin f) := of_plain rfl rfl rfl
theorem fmax (f : Fields) : Statement (.fmax f) := of_plain rfl rfl rfl
theorem fcmp (f : Fields) : Statement (.fcmp f) := of_plain rfl rfl rfl
theorem frcp (f : Fields) : Statement (.frcp f) := of_plain rfl rfl rfl
theorem frsq (f : Fields) : Statement (.frsq f) := of_plain rfl rfl rfl
theorem fsqrt (f : Fields) : Statement (.fsqrt f) := of_plain rfl rfl rfl
theorem fdiv (f : Fields) : Statement (.fdiv f) := of_plain rfl rfl rfl
theorem fexp2 (f : Fields) : Statement (.fexp2 f) := of_plain rfl rfl rfl
theorem flog2 (f : Fields) : Statement (.flog2 f) := of_plain rfl rfl rfl
theorem fsin (f : Fields) : Statement (.fsin f) := of_plain rfl rfl rfl
theorem fcos (f : Fields) : Statement (.fcos f) := of_plain rfl rfl rfl
theorem ffrc (f : Fields) : Statement (.ffrc f) := of_plain rfl rfl rfl
theorem frint (f : Fields) : Statement (.frint f) := of_plain rfl rfl rfl
theorem fclass (f : Fields) : Statement (.fclass f) := of_plain rfl rfl rfl
theorem fldexp (f : Fields) : Statement (.fldexp f) := of_plain rfl rfl rfl
theorem hfma2 (f : Fields) : Statement (.hfma2 f) := of_plain rfl rfl rfl
theorem hadd2 (f : Fields) : Statement (.hadd2 f) := of_plain rfl rfl rfl
theorem hmul2 (f : Fields) : Statement (.hmul2 f) := of_plain rfl rfl rfl
theorem cvt (f : Fields) : Statement (.cvt f) := of_plain rfl rfl rfl
theorem cvtfi (f : Fields) : Statement (.cvtfi f) := of_plain rfl rfl rfl
theorem cvtif (f : Fields) : Statement (.cvtif f) := of_plain rfl rfl rfl
theorem cvtn (f : Fields) : Statement (.cvtn f) := of_plain rfl rfl rfl
theorem cvtw (f : Fields) : Statement (.cvtw f) := of_plain rfl rfl rfl
theorem prmb (f : Fields) : Statement (.prmb f) := of_plain rfl rfl rfl
theorem sclx (f : Fields) : Statement (.sclx f) := of_plain rfl rfl rfl
theorem mov (f : Fields) : Statement (.mov f) := of_plain rfl rfl rfl
theorem movi (f : Fields) : Statement (.movi f) := of_plain rfl rfl rfl
theorem movs (f : Fields) : Statement (.movs f) := of_plain rfl rfl rfl
theorem rdl (f : Fields) : Statement (.rdl f) := of_plain rfl rfl rfl
theorem shfl (f : Fields) : Statement (.shfl f) := of_plain rfl rfl rfl
theorem vote (f : Fields) : Statement (.vote f) := of_plain rfl rfl rfl
theorem plop (f : Fields) : Statement (.plop f) := of_plain rfl rfl rfl
theorem p2v (f : Fields) : Statement (.p2v f) := of_plain rfl rfl rfl
theorem v2p (f : Fields) : Statement (.v2p f) := of_plain rfl rfl rfl
theorem rdsp (f : Fields) : Statement (.rdsp f) := of_plain rfl rfl rfl
theorem matchv (f : Fields) : Statement (.matchv f) := of_plain rfl rfl rfl
theorem ld (f : Fields) : Statement (.ld f) := of_plain rfl rfl rfl
theorem st (f : Fields) : Statement (.st f) := of_plain rfl rfl rfl
theorem sld (f : Fields) : Statement (.sld f) := of_plain rfl rfl rfl
theorem sst (f : Fields) : Statement (.sst f) := of_plain rfl rfl rfl
theorem lds (f : Fields) : Statement (.lds f) := of_plain rfl rfl rfl
theorem sts (f : Fields) : Statement (.sts f) := of_plain rfl rfl rfl
theorem ldk (f : Fields) : Statement (.ldk f) := of_plain rfl rfl rfl
theorem pref (f : Fields) : Statement (.pref f) := of_plain rfl rfl rfl
theorem evict (f : Fields) : Statement (.evict f) := of_plain rfl rfl rfl
theorem acopy (f : Fields) : Statement (.acopy f) := of_plain rfl rfl rfl
theorem agath (f : Fields) : Statement (.agath f) := of_plain rfl rfl rfl
theorem ascat (f : Fields) : Statement (.ascat f) := of_plain rfl rfl rfl
theorem ablkg (f : Fields) : Statement (.ablkg f) := of_plain rfl rfl rfl
theorem ablks (f : Fields) : Statement (.ablks f) := of_plain rfl rfl rfl
theorem axpose (f : Fields) : Statement (.axpose f) := of_plain rfl rfl rfl
theorem subs (f : Fields) : Statement (.subs f) := of_plain rfl rfl rfl
theorem slotw (f : Fields) : Statement (.slotw f) := of_plain rfl rfl rfl
theorem slotf (f : Fields) : Statement (.slotf f) := of_plain rfl rfl rfl
theorem ftest (f : Fields) : Statement (.ftest f) := of_plain rfl rfl rfl
theorem fcancel (f : Fields) : Statement (.fcancel f) := of_plain rfl rfl rfl
theorem fwait (f : Fields) : Statement (.fwait f) := of_plain rfl rfl rfl
theorem rfence (f : Fields) : Statement (.rfence f) := of_plain rfl rfl rfl
theorem atom (f : Fields) : Statement (.atom f) := of_plain rfl rfl rfl
theorem atoms (f : Fields) : Statement (.atoms f) := of_plain rfl rfl rfl
theorem satom (f : Fields) : Statement (.satom f) := of_plain rfl rfl rfl
theorem redc (f : Fields) : Statement (.redc f) := of_plain rfl rfl rfl
theorem fence (f : Fields) : Statement (.fence f) := of_plain rfl rfl rfl
theorem bar (f : Fields) : Statement (.bar f) :=
  of_mode (e := encBar 0 f) rfl rfl rfl fun h => by
    have h0 : f.immBits 5 4 = 0 := by
      have := h.2; simp [encBar] at this; exact this.2
    show some (if f.immBits 5 4 = 1 then Instr.barArv f else if f.immBits 5 4 = 2 then .barWt f else .bar f) = _
    simp [h0]
theorem barArv (f : Fields) : Statement (.barArv f) :=
  of_mode (e := encBar 1 f) rfl rfl rfl fun h => by
    have h0 : f.immBits 5 4 = 1 := by
      have := h.2; simp [encBar] at this; exact this.2
    show some (if f.immBits 5 4 = 1 then Instr.barArv f else if f.immBits 5 4 = 2 then .barWt f else .bar f) = _
    simp [h0]
theorem barWt (f : Fields) : Statement (.barWt f) :=
  of_mode (e := encBar 2 f) rfl rfl rfl fun h => by
    have h0 : f.immBits 5 4 = 2 := by
      have := h.2; simp [encBar] at this; exact this.2
    show some (if f.immBits 5 4 = 1 then Instr.barArv f else if f.immBits 5 4 = 2 then .barWt f else .bar f) = _
    simp [h0]
theorem waitc (f : Fields) : Statement (.waitc f) := of_plain rfl rfl rfl
theorem succok (f : Fields) : Statement (.succok f) := of_plain rfl rfl rfl
theorem waitpred (f : Fields) : Statement (.waitpred f) := of_plain rfl rfl rfl
theorem mbxput (f : Fields) : Statement (.mbxput f) := of_plain rfl rfl rfl
theorem mbxget (f : Fields) : Statement (.mbxget f) := of_plain rfl rfl rfl
theorem mmcfg (f : Fields) : Statement (.mmcfg f) :=
  of_mode (e := encI 8 0xFFF posNone { kinds := [.scalar, .karg] } posNone f) rfl rfl rfl fun h => by
    have h0 : f.modn < 8 := by have := h.1; simpa [encI] using this
    have h1 : f.modn / 8 = 0 := by omega
    show some (if f.modn / 8 % 2 = 1 then Instr.mmcfgRel f else .mmcfg f) = _
    simp [h1]
theorem mmcfgRel (f : Fields) : Statement (.mmcfgRel f) :=
  of_mode (e := { modOk := 8 ≤ f.modn && f.modn < 16, immOk := f.imm = 0 }) rfl rfl rfl fun h => by
    have h0 : 8 ≤ f.modn ∧ f.modn < 16 := by have := h.1; simpa using this
    have h1 : f.modn / 8 = 1 := by omega
    show some (if f.modn / 8 % 2 = 1 then Instr.mmcfgRel f else .mmcfg f) = _
    simp [h1]
theorem mmzero (f : Fields) : Statement (.mmzero f) := of_plain rfl rfl rfl
theorem mmready (f : Fields) : Statement (.mmready f) := of_plain rfl rfl rfl
theorem mmloop (f : Fields) : Statement (.mmloop f) := of_plain rfl rfl rfl
theorem mmscale (f : Fields) : Statement (.mmscale f) := of_plain rfl rfl rfl
theorem mmdrain (f : Fields) : Statement (.mmdrain f) := of_plain rfl rfl rfl
theorem mmstore (f : Fields) : Statement (.mmstore f) := of_plain rfl rfl rfl
theorem mmload (f : Fields) : Statement (.mmload f) := of_plain rfl rfl rfl
theorem mmwait (f : Fields) : Statement (.mmwait f) := of_plain rfl rfl rfl
theorem mmstat (f : Fields) : Statement (.mmstat f) := of_plain rfl rfl rfl
theorem wspawn (f : Fields) : Statement (.wspawn f) := of_plain rfl rfl rfl
theorem wkill (f : Fields) : Statement (.wkill f) := of_plain rfl rfl rfl
theorem waddc (f : Fields) : Statement (.waddc f) := of_plain rfl rfl rfl
theorem wremc (f : Fields) : Statement (.wremc f) := of_plain rfl rfl rfl
theorem wsync (f : Fields) : Statement (.wsync f) := of_plain rfl rfl rfl
theorem wqry (f : Fields) : Statement (.wqry f) := of_plain rfl rfl rfl
theorem wnext (f : Fields) : Statement (.wnext f) := of_plain rfl rfl rfl
theorem wclose (f : Fields) : Statement (.wclose f) := of_plain rfl rfl rfl
theorem wres (f : Fields) : Statement (.wres f) := of_plain rfl rfl rfl
theorem wcol (f : Fields) : Statement (.wcol f) := of_plain rfl rfl rfl
theorem tspawn (f : Fields) : Statement (.tspawn f) := of_plain rfl rfl rfl
theorem wdnext (f : Fields) : Statement (.wdnext f) := of_plain rfl rfl rfl
theorem resq (f : Fields) : Statement (.resq f) := of_plain rfl rfl rfl
theorem respin (f : Fields) : Statement (.respin f) := of_plain rfl rfl rfl
theorem asdecl (f : Fields) : Statement (.asdecl f) := of_plain rfl rfl rfl
theorem asseal (f : Fields) : Statement (.asseal f) := of_plain rfl rfl rfl
theorem asstat (f : Fields) : Statement (.asstat f) := of_plain rfl rfl rfl
theorem reggrow (f : Fields) : Statement (.reggrow f) := of_plain rfl rfl rfl
theorem regshr (f : Fields) : Statement (.regshr f) := of_plain rfl rfl rfl
theorem prio (f : Fields) : Statement (.prio f) := of_plain rfl rfl rfl
theorem launch (f : Fields) : Statement (.launch f) := of_plain rfl rfl rfl
theorem texs (f : Fields) : Statement (.texs f) := of_plain rfl rfl rfl
theorem texl (f : Fields) : Statement (.texl f) := of_plain rfl rfl rfl
theorem texg (f : Fields) : Statement (.texg f) := of_plain rfl rfl rfl
theorem texq (f : Fields) : Statement (.texq f) := of_plain rfl rfl rfl
theorem twfence (f : Fields) : Statement (.twfence f) := of_plain rfl rfl rfl
theorem rayq (f : Fields) : Statement (.rayq f) := of_plain rfl rfl rfl
theorem texd (f : Fields) : Statement (.texd f) := of_plain rfl rfl rfl
theorem trap (f : Fields) : Statement (.trap f) := of_plain rfl rfl rfl
theorem tret (f : Fields) : Statement (.tret f) := of_plain rfl rfl rfl
theorem rdtrap (f : Fields) : Statement (.rdtrap f) := of_plain rfl rfl rfl
theorem preempt (f : Fields) : Statement (.preempt f) := of_plain rfl rfl rfl
theorem ctxsave (f : Fields) : Statement (.ctxsave f) := of_plain rfl rfl rfl
theorem ctxload (f : Fields) : Statement (.ctxload f) := of_plain rfl rfl rfl
theorem rdsr (f : Fields) : Statement (.rdsr f) := of_plain rfl rfl rfl
theorem wrsr (f : Fields) : Statement (.wrsr f) := of_plain rfl rfl rfl
theorem caprd (f : Fields) : Statement (.caprd f) := of_plain rfl rfl rfl
theorem rdcyc (f : Fields) : Statement (.rdcyc f) := of_plain rfl rfl rfl
theorem ebud (f : Fields) : Statement (.ebud f) := of_plain rfl rfl rfl
theorem eresv (f : Fields) : Statement (.eresv f) := of_plain rfl rfl rfl
theorem hcall (f : Fields) : Statement (.hcall f) := of_plain rfl rfl rfl
theorem arbitrationRound (core : Nat) (slot : Nat) : Statement (.arbitrationRound core slot) := of_event rfl
theorem runForcedBoundary (core : Nat) (slot : Nat) : Statement (.runForcedBoundary core slot) := of_event rfl
theorem binAgeExpiry (core : Nat) (bin : Nat) : Statement (.binAgeExpiry core bin) := of_event rfl
theorem yieldBackoffExpiry (core : Nat) (entry : Nat) : Statement (.yieldBackoffExpiry core entry) := of_event rfl
theorem hangTrap (core : Nat) (entry : Nat) : Statement (.hangTrap core entry) := of_event rfl
theorem reggrowGrant (core : Nat) : Statement (.reggrowGrant core) := of_event rfl
theorem reggrowFailure (core : Nat) : Statement (.reggrowFailure core) := of_event rfl
theorem breakpoint (core : Nat) (slot : Nat) : Statement (.breakpoint core slot) := of_event rfl
theorem trapDelivery (cohort : Nat) (warp : Nat) : Statement (.trapDelivery cohort warp) := of_event rfl
theorem longInstructionCompletion (op : Nat) : Statement (.longInstructionCompletion op) := of_event rfl
theorem cohortSave (cohort : Nat) : Statement (.cohortSave cohort) := of_event rfl
theorem pfallExpiry (cohort : Nat) : Statement (.pfallExpiry cohort) := of_event rfl
theorem cohortResume (cohort : Nat) (core : Nat) : Statement (.cohortResume cohort core) := of_event rfl
theorem warpRetirement (cohort : Nat) (warp : Nat) : Statement (.warpRetirement cohort warp) := of_event rfl
theorem cohortRetirement (cohort : Nat) : Statement (.cohortRetirement cohort) := of_event rfl
theorem launchAcceptance (ctx : Nat) (mailbox : Nat) : Statement (.launchAcceptance ctx mailbox) := of_event rfl
theorem dispatchDecision : Statement (.dispatchDecision) := of_event rfl
theorem recordArrival (op : Nat) : Statement (.recordArrival op) := of_event rfl
theorem binTimerExpiry (launch : Nat) (node : Nat) : Statement (.binTimerExpiry launch node) := of_event rfl
theorem residencyReport (core : Nat) : Statement (.residencyReport core) := of_event rfl
theorem undoRestore (cohort : Nat) : Statement (.undoRestore cohort) := of_event rfl
theorem setHandoff (ctx : Nat) (decl : Nat) : Statement (.setHandoff ctx decl) := of_event rfl
theorem sealRecord (cohort : Nat) : Statement (.sealRecord cohort) := of_event rfl
theorem homeLoadRequest (op : Nat) (part : Nat) : Statement (.homeLoadRequest op part) := of_event rfl
theorem storePerform (op : Nat) (part : Nat) : Statement (.storePerform op part) := of_event rfl
theorem atomicPerform (op : Nat) (part : Nat) : Statement (.atomicPerform op part) := of_event rfl
theorem waitcPoll (op : Nat) : Statement (.waitcPoll op) := of_event rfl
theorem l2Eviction (line : Nat) : Statement (.l2Eviction line) := of_event rfl
theorem remoteDataCacheFill (op : Nat) (part : Nat) : Statement (.remoteDataCacheFill op part) := of_event rfl
theorem redcContribution (op : Nat) (part : Nat) : Statement (.redcContribution op part) := of_event rfl
theorem mailboxReserve (op : Nat) : Statement (.mailboxReserve op) := of_event rfl
theorem mailboxTailAdvance (op : Nat) : Statement (.mailboxTailAdvance op) := of_event rfl
theorem mailboxHeadRelease (op : Nat) : Statement (.mailboxHeadRelease op) := of_event rfl
theorem streamFillStart (cohort : Nat) (stream : Nat) : Statement (.streamFillStart cohort stream) := of_event rfl
theorem streamFillComplete (cohort : Nat) (stream : Nat) (slot : Nat) : Statement (.streamFillComplete cohort stream slot) := of_event rfl
theorem streamStoreStart (cohort : Nat) (stream : Nat) (slot : Nat) : Statement (.streamStoreStart cohort stream slot) := of_event rfl
theorem streamStoreComplete (cohort : Nat) (stream : Nat) (slot : Nat) : Statement (.streamStoreComplete cohort stream slot) := of_event rfl
theorem engineCommandCompletion (op : Nat) : Statement (.engineCommandCompletion op) := of_event rfl
theorem matrixCommandStart (core : Nat) : Statement (.matrixCommandStart core) := of_event rfl
theorem matrixCommandCompletion (core : Nat) : Statement (.matrixCommandCompletion core) := of_event rfl
theorem matrixOwnershipGrant (core : Nat) : Statement (.matrixOwnershipGrant core) := of_event rfl
theorem syncStart (ctx : Nat) (world : Nat) : Statement (.syncStart ctx world) := of_event rfl
theorem syncStallRelease (ctx : Nat) (world : Nat) : Statement (.syncStallRelease ctx world) := of_event rfl
theorem worldRegistration (ctx : Nat) (world : Nat) (addr : Nat) : Statement (.worldRegistration ctx world addr) := of_event rfl
theorem worldDeregistration (ctx : Nat) (world : Nat) : Statement (.worldDeregistration ctx world) := of_event rfl
theorem deregistrationEffect (ctx : Nat) (world : Nat) : Statement (.deregistrationEffect ctx world) := of_event rfl
theorem savePhaseCompletion (ctx : Nat) : Statement (.savePhaseCompletion ctx) := of_event rfl
theorem loadPhaseCompletion (ctx : Nat) : Statement (.loadPhaseCompletion ctx) := of_event rfl
theorem ctxctlCreate (ctx : Nat) : Statement (.ctxctlCreate ctx) := of_event rfl
theorem ctxctlReset (ctx : Nat) : Statement (.ctxctlReset ctx) := of_event rfl
theorem ctxctlPreempt (ctx : Nat) : Statement (.ctxctlPreempt ctx) := of_event rfl
theorem egrant (ctx : Nat) (amount : Nat) : Statement (.egrant ctx amount) := of_event rfl
theorem energyDebit (cohort : Nat) (amount : Nat) : Statement (.energyDebit cohort amount) := of_event rfl
theorem tlbinvPage (fn : Nat) (ctx : Nat) (page : Nat) : Statement (.tlbinvPage fn ctx page) := of_event rfl
theorem tlbinvContext (fn : Nat) (ctx : Nat) : Statement (.tlbinvContext fn ctx) := of_event rfl
theorem tlbinvFunction (fn : Nat) : Statement (.tlbinvFunction fn) := of_event rfl
theorem tlbinvComplete (fn : Nat) : Statement (.tlbinvComplete fn) := of_event rfl
theorem vfprePreempt (vf : Nat) : Statement (.vfprePreempt vf) := of_event rfl
theorem vfpreResume (vf : Nat) : Statement (.vfpreResume vf) := of_event rfl
theorem intstatClear (fn : Nat) (mask : Nat) : Statement (.intstatClear fn mask) := of_event rfl
theorem hcallPost (op : Nat) : Statement (.hcallPost op) := of_event rfl
theorem hcallReply (tag : Nat) (value : Nat) : Statement (.hcallReply tag value) := of_event rfl
theorem registerWrite (fn : Nat) (off : Nat) (value : Nat) : Statement (.registerWrite fn off value) := of_event rfl
theorem hostWrite (fn : Nat) (off : Nat) (data : List (BitVec 8)) : Statement (.hostWrite fn off data) := of_event rfl
theorem hostRead (fn : Nat) (off : Nat) (len : Nat) : Statement (.hostRead fn off len) := of_event rfl
theorem atsInvalidation (pasid : Nat) (addr : Nat) : Statement (.atsInvalidation pasid addr) := of_event rfl
theorem getVersion : Statement (.getVersion) := of_event rfl
theorem getCapabilities : Statement (.getCapabilities) := of_event rfl
theorem negotiateAlgorithms : Statement (.negotiateAlgorithms) := of_event rfl
theorem getDigests : Statement (.getDigests) := of_event rfl
theorem getCertificate (slot : Nat) : Statement (.getCertificate slot) := of_event rfl
theorem challenge (nonce : Nat) : Statement (.challenge nonce) := of_event rfl
theorem getMeasurements (index : Nat) : Statement (.getMeasurements index) := of_event rfl
theorem firmwareImageAccept (controller : Nat) (image : List (BitVec 8)) (signature : Nat) : Statement (.firmwareImageAccept controller image signature) := of_event rfl
theorem firmwareActivation (controller : Nat) : Statement (.firmwareActivation controller) := of_event rfl
theorem laneRecalibration (port : Nat) (lane : Nat) : Statement (.laneRecalibration port lane) := of_event rfl
theorem pseudoChannelRetirement (stack : Nat) (channel : Nat) : Statement (.pseudoChannelRetirement stack channel) := of_event rfl
theorem rowSparing (stack : Nat) (row : Nat) : Statement (.rowSparing stack row) := of_event rfl
theorem coreDrain (core : Nat) : Statement (.coreDrain core) := of_event rfl
theorem spareSubstitution (core : Nat) : Statement (.spareSubstitution core) := of_event rfl
theorem moduleRemoval (peer : Nat) : Statement (.moduleRemoval peer) := of_event rfl
theorem moduleReplacement (peer : Nat) : Statement (.moduleReplacement peer) := of_event rfl
theorem routeChange (port : Nat) : Statement (.routeChange port) := of_event rfl
theorem fabricTimeout (op : Nat) (part : Nat) (cause : Nat) : Statement (.fabricTimeout op part cause) := of_event rfl
theorem moduleReset : Statement (.moduleReset) := of_event rfl
theorem fetchFault (core : Nat) (slot : Nat) : Statement (.fetchFault core slot) := of_event rfl
theorem unassignedOpcode (core : Nat) (slot : Nat) : Statement (.unassignedOpcode core slot) := of_event rfl
theorem nodeRegistration (ctx : Nat) (addr : Nat) : Statement (.nodeRegistration ctx addr) := of_event rfl
theorem softErrorMark (target : SoftTarget) : Statement (.softErrorMark target) := of_event rfl
theorem moduleNumberAssignment (number : Nat) : Statement (.moduleNumberAssignment number) := of_event rfl
theorem functionReset (fn : Nat) (withheld : List (Nat)) : Statement (.functionReset fn withheld) := of_event rfl

end Sys2Proof.Laws.Roundtrip
end

