-- ==== Sys2Proof/Tests/Slice0.lean ====
section
/-! SUPPORT. Tests of the model. Words and results come from the worked cases of the spec, named beside each test, or
were worked out by hand from its rules. -/

namespace Sys2Proof.Tests

open Sys2Proof.Machine Sys2Proof.Safety

/-! ## Decoding: words written out in the spec -/

/-- What the three words of an instruction, as they lie in memory, decode to. -/
def ofWords (w0 w1 w2 : Nat) : Decoded := decode (bytesOfNat 4 w0 ++ bytesOfNat 4 w1 ++ bytesOfNat 4 w2)

def u : Operand := ⟨.none, 0⟩
def v (n : BitVec 9) : Operand := ⟨.vec, n⟩
def sr (n : BitVec 9) : Operand := ⟨.scalar, n⟩
def pr (n : BitVec 9) : Operand := ⟨.pred, n⟩
def kw (n : BitVec 9) : Operand := ⟨.karg, n⟩
def im (n : BitVec 9) : Operand := ⟨.imm, n⟩
def ac (n : BitVec 9) : Operand := ⟨.acc, n⟩
/-- The guard pt. -/
def pt : Guard := ⟨false, 7⟩
/-- A word with LA 0 and BND 0. -/
def word (g : Guard) (dst sa sb : Operand) (imm : BitVec 32) (mod : BitVec 6) : Fields := ⟨g, dst, sa, sb, imm, mod, 0, false, 0⟩

/-- 02, worked encoding: FFMA.F32 v3, v1, v2, v3. -/
theorem test_word_ffma : ofWords 0x0400DCC3 0x000C0080 0 = .instr (.ffma (word pt (v 3) (v 1) (v 2) 3 0)) [] := by decide
/-- 02, worked encoding: ?!p3 BRA #-1 :: end. -/
theorem test_word_bra : ofWords 0x03802C01 0xFFFF8038 0x1003FFFF =
    .instr (.bra ⟨⟨true, 3⟩, u, u, u, 0xFFFFFFFF, 0, 0, true, 0⟩) [] := by decide
/-- 02, worked encoding: IADD.S32 v4, v4, #-3. -/
theorem test_word_iadd : ofWords 0x10011C80 0x00027F40 0x000C0000 =
    .instr (.iadd (word pt (v 4) (v 4) (im 0x1FD) 0 3)) [] := by decide
/-- 03, worked encoding: ?p2 SDIV.S64 s6, s5, k4 :: la 3, end. -/
theorem test_word_sdiv : ofWords 0x14818844 0x00028108 0x13140000 =
    .instr (.sdiv ⟨⟨false, 2⟩, sr 6, sr 5, kw 4, 0, 5, 3, true, 0⟩) [] := by decide
/-- 03: EXIT. -/
theorem test_word_exit : ofWords 0x03801C09 0x00038038 0 = .instr (.exit (word pt u u u 0 0)) [] := by decide
/-- 05, worked encoding: LOOPD s7, #-4 :: end. -/
theorem test_word_loopd : ofWords 0x0081DC0B 0xFFF38038 0x1003FFFF =
    .instr (.loopd ⟨pt, sr 7, u, u, 0xFFFFFFFC, 0, 0, true, 0⟩) [] := by decide
/-- 05, worked encoding: VBRA.ALL p2, #6. -/
theorem test_word_vbra : ofWords 0x0B801C06 0x001B8010 0x00040000 = .instr (.vbra (word pt u (pr 2) u 6 1)) [] := by decide
/-- 08, worked encoding: PREEMPT.ACCM1 s4, #0x3. -/
theorem test_word_preempt : ofWords 0x13801F43 0x000F8008 0x00040000 = .instr (.preempt (word pt u (sr 4) u 3 1)) [] := by decide
/-- 11, worked encoding: ICMP.S32.LT p2, v5, #10. -/
theorem test_word_icmp : ofWords 0x15009C91 0x00020280 0x000C0800 =
    .instr (.icmp (word pt (pr 2) (v 5) (im 10) 0x02000000 3)) [] := by decide
/-- 12, worked encoding: CVTN.B8P4.F32.POS1.SAT v7, v2, v3. -/
theorem test_word_cvtn : ofWords 0x0801DD03 0x000000C0 0x002C1002 =
    .instr (.cvtn (word pt (v 7) (v 2) (v 3) 0x04008000 11)) [] := by decide
/-- 13: CVT.B4P2.F32 v1, v0. -/
theorem test_word_cvt : ofWords 0x00005D00 0x00038000 0x00640000 = .instr (.cvt (word pt (v 1) (v 0) u 0 25)) [] := by decide
/-- 15, worked encoding: LD.B32.ACQ.DEV.STICKY v4, [s6 + 0x40]. -/
theorem test_word_ld : ofWords 0x18011D80 0x01038008 0x00085800 =
    .instr (.ld (word pt (v 4) (sr 6) u 0x16000040 2)) [] := by decide
/-- 15, worked encoding: ACOPY.G2S.PLAIN.STREAM s10, s4, s6. -/
theorem test_word_acopy : ofWords 0x10829DC0 0x00008188 0x00000400 =
    .instr (.acopy (word pt (sr 10) (sr 4) (sr 6) 0x01000000 0)) [] := by decide
/-- 17, worked encoding: ATOM.ADD.S32 v5, [s4 + 0x80], #1. -/
theorem test_word_atom : ofWords 0x10015E00 0x02020048 0x00400000 =
    .instr (.atom (word pt (v 5) (sr 4) (im 1) 0x80 0x10)) [] := by decide
/-- 18: SUCCOK. -/
theorem test_word_succok : ofWords 0x03801E07 0x00038038 0 = .instr (.succok (word pt u u u 0 0)) [] := by decide
/-- 18: WAITPRED s5. -/
theorem test_word_waitpred : ofWords 0x00815E08 0x00038038 0 = .instr (.waitpred (word pt (sr 5) u u 0 0)) [] := by decide
/-- 18: LD.B16 v2, [k0 + v1]. -/
theorem test_word_ld_karg : ofWords 0x00009D80 0x00000068 0x00040000 =
    .instr (.ld (word pt (v 2) (kw 0) (v 1) 0 1)) [] := by decide
/-- 18: FADD.BF16 v3, v2, #1. -/
theorem test_word_fadd : ofWords 0x0800DCC0 0x00020040 0x00080000 =
    .instr (.fadd (word pt (v 3) (v 2) (im 1) 0 2)) [] := by decide
/-- 20, worked encoding: MMCFG.QUAD.B8P4.B8P4 sz. -/
theorem test_word_mmcfg : ofWords 0xFF801E40 0x0B2F8008 0x000C0000 =
    .instr (.mmcfg (word pt u (sr 63) u 0x2CB 3)) [] := by decide
/-- 20: MMCFG.REL is MOD[3] of the same opcode. -/
theorem test_word_mmcfg_rel : ofWords 0x03801E40 0x00038038 0x00200000 =
    .instr (.mmcfgRel (word pt u u u 0 8)) [] := by decide
/-- 20, worked encoding: MMLOOP.TM15 s8, s9, #2, #64, #64. -/
theorem test_word_mmloop : ofWords 0x23801E43 0x00088248 0x003C4010 =
    .instr (.mmloop (word pt u (sr 8) (sr 9) 0x10040002 15)) [] := by decide
/-- 23, worked encoding: REGGROW s3, #136. -/
theorem test_word_reggrow : ofWords 0x2080DEC7 0x00038022 0 = .instr (.reggrow (word pt (sr 3) (im 136) u 0 0)) [] := by decide
/-- 23: TSPAWN s10, s4, s6. -/
theorem test_word_tspawn : ofWords 0x10829EC0 0x00008188 0 = .instr (.tspawn (word pt (sr 10) (sr 4) (sr 6) 0 0)) [] := by decide
/-- 24: ASDECL s1, k0, #128. -/
theorem test_word_asdecl : ofWords 0x00805EC4 0x00022028 0 = .instr (.asdecl (word pt (sr 1) (kw 0) (im 128) 0 0)) [] := by decide
/-- 24: SST.B64 s9, [s2 + 24]. -/
theorem test_word_sst : ofWords 0x08825D83 0x00638008 0x000C0000 = .instr (.sst (word pt (sr 9) (sr 2) u 24 3)) [] := by decide
/-- 26, worked encoding: WREMC s10, v4, #5, #2. -/
theorem test_word_wremc : ofWords 0x10829E83 0x000B8000 0x14 = .instr (.wremc (word pt (sr 10) (v 4) u 0x00050002 0)) [] := by decide
/-- 27: WQRY s14, k0. -/
theorem test_word_wqry : ofWords 0x00839E85 0x00038028 0 = .instr (.wqry (word pt (sr 14) (kw 0) u 0 0)) [] := by decide
/-- 27: ?p2 WKILL s12, v2, #1. -/
theorem test_word_wkill : ofWords 0x08830A81 0x00078000 0 =
    .instr (.wkill (word ⟨false, 2⟩ (sr 12) (v 2) u 1 0)) [] := by decide
/-- 29, worked encoding: TEXS s10, s4, v2, v8. -/
theorem test_word_texs : ofWords 0x10829F00 0x00200088 0 = .instr (.texs (word pt (sr 10) (sr 4) (v 2) 8 0)) [] := by decide
/-- 30: TWFENCE s25. -/
theorem test_word_twfence : ofWords 0x00865F04 0x00038038 0 = .instr (.twfence (word pt (sr 25) u u 0 0)) [] := by decide
/-- Group 5 (02 R45: OPC 0x140 and index 1), by hand: MOVI v8, #0x41100000 of 27's listing. -/
theorem test_word_movi : ofWords 0x00021D41 0x00038038 0x00010440 = .instr (.movi (word pt (v 8) u u 0x41100000 0)) [] := by decide
/-- An index without an instruction, and groups 14 and 15, are unassigned (02 R45); eleven bytes are too few. -/
theorem test_word_unassigned : ofWords 0x03801C0C 0x00038038 0 = .unassigned 0x00C ∧ ofWords 0x03801F80 0 0 = .unassigned 0x380 ∧
    ofWords 0x03801FC0 0 0 = .unassigned 0x3C0 ∧ decode (List.replicate 11 0) = .short := by decide
/-- The well-formed words of the spec's worked cases encode as it writes them. -/
theorem test_encode : encode (.iadd (word pt (v 4) (v 4) (im 0x1FD) 0 3)) = bytesOfNat 4 0x10011C80 ++ bytesOfNat 4 0x00027F40 ++ bytesOfNat 4 0x000C0000 ∧
    encode (.mmloop (word pt u (sr 8) (sr 9) 0x10040002 15)) =
      bytesOfNat 4 0x23801E43 ++ bytesOfNat 4 0x00088248 ++ bytesOfNat 4 0x003C4010 := by decide

/-! ## Well-formedness: an ill-formed word for each check of 02 R48 -/

/-- Check 1: a reserved bit is set. -/
theorem test_ill_reserved : WellFormed (.nop { word pt u u u 0 0 with rsv := 1 }) = false ∧ WellFormed (.nop (word pt u u u 0 0)) = true := by decide
/-- Check 2: the opcode of no instruction decodes to none. -/
theorem test_ill_opcode : instrOf 0x00C (word pt u u u 0 0) = none ∧ instrOf 0x380 (word pt u u u 0 0) = none := by decide
/-- Check 3: a BINARY4 word on a function without that capability (02 R39, R47). -/
theorem test_ill_capability : (encOf (.cvt (word pt (v 1) (v 0) u 0 25))).bind
    (fun e => e.firstFail (word pt (v 1) (v 0) u 0 25) (fun c => c ≠ 5) 256 false) = some 3 := by decide
/-- Check 4: an accumulator tile where a vector source belongs. -/
theorem test_ill_kind : WellFormed (.iadd (word pt (v 4) (ac 0) (v 1) 0 3)) = false ∧
    WellFormed (.iadd (word pt (v 4) (v 0) (v 1) 0 3)) = true := by decide
/-- Check 5: a scalar index above 63. -/
theorem test_ill_index : WellFormed (.sadd (word pt (sr 64) (sr 2) (sr 3) 0 6)) = false ∧
    WellFormed (.sadd (word pt (sr 63) (sr 2) (sr 3) 0 6)) = true := by decide
/-- Check 6: v8 in an allocation of 8 registers; vz is in every allocation. -/
theorem test_ill_allocation : (encOf (.mov (word pt (v 8) (v 255) u 0 0))).bind
    (fun e => e.firstFail (word pt (v 8) (v 255) u 0 0) (fun _ => true) 8 false) = some 6 ∧
    (encOf (.mov (word pt (v 7) (v 255) u 0 0))).bind
    (fun e => e.firstFail (word pt (v 7) (v 255) u 0 0) (fun _ => true) 8 false) = none := by decide
/-- Check 7: rounding code 5. -/
theorem test_ill_rounding : WellFormed (.fadd (word pt (v 3) (v 1) (v 2) 0x5000 0)) = false ∧
    WellFormed (.fadd (word pt (v 3) (v 1) (v 2) 0x4000 0)) = true := by decide
/-- Check 8: a type code the row does not list. -/
theorem test_ill_mod : WellFormed (.sadd (word pt (sr 1) (sr 2) (sr 3) 0 7)) = false := by decide
/-- Check 9: ICMP with OPT 6, the example of 11. -/
theorem test_ill_opt : WellFormed (.icmp (word pt (pr 2) (v 5) (im 10) 0x06000000 3)) = false ∧
    WellFormed (.icmp (word pt (pr 2) (v 5) (im 10) 0x05000000 3)) = true := by decide
/-- Check 10: CTXSAVE issued by a user context. -/
theorem test_ill_user : (encOf (.ctxsave (word pt (sr 4) (sr 5) (sr 6) 0 0))).bind
    (fun e => e.firstFail (word pt (sr 4) (sr 5) (sr 6) 0 0) (fun _ => true) 256 true) = some 10 := by decide

/-! ## A small state -/

/-- Lanes 0 and 1 of warp 0. -/
def ths : List (Nat × Nat) := [(0, 0), (0, 1)]
def warp0 : Warp := { alloc := 256, threads := [{ preds := 0b0000100 }, {}] }
def coh1 : Cohort := { tx := 2, scratchSize := 4096, codebase := 0x10000, warps := [warp0], prio := 2, cidx := 3 }
def core0 : Core := { entries := [(0, { coh := 1, pc := 7, ths })], slots := [some 0, none, none, none] }
def kern : Kernel :=
  { entry := 5, vregs := 16, stages := 1, warps := 1, tx := 2, ty := 1, tz := 1, scratch := 0, energy := 0, codebase := 0x10000 }
def launch0 : Launch :=
  { ctx := 0, addr := 0x4000, kdesc := 0x5000, kern, gx := 8, gy := 1, gz := 1, stages := 1, prio := 6, energy := 0, args := []
    signal := 0, pred := none, predFloor := 9, hasPred := true, tiles := [], useBlock := false, cursor := none, base := 40 }
/-- Warp 0 of cohort 1 in slot 0 of core 0, in context 0; the group is at PC 7. -/
def base : State :=
  { cores := [(0, core0)], cohorts := [(1, coh1)], ctxs := [(0, { st := .active, ptbase := 0x1000 })], fns := [(0, {})]
    launches := [(0, launch0)], nextOp := 3 }
/-- Its issuing group. -/
def grp : Iss := { core := 0, slot := 0, ent := 0, coh := 1, pc := 7, ths }

/-- The instruction issues in the state. -/
def shows (i : Instr) (s : State) : Bool :=
  match fieldsOf i, curIss s with
  | some f, some c => (illegal i f c s).isNone && (deferred i c s).isNone && !stalled i f c s && (marked i f c s).isNone
  | _, _ => false

/-- What `shows` finds is what the statements ask. -/
theorem ready_of_shows {i : Instr} {s : State} (h : shows i s = true) :
    ∃ f c, fieldsOf i = some f ∧ curIss s = some c ∧ Ready i f c s := by
  unfold shows at h
  split at h
  · rename_i f c hf hc
    simp only [Bool.and_eq_true, Option.isNone_iff_eq_none, Bool.not_eq_true'] at h
    exact ⟨f, c, hf, hc, hc, h.1.1.1, h.1.1.2, h.1.2, h.2⟩
  · simp at h

/-- Every instruction of the list issues in the state. -/
def AllReady (l : List Instr) (s : State) : Prop :=
  ∀ i ∈ l, ∃ f c, fieldsOf i = some f ∧ curIss s = some c ∧ Ready i f c s

theorem allReady {l : List Instr} {s : State} (h : l.all (fun i => shows i s) = true) : AllReady l s :=
  fun i hi => ready_of_shows (List.all_eq_true.mp h i hi)

/-! ## Witnesses: each statement's hypotheses are met -/

/-- Claims on groups 1 and 2: `ScalarResults`, `VectorIntegerResults`. -/
theorem witness_scalar : AllReady (let f := word pt (sr 1) (sr 2) (im 3) 0 6
    [.sadd f, .ssub f, .smul f, .smulh f, .sand f, .sor f, .sxor f, .sshl f, .sshr f, .smin f, .smax f, .sdiv f, .srem f,
      .ssel (word pt (sr 1) (sr 2) (sr 3) 0x204 6), .smov (word pt (sr 1) (sr 2) u 0 6), .smovi (word pt (sr 63) u u 9 2),
      .sclz (word pt (sr 1) (sr 2) u 0 6), .spopc (word pt (sr 1) (sr 2) u 0 3),
      .saddr (word pt (sr 1) (sr 2) (sr 3) 0x03000204 6), .scmp (word pt (pr 1) (sr 2) (sr 3) 0x05000000 4)]) base :=
  allReady (by decide)

/-- `VectorIntegerResults`: each instruction issues. -/
theorem witness_vector_integer : AllReady (let f := word pt (v 4) (v 1) (im 3) 0 3
    let g := word pt (v 255) (v 1) (v 2) 2 3
    [.iadd f, .isub f, .imul f, .imul (word pt (v 4) (v 1) (v 2) 0x01000000 4), .imad g, .imin f, .imax f,
      .iabs (word pt (v 4) (v 1) u 0 3), .ineg (word pt (v 4) (v 1) u 0 3), .iand f, .ior f, .ixor f,
      .inot (word pt (v 4) (v 1) u 0 3), .ishl f, .ishr f, .irot f, .isel (word pt (v 4) (v 1) (v 2) 0x402 3),
      .ipopc (word pt (v 4) (v 1) u 0 3), .iclz (word pt (v 4) (v 1) u 0 3), .ibfx f, .ibfi g, .idot4 (word pt (v 4) (v 1) (v 2) 2 28), .idiv f, .irem f]) base :=
  allReady (by decide)

/-- `MoveResults`, `PredicateResults`: each instruction issues. -/
theorem witness_moves : AllReady
    [.mov (word pt (v 255) (v 1) u 0 0), .movi (word pt (v 4) u u 9 0), .movs (word pt (v 4) (sr 2) u 0 1),
      .p2v (word pt (v 4) (pr 2) u 0 1), .matchv (word pt (v 4) (v 1) u 0 0), .shfl (word pt (v 4) (v 1) (im 31) 0 0),
      .prmb (word pt (v 4) (v 1) (v 2) 0 0), .fclass (word pt (v 4) (v 1) u 0 0), .sclx (word pt (v 4) (v 1) u 0 11),
      .icmp (word pt (pr 7) (v 5) (im 10) 0x05000000 3), .v2p (word pt (pr 0) (v 1) u 0 0),
      .plop (word pt (pr 1) (pr 2) (pr 7) 0xFF 0)] base :=
  allReady (by decide)

/-- `FloatResults`, `LongComputations`: each instruction issues. -/
theorem witness_float : AllReady (let f := word pt (v 4) (v 1) (v 2) 0 0
    let g := word pt (v 4) (v 1) (v 2) 0x3003 2
    let h := word pt (v 4) (v 1) u 0 0
    [.fadd f, .fsub f, .fmul f, .ffma g, .fmin f, .fmax f, .ffrc h, .frint h, .fldexp f,
      .hfma2 (word pt (v 4) (v 1) (v 2) 3 1), .hadd2 (word pt (v 4) (v 1) (v 2) 0 1), .hmul2 (word pt (v 4) (v 1) (v 2) 0 2),
      .cvt (word pt (v 1) (v 0) u 0 25), .cvtfi (word pt (v 1) (v 0) u 0 3), .cvtif (word pt (v 1) (v 0) u 0x03000000 0),
      .cvtn (word pt (v 7) (v 2) (v 3) 0x04008000 11), .cvtw (word pt (v 1) (v 0) (im 3) 0x0B000000 0), .fcmp (word pt (pr 7) (v 1) (v 2) 0 0),
      .fdiv f, .frcp h, .frsq h, .fsqrt h, .fexp2 h, .flog2 h, .fsin h, .fcos h]) base :=
  allReady (by decide)

/-- `CarryPairAndFlagResults`: each instruction issues. -/
theorem witness_carry_and_pair : AllReady
    [.iaddc (word pt (v 4) (v 0) (v 2) 0x05000406 4), .iaddc (word pt (v 255) (v 0) (v 2) 0x07000406 4),
      .lea (word pt (v 4) (sr 2) (v 6) 0x02000007 4)] base :=
  allReady (by decide)

/-- `WarpResults`: each instruction issues. -/
theorem witness_warp_results : AllReady
    [.vote (word pt (sr 1) (pr 2) u 0 2), .rdl (word pt (sr 1) (v 1) (im 31) 0 1), .ftest (word pt (sr 1) (sr 2) u 0 0),
      .rdsp (word pt (v 1) ⟨.special, 0⟩ u 0 0), .rdsp (word pt (sr 1) ⟨.special, 0⟩ u 0 0), .rdcyc (word pt (v 1) u u 0 0),
      .rdcyc (word pt (sr 1) u u 0 0), .rdsr (word pt (v 1) u u 0 0), .rdsr (word pt (sr 1) u u 8 0)] base :=
  allReady (by decide)

/-- `LongReads`: each instruction issues. -/
theorem witness_long_reads : AllReady
    [.rdtrap (word pt (sr 1) u u 0x01000000 0), .ebud (word pt (sr 1) u u 0 0), .asstat (word pt (sr 1) (sr 2) u 0 0),
      .asstat (word pt (sr 1) u u 0 1), .resq (word pt (sr 1) (sr 2) u 0 0), .caprd (word pt (sr 1) (sr 2) u 0 0)] base :=
  allReady (by decide)

/-- `BranchTargets`, `RunEndings`, `WarpWaits`: each instruction issues. -/
theorem witness_control : AllReady
    [.nop (word pt u u u 0 0), .bra (word ⟨false, 2⟩ u u u 5 0), .brx (word pt u (v 1) u 0 0), .ret (word pt u (sr 1) u 0 0),
      .call (word pt (v 255) u u 5 0), .callx (word pt (v 3) (sr 1) u 0 0), .vbra (word pt u (pr 2) u 6 1), .loopd (word pt (sr 63) u u 6 0),
      .reform (word ⟨false, 2⟩ u u u 0 0), .yield (word pt u u u 0xFFFF 0), .wconv (word pt u u u 0 0), .exit (word pt u u u 0 0),
      .reggrow (word pt (sr 3) (im 136) u 0 0), .regshr (word pt (sr 3) (im 136) u 0 0)] base :=
  allReady (by decide)

/-- `WarpResults`, `MoveResults`: no register read through another lane is marked; RDSR of an assigned register with no flag
outstanding. -/
theorem witness_marks_and_flags :
    (∀ x ∈ grp.on (word pt (v 4) (v 1) (im 31) 0 0) base,
      markOf (base.warp grp.coh x.1) 1 [shflFrom (word pt (v 4) (v 1) (im 31) 0 0) base grp.coh x.1 x.2] = none) ∧
    (∀ x ∈ grp.on (word pt (sr 1) (v 1) (im 31) 0 1) base,
      markOf (base.warp grp.coh x.1) 1 [rdlLane (word pt (sr 1) (v 1) (im 31) 0 1) base grp.coh x.1] = none) ∧
    sysAssigned (sysIdx (word pt (v 1) u u 8 0)) = true ∧ flagsReady (word pt (v 1) u u 8 0) grp base = true := by decide

/-- `LongReads`: ASSTAT of set 4095, CAPRD at the last offset. -/
theorem witness_long_read_operands :
    let s := base.writeS 1 0 2 4095
    let t := base.writeS 1 0 2 65528
    (∀ w ∈ grp.warpsOn (word pt (sr 1) (sr 2) u 0 0) s, (s.srcS grp.coh w (sr 2)).toNat < 4096) ∧
    (∀ w ∈ grp.warpsOn (word pt (sr 1) (sr 2) u 0 0) t,
      (t.srcS grp.coh w (sr 2)).toNat % 8 = 0 ∧ (t.srcS grp.coh w (sr 2)).toNat < 65536) := by decide

/-- `base` with a third live thread of the warp elsewhere. -/
def apart : State := base.modWarp 1 0 fun w => { w with threads := w.threads ++ [{ pc := 30 }] }

/-- `WarpWaits`, `ExitFinishesThreads`: a live thread of the warp is elsewhere. -/
theorem witness_elsewhere :
    AllReady [.wconv (word ⟨false, 2⟩ u u u 0 0), .exit (word ⟨false, 2⟩ u u u 0 0), .reggrow (word pt (sr 3) (im 136) u 0 0),
      .regshr (word pt (sr 3) (im 136) u 0 0)] apart ∧
    (∀ x ∈ grp.ths, ∃ l ∈ (apart.warp 1 x.1).liveLanes, (x.1, l) ∉ grp.ths ∧ (apart.thread 1 x.1 l).st ≠ .waiting) ∧
    (∀ x ∈ grp.ths, HasThread apart 1 x.1 x.2) ∧ noneParked grp apart ∧
    (∀ x ∈ grp.ths, (apart.warp 1 x.1).handler = false ∧ (apart.warp 1 x.1).trapq = []) ∧
    grp.on (word ⟨false, 2⟩ u u u 0 0) apart = [(0, 0)] :=
  ⟨allReady (by decide), by decide, by unfold HasThread HasWarp; decide, by unfold noneParked; decide, by decide, by decide⟩

/-- `base` with other threads of the warp, the first two at PC 7. -/
def beside (more : List Thread) : State :=
  base.modWarp 1 0 fun w => { w with threads := [{ pc := 7, preds := 0b0000100 }, { pc := 7 }] ++ more }

/-- No thread of the warp is parked, and no other entry of the core holds one. -/
def AloneInCore (c : Iss) (s : State) (w : Nat) : Prop :=
  (∀ e g, e ≠ c.ent → FMap.find (s.core c.core).entries e = some g → g.coh = c.coh → ∀ y ∈ g.ths, y.1 ≠ w) ∧
    ∀ l, (c.coh, w, l) ∉ (s.core c.core).parked

theorem beside_alone (more : List Thread) : AloneInCore grp (beside more) 0 := by
  refine ⟨fun e g he h => ?_, fun l h => ?_⟩
  · have hn : FMap.find ((beside more).core grp.core).entries e = none := by
      cases e with
      | zero => exact absurd rfl he
      | succ n => rfl
    rw [hn] at h; cases h
  · exact List.not_mem_nil h

/-- `ConvergenceEnds`: a third thread waits at the WCONV, or at the REGSHR with its guard failing. -/
theorem witness_convergence :
    let f := word pt u u u 0 0
    let g := word ⟨false, 2⟩ (sr 3) (im 136) u 0 0
    let s := beside [{ pc := 7, st := .waiting }]
    let r := beside [{ pc := 7, st := .waiting, wait := .shr g false }]
    (∀ x ∈ [s, r], (∀ y ∈ grp.ths, HasThread x 1 y.1 y.2 ∧ y.2 < 32 ∧ (x.thread 1 y.1 y.2).st = .grouped ∧
      (x.thread 1 y.1 y.2).pc = grp.pc)) ∧ AloneInCore grp s 0 ∧ AloneInCore grp r 0 ∧
    AllReady [.wconv f] s ∧ AllReady [.regshr g] r ∧ grp.on f s = grp.ths ∧ (∀ y ∈ grp.ths, y.1 = 0) ∧
    (∀ l ∈ (s.warp 1 0).liveLanes, (0, l) ∈ grp.ths ∨
      (s.thread 1 0 l).st = .waiting ∧ (s.thread 1 0 l).wait = .conv ∧ (s.thread 1 0 l).pc = grp.pc) ∧
    (∀ l ∈ (r.warp 1 0).liveLanes, (0, l) ∈ grp.ths ∨
      (r.thread 1 0 l).st = .waiting ∧ (r.thread 1 0 l).wait = .shr g false ∧ (r.thread 1 0 l).pc = grp.pc) ∧
    (∃ y ∈ grp.ths, guardHolds g.grd (r.thread 1 y.1 y.2) = true) ∧ goodCount (r.srcS 1 0 g.sa).toNat = true ∧
    r.opsOf 1 0 = [] ∧ poisonMet (r.warp 1 0) (usesOf g.sa 1) [] = none :=
  ⟨by unfold HasThread HasWarp; decide, beside_alone _, beside_alone _, allReady (by decide), allReady (by decide), by decide,
    by decide, by decide, by decide, ⟨(0, 0), by decide⟩, by decide, by decide, by decide⟩

/-- `LastThreadsExit`: no other thread is live, with a trap queued or none; the others wait at one WCONV, or at two. -/
theorem witness_last_exit :
    let f := word pt u u u 0 0
    let left := fun (s : State) => (s.warp 1 0).liveLanes.filter fun l => !grp.ths.contains (0, l)
    let none' := beside []
    let queued := none'.modWarp 1 0 fun w => { w with trapq := [{ code := 12 }] }
    let one := beside [{ pc := 9, st := .waiting }]
    let two := beside [{ pc := 9, st := .waiting }, { pc := 12, st := .waiting }]
    (∀ s ∈ [none', queued, one, two], AllReady [.exit f] s ∧ grp.on f s = grp.ths ∧
      (∀ x ∈ grp.ths, x.1 = 0 ∧ x.2 < 32 ∧ HasThread s 1 0 x.2) ∧ (s.warp 1 0).handler = false) ∧
    (∀ more, AloneInCore grp (beside more) 0) ∧ AloneInCore grp queued 0 ∧ left none' = [] ∧ (none'.warp 1 0).trapq = [] ∧ left queued = [] ∧
    (queued.warp 1 0).trapq = [{ code := 12 }] ∧ (FMap.find queued.ctxs (queued.coh 1).ctx).isSome = true ∧ left one = [2] ∧
    (one.thread 1 0 2).st = .waiting ∧ (one.thread 1 0 2).wait = .conv ∧ (one.thread 1 0 2).pc = 9 ∧ left two = [2, 3] ∧
    (∀ l ∈ left two, (two.thread 1 0 l).st = .waiting) ∧
    sortedNats ((left two).map fun l => (two.thread 1 0 l).pc.toNat) = [9, 12] ∧ (two.warp 1 0).trapq = [] := by
  refine ⟨?_, beside_alone, beside_alone [], by decide, by decide, by decide, by decide, by decide, by decide, by decide, by decide, by decide,
    by decide, by decide, by decide, by decide⟩
  intro s hs
  simp only [List.mem_cons, List.not_mem_nil, or_false] at hs
  obtain rfl | rfl | rfl | rfl := hs <;>
    exact ⟨allReady (by decide), by decide, by unfold HasThread HasWarp; decide, by decide⟩

/-- `IssueChecks`: one state for each clause. -/
theorem witness_issue_checks :
    illegal (.nop { word pt u u u 0 0 with rsv := 1 }) { word pt u u u 0 0 with rsv := 1 } grp base = some 1 ∧
    (let s := base.modWarp 1 0 fun w => { w with fabFail := some { code := 14 } }
     illegal (.fence (word pt u u u 2 0)) (word pt u u u 2 0) grp s = none ∧
       (deferred (.fence (word pt u u u 2 0)) grp s).isSome = true) ∧
    (let f := word pt (v 4) (v 1) (v 2) 0 3
     let s := (base.addOp { kind := .calc [] 0, coh := 1, warp := 0, core := 0, dests := [{ vec := true, idx := 1 }] })
     illegal (.iadd f) f grp s = none ∧ deferred (.iadd f) grp s = none ∧ stalled (.iadd f) f grp s = true) ∧
    (let f := word pt (v 4) (v 1) (v 2) 0 3
     let s := base.modWarp 1 0 fun w => { w with poison := [{ vec := true, idx := 1, lane := 1, code := 15, detail := 1, addr := 0 }] }
     illegal (.iadd f) f grp s = none ∧ deferred (.iadd f) grp s = none ∧ stalled (.iadd f) f grp s = false ∧
       (marked (.iadd f) f grp s).isSome = true) := by decide

/-- `TrapIsTaken`: seven records queued already. -/
theorem witness_trap_room :
    let s := base.modWarp 1 0 fun w => { w with trapq := List.replicate 7 { code := 12 } }
    grp.ths ≠ [] ∧ (∀ x ∈ grp.ths, HasThread s 1 x.1 x.2) ∧
      ∀ w ∈ grp.warps, (s.warp grp.coh w).handler = false ∧ (s.warp grp.coh w).trapq.length < 8 := by
  unfold HasThread HasWarp; decide

/-- Page tables: addresses below 2^30 are readable, writable and executable. -/
def tables : List Host.Cell := [(0x1000, 0x01), (0x1001, 0x20), (0x2000, 0x01), (0x2001, 0x30), (0x3000, 0x0F)]
/-- `base` with those tables. -/
def mapped : State := { base with mem := tables }

/-- They are the tables `withFetchWord` sets. -/
theorem test_tables : (placeTables base).mem = tables := by decide

/-- `AccessChecks`: each clause of the global and of the scratchpad checks, at the edges. -/
theorem witness_access_checks :
    canonical (2 ^ 56) = false ∧ (canonical (2 ^ 56 - 1) = true ∧ (2 ^ 56 - 1) % 4 ≠ 0) ∧
    (canonical (2 ^ 30) = true ∧ 2 ^ 30 % 4 = 0 ∧ ∃ n, translate mapped 0 0 (2 ^ 30) .read = .fault n) ∧
    (canonical (2 ^ 30 - 4) = true ∧ (2 ^ 30 - 4) % 4 = 0 ∧ translate mapped 0 0 (2 ^ 30 - 4) .write = .ok (2 ^ 30 - 4)) ∧
    (((4094 : Int) % 4 ≠ 0) ∧ ((4096 : Int) % 4 = 0 ∧ ((mapped.coh 1).scratchSize : Int) < 4096 + 4) ∧
      ((-4 : Int) % 4 = 0 ∧ (-4 : Int) < 0) ∧ ((4092 : Int) % 4 = 0 ∧ (0 : Int) ≤ 4092 ∧ (4092 : Int) + 4 ≤ (mapped.coh 1).scratchSize)) := by
  refine ⟨by decide, by decide, ⟨by decide, by decide, ?_⟩, by decide, by decide⟩
  exact ⟨_, rfl⟩

/-- A check passes. -/
def passes : Gate → Bool
  | .pass _ => true
  | _ => false

theorem passes_iff {g : Gate} (h : passes g = true) : ∃ t, g = .pass t := by
  cases g <;> simp_all [passes]

/-- `mapped` with addresses and offsets in registers: s4 = 0x8000, s6 = s7 = 0x9000, s8 = 4092; v2 = 0 and 4. -/
def loaded : State := { mapped with cohorts := [(1, { coh1 with warps := [{ warp0 with
  sregs := [(4, 0x8000), (5, 1), (6, 0x9000), (7, 0x9000), (8, 4092)], vregs := [(65, 4)] }] })] }

/-- `ScratchLoads`, `ScratchStores`, `ScratchAtomics`: offsets up to the last word, of threads that meet no other's, and of
threads that meet. -/
theorem witness_scratch :
    AllReady [.lds (word pt (v 4) (sr 8) u 0 2), .ldk (word pt (v 4) (v 2) u 0 2), .ldk (word pt (sr 1) (sr 63) u 2044 2),
      .sts (word pt (v 4) (v 2) u 0 2), .sts (word pt (v 4) (sr 8) u 0 2), .atoms (word pt (v 5) (v 2) (im 1) 0 0)] loaded ∧
    (FMap.find loaded.cohorts grp.coh).isSome = true ∧
    (∀ f ∈ [word pt (v 4) (sr 8) u 0 2, word pt (v 4) (v 2) u 0 2], ∀ x ∈ grp.on f loaded, soOf loaded grp f true x.1 x.2 % 4 = 0 ∧
      0 ≤ soOf loaded grp f true x.1 x.2 ∧ soOf loaded grp f true x.1 x.2 + 4 ≤ (loaded.coh 1).scratchSize ∧
      acqHolds loaded 1 x.1 0 = false) ∧
    (∀ x ∈ ldkOrder grp (word pt (sr 1) (sr 63) u 2044 2) loaded,
      soOf loaded grp (word pt (sr 1) (sr 63) u 2044 2) false x.1 x.2 % 4 = 0 ∧
      0 ≤ soOf loaded grp (word pt (sr 1) (sr 63) u 2044 2) false x.1 x.2 ∧
      soOf loaded grp (word pt (sr 1) (sr 63) u 2044 2) false x.1 x.2 + 4 ≤ 2048) ∧
    (∀ x ∈ grp.on (word pt (v 5) (v 2) (im 1) 0 0) loaded,
      soOf loaded grp (word pt (v 5) (v 2) (im 1) 0 0) false x.1 x.2 % 4 = 0 ∧
      0 ≤ soOf loaded grp (word pt (v 5) (v 2) (im 1) 0 0) false x.1 x.2 ∧
      soOf loaded grp (word pt (v 5) (v 2) (im 1) 0 0) false x.1 x.2 + 4 ≤ (loaded.coh 1).scratchSize) ∧
    threadOrder grp (word pt (v 5) (v 2) (im 1) 0 0) loaded = [] ++ (0, 0) :: [(0, 1)] ∧
    (∀ y ∈ [(0, 1)], soOf loaded grp (word pt (v 5) (v 2) (im 1) 0 0) false 0 0 + 4 ≤
      soOf loaded grp (word pt (v 5) (v 2) (im 1) 0 0) false y.1 y.2) ∧ discards (v 5) = false ∧
    threadOrder grp (word pt (v 4) (sr 8) u 0 2) loaded = [(0, 0)] ++ (0, 1) :: [] :=
  ⟨allReady (by decide), by decide, by decide, by decide, by decide, by decide, by decide, by decide, by decide⟩

/-- `loaded` in a sealed task, with a mailbox header of 2^4 slots at 0x8000 and the slots at 0xA000. -/
def boxed : State := { loaded with
  mem := tables ++ [(0x8021, 0xA0), (0x8028, 4)]
  cohorts := [(1, { coh1 with sealed := .irrevocable, warps := [{ warp0 with
    sregs := [(4, 0x8000), (5, 1), (6, 0x9000), (7, 0x9000), (8, 4092)], vregs := [(65, 4)] }] })] }

/-- `GlobalAccessIssue`: each access passes its checks. -/
theorem witness_global_access :
    AllReady [.ld (word pt (v 4) (sr 4) (v 2) 0 2), .sld (word pt (sr 1) (sr 4) u 0 3), .st (word pt (v 4) (sr 4) (v 2) 0 2),
      .sst (word pt (sr 9) (sr 4) u 0 3), .atom (word pt (v 5) (sr 4) (im 1) 0x80 0x10), .satom (word pt (sr 1) (sr 4) (im 1) 0 0)] boxed ∧
    (∃ t, globalGate grp .read (threadOrder grp (word pt (v 4) (sr 4) (v 2) 0 2) boxed)
      (fun t => eaOf boxed grp (word pt (v 4) (sr 4) (v 2) 0 2) true t.1 t.2) 4 boxed = .pass t) ∧
    (∃ t, globalGate grp .read (warpOrder grp (word pt (sr 1) (sr 4) u 0 3) boxed)
      (fun t => eaOf boxed grp (word pt (sr 1) (sr 4) u 0 3) true t.1 t.2) 8 boxed = .pass t) ∧
    (∃ t, globalGate grp .write (threadOrder grp (word pt (v 4) (sr 4) (v 2) 0 2) boxed)
      (fun t => eaOf boxed grp (word pt (v 4) (sr 4) (v 2) 0 2) true t.1 t.2) 4 boxed = .pass t) ∧
    (∃ t, globalGate grp .write (warpOrder grp (word pt (sr 9) (sr 4) u 0 3) boxed)
      (fun t => eaOf boxed grp (word pt (sr 9) (sr 4) u 0 3) true t.1 t.2) 8 boxed = .pass t) ∧
    (∃ t, atomGate grp (word pt (v 5) (sr 4) (im 1) 0x80 0x10) (threadOrder grp (word pt (v 5) (sr 4) (im 1) 0x80 0x10) boxed) boxed =
      .pass t) ∧
    (∃ t, atomGate grp (word pt (sr 1) (sr 4) (im 1) 0 0) (warpOrder grp (word pt (sr 1) (sr 4) (im 1) 0 0) boxed) boxed = .pass t) :=
  ⟨allReady (by decide), passes_iff (by decide), passes_iff (by decide), passes_iff (by decide), passes_iff (by decide),
    passes_iff (by decide), passes_iff (by decide)⟩

/-- `OtherAccessIssue`. -/
theorem witness_other_access :
    AllReady [.redc (word pt (sr 4) (v 6) (im 1) 0 0), .mbxput (word pt u (sr 4) (sr 16) 0 0),
      .mbxget (word pt (sr 16) (sr 4) (sr 1) 0 0), .pref (word pt u (sr 4) (v 2) 0 0), .evict (word pt u (sr 4) (v 2) 0 1)] boxed ∧
    (∃ t, redcGate grp (word pt (sr 4) (v 6) (im 1) 0 0) boxed = .pass t) ∧
    (∃ t, mbxGate grp (word pt u (sr 4) (sr 16) 0 0) true boxed = .pass t) ∧
    (∃ t, mbxGate grp (word pt (sr 16) (sr 4) (sr 1) 0 0) false boxed = .pass t) ∧
    (∀ w ∈ grp.warpsOn (word pt u (sr 4) (v 2) 0 0) boxed, ∀ e ∈ softLanes grp (word pt u (sr 4) (v 2) 0 0) boxed w,
      acqHolds boxed 1 w (reachOf (lineOf e.2.2)) = false) ∧
    softLanes grp (word pt u (sr 4) (v 2) 0 1) boxed 0 ≠ [] :=
  ⟨allReady (by decide), passes_iff (by decide), passes_iff (by decide), passes_iff (by decide), by decide, by decide⟩

/-- One outstanding request of warp 0 of cohort 1, under operation 0. -/
def asking (o : Op) : State := { loaded with ops := [(0, o)] }
/-- A load of a word of the line at 0x8000 for lane 1, or of the last word of a line of die 1. -/
def loadOp (line : Nat) : Op :=
  { kind := .load 4 false false 4, coh := 1, warp := 0, core := 0, long := true, ths
    parts := [{ act := .load, line, va := line * 128, reads := [(1, line * 128 + 124, 4)] }] }

/-- `HomeLoads`: at the home of the core's own die, and for another die's line past the remote-data cache. -/
theorem witness_home_loads : ∀ line ∈ [0x100, 2 ^ 30], let o := loadOp line
    FMap.find (asking o).ops 0 = some o ∧ o.sp = false ∧ ∃ p, o.parts[0]? = some p ∧ p.act = .load ∧ p.late = false ∧
      partTurn (asking o) 0 o 0 p = true ∧ o.long = true ∧
      (∀ r ∈ p.reads, p.line * 128 ≤ r.2.1 ∧ r.2.1 + r.2.2 ≤ p.line * 128 + 128) ∧
      serving ((asking o).rdcOf (dieOf o.core)) p.line p.vreq = none := by
  intro line h
  simp only [List.mem_cons, List.not_mem_nil, or_false] at h
  obtain rfl | rfl := h <;> exact ⟨by decide, rfl, _, rfl, by decide, by decide, by decide, by decide, by decide, by decide⟩

/-- One request for the line at 0x8000. -/
def oneOp (kind : OpKind) (act : PartAct) : Op :=
  { kind, coh := 1, warp := 0, core := 0, ths, parts := [{ act, line := 0x100, va := 0x8000 }] }

/-- `HomeWrites`: a store, an atomic and a contribution that opens a round. -/
theorem witness_home_writes :
    ∀ o ∈ [oneOp .store (.store [(0x8000, 5)]), oneOp (.atomic false false false none) (.atomic 0 0 0x8000 [(0, 1, 0)]),
        oneOp .redc (.redc 0 0 0x8000 1 2 0x8008)],
      FMap.find (asking o).ops 0 = some o ∧ (o.parts[0]?.map fun p => partTurn (asking o) 0 o 0 p) = some true ∧ o.sp = false ∧
      ((asking o).ctx ((asking o).coh o.coh).ctx).decls = [] ∧ roundRoom (asking o) 0x100 = true ∧ roundOf (asking o) 0x100 = none ∧
      1 < 2 := by decide

/-- `HomeWrites`, `RoundCompletion`: the second of three contributions, and the last of two. -/
theorem witness_rounds :
    (let o := oneOp .redc (.redc 0 0 0x8000 1 3 0x8008)
     let s := { asking o with rounds := [{ line := 0x100, got := 1, n := 3, ready := 0x8008, hi := 0 }] }
     (o.parts[0]?.map fun p => partTurn s 0 o 0 p) = some true ∧ roundRoom s 0x100 = true ∧
       ∃ r, roundOf s 0x100 = some r ∧ r.got + 1 < r.n) ∧
    (let o := oneOp .redc (.redc 0 0 0x8000 1 2 0x8008)
     let s := { asking o with rounds := [{ line := 0x100, got := 1, n := 2, ready := 0x8008, hi := 0 }] }
     (o.parts[0]?.map fun p => partTurn s 0 o 0 p) = some true ∧ (s.ctx (s.coh o.coh).ctx).decls = [] ∧
       ∃ r, roundOf s 0x100 = some r ∧ r.got + 1 = r.n ∧ 0x8000 + tyBytes 0 ≤ r.ready ∧ readyLoss s 0x100 r.ready = none) ∧
    (readyLoss { base with absent := [3] } 0x100 (peerKey 3 0) = some 1 ∧ HasWarp base 1 0) :=
  ⟨⟨by decide, by decide, _, rfl, by decide⟩, ⟨by decide, by decide, _, rfl, by decide, by decide, by decide⟩, by decide,
    show 0 < (base.coh 1).warps.length by decide⟩

/-- `LongCompletion`: a division that has its result. -/
theorem witness_long_completion :
    let o : Op := { kind := .calc [.s 1 5] 0, coh := 1, warp := 0, core := 0, long := true, ths, dests := [{ vec := false, idx := 1 }] }
    FMap.find (asking o).ops 0 = some o ∧ o.plainLong = true ∧ o.replied = true ∧
      (∀ e ∈ (asking o).ops, e.2.coh = o.coh → e.2.isWait = false) ∧ HasWarp (asking o) o.coh o.warp := by
  unfold HasWarp; decide

/-- A store of cohort 1 to the line at 0x8000 in a set it holds; the task's undo records, its seal, whether it is wounded. -/
def heldStore (undo : List Undo) (sealed : SealWhy) (wounded was : Bool) : State :=
  { loaded with
    ops := [(0, { kind := .store, coh := 1, warp := 0, core := 0, ths
                  parts := [{ act := .store [(0x8000, 5)], line := 0x100, va := 0x8000, heldSeal := was }] })]
    ctxs := [(0, { decls := [{ num := 0, base := 0x8000, len := 128, holder := some 1 }] })]
    cohorts := [(1, { loaded.coh 1 with undo, sealed, wounded })] }

theorem held_used (undo : List Undo) : undoUsed (heldStore undo .unsealed false false) 0 = undo.length := Nat.zero_add _

/-- `HeldSetWrites`: a line recorded already, room, no room (unsealed and sealed), a wound. -/
theorem witness_held_writes :
    let full := List.replicate 512 { line := 5, bytes := [] }
    (∀ x ∈ [([{ line := 0x100, bytes := [] }], SealWhy.unsealed, false, false), ([], .unsealed, false, false),
        (full, .unsealed, false, false), (full, .irrevocable, false, false), (full, .unsealed, true, false),
        ([], .unsealed, true, true)],
      let s := heldStore x.1 x.2.1 x.2.2.1 x.2.2.2
      ∃ o p, FMap.find s.ops 0 = some o ∧ o.parts[0]? = some p ∧ partTurn s 0 o 0 p = true ∧ o.sp = false ∧
        p.act = .store [(0x8000, 5)] ∧ (FMap.find s.cohorts o.coh).isSome = true ∧
        ((s.ctx (s.coh o.coh).ctx).decls.any fun d => d.heldBy o.coh && d.meets (p.va, 1)) = true) ∧
    undoUsed (heldStore full .unsealed false false) 0 = 512 ∧ undoUsed (heldStore [] .unsealed false false) 0 = 0 := by
  refine ⟨?_, (held_used _).trans List.length_replicate, by decide⟩
  intro x hx
  simp only [List.mem_cons, List.not_mem_nil, or_false] at hx
  obtain rfl | rfl | rfl | rfl | rfl | rfl := hx <;> exact ⟨_, _, rfl, rfl, by decide, rfl, rfl, by decide, by decide⟩

/-- Cohort 5 issues in context 0, which has set 0 at 0x8000 held by `holder`; cohorts 3 and 7 are its other tasks. -/
def contended (holder : Option Nat) (ops : FMap Op) (sealed : SealWhy) : State :=
  { mapped with
    cores := [(0, { core0 with entries := [(0, { coh := 5, pc := 7, ths })] })]
    cohorts := [(3, coh1), (5, { loaded.coh 1 with sealed }), (7, { coh1 with core := 1 })], ops
    ctxs := [(0, { st := .active, ptbase := 0x1000
                   decls := [{ num := 0, base := 0x8000, len := 128, holder, release := 9 }] })] }
/-- Its issuing group. -/
def grp5 : Iss := { grp with coh := 5 }

/-- A check ends in a wait. -/
def waitsFor : Gate → Option (State × List Nat)
  | .block s ws => some (s, ws)
  | _ => none

theorem waits_iff {g : Gate} (h : (waitsFor g).isSome = true) : ∃ u ws, g = .block u ws := by
  cases g <;> simp_all [waitsFor]

/-- `SetAcquisition`: the set is held by the task, free, free with an older task waiting, held by an older and by a younger
one; a sealed task; LD and ST that reach the set, held by an older task. -/
theorem witness_set_acquisition :
    let set := fun h : Option Nat => ({ num := 0, base := 0x8000, len := 128, holder := h, release := 9 } : DeclSet)
    let older : FMap Op := [(0, { kind := .setWait 0, coh := 3, warp := 0, core := 0 })]
    (∀ h ∈ [some 5, none, some 3, some 7], ((contended h [] .unsealed).ctx ((contended h [] .unsealed).coh 5).ctx).decls.find?
      (fun e => e.num = 0) = some (set h)) ∧
    (setWaiters (contended none [] .unsealed) 0 0).any (fun k => k < 5) = false ∧
    (setWaiters (contended none older .unsealed) 0 0).any (fun k => k < 5) = true ∧
    (let s := contended (some 7) [] .unsealed
     5 < 7 ∧ (s.coh 7).sealed = .unsealed ∧ (s.coh 7).wounded = false ∧ (s.coh 7).over = false ∧
       (FMap.find s.cohorts 7).isSome = true) ∧
    (let s := contended none [] .irrevocable
     (s.coh 5).sealed ≠ .unsealed ∧ ((reachedSets s 0 [(0x8000, 4)]).filter fun d => !d.heldBy 5 && d.governs s grp5) = [set none]) ∧
    (let s := contended (some 3) [] .unsealed
     let f := word pt (v 4) (sr 4) (v 2) 0 2
     AllReady [.ld f, .st f] s ∧ ∀ n ∈ [Need.read, .write], ∃ u ws,
       globalGate grp5 n (threadOrder grp5 f s) (fun t => eaOf s grp5 f true t.1 t.2) (accWidth f.modn) s = .block u ws) := by
  refine ⟨by decide, by decide, by decide, by decide, by decide, allReady (by decide), ?_⟩
  intro n hn
  simp only [List.mem_cons, List.not_mem_nil, or_false] at hn
  obtain rfl | rfl := hn <;> exact waits_iff (by decide)

/-- `EvictionsAndPolls`: the only line of its set, which goes next, and a line not there; a poll whose condition holds,
and one whose does not. -/
theorem witness_eviction_and_polls :
    (let s : State := { base with l2 := [{ line := 9, w := 3, e := 7, hint := 0 }] }
     (s.l2.find? fun (x : HLine) => x.line = 9).isSome = true ∧ isHost 9 = false ∧
       ((s.l2Victim 9).any fun x => x.line = 9) = true) ∧ ((base.l2Victim 9).any fun x => x.line = 9) = false ∧
    (∀ cmp ∈ [0, 1], let o : Op := { kind := .waitc 0x8000 0 0 cmp 1 true 0, coh := 1, warp := 0, core := 0, ths, busy := false }
      FMap.find (asking o).ops 0 = some o ∧ 0 ≤ ((asking o).core o.core).cycle ∧ HasWarp (asking o) o.coh o.warp ∧
        (asking o).unreachable (lineOf 0x8000) = false ∧
        (∀ e ∈ (asking o).ops, e.2.coh = o.coh → e.1 = 0 ∨ e.2.isWait = false) ∧
        condHolds 0 (readTy 0 ((asking o).num 0x8000 (tyBytes 0))) (readTy 0 cmp) = (cmp == 0)) :=
  ⟨⟨by decide, by decide, by simp [State.l2Victim, victim, lastPos, sameL2Set]⟩, by decide, by unfold HasWarp; decide⟩

/-- `EngineAcceptance`, `MatrixConfiguration`, `MatrixSequencer`: the core is there. -/
theorem witness_core : (FMap.find base.cores grp.core).isSome = true := by decide

/-- A tensor record: F32, rank 2, extents 64 × 4, strides 1 and 64, bounds to match, blocks of 32 × 2, at 0x10000. -/
def recBytes : List Byte :=
  leBytes 8 0x10000 ++ leBytes 8 0x0200 ++ leBytes 4 64 ++ leBytes 4 4 ++ leBytes 16 0 ++ leBytes 8 1 ++ leBytes 8 64 ++
    leBytes 32 0 ++ leBytes 4 0 ++ leBytes 4 64 ++ leBytes 4 0 ++ leBytes 4 4 ++ leBytes 32 0 ++ leBytes 2 32 ++ leBytes 2 2 ++
    leBytes 52 0

/-- The places a world's zero descriptor at 0x8000 names: none. -/
def geo8 : Geo :=
  { desc := 0x8000, dirBase := 0, dirCap := 0, tabBase := 0, tabCap := 0, qBase := 0, qLog2 := 0, spillBase := 0, spillSize := 0
    pools := List.replicate 4 (0, 0) }

/-- A core with that record cached at 0x5400, a weight table at 0x7000, and memory with descriptors, their lines resident:
a texture at 0x5000, a BVH at 0x5080, a distribution table at 0x5100, a stream at 0x5180, a query of world 2 at 0x5200; node 0 at
0x5600; world 2 with component 5, and its cursor 3. s4 to s17 hold the operands. -/
def dev : State := { base with
  mem := tables ++ [(0x5001, 0x60), (0x5008, 4), (0x500C, 4), (0x5010, 1), (0x5011, 1), (0x5081, 0x60), (0x5088, 1), (0x5108, 7),
    (0x5181, 0x54), (0x5194, 1), (0x5196, 1), (0x5198, 3), (0x5322, 2)]
  l2 := (upto 12).map fun i => { line := 0xA0 + i, w := 0, e := 0, hint := 0 }
  worlds := [(2, { geo := geo8, comptab := List.replicate 5 0xFF ++ [2]
                   cursors := [(3, { coh := some 1, q := { world := 2, req := 0, excl := 0, ret := [] }, pins := [] })] })]
  cores := [(0, { core0 with
    recs := [{ ctx := 0, addr := 0x5400, bytes := recBytes }], wts := [{ ctx := 0, addr := 0x7000, weights := [] }] })]
  ctxs := [(0, { st := .active, ptbase := 0x1000
                 nodes := [{ idx := 0, addr := 0x5600, kdesc := 0, timer := 9, count := 2, recsize := 16 }] })]
  cohorts := [(1, { coh1 with sealed := .asseal, warps := [{ warp0 with
    sregs := [(2, 0x5400), (4, 0x8000), (5, 0), (6, 256), (7, 64), (8, 0x20000000100), (9, 1), (10, 0x5000), (11, 0x5080),
      (12, 0x5100), (13, 0x5180), (14, 0x5600), (15, 0x5200), (16, 2), (17, 3), (18, 0x7000), (20, 512), (21, 0x800000008),
      (22, 0x100000000), (23, 0), (24, 0x400)]
    vregs := [(64, 0x20000000), (65, 0x20000000), (224, 0x02000000), (225, 0x02000000)] }] })] }

/-- `CommandIssue`: every command issues and passes its checks. -/
theorem witness_commands_ready : AllReady
    [.acopy (word pt (sr 1) (sr 4) (sr 6) 0 0), .agath (word pt (sr 1) (sr 2) (sr 8) 0 0), .ascat (word pt (sr 1) (sr 2) (sr 8) 0 0),
      .ablkg (word pt (sr 1) (sr 2) (sr 8) 0 0), .ablks (word pt (sr 1) (sr 2) (sr 8) 0 0),
      .axpose (word pt (sr 1) (sr 5) (sr 20) 1 0), .subs (word pt (sr 1) (sr 13) u 0 0), .rfence (word pt (sr 1) u u 0 0),
      .tspawn (word pt (sr 1) (sr 14) (sr 22) 0 0), .wdnext (word pt (sr 1) (sr 12) (sr 6) 0 0), .launch (word pt (sr 1) (sr 4) u 0 0),
      .texs (word pt (sr 1) (sr 10) (v 4) 8 0), .texl (word pt (sr 1) (sr 10) (v 4) 8 0), .texl (word pt (sr 1) (sr 10) (v 8) 16 1),
      .texg (word pt (sr 1) (sr 10) (v 4) 8 0), .texq (word pt (sr 1) (sr 10) (v 4) 8 0), .texd (word pt (sr 1) (sr 18) (v 4) 8 0),
      .twfence (word pt (sr 1) u u 0 0), .rayq (word pt (sr 1) (sr 11) (v 8) 0x800 0)] dev :=
  allReady (by decide)

set_option maxRecDepth 100000 in
/-- `CommandIssue`: the checks of copies, transposes, gathers, scatters and subscriptions pass. -/
theorem witness_copies :
    (∃ t, engGate grp (word pt (sr 1) (sr 4) (sr 6) 0 0) (plainGate grp (word pt (sr 1) (sr 4) (sr 6) 0 0))
      (copyAccs grp (word pt (sr 1) (sr 4) (sr 6) 0 0)) false dev = .pass t) ∧
    (∃ t, engGate grp (word pt (sr 1) (sr 2) (sr 8) 0 0) (listGate true false grp (word pt (sr 1) (sr 2) (sr 8) 0 0))
      (listAccs false grp (word pt (sr 1) (sr 2) (sr 8) 0 0)) false dev = .pass t) ∧
    (∃ t, engGate grp (word pt (sr 1) (sr 2) (sr 8) 0 0) (listGate false false grp (word pt (sr 1) (sr 2) (sr 8) 0 0))
      (listAccs false grp (word pt (sr 1) (sr 2) (sr 8) 0 0)) true dev = .pass t) ∧
    (∃ t, engGate grp (word pt (sr 1) (sr 2) (sr 8) 0 0) (listGate true true grp (word pt (sr 1) (sr 2) (sr 8) 0 0))
      (listAccs true grp (word pt (sr 1) (sr 2) (sr 8) 0 0)) false dev = .pass t) ∧
    (∃ t, engGate grp (word pt (sr 1) (sr 2) (sr 8) 0 0) (listGate false true grp (word pt (sr 1) (sr 2) (sr 8) 0 0))
      (listAccs true grp (word pt (sr 1) (sr 2) (sr 8) 0 0)) true dev = .pass t) ∧
    (∃ t, engGate grp (word pt (sr 1) (sr 5) (sr 20) 1 0) (xposeGate grp (word pt (sr 1) (sr 5) (sr 20) 1 0)) (fun _ _ => []) false dev =
      .pass t) :=
  ⟨passes_iff (by decide), passes_iff (by decide), passes_iff (by decide), passes_iff (by decide), passes_iff (by decide),
    passes_iff (by decide)⟩

set_option maxRecDepth 100000 in
theorem witness_subscription :
    (∃ t, engGate grp (word pt (sr 1) (sr 13) u 0 0) (subsGate grp (word pt (sr 1) (sr 13) u 0 0))
      (fun s w => [(opSA s grp (word pt (sr 1) (sr 13) u 0 0) w, 64)]) false dev = .pass t) ∧
    (grp.warpsOn (word pt (sr 1) (sr 13) u 0 0) dev).length ≤ 1 ∧ (dev.coh grp.coh).sealed ≠ .unsealed :=
  ⟨passes_iff (by decide), by decide, by decide⟩

set_option maxRecDepth 100000 in
theorem witness_task_commands :
    (∃ t, engGate grp (word pt (sr 1) (sr 14) (sr 22) 0 0) (spawnGate grp (word pt (sr 1) (sr 14) (sr 22) 0 0))
      (fun s w => if spawnTiles s grp (word pt (sr 1) (sr 14) (sr 22) 0 0) w = 0 then []
        else [(spawnTiles s grp (word pt (sr 1) (sr 14) (sr 22) 0 0) w, 64)]) true dev = .pass t) ∧
    (∃ t, engGate grp (word pt (sr 1) (sr 12) (sr 6) 0 0) (wdnextGate grp (word pt (sr 1) (sr 12) (sr 6) 0 0))
      (fun s w => [(opSA s grp (word pt (sr 1) (sr 12) (sr 6) 0 0) w, 64)]) true dev = .pass t) ∧
    (∃ t, engGate grp (word pt (sr 1) (sr 4) u 0 0) (fun w s => (alignGate 7 (opSA s grp (word pt (sr 1) (sr 4) u 0 0) w) s).andThen
      (readGate grp w (opSA s grp (word pt (sr 1) (sr 4) u 0 0) w, 128)))
      (fun s w => [(opSA s grp (word pt (sr 1) (sr 4) u 0 0) w, 128)]) true dev = .pass t) :=
  ⟨passes_iff (by decide), passes_iff (by decide), passes_iff (by decide)⟩

set_option maxRecDepth 100000 in
theorem witness_sampler :
    (∃ t, engGate grp (word pt (sr 1) (sr 10) (v 4) 8 0) (sampleGate 2 planTexs grp (word pt (sr 1) (sr 10) (v 4) 8 0))
      (sampleAccs planTexs grp (word pt (sr 1) (sr 10) (v 4) 8 0)) false dev = .pass t) ∧
    (∃ t, engGate grp (word pt (sr 1) (sr 10) (v 4) 8 0)
      (sampleGate 4 (planTexl (word pt (sr 1) (sr 10) (v 4) 8 0)) grp (word pt (sr 1) (sr 10) (v 4) 8 0))
      (sampleAccs (planTexl (word pt (sr 1) (sr 10) (v 4) 8 0)) grp (word pt (sr 1) (sr 10) (v 4) 8 0)) false dev = .pass t) ∧
    (∃ t, engGate grp (word pt (sr 1) (sr 10) (v 8) 16 1)
      (sampleGate 8 (planTexl (word pt (sr 1) (sr 10) (v 8) 16 1)) grp (word pt (sr 1) (sr 10) (v 8) 16 1))
      (sampleAccs (planTexl (word pt (sr 1) (sr 10) (v 8) 16 1)) grp (word pt (sr 1) (sr 10) (v 8) 16 1)) false dev = .pass t) ∧
    (∃ t, engGate grp (word pt (sr 1) (sr 10) (v 4) 8 0)
      (sampleGate 2 (planTexg (word pt (sr 1) (sr 10) (v 4) 8 0)) grp (word pt (sr 1) (sr 10) (v 4) 8 0))
      (sampleAccs (planTexg (word pt (sr 1) (sr 10) (v 4) 8 0)) grp (word pt (sr 1) (sr 10) (v 4) 8 0)) false dev = .pass t) :=
  ⟨passes_iff (by decide), passes_iff (by decide), passes_iff (by decide), passes_iff (by decide)⟩

set_option maxRecDepth 100000 in
theorem witness_decode_query_rays :
    (∃ t, engGate grp (word pt (sr 1) (sr 10) (v 4) 8 0) (fun w s => (runsGate grp (word pt (sr 1) (sr 10) (v 4) 8 0) 1 true w s).andThen
      (descGate grp (word pt (sr 1) (sr 10) (v 4) 8 0) texDescBytes (texFault (s.hasCap (fnOf (s.coh grp.coh).ctx) 2)) w))
      (fun s w => [(opSA s grp (word pt (sr 1) (sr 10) (v 4) 8 0) w, texDescBytes)]) false dev = .pass t) ∧
    (∃ t, engGate grp (word pt (sr 1) (sr 18) (v 4) 8 0) (texdGate grp (word pt (sr 1) (sr 18) (v 4) 8 0))
      (texdAccs grp (word pt (sr 1) (sr 18) (v 4) 8 0)) false dev = .pass t) ∧
    (∃ t, engGate grp (word pt (sr 1) (sr 11) (v 8) 0x800 0) (rayGate grp (word pt (sr 1) (sr 11) (v 8) 0x800 0))
      (rayqAccs grp (word pt (sr 1) (sr 11) (v 8) 0x800 0)) false dev = .pass t) :=
  ⟨passes_iff (by decide), passes_iff (by decide), passes_iff (by decide)⟩

/-- `WorldCommandIssue`: every command issues; world 2 is registered, and handles in v6 and v7 are of world 2. -/
theorem witness_world_ready : AllReady
    [.wspawn (word pt (sr 1) (sr 16) (v 20) 0 0), .wkill (word ⟨false, 2⟩ (sr 1) (v 6) u 1 0), .waddc (word ⟨false, 2⟩ (sr 1) (v 6) (v 0) 0x00050001 0),
      .wremc (word ⟨false, 2⟩ (sr 1) (v 6) u 0x00050002 0), .wqry (word pt (sr 1) (sr 15) u 0 0), .wnext (word pt (sr 1) (sr 17) (sr 24) 0 0),
      .wclose (word pt (sr 1) (sr 17) u 0 0), .wres (word ⟨false, 2⟩ (sr 1) (v 6) (sr 20) 0 0), .wcol (word ⟨false, 2⟩ (sr 1) (v 6) (v 20) 5 0),
      .wsync (word pt (sr 1) (sr 16) u 0 0)] dev :=
  allReady (by decide)

set_option maxRecDepth 100000 in
/-- `WorldCommandIssue`: the checks of the changes pass. -/
theorem witness_world_changes :
    ∀ x ∈ [(0, word pt (sr 1) (sr 16) (v 20) 0 0), (1, word ⟨false, 2⟩ (sr 1) (v 6) u 1 0), (2, word ⟨false, 2⟩ (sr 1) (v 6) (v 0) 0x00050001 0),
        (3, word ⟨false, 2⟩ (sr 1) (v 6) u 0x00050002 0)],
      ∃ t, engGate grp x.2 (fun w s => laneGate grp x.2 (fun w l s => changeGate grp x.2 x.1 (changeWorld s grp x.2 x.1 w l) w l s) w s)
        (fun _ _ => []) true dev = .pass t :=
  fun x h => passes_iff (by revert x; decide)

set_option maxRecDepth 100000 in
/-- `WorldCommandIssue`, `SyncArrival`: the checks of queries, cursors, resolutions and syncs pass. -/
theorem witness_world_reads :
    (∃ t, engGate grp (word pt (sr 1) (sr 15) u 0 0) (queryGate grp (word pt (sr 1) (sr 15) u 0 0))
      (fun s w => [(opSA s grp (word pt (sr 1) (sr 15) u 0 0) w, 512)]) false dev = .pass t) ∧
    (∃ t, engGate grp (word pt (sr 1) (sr 17) (sr 24) 0 0) (fun w s =>
      (alignGate 6 (lo32 (opSB s grp (word pt (sr 1) (sr 17) (sr 24) 0 0) w)) s).andThen fun s =>
        (rangeGate grp (lo32 (opSB s grp (word pt (sr 1) (sr 17) (sr 24) 0 0) w)) 256 s).andThen
          (cursorGate grp (word pt (sr 1) (sr 17) (sr 24) 0 0) w)) (fun _ _ => []) false dev = .pass t) ∧
    (∃ t, engGate grp (word pt (sr 1) (sr 17) u 0 0) (cursorGate grp (word pt (sr 1) (sr 17) u 0 0)) (fun _ _ => []) false dev = .pass t) ∧
    (∃ t, engGate grp (word pt (sr 1) (sr 16) u 0 0) (fun w s => worldGate grp (worldOf s grp (word pt (sr 1) (sr 16) u 0 0) w) s)
      (fun _ _ => []) true dev = .pass t) ∧
    (FMap.find dev.worlds (worldKey (grp.ctx dev) (worldOf dev grp (word pt (sr 1) (sr 16) u 0 0) 0))).isSome = true :=
  ⟨passes_iff (by decide), passes_iff (by decide), passes_iff (by decide), passes_iff (by decide), by decide⟩

set_option maxRecDepth 100000 in
theorem witness_resolution :
    (∃ t, engGate grp (word ⟨false, 2⟩ (sr 1) (v 6) (sr 20) 0 0) (fun w s =>
      (alignGate 4 (lo32 (opSB s grp (word ⟨false, 2⟩ (sr 1) (v 6) (sr 20) 0 0) w)) s).andThen fun s =>
        (rangeGate grp (lo32 (opSB s grp (word ⟨false, 2⟩ (sr 1) (v 6) (sr 20) 0 0) w)) 512 s).andThen
          (laneGate grp (word ⟨false, 2⟩ (sr 1) (v 6) (sr 20) 0 0) (fun w l s =>
            worldGate grp (handleWorld (handleOf s grp (word ⟨false, 2⟩ (sr 1) (v 6) (sr 20) 0 0) w l)) s) w)) (fun _ _ => []) false dev = .pass t) :=
  passes_iff (by decide)

set_option maxRecDepth 100000 in
theorem witness_column :
    (∃ t, engGate grp (word ⟨false, 2⟩ (sr 1) (v 6) (v 20) 5 0) (laneGate grp (word ⟨false, 2⟩ (sr 1) (v 6) (v 20) 5 0) (fun w l s =>
      (worldGate grp (handleWorld (handleOf s grp (word ⟨false, 2⟩ (sr 1) (v 6) (v 20) 5 0) w l)) s).andThen fun s =>
        if worldFailed s (grp.ctx s) (handleWorld (handleOf s grp (word ⟨false, 2⟩ (sr 1) (v 6) (v 20) 5 0) w l)) then .pass s
        else compGate grp (handleWorld (handleOf s grp (word ⟨false, 2⟩ (sr 1) (v 6) (v 20) 5 0) w l)) 5 s)) (fun _ _ => []) false dev = .pass t) :=
  passes_iff (by decide)

/-- A command of warp 0 whose future is s2. -/
def cmdOp (cmd : EngCmd) : Op :=
  { kind := .eng cmd, coh := 1, warp := 0, core := 0, ths, dests := [{ vec := false, idx := 2 }], fut := some 4 }

/-- `EngineCompletion`: a fence, a transpose, a cancelled copy, a LAUNCH whose launch is done, and a sampling command. -/
theorem witness_engine_completion :
    (∀ o ∈ [cmdOp .rfence, cmdOp .twfence, cmdOp (.xpose 0 512 8 8 1), { cmdOp (.copy 0 0 0 16 0) with cancelled := true },
        cmdOp (.launch (some 0)), cmdOp (.tex [.v 8 0 1] 1 0 0)],
      FMap.find (asking o).ops 0 = some o ∧ (o.dests.find? fun d => !d.vec).map Dest.idx = some 2 ∧ o.fut = some 4 ∧
        o.held = none ∧ HasWarp (asking o) o.coh o.warp ∧ (∀ e ∈ (asking o).ops, e.2.coh = o.coh → e.2.isWait = false) ∧ o.soft = false ∧
        o.fabricFail = none ∧ ((asking o).coh o.coh).scratchBad = []) ∧
    (∃ l, FMap.find ({ asking (cmdOp (.launch (some 0))) with launches := [(0, { launch0 with done := true })] }).launches 0 =
      some l ∧ l.done = true) := by
  refine ⟨by unfold HasWarp; decide, _, rfl, rfl⟩

/-- `FutureInstructions`: FCANCEL of s2, a copy's future; FWAIT on s2 and on s3, which nothing makes pending. -/
theorem witness_futures :
    let s := asking (cmdOp (.copy 0 0 0 16 0))
    AllReady [.fcancel (word pt u (sr 2) u 0 0), .fwait (word pt (sr 1) u u 4 0), .fwait (word pt (sr 1) u u 8 0)] s ∧
    (EngCmd.copy 0 0 0 16 0).cancels = true ∧
    ((cmdOp (.copy 0 0 0 16 0)).dests.any fun d => !d.vec && d.idx = 2) = true ∧
    (∀ w ∈ grp.warpsOn (word pt (sr 1) u u 8 0) s, futuresMet 8 (futuresReady s 1 w 8 false) false = true) ∧
    (∃ w ∈ grp.warpsOn (word pt (sr 1) u u 4 0) s, futuresMet 4 (futuresReady s 1 w 4 false) false = false) :=
  ⟨allReady (by decide), by decide, by decide, by decide, 0, by decide, by decide⟩

/-- A stream of three items in two slots at 0, the first FULL or not, the second HELD. -/
def stream (st : SlotSt) (dst : Option Tensor) : Stream :=
  { src := parseRecord recBytes, dst, ring := 0, slotBytes := 4096, nslot := 2, count := 3, ret := 0, slots := [(st, 0), (.held, 1)]
    op := 9, warp := 0, view := 0 }
def streaming (x : Stream) : State := { base with cohorts := [(1, { coh1 with scratchSize := 8192, streams := [(0, x)] })] }

/-- `RingInstructions`: a slot to take, none to take, a HELD slot to leave. -/
theorem witness_rings :
    (∀ st ∈ [SlotSt.full, SlotSt.filling], AllReady [.slotw (word pt (sr 1) u u 0 0), .slotf (word pt u (sr 1) u 0 0)]
      (streaming (stream st none))) ∧
    grp.warpsOn (word pt (sr 1) u u 0 0) base = [0] ∧
    ((stream .full none).take).isSome = true ∧ (stream .filling none).take = none ∧
    ((stream .full none).nextTake < (stream .full none).count ∧
      (stream .full none).slot ((stream .full none).nextTake % (stream .full none).nslot) = (.full, (stream .full none).nextTake)) ∧
    (∃ t, gateAll (grp.warpsOn (word pt u (sr 1) u 0 0) (streaming (stream .held none)))
      (slotfGate grp (word pt u (sr 1) u 0 0)) (streaming (stream .held none)) = .pass t) ∧
    ((stream .full none).slotAt 4096 = some 1 ∧ ((stream .full none).slot 1).1 = .held ∧ 1 < (stream .full none).slots.length ∧
      ((stream .full none).slot 1).2 + 1 ≠ (stream .full none).count) ∧
    (stream .full (some (parseRecord recBytes))).dst.isSome = true := by
  refine ⟨?_, by decide, by decide, by decide, by decide, passes_iff (by decide), by decide, by decide⟩
  intro st h
  simp only [List.mem_cons, List.not_mem_nil, or_false] at h
  obtain rfl | rfl := h <;> exact allReady (by decide)

/-- `FenceOrders`: a store within the fence's scope has not replied, or nothing is outstanding. -/
theorem witness_fences :
    AllReady [.fence (word pt u u u 1 0)] base ∧ AllReady [.fence (word pt u u u 1 0)] (asking (oneOp .store (.store [(0x8000, 5)]))) ∧
    (∃ w ∈ grp.warpsOn (word pt u u u 1 0) base, fenceOpen (asking { oneOp .store (.store [(0x8000, 5)]) with reach := 1 }) 1 w 1 = true) ∧
    (∀ w ∈ grp.warpsOn (word pt u u u 1 0) base, fenceOpen base 1 w 1 = false) :=
  ⟨allReady (by decide), allReady (by decide), ⟨0, by decide, by decide⟩, by decide⟩

/-- `NamedBarriers`: the checks pass; an arrival short of the count, and the one that makes it. -/
theorem witness_barriers :
    AllReady [.bar (word pt u u u 0x103 0), .barArv (word pt u u u 0x113 0), .barWt (word pt u u u 0x23 0)] base ∧
    barGate grp (word pt u u u 0x103 0) base = .pass base ∧
    (FMap.find base.cohorts 1).isSome = true ∧ 0 ∉ ((base.coh 1).bar 3).arrived ∧
    ((base.coh 1).bar 3).arrived.length + 1 < 2 ∧ 1 ≤ ((base.coh 1).bar 3).arrived.length + 1 ∧ ∀ e ∈ base.ops, e.2.isWait = false :=
  ⟨allReady (by decide), rfl, by decide, by decide, by decide, by decide, by decide⟩

/-- `NamedBarriers`: warp 0 waits for barrier 3 in entry 1 and is released by another's arrival; a waiting warp that arrived. -/
theorem witness_barrier_release :
    let o : Op := { kind := .barWait 3 0, coh := 1, warp := 0, core := 0, ths, busy := false }
    let b : Barrier := { count := some 2, arrived := [0], last := [(0, 0)] }
    let g : Group := { coh := 1, pc := 7, ths, waits := [0] }
    let s := { base with
      ops := [(0, o)], cores := [(0, { core0 with entries := [(1, g)] })], cohorts := [(1, { coh1 with bars := [(3, b)] })] }
    (s.coh 1).bar 3 = b ∧ 5 ∉ b.arrived ∧ 2 ≤ b.arrived.length + 1 ∧ HasWarp s 1 0 ∧
      (∀ e ∈ s.ops, e.2.coh = 1 → e.2.isWait = true → e.2.kind = .barWait 3 0) ∧ FMap.find s.ops 0 = some o ∧
      FMap.find (s.core o.core).entries 1 = some g ∧ g.waits = [0] ∧ g.again = false ∧
      (grp.ths.filter fun x => (barOpen s 1 3 x.1).isSome) = grp.ths ∧ grp.ths ≠ [] ∧ (FMap.find s.cores 0).isSome = true := by
  unfold HasWarp; decide

/-- `WaitcReturnsOrWaits`: the word at 0x8000 is 0: equal to the comparand 0, and not to 1. -/
theorem witness_waitc :
    (∀ f ∈ [word pt (sr 1) (sr 4) (im 0) 0 0, word pt (sr 1) (sr 4) (im 1) 0 0], shows (.waitc f) loaded = true ∧
      grp.warpsOn f loaded = [0] ∧ passes (globalGate grp .read (warpOrder grp f loaded)
        (fun t => eaOf loaded grp f false t.1 t.2) (tyBytes (waitcTy f)) loaded) = true ∧
      ownOut loaded 1 0 (lineOf (keyOf loaded grp (eaOf loaded grp f false 0 0))) = false ∧
      condHolds (waitcCond f) (readTy (waitcTy f) (loaded.num (keyOf loaded grp (eaOf loaded grp f false 0 0)) (tyBytes (waitcTy f))))
        (readTy (waitcTy f) (loaded.srcS 1 0 f.sb).toNat) = (f.sb == im 0) ∧
      loaded.unreachable (lineOf (keyOf loaded grp (eaOf loaded grp f false 0 0))) = false) ∧
    HasWarp loaded 1 0 ∧ (∀ e ∈ loaded.ops, e.2.coh = 1 → e.2.isWait = false) ∧ ∀ e ∈ loaded.ops, e.1 < loaded.nextOp := by
  unfold HasWarp; decide

/-- `DependentLaunches`: a predecessor that left the table, one that is done, and one that is not. -/
theorem witness_launches :
    let s := { base with launches := [(0, { launch0 with pred := some 1 }), (1, { launch0 with done := true, status := 3 })] }
    let t := { base with launches := [(0, { launch0 with pred := some 1 }), (1, launch0)] }
    AllReady [.succok (word pt u u u 0 0), .waitpred (word pt (sr 5) u u 0 0)] s ∧ AllReady [.waitpred (word pt (sr 5) u u 0 0)] t ∧
    grp.warpsOn (word pt (sr 5) u u 0 0) s ≠ [] ∧ grp.warpsOn (word pt (sr 5) u u 0 0) t ≠ [] ∧ (s.coh 1).node = none ∧
    (FMap.find s.launches (s.coh 1).launch).isSome = true ∧ predecessor base 0 = some (0, 9) ∧
    predecessor s 0 = some (3, 0) ∧ predecessor t 0 = none :=
  ⟨allReady (by decide), allReady (by decide), by decide, by decide, by decide, by decide, by decide, by decide, by decide⟩

/-- `base` with its matrix unit owned: a quad of BINARY8P4 tiles, warp 0 the joint set. -/
def owned (shape : Nat) (queue : List Nat) (ops : FMap Op) : State := { base with
  ops, nextOp := 3
  cores := [(0, { core0 with mx := { owner := some 1, queue, cfg := { shape, fa := 11, fb := 11, joint := [0] } } })]
  cohorts := [(1, { coh1 with scratchSize := 65536 })] }

set_option maxRecDepth 100000 in
/-- `MatrixIssue`: each instruction issues, its checks pass, and there is room. -/
theorem witness_matrix_issue :
    AllReady [.mmcfg (word pt u (sr 63) u 0x2CB 3), .mmcfgRel (word pt u u u 0 8), .mmzero (word pt u u u 0 15),
      .mmloop (word pt u (sr 8) (sr 9) 0x10040002 15), .mmloop (word pt u (sr 8) (sr 9) 0x10040002 31),
      .mmscale (word pt u (sr 8) (sr 9) 0 15), .mmdrain (word pt (v 4) (ac 0) u 0x100 0), .mmdrain (word pt (v 4) (ac 0) u 0x100 16),
      .mmstore (word pt u (ac 0) (sr 9) 0x100 0), .mmload (word pt (ac 0) (v 4) u 0x100 0), .mmready (word pt u u u 0 0)] (owned 3 [] []) ∧
    grp.warpsOn (word pt u u u 0 0) (owned 3 [] []) = [0] ∧ ((owned 3 [] []).mx 0).owner = some 1 ∧
    gateAll [0] (cfgGate grp (word pt u (sr 63) u 0x2CB 3)) base = .pass base ∧ claimGate grp base = .pass base ∧
    ((owned 3 [] []).mx 0).queue = [] ∧
    gateAll [0] (fun _ => maskGate grp (word pt u u u 0 15)) (owned 3 [] []) = .pass (owned 3 [] []) ∧
    roomGate grp (owned 3 [] []) = .pass (owned 3 [] []) ∧
    gateAll [0] (fun w s => (rowGate (word pt (v 4) (ac 0) u 0x100 0) s).andThen (runGate grp (word pt (v 4) (ac 0) u 0x100 0) 4 w))
      (owned 3 [] []) = .pass (owned 3 [] []) ∧
    gateAll [0] (fun w s => (maskGate grp (word pt u (sr 8) (sr 9) 0x10040002 15) s).andThen
      (loopGate grp (word pt u (sr 8) (sr 9) 0x10040002 15) w)) (owned 3 [] []) = .pass (owned 3 [] []) ∧
    gateAll [0] (fun w s => (maskGate grp (word pt u (sr 8) (sr 9) 0x10040002 31) s).andThen fun s =>
      (shareGate grp (word pt u (sr 8) (sr 9) 0x10040002 31) (loopCmd (word pt u (sr 8) (sr 9) 0x10040002 31)) w s).andThen
        (loopGate grp (word pt u (sr 8) (sr 9) 0x10040002 31) w)) (owned 3 [] []) = .pass (owned 3 [] []) ∧
    gateAll [0] (fun w s => (maskGate grp (word pt u (sr 8) (sr 9) 0 15) s).andThen (scaleGate grp (word pt u (sr 8) (sr 9) 0 15) w))
      (owned 3 [] []) = .pass (owned 3 [] []) ∧
    gateAll [0] (fun w s => (shareGate grp (word pt (v 4) (ac 0) u 0x100 16) (drainCmd (word pt (v 4) (ac 0) u 0x100 16)) w s).andThen
      (rowGate (word pt (v 4) (ac 0) u 0x100 16))) (owned 3 [] []) = .pass (owned 3 [] []) ∧
    gateAll [0] (fun w s => (rowGate (word pt u (ac 0) (sr 9) 0x100 0) s).andThen (blockGate grp 4
      [(offOf s grp (sr 9) w, 512 * nrowOf (word pt u (ac 0) (sr 9) 0x100 0))])) (owned 3 [] []) = .pass (owned 3 [] []) :=
  ⟨allReady (by decide), by decide, by decide, rfl, rfl, by decide, rfl, rfl, rfl, rfl, rfl, rfl, rfl, rfl⟩

/-- `MatrixIssue`: MMREADY with and without a vector register outstanding. -/
theorem witness_mmready :
    let o : Op := { kind := .calc [] 0, coh := 1, warp := 0, core := 0, long := true, dests := [{ vec := true, idx := 4 }] }
    AllReady [.mmready (word pt u u u 0 0)] (owned 3 [] [(0, o)]) ∧ vectorOut (owned 3 [] [(0, o)]) 1 0 = true ∧
    vectorOut (owned 3 [] []) 1 0 = false :=
  ⟨allReady (by decide), by decide, by decide⟩

/-- A command in the queue. -/
def zeroOp : Op := { kind := .mat (.zero true true [0, 1, 2, 3]), coh := 1, warp := 0, core := 0, ths }

/-- `MatrixStatusAndWait`, `MatrixSequencer`, `MatrixConfiguration`: with a command queued, started, and with none; a unit
that no one claims. -/
theorem witness_matrix_unit :
    AllReady [.mmstat (word pt (sr 1) u u 0 1), .mmwait (word pt u u u 0 0)] (owned 3 [0] [(0, zeroOp)]) ∧
    AllReady [.mmwait (word pt u u u 0 0)] (owned 3 [] []) ∧ grp.warpsOn (word pt (sr 1) u u 0 1) (owned 3 [] []) = [0] ∧
    matsOf (owned 3 [0] [(0, zeroOp)]) 1 0 ≠ [] ∧ matsOf (owned 3 [] []) 1 0 = [] ∧
    (let s := (owned 3 [0] [(0, zeroOp)]).modMx 0 fun m => { m with started := true }
     (s.mx 0).started = true ∧ (s.mx 0).queue = [0] ∧ FMap.find s.ops 0 = some zeroOp ∧ zeroOp.joint = [] ∧
       (s.mx 0).cfg.shares = [] ∧ ∀ e ∈ s.ops, e.2.isWait = false) ∧
    claimsOn base 0 = [] :=
  ⟨allReady (by decide), allReady (by decide), by decide, by decide, by decide, by decide, by decide⟩

/-- A drain of one row of tile 1 into v4 to v7. -/
def drainOp : Op :=
  { kind := .mat (.drain 1 0 1 true 4 false), coh := 1, warp := 0, core := 0, ths, dests := destsOf (vecRun 4 4 true) 0 }

set_option maxRecDepth 100000 in
/-- `MatrixIssue`, `MatrixConfiguration`, `MatrixSequencer`: a full queue with a command that waits for room; a drain that
waits for a long instruction's register, and one that does not. -/
theorem witness_matrix_queue :
    (let s := owned 3 (List.replicate 16 0) []
     let f := word pt u u u 0 15
     AllReady [.mmzero f] s ∧ (s.mx 0).room = false ∧ (s.mx 0).owner = some 1 ∧
       passes (gateAll [0] (fun _ => maskGate grp f) s) = true) ∧
    (let late := { op := 2, slot := 0, ent := 0 : LateCmd }
     let s := (owned 3 [0] [(0, zeroOp), (2, zeroOp)]).modMx 0 fun m => { m with started := true, late := [late] }
     (s.mx 0).queue = [0] ∧ (s.mx 0).late.head?.map LateCmd.op = some 2 ∧ drainWaits s 0 = false ∧
       ∀ e ∈ s.ops, e.2.isWait = false) ∧
    (let long : Op := { kind := .calc [] 0, coh := 1, warp := 0, core := 0, long := true, dests := [{ vec := true, idx := 5 }] }
     drainWaits (owned 3 [0] [(0, drainOp), (2, long)]) 0 = true ∧ drainWaits (owned 3 [0] [(0, drainOp)]) 0 = false) :=
  ⟨⟨allReady (by decide), by decide, by decide, by decide⟩, by decide, by decide⟩

/-- `MatrixEffects`: each kind of command, started, first in the queue. -/
theorem witness_matrix_effects :
    ∀ cmd ∈ [MatCmd.zero true false [0], .loop 0 512 1 1 1 [0] false, .scale 0 512 false false [0], .drain 1 0 1 true 4 false,
        .store 1 0 1 true 0, .load 1 0 1 true 4],
      let o : Op := { kind := .mat cmd, coh := 1, warp := 0, core := 0, ths }
      let s := (owned 3 [0] [(0, o)]).modMx 0 fun m => { m with started := true }
      (FMap.find s.cores 0).isSome = true ∧ (s.mx 0).started = true ∧ (s.mx 0).queue = [0] ∧ FMap.find s.ops 0 = some o ∧
        o.joint = [] ∧ (s.mx 0).cfg.shares = [] ∧ (∀ e ∈ s.ops, e.2.isWait = false) ∧ drainWaits s 0 = false ∧ HasWarp s 1 0 := by
  unfold HasWarp; decide

/-- `MatrixEffects`: a product of integers. -/
theorem witness_integer_product : ({ shape := 3, fa := 28, fb := 33 } : MatrixCfg).ints = true := by decide

/-! ### Worlds -/

/-- World 2: descriptor at 0x10000, directory at 0x20000, tables at 0x30000, component table at 0x40000, queue at 0x50000,
pool 0 at 0x70000. Entity 1 is row 0 of table 0, in the chunk at 0x70800. -/
def worldMem : List Host.Cell := tables ++
  [(0x10002, 2), (0x1000A, 3), (0x10012, 4), (0x1001A, 5), (0x10022, 6), (0x10032, 7), (0x1003A, 1), (0x10070, 16), (0x10074, 4),
    (0x10078, 7), (0x1007C, 2), (0x10080, 1), (0x2001B, 1), (0x30000, 0x80), (0x30002, 7), (0x30010, 1), (0x30020, 1), (0x3002A, 7),
    (0x30038, 1), (0x3003D, 8), (0x50001, 0x40), (0x50008, 1), (0x5000F, 2), (0x70081, 8), (0x70082, 7), (0x70800, 1),
    (0x70807, 2)]
/-- The places of that world. -/
def geo2 : Geo :=
  { desc := 0x10000, dirBase := 0x20000, dirCap := 16, tabBase := 0x30000, tabCap := 4, qBase := 0x50000, qLog2 := 7
    spillBase := 0x60000, spillSize := 0, pools := (0x70000, 0x10000) :: List.replicate 3 (0, 0) }
def syncOp : Op := { kind := .wsync 2 1 false, coh := 1, warp := 0, core := 0, ths, busy := false }
/-- A sync of it has arrived; `failed` is its flag, `mark` that of a running sync. -/
def syncing (failed : Byte) (mark : Option Nat) : State := { base with
  mem := (worldMem.filter fun e => e.1 < 0x1007A) ++ (if failed = 0 then [] else [(0x1007A, failed)]) ++ worldMem.filter fun e => 0x1007A < e.1
  ops := [(0, syncOp)], worlds := [(2, { geo := geo2, comptab := List.replicate 1024 0, syncs := [0], mark })]
  l2 := [⟨0x200, 0, 0, 0⟩, ⟨0x201, 0, 0, 0⟩] }

set_option maxRecDepth 100000 in
/-- `SyncSteps`: common hypotheses, a failed world and one that is not. -/
theorem witness_sync_start :
    (∀ fl ∈ [0, 1], FMap.find (syncing fl none).ops 0 = some syncOp ∧ HasWarp (syncing fl none) 1 0 ∧
      (rotOf (syncing fl none) 0 2).isSome = true ∧ ((FMap.find (syncing fl none).worlds 2).map World.syncs) = some [0] ∧
      (∀ e ∈ (syncing fl none).ops, e.2.coh = 1 → e.1 = 0 ∨ e.2.isWait = false) ∧
      earlierOnWorld (syncing fl none) 1 0 2 0 = false ∧ worldFailed (syncing fl none) 0 2 = (fl == 1)) ∧
    ((rotOf (syncing 0 none) 0 2).map fun r => decide (r.plan ((r.field 160 8).getD 0) ≠ .noSpace)) = some true := by
  unfold HasWarp; decide

set_option maxRecDepth 100000 in
/-- `SyncSteps`: the kill of entity 1 meets the open version of table 0 and stalls. -/
theorem witness_sync_stall : ((rotOf (syncing 0 (some 1)) 0 2).bind fun r => match r.plan 1 with
    | .ok p => some p.stall
    | _ => none) = some true := by decide

set_option maxRecDepth 100000 in
/-- `SyncSteps`: a sync of no entry publishes. -/
theorem witness_sync_plan : ((rotOf (syncing 0 (some 0)) 0 2).bind fun r => match r.plan 0 with
    | .ok p => some (p.stall, (r.publish p).bad, ((r.publish p).close 0 p.counts).1.bad)
    | _ => none) = some (false, false, false) := by decide

/-- `base` with world 2's memory and its lines resident, ready for it to be registered. -/
def regist : State := { base with
  mem := worldMem, l2 := [⟨0x200, 0, 0, 0⟩, ⟨0x201, 0, 0, 0⟩, ⟨0x600, 0, 0, 0⟩, ⟨0xE00, 0, 0, 0⟩] }
def world2 : World := { geo := geo2, comptab := [] }

/-- The descriptor and the component table at an address, and what registering it makes. -/
def descAt (addr : Nat) : Option (List Byte × List Byte) :=
  (regist.readVirt 0 addr 256).bind fun b => (regist.readVirt 0 (fieldN b 16 8) 1024).map fun ct => (b, ct)

set_option maxRecDepth 100000 in
/-- `WorldRegistration`: a good descriptor and a bad one. -/
theorem witness_registration :
    FMap.find regist.worlds (worldKey 0 2) = none ∧ (FMap.find regist.ctxs 0).isSome = true ∧
    ((descAt 0x10000).bind fun b => (Rot.create { s := regist, ctx := 0, num := 2, geo := geoOf 0x10000 b.1, reg := geoOf 0x10000 b.1 }).map fun r =>
      (worldGood 0x10000 b.1 b.2, r.bad)) = some (true, false) ∧
    ((descAt 0x8000).map fun b => worldGood 0x8000 b.1 b.2) = some false := by decide

/-- `WorldRegistration`: a deregistration asked for, one that can take effect, and one that cannot yet. -/
theorem witness_deregistration :
    (let s := { base with worlds := [(2, { world2 with dereg := true })] }
     FMap.find s.worlds (worldKey 0 2) = some { world2 with dereg := true } ∧ world2.cursors = [] ∧ world2.mark = none ∧
       world2.syncs = [] ∧ s.ops = []) ∧ world2.dereg = false ∧ ({ world2 with syncs := [4] }).syncs ≠ [] := by decide

/-! ### Streams -/

/-- Blocks of one element. -/
def dot : Tensor := { parseRecord recBytes with blk := [1, 1] }
/-- A stream whose first slot is in state `st` with item 0, with `nextFill` items started. -/
def feeding (st : SlotSt) (nextFill : Nat) : Stream := { stream st (some dot) with src := dot, nextFill }
def feed (x : Stream) : State := { streaming x with mem := tables, l2 := [⟨0x200, 0, 0, 0⟩] }

set_option maxRecDepth 100000 in
/-- `StreamSteps`: a slot to fill, an item moved without a fault, a slot to store, an item stored without a fault. -/
theorem witness_stream_steps :
    (∀ st ∈ [SlotSt.empty, .filling, .done, .storing], liveStream (feed (feeding st 2)) 1 0 = some (feeding st 2)) ∧
    (let x := feeding .empty 2
     0 = x.nextFill % x.nslot ∧ x.paused = false ∧ x.nextFill < x.count ∧ (x.slot 0).1 = .empty ∧ 0 < x.slots.length) ∧
    (let x := feeding .filling 2
     (x.slot 0).1 = .filling ∧ (x.slot 0).2 = x.nextFull ∧
       x.stops (fillItem (x.asOp (feed x) 1 0) x (x.slot 0).2 (x.offset 0) (x.atWork (feed x) 1 (x.slot 0).2)) = none ∧ (feed x).ops = []) ∧
    (let x := feeding .done 2
     (x.slot 0).1 = .done ∧ x.dst.isSome = true) ∧
    (let x := feeding .storing 2
     (x.slot 0).1 = .storing ∧ x.dst = some dot ∧
       x.stops (storeItem (x.asOp (feed x) 1 0) x dot (x.slot 0).2 (x.offset 0) (x.atWork (feed x) 1 (x.slot 0).2)) = none) := by decide

/-- Blocks of one element of a tensor that no page holds. -/
def lost : Tensor := { dot with base := 2 ^ 40 }
/-- A stream from it and to it. -/
def losing (st : SlotSt) : Stream := { feeding st 2 with src := lost, dst := some lost }

set_option maxRecDepth 100000 in
/-- `StreamSteps`: an item that cannot be read, and one that cannot be written, of a stream whose SUBS waits for its future. -/
theorem witness_stream_stops :
    (∀ st ∈ [SlotSt.filling, .storing], let x := losing st
      let s := { feed x with ops := [(9, cmdOp .rfence)] }
      liveStream s 1 0 = some x ∧ (x.slot 0).1 = st ∧ (x.slot 0).2 = x.nextFull ∧ FMap.find s.ops x.op = some (cmdOp .rfence) ∧
        (∀ e ∈ s.ops, e.2.isWait = false) ∧ HasWarp s 1 0) ∧
    (let x := losing .filling
     let s := { feed x with ops := [(9, cmdOp .rfence)] }
     (x.stops (fillItem (x.asOp s 1 0) x 0 (x.offset 0) (x.atWork s 1 0))).isSome = true) ∧
    (let x := losing .storing
     let s := { feed x with ops := [(9, cmdOp .rfence)] }
     (x.stops (storeItem (x.asOp s 1 0) x lost 0 (x.offset 0) (x.atWork s 1 0))).isSome = true) := by
  unfold HasWarp; decide

/-! ### Sets, residency, priority -/

/-- `mapped` with a cohort of a launch of priority 6, s4 = 0x8000 and s6 = 256; `why` says whether it is sealed. -/
def tasked (why : SealWhy) : State := { mapped with cohorts := [(1, { coh1 with sealed := why, warps := [{ warp0 with
  sregs := [(4, 0x8000), (6, 256), (7, 0x9000)] }] })] }

/-- `SetDeclarationAndSeal`: a declaration that passes its checks; ASSEAL of a sealed and of an unsealed task, and of no
thread; a seal to record. -/
theorem witness_declaration :
    AllReady [.asdecl (word pt (sr 1) (sr 4) (sr 6) 0 0)] (tasked .unsealed) ∧
    (∃ t, gateAll (grp.warpsOn (word pt (sr 1) (sr 4) (sr 6) 0 0) (tasked .unsealed))
      (declare grp (word pt (sr 1) (sr 4) (sr 6) 0 0)) (tasked .unsealed) = .pass t) ∧
    (FMap.find (tasked .unsealed).ctxs ((tasked .unsealed).coh 1).ctx).isSome = true ∧
    AllReady [.asseal (word pt u u u 0 0)] (tasked .asseal) ∧ AllReady [.asseal (word pt u u u 0 0)] (tasked .unsealed) ∧
    ((tasked .asseal).coh 1).sealed ≠ .unsealed ∧ grp.warpsOn (word pt u u u 0 0) (tasked .unsealed) ≠ [] ∧
    ((tasked .unsealed).coh 1).sealed = .unsealed ∧ (FMap.find (tasked .unsealed).cohorts 1).isSome = true ∧
    (let h := { coh1 with sealReq := some .asseal }
     h.sealReq = some .asseal ∧ h.status = .resident ∧ h.wounded = false ∧ h.sealed = .unsealed) :=
  ⟨allReady (by decide), passes_iff (by decide), by decide, allReady (by decide), allReady (by decide), by decide, by decide,
    by decide, by decide, by decide⟩

set_option maxRecDepth 100000 in
/-- `SetHandoffAndUndo`: a free set with a waiter, and a wounded task with a line to restore. -/
theorem witness_handoff :
    (let s := { base with
       ctxs := [(0, { decls := [{ num := 0, base := 0x8000, len := 128 }] })]
       ops := [(0, { kind := .setWait 0, coh := 1, warp := 0, core := 0 })] }
     (s.ctx 0).decls.find? (fun d => d.num = 0) = some { num := 0, base := 0x8000, len := 128 } ∧ setWaiters s 0 0 = [1] ∧
       (s.coh 1).sealed = .unsealed ∧ (s.coh 1).ctx = 0 ∧ (FMap.find s.ctxs 0).isSome = true ∧
       (FMap.find s.cohorts 1).isSome = true) ∧
    (let h := { coh1 with wounded := true, undo := [{ line := 0x100, bytes := List.replicate 128 7 }] }
     h.wounded = true ∧ (h.undo.map Undo.line).Nodup ∧ (∀ u ∈ h.undo, u.bytes.length = 128) ∧
       (FMap.find base.ctxs h.ctx).isSome = true ∧ base.ops = [] ∧ base.worlds = []) := by decide

/-- Cohort 1 with warp 0 asking for `n` registers into s1. -/
def growing (n : Nat) : State := { base with
  ops := [(0, { kind := .grow n 1, coh := 1, warp := 0, core := 0 })] }

/-- `ResourceInstructions`: RESPIN, PRIO within its launch's priority and not; a granule free, this cohort's, another's; a
request that fits, and one that does not while every warp waits. -/
theorem witness_resources :
    AllReady [.respin (word pt (sr 1) (sr 4) u 0 0), .respin (word pt (sr 1) (sr 4) u 0 1), .prio (word pt u u u 6 0)] (tasked .asseal) ∧
    (grp.warpsOn (word pt u u u 6 0) (tasked .asseal) ≠ [] ∧ (word pt u u u 6 0).immBits 4 0 ≤
      ((FMap.find (tasked .asseal).launches ((tasked .asseal).coh 1).launch).map Launch.prio).getD 0) ∧
    (∀ p ∈ [none, some 1, some 9],
      (residOf { base with cores := [(0, { core0 with resid := [{ ctx := 0, gran := granOf 0x8000, pin := p }] })] } 0 0 0x8000).bind
        Resid.pin = p) ∧
    (growRequests (growing 264) 0 = [(0, 1, 0, 264, 1)] ∧ growFits (growing 264) 0 (0, 1, 0, 264, 1) = true ∧
      HasWarp (growing 264) 1 0 ∧ (∀ e ∈ (growing 264).ops, e.2.coh = 1 → e.1 = 0 ∨ e.2.isWait = false)) ∧
    ((growRequests (growing 65536) 0).getLast? = some (0, 1, 0, 65536, 1) ∧ allGrowing (growing 65536) 0 = true ∧
      (growRequests (growing 65536) 0).any (growFits (growing 65536) 0) = false) := by
  refine ⟨allReady (by decide), by decide, by decide, ?_, by decide⟩
  unfold HasWarp; decide

/-! ### System instructions -/

/-- Warp 0 with lanes 0 and 1 in the handler of one record. -/
def handling : State := base.modWarp 1 0 fun x => { x with
  handler := true, hleft := 3, trapq := [{ code := 12, lmask := 3 }] }

/-- `TrapsAndReturns`: TRAP with room for a record, TRET outside a handler and as the last of one, PREEMPT with no request. -/
theorem witness_traps :
    AllReady [.trap (word pt u u u 9 0), .tret (word pt u u u 0 0), .preempt (word pt u (sr 63) u 0 0)] base ∧
    grp.on (word pt u u u 9 0) base ≠ [] ∧ (∀ x ∈ grp.ths, HasThread base 1 x.1 x.2) ∧
    (∀ w ∈ grp.warps, (base.warp 1 w).handler = false ∧ (base.warp 1 w).trapq.length < 8) ∧
    (∃ x ∈ grp.on (word pt u u u 0 0) base, inHandler base 1 x.1 x.2 = false) ∧ (base.coh 1).preq = none ∧
    AllReady [.tret (word pt u u u 0 0)] handling ∧ grp.on (word pt u u u 0 0) handling = grp.ths ∧
    (∀ x ∈ grp.ths, x.1 = 0 ∧ x.2 < 32 ∧ HasThread handling 1 0 x.2) ∧ (handling.warp 1 0).handler = true ∧
    (handling.warp 1 0).hret = 0 ∧ (handling.warp 1 0).trapq = [{ code := 12, lmask := 3 }] ∧ grp.ths ≠ [] ∧
    (∀ l, laneIn (handling.warp 1 0).hleft l = true ↔ (0, l) ∈ grp.ths) ∧ noneParked grp handling := by
  refine ⟨allReady (by decide), by decide, ?_, by decide, ⟨(0, 0), by decide⟩, by decide, allReady (by decide), by decide, ?_,
    by decide, by decide, by decide, by decide, ?_, ?_⟩
  · unfold HasThread HasWarp; decide
  · unfold HasThread HasWarp; decide
  · intro l
    by_cases h : l < 32
    · revert l; decide
    · have : laneIn (handling.warp 1 0).hleft l = false := BitVec.getLsbD_of_ge _ _ (by omega)
      simp [this, grp, ths]; omega
  · unfold noneParked; decide

/-- `PreemptStops`: a request pending, and a range list of one range at 0x8000. -/
def asked : State := { mapped with mem := tables ++ [(0x8004, 128)], cohorts := [(1, { coh1 with preq := some 0, warps := [{ warp0 with
  sregs := [(4, 0x8000)] }] })] }

theorem witness_preempt :
    AllReady [.preempt (word pt u (sr 4) u 0 5)] asked ∧ (asked.coh 1).preq.isSome = true ∧
    grp.on (word pt u (sr 4) u 0 5) asked ≠ [] ∧ (∀ x ∈ grp.ths, HasThread asked 1 x.1 x.2) ∧
    passes (rangesGate (word pt u (sr 4) u 0 5) grp asked) = true ∧ allRanges asked grp (word pt u (sr 4) u 0 5) = [(0, 128)] := by
  refine ⟨allReady (by decide), by decide, by decide, ?_, by decide, by decide⟩
  unfold HasThread HasWarp; decide

/-- `PreemptStops`: SA pending, SA marked, and an address that is not canonical and not aligned either. -/
theorem witness_preempt_waits :
    let f := word pt u (sr 4) u 0 5
    let pend : Op := { kind := .calc [] 0, coh := 1, warp := 0, core := 0, dests := [{ vec := false, idx := 4 }] }
    let marked := asked.modWarp 1 0 fun w => { w with poison := [{ vec := false, idx := 4, lane := 0, code := 15, detail := 1, addr := 0 }] }
    let high := asked.modWarp 1 0 fun w => { w with sregs := [(4, 0x100000000000001)] }
    (let s := { asked with ops := [(0, pend)] }
     AllReady [.preempt f] s ∧ rangeWarps s grp f = [0] ∧ pendingS s 1 0 4 = true) ∧
    (AllReady [.preempt f] marked ∧ rangeWarps marked grp f = [0] ∧ pendingS marked 1 0 4 = false ∧
      (poisonMet (marked.warp 1 0) [{ vec := false, idx := 4 }] []).isSome = true) ∧
    (AllReady [.preempt f] high ∧ rangeWarps high grp f = [0] ∧ poisonMet (high.warp 1 0) [{ vec := false, idx := 4 }] [] = none ∧
      canonical (rangeAddr high grp f 0) = false) :=
  ⟨⟨allReady (by decide), by decide, by decide⟩, ⟨allReady (by decide), by decide, by decide, by decide⟩,
    allReady (by decide), by decide, by decide, by decide⟩

/-! ### Context switching -/

/-- An image of one page at 0x100000. -/
def savedImage : Image := { pages := [0x100000], regs := [(0x11, 9)], bins := [] }
/-- Context 0 a driver's, with a page of 2^30 bytes in its core's TLB; s4 = context 1, s6 = the image; context 1 in state
`st` with save slots and its image. -/
def switching (st : CtxSt) (n : W64) : State := { base with
  mem := tables
  cores := [(0, { core0 with tlb := [⟨0, 0, 30, 0, 0, 0, true, true⟩] })]
  ctxs := [(0, { st := .active, priv := 1, ptbase := 0x1000 }), (1, { st, csaven := n, images := [savedImage] })]
  cohorts := [(1, { coh1 with warps := [{ warp0 with sregs := [(4, 1), (6, 0x100000)] }] })] }

/-- The entry of that page. -/
def giant : TlbEnt := ⟨0, 0, 30, 0, 0, 0, true, true⟩
theorem giant_covers (va : Nat) (h : va < 2 ^ 30) : giant.covers 0 va = true := by
  have : va / 2 ^ 30 * 2 ^ 30 = 0 := by rw [Nat.div_eq_of_lt h, Nat.zero_mul]
  unfold TlbEnt.covers giant
  rw [this]
  rfl
theorem switching_tlb (st : CtxSt) (n : W64) : ((switching st n).core 0).tlb = [giant] := rfl
theorem find_only {s : State} {core ctx va : Nat} {e : TlbEnt} (h : (s.core core).tlb = [e]) (hc : e.covers ctx va = true) :
    s.tlbFind core ctx va = some e := by
  simp [State.tlbFind, h, hc]
theorem canonical_low {va : Nat} (h : va < 2 ^ 30) : canonical va = true := by
  unfold canonical
  rw [Nat.div_eq_of_lt (show va < 2 ^ 56 by omega)]
  rfl
/-- Its page is readable, writable and executable, and maps every address to itself. -/
theorem giant_end (s : State) (ctx : Nat) (need : Need) (va : Nat) (h : va < 2 ^ 30) :
    pageEnd s { giant with ctx } false need va = .ok va := by
  have hk : pageKey s { giant with ctx } va = va := by
    show 0 + va % 2 ^ 30 = va
    rw [Nat.zero_add, Nat.mod_eq_of_lt h]
  have he : pageEnd s { giant with ctx } false need va = .ok (pageKey s { giant with ctx } va) := by cases need <;> rfl
  rw [he, hk]
theorem translate_giant {s : State} (h : (s.core 0).tlb = [giant]) (need : Need) (va : Nat) (hv : va < 2 ^ 30) :
    translate s 0 0 va need = .ok va := by
  have hp : s.pageOf 0 0 va = .page giant false := by
    unfold State.pageOf
    rw [find_only h (giant_covers va hv)]
  unfold Machine.translate
  rw [canonical_low hv, hp]
  exact giant_end s 0 need va hv
theorem translateAll_giant {s : State} (h : (s.core 0).tlb = [giant]) (need : Need) (l : List Nat)
    (hl : ∀ va ∈ l, va < 2 ^ 30) : translateAll s 0 0 need l = none := by
  induction l with
  | nil => rfl
  | cons a r ih =>
    simp only [translateAll, translate_giant h need a (hl a (by simp))]
    exact ih fun va hva => hl va (by simp [hva])
theorem pages_below (a n x : Nat) (h : x ∈ pagesOf a n) : x < a + n := by
  unfold pagesOf at h
  split at h
  · simp at h
  · simp only [List.mem_cons, List.mem_map] at h
    obtain rfl | ⟨i, hi, rfl⟩ := h
    · omega
    · have : i < (a + n - 1) / 4096 - a / 4096 := by simpa [upto] using hi
      have := Nat.div_mul_le_self (a + n - 1) 4096
      omega

theorem phase_check {s : State} {c : Iss} (save : Bool) (f : Fields) (w : Nat) (h : (s.core 0).tlb = [giant]) (hk : c.core = 0)
    (hi : phaseImage s c.coh w f = 0x100000) (hx : (s.coh c.coh).ctx = 0) : phaseCheck save c f w s = .pass s := by
  have hp := fun need => translateAll_giant h need (pagesOf 0x100000 Config.imageBytes)
    fun va hva => Nat.lt_of_lt_of_le (pages_below _ _ va hva) (by decide)
  unfold phaseCheck
  simp only [hi, hx, hk, hp]
  rfl
theorem phase_gate {s : State} {c : Iss} (save : Bool) (f : Fields) (w : Nat) (h : (s.core 0).tlb = [giant]) (hk : c.core = 0)
    (hi : phaseImage s c.coh w f = 0x100000) (hx : (s.coh c.coh).ctx = 0) (hw : c.warpsOn f s = [w])
    (hv : vfPaused s (fnOf (s.coh c.coh).ctx) = false) : phaseGate save f c s = .pass s := by
  unfold phaseGate
  rw [hv, hw]
  exact phase_check save f w h hk hi hx

/-- `ContextPhases`: the checks pass; the target of each is refused, or not. -/
theorem witness_phases :
    let f := word pt (sr 1) (sr 4) (sr 6) 0 0
    (∀ st ∈ [CtxSt.active, .saved], let s := switching st 8
      AllReady [.ctxsave f, .ctxload f] s ∧ phaseGate true f grp s = .pass s ∧ phaseGate false f grp s = .pass s ∧
      grp.warpsOn f s = [0] ∧ HasWarp s 1 0 ∧ phaseTarget s 1 0 f = 1 ∧ (FMap.find s.ctxs 1).isSome = true) ∧
    phaseRefused (switching .active 8) 0 true 1 0x100000 = none ∧ phaseRefused (switching .saved 8) 0 true 1 0x100000 = some 2 ∧
    phaseRefused (switching .saved 8) 0 false 1 0x100000 = none ∧ phaseRefused (switching .active 8) 0 false 1 0x100000 = some 2 := by
  refine ⟨?_, by decide, by decide, by decide, by decide⟩
  intro st h
  simp only [List.mem_cons, List.not_mem_nil, or_false] at h
  obtain rfl | rfl := h <;>
    refine ⟨allReady (by decide), phase_gate true _ 0 rfl rfl rfl rfl (by decide) (by decide),
      phase_gate false _ 0 rfl rfl rfl rfl (by decide) (by decide), by decide, ?_, by decide, by decide⟩ <;>
    · unfold HasWarp; decide

/-- `PhaseEnds`: a CTXSAVE and a CTXLOAD in progress. -/
theorem witness_phase_ends : ∀ b,
    let o : Op := { kind := .phase b 1 0x100000 2 false, coh := 1, warp := 0, core := 0 }
    let s := { switching (if b then .saving else .loading) 8 with ops := [(0, o)] }
    (FMap.find s.ctxs 1).isSome = true ∧ HasWarp s o.coh o.warp ∧ (s.ctx 1).vfHeld = false ∧
      FMap.find s.ops 0 = some o ∧ (∀ e ∈ s.ops, e.2.coh = o.coh → e.2.isWait = false) ∧ phaseOn s 1 b = some (0, o) ∧ phaseQueued s 1 = none ∧
      (s.ctx 1).st = (if b then .saving else .loading) ∧ cohortsOf s 1 .resident = [] ∧
      imageAt s (s.coh o.coh).ctx 1 0x100000 = some savedImage := by
  unfold HasWarp; decide

/-- `ContextPhases`: a phase whose target is in another is not refused yet. -/
theorem witness_phase_waits :
    phaseRefused (switching .saving 8) 0 false 1 0x100000 = none ∧ phaseInFlight (switching .saving 8) 1 = true ∧
    phaseInFlight (switching .saved 8) 1 = false := by decide

/-- Two CTXSAVEs on context 1, the second waiting. -/
def twoSaves : State :=
  { switching .saving 8 with ops :=
    [(0, { kind := .phase true 1 0x100000 2 false, coh := 1, warp := 0, core := 0 }),
     (1, { kind := .phase true 1 0x100000 3 true, coh := 1, warp := 0, core := 0 })] }

/-- `PhasesSerialised`: the hypotheses, with both in one warp. -/
theorem witness_phases_serialised :
    (FMap.find twoSaves.ctxs 1).isSome = true ∧ HasWarp twoSaves 1 0 ∧ (twoSaves.ctx 1).vfHeld = false ∧
    (∀ e ∈ twoSaves.ops, e.2.isWait = false) ∧ (phaseOn twoSaves 1 true).map Prod.fst = some 0 ∧
    (phaseQueued twoSaves 1).map Prod.fst = some 1 ∧
    (∀ e ∈ twoSaves.ops, match e.2.kind with
      | .phase _ _ _ _ true => e.1 = 1
      | _ => True) ∧
    phaseRefused twoSaves (twoSaves.coh 1).ctx true 1 0x100000 = none ∧ (twoSaves.ctx 1).st = .saving ∧
    cohortsOf twoSaves 1 .resident = [] := by
  refine ⟨by decide, by unfold HasWarp; decide, by decide, by decide, by decide, by decide, ?_, by decide, by decide, by decide⟩
  simp [twoSaves]

/-- 08 R170: of two CTXSAVEs issued on an ACTIVE context, the second returns 2. -/
theorem test_two_saves :
    (let t := servePhases 1 1 { twoSaves with ops := twoSaves.ops.drop 1, ctxs := [(0, { st := .active, priv := 1 }), (1, { st := .saved })] }
     (t.warp 1 0).readS 3 = 2 ∧ t.ops.isEmpty = true ∧ (t.ctx 1).st = .saved) := by decide

/-! ### System registers -/

/-- A WRSR of register `n` from s4. -/
def wrsrOf (n : BitVec 32) : Fields := word pt u (sr 4) u n 0

set_option maxRecDepth 100000 in
/-- `SystemWrites`: each register in a handler. -/
theorem witness_wrsr : ∀ n ∈ [(0 : BitVec 32), 1, 3, 6, 8, 0x11, 0x12, 0x13, 0x14, 0x20, 0x23],
    shows (.wrsr (wrsrOf n)) handling = true ∧ grp.warpsOn (wrsrOf n) handling = [0] ∧
    passes (sysIdxCheck true (wrsrOf n) grp handling) = true ∧ passes (wrsrCheck (wrsrOf n) grp 0 handling) = true ∧ flagsReady (wrsrOf n) grp handling = true ∧
    sysIdx (wrsrOf n) = n.toNat := by
  intro n h
  simp only [List.mem_cons, List.not_mem_nil, or_false] at h
  rcases h with h | h | h | h | h | h | h | h | h | h | h <;> subst h <;> decide

set_option maxRecDepth 100000 in
/-- `SystemWrites`: ERESV and both forms of HCALL. -/
theorem witness_system_writes :
    HasWarp handling 1 0 ∧ (FMap.find handling.ctxs 0).isSome = true ∧ (FMap.find handling.cohorts 1).isSome = true ∧
    AllReady [.eresv (word pt (sr 1) (sr 4) u 0 0), .hcall (word pt (sr 1) (sr 4) u 3 0)] base ∧
    (base.srcS 1 0 (sr 4)).toNat ≤ 2 ^ 40 ∧ fnOf (base.coh 1).ctx = 0 ∧
    (let s := { base with ctxs := [(16, { st := .active })], cohorts := [(1, { coh1 with ctx := 16 })] }
     AllReady [.hcall (word pt (sr 1) (sr 4) u 3 0)] s ∧ fnOf (s.coh 1).ctx ≠ 0 ∧ (FMap.find s.ctxs 16).isSome = true) := by
  refine ⟨?_, by decide, by decide, allReady (by decide), by decide, by decide, allReady (by decide), by decide, by decide⟩
  unfold HasWarp; decide

/-! ### Turns and slots -/

/-- `base` with page tables, code at 0x10000 + 12 × 7 (SADD s1, s2, s3), and an issue step of the slot to come. -/
def coded : State := { base with
  mem := tables ++ [(0x10054, 0x40), (0x10055, 0x5C), (0x10056, 0x80), (0x10057, 0x08), (0x10058, 0xC8), (0x10059, 0x80),
    (0x1005E, 0x18)]
  agenda := [{ act := .issue 0 0 }, { act := .event (.tlbinvComplete 0) }] }
def coded1 : State := { passTime { act := .issue 0 0 } { coded with agenda := coded.agenda.tail } with cur := (0, 0) }

set_option maxRecDepth 100000 in
/-- `StepRunsDecodedInstruction`: an issue step whose bytes decode, and an event. -/
theorem witness_step :
    coded.agenda = [{ act := .issue 0 0 }, { act := .event (.tlbinvComplete 0) }] ∧ curIss coded1 = some grp ∧
    (FMap.find (coded1.core 0).entries 0).map Group.ran = some 0 ∧
    (∀ y ∈ grp.ths, (coded1.thread 1 y.1 y.2).hang = false ∧ (coded1.thread 1 y.1 y.2).due = false) ∧
    breakThs coded1 grp = [] ∧ fetchSuspended coded1 grp = false ∧ issueStalls coded1 grp = false ∧ fetchLost coded1 grp = none ∧
    (match fetchBytes coded1 grp with
      | .ok bs => decide (decode bs = .instr (.sadd (word pt (sr 1) (sr 2) (sr 3) 0 6)) [])
      | .error _ => false) = true ∧ fieldsOf (.tlbinvComplete 0) = none := by decide

/-- `StepRunsDecodedInstruction`: a turn of the host. -/
theorem witness_host_turn :
    ({ coded with agenda := [{ act := .host (.readReg 0 0 8) }] } : State).agenda = { act := .host (.readReg 0 0 8) } :: [] := rfl

set_option maxRecDepth 100000 in
/-- `StepKeepsMemoryForm`: its memory is in the form, and its step answers a next state. -/
theorem witness_memory_form : Memory.wf coded.mem = true ∧ (match step coded with
    | .next t => decide ((t.warp 1 0).readS 1 = 0)
    | _ => false) = true := by decide

/-- `EncodeThenDecode`, `DecodeThenEncode`: a well-formed instruction, and bytes that decode to it. -/
theorem witness_encode : WellFormed (.sadd (word pt (sr 1) (sr 2) (sr 3) 0 6)) = true ∧
    decode (encode (.sadd (word pt (sr 1) (sr 2) (sr 3) 0 6)) ++ [7]) = .instr (.sadd (word pt (sr 1) (sr 2) (sr 3) 0 6)) [7] := by
  decide

/-- A core with an empty slot 1, a ready group at entry 2 and a bin. -/
def racing (gs : FMap Group) (bins : List Bin) : State :=
  { base with cores := [(0, { core0 with entries := core0.entries ++ gs, bins, slots := [some 0, none, none, none] })] }
def ready2 : Group := { coh := 1, pc := 9, ths := [(0, 1)] }
def bin0 : Bin := { num := 0, coh := 1, pc := 9, ths := [(0, 1)], age := 9 }

set_option maxRecDepth 100000 in
/-- `ArbitrationRounds`: no candidate, a group that wins and a bin that wins. -/
theorem witness_arbitration :
    let at_ := fun (s : State) => winner (s.core 0).lastWin (candidates (endBackoffs 0 (ageBins 0 s)) 0)
    (((racing [] []).core 0).slots[1]? = some none ∧ at_ (racing [] []) = none) ∧
    ((at_ (racing [(2, ready2)] [bin0])).map Cand.pos = some 2 ∧ 0 < ((racing [(2, ready2)] [bin0]).coh 1).warps.length) ∧
    ((at_ (racing [] [{ bin0 with ripe := true }])).map Cand.pos = some 160 ∧
      ((endBackoffs 0 (ageBins 0 (racing [] [{ bin0 with ripe := true }]))).core 0).bins.map Bin.num = [0] ∧
      ((endBackoffs 0 (ageBins 0 (racing [] [{ bin0 with ripe := true }]))).core 0).freeEntry = some 1) := by decide

/-- `RunAndAgeExpiries`: a run of 24 instructions, a bin of age 9 where BINAGE is 4, a backoff that has run out. -/
theorem witness_expiries :
    (let g : Group := { coh := 1, pc := 7, ths, ran := 24 }
     let s := racing [(0, g)] []
     FMap.find (FMap.put 0 g (s.core 0).entries) 0 = some g ∧
       issOf (base.modCore 0 fun k => { k with entries := [(0, g)] }) 0 0 = some grp ∧ 24 ≤ g.ran) ∧
    (bin0 ∈ ((racing [] [bin0]).core 0).bins ∧ ((racing [] [bin0]).ctx ((racing [] [bin0]).coh 1).ctx).binage.toNat < bin0.age) ∧
    FMap.find ((racing [(2, { ready2 with backoff := some 0 })] []).core 0).entries 2 = some { ready2 with backoff := some 0 } := by
  decide

/-- `base` with thread (0, 1) due for the hang trap, and a breakpoint at PC 7 in BKPT2. -/
def stopped : State := { base with
  cohorts := [(1, { coh1 with warps := [{ warp0 with
    atRun := some [(0x22, 0x8000000000000007)], threads := [{ preds := 4 }, { hang := true, spin := 70000 }] }] })]
  ctxs := [(0, { st := .active, bkpt := [(2, 0x8000000000000007)] })] }

/-- `HangsAndBreakpoints`: a member due, with room in its queue; threads that stop at a breakpoint. -/
theorem witness_hangs :
    (∀ x ∈ grp.ths, HasThread stopped 1 x.1 x.2) ∧ entIss stopped 0 0 = some grp ∧ issOf stopped 0 0 = some grp ∧
    (grp.ths.filter fun x => (stopped.thread 1 x.1 x.2).hang) = [(0, 1)] ∧
    (∀ x ∈ grp.ths, (stopped.warp 1 x.1).handler = false ∧ (stopped.warp 1 x.1).trapq.length < 8) ∧
    ((FMap.find (stopped.core 0).entries 0).all fun g => !g.held && g.waits.isEmpty && g.backoff.isNone && !g.yielded) = true ∧
    breakAt stopped grp 0 = some 2 ∧ breakThs stopped grp = ths := by
  unfold HasThread HasWarp; decide

set_option maxRecDepth 100000 in
/-- `FetchFailuresAndDelivery`: no page at the PC, and an opcode without an instruction there. -/
theorem witness_fetch_failures :
    fetchFailure base grp = some (0x10054, .fault 2) ∧ issOf base 0 0 = some grp ∧
    (match fetchBytes { base with mem := tables ++ [(0x10054, 0x0C)] } grp with
      | .ok bs => decide (decode bs = .unassigned 0x00C)
      | .error _ => false) = true := by decide

/-- A page of module 3 at every low address; that module is out of its tray. -/
def farPage : TlbEnt := ⟨0, 0, 30, 1, 3, 0, true, true⟩
def outside (absent : List Nat) (lost : List (Nat × Nat)) : State :=
  { base with cores := [(0, { core0 with tlb := [farPage] })], absent, lost }
variable {out : List Nat} {lost : List (Nat × Nat)}

theorem far_key {va : Nat} (hv : va < 2 ^ 30) : pageKey (outside out lost) farPage va = peerKey 3 va := by
  have hm : (outside out lost).modnum.toNat = 0 := rfl
  have hv' : va % 1073741824 = va := by omega
  simp [pageKey, farPage, hm, hv']
theorem far_covers {va : Nat} (hv : va < 2 ^ 30) : farPage.covers 0 va = true := by
  have hd : va / 2 ^ 30 * 2 ^ 30 = 0 := by omega
  exact Bool.and_eq_true_iff.mpr ⟨rfl, decide_eq_true hd⟩
theorem far_end (h : Config.inDomain 3 = true) (va : Nat) :
    pageEnd (outside out lost) farPage false .fetch va = .ok (pageKey (outside out lost) farPage va) := by
  unfold pageEnd
  rw [show farPage.modnum = 3 from rfl, h]
  rfl
theorem far_tlb : ((outside out lost).core 0).tlb = [farPage] := rfl
theorem page_only {s : State} {core ctx va : Nat} {e : TlbEnt} (h : (s.core core).tlb = [e]) (hc : e.covers ctx va = true) :
    s.pageOf core ctx va = .page e false := by
  unfold State.pageOf
  rw [find_only h hc]
theorem far_page {va : Nat} (hv : va < 2 ^ 30) : (outside out lost).pageOf 0 0 va = .page farPage false := page_only far_tlb (far_covers hv)
theorem translate_far (h : Config.inDomain 3 = true) {va : Nat} (hv : va < 2 ^ 30) :
    translate (outside out lost) 0 0 va .fetch = .ok (peerKey 3 va) := by
  unfold Machine.translate
  rw [canonical_low hv, far_page hv]
  exact (far_end h va).trans (congrArg Trans.ok (far_key hv))
theorem far_all (h : Config.inDomain 3 = true) {l : List Nat} (hl : ∀ va ∈ l, va < 2 ^ 30) :
    translateAll (outside out lost) 0 0 .fetch l = none ∧ fetchKeys (outside out lost) 0 0 l = .ok (l.map (peerKey 3)) := by
  induction l with
  | nil => exact ⟨rfl, rfl⟩
  | cons a r ih =>
    have ⟨i1, i2⟩ := ih fun va hva => hl va (by simp [hva])
    simp only [translateAll, fetchKeys, translate_far h (hl a (by simp)), i1, i2, List.map_cons, and_self]
/-- `FetchFailuresAndDelivery`: an instruction on a module of the domain that is out of its tray, and on one in place whose
requests the fabric fails. -/
theorem witness_fetch_lost (h : Config.inDomain 3 = true) :
    ∀ x ∈ [(([3] : List Nat), ([] : List (Nat × Nat)), 1), ([], [(3, 2)], 2)], let s := outside x.1 x.2.1
      issOf s 0 0 = some grp ∧ fetchFailure s grp = none ∧ fetchLost s grp = some (0x10054, 65536 * x.2.2 + 3) := by
  intro x hx
  have hl : ∀ va ∈ (upto instrBytes).map (fun i => (fetchAddr (outside x.1 x.2.1) grp.coh grp.pc + i) % 2 ^ 64), va < 2 ^ 30 := by
    simp only [List.mem_cons, List.not_mem_nil, or_false] at hx
    obtain rfl | rfl := hx <;> decide
  have hf := far_all (out := x.1) (lost := x.2.1) h hl
  refine ⟨?_, hf.1, ?_⟩
  · simp only [List.mem_cons, List.not_mem_nil, or_false] at hx
    obtain rfl | rfl := hx <;> decide
  · simp only [fetchLost, show grp.core = 0 from rfl, show ((outside x.1 x.2.1).coh grp.coh).ctx = 0 from rfl, hf.2]
    simp only [List.mem_cons, List.not_mem_nil, or_false] at hx
    obtain rfl | rfl := hx <;> decide

/-- A record to deliver, of two held threads. -/
def delivering (v : W64) : State :=
  base.modWarp 1 0 fun w => { w with trapq := [{ code := 12, lmask := 3 }], tvec := v, threads := [{ held := true }, { held := true }] }

/-- `FetchFailuresAndDelivery`: it can be delivered, TVEC unset or set; its held thread goes on. -/
theorem witness_delivery : ∀ v ∈ [(0xFFFFFFFF : W64), 0x20], let s := delivering v
    (s.coh 1).status = .resident ∧ (s.warp 1 0).handler = false ∧ (s.warp 1 0).trapq = [{ code := 12, lmask := 3 }] ∧
      warpQuiet s 1 0 = true ∧ trapDue (s.warp 1 0) = false ∧ (s.warp 1 0).tvec = v ∧ laneIn 3 1 = true ∧ (s.thread 1 0 1).held = true ∧ HasThread s 1 0 1 := by
  intro v h
  simp only [List.mem_cons, List.not_mem_nil, or_false] at h
  unfold HasThread HasWarp
  rcases h with h | h <;> subst h <;> decide

/-! ### Saves, resumptions, retirements -/

/-- Below 2^30, `tables` maps every address to itself. -/
theorem walk_low {s : State} {ctx va : Nat} (hp : (s.ctx ctx).ptbase.toNat = 0x1000) (h1 : s.num 0x1000 8 = 0x2001)
    (h2 : s.num 0x2000 8 = 0x3001) (h3 : s.num 0x3000 8 = 0xF) (hv : va < 2 ^ 30) :
    s.walk ctx va = .page { giant with ctx } false := by
  have b4 : va / 281474976710656 = 0 := by omega
  have b3 : va / 549755813888 = 0 := by omega
  have b2 : va / 1073741824 = 0 := by omega
  simp [State.walk, walkFrom, hp, b4, b3, b2, h1, h2, h3, Config.hbmBytes, leafPage, pteReserved, leafBad, giant, bits]
/-- So an agent without a TLB finds every page there. -/
theorem dev_low {s : State} {ctx va : Nat} (need : Need) (h : ∀ x, x < 2 ^ 30 → s.walk ctx x = .page { giant with ctx } false)
    (hv : va < 2 ^ 30) : translateDev s ctx va need = .ok va := by
  have hk : s.agentLoss (lineOf va) = none := by
    have : isPeer (lineOf va) = false := by
      have h : ¬ 2 ^ 45 ≤ lineOf va := by unfold lineOf Config.lineBytes; omega
      rw [isPeer, decide_eq_false h, Bool.false_and]
    simp [State.agentLoss, this]
  unfold translateDev frameDev
  rw [canonical_low hv, h va hv]
  simp [giant_end s ctx need va hv, hk]

/-- A cohort asked to stop, its core's slots empty, with a page table and a save area at 0x400000. -/
def saving : State := { mapped with
  cores := [(0, { core0 with slots := [none, none, none, none] })]
  ctxs := [(0, { st := .active, ptbase := 0x1000, csave := 0x400000, csaven := 8 })]
  cohorts := [(1, { coh1 with preq := some 5000, fallback := true })] }

theorem save_ok {need : Need} {s : State} {ctx a n : Nat} (h : ∀ x, x < 2 ^ 30 → s.walk ctx x = .page { giant with ctx } false)
    (ha : a + n ≤ 2 ^ 30) : areaFailure need s ctx a n = none := by
  unfold areaFailure
  rw [List.findSome?_eq_none_iff]
  intro va hva
  simp only [dev_low need h (Nat.lt_of_lt_of_le (pages_below _ _ va hva) ha)]

set_option maxRecDepth 100000 in
/-- `SavesAndResumptions`: a cohort that falls back, and one that can be saved. -/
theorem witness_saves :
    ((base.modCoh 1 fun h => { h with preq := some 4096 }).ctx 0).pfall.toNat ≤ 4096 ∧
    cohortRests (base.modCoh 1 fun h => { h with preq := some 4096 }) 1 = false ∧
    canSave saving 1 = true ∧ areaFailure .write saving 0 (saveAddr saving 1) Config.saveSlotBytes = none := by
  refine ⟨by decide, by decide, by decide, ?_⟩
  exact save_ok (fun x hx => walk_low (by decide) (by decide) (by decide) (by decide) hx) (by decide)

/-- `Retirements`: a warp that can retire, with and without a failure left for it; a cohort that can. -/
theorem witness_retirements :
    (∀ f ∈ [none, some { code := 14 }], let s := base.modWarp 1 0 fun w => { w with threads := [{ st := .finished }], fabFail := f }
      HasWarp s 1 0 ∧ (s.warp 1 0).retired = false ∧ (∀ x ∈ (s.warp 1 0).threads, x.st = .finished) ∧
        (s.warp 1 0).trapq = [] ∧ s.opsOf 1 0 = [] ∧ (s.warp 1 0).fabFail = f) ∧
    (let h := { coh1 with warps := [{ warp0 with retired := true }] }
     (∀ x ∈ h.warps, x.retired = true) ∧ h.streams = [] ∧ h.status = .resident ∧ FMap.find base.launches h.launch = some launch0 ∧
       (FMap.find base.ctxs h.ctx).isSome = true ∧ base.ops = []) := by
  unfold HasWarp; decide

/-! ### Belfry and the mailboxes -/

/-- A mailbox of context 0 with a header at 0x6000, slots at 0x6100, TAIL 1; its message names a launch record at 0x6200, or,
with `bad`, is malformed. -/
def boxes (bad : Byte) : State := { base with
  mem := tables ++ [(0x6008, 1), (0x6021, 0x61), (0x6028, 4), (0x6101, 0x62)] ++ (if bad = 0 then [] else [(0x6108, bad)])
  ctxs := [(0, { st := .active, ptbase := 0x1000, hdr := [(2, 0x6000)] })]
  l2 := [⟨0xC0, 0, 0, 0⟩] }

set_option maxRecDepth 100000 in
/-- `BelfryDecisions`: a message that is malformed and one that is not. -/
theorem witness_mailbox_offer : ∀ b ∈ [(0 : Byte), 1],
    mailboxOffer (boxes b) 0 2 = some (0, 0x6100) ∧ mailboxTurn (boxes b) 0 2 = true ∧
    ((boxes b).readVirt 0 0x6100 64).map (fun m => (fieldN m 0 8, fieldN m 8 56)) = some (0x6200, b.toNat) := by decide

/-- A core with room, and a launch of eight cohorts of which none has been admitted. -/
def launching : State := { base with cores := [(0, {})], cohorts := [], launches := [(0, { launch0 with hasPred := false })] }

/-- `BelfryDecisions`: a fresh cohort is chosen and there is a core for it. -/
theorem witness_dispatch : ((chooseQueue launching).bind fun q => (chooseCore launching 0 (q.tiles launching) (q.cores launching)).map
    fun c => (q.launch, q.head, c)) = some (0, .fresh 0 0, 0) ∧ FMap.find launching.launches 0 = some { launch0 with hasPred := false } := by
  decide

/-- A node of context 0 and a bin of one record for it; the timer is 5, the dispatcher's clock `t`. -/
def node0 : Node := { idx := 0, addr := 0x5600, kdesc := 0, timer := 5, count := 2, recsize := 16 }
def binned (t : Nat) : State := { base with
  dclk := t, ctxs := [(0, { st := .active, nodes := [node0], ovfsize := 4096 })]
  bins := [{ launch := 0, node := 0, recs := [{ bytes := [], at_ := 0, die := 0, spill := none, tiles := [] }] }] }

/-- `BelfryDecisions`: a bin that is not due, and one that is with room for its batch. -/
theorem witness_bins : ∀ t ∈ [4, 5], FMap.find (binned t).launches 0 = some launch0 ∧ nodeOf (binned t) 0 0 = some node0 ∧
    ((binOf (binned t) 0 0).map fun b => (binDue (binned t) b node0, (takeOverflow 0
      (up128 (128 + (b.recs.take node0.count).length * node0.recsize)) (binned t)).isSome)) = some (t == 5, true) ∧
    ((binned t).ctx 0).st = .active := by decide

/-- Node entries at 0x5700 (its fields in range) and at 0x5780 (record size 0). -/
def entries : State := { mapped with
  mem := tables ++ [(0x570C, 1), (0x5710, 1), (0x5713, 2), (0x578C, 1), (0x5790, 1)] }

set_option maxRecDepth 100000 in
/-- `NodesAndRecords`: an entry in range and one out of range. -/
theorem witness_nodes :
    ((entries.readVirt 0 0x5700 32).map fun b => decide (fieldN b 20 12 = 0 ∧ fieldN b 8 4 = 0 ∧ fieldN b 18 2 % 16 = 0 ∧
      16 ≤ fieldN b 18 2 ∧ fieldN b 18 2 ≤ 512 ∧ 1 ≤ fieldN b 16 2 ∧ fieldN b 16 2 ≤ 1024 ∧ 1 ≤ fieldN b 12 4 ∧
      fieldN b 12 4 ≤ 2 ^ 24)) = some true ∧
    ((entries.readVirt 0 0x5780 32).map fun b => decide (16 ≤ fieldN b 18 2)) = some false ∧
    (entries.ctx 0).nodes.length < 65535 ∧ (∀ x ∈ (entries.ctx 0).nodes, x.addr ≠ 0x5700) ∧
    (FMap.find entries.ctxs 0).isSome = true := by decide

/-- A TSPAWN of two records for node 0, whose bin is empty. -/
def spawnOp : Op := { kind := .eng (.tspawn 0 0 2 [] [] 1), coh := 1, warp := 0, core := 0 }
def spawning : State := { binned 4 with bins := [], ops := [(0, spawnOp)] }

/-- `NodesAndRecords`: a record at its turn. -/
theorem witness_records : FMap.find spawning.ops 0 = some spawnOp ∧ nodeOf spawning 0 0 = some node0 ∧ 1 < 2 ∧
    spawnTurn spawning 0 spawnOp 0 = true ∧ binOf spawning 0 0 = none ∧ 1 < node0.count ∧ launchBusy spawning 0 = true ∧
    FMap.find spawning.launches 0 = some launch0 ∧ launch0.ctx = (spawning.coh spawnOp.coh).ctx ∧ 0 < node0.timer := by decide

/-- A ring at 0x6000 with one message reserved, not yet stored and not yet claimed; slots at 0x6100. -/
def ringed (k : OpKind) (replied : Bool) : State := { mapped with
  mem := tables ++ [(0x6000, 1)]
  ops := [(0, { kind := k, hdr := some { line := 0xC0, va := 0x6000, act := .load }, coh := 1, warp := 0, core := 0, parts := [{ line := 0xC2, va := 0x6100, done := replied, act := .store [] }] })] }

/-- `MailboxSteps`: the header's home is there. -/
theorem witness_mailbox_header (k : OpKind) (b : Bool) : ((FMap.find (ringed k b).ops 0).bind Op.hdr).map Part.line = some 0xC0 ∧
    (ringed k b).unreachable 0xC0 = false := ⟨rfl, rfl⟩

/-- `MailboxSteps`: the ring has room and its slot's page is writable; the message has replied and TAIL is its index; HEAD is
the claimed index. -/
theorem witness_mailboxes :
    (let s := ringed (.mbxput 0x6000 0x6100 4 [] none 0) false
     (s.coh 1).status = .resident ∧ (s.num 0x6000 8 + 2 ^ 64 - s.num 0x6018 8) % 2 ^ 64 < 2 ^ 4 ∧
       translate s 0 0 (0x6100 + 64 * (s.num 0x6000 8 % 2 ^ 4)) .write = .ok 0x6140 ∧ s.ops.map Prod.fst = [0]) ∧
    (let s := ringed (.mbxput 0x6000 0x6100 4 [] (some 0) 1) true
     ((FMap.find s.ops 0).map Op.replied) = some true ∧ s.num 0x6008 8 = 0) ∧
    (let s := ringed (.mbxget 0x6000 0x6100 4 1 63 (some 0) 2) true
     s.num 0x6018 8 = 0 ∧ (FMap.find s.ops 0).isSome = true) := by decide

/-! ### Drivers, the host, service -/

/-- `DriverContexts`: a FREE context and one that is not, neither withheld. -/
theorem witness_contexts : (FMap.find (switching .free 8).ctxs 1).isSome = true ∧ ((switching .free 8).ctx 1).st = .free ∧
    ((switching .saved 8).ctx 1).st ≠ .free ∧ ((switching .saved 8).ctx 1).vfHeld = false := by decide

set_option maxRecDepth 100000 in
/-- `FunctionPreemption`: virtual functions 1 and 63 while none is being pre-empted; function 0 is never. -/
theorem witness_functions : (FMap.find State.reset.fns 0).isSome = true ∧
    (∀ v ∈ [1, 63], vfIgnored { base with ctxs := [] } v = false) ∧ vfIgnored base 0 = true ∧ vfIgnored base 64 = true ∧
    (∀ c, c < 16 → (FMap.find ({ base with ctxs := (upto 16).map fun c => (16 + c, {}) } : State).ctxs (16 * 1 + c)).isSome = true) := by
  decide

/-- `EnergyAccounts`: what each clause asks: a debt above, at and below the grant, a reservation and an allowance likewise. -/
theorem witness_energy :
    (FMap.find base.ctxs 0).isSome = true ∧ (FMap.find base.cohorts 1).isSome = true ∧
    (let x : Context := { edebt := 5 }
     4 ≤ x.edebt ∧ x.edebt ≤ 5) ∧
    (let h := { coh1 with resv := 3 }
     let x : Context := { allow := 4 }
     3 ≤ h.resv ∧ (h.resv ≤ 7 ∧ 7 ≤ h.resv + x.allow) ∧ h.resv + x.allow ≤ 7) := by decide

/-- `Invalidations`: a function that is busy or not, and what it waits for no longer busy. -/
theorem witness_invalidations :
    (base.fn 0).tlbBusy = false ∧
    (let s := { base with fns := [(0, { tlbBusy := true, tlbWait := [0] })], ops := [(0, { zeroOp with busy := false })] }
     (s.fn 0).tlbBusy = true ∧ (FMap.find s.fns 0).isSome = true ∧
       (∀ i ∈ (s.fn 0).tlbWait, (FMap.find s.ops i).all (fun o => !o.busy) = true) ∧
       (∀ e ∈ s.ops, e.2.usesHost (hostKey 1 0x1000) (hostKey 1 0x1000 + 4096) = false)) ∧
    (let o := { zeroOp with kind := .waitc (hostKey 1 0x1800) 0 0 0 1 true 0 }
     o.usesHost (hostKey 1 0x1000) (hostKey 1 0x1000 + 4096) = true ∧
       ∃ e ∈ ({ base with dieTlb := [(0, [giant])] } : State).tlbEnts, e = giant) := by decide

/-- `Invalidations`: an entry of a host page of 2 MiB that an ATS invalidation covers, with an access to another part of it. -/
theorem witness_ats :
    let e : TlbEnt := ⟨0, 0, 21, 2, 0, 0x200000, true, true⟩
    let o : Op := { kind := .waitc (hostKey 0 0x3FF000) 0 0 0 1 true 0, coh := 1, warp := 0, core := 0 }
    let s := { base with dieTlb := [(0, [e])], ops := [(0, o)] }
    e ∈ s.tlbEnts ∧ e.target = 2 ∧ (s.ctx e.ctx).pasid = 0 ∧ e.frame ≤ 0x200010 ∧ 0x200010 < e.frame + 2 ^ e.bits ∧
      o.usesHost (hostKey 0 e.frame) (hostKey 0 e.frame + 2 ^ e.bits) = true ∧
      o.usesHost (hostKey 0 0x200000) (hostKey 0 0x200000 + 4096) = false := by decide

/-- `HypervisorQueue`: a call with room in a ring of 2^4 entries, and an outstanding one. -/
theorem witness_calls :
    (let o : Op := { kind := .hcall 0 3 1 7 false, coh := 1, warp := 0, core := 0 }
     let s := { base with ops := [(5, o)], hqLog2 := 4, hqTail := 15 }
     FMap.find s.ops 5 = some o ∧ ringRoom s = true ∧ (s.coh o.coh).status = .resident ∧ (FMap.find s.fns 0).isSome = true) ∧
    (let o : Op := { kind := .hcall 0 3 1 7 true, coh := 1, warp := 0, core := 0 }
     let s := { base with ops := [(5, o)], hqOut := [(5, 5)] }
     s.hqOut.find? (fun e => e.1 = 5) = some (5, 5) ∧ FMap.find s.ops 5 = some o ∧ HasWarp s 1 0 ∧
       (∀ e ∈ s.ops, e.2.coh = 1 → e.2.isWait = false) ∧ (∀ e ∈ s.hqOut, e.1 ≠ 6)) := by
  unfold HasWarp; decide

set_option maxRecDepth 100000 in
/-- `HostAccess`: a context idle or not and values at each rule's edge; accesses at the end of the window and beyond it. -/
theorem witness_host :
    (FMap.find State.reset.ctxs 1023).isSome = true ∧ (State.reset.ctx 1023).st = .free ∧ (base.ctx 0).st = .active ∧
    (1 ≤ 1 ∧ 4096 % 4096 = 0 ∧ 65535 ≤ 65535 ∧ ¬ 4095 % 4096 = 0) ∧
    ((2 ^ 30 - 1 : Nat) + [7].length ≤ (base.fn 0).bar2size ∧ (base.fn 0).bar2base.toNat + (2 ^ 30 - 1) + 1 ≤ 2 ^ 39 ∧
      (base.fn 0).bar2size < 2 ^ 30 + [7].length) := by decide

/-- `HostAccess`: registers at the ends of their ranges; AtomicOps at the end of the window; sizes and a PASID at their edges. -/
theorem witness_host_requests :
    (0 + 8 ≤ 2 ^ 24 ∧ 8 ≠ 4) ∧ (0xF00000 % 8 = 0 ∧ 0xFFFFF8 % 8 = 0 ∧ 0xFFFFF8 < 2 ^ 24) ∧
    ((2 ^ 30 - 8) % 8 = 0 ∧ 2 ^ 30 - 8 + 8 ≤ (base.fn 0).bar2size ∧ (base.fn 0).bar2base.toNat + (2 ^ 30 - 8) + 8 ≤ 2 ^ 39 ∧
      (2 ^ 30 - 4) % 4 = 0 ∧ 2 ^ 30 - 4 + 4 ≤ (base.fn 0).bar2size) ∧
    (FMap.find base.fns 0).isSome = true ∧ 30 ≤ 30 ∧ 30 ≤ 36 ∧ (FMap.find base.ctxs 0).isSome = true ∧ 2 ^ 20 - 1 < 2 ^ 20 := by
  decide

/-- `FirmwareUpdate`: a controller with an accepted image, idle and not. -/
theorem witness_firmware :
    (let f : Firmware := { pending := true }
     FMap.find ({ base with fw := [(1, f)], launches := [] } : State).fw 1 = some f ∧ f.pending = true ∧
       controllerIdle { base with launches := [] } 1 = true ∧ controllerIdle base 1 = false) ∧
    ({} : Firmware).pending = false := by decide

/-- `LiveService`: a lane out and not; a core that drains, is empty and has a spare. -/
theorem witness_service :
    (let s := { base with lanes := [(3, 1)] }
     (3, 1) ∈ s.lanes ∧ (3, 0) ∉ s.lanes ∧ (∃ x ∈ s.lanes, x.1 = 3) ∧ (∀ x ∈ s.lanes, x.1 ≠ 4)) ∧
    (63 < 64 ∧ 3 < 4 ∧ 7 < 8 ∧ 8 ≤ 8 ∧ 2047 < 2048 ∧ 2048 ≤ 2048 ∧ 64 ≤ 64) ∧
    (let s := { base with cores := [(5, { draining := true })], spares := [(0, 4)] }
     (s.core 5).draining = true ∧ (∀ e ∈ s.cohorts, e.2.core = 5 → e.2.status ≠ .resident) ∧
       FMap.find s.spares (dieOf 5) = some 4 ∧ (FMap.find s.cores 5).isSome = true) := by decide

/-- A request to peer 3 of a load, and of a store. -/
def farPart : Part := { line := peerKey 3 0 / 128, va := 0x8000, act := .load, done := false }
/-- `FabricFailures`: each kind of operation with a request not delivered. -/
theorem witness_fabric :
    isPeer farPart.line = true ∧ peerOf farPart.line = 3 ∧ farPart.done = false ∧ 3 ∉ base.absent ∧
    (∀ k ∈ [(OpKind.load 4 false false 1, true), (.store, false)], let o : Op :=
        { kind := k.1, long := k.2, coh := 1, warp := 0, core := 0, parts := [farPart] }
      FMap.find ({ base with ops := [(0, o)] } : State).ops 0 = some o ∧ o.parts[0]? = some farPart ∧ o.long = k.2) ∧
    HasWarp base 1 0 := by
  unfold HasWarp; decide

/-- `FabricFailures`: two loads of a die that wait for one fill; an atomic; an engine's access; a monitor. -/
theorem witness_fabric_kinds :
    let load (w : Nat) : Op := { kind := .load 4 false false 1, long := true, coh := 1, warp := w, core := 0, parts := [farPart] }
    let swap := { farPart with act := .atomic 0 0 (peerKey 3 0) [] }
    let wait : Op := { kind := .waitc (peerKey 3 0) 0 0 0 1 false 0, coh := 1, warp := 0, core := 0, busy := false }
    (let s := { base with ops := [(0, load 0), (1, load 1)] }
     (∀ e ∈ s.ops, e.2.isWait = false) ∧ (load 1).waitsFill 0 farPart.line = true ∧ farPart.late = false) ∧
    (swap.loads = false ∧ swap.done = false ∧ isPeer swap.line = true) ∧
    (({ cmdOp (.copy 0 0 0 16 0) with parts := [farPart] } : Op).parts[0]? = some farPart ∧ farPart.fail = none) ∧
    (let s := { base with ops := [(0, wait)] }
     FMap.find s.ops 0 = some wait ∧ isPeer (lineOf (peerKey 3 0)) = true ∧ peerOf (lineOf (peerKey 3 0)) ∉ s.absent ∧ HasWarp s 1 0 ∧
       ∀ e ∈ s.ops, e.1 ≠ 0 → e.2.isWait = false) := by
  unfold HasWarp; decide

/-- `SoftErrorMarks`: the highest register, lane, byte and element of each. -/
theorem witness_soft :
    HasWarp base 1 0 ∧ (base.coh 1).status = .resident ∧ (FMap.find base.cohorts 1).isSome = true ∧
    4095 < (base.coh 1).scratchSize ∧ (FMap.find (owned 3 [] []).cores 0).isSome = true ∧
    ((owned 3 [] []).mx 0).owner.isSome = true ∧ (base.ctx 0).st = .active ∧ 254 < 255 ∧ 62 < 63 := by
  unfold HasWarp; decide

set_option maxRecDepth 100000 in
/-- `Resets`: a function with all its contexts, the last one too. -/
theorem witness_resets : ∀ f ∈ [0, 63], (FMap.find State.reset.fns f).isSome = true ∧
    ∀ c, c < 16 → (FMap.find State.reset.ctxs (16 * f + c)).isSome = true := by decide

/-! ## One step of an instruction -/

/-- The state after an instruction that goes on. -/
def after (i : Instr) (s : State) : State :=
  match exec i s with
  | .next t => t
  | _ => s
/-- `base` with scalar registers, and vector registers of lane 0, by number. -/
def given (sregs : List (Nat × W64)) (vregs : List (Nat × W32)) : State := { base with
  cohorts := [(1, { coh1 with warps := [{ warp0 with sregs, vregs := vregs.map fun r => (32 * r.1, r.2) }] })] }
/-- s1 after a long instruction has completed. -/
def quotient (i : Instr) (a b : W64) : W64 :=
  ((after (.longInstructionCompletion 3) (after i (given [(2, a), (3, b)] []))).warp 1 0).readS 1
def divF (m : BitVec 6) : Fields := word pt (sr 1) (sr 2) (sr 3) 0 m

/-- 11, the table of division at its edges. -/
theorem test_sdiv : quotient (.sdiv (divF 5)) 7 (-2) = -3 ∧ quotient (.sdiv (divF 5)) 0x8000000000000000 (-1) = 0x8000000000000000 ∧
    quotient (.sdiv (divF 6)) 5 0 = -1 ∧ quotient (.sdiv (divF 3)) 0x12345678FFFFFFF9 2 = -3 := by decide
theorem test_srem : quotient (.srem (divF 5)) (-7) 2 = -1 ∧ quotient (.srem (divF 5)) 0x8000000000000000 (-1) = 0 ∧
    quotient (.srem (divF 6)) 5 0 = 5 := by decide
/-- 11: 0xFFFFFFFF + 2 sets the carry p5, and 1 + 3 takes it. -/
theorem test_iaddc :
    (let t := after (.iaddc (word pt (v 4) (v 0) (v 2) 0x05000406 4)) (given [] [(0, 0xFFFFFFFF), (1, 1), (2, 2), (3, 3)])
     (t.warp 1 0).readV 4 0 = 1 ∧ (t.thread 1 0 0).preds.getLsbD 5 = true) := by decide
/-- 12: 200.0 and −400.0 pack into bytes 2 and 3 of v7; OF and NX are set. -/
theorem test_cvtn :
    (let t := after (.cvtn (word pt (v 7) (v 2) (v 3) 0x04008000 11)) (given [] [(2, 0x43480000), (3, 0xC3C80000), (7, 0xAABBCCDD)])
     (t.warp 1 0).readV 7 0 = 0xFF7CCCDD) := by decide
/-- 13: 1.2509765625 to B4P2 is 1.5. -/
theorem test_cvt :
    (let t := after (.cvt (word pt (v 1) (v 0) u 0 25)) (given [] [(0, 0x3FA02000)])
     (t.warp 1 0).readV 1 0 = 5) := by decide
/-- 18: 9.25 × 2 in BF16 is 18.5. -/
theorem test_fmul : ((after (.fmul (word pt (v 3) (v 1) (v 2) 0 2)) (given [] [(1, 0x4114), (2, 0x4000)])).warp 1 0).readV 3 0 = 0x4194 := by
  decide
/-- 02, worked: v4 + (−3) wraps. -/
theorem test_iadd : ((after (.iadd (word pt (v 4) (v 4) (im 0x1FD) 0 3)) (given [] [(4, 1)])).warp 1 0).readV 4 0 = 0xFFFFFFFE := by decide
/-- 05 R119: LOOPD decrements its counter and branches while it is not 0. -/
theorem test_loopd : (let t := after (.loopd (word pt (sr 7) u u 4 0)) (given [(7, 3)] [])
    (t.warp 1 0).readS 7 = 2 ∧ (t.thread 1 0 0).pc = 11) ∧
    (let t := after (.loopd (word pt (sr 7) u u 4 0)) (given [(7, 1)] [])
    (t.warp 1 0).readS 7 = 0 ∧ (t.thread 1 0 0).pc = 8) := by decide
/-- 05: EXIT finishes the executing threads. -/
theorem test_exit : ((after (.exit (word pt u u u 0 0)) base).thread 1 0 1).st = .finished := by decide
/-- 07 R130: TRAP queues its record, with IMM as DETAIL. -/
theorem test_trap : ((after (.trap (word pt u u u 9 0)) base).warp 1 0).trapq.map (fun r => (r.code, r.detail, r.pc)) = [(12, 9, 7)] := by
  decide
set_option maxRecDepth 100000 in
/-- The first step after an instruction is placed runs it: MOVI v8, #0x41100000 of 27's listing. -/
theorem test_place : (match step (State.reset.withFetchWord 96 0x000104400003803800021D41) with
    | .next t => decide ((t.warp 1 0).readV 8 0 = 0x41100000)
    | _ => false) = true := by decide

/-! ### Commands at their completion -/

/-- `loaded` with a page of 2^30 bytes in the core's TLB, and a command at work. -/
def working (cmd : EngCmd) : State := { loaded with
  mem := dev.mem, l2 := dev.l2 ++ (upto 4).map fun i => { line := i, w := 0, e := 0, hint := 0 }
  cores := [(0, { core0 with tlb := [giant] })], ops := [(0, cmdOp cmd)]
  ctxs := [(0, { st := .active, ptbase := 0x1000, nodes := [node0] })] }

theorem can_read {s : State} {o : Op} (h : (s.core 0).tlb = [giant]) (ho : o.core = 0) (hx : (s.coh o.coh).ctx = 0) {va n : Nat}
    (hl : ∀ ch ∈ chunksOf va n, ch.1 < 2 ^ 30 ∧ s.unreachable (lineOf ch.1) = false ∧ isRemote 0 (lineOf ch.1) = false) :
    CanRead s o true va n ∧ CanWrite s o va n := by
  refine ⟨fun ch hc => ⟨ch.1, ?_, rfl, (hl ch hc).2.1, fun _ hr => ?_⟩, fun ch hc => ⟨ch.1, ?_, (hl ch hc).2.1⟩⟩
  · rw [ho, hx]; exact translate_giant h .read ch.1 (hl ch hc).1
  · rw [ho, show dieOf 0 = 0 from rfl, (hl ch hc).2.2] at hr; cases hr
  · rw [ho, hx]; exact translate_giant h .write ch.1 (hl ch hc).1

theorem steady {s : State} {o : Op} (h : (s.core 0).tlb = [giant]) (ho : o.core = 0) (hx : (s.coh o.coh).ctx = 0)
    (written : Nat → Prop) {vas : List Nat} (hl : ∀ va ∈ vas, va < 2 ^ 30) : Steady s o written vas := by
  intro u _ _ _ _ ht _ va hva
  rw [ho] at ht ⊢
  rw [hx, translate_giant (ht.trans h) .write va (hl va hva), translate_giant h .write va (hl va hva)]

/-- `CommandEffects`: every command issued, neither cancelled nor failed. -/
theorem witness_effects_common :
    ∀ cmd ∈ [EngCmd.copy 0 0x8000 16 256 0, .copy 1 0x9000 0 256 0, .copy 2 0 256 256 0, .copy 3 0x8000 0x9000 256 0,
        .lists dot true false 0 0 [0, 0] [0] 0, .lists dot false false 0 0 [0, 0] [0] 0, .tspawn 0 0 2 [] [] 1, .wdnext 0x5100 0,
        .rayq (parseBvh []) [(0, List.replicate 8 0)] false 0 0],
      let s := working cmd
      let o := cmdOp cmd
      FMap.find s.ops 0 = some o ∧ (o.dests.find? fun d => !d.vec).map Dest.idx = some 2 ∧ o.fut = some 4 ∧ o.held = none ∧
        HasWarp s o.coh o.warp ∧ (∀ e ∈ s.ops, e.2.coh = o.coh → e.2.isWait = false) ∧ o.soft = false ∧ o.cancelled = false ∧ o.fabricFail = none ∧
        (s.coh o.coh).scratchBad = [] ∧ (s.core 0).tlb = [giant] ∧ (s.coh o.coh).ctx = 0 := by
  unfold HasWarp; decide

/-- `CommandEffects`: ranges of three lines that can be read and written, and that no write moves. -/
theorem witness_effects_ranges (cmd : EngCmd) (written : Nat → Prop) : ∀ va ∈ [0x8010, 0x9010],
    CanRead (working cmd) (cmdOp cmd) true va 256 ∧ CanWrite (working cmd) (cmdOp cmd) va 256 ∧
      Steady (working cmd) (cmdOp cmd) written ((chunksOf va 256).map Prod.fst) := by
  intro va hva
  have hl : ∀ ch ∈ chunksOf va 256, ch.1 < 2 ^ 30 ∧ base.unreachable (lineOf ch.1) = false ∧ isRemote 0 (lineOf ch.1) = false := by
    simp only [List.mem_cons, List.not_mem_nil, or_false] at hva
    obtain rfl | rfl := hva <;> decide
  have hr := can_read (s := working cmd) (o := cmdOp cmd) rfl rfl rfl hl
  refine ⟨hr.1, hr.2, steady rfl rfl rfl written fun a ha => ?_⟩
  obtain ⟨ch, hc, rfl⟩ := List.mem_map.mp ha
  exact (hl ch hc).1

set_option maxRecDepth 100000 in
/-- `CommandEffects`: a gather and a scatter of one element whose item is in bounds; its line can be read and written, and is
steady; 32 elements a block for CV32; a 32-bit type. -/
theorem witness_effects_lists (cmd : EngCmd) (written : Nat → Prop) :
    (itemFault (working (.lists dot true false 0 0 [0, 0] [0] 0)) 0 0 .read dot false (listCoord 0 [0, 0] 0)).1 = 0 ∧
    ((itemPlaces dot false 0 0 (listCoord 0 [0, 0] 0)).filter fun q => dot.inBounds q.2.2).map (fun q => dot.addr q.2.2) = [0x10000] ∧
    (CanRead (working cmd) (cmdOp cmd) false 0x10000 dot.elemBytes ∧ CanWrite (working cmd) (cmdOp cmd) 0x10000 dot.elemBytes) ∧
    Steady (working cmd) (cmdOp cmd) written [0x10000] ∧ dimD (parseRecord recBytes).blk 0 % 32 = 0 ∧ dot.bits ≠ 4 := by
  have hr := can_read (s := working cmd) (o := cmdOp cmd) rfl rfl rfl (va := 0x10000) (n := dot.elemBytes)
    (show ∀ ch ∈ chunksOf 0x10000 dot.elemBytes,
      ch.1 < 2 ^ 30 ∧ base.unreachable (lineOf ch.1) = false ∧ isRemote 0 (lineOf ch.1) = false by decide)
  refine ⟨by decide, by decide, ⟨fun ch hc => ?_, hr.2⟩, steady rfl rfl rfl written (by decide), by decide, by decide⟩
  obtain ⟨k, h1, h2, h3, -⟩ := hr.1 ch hc
  exact ⟨k, h1, h2, h3, fun h => nomatch h⟩

set_option maxRecDepth 100000 in
/-- `CommandEffects`: WDNEXT of a table of seven items, and of a table of none. -/
theorem witness_effects_wdnext :
    (∀ x ∈ [(0x5100, true), (0x5500, false)],
      let s := working (.wdnext x.1 0)
      let o := cmdOp (.wdnext x.1 0)
      let r := engRead o 0 x.1 64 { s, rd := o.rd, via := .home }
      let l := untaken o x.1 (fieldN r.1 8 4) (fieldN r.1 8 4) 0 256 r.2
      let ts := itemTiles o (fieldN r.1 0 8) l.1 l.2
      ts.2.bad = false ∧ (pickItem ts.2.s o.core (ts.2.s.coh o.coh).ctx ts.1).isSome = x.2) ∧
    (let s := working (.wdnext 0x5100 0)
     translate s 0 0 (0x5100 + 16) .write = .ok 0x5110 ∧ translate s 0 0 (0x5100 + 64) .write = .ok 0x5140 ∧
       s.unreachable (lineOf 0x5110) = false ∧ s.unreachable (lineOf 0x5140) = false) := by decide

/-- World 2 with cursor 3 on version 1 of table 0, or on nothing, or on a table that is not there. -/
def worldly (cmd : EngCmd) (failed : Bool) (pins : List (Nat × Nat)) : State := { base with
  mem := worldMem.filter (fun e => e.1 < 0x1008C) ++ [(0x1008C, 1)] ++ worldMem.filter (fun e => 0x1008C < e.1)
  ops := [(5, cmdOp cmd)], l2 := [⟨0x200, 0, 0, 0⟩, ⟨0x201, 0, 0, 0⟩, ⟨0x600, 0, 0, 0⟩]
  worlds := [(2, { geo := geo2, comptab := List.replicate 1024 0, failed
                   cursors := [(3, { coh := some 1, q := { world := 2, req := 0, excl := 0, ret := [0] }, pins })] })] }

set_option maxRecDepth 100000 in
/-- `WorldCommandEffects`: each command at its turn, and one that is not at its turn; a failed world. -/
theorem witness_world_effects :
    (∀ cmd ∈ [EngCmd.queueChange [⟨2, 1, 0, 0, 1, 0, 0, 0x200000000000001, []⟩] none, .wqry 2 { world := 2, req := 0, excl := 0, ret := [0] }, .wnext 2 3 0, .wclose 2 3,
        .wres [(0, 0x200000000000001), (1, 0x200000000000001)] 0, .wcol [(0, 0x200000000000001), (31, 0x200000000000001)] 0 8],
      let s := worldly cmd false [(0, 1)]
      let o := cmdOp cmd
      FMap.find s.ops 5 = some o ∧ HasWarp s o.coh o.warp ∧ (∀ e ∈ s.ops, e.2.coh = o.coh → e.2.isWait = false) ∧
        worldTurn s 5 o cmd = true ∧ cmd.worldKeys (s.coh o.coh).ctx ≠ [] ∧ o.soft = false ∧
        worldTurn { s with ops := (0, cmdOp (.wnext 2 3 0)) :: s.ops } 5 o cmd = false) ∧
    worldFailed (worldly .rfence true []) 0 2 = true ∧ worldFailed (worldly .rfence false []) 0 2 = false ∧
    [(0 : Nat), 1].Nodup ∧ [(0 : Nat), 31].Nodup := by
  unfold HasWarp; decide

set_option maxRecDepth 100000 in
/-- `WorldCommandEffects`: a query that opens its cursor; a cursor with a chunk left and with none; one that closes, and one
whose table is not there. -/
theorem witness_world_cursors :
    (let s := worldly (.wqry 2 { world := 2, req := 0, excl := 0, ret := [0] }) false []
     match openCursor s 0 2 (some 1) { world := 2, req := 0, excl := 0, ret := [0] } with
     | .ok u k _ => decide (0 < (u.coh 1).warps.length ∧ u.ops = s.ops ∧ k = 0)
     | .full | .corrupt => false) = true ∧
    ((rotOf (worldly (.wnext 2 3 0) false [(0, 1)]) 0 2).bind fun r => (r.nthChunk 0 [(0, 1)]).map fun x => x.map fun c =>
      (r.record { world := 2, req := 0, excl := 0, ret := [0] } 3 c).isSome) = some (some true) ∧
    ((rotOf (worldly (.wnext 2 3 0) false [(0, 1)]) 0 2).map fun r => r.nthChunk 1 [(0, 1)]) = some (some none) ∧
    ((closeCursor? 2 3 (worldly (.wclose 2 3) false [])).map fun u =>
      decide (0 < (u.coh 1).warps.length ∧ u.ops = (worldly (.wclose 2 3) false []).ops)) = some true ∧
    closeCursor? 2 3 (worldly (.wclose 2 3) false [(9, 8)]) = none := by decide

/-- `FirmwareUpdate`: a signature verifies or does not. -/
theorem witness_verify (hash sig : Nat) : Config.verify hash sig = false ∨ Config.verify hash sig = true := by
  cases Config.verify hash sig <;> simp

set_option maxRecDepth 8000 in
/-- SHA-512 of "abc" begins DD AF 35 A1 (the example of FIPS 180-4). -/
theorem test_sha512_abc : ((sha512 [0x61, 0x62, 0x63]).take 4 == [0xDD, 0xAF, 0x35, 0xA1]) = true := by rfl

/-! ### Witnesses of the checks, of commands that start, and of what they leave -/

theorem gateFrame_refl (s : State) : GateFrame s s where
  regs := {
    outside := ⟨fun _ => rfl, rfl, rfl, rfl, rfl⟩
    special := ⟨fun _ _ => rfl, fun _ _ => rfl, fun _ _ => rfl, fun _ _ => rfl, fun _ _ => rfl, fun _ => rfl⟩
    scratch := fun _ _ => rfl
    vregs := fun _ _ _ _ _ => rfl
    sregs := fun _ _ _ _ => rfl
    preds := fun _ _ _ _ _ _ => rfl
    flags := fun _ _ _ => rfl }
  ctxs _ := rfl
  ops := rfl

/-- `CheckFrames`: each kind of check passes somewhere; a check that only passes has the frame the last clause asks. -/
theorem witness_check_frames :
    (∃ t, globalGate grp .read [(0, 0)] (fun _ => 0x8000) 4 boxed = .pass t) ∧
    (∃ t, atomGate grp (word pt (v 5) (sr 4) (im 1) 0x80 0x10) [(0, 0)] boxed = .pass t) ∧
    (∃ t, redcGate grp (word pt (sr 4) (v 6) (im 1) 0 0) boxed = .pass t) ∧
    (∃ t, mbxGate grp (word pt u (sr 4) (sr 16) 0 0) true boxed = .pass t) ∧
    (∃ t, engGate grp (word pt u u u 0 0) (fun _ => .pass) (fun _ _ => []) false boxed = .pass t) ∧
    ∀ (x y : State), Gate.pass x = .pass y → GateFrame x y :=
  ⟨passes_iff (by decide), passes_iff (by decide), passes_iff (by decide), passes_iff (by decide), passes_iff (by decide),
    fun x _ h => by cases h; exact gateFrame_refl x⟩

/-- `dev` with a page of 2^30 bytes in its core's TLB. -/
def paged : State := dev.modCore 0 fun k => { k with tlb := [giant] }

set_option maxRecDepth 100000 in
/-- `CommandStarts`: node 0, and its ring has slots; a descriptor that can be read, and one that cannot; a cached table; blocks at
0x6000. -/
theorem witness_command_starts :
    (FMap.find dev.cohorts 1).isSome = true ∧ ((dev.ctx 0).nodes.find? fun n => n.addr = 0x5600).isSome = true ∧
    (match takeSlots 0 0 0 16 0 dev with
      | .ok _ => true
      | .error _ => false) = true ∧
    (dev.readVirt 0 0x8000 128).isSome = true ∧ dev.readVirt 0 (2 ^ 40) 128 = none ∧ (tableHit dev 0 0 0x7000).isSome = true ∧
    CanRead paged (readerOp paged grp 0) true 0x6000 8 :=
  ⟨by decide, by decide, by decide, by decide, by decide, by decide,
    (can_read (s := paged) (o := readerOp paged grp 0) rfl rfl rfl (by decide)).1⟩

/-- A byte matrix of 2 × 2 elements at 0x10000. -/
def tiny : Tensor := { dot with type := 28, lo := [0, 0], hi := [2, 2], stride := [1, 2], blk := [32, 1] }

theorem tiny_low {x0 x1 : Int} (h : tiny.inBounds [x0, x1] = true) : tiny.addr [x0, x1] < 2 ^ 30 := by
  have hb : (0 ≤ x0 ∧ x0 < 2) ∧ 0 ≤ x1 ∧ x1 < 2 := by
    simpa [Tensor.inBounds, tiny, dot, show (parseRecord recBytes).rank = 2 by decide, upto, List.range, List.range.loop, dimD] using h
  obtain rfl | rfl : x0 = 0 ∨ x0 = 1 := by omega
  all_goals obtain rfl | rfl : x1 = 0 ∨ x1 = 1 := by omega
  all_goals decide

/-- A byte below 2^30 can be read and written where the core's TLB holds that page. -/
theorem byte_near (cmd : EngCmd) {a : Nat} (h : a < 2 ^ 30) :
    CanRead (working cmd) (cmdOp cmd) true a 1 ∧ CanWrite (working cmd) (cmdOp cmd) a 1 := by
  refine can_read rfl rfl rfl fun ch hc => ?_
  have he : ch = (a, 1) := by
    have hd : (a + 1 - 1) / 128 - a / 128 + 1 = 1 := by simp
    simp only [chunksOf, hd, upto] at hc
    simp at hc
    rw [hc, Nat.max_eq_left (Nat.div_mul_le_self a 128), Nat.min_eq_left (by omega)]
    simp
  subst he
  have hl : lineOf a < 2 ^ 23 := by unfold lineOf Config.lineBytes; omega
  have hp : isPeer (lineOf a) = false := by rw [isPeer, decide_eq_false (by omega), Bool.false_and]
  refine ⟨h, by simp [State.unreachable, hp], ?_⟩
  have hd : homeDie (lineOf a) = 0 := by unfold homeDie; omega
  simp [isRemote, hp, hd]

/-- `CommandEffects`: a plane block of a tensor of four elements, each of which can be read; a block of 32 for CV32. -/
theorem witness_effects_transforms (cmd : EngCmd) :
    planeType tiny.type = true ∧ dimD tiny.blk 0 % 32 = 0 ∧ tiny.bits ≠ 4 ∧
    (∀ m k, tiny.inBounds (planeCoord 0 (planeBlockAt 0 0 0 0) m k) = true →
      CanRead (working cmd) (cmdOp cmd) true (tiny.addr (planeCoord 0 (planeBlockAt 0 0 0 0) m k)) tiny.elemBytes) ∧
    (∀ y, tiny.inBounds (tiny.inBlock [0, 0] y) = true →
      CanRead (working cmd) (cmdOp cmd) true (tiny.addr (tiny.inBlock [0, 0] y)) tiny.elemBytes ∧
        CanWrite (working cmd) (cmdOp cmd) (tiny.addr (tiny.inBlock [0, 0] y)) tiny.elemBytes) :=
  ⟨by decide, by decide, by decide, fun _ _ hb => (byte_near cmd (tiny_low hb)).1, fun _ hb => byte_near cmd (tiny_low hb)⟩

/-- `EngineCompletion`: a result that no later one overwrites, of registers that pend for nothing else. -/
theorem witness_tex_results :
    let ws : List RegW := [.v 8 0 1, .v 9 0 2]
    ws = [] ++ .v 8 0 1 :: [.v 9 0 2] ∧ (∀ y, RegW.v 8 0 y ∉ [RegW.v 9 0 2]) ∧
      (∀ e ∈ (asking (cmdOp (.tex ws 1 0 0))).ops, e.1 ≠ 0 → e.2.coh = 1 → e.2.warp = 0 → ∀ x ∈ e.2.dests,
        x.vec = true → x.idx = 8 → x.lanes.getLsbD 0 = false) :=
  ⟨rfl, by simp, by decide⟩

/-- Two spawns into world 2, and a kill and an addition of 40 bytes, by threads 0 and 1. -/
def spawns : List Change := [⟨2, 0, 0, 3, 1, 0, 0, 0, []⟩, ⟨2, 0, 0, 3, 1, 1, 0, 0, []⟩]
def edits : List Change :=
  [⟨2, 1, 0, 3, 1, 0, 0, 0x200000000000001, []⟩, ⟨2, 2, 5, 3, 1, 1, 0, 0x200000000000001, List.replicate 40 7⟩]
/-- World 2 whose queue holds `held` entries, with a directory of `cap` indices. -/
def queueing (cs : List Change) (vh : Option Nat) (held cap : Byte) : State :=
  let s := worldly (.queueChange cs vh) false []
  { s with l2 := s.l2 ++ [⟨0x400, 0, 0, 0⟩, ⟨0xA00, 0, 0, 0⟩]
           mem := (s.mem.filter fun e => e.1 < 0x10070) ++ [(0x10070, cap)] ++ (s.mem.filter fun e => 0x10070 < e.1 ∧ e.1 < 0x100A0) ++
             (if held = 0 then [] else [(0x100A0, held)]) ++ s.mem.filter fun e => 0x100A0 < e.1 }
/-- How its command ends. -/
def queued (cs : List Change) (held cap : Byte) : Nat :=
  match queueAll (queueing cs none held cap) 0 (numberChanges (queueing cs none held cap) 1 0 cs) with
  | .ok _ _ _ => 0
  | .full => 1
  | .corrupt => 2

set_option maxRecDepth 100000 in
/-- `QueuedChanges`: entries that fit, a full queue, a directory without an index left, and one whose NEXTIDX is out of range. -/
theorem witness_queued : queued spawns 0 16 = 0 ∧ queued edits 0 16 = 0 ∧ queued edits 125 16 = 1 ∧ queued spawns 0 2 = 1 ∧
    queued spawns 0 1 = 2 ∧ (spawns.map fun c => c.thread % 32).Nodup ∧ (edits.map fun c => c.thread % 32).Nodup := by decide

set_option maxRecDepth 100000 in
/-- `QueuedChanges`: the command is at its turn, and its warp and threads are there before and after its entries. -/
theorem witness_queued_running :
    (∀ cs ∈ [spawns, edits], let s := queueing cs (some 8) 0 16
      FMap.find s.ops 5 = some (cmdOp (.queueChange cs (some 8))) ∧ HasWarp s 1 0 ∧
        (∀ e ∈ s.ops, e.2.coh = 1 → e.2.isWait = false) ∧ worldTurn s 5 (cmdOp (.queueChange cs (some 8))) (.queueChange cs (some 8)) = true) ∧
    (match queueAll (queueing spawns (some 8) 0 16) 0 spawns with
      | .ok u _ _ => decide (u.ops = (queueing spawns (some 8) 0 16).ops ∧ 0 < (u.coh 1).warps.length ∧ 1 < (u.warp 1 0).threads.length)
      | _ => false) = true := by
  unfold HasWarp; decide

set_option maxRecDepth 100000 in
/-- `QueuedChanges`: the spawns have their indices; the queue's places are in the world's regions, and lie where no write of
entries moves them. -/
theorem witness_queue_places :
    (match (rotOf (queueing spawns none 0 16) 0 2).bind fun r => (Rot.reserveAll spawns r).map fun x => (r, x) with
      | some (r, some (x, done)) => decide (r.room 2 = some true ∧ x.bad = false ∧ x.field 160 8 = some 0 ∧
          done.map Change.handle = [0x200000000000002, 0x200000000000003] ∧ x.geo.slot 0 = 0x50000 ∧ x.geo.slot 1 = 0x50020 ∧
          x.inside 0x50000 32 = true ∧ x.inside 0x50020 32 = true ∧ x.geo.desc + 160 = 0x100A0 ∧ x.inside 0x100A0 8 = true ∧
          (x.s.ctx 0).ptbase = 0x1000 ∧ (∀ e ∈ tables, x.s.byte e.1 = e.2) ∧ x.ctx = 0)
      | _ => false) = true ∧
    (match rotOf (queueing spawns none 0 16) 0 2 with
      | some r => decide (r.freeEnd 132 = some 0 ∧ r.freeEnd 136 = some 0 ∧ r.nextIdx = some 2 ∧ (r.dir 2).isSome = true ∧ r.bad = false)
      | none => false) = true := by decide

/-- `QueuedChanges`: agents translate every low address alike before and after writes that spare the page table. -/
theorem steady_dev {s : State} (hp : (s.ctx 0).ptbase.toNat = 0x1000) (h1 : s.num 0x1000 8 = 0x2001)
    (h2 : s.num 0x2000 8 = 0x3001) (h3 : s.num 0x3000 8 = 0xF) (written : Nat → Prop) (hw : ∀ a, a < 0x4000 → ¬ written a)
    {vas : List Nat} (hl : ∀ va ∈ vas, va < 2 ^ 30) : SteadyDev s 0 written vas := by
  intro u hb hc _ _ _ _ va hva
  have hn : ∀ a, a + 8 ≤ 0x4000 → u.num a 8 = s.num a 8 := by
    intro a ha
    have : u.bytes a 8 = s.bytes a 8 := List.map_congr_left fun i hi => hb _ (hw _ (by
      have : i < 8 := List.mem_range.mp hi
      omega))
    rw [State.num, State.num, this]
  have hx : (u.ctx 0).ptbase.toNat = 0x1000 := by rw [← hp]; unfold State.ctx; rw [hc]
  have e1 := dev_low .write (fun x => walk_low hx ((hn 0x1000 (by omega)).trans h1) ((hn 0x2000 (by omega)).trans h2)
    ((hn 0x3000 (by omega)).trans h3)) (hl va hva)
  exact e1.trans (dev_low .write (fun x => walk_low hp h1 h2 h3) (hl va hva)).symm

/-- `SyncSteps`: SYNCNO of world 2 can be read, and stands at 0. -/
theorem witness_sync_number : ((FMap.find (syncing 0 none).worlds 2).map fun w =>
    w.geo.number (syncing 0 none) 0 (w.geo.desc + 144) 8) = some (some 0) := by decide

/-- An operation of Rotunda, and a sample, that carry an uncorrectable error. -/
def softOps : List EngCmd := [.wqry 2 { world := 2, req := 0, excl := 0, ret := [0] }, .tex [.v 8 0 1] 1 0 0]
set_option maxRecDepth 100000 in
/-- `SoftErrorMarks`: a cached weight table; a reply and a command of Rotunda; commands that carry the error to their end; a context
in control and not. -/
theorem witness_soft_targets :
    (dev.core 0).wts[0]? = some { ctx := 0, addr := 0x7000, weights := [] } ∧ (FMap.find dev.cores 0).isSome = true ∧
    (cmdOp (.wqry 2 { world := 2, req := 0, excl := 0, ret := [0] })).rotunda = true ∧ syncOp.rotunda = true ∧
    (∀ cmd ∈ softOps, let o := { cmdOp cmd with soft := true, dests := [{ vec := false, idx := 2 }, { vec := true, idx := 8 }] }
      FMap.find (asking o).ops 0 = some o ∧ HasWarp (asking o) 1 0 ∧ (∀ e ∈ (asking o).ops, e.2.coh = 1 → e.2.isWait = false) ∧
        worldTurn (asking o) 0 o cmd = true ∧ o.held = none ∧ o.soft = true ∧ o.fut = some 4) ∧
    poisonMet (base.warp 1 0) [{ vec := true, idx := 254 }] [31] = none ∧
    (base.ctx 0).st = .active ∧ (State.reset.ctx 0).st = .free ∧ (FMap.find base.ctxs 0).isSome = true := by
  unfold HasWarp; decide

/-- A share of a joint command of the unit's one joint warp, 0. -/
def shareOp (cmd : MatCmd) : Op := { kind := .mat cmd, coh := 1, warp := 0, core := 0, ths, pc := 7, busy := false }
/-- The unit with that share issued. -/
def sharing (cmd : MatCmd) : State := (owned 3 [] [(0, shareOp cmd)]).modMx 0 fun m => { m with
  cfg := { m.cfg with shares := [(0, [(0, 0, 7)])] } }

/-- `JointCommands`: a full share with room, of a loop and of drains that enter and that overrun the warp's allocation; a share to
come; no room. -/
theorem witness_joint :
    (∀ cmd ∈ [MatCmd.loop 0 512 1 1 1 [0] true, .drain 1 0 1 true 4 true, .drain 1 0 1 true 254 true],
      let s := sharing cmd
      (FMap.find s.cores 0).isSome = true ∧ (s.mx 0).owner = some 1 ∧ (s.mx 0).cfg.shares = [(0, [(0, 0, 7)])] ∧
        sharesFull (s.mx 0).cfg [(0, 0, 7)] = true ∧ (s.mx 0).room = true ∧ FMap.find s.ops 0 = some (shareOp cmd) ∧
        HasWarp s 1 0 ∧ (s.warp 1 0).liveLanes ≠ [] ∧ (s.warp 1 0).handler = false ∧
        (s.warp 1 0).trapq.length < Config.trapQueue ∧ (FMap.find s.cohorts 1).isSome = true) ∧
    (drainRefused base 1 [0] 1 4 = none ∧ drainRefused base 1 [0] 1 254 = some 10 ∧ drainRefused base 1 [0, 1] 1 4 = some 7) ∧
    sharesFull { joint := [0, 1] } [(0, 0, 7)] = false ∧
    ((owned 3 (List.replicate 16 0) []).mx 0).room = false := by
  unfold HasWarp; decide

/-- A joint drain of two warps, in the queue and started. -/
def jointDrain (row0 w : Nat) (joint : List Nat) : Op :=
  { kind := .mat (.drain 1 row0 1 true 4 true), coh := 1, warp := w, core := 0, ths, dests := destsOf (vecRun 4 4 true) 0, joint }
/-- `JointCommands`, `MatrixSequencer`: it completes. -/
theorem witness_joint_drain :
    let s := ((owned 3 [0] [(0, jointDrain 0 0 [1]), (1, jointDrain 1 1 [])]).modMx 0 fun m => { m with started := true }).modCoh 1
      fun h => { h with warps := [warp0, warp0] }
    (s.mx 0).started = true ∧ (s.mx 0).queue = [0] ∧ FMap.find s.ops 0 = some (jointDrain 0 0 [1]) ∧
      FMap.find s.ops 1 = some (jointDrain 1 1 []) ∧ (s.mx 0).cfg.shares = [] ∧ (∀ e ∈ s.ops, e.2.isWait = false) ∧
      ([0, 1].any (drainWaits s)) = false ∧ HasWarp s 1 0 ∧ HasWarp s 1 1 ∧
      ([0, 1].map fun i => (FMap.find s.ops i).map Op.warp).Nodup := by
  unfold HasWarp; decide

/-- `RegisterWrites`: a context and a function; values at each rule's edge. -/
theorem witness_registers :
    (FMap.find base.ctxs 0).isSome = true ∧ (FMap.find base.fns 0).isSome = true ∧ (base.fn 0).bar2size = 2 ^ 30 ∧
    65535 < 2 ^ 64 ∧ 2 ^ 30 % (base.fn 0).bar2size = 0 ∧ 65536 % 65536 = 0 ∧ ¬ (65536 ≤ 65535) ∧ ¬ (2 ^ 29 % (base.fn 0).bar2size = 0) := by
  decide

set_option maxRecDepth 100000 in
/-- `FunctionPreemption`: a context of function 1 at the end of its save, whose image fits its area. -/
theorem witness_vf_save :
    let s : State := { mapped with
      cores := [(0, {})], cohorts := [], ctxs := [(16, { st := .saving, ptbase := 0x1000, vfHeld := true, vfAt := some 0x400000 })] }
    (FMap.find s.ctxs 16).isSome = true ∧ saveDone s 16 = true ∧ phaseOn s 16 true = none ∧
      (s.ctx 16).vfAt = some 0x400000 ∧ areaFailure .write s 16 0x400000 (4096 * imageUnits s) = none := by
  refine ⟨by decide, by decide, by decide, rfl, ?_⟩
  have h : ∀ n, n ≤ Config.imageBytes / 4096 → areaFailure .write { mapped with
      cores := [(0, {})], cohorts := []
      ctxs := [(16, { st := .saving, ptbase := 0x1000, vfHeld := true, vfAt := some 0x400000 })] } 16 0x400000 (4096 * n) = none :=
    fun n hn => save_ok (fun x hx => walk_low (by decide) (by decide) (by decide) (by decide) hx) (by
      have : Config.imageBytes / 4096 = 10240 := by decide
      omega)
  have hu : ∀ s : State, imageUnits s ≤ Config.imageBytes / 4096 := fun s => by
    have := Nat.mod_lt (Config.freeValue s.free) (show 0 < Config.imageBytes / 4096 by decide)
    unfold imageUnits
    omega
  exact h _ (hu _)

/-! ### Accesses that an acquire holds back (16 R310) -/

/-- `s` with an acquire of the device outstanding in warp 0. -/
def acquiring (s : State) : State := { s with ops := [(0, { loadOp 0x100 with acq := some 2 })] }

set_option maxRecDepth 100000 in
/-- `ScratchLoads`, `ScratchStores`, `ScratchAtomics`: the accesses of a warp that waits, and of one that does not. -/
theorem witness_scratch_held :
    let st := word pt (v 4) (sr 8) u 0 2
    let at_ := word pt (v 5) (v 2) (im 1) 0 0
    AllReady [.lds st, .sts st, .atoms at_] (acquiring loaded) ∧ spWaits (acquiring loaded) 1 0 = true ∧ spWaits loaded 1 0 = false ∧
    spLate grp st (fun x => soOf (acquiring loaded) grp st true x.1 x.2) (acquiring loaded) = [0] ∧
    spLate grp st (fun x => soOf loaded grp st true x.1 x.2) loaded = [] ∧
    spLate grp at_ (fun x => soOf (acquiring loaded) grp at_ false x.1 x.2) (acquiring loaded) = [0] ∧
    (∀ x ∈ grp.on st (acquiring loaded), soOf (acquiring loaded) grp st true x.1 x.2 % 4 = 0 ∧
      0 ≤ soOf (acquiring loaded) grp st true x.1 x.2 ∧
      soOf (acquiring loaded) grp st true x.1 x.2 + 4 ≤ ((acquiring loaded).coh 1).scratchSize) :=
  ⟨allReady (by decide), by decide, by decide, by decide, by decide, by decide, by decide⟩

/-- A scratchpad access of warp 0 that has had to wait. -/
def spOp (act : PartAct) : Op :=
  { kind := .load 4 false false 4, coh := 1, warp := 0, core := 0, ths, long := true, sp := true
    parts := [spPart act (if act = .load then [(1, 8, 4)] else [])] }

/-- `ScratchTurns`: each kind of access, behind an acquire and when that is done. -/
theorem witness_scratch_turns :
    ∀ act ∈ [PartAct.load, .store [(8, 5), (8, 6)], .atomic 0 0 8 [(1, 1, 0)]], let o := spOp act
      (let s := asking o
       FMap.find s.ops 0 = some o ∧ (o.parts[0]?.map fun p => (p.act, partTurn s 0 o 0 p)) = some (act, true) ∧ o.sp = true ∧
         o.long = true ∧ (FMap.find s.cohorts o.coh).isSome = true) ∧
      (let s := { acquiring loaded with ops := (acquiring loaded).ops ++ [(1, o)] }
       FMap.find s.ops 1 = some o ∧ (o.parts[0]?.map fun p => partTurn s 1 o 0 p) = some false) := by decide

/-- `GlobalAccessIssue`, `OtherAccessIssue`: requests that an acquire holds back. -/
theorem witness_requests_held :
    AllReady [.ld (word pt (v 4) (sr 4) (v 2) 0 2), .st (word pt (v 4) (sr 4) (v 2) 0 2), .pref (word pt u (sr 4) (v 2) 0 0)]
      (acquiring boxed) ∧
    (∀ n ∈ [Need.read, .write], passes (globalGate grp n (threadOrder grp (word pt (v 4) (sr 4) (v 2) 0 2) (acquiring boxed))
      (fun t => eaOf (acquiring boxed) grp (word pt (v 4) (sr 4) (v 2) 0 2) true t.1 t.2) 4 (acquiring boxed)) = true) ∧
    acqHolds (acquiring boxed) 1 0 (reachOf 0x100) = true ∧
    softLanes grp (word pt u (sr 4) (v 2) 0 0) (acquiring boxed) 0 ≠ [] :=
  ⟨allReady (by decide), by decide, by decide, by decide⟩

/-- `HomeLoads`, `HomeWrites`: a request behind an acquire, and one that has waited for it, which asks under its warp's view. -/
theorem witness_late_requests :
    (let o := loadOp 0x200
     let s := { acquiring loaded with ops := (acquiring loaded).ops ++ [(1, o)] }
     FMap.find s.ops 1 = some o ∧ o.parts[0]?.isSome = true ∧ o.sp = false ∧
       ∃ e ∈ s.ops, e.1 < 1 ∧ e.2.coh = o.coh ∧ e.2.warp = o.warp ∧ e.2.acq = some 2 ∧ reachOf 0x200 ≤ 2) ∧
    (∀ act ∈ [PartAct.load, .store [(0x8000, 5)]],
      let p : Part := { act, line := 0x100, va := 0x8000, vreq := 3, late := true }
      let o : Op := { kind := .load 4 false false 4, coh := 1, warp := 0, core := 0, long := true, parts := [p] }
      let s := (asking o).modWarp 1 0 fun w => { w with view := 9 }
      FMap.find s.ops 0 = some o ∧ o.parts[0]? = some p ∧ partTurn s 0 o 0 p = true ∧ o.sp = false ∧
        (s.ctx (s.coh o.coh).ctx).decls = [] ∧ serving (s.core 0).l1 0x100 9 = none ∧ isRemote (dieOf 0) 0x100 = false) := by
  refine ⟨⟨by decide, by decide, rfl, _, List.mem_cons_self, by decide, rfl, rfl, rfl, by decide⟩, by decide⟩

/-- `EvictionsAndPolls`, `WaitcReturnsOrWaits`: a WAITC held back, and one held back no more, whose condition holds or not. -/
theorem witness_waitc_held :
    (let f := word pt (sr 1) (sr 4) (im 0) 0 0
     let s := acquiring loaded
     shows (.waitc f) s = true ∧ grp.warpsOn f s = [0] ∧ passes (globalGate grp .read (warpOrder grp f s)
       (fun t => eaOf s grp f false t.1 t.2) (tyBytes (waitcTy f)) s) = true ∧
       acqHolds s 1 0 (reachOf (lineOf (keyOf s grp (eaOf s grp f false 0 0)))) = true ∧
       (∀ e ∈ s.ops, e.2.coh = 1 → e.2.isWait = false) ∧ ∀ e ∈ s.ops, e.1 < s.nextOp) ∧
    (∀ cmp ∈ [0, 1],
      let o : Op := { kind := .waitc 0x8000 0 0 cmp 1 false 0, coh := 1, warp := 0, core := 0, ths, busy := false, held := some 1 }
      let s := { acquiring loaded with ops := (acquiring loaded).ops ++ [(1, o)] }
      (FMap.find s.ops 1 = some o ∧ ∃ e ∈ s.ops, e.1 < 1 ∧ e.2.coh = o.coh ∧ e.2.warp = o.warp ∧ e.2.acq = some 2 ∧ 1 ≤ 2) ∧
      FMap.find (asking o).ops 0 = some o ∧ HasWarp (asking o) o.coh o.warp ∧ (∀ e ∈ (asking o).ops, ¬ e.1 < 0) ∧
        (asking o).unreachable (lineOf 0x8000) = false ∧ (∀ e ∈ (asking o).ops, e.2.coh = o.coh → e.1 = 0 ∨ e.2.isWait = false) ∧
        condHolds 0 (readTy 0 ((asking o).num 0x8000 (tyBytes 0))) (readTy 0 cmp) = (cmp == 0)) := by
  refine ⟨by decide, fun cmp h => ?_⟩
  simp only [List.mem_cons, List.not_mem_nil, or_false] at h
  unfold HasWarp
  obtain rfl | rfl := h <;>
    exact ⟨⟨by decide, _, List.mem_cons_self, by decide, rfl, rfl, rfl, by decide⟩, by decide, by decide, by decide, by decide,
      by decide, by decide⟩

/-- `EngineAcceptance`: operands held back and not; a command held back, by an acquire that is there and by none. -/
theorem witness_commands_held :
    let o := { cmdOp (.copy 1 0x9000 0 256 0) with held := some 1, fut := none }
    (let s := { acquiring loaded with ops := (acquiring loaded).ops ++ [(1, o)] }
     FMap.find s.ops 1 = some o ∧ (∃ r ∈ [1, 3], acqHolds s 1 0 r = true) ∧ (∀ r ∈ [1, 3], acqHolds loaded 1 0 r = false) ∧
       (FMap.find s.cores o.core).isSome = true ∧
       ∃ e ∈ s.ops, e.1 < 1 ∧ e.2.coh = o.coh ∧ e.2.warp = o.warp ∧ e.2.acq = some 2 ∧ 1 ≤ 2) ∧
    FMap.find (asking o).ops 0 = some o ∧ o.held = some 1 ∧ (FMap.find (asking o).cores o.core).isSome = true ∧
      ∀ e ∈ (asking o).ops, ¬ e.1 < 0 := by
  refine ⟨⟨by decide, by decide, by decide, by decide, _, List.mem_cons_self, by decide, rfl, rfl, rfl, by decide⟩, by decide⟩

set_option maxRecDepth 100000 in
/-- `CommandStarts`: nothing holds the commands of `dev` back; a value of a component of each size, of a world that is there. -/
theorem witness_free_commands :
    (∀ r ∈ (listAccs false grp (word pt (sr 1) (sr 2) (sr 8) 0 0) dev 0).flatMap (accReach dev grp), acqHolds dev 1 0 r = false) ∧
    (∀ r ∈ (rayqAccs grp (word pt (sr 1) (sr 11) (v 8) 0x800 0) dev 0).flatMap (accReach dev grp), acqHolds dev 1 0 r = false) ∧
    (∀ log ∈ [2, 3, 4, 8], let s := { syncing 0 none with worlds := [(2, { geo := geo2, comptab := List.replicate 5 0xFF ++ [log] })] }
      worldFailed s 0 2 = false ∧ compLog s 0 2 5 = log) ∧
    (List.replicate 512 (7 : Byte)).length = 512 := by
  refine ⟨by decide, by decide, by decide, List.length_replicate⟩

/-- `FabricFailures`: a request that an acquire holds back; a command and a WAITC held back. -/
theorem witness_fabric_held :
    let o : Op := { kind := .store, coh := 1, warp := 0, core := 0, parts := [farPart] }
    let s := (acquiring loaded).addOp o
    let w := { cmdOp (.copy 0 0 0 16 0) with held := some 1, parts := [farPart] }
    (FMap.find s.ops 3 = some o ∧ acqAhead { acquiring loaded with ops := [(0, { loadOp 0x100 with acq := some 2 }), (3, o)] } 3 1 0
      (reachOf farPart.line) = true ∧ acqAhead base 3 1 0 (reachOf farPart.line) = false) ∧
    w.held ≠ none ∧ w.parts[0]? = some farPart := by decide

/-! ### Waits that end, claims, resumptions, failures of images -/

/-- `ConvergenceEnds`: REGGROW of every live thread: where no guard holds, with an allocation that holds the count, and with one
that does not; a WCONV whose guard holds in the whole group. -/
theorem witness_grow_ends :
    let f := word ⟨false, 2⟩ (sr 3) (im 136) u 0 0
    let s := beside [{ pc := 7, st := .waiting, wait := .grow f false }]
    let no := s.modWarp 1 0 fun w => { w with threads := w.threads.map fun x => { x with preds := 0 } }
    let low := s.modWarp 1 0 fun w => { w with alloc := 128 }
    (∀ x ∈ [s, no, low], AllReady [.reggrow f] x ∧ AloneInCore grp x 0 ∧
      (∀ y ∈ grp.ths, HasThread x 1 y.1 y.2 ∧ y.2 < 32 ∧ (x.thread 1 y.1 y.2).st = .grouped ∧ (x.thread 1 y.1 y.2).pc = grp.pc) ∧
      (∀ l ∈ (x.warp 1 0).liveLanes, (0, l) ∈ grp.ths ∨
        (x.thread 1 0 l).st = .waiting ∧ (x.thread 1 0 l).wait = .grow f false ∧ (x.thread 1 0 l).pc = grp.pc) ∧
      goodCount (x.srcS 1 0 f.sa).toNat = true ∧ x.opsOf 1 0 = [] ∧ poisonMet (x.warp 1 0) (usesOf f.sa 1) [] = none) ∧
    (∀ y ∈ grp.ths, guardHolds f.grd (no.thread 1 y.1 y.2) = false) ∧ (∃ y ∈ grp.ths, guardHolds f.grd (s.thread 1 y.1 y.2) = true) ∧
    (∃ y ∈ grp.ths, guardHolds f.grd (low.thread 1 y.1 y.2) = true) ∧
    (s.srcS 1 0 f.sa).toNat ≤ (s.warp 1 0).alloc ∧ (low.warp 1 0).alloc < (low.srcS 1 0 f.sa).toNat ∧
    (∀ y ∈ grp.ths, y ∈ grp.on (word pt u u u 0 0) (beside [{ pc := 7, st := .waiting }])) := by
  refine ⟨?_, by decide, ⟨(0, 0), by decide⟩, ⟨(0, 0), by decide⟩, by decide, by decide, by decide⟩
  intro x hx
  simp only [List.mem_cons, List.not_mem_nil, or_false] at hx
  obtain rfl | rfl | rfl := hx <;>
    exact ⟨allReady (by decide), beside_alone [{ pc := 7, st := .waiting, wait := .grow (word ⟨false, 2⟩ (sr 3) (im 136) u 0 0) false }],
      by unfold HasThread HasWarp; decide, by decide, by decide, by decide, by decide⟩

/-- `DependentLaunches`: a warp that waits for a predecessor that is done, and a launch that is to complete. -/
theorem witness_wait_for_launch :
    let o : Op := { kind := .waitpred 5, coh := 1, warp := 0, core := 0, busy := false }
    let s := { base with ops := [(0, o)] }
    FMap.find s.ops 0 = some o ∧ (s.ops.map Prod.fst).Nodup ∧ predecessor s (s.coh o.coh).launch = some (0, 9) ∧
      HasWarp s o.coh o.warp ∧ (∀ e ∈ s.ops, e.2.coh = o.coh → e.1 = 0 ∨ e.2.isWait = false) ∧
      FMap.find s.launches 0 = some launch0 ∧ launch0.done = false := by
  unfold HasWarp; decide

/-- The words of MMCFG.QUAD.B8P4.B8P4 sz (20, worked encoding) at PC 7, in a unit that cohort 9, or none, owns. -/
def claiming (owner : Option Nat) : State := { coded with
  mem := tables ++ [(0x10054, 0x40), (0x10055, 0x1E), (0x10056, 0x80), (0x10057, 0xFF), (0x10058, 0x08), (0x10059, 0x80), (0x1005A, 0x2F),
    (0x1005B, 0x0B), (0x1005E, 0x0C)]
  cores := [(0, { core0 with mx := { owner, claims := if owner = none then [1] else [4] } })] }

set_option maxRecDepth 100000 in
/-- `MatrixIssue`, `MatrixSequencer`: an MMCFG that stalls, and a claim in a slot that a free unit goes to, whose checks pass. -/
theorem witness_claims :
    let f := word pt u (sr 63) u 0x2CB 3
    let dropped := fun (s : State) => s.modMx 0 fun m => { m with claims := m.claims.filter fun k => k ≠ 1 }
    AllReady [.mmcfg f] (claiming (some 9)) ∧ grp.warpsOn f (claiming (some 9)) = [0] ∧
    gateAll [0] (cfgGate grp f) (dropped (claiming (some 9))) = .pass (dropped (claiming (some 9))) ∧
    ((claiming (some 9)).mx 0).owner = some 9 ∧ (FMap.find (claiming (some 9)).cores 0).isSome = true ∧
    ((claiming none).mx 0).owner = none ∧ claimsOn (claiming none) 0 = [(1, 0, f)] ∧
    (let u := noteFetch { claiming none with cur := (0, 0) }
     AllReady [.mmcfg f] u ∧ grp.warpsOn f u = [0] ∧ passes (gateAll [0] (cfgGate grp f) (dropped u)) = true ∧
       passes (claimGate grp (dropped u)) = true) ∧ claimsOn (claiming (some 9)) 0 = [] :=
  ⟨allReady (by decide), by decide, rfl, by decide, by decide, by decide, by decide,
    ⟨allReady (by decide), by decide, by decide, by decide⟩, by decide⟩

/-- A saved cohort of a launch that has admitted all the others, its slot at 0x400000; there is a core for it. -/
def awaiting : State := { base with
  mem := tables, cores := [(0, {})]
  cohorts := [(1, { coh1 with status := .saved, saveSlot := some 0, savedAt := 0x400000 })]
  launches := [(0, { launch0 with hasPred := false, next0 := 8 })] }

theorem awaiting_low (need : Need) {a n : Nat} (h : a + n ≤ 2 ^ 30) : areaFailure need awaiting 0 a n = none :=
  save_ok (fun _ hx => walk_low (by decide) (by decide) (by decide) (by decide) hx) h

set_option maxRecDepth 100000 in
/-- `SavesAndResumptions`: the head of the queue chosen next is a saved cohort that a core has room for; its slot can be read; no
other cohort is the head. -/
theorem witness_resumption :
    ((chooseQueue awaiting).map fun q => (q.head, q.fitsOn awaiting 0)) = some (.saved 1, true) ∧
    areaFailure .read awaiting 0 0x400000 Config.saveSlotBytes = none ∧
    ((chooseQueue base).map Queue.head ≠ some (.saved 1)) :=
  ⟨by decide, awaiting_low .read (by decide), by decide⟩

/-- An area whose first page an agent cannot find. -/
theorem area_lost {s : State} {need : Need} {ctx a n : Nat} (ht : translateDev s ctx a need = .fault 2) (ha : a % 4096 = 0) (hn : 0 < n) :
    areaFailure need s ctx a n = some (.fault 2) := by
  have hp : pagesOf a n = a :: (pagesOf a n).tail := by
    unfold pagesOf
    rw [if_neg (by omega), List.tail_cons]
  unfold areaFailure
  rw [hp, List.findSome?_cons, ht]

/-- A context's image has a page at least. -/
theorem units_pos (s : State) : 0 < 4096 * imageUnits s ∧ imageUnits s ≤ Config.imageBytes / 4096 := by
  have := Nat.mod_lt (Config.freeValue s.free) (show 0 < Config.imageBytes / 4096 by decide)
  unfold imageUnits
  omega

/-- A phase of context 1 at an image at `a`. -/
def phasing (save : Bool) (a : Nat) (images : List Image) : State :=
  let s := switching (if save then .saving else .loading) 8
  { s with ops := [(0, { kind := .phase save 1 a 2 false, coh := 1, warp := 0, core := 0 })]
           ctxs := [(0, { st := .active, priv := 1, ptbase := 0x1000 }), (1, { st := if save then .saving else .loading, csaven := 8, images })] }

set_option maxRecDepth 100000 in
/-- `PhaseEnds`, `PhasesSerialised`: images that can be written and read; images where no page is; an image that is there no more. -/
theorem witness_phase_images :
    areaFailure .write (phasing true 0x100000 []) 0 0x100000 (4096 * imageUnits (phasing true 0x100000 [])) = none ∧
    areaFailure .write twoSaves 0 0x100000 (4096 * imageUnits twoSaves) = none ∧
    areaFailure .read (phasing false 0x100000 [savedImage]) 0 0x100000 4096 = none ∧
    areaFailure .write (phasing true (2 ^ 40) []) 0 (2 ^ 40) (4096 * imageUnits (phasing true (2 ^ 40) [])) = some (.fault 2) ∧
    (let s := phasing false (2 ^ 40) [{ savedImage with pages := [2 ^ 40] }]
     areaFailure .read s 0 (2 ^ 40) 4096 = some (.fault 2)) ∧
    imageAt (phasing false 0x100000 []) 0 1 0x100000 = none := by
  have hu := fun s => (units_pos s).2
  have hi : Config.imageBytes / 4096 = 10240 := by decide
  refine ⟨save_ok (fun _ hx => walk_low (by decide) (by decide) (by decide) (by decide) hx) ?_, save_ok (fun _ hx => walk_low (by decide) (by decide) (by decide) (by decide) hx) ?_,
    save_ok (fun _ hx => walk_low (by decide) (by decide) (by decide) (by decide) hx) (by decide), area_lost (by decide) (by decide) (units_pos _).1, area_lost (by decide) (by decide) (by decide),
    by decide⟩ <;>
  · have := hu (phasing true 0x100000 [])
    have := hu twoSaves
    omega

set_option maxRecDepth 100000 in
/-- `SavesAndResumptions`, `FunctionPreemption`: a slot that cannot be written, or read; an image of a function's context that cannot
be read. -/
theorem witness_areas_lost :
    areaFailure .write { saving with mem := [] } 0 0x400000 Config.saveSlotBytes = some (.fault 2) ∧
    areaFailure .read { awaiting with mem := [] } 0 0x400000 Config.saveSlotBytes = some (.fault 2) ∧
    (let s : State := { base with ctxs := [(16, { st := .saved, vfImage := some savedImage, vfAt := some 0x400000 })] }
     (s.ctx 16).vfImage = some savedImage ∧ (s.ctx 16).vfAt = some 0x400000 ∧
       areaFailure .read s 16 0x400000 (4096 * savedImage.pages.length) = some (.fault 2) ∧ vfReadFailure base 16 = none) :=
  ⟨area_lost (by decide) (by decide) (by decide), area_lost (by decide) (by decide) (by decide), rfl, rfl,
    area_lost (by decide) (by decide) (by decide), by decide⟩

end Sys2Proof.Tests
end

/-! ## Proofs of the device family, part 1: what ending a context leaves alone -/

namespace Sys2Proof.Device

open Sys2Proof.Machine Sys2Proof.Safety Sys2Proof.Laws

/-! ### Sparse tables -/

theorem mem_of_find {α : Type} {m : FMap α} {k : Nat} {x : α} (h : FMap.find m k = some x) : (k, x) ∈ m := by
  induction m with
  | nil => exact absurd h (by simp [FMap.find])
  | cons e r ih =>
    obtain ⟨j, y⟩ := e
    rw [FMap.find] at h
    split at h
    · simp_all
    · exact List.mem_cons_of_mem _ (ih h)

theorem find_filter_key {α : Type} (p : Nat → Bool) (m : FMap α) (k : Nat) :
    FMap.find (m.filter fun e => p e.1) k = if p k then FMap.find m k else none := by
  induction m with
  | nil => simp [FMap.find]
  | cons e r ih =>
    obtain ⟨j, y⟩ := e
    by_cases hj : j = k
    · subst hj
      cases hp : p j
      · simpa [hp] using ih
      · simp [hp, FMap.find]
    · cases hp : p j
      · simpa [hp, FMap.find, hj] using ih
      · simpa [hp, FMap.find, hj] using ih

/-- A table that lists a value for each number of a list. -/
theorem find_map_of_mem {α : Type} (f : Nat → α) {l : List Nat} {k : Nat} (h : k ∈ l) :
    FMap.find (l.map fun j => (j, f j)) k = some (f k) := by
  induction l with
  | nil => exact absurd h (by simp)
  | cons j r ih =>
    by_cases hj : j = k
    · subst hj; simp [FMap.find]
    · have hr : k ∈ r := (List.mem_cons.1 h).resolve_left (Ne.symm hj)
      simpa [FMap.find, hj] using ih hr

theorem mem_modify {α : Type} {k : Nat} {f : α → α} {m : FMap α} {e : Nat × α} (h : e ∈ FMap.modify k f m) :
    e ∈ m ∨ ∃ x, (k, x) ∈ m ∧ e = (k, f x) := by
  unfold FMap.modify at h
  split at h
  · rename_i x hx
    rcases FMap.mem_put h with rfl | h
    · exact .inr ⟨x, mem_of_find hx, rfl⟩
    · exact .inl h
  · exact .inl h

theorem isSome_find_modify {α : Type} (k j : Nat) (f : α → α) (m : FMap α) :
    (FMap.find (FMap.modify k f m) j).isSome = (FMap.find m j).isSome := by
  rw [FMap.find_modify]
  split
  · rename_i h; simp [h]
  · rfl

/-! ### The relation -/

/-- Every launch of a context is done. -/
def AllDone (k : Nat) (s : State) : Prop := ∀ i l, FMap.find s.launches i = some l → l.ctx = k → l.done = true

/-- A context as a function reset leaves it, none of whose launches is unfinished. -/
def Blank (k : Nat) (s : State) : Prop := s.ctx k = {} ∧ AllDone k s

/-- What ending cohorts, operations and launches can do: no function changes, no context appears or goes, no cohort appears or
changes its context, a launch that is done stays done, and a blank context stays as it is. -/
structure Unwinds (s t : State) : Prop where
  fns : t.fns = s.fns
  listed : ∀ k, (FMap.find t.ctxs k).isSome = (FMap.find s.ctxs k).isSome
  cohorts : ∀ e ∈ t.cohorts, ∃ e' ∈ s.cohorts, e'.1 = e.1 ∧ e'.2.ctx = e.2.ctx
  launches : ∀ i l, FMap.find t.launches i = some l →
    ∃ l', FMap.find s.launches i = some l' ∧ l'.ctx = l.ctx ∧ (l'.done = true → l.done = true)
  blank : ∀ k, Blank k s → t.ctx k = {}

theorem Unwinds.keepsAllDone {s t : State} (h : Unwinds s t) {k : Nat} (hd : AllDone k s) : AllDone k t := by
  intro i l hl hk
  obtain ⟨l', hl', hc, g⟩ := h.launches i l hl
  exact g (hd i l' hl' (hc.trans hk))

theorem Unwinds.keepsBlank {s t : State} (h : Unwinds s t) {k : Nat} (hb : Blank k s) : Blank k t :=
  ⟨h.blank k hb, h.keepsAllDone hb.2⟩

theorem Unwinds.refl (s : State) : Unwinds s s :=
  ⟨rfl, fun _ => rfl, fun e he => ⟨e, he, rfl, rfl⟩, fun _ l hl => ⟨l, hl, rfl, id⟩, fun _ hb => hb.1⟩

theorem Unwinds.trans {s t u : State} (h : Unwinds s t) (g : Unwinds t u) : Unwinds s u where
  fns := g.fns.trans h.fns
  listed k := (g.listed k).trans (h.listed k)
  cohorts e he := by
    obtain ⟨e', he', h1, h2⟩ := g.cohorts e he
    obtain ⟨e'', he'', h3, h4⟩ := h.cohorts e' he'
    exact ⟨e'', he'', h3.trans h1, h4.trans h2⟩
  launches i l hl := by
    obtain ⟨l', hl', h1, h2⟩ := g.launches i l hl
    obtain ⟨l'', hl'', h3, h4⟩ := h.launches i l' hl'
    exact ⟨l'', hl'', h3.trans h1, h2 ∘ h4⟩
  blank k hb := g.blank k (h.keepsBlank hb)

/-- A change outside contexts, functions, launches and cohorts. -/
theorem Unwinds.of_eq {s t : State} (h1 : t.ctxs = s.ctxs) (h2 : t.fns = s.fns) (h3 : t.launches = s.launches)
    (h4 : t.cohorts = s.cohorts) : Unwinds s t where
  fns := h2
  listed k := by rw [h1]
  cohorts e he := ⟨e, h4 ▸ he, rfl, rfl⟩
  launches _ l hl := ⟨l, h3 ▸ hl, rfl, id⟩
  blank k hb := by rw [← hb.1, State.ctx, State.ctx, h1]

theorem unwinds_forEach {α : Type} (l : List α) (f : α → State → State) (h : ∀ x s, Unwinds s (f x s)) (s : State) :
    Unwinds s (forEach l f s) := by
  induction l generalizing s with
  | nil => exact Unwinds.refl s
  | cons x r ih => exact (h x s).trans (ih (f x s))

/-- What each turn of a loop establishes for its element holds of every element at the end, when `Unwinds` keeps it. -/
theorem forEach_establishes {α : Type} {f : α → State → State} {P : α → State → Prop} (h : ∀ x s, Unwinds s (f x s))
    (est : ∀ x s, P x (f x s)) (keep : ∀ x s t, Unwinds s t → P x s → P x t) (l : List α) (s : State) :
    ∀ x ∈ l, P x (forEach l f s) := by
  induction l generalizing s with
  | nil => exact fun _ hx => absurd hx (by simp)
  | cons y r ih =>
    intro x hx
    rcases List.mem_cons.1 hx with rfl | hx
    · exact keep _ _ _ (unwinds_forEach r f h _) (est x s)
    · exact ih (f y s) x hx

/-! ### Records -/

theorem unwinds_modCore (k : Nat) (f : Core → Core) (s : State) : Unwinds s (s.modCore k f) :=
  Unwinds.of_eq rfl rfl rfl rfl

theorem unwinds_modWorld (k : Nat) (f : World → World) (s : State) : Unwinds s (s.modWorld k f) :=
  Unwinds.of_eq rfl rfl rfl rfl

theorem unwinds_modCoh (k : Nat) (f : Cohort → Cohort) (s : State) (hf : ∀ x, (f x).ctx = x.ctx := by exact fun _ => rfl) :
    Unwinds s (s.modCoh k f) where
  fns := rfl
  listed _ := rfl
  cohorts e he := by
    rcases mem_modify he with he | ⟨x, hx, rfl⟩
    · exact ⟨e, he, rfl, rfl⟩
    · exact ⟨(k, x), hx, rfl, (hf x).symm⟩
  launches _ l hl := ⟨l, hl, rfl, id⟩
  blank _ hb := hb.1

theorem unwinds_modWarp (k w : Nat) (f : Warp → Warp) (s : State) : Unwinds s (s.modWarp k w f) :=
  unwinds_modCoh k _ s

theorem unwinds_modThread (k w l : Nat) (f : Thread → Thread) (s : State) : Unwinds s (s.modThread k w l f) :=
  unwinds_modWarp k w _ s

theorem unwinds_modLaunch (k : Nat) (f : Launch → Launch) (s : State) (hc : ∀ l, (f l).ctx = l.ctx := by exact fun _ => rfl)
    (hd : ∀ l, l.done = true → (f l).done = true := by exact fun _ h => h) : Unwinds s (s.modLaunch k f) where
  fns := rfl
  listed _ := rfl
  cohorts e he := ⟨e, he, rfl, rfl⟩
  launches i l hl := by
    rw [show (s.modLaunch k f).launches = FMap.modify k f s.launches from rfl, FMap.find_modify] at hl
    split at hl
    · rename_i hi
      obtain ⟨l', hl', rfl⟩ := Option.map_eq_some_iff.1 hl
      exact ⟨l', hi ▸ hl', (hc l').symm, hd l'⟩
    · exact ⟨l, hl, rfl, id⟩
  blank _ hb := hb.1

/-- A change of a context, which leaves it as it is where it was blank. -/
theorem Unwinds.modCtx {s t : State} (h : Unwinds s t) {k : Nat} {f : Context → Context} (hf : Blank k s → f {} = {}) :
    Unwinds s (t.modCtx k f) where
  fns := h.fns
  listed j := (isSome_find_modify k j f t.ctxs).trans (h.listed j)
  cohorts := h.cohorts
  launches := h.launches
  blank j hb := by
    rw [State.ctx_modCtx]
    split
    · rename_i hj
      obtain ⟨rfl, -⟩ := hj
      rw [h.blank j hb, hf hb]
    · exact h.blank j hb

theorem unwinds_modCtx (k : Nat) (f : Context → Context) (hf : f {} = {}) (s : State) : Unwinds s (s.modCtx k f) :=
  (Unwinds.refl s).modCtx fun _ => hf

/-! ### Threads, entries and operations -/

theorem unwinds_setSt (k : Nat) (ths : List (Nat × Nat)) (st : ThSt) (s : State) : Unwinds s (setSt k ths st s) :=
  unwinds_forEach ths _ (fun _ s => unwinds_modThread _ _ _ _ s) s

theorem unwinds_setPcs (k : Nat) (ths : List (Nat × Nat)) (pc : W32) (s : State) : Unwinds s (setPcs k ths pc s) :=
  unwinds_forEach ths _ (fun _ s => unwinds_modThread _ _ _ _ s) s

theorem unwinds_progress (core k : Nat) (ths : List (Nat × Nat)) (s : State) : Unwinds s (progress core k ths s) :=
  unwinds_forEach ths _ (fun _ s => unwinds_modThread _ _ _ _ s) s

theorem unwinds_putEntry (core e : Nat) (g : Group) (s : State) : Unwinds s (putEntry core e g s) :=
  (unwinds_setSt _ _ _ s).trans (unwinds_modCore _ _ _)

theorem unwinds_formParked (core e : Nat) (s : State) : Unwinds s (formParked core e s) := by
  unfold formParked
  split
  · exact Unwinds.refl s
  · exact (unwinds_modCore _ _ s).trans (unwinds_putEntry _ _ _ _)

theorem unwinds_freeEntry (core e : Nat) (s : State) : Unwinds s (freeEntry core e s) :=
  (unwinds_modCore _ _ s).trans (unwinds_formParked _ _ _)

theorem unwinds_finishOp (id : Nat) (s : State) : Unwinds s (finishOp id s) := by
  unfold finishOp
  split
  · exact Unwinds.refl s
  · refine Unwinds.trans ?_ (unwinds_forEach _ _ (fun _ s => unwinds_setPcs _ _ _ s) _)
    refine Unwinds.trans ?_ (unwinds_modCoh _ _ _)
    exact Unwinds.of_eq rfl rfl rfl rfl

theorem unwinds_wakeWaits (k : Nat) (s : State) : Unwinds s (wakeWaits k s) := by
  refine unwinds_forEach _ _ (fun e s => ?_) s
  dsimp only
  split
  · split
    · exact (unwinds_modWarp _ _ _ s).trans (unwinds_finishOp _ _)
    · exact Unwinds.refl s
  · split
    · exact Unwinds.refl s
    · exact unwinds_finishOp _ s
  · exact Unwinds.refl s

theorem unwinds_completeOp (id : Nat) (s : State) : Unwinds s (completeOp id s) := by
  unfold completeOp
  split
  · exact Unwinds.refl s
  · exact (unwinds_finishOp id s).trans (unwinds_wakeWaits _ _)

/-! ### Stores of the agents -/

theorem unwinds_waitcReturn (id : Nat) (s : State) : Unwinds s (waitcReturn id s) := by
  unfold waitcReturn
  split
  · dsimp only
    split
    · refine Unwinds.trans ?_ (unwinds_completeOp id _)
      refine Unwinds.trans ?_ (unwinds_progress _ _ _ _)
      exact (unwinds_modWarp _ _ _ s).trans (unwinds_modWarp _ _ _ _)
    · exact Unwinds.refl s
  · exact Unwinds.refl s

theorem unwinds_fireMonitors (line : Nat) (s : State) : Unwinds s (fireMonitors line s) :=
  unwinds_forEach _ _ unwinds_waitcReturn s

theorem unwinds_setHome (line w e ret : Nat) (s : State) : Unwinds s (s.setHome line w e ret) := by
  unfold State.setHome
  split
  · exact Unwinds.of_eq rfl rfl rfl rfl
  · split
    · dsimp only
      split
      · exact Unwinds.of_eq rfl rfl rfl rfl
      · exact Unwinds.of_eq rfl rfl rfl rfl
    · refine Unwinds.trans ?_ (unwinds_forEach _ _ (fun h s => ?_) _)
      · exact Unwinds.of_eq rfl rfl rfl rfl
      · exact Unwinds.of_eq (t := State.raiseFloor h s) rfl rfl rfl rfl

theorem unwinds_setBytes (bs : List (Nat × Byte)) (s : State) : Unwinds s (s.setBytes bs) :=
  unwinds_forEach bs _ (fun e s => Unwinds.of_eq (t := s.setByte e.1 e.2) rfl rfl rfl rfl) s

theorem unwinds_homeStore (line vreq ret : Nat) (bs : List (Nat × Byte)) (s : State) :
    Unwinds s (s.homeStore line vreq ret bs).1 :=
  (unwinds_setHome line _ _ ret s).trans (unwinds_setBytes bs _)

theorem unwinds_devStore (ctx va n v vreq : Nat) (s : State) : Unwinds s (devStore ctx va n v vreq s).1 := by
  unfold devStore
  split
  · exact (unwinds_homeStore _ _ _ _ s).trans (unwinds_fireMonitors _ _)
  · exact Unwinds.refl s

/-! ### Cursors -/

theorem unwinds_lowerCount {ctx : Nat} {g : Geo} {va : Nat} {s t : State} (h : lowerCount ctx g va s = some t) :
    Unwinds s t := by
  unfold lowerCount at h
  split at h
  · rename_i n _
    split at h
    · exact absurd h (by simp)
    · have hs := unwinds_devStore ctx va 4 n 0 s
      generalize devStore ctx va 4 n 0 s = d at h hs
      obtain ⟨u, w⟩ := d
      cases w with
      | none => exact absurd h (by simp)
      | some w => exact Option.some.inj h ▸ hs
  · exact absurd h (by simp)
  · exact absurd h (by simp)

theorem unwinds_releasePin {ctx : Nat} {g : Geo} {p : Nat × Nat} {s t : State} (h : releasePin ctx g p s = some t) :
    Unwinds s t := by
  obtain ⟨base, -, h⟩ := Option.bind_eq_some_iff.1 h
  obtain ⟨v, -, h⟩ := Option.bind_eq_some_iff.1 h
  split at h
  · exact absurd h (by simp)
  · exact unwinds_lowerCount h

/-- What is done where a change is possible. -/
theorem unwinds_getD {o : Option State} {s : State} (h : ∀ t, o = some t → Unwinds s t) : Unwinds s (o.getD s) := by
  cases o with
  | none => exact Unwinds.refl s
  | some t => exact h t rfl

theorem unwinds_closeCursor (wk cur : Nat) (s : State) : Unwinds s (closeCursor wk cur s) := by
  unfold closeCursor
  split
  · exact Unwinds.refl s
  · split
    · exact Unwinds.refl s
    · refine Unwinds.trans ?_ (unwinds_modWorld _ _ _)
      exact (unwinds_forEach _ _ (fun _ s => unwinds_getD fun _ => unwinds_releasePin) s).trans
        (unwinds_getD fun _ => unwinds_lowerCount)

theorem unwinds_closeCursors (k : Nat) (s : State) : Unwinds s (closeCursors k s) :=
  unwinds_forEach _ (fun x : Nat × Nat => closeCursor x.1 x.2) (fun x s => unwinds_closeCursor x.1 x.2 s) s

/-! ### Launches -/

theorem unwinds_wakePreds (s : State) : Unwinds s (wakePreds s) := by
  refine unwinds_forEach _ _ (fun e s => ?_) s
  split
  · split
    · refine Unwinds.trans ?_ (unwinds_completeOp _ _)
      exact (unwinds_modWarp _ _ _ s).trans (unwinds_modWarp _ _ _ _)
    · exact Unwinds.refl s
  · exact Unwinds.refl s

/-- The end of a launch that is not done: up to the launch's own record, only the floor of its context changes. -/
theorem completeLaunch_open {seq status : Nat} {s : State} {l : Launch} (hl : FMap.find s.launches seq = some l)
    (hd : l.done = false) : ∃ t c, Unwinds s t ∧
      completeLaunch seq status s = wakePreds (t.modLaunch seq fun l => { l with done := true, status, c }) := by
  have hnb : ∀ {f : Context → Context}, Blank l.ctx s → f {} = {} := fun hb =>
    absurd (hb.2 seq l hl rfl) (by simp [hd])
  simp only [completeLaunch, hl, hd, Bool.false_eq_true, if_false]
  refine ⟨_, _, Unwinds.modCtx ?_ hnb, rfl⟩
  have hc : Unwinds s (match l.cursor with
      | some (wk, cur) => closeCursor wk cur s
      | none => s) := by
    split
    · exact unwinds_closeCursor _ _ s
    · exact Unwinds.refl s
  split
  · exact hc
  · exact hc.trans (unwinds_devStore _ _ _ _ _ _)

theorem unwinds_completeLaunch (seq status : Nat) (s : State) : Unwinds s (completeLaunch seq status s) := by
  cases hl : FMap.find s.launches seq with
  | none => simp only [completeLaunch, hl]; exact Unwinds.refl s
  | some l =>
    cases hd : l.done with
    | true => simp only [completeLaunch, hl, hd, if_true]; exact Unwinds.refl s
    | false =>
      obtain ⟨t, c, ht, he⟩ := completeLaunch_open (status := status) hl hd
      rw [he]
      refine (ht.trans ?_).trans (unwinds_wakePreds _)
      exact unwinds_modLaunch _ _ t (hd := fun _ _ => rfl)

/-- A launch, if there, is done. -/
def LaunchDone (seq : Nat) (s : State) : Prop := ∀ l, FMap.find s.launches seq = some l → l.done = true

theorem Unwinds.keepsLaunchDone {s t : State} (h : Unwinds s t) {seq : Nat} (hd : LaunchDone seq s) : LaunchDone seq t := by
  intro l hl
  obtain ⟨l', hl', -, g⟩ := h.launches seq l hl
  exact g (hd l' hl')

theorem launchDone_completeLaunch (seq status : Nat) (s : State) : LaunchDone seq (completeLaunch seq status s) := by
  cases hl : FMap.find s.launches seq with
  | none => simp only [completeLaunch, hl]; exact fun l h => absurd (hl.symm.trans h) (by simp)
  | some l =>
    cases hd : l.done with
    | true =>
      simp only [completeLaunch, hl, hd, if_true]
      exact fun l' h => Option.some.inj (hl.symm.trans h) ▸ hd
    | false =>
      obtain ⟨t, c, ht, he⟩ := completeLaunch_open (status := status) hl hd
      rw [he]
      refine (unwinds_wakePreds _).keepsLaunchDone fun l' h => ?_
      rw [show (t.modLaunch seq _).launches = FMap.modify seq _ t.launches from rfl, FMap.find_modify_self] at h
      obtain ⟨_, -, rfl⟩ := Option.map_eq_some_iff.1 h
      rfl

/-! ### Cohorts -/

theorem unwinds_releaseSets (k stamp : Nat) (s : State) : Unwinds s (releaseSets k stamp s) :=
  unwinds_modCtx _ _ rfl s

theorem unwinds_leaveCore (k : Nat) (s : State) : Unwinds s (leaveCore k s) := by
  refine Unwinds.trans ?_ (unwinds_forEach _ _ (fun _ s => unwinds_freeEntry _ _ s) _)
  refine Unwinds.trans ?_ (unwinds_modCore _ _ _)
  exact Unwinds.trans (by exact unwinds_modCoh k _ s) (unwinds_modCore _ _ _)

theorem unwinds_endCohort (k : Nat) (s : State) : Unwinds s (endCohort k s) := by
  have h : Unwinds s (dropOps k (leaveCore k (closeCursors k (releaseSets k (s.coh k).hmax s)))) := by
    refine Unwinds.trans (unwinds_releaseSets k (s.coh k).hmax s) (Unwinds.trans (unwinds_closeCursors k _) ?_)
    exact Unwinds.trans (unwinds_leaveCore k _) (Unwinds.of_eq rfl rfl rfl rfl)
  exact { h with cohorts := fun e he => h.cohorts e (List.mem_filter.1 he).1 }

/-- No cohort has this number. -/
def NoCohort (k : Nat) (s : State) : Prop := ∀ e ∈ s.cohorts, e.1 ≠ k

theorem Unwinds.keepsNoCohort {s t : State} (h : Unwinds s t) {k : Nat} (hn : NoCohort k s) : NoCohort k t := by
  intro e he
  obtain ⟨e', he', hk, -⟩ := h.cohorts e he
  exact hk ▸ hn e' he'

theorem noCohort_endCohort (k : Nat) (s : State) : NoCohort k (endCohort k s) := fun e he => by
  simpa using (List.mem_filter.1 he).2

/-! ### Contexts -/

/-- The end of a context in its stages: phases in flight end, the unfinished launches `ls` complete, the cohorts `cohs` end. -/
theorem endContext_stages (ctx : Nat) (s : State) : ∃ t u ls cohs,
    endContext ctx s = (forEach cohs endCohort u).modCtx ctx (fun x => { x with ovfUsed := [] }) ∧
    Unwinds s t ∧ Unwinds (forEach ls (fun l => completeLaunch l 1) t) u ∧
    (∀ i l, FMap.find t.launches i = some l → l.ctx = ctx → l.done = false → i ∈ ls) ∧
    (∀ e ∈ s.cohorts, e.2.ctx = ctx → e.1 ∈ cohs) := by
  let cohs := (s.cohorts.filter fun e => e.2.ctx = ctx).map Prod.fst
  let marked := forEach cohs (fun k s => let h := s.coh k; s.modLaunch h.launch fun l => { l with hiC := max l.hiC h.hmax }) s
  let ls := (marked.launches.filter fun e => e.2.ctx = ctx && !e.2.done).map Prod.fst
  have hm : Unwinds s marked := unwinds_forEach _ _ (fun k s => unwinds_modLaunch _ _ s) s
  suffices H : ∀ t, Unwinds marked t → ∀ i l, FMap.find t.launches i = some l → l.ctx = ctx → l.done = false → i ∈ ls by
    refine ⟨_, _, ls, cohs, rfl, hm.trans ?phases, Unwinds.of_eq rfl rfl rfl rfl, H _ ?phases,
      fun e he hc => List.mem_map.2 ⟨e, List.mem_filter.2 ⟨he, by simpa using hc⟩, rfl⟩⟩
    refine unwinds_forEach _ _ (fun e s => ?_) _
    split
    · refine Unwinds.trans ?_ (unwinds_completeOp _ _)
      refine Unwinds.trans ?_ (unwinds_modWarp _ _ _ _)
      split
      · exact Unwinds.refl s
      · exact unwinds_modCtx _ _ rfl s
    · exact Unwinds.refl s
  intro t ht i l hl hc hd
  obtain ⟨l', hl', hc', hd'⟩ := ht.launches i l hl
  have hopen : l'.done = false := by
    cases h : l'.done with
    | false => rfl
    | true => exact absurd (hd' h) (by simp [hd])
  exact List.mem_map.2 ⟨(i, l'), List.mem_filter.2 ⟨mem_of_find hl', by simp [hc'.trans hc, hopen]⟩, rfl⟩

theorem unwinds_endContext (ctx : Nat) (s : State) : Unwinds s (endContext ctx s) := by
  obtain ⟨t, u, ls, cohs, he, ht, hu, -, -⟩ := endContext_stages ctx s
  rw [he]
  refine Unwinds.trans ?_ (unwinds_modCtx _ _ rfl _)
  refine Unwinds.trans ?_ (unwinds_forEach cohs _ unwinds_endCohort u)
  exact (ht.trans (unwinds_forEach ls _ (fun l s => unwinds_completeLaunch l 1 s) t)).trans hu

/-- The context has no cohort, and every launch of it is done. -/
def Ended (ctx : Nat) (s : State) : Prop := (∀ e ∈ s.cohorts, e.2.ctx ≠ ctx) ∧ AllDone ctx s

theorem Unwinds.keepsEnded {s t : State} (h : Unwinds s t) {ctx : Nat} (he : Ended ctx s) : Ended ctx t := by
  obtain ⟨hcoh, hdone⟩ := he
  refine ⟨fun e het => ?_, h.keepsAllDone hdone⟩
  obtain ⟨e', he', -, hc⟩ := h.cohorts e het
  exact hc ▸ hcoh e' he'

theorem ended_endContext (ctx : Nat) (s : State) : Ended ctx (endContext ctx s) := by
  obtain ⟨t, u, ls, cohs, he, ht, hu, hls, hcohs⟩ := endContext_stages ctx s
  have hL : Unwinds t (forEach ls (fun l => completeLaunch l 1) t) :=
    unwinds_forEach ls _ (fun l s => unwinds_completeLaunch l 1 s) t
  have hC : Unwinds u (forEach cohs endCohort u) := unwinds_forEach cohs _ unwinds_endCohort u
  have noCohorts : ∀ k ∈ cohs, NoCohort k (forEach cohs endCohort u) :=
    forEach_establishes unwinds_endCohort noCohort_endCohort (fun _ _ _ h => h.keepsNoCohort) cohs u
  have allDone : ∀ i ∈ ls, LaunchDone i (forEach ls (fun l => completeLaunch l 1) t) :=
    forEach_establishes (fun l s => unwinds_completeLaunch l 1 s) (fun l s => launchDone_completeLaunch l 1 s)
      (fun _ _ _ h => h.keepsLaunchDone) ls t
  rw [he]
  constructor
  · intro e (het : e ∈ (forEach cohs endCohort u).cohorts) hc
    obtain ⟨e', he', hk, hc'⟩ := ((ht.trans (hL.trans hu)).trans hC).cohorts e het
    exact noCohorts e'.1 (hcohs e' he' (hc'.trans hc)) e het hk.symm
  · intro i l (hl : FMap.find (forEach cohs endCohort u).launches i = some l) hc
    obtain ⟨l', hl', hc', hd'⟩ := (hL.trans (hu.trans hC)).launches i l hl
    cases hd : l'.done with
    | true => exact hd' hd
    | false => exact (hu.trans hC).keepsLaunchDone (allDone i (hls i l' hl' (hc'.trans hc) hd)) l hl

/-! ### A function reset -/

theorem unwinds_clearContext (ctx : Nat) (s : State) : Unwinds s (clearContext ctx s) := by
  have h : Unwinds s (dropTlb (fun e => e.ctx = ctx) (endContext ctx s)) :=
    (unwinds_endContext ctx s).trans (Unwinds.of_eq rfl rfl rfl rfl)
  exact Unwinds.trans (h.modCtx (k := ctx) (f := fun _ => {}) fun _ => rfl) (Unwinds.of_eq rfl rfl rfl rfl)

/-- A context that is there is blank, and its cohorts and launches have ended. -/
def Cleared (ctx : Nat) (s : State) : Prop :=
  (FMap.find s.ctxs ctx).isSome = true → s.ctx ctx = {} ∧ Ended ctx s

theorem Unwinds.keepsCleared {s t : State} (h : Unwinds s t) {ctx : Nat} (hc : Cleared ctx s) : Cleared ctx t := by
  intro hs
  obtain ⟨hb, he⟩ := hc ((h.listed ctx).symm.trans hs)
  exact ⟨h.blank ctx ⟨hb, he.2⟩, h.keepsEnded he⟩

theorem cleared_clearContext (ctx : Nat) (s : State) : Cleared ctx (clearContext ctx s) := by
  intro hs
  refine ⟨?_, ended_endContext ctx s⟩
  rw [(unwinds_clearContext ctx s).listed, ← (unwinds_endContext ctx s).listed] at hs
  refine (State.ctx_modCtx (dropTlb (fun e => e.ctx = ctx) (endContext ctx s)) ctx ctx fun _ => {}).trans ?_
  exact if_pos ⟨rfl, hs⟩

/-- Every context of a function after the loop that clears them. -/
theorem cleared_all (fn : Nat) (s : State) (c : Nat) (hc : c < 16) :
    Cleared (16 * fn + c) (forEach (upto 16) (fun c => clearContext (16 * fn + c)) s) :=
  forEach_establishes (P := fun c => Cleared (16 * fn + c)) (fun c s => unwinds_clearContext (16 * fn + c) s)
    (fun c s => cleared_clearContext (16 * fn + c) s) (fun _ _ _ h => h.keepsCleared) (upto 16) s c (List.mem_range.2 hc)

/-- A function reset is the loop over its contexts, then the function's own registers, and the call queue's for the physical
function. -/
theorem exec_functionReset {fn : Nat} (h : fn < 64) (withheld : List Nat) (s : State) : ∃ t,
    exec (.functionReset fn withheld) s = .next t ∧
    t.ctxs = (forEach (upto 16) (fun c => clearContext (16 * fn + c)) s).ctxs ∧
    t.cohorts = (forEach (upto 16) (fun c => clearContext (16 * fn + c)) s).cohorts ∧
    t.fns = FMap.modify fn (fun f => { withheld := if fn = 0 then [] else withheld, bar2size := f.bar2size })
      (forEach (upto 16) (fun c => clearContext (16 * fn + c)) s).fns := by
  have hx : exec (.functionReset fn withheld) s = execFunctionReset fn withheld s := rfl
  rw [hx, execFunctionReset, if_neg (by omega)]
  generalize forEach (upto 16) (fun c => clearContext (16 * fn + c)) s = u
  dsimp only
  split <;> exact ⟨_, rfl, rfl, rfl, rfl⟩

theorem functionReset_frees (fn : Nat) (withheld : List Nat) (s : State) (hfn : fn < 64)
    (hctx : ∀ c, c < 16 → (FMap.find s.ctxs (16 * fn + c)).isSome = true) (hf : (FMap.find s.fns fn).isSome = true) :
    ∃ t, exec (.functionReset fn withheld) s = .next t ∧
      (∀ c, c < 16 → t.ctx (16 * fn + c) = {}) ∧ (t.fn fn).withheld = (if fn = 0 then [] else withheld) ∧
      (t.fn fn).intstat = 0 ∧ (t.fn fn).tlbBusy = false ∧ (t.fn fn).bar2size = (s.fn fn).bar2size ∧
      ∀ k h, FMap.find t.cohorts k = some h → h.ctx / 16 ≠ fn := by
  obtain ⟨t, ht, hctxs, hcohs, hfns⟩ := exec_functionReset hfn withheld s
  have hU := unwinds_forEach (upto 16) _ (fun c s => unwinds_clearContext (16 * fn + c) s) s
  have hC := cleared_all fn s
  generalize forEach (upto 16) (fun c => clearContext (16 * fn + c)) s = u at hU hC hctxs hcohs hfns
  have hc : ∀ c, c < 16 → u.ctx (16 * fn + c) = {} ∧ Ended (16 * fn + c) u := fun c h =>
    hC c h ((hU.listed _).trans (hctx c h))
  have hfn' : t.fn fn = { withheld := if fn = 0 then [] else withheld, bar2size := (s.fn fn).bar2size } := by
    obtain ⟨f, hf⟩ := Option.isSome_iff_exists.1 hf
    simp only [State.fn, hfns, FMap.find_modify_self, hU.fns, hf, Option.map_some, Option.getD_some]
  refine ⟨t, ht, fun c h => ?_, by rw [hfn'], by rw [hfn'], by rw [hfn'], by rw [hfn'], fun k h hk hh => ?_⟩
  · rw [State.ctx, hctxs]
    exact (hc c h).1
  · obtain ⟨-, noCohort, -⟩ := hc (h.ctx % 16) (by omega)
    have hmem : (k, h) ∈ u.cohorts := hcohs ▸ mem_of_find hk
    exact noCohort (k, h) hmem (show h.ctx = 16 * fn + h.ctx % 16 by omega)

/-! ### A module reset -/

/-- Memory after a module reset: the module's own unlisted, the rest as it was. -/
theorem byte_moduleReset (s : State) {t : State} (h : t.mem = s.mem.filter fun c => 2 ^ 52 ≤ c.1) :
    (∀ a, a < 2 ^ 52 → t.byte a = Memory.unlisted) ∧ ∀ a, 2 ^ 52 ≤ a → t.byte a = s.byte a := by
  have hb : ∀ a, t.byte a = (if decide (2 ^ 52 ≤ a) then FMap.find s.mem a else none).getD Memory.unlisted := fun a => by
    rw [State.byte, FMap.getD, h, find_filter_key (fun k => 2 ^ 52 ≤ k)]
  refine ⟨fun a ha => ?_, fun a ha => ?_⟩
  · rw [hb, decide_eq_false (Nat.not_le.2 ha)]; rfl
  · rw [hb, decide_eq_true ha]; rfl

/-- Each core after a module reset is as at reset, but for its physical number. -/
theorem core_moduleReset (s : State) {k : Nat} (hk : k < 192) {t : State}
    (h : t.cores = State.reset.cores.map fun e => (e.1, Core.reset (s.core e.1).phys)) :
    (t.core k).cycle = 0 ∧ (t.core k).engSeq = 0 ∧ (t.core k).entries = [] ∧ (t.core k).phys = (s.core k).phys := by
  have hmap : t.cores = (upto Config.cores).map fun j => (j, Core.reset (s.core j).phys) := by
    rw [h]; exact List.map_map
  have hcore : t.core k = Core.reset (s.core k).phys := by
    rw [State.core, hmap, find_map_of_mem _ (l := upto Config.cores) (List.mem_range.2 hk)]
    rfl
  rw [hcore]
  exact ⟨rfl, rfl, rfl, rfl⟩

/-- A line of a home that holds none, and whose slices have no floor, has stamps 0. -/
theorem home_of_empty {t : State} {line : Nat} (hh : isHost line = false) (hl : t.l2 = []) (hf : t.floors = []) :
    t.home line = (0, 0) := by
  rw [State.home, hh, hl, hf]; rfl

theorem moduleReset_clears (s : State) : ∃ t, exec .moduleReset s = .next t ∧ t.cohorts = [] ∧
    t.ctxs = State.reset.ctxs ∧ t.fns = State.reset.fns ∧ t.ops = [] ∧ t.launches = [] ∧ t.worlds = [] ∧
    (∀ line, isPeer line = false → isHost line = false → t.home line = (0, 0)) ∧ t.ageNext = 1 ∧
    (∀ k, k < 192 → (t.core k).cycle = 0 ∧ (t.core k).engSeq = 0 ∧ (t.core k).entries = [] ∧
      (t.core k).phys = (s.core k).phys) ∧
    (∀ a, a < 2 ^ 52 → t.byte a = Memory.unlisted) ∧ ∀ a, 2 ^ 52 ≤ a → t.byte a = s.byte a := by
  have hx : exec .moduleReset s = execModuleReset s := rfl
  rw [hx, execModuleReset]
  refine ⟨_, rfl, rfl, by dsimp only, by dsimp only, rfl, rfl, rfl, fun line _ hh => home_of_empty hh rfl rfl, rfl,
    fun k hk => core_moduleReset s hk rfl, byte_moduleReset s rfl⟩

/-- Settles O60: the module reset by reading off its state, the function reset by what ending a context leaves alone. -/
theorem resets : Obligations.Resets :=
  fun s => ⟨moduleReset_clears s, fun fn withheld => functionReset_frees fn withheld s, fun _ => rfl⟩

end Sys2Proof.Device

/-! ## Proofs of the device family, part 2: bytes stored, and the end of an operation -/

namespace Sys2Proof.Device

open Sys2Proof.Machine Sys2Proof.Safety Sys2Proof.Laws

/-! ### Numbers and bytes -/

@[simp] theorem leBytes_length (n v : Nat) : (leBytes n v).length = n := by
  induction n generalizing v with
  | zero => rfl
  | succ n ih => simp [leBytes, ih]

theorem leNat_leBytes (n v : Nat) : leNat (leBytes n v) = v % 256 ^ n := by
  induction n generalizing v with
  | zero => simp [leBytes, leNat, Nat.mod_one]
  | succ n ih =>
    have hm : v % 256 ^ (n + 1) = v % 256 + 256 * (v / 256 % 256 ^ n) := by rw [Nat.pow_succ', Nat.mod_mul]
    rw [leBytes, leNat, ih, BitVec.toNat_ofNat, hm]

theorem leNat_lt (bs : List Byte) : leNat bs < 256 ^ bs.length := by
  induction bs with
  | nil => simp [leNat]
  | cons b r ih =>
    have hb : b.toNat < 256 := b.isLt
    rw [leNat, List.length_cons, Nat.pow_succ']
    omega

@[simp] theorem bytes_length (s : State) (a n : Nat) : (s.bytes a n).length = n := by simp [State.bytes, upto]

theorem num_lt (s : State) (a n : Nat) : s.num a n < 256 ^ n := by
  simpa [State.num] using leNat_lt (s.bytes a n)

/-! ### What a store of bytes leaves -/

theorem mem_insertNat {k x : Nat} {l : List Nat} : x ∈ insertNat k l ↔ x = k ∨ x ∈ l := by
  induction l with
  | nil => simp [insertNat]
  | cons y r ih =>
    unfold insertNat
    split
    · simp
    · split
      · subst_vars; simp
      · rw [List.mem_cons, List.mem_cons, ih, or_left_comm]

theorem mem_sortedNats {x : Nat} {l : List Nat} : x ∈ sortedNats l ↔ x ∈ l := by
  suffices H : ∀ acc, x ∈ l.foldl (fun a x => insertNat x a) acc ↔ x ∈ acc ∨ x ∈ l by simpa [sortedNats] using H []
  induction l with
  | nil => simp
  | cons y r ih =>
    intro acc
    rw [List.foldl_cons, ih, mem_insertNat, List.mem_cons, or_assoc, or_left_comm]

/-- Every cell of a list agrees with `g`. -/
def Agree (g : Nat → Byte) (bs : List (Nat × Byte)) : Prop := ∀ e ∈ bs, e.2 = g e.1

theorem byte_setBytes {g : Nat → Byte} {bs : List (Nat × Byte)} (h : Agree g bs) (s : State) (a : Nat) :
    (s.setBytes bs).byte a = if a ∈ bs.map Prod.fst then g a else s.byte a := by
  induction bs generalizing s with
  | nil => simp [State.setBytes, forEach]
  | cons e r ih =>
    have hr : (s.setBytes (e :: r)).byte a = ((s.setByte e.1 e.2).setBytes r).byte a := rfl
    rw [hr, ih fun e he => h e (List.mem_cons_of_mem _ he), List.map_cons]
    by_cases ha : a = e.1
    · subst ha
      simp [h e (List.mem_cons_self ..)]
    · simp [State.byte_setByte_ne s e.2 ha, ha]

theorem byte_homeStore {g : Nat → Byte} {bs : List (Nat × Byte)} (h : Agree g bs) (line vreq ret : Nat) (s : State) (a : Nat) :
    (s.homeStore line vreq ret bs).1.byte a = if a ∈ bs.map Prod.fst then g a else s.byte a := by
  rw [← byte_setBytes h, State.byte, State.byte, homeStore_mem]

/-- A host write of the cells of one line. -/
theorem byte_storeLine {g : Nat → Byte} {bs : List (Nat × Byte)} (h : Agree g bs) (line : Nat) (s : State) (a : Nat) :
    (fireMonitors line ((s.dropEverywhere line).homeStore line 0 0 (onLine line bs)).1).byte a =
      if a ∈ bs.map Prod.fst ∧ lineOf a = line then g a else s.byte a := by
  have hline : a ∈ (onLine line bs).map Prod.fst ↔ a ∈ bs.map Prod.fst ∧ lineOf a = line := by
    simp only [onLine, List.mem_map, List.mem_filter, decide_eq_true_eq]
    constructor
    · rintro ⟨e, ⟨he, hl⟩, rfl⟩; exact ⟨⟨e, he, rfl⟩, hl⟩
    · rintro ⟨⟨e, he, rfl⟩, hl⟩; exact ⟨e, ⟨he, hl⟩, rfl⟩
  have hs := byte_homeStore (fun e he => h e (List.mem_filter.1 he).1 : Agree g (onLine line bs)) line 0 0
    (s.dropEverywhere line) a
  simp only [hline] at hs
  rw [State.byte, fireMonitors_mem]
  exact hs

theorem byte_hostStore {g : Nat → Byte} {bs : List (Nat × Byte)} (h : Agree g bs) (s : State) (a : Nat) :
    (hostStore bs s).byte a = if a ∈ bs.map Prod.fst then g a else s.byte a := by
  have loop : ∀ (ls : List Nat) (s : State), (forEach ls (fun line s =>
      fireMonitors line ((s.dropEverywhere line).homeStore line 0 0 (onLine line bs)).1) s).byte a =
        if a ∈ bs.map Prod.fst ∧ lineOf a ∈ ls then g a else s.byte a := by
    intro ls
    induction ls with
    | nil => simp [forEach]
    | cons line r ih =>
      intro s
      refine (ih _).trans ?_
      rw [byte_storeLine h]
      by_cases hm : a ∈ bs.map Prod.fst
      · by_cases hl : lineOf a = line <;> simp [hm, hl]
      · simp [hm]
  have hlines : a ∈ bs.map Prod.fst → lineOf a ∈ sortedNats (bs.map fun e => lineOf e.1) := fun hm => by
    obtain ⟨e, he, rfl⟩ := List.mem_map.1 hm
    exact mem_sortedNats.2 (List.mem_map.2 ⟨e, he, rfl⟩)
  refine (loop _ s).trans ?_
  by_cases hm : a ∈ bs.map Prod.fst
  · rw [if_pos ⟨hm, hlines hm⟩, if_pos hm]
  · rw [if_neg fun h => hm h.1, if_neg hm]

/-- From `s` to `t`, the bytes `data` are stored from an address on, and no other byte changes. -/
structure Stored (s t : State) (key : Nat) (data : List Byte) : Prop where
  inside : t.bytes key data.length = data
  outside : ∀ a, (a < key ∨ key + data.length ≤ a) → t.byte a = s.byte a

theorem mem_cellsOfL {key : Nat} {bs : List Byte} {e : Nat × Byte} :
    e ∈ cellsOfL key bs ↔ ∃ i, bs[i]? = some e.2 ∧ e.1 = key + i := by
  obtain ⟨a, b⟩ := e
  simp only [cellsOfL, List.mem_map, List.mem_zipIdx_iff_getElem?, Prod.exists, Prod.mk.injEq]
  constructor
  · rintro ⟨b', i, hi, rfl, rfl⟩; exact ⟨i, hi, rfl⟩
  · rintro ⟨i, hi, rfl⟩; exact ⟨b, i, hi, rfl, rfl⟩

theorem agree_cellsOfL (key : Nat) (bs : List Byte) : Agree (fun a => bs.getD (a - key) 0) (cellsOfL key bs) := by
  intro e he
  obtain ⟨i, hi, hk⟩ := mem_cellsOfL.1 he
  simp [hk, hi]

theorem mem_keys_cellsOfL {key a : Nat} {bs : List Byte} :
    a ∈ (cellsOfL key bs).map Prod.fst ↔ key ≤ a ∧ a < key + bs.length := by
  constructor
  · intro h
    obtain ⟨e, he, rfl⟩ := List.mem_map.1 h
    obtain ⟨i, hi, hk⟩ := mem_cellsOfL.1 he
    obtain ⟨hlt, -⟩ := List.getElem?_eq_some_iff.1 hi
    omega
  · rintro ⟨h1, h2⟩
    have hlt : a - key < bs.length := by omega
    refine List.mem_map.2 ⟨(a, bs[a - key]), mem_cellsOfL.2 ⟨a - key, List.getElem?_eq_getElem hlt, ?_⟩, rfl⟩
    exact (Nat.add_sub_cancel' h1).symm

/-- A change that writes the cells of a list of bytes. -/
theorem stored_of_cells {s t : State} {key : Nat} {data : List Byte}
    (h : ∀ a, t.byte a = if a ∈ (cellsOfL key data).map Prod.fst then data.getD (a - key) 0 else s.byte a) :
    Stored s t key data where
  inside := by
    refine List.ext_getElem (bytes_length ..) fun i hi hi' => ?_
    have hm : key + i ∈ (cellsOfL key data).map Prod.fst := mem_keys_cellsOfL.2 (by omega)
    simp only [State.bytes, upto, List.getElem_map, List.getElem_range, h, if_pos hm]
    simp [hi']
  outside a ha := by
    rw [h, if_neg]
    exact fun hm => by have := mem_keys_cellsOfL.1 hm; omega

theorem stored_hostStore (key : Nat) (data : List Byte) (s : State) :
    Stored s (hostStore (cellsOfL key data) s) key data := stored_of_cells (byte_hostStore (agree_cellsOfL key data) s)

theorem stored_homeStore (line vreq ret key : Nat) (data : List Byte) (s : State) :
    Stored s (s.homeStore line vreq ret (cellsOfL key data)).1 key data :=
  stored_of_cells (byte_homeStore (agree_cellsOfL key data) line vreq ret s)

theorem Stored.num {s t : State} {key n v : Nat} (h : Stored s t key (leBytes n v)) (hv : v < 256 ^ n) : t.num key n = v := by
  have hb := h.inside
  rw [leBytes_length] at hb
  rw [State.num, hb, leNat_leBytes, Nat.mod_eq_of_lt hv]

/-! ### The end of an operation -/

theorem same_finishOp (id : Nat) (s : State) : Same s (finishOp id s) := by
  unfold finishOp
  split
  · exact Same.refl s
  · refine Same.trans ?_ (same_forEach _ _ (fun _ s => same_setPcs _ _ _ s) _)
    refine Same.trans ?_ (same_modCoh _ _ _ (by exact fun _ => ⟨rfl, rfl, rfl⟩))
    refine Same.trans ?_ (same_modCore _ _ _ (by exact fun _ => rfl))
    exact Same.of_eq rfl rfl rfl rfl rfl rfl rfl

/-- Moving threads touches no operation and no call. -/
theorem setPcs_ops (k : Nat) (ths : List (Nat × Nat)) (pc : W32) (s : State) :
    (setPcs k ths pc s).ops = s.ops ∧ (setPcs k ths pc s).hqOut = s.hqOut := by
  unfold setPcs forEach
  induction ths generalizing s with
  | nil => exact ⟨rfl, rfl⟩
  | cons x r ih => exact ih _

theorem finishOp_ops (id : Nat) (s : State) :
    (finishOp id s).hqOut = s.hqOut ∧ (∀ e ∈ (finishOp id s).ops, e ∈ s.ops) ∧ FMap.find (finishOp id s).ops id = none := by
  have loop : ∀ (gs : List Group) (s : State), (forEach gs (fun g => setPcs g.coh g.ths (g.pc + 1)) s).ops = s.ops ∧
      (forEach gs (fun g => setPcs g.coh g.ths (g.pc + 1)) s).hqOut = s.hqOut := by
    intro gs
    induction gs with
    | nil => exact fun _ => ⟨rfl, rfl⟩
    | cons g r ih =>
      intro s
      obtain ⟨h1, h2⟩ := setPcs_ops g.coh g.ths (g.pc + 1) s
      obtain ⟨h3, h4⟩ := ih (setPcs g.coh g.ths (g.pc + 1) s)
      exact ⟨h3.trans h1, h4.trans h2⟩
  unfold finishOp
  split
  · rename_i h
    exact ⟨rfl, fun _ he => he, h⟩
  · refine ⟨(loop _ _).2, fun e he => ?_, ?_⟩
    · rw [(loop _ _).1] at he
      exact (List.mem_filter.1 he).1
    · rw [(loop _ _).1]
      exact FMap.find_del_self id s.ops

theorem forEach_eq_self {α : Type} {l : List α} {f : α → State → State} {s : State} (h : ∀ x ∈ l, f x s = s) :
    forEach l f s = s := by
  unfold forEach
  induction l with
  | nil => rfl
  | cons x r ih =>
    rw [List.foldl_cons, h x (List.mem_cons_self ..)]
    exact ih fun y hy => h y (List.mem_cons_of_mem _ hy)

/-- Where nothing of a cohort waits, no wait ends. -/
theorem wakeWaits_calm {k : Nat} {s : State} (h : ∀ e ∈ s.ops, e.2.coh = k → e.2.isWait = false) : wakeWaits k s = s := by
  refine forEach_eq_self fun e he => ?_
  obtain ⟨he, hk⟩ := List.mem_filter.1 he
  have hw : e.2.isWait = false := h e he (by simpa using hk)
  dsimp only
  split
  · rename_i hkind; simp [Op.isWait, hkind] at hw
  · rename_i hkind; simp [Op.isWait, hkind] at hw
  · rfl

/-- The end of an operation whose cohort has nothing else that waits. -/
theorem completeOp_calm {id : Nat} {o : Op} {s : State} (ho : FMap.find s.ops id = some o)
    (h : ∀ e ∈ s.ops, e.2.coh = o.coh → e.2.isWait = false) : completeOp id s = finishOp id s := by
  obtain ⟨-, hsub, -⟩ := finishOp_ops id s
  simp only [completeOp, ho]
  exact wakeWaits_calm fun e he => h e (hsub e he)

end Sys2Proof.Device

/-! ## Proofs of the device family, part 3: BAR0 -/

namespace Sys2Proof.Device

open Sys2Proof.Machine Sys2Proof.Safety Sys2Proof.Laws

/-! ### Reads of BAR0 (31 R510 to R512) -/

/-- An aligned 64-bit read by the part of BAR0 that it meets. -/
theorem readBar0_eq (s : State) (fn off : Nat) : readBar0 s fn off =
    if off < 0x1000 then readFn s fn off
    else if 0x10000 ≤ off ∧ off < 0x20000 then readWindow s (16 * fn + (off - 0x10000) / 0x1000) (off % 0x1000)
    else if (0x20000 ≤ off ∧ off < 0x20100) ∧ fn = 0 then readQueue s (off - 0x20000)
    else if 0xF00000 ≤ off then some (fieldN (capList s fn) (off - 0xF00000) 8)
    else some 0 := by
  simp only [readBar0, Bool.and_eq_true, decide_eq_true_eq]

/-- An aligned 64-bit read of an offset that gives a value. -/
theorem readReg_some {s : State} {fn off v : Nat} (hfn : fn < 64) (ha : off % 8 = 0) (ho : off < 2 ^ 24)
    (h : readBar0 s fn off = some v) : execHost (.readReg fn off 8) s = .next { s with hostRead := leBytes 8 v } := by
  have hthere : ¬ (64 ≤ fn || 2 ^ 24 < off + 8) = true := by
    simp only [Bool.or_eq_true, decide_eq_true_eq]; omega
  have hwhole : ¬ (off % 8 ≠ 0 || 8 ≠ 8) = true := by simp [ha]
  rw [execHost, hostReadReg, if_neg hthere, if_neg hwhole, h]

/-- A read that is misaligned or not of 64 bits. -/
theorem readReg_other {s : State} {fn off len : Nat} (hfn : fn < 64) (ho : off + len ≤ 2 ^ 24) (h : off % 8 ≠ 0 ∨ len ≠ 8) :
    execHost (.readReg fn off len) s = .next { s with hostRead := List.replicate len 0 } := by
  have hthere : ¬ (64 ≤ fn || 2 ^ 24 < off + len) = true := by
    simp only [Bool.or_eq_true, decide_eq_true_eq]; omega
  rw [execHost, hostReadReg, if_neg hthere, if_pos (by simpa using h)]

theorem readReg_fn {s : State} {fn off v : Nat} (hfn : fn < 64) (ha : off % 8 = 0) (ho : off < 0x1000)
    (h : readFn s fn off = some v) : execHost (.readReg fn off 8) s = .next { s with hostRead := leBytes 8 v } :=
  readReg_some hfn ha (by omega) (by rw [readBar0_eq, if_pos ho, h])

/-- The capability list is read at its place in BAR0. -/
theorem readReg_list {s : State} {fn off : Nat} (hfn : fn < 64) (ha : off % 8 = 0) (h1 : 0xF00000 ≤ off) (h2 : off < 2 ^ 24) :
    execHost (.readReg fn off 8) s =
      .next { s with hostRead := leBytes 8 (fieldN (capList s fn) (off - 0xF00000) 8) } :=
  readReg_some hfn ha h2
    (by rw [readBar0_eq, if_neg (by omega), if_neg (by omega), if_neg (by omega), if_pos h1])

/-- An offset of a context window, as BAR0 numbers it. -/
theorem window_offset (ctx off : Nat) (h : off < 0x1000) :
    16 * (ctx / 16) + (0x10000 + 0x1000 * (ctx % 16) + off - 0x10000) / 0x1000 = ctx ∧
      (0x10000 + 0x1000 * (ctx % 16) + off) % 0x1000 = off := by omega

/-- A register of a context window is read whole. -/
theorem readReg_window {s : State} {ctx off v : Nat} (hc : ctx < 1024) (ha : off % 8 = 0) (ho : off < 0x1000)
    (h : readWindow s ctx off = some v) :
    execHost (.readReg (ctx / 16) (0x10000 + 0x1000 * (ctx % 16) + off) 8) s = .next { s with hostRead := leBytes 8 v } := by
  obtain ⟨hk, hm⟩ := window_offset ctx off ho
  exact readReg_some (by omega) (by omega) (by omega)
    (by rw [readBar0_eq, if_neg (by omega), if_pos (by omega), hk, hm, h])

/-- The window's registers from FAULTREC on. -/
theorem readWindow_high (s : State) (ctx : Nat) {off : Nat} (h : 0x80 ≤ off) : readWindow s ctx off = some (
    if 0x080 ≤ off ∧ off < 0x0A0 then (s.ctx ctx).faultrec / 256 ^ (off - 0x080)
    else if 0x100 ≤ off ∧ off < 0x500 then
      if off % 16 = 0 then (FMap.getD 0 (s.ctx ctx).hdr ((off - 0x100) / 16)).toNat
      else (FMap.getD 0 (s.ctx ctx).discard ((off - 0x100) / 16)).toNat
    else if 0x800 ≤ off then ((s.worlds.find (256 * ctx + (off - 0x800) / 8)).map fun w => w.geo.desc).getD 0
    else 0) := by
  unfold readWindow
  dsimp only
  split
  case h_14 => simp only [Bool.and_eq_true, decide_eq_true_eq]
  all_goals omega

theorem readWindow_faultrec (s : State) (ctx : Nat) {i : Nat} (h : i < 4) :
    readWindow s ctx (0x080 + 8 * i) = some ((s.ctx ctx).faultrec / 2 ^ (64 * i)) := by
  have hp : (256 : Nat) ^ (0x080 + 8 * i - 0x080) = 2 ^ (64 * i) := by
    rw [Nat.add_sub_cancel_left, show (256 : Nat) = 2 ^ 8 from rfl, ← Nat.pow_mul, ← Nat.mul_assoc]
  rw [readWindow_high s ctx (by omega), if_pos (by omega), hp]

theorem readWindow_hdr (s : State) (ctx : Nat) {m : Nat} (h : m < 64) :
    readWindow s ctx (0x100 + 16 * m) = some (FMap.getD 0 (s.ctx ctx).hdr m).toNat := by
  rw [readWindow_high s ctx (by omega), if_neg (by omega), if_pos (by omega), if_pos (by omega),
    show (0x100 + 16 * m - 0x100) / 16 = m by omega]

theorem readWindow_discard (s : State) (ctx : Nat) {m : Nat} (h : m < 64) :
    readWindow s ctx (0x108 + 16 * m) = some (FMap.getD 0 (s.ctx ctx).discard m).toNat := by
  rw [readWindow_high s ctx (by omega), if_neg (by omega), if_pos (by omega), if_neg (by omega),
    show (0x108 + 16 * m - 0x100) / 16 = m by omega]

/-! ### Writes of registers (31 R510 to R512, R515) -/

/-- A register write by the part of BAR0 that it meets. -/
theorem registerWrite_eq (fn off v : Nat) (s : State) : exec (.registerWrite fn off v) s = .next (
    if off % 8 ≠ 0 ∨ 64 ≤ fn then s
    else if off < 0x1000 then writeFn fn off (v % 2 ^ 64) s
    else if 0x10000 ≤ off ∧ off < 0x20000 then
      writeWindow (16 * fn + (off - 0x10000) / 0x1000) (off % 0x1000) (v % 2 ^ 64) s
    else if (0x20000 ≤ off ∧ off < 0x20100) ∧ fn = 0 then writeQueue (off - 0x20000) (v % 2 ^ 64) s
    else s) := by
  have hx : exec (.registerWrite fn off v) s = execRegisterWrite fn off v s := rfl
  simp only [hx, execRegisterWrite, Bool.or_eq_true, Bool.and_eq_true, decide_eq_true_eq]

section
variable {s : State} {v : Nat} (hv : v < 2 ^ 64)
include hv

/-- A write at an aligned offset of a context window. -/
theorem registerWrite_window {ctx off : Nat} (hc : ctx < 1024) (ho : off < 0x1000) (ha : off % 8 = 0) :
    exec (.registerWrite (ctx / 16) (0x10000 + 0x1000 * (ctx % 16) + off) v) s = .next (writeWindow ctx off v s) := by
  obtain ⟨hk, hm⟩ := window_offset ctx off ho
  rw [registerWrite_eq, if_neg (by omega), if_neg (by omega), if_pos (by omega), hk, hm, Nat.mod_eq_of_lt hv]

theorem registerWrite_fn {fn off : Nat} (hfn : fn < 64) (ho : off < 0x1000) (ha : off % 8 = 0) :
    exec (.registerWrite fn off v) s = .next (writeFn fn off v s) := by
  rw [registerWrite_eq, if_neg (by omega), if_pos ho, Nat.mod_eq_of_lt hv]

theorem registerWrite_queue {off : Nat} (ho : off < 0x100) (ha : off % 8 = 0) :
    exec (.registerWrite 0 (0x20000 + off) v) s = .next (writeQueue off v s) := by
  rw [registerWrite_eq, if_neg (by omega), if_neg (by omega), if_neg (by omega), if_pos (by omega), Nat.mod_eq_of_lt hv,
    Nat.add_sub_cancel_left]

end

theorem registerWrite_unaligned {s : State} {fn off v : Nat} (h : off % 8 ≠ 0) : exec (.registerWrite fn off v) s = .next s := by
  rw [registerWrite_eq, if_pos (.inl h)]

/-- The call queue's registers belong to the physical function. -/
theorem registerWrite_queue_virtual {s : State} {fn off v : Nat} (hfn : 0 < fn) (h1 : 0x20000 ≤ off) :
    exec (.registerWrite fn off v) s = .next s := by
  rw [registerWrite_eq, if_neg (show ¬ off < 0x1000 by omega), if_neg (show ¬ (0x10000 ≤ off ∧ off < 0x20000) by omega),
    if_neg (show ¬ ((0x20000 ≤ off ∧ off < 0x20100) ∧ fn = 0) by omega), ite_self]

/-- A write of a context window from FAULTREC on: HDRm takes it. -/
theorem writeWindow_high (s : State) (ctx v : Nat) {off : Nat} (h : 0x80 ≤ off) : writeWindow ctx off v s =
    if (0x100 ≤ off ∧ off < 0x500) ∧ off % 16 = 0 then
      s.modCtx ctx fun x => { x with hdr := x.hdr.set 0 ((off - 0x100) / 16) (BitVec.ofNat 64 v) }
    else s := by
  unfold writeWindow
  dsimp only
  split
  case h_9 => simp only [Bool.and_eq_true, decide_eq_true_eq]
  all_goals omega

theorem writeWindow_hdr (s : State) (ctx v : Nat) {m : Nat} (h : m < 64) : writeWindow ctx (0x100 + 16 * m) v s =
    s.modCtx ctx fun x => { x with hdr := x.hdr.set 0 m (BitVec.ofNat 64 v) } := by
  rw [writeWindow_high s ctx v (by omega), if_pos (by omega), show (0x100 + 16 * m - 0x100) / 16 = m by omega]

/-- The registers of a context window that are only read. -/
theorem writeWindow_readOnly (s : State) (ctx v : Nat) {off : Nat}
    (h : off ∈ [0x008, 0x040, 0x050] ∨ 0x080 ≤ off ∧ off < 0x0A0 ∨ ∃ m, m < 64 ∧ off = 0x108 + 16 * m) :
    writeWindow ctx off v s = s := by
  rcases h with h | ⟨h1, h2⟩ | ⟨m, -, rfl⟩
  · simp only [List.mem_cons, List.not_mem_nil, or_false] at h
    rcases h with rfl | rfl | rfl <;> rfl
  · rw [writeWindow_high s ctx v h1, if_neg (by omega)]
  · rw [writeWindow_high s ctx v (by omega), if_neg (by omega)]

/-! ### What a change of one context, or one function, leaves alone -/

theorem modCtx_alone (s : State) {k : Nat} (hs : (FMap.find s.ctxs k).isSome = true) (f : Context → Context) :
    (s.modCtx k f).ctx k = f (s.ctx k) ∧ sameCtxs s (s.modCtx k f) (fun j => j = k) ∧
      { s.modCtx k f with ctxs := s.ctxs } = s :=
  ⟨(State.ctx_modCtx s k k f).trans (if_pos ⟨rfl, hs⟩),
    fun j hj => (State.ctx_modCtx s k j f).trans (if_neg fun h => hj h.1), rfl⟩

theorem modFn_alone (s : State) {k : Nat} (hs : (FMap.find s.fns k).isSome = true) (f : Function → Function) :
    (s.modFn k f).fn k = f (s.fn k) ∧ (∀ j, j ≠ k → (s.modFn k f).fn j = s.fn j) ∧ { s.modFn k f with fns := s.fns } = s :=
  ⟨(State.fn_modFn s k k f).trans (if_pos ⟨rfl, hs⟩),
    fun j hj => (State.fn_modFn s k j f).trans (if_neg fun h => hj h.1), rfl⟩

end Sys2Proof.Device

/-! ## Proofs of the device family, part 4: the claims about registers, host accesses and calls -/

namespace Sys2Proof.Device

open Sys2Proof.Machine Sys2Proof.Safety Sys2Proof.Laws

/-! ### Register writes -/

/-- A register of a context window takes a value under a condition, which makes the context `p`, and changes nothing else. -/
def WindowTakes (s : State) (ctx v off : Nat) (ok : Prop) (p : Context → Prop) : Prop :=
  (ok → ∃ t, exec (.registerWrite (ctx / 16) (0x10000 + 0x1000 * (ctx % 16) + off) v) s = .next t ∧ p (t.ctx ctx) ∧
    sameCtxs s t (fun k => k = ctx) ∧ { t with ctxs := s.ctxs } = s) ∧
  (¬ ok → exec (.registerWrite (ctx / 16) (0x10000 + 0x1000 * (ctx % 16) + off) v) s = .next s)

/-- A function register takes a value under a condition, which makes the function `y`, and changes nothing else. -/
def FnTakes (s : State) (fn v off : Nat) (ok : Prop) (y : Function) : Prop :=
  (ok → ∃ t, exec (.registerWrite fn off v) s = .next t ∧ t.fn fn = y ∧ (∀ k, k ≠ fn → t.fn k = s.fn k) ∧
    { t with fns := s.fns } = s) ∧
  (¬ ok → exec (.registerWrite fn off v) s = .next s)

section
variable {s : State} {v : Nat} (hv : v < 2 ^ 64)
include hv

theorem windowTakes {ctx off : Nat} (hc : ctx < 1024) (hs : (FMap.find s.ctxs ctx).isSome = true)
    (ho : off < 0x1000) (ha : off % 8 = 0) {ok : Prop} {b : Bool} (hok : b = true ↔ ok) {f : Context → Context}
    (hw : writeWindow ctx off v s = if b then s.modCtx ctx f else s) {p : Context → Prop} (hp : p (f (s.ctx ctx))) :
    WindowTakes s ctx v off ok p := by
  unfold WindowTakes
  rw [registerWrite_window hv hc ho ha, hw]
  obtain ⟨hx, hother, hrest⟩ := modCtx_alone s hs f
  exact ⟨fun h => ⟨_, congrArg _ (if_pos (hok.2 h)), by rw [hx]; exact hp, hother, hrest⟩,
    fun h => congrArg _ (if_neg (mt hok.1 h))⟩

theorem fnTakes {fn off : Nat} (hfn : fn < 64) (hs : (FMap.find s.fns fn).isSome = true)
    (ho : off < 0x1000) (ha : off % 8 = 0) {ok : Prop} {b : Bool} (hok : b = true ↔ ok) {f : Function → Function}
    (hw : writeFn fn off v s = if b then s.modFn fn f else s) : FnTakes s fn v off ok (f (s.fn fn)) := by
  unfold FnTakes
  rw [registerWrite_fn hv hfn ho ha, hw]
  obtain ⟨hx, hother, hrest⟩ := modFn_alone s hs f
  exact ⟨fun h => ⟨_, congrArg _ (if_pos (hok.2 h)), hx, hother, hrest⟩, fun h => congrArg _ (if_neg (mt hok.1 h))⟩

theorem starve_takes {ctx : Nat} (hc : ctx < 1024) (hs : (FMap.find s.ctxs ctx).isSome = true) :
    WindowTakes s ctx v 0x060 (1 ≤ v ∧ v ≤ 65535) (fun y => y = { s.ctx ctx with starve := v }) :=
  windowTakes hv hc hs (by decide) (by decide) (by simp) rfl rfl

theorem overflow_takes {ctx : Nat} (hc : ctx < 1024) (hs : (FMap.find s.ctxs ctx).isSome = true) :
    WindowTakes s ctx v 0x068 (v % 65536 = 0) (fun y => y = { s.ctx ctx with ovfbase := BitVec.ofNat 64 v }) ∧
    WindowTakes s ctx v 0x070 (v % 65536 = 0) (fun y => y = { s.ctx ctx with ovfsize := BitVec.ofNat 64 v }) :=
  ⟨windowTakes hv hc hs (by decide) (by decide) decide_eq_true_iff rfl rfl,
    windowTakes hv hc hs (by decide) (by decide) decide_eq_true_iff rfl rfl⟩

theorem mailbox_takes {ctx m : Nat} (hc : ctx < 1024) (hs : (FMap.find s.ctxs ctx).isSome = true) (hm : m < 64) :
    WindowTakes s ctx v (0x100 + 16 * m) True fun y =>
      (∀ j, FMap.getD 0 y.hdr j = if j = m then BitVec.ofNat 64 v else FMap.getD 0 (s.ctx ctx).hdr j) ∧
        { y with hdr := (s.ctx ctx).hdr } = s.ctx ctx :=
  windowTakes hv hc hs (by omega) (by omega) (b := true) (by simp) (writeWindow_hdr s ctx v hm)
    ⟨fun j => FMap.getD_set m j 0 _ _, rfl⟩

/-- The registers of a context window that are only read take no write, at whatever offset inside them. -/
theorem window_readOnly {ctx off : Nat} (hc : ctx < 1024)
    (h : off ∈ [0x008, 0x040, 0x050] ∨ 0x080 ≤ off ∧ off < 0x0A0 ∨ ∃ m, m < 64 ∧ off = 0x108 + 16 * m) :
    exec (.registerWrite (ctx / 16) (0x10000 + 0x1000 * (ctx % 16) + off) v) s = .next s := by
  have ho : off < 0x1000 := by
    rcases h with h | h | ⟨m, hm, rfl⟩
    · simp only [List.mem_cons, List.not_mem_nil, or_false] at h; omega
    · omega
    · omega
  by_cases ha : off % 8 = 0
  · rw [registerWrite_window hv hc ho ha, writeWindow_readOnly s ctx v h]
  · exact registerWrite_unaligned (by omega)

theorem bar2base_takes {fn : Nat} (hfn : fn < 64) (hs : (FMap.find s.fns fn).isSome = true) :
    FnTakes s fn v 0x028 (v % (s.fn fn).bar2size = 0) { s.fn fn with bar2base := BitVec.ofNat 64 v } :=
  fnTakes hv hfn hs (by decide) (by decide) (b := decide (v % (s.fn fn).bar2size = 0)) decide_eq_true_iff
    (f := fun f => { f with bar2base := BitVec.ofNat 64 v }) (by simp only [writeFn, decide_eq_true_eq])

/-- VFSAVE is a register of the physical function. -/
theorem vfsave_takes {fn : Nat} (hfn : fn < 64) (hs : (FMap.find s.fns fn).isSome = true) :
    FnTakes s fn v 0x038 (fn = 0 ∧ v % 4096 = 0) { s.fn fn with vfsave := BitVec.ofNat 64 v } := by
  have hok : (decide (fn = 0) && decide (v % 4096 = 0)) = true ↔ fn = 0 ∧ v % 4096 = 0 := by
    rw [Bool.and_eq_true, decide_eq_true_eq, decide_eq_true_eq]
  refine fnTakes hv hfn hs (by decide) (by decide) hok (f := fun f => { f with vfsave := BitVec.ofNat 64 v }) ?_
  by_cases h0 : fn = 0
  · subst h0; rfl
  · have hno : ¬ (decide (fn = 0) && decide (v % 4096 = 0)) = true := fun h => h0 (hok.1 h).1
    exact (if_neg hno).trans (if_neg hno).symm

theorem atsen_takes {fn : Nat} (hfn : fn < 64) (hs : (FMap.find s.fns fn).isSome = true) :
    FnTakes s fn v 0x040 True { s.fn fn with atsen := BitVec.ofNat 64 v &&& 1 } :=
  fnTakes hv hfn hs (by decide) (by decide) (b := true) (by decide)
    (f := fun f => { f with atsen := BitVec.ofNat 64 v &&& 1 }) rfl

theorem fn_readOnly {fn off : Nat} (hfn : fn < 64) (h : off = 0x000 ∨ off = 0x008 ∨ off = 0x020) :
    exec (.registerWrite fn off v) s = .next s := by
  have hw : writeFn fn off v s = s := by rcases h with rfl | rfl | rfl <;> rfl
  rw [registerWrite_fn hv hfn (by omega) (by omega), hw]

theorem queue_writes : ∀ e ∈ [(0x00, { s with hqBase := BitVec.ofNat 64 v }), (0x08, { s with hqLog2 := BitVec.ofNat 64 v }),
      (0x10, s), (0x18, { s with hqHead := BitVec.ofNat 64 v }), (0x28, { s with hqReply := BitVec.ofNat 64 v })],
    exec (.registerWrite 0 (0x20000 + e.1) v) s = .next e.2 := by
  simp only [List.forall_mem_cons, List.not_mem_nil, false_implies, implies_true, and_true]
  have hw : ∀ {off : Nat}, off < 0x100 → off % 8 = 0 → _ := fun ho ha => registerWrite_queue (s := s) hv ho ha
  exact ⟨hw (by decide) (by decide), hw (by decide) (by decide), hw (by decide) (by decide), hw (by decide) (by decide),
    hw (by decide) (by decide)⟩

end

theorem registerWrites : Claims.RegisterWrites := fun _ _ hv =>
  ⟨fun _ hc hs => ⟨starve_takes hv hc hs, (overflow_takes hv hc hs).1, (overflow_takes hv hc hs).2,
      fun _ hm => mailbox_takes hv hc hs hm, fun _ h => window_readOnly hv hc h⟩,
    fun _ hfn hs => ⟨bar2base_takes hv hfn hs, vfsave_takes hv hfn hs, atsen_takes hv hfn hs,
      fun _ h => fn_readOnly hv hfn h⟩,
    queue_writes hv, fun _ _ hfn h1 _ => registerWrite_queue_virtual hfn h1, fun _ _ h => registerWrite_unaligned h⟩

/-! ### Host accesses -/

/-- A D register of a context takes a value that keeps its rule while the context is FREE or SAVED. -/
theorem dRegister_takes {s : State} {ctx off v : Nat} (hc : ctx < 1024) (hs : (FMap.find s.ctxs ctx).isSome = true)
    (hv : v < 2 ^ 64) (ho : off < 0x1000) (ha : off % 8 = 0) {rule : Prop} {b : Bool} {f : Context → Context}
    {r : Context → W64} (hok : b = true ↔ ((s.ctx ctx).st = .free ∨ (s.ctx ctx).st = .saved) ∧ rule)
    (hw : writeWindow ctx off v s = if b then s.modCtx ctx f else s) (hr : r (f (s.ctx ctx)) = BitVec.ofNat 64 v) :
    ((s.ctx ctx).st = .free ∨ (s.ctx ctx).st = .saved → rule → ∃ t,
      exec (.registerWrite (ctx / 16) (0x10000 + 0x1000 * (ctx % 16) + off) v) s = .next t ∧
      r (t.ctx ctx) = BitVec.ofNat 64 v ∧ sameCtxs s t (fun k => k = ctx) ∧ t.cohorts = s.cohorts ∧ t.mem = s.mem) ∧
    (¬ ((s.ctx ctx).st = .free ∨ (s.ctx ctx).st = .saved) ∨ ¬ rule →
      exec (.registerWrite (ctx / 16) (0x10000 + 0x1000 * (ctx % 16) + off) v) s = .next s) := by
  obtain ⟨htakes, hignores⟩ := windowTakes hv hc hs ho ha hok hw (p := fun x => r x = BitVec.ofNat 64 v) hr
  refine ⟨fun hi hb => ?_, fun h => hignores fun ⟨hi, hb⟩ => h.elim (· hi) (· hb)⟩
  obtain ⟨t, ht, hp, hctx, hrest⟩ := htakes ⟨hi, hb⟩
  exact ⟨t, ht, hp, hctx, (congrArg State.cohorts hrest :), (congrArg State.mem hrest :)⟩

/-- R512: the D registers. -/
theorem dRegisters {s : State} {ctx v : Nat} (hc : ctx < 1024) (hs : (FMap.find s.ctxs ctx).isSome = true)
    (hv : v < 2 ^ 64) (off : Nat) :
    let x := s.ctx ctx
    let idle := x.st = .free ∨ x.st = .saved
    let ok := fun (b : Prop) (r : Context → W64) => (idle → b → ∃ t,
        exec (.registerWrite (ctx / 16) (0x10000 + 0x1000 * (ctx % 16) + off) v) s = .next t ∧
        r (t.ctx ctx) = BitVec.ofNat 64 v ∧ sameCtxs s t (fun k => k = ctx) ∧ t.cohorts = s.cohorts ∧ t.mem = s.mem) ∧
      (¬ idle ∨ ¬ b → exec (.registerWrite (ctx / 16) (0x10000 + 0x1000 * (ctx % 16) + off) v) s = .next s)
    (off = 0x010 → ok (v ≤ 1) Context.ecfg) ∧ (off = 0x018 → ok True Context.priv) ∧
    (off = 0x020 → ok (v % 4096 = 0) Context.csave) ∧ (off = 0x028 → ok (v ≤ 65535) Context.csaven) ∧
    (off = 0x030 → ok (v % 4096 = 0) Context.ptbase) := by
  refine ⟨?_, ?_, ?_, ?_, ?_⟩ <;> rintro rfl <;> exact dRegister_takes hc hs hv (by decide) (by decide) (by simp) rfl rfl

/-- An access inside the window, and inside the memory behind it. -/
theorem bar2_inside {s : State} {fn off n : Nat} (h1 : off + n ≤ (s.fn fn).bar2size)
    (h2 : (s.fn fn).bar2base.toNat + off + n ≤ 2 ^ 39) :
    inBar2 s fn off n = true ∧ ¬ Config.hbmBytes < bar2Addr s fn off + n :=
  ⟨decide_eq_true h1, Nat.not_lt.2 h2⟩

theorem hostWrite_stores {s : State} {fn off : Nat} {data : List Byte} (h1 : off + data.length ≤ (s.fn fn).bar2size)
    (h2 : (s.fn fn).bar2base.toNat + off + data.length ≤ 2 ^ 39) : ∃ t, exec (.hostWrite fn off data) s = .next t ∧
      Stored s t ((s.fn fn).bar2base.toNat + off) data := by
  obtain ⟨hin, hmem⟩ := bar2_inside h1 h2
  have hx : exec (.hostWrite fn off data) s = execHostWrite fn off data s := rfl
  refine ⟨hostStore (cellsOfL (bar2Addr s fn off) data) s, ?_, stored_hostStore _ data s⟩
  rw [hx, execHostWrite, hin, if_neg (by simp), if_neg hmem]

theorem hostWrite_beyond {s : State} {fn off : Nat} {data : List Byte} (h : (s.fn fn).bar2size < off + data.length) :
    exec (.hostWrite fn off data) s = .next s := by
  have hx : exec (.hostWrite fn off data) s = execHostWrite fn off data s := rfl
  have hout : inBar2 s fn off data.length = false := decide_eq_false (by omega)
  rw [hx, execHostWrite, hout, if_pos (by simp)]

theorem hostRead_bytes {s : State} {fn off len : Nat} (h1 : off + len ≤ (s.fn fn).bar2size)
    (h2 : (s.fn fn).bar2base.toNat + off + len ≤ 2 ^ 39) :
    exec (.hostRead fn off len) s = .next { s with hostRead := s.bytes ((s.fn fn).bar2base.toNat + off) len } := by
  obtain ⟨hin, hmem⟩ := bar2_inside h1 h2
  have hx : exec (.hostRead fn off len) s = execHostRead fn off len s := rfl
  rw [hx, execHostRead, hin, if_neg (by simp), if_neg hmem]
  rfl

/-- What a host AtomicOp stores (31 R509). -/
def hostNew (k : HostAtomic) (n old x cmp : Nat) : Nat :=
  match k with
  | .fetchAdd => (old + x) % 2 ^ (8 * n)
  | .swap => x % 2 ^ (8 * n)
  | .cas => if old = cmp % 2 ^ (8 * n) then x % 2 ^ (8 * n) else old

theorem hostNew_lt {k : HostAtomic} {n old x cmp : Nat} (h : old < 2 ^ (8 * n)) : hostNew k n old x cmp < 2 ^ (8 * n) := by
  have hm := fun y => Nat.mod_lt y (Nat.two_pow_pos (8 * n))
  cases k with
  | fetchAdd => exact hm _
  | swap => exact hm _
  | cas =>
    unfold hostNew
    dsimp only
    split
    · exact hm _
    · exact h

/-- The model's atomic operations of the unsigned types are the host's. -/
theorem atomNew_host (k : HostAtomic) (wide : Bool) (old x cmp : Nat) :
    let n := if wide then 8 else 4
    atomNew k.op (if wide then 2 else 0) old (x % 2 ^ (8 * n)) (cmp % 2 ^ (8 * n)) = hostNew k n old x cmp := by
  have wrap : ∀ m n : Nat, wrapN m n = n % 2 ^ m := fun m n => by
    have hc : ((n : Int) % 2 ^ m) = ((n % 2 ^ m : Nat) : Int) := by push_cast; rfl
    rw [wrapN, hc, Int.toNat_natCast]
  cases k with
  | fetchAdd => cases wide <;> exact (wrap _ (_ + _)).trans (by simp [Nat.add_mod, tyBytes, hostNew])
  | swap => rfl
  | cas => rfl

theorem hostAtomic_stores {s : State} {fn off : Nat} {wide : Bool} {k : HostAtomic} {x cmp : Nat} :
    let n := if wide then 8 else 4
    let a := (s.fn fn).bar2base.toNat + off
    off % n = 0 → off + n ≤ (s.fn fn).bar2size → a + n ≤ 2 ^ 39 →
      ∃ t, execHost (.atomic fn off wide k x cmp) s = .next t ∧ t.hostRead = leBytes n (s.num a n) ∧
        t.num a n = hostNew k n (s.num a n) x cmp ∧ ∀ b, (b < a ∨ a + n ≤ b) → t.byte b = s.byte b := by
  intro n a ha h1 h2
  obtain ⟨hin, hmem⟩ := bar2_inside h1 h2
  have hout : ¬ (!inBar2 s fn off n || off % n ≠ 0) = true := by simp [hin, ha]
  have hbase : 2 ^ (8 * n) = 256 ^ n := Nat.pow_mul 2 8 n
  have hnew : hostNew k n (s.num a n) x cmp < 256 ^ n := hbase ▸ hostNew_lt (hbase ▸ num_lt s a n)
  have hst := stored_hostStore a (leBytes n (hostNew k n (s.num a n) x cmp)) s
  refine ⟨{ hostStore (cellsOfL a (leBytes n (hostNew k n (s.num a n) x cmp))) s with hostRead := leBytes n (s.num a n) },
    ?_, rfl, hst.num hnew, fun b hb => hst.outside b (by rwa [leBytes_length])⟩
  have he := atomNew_host k wide (s.num a n) x cmp
  rw [execHost, hostAtomicOp, if_neg hout, if_neg hmem]
  rw [← he]
  rfl

theorem resizeBar2_sets {s : State} {fn n : Nat} (hfn : fn < 64) (hs : (FMap.find s.fns fn).isSome = true) (h1 : 30 ≤ n)
    (h2 : n ≤ 36) : ∃ t, execHost (.resizeBar2 fn n) s = .next t ∧ (t.fn fn).bar2size = 2 ^ n ∧
      (∀ k, k ≠ fn → t.fn k = s.fn k) ∧ { t with fns := s.fns } = s := by
  have hno : ¬ (64 ≤ fn || n < 30 || 36 < n) = true := by
    simp only [Bool.or_eq_true, decide_eq_true_eq]; omega
  obtain ⟨hx, hother, hrest⟩ := modFn_alone s hs fun f => { f with bar2size := 2 ^ n }
  exact ⟨_, congrArg Host.Outcome.next (if_neg hno), (congrArg Function.bar2size hx :), hother, hrest⟩

theorem bindPasid_sets {s : State} {ctx pasid : Nat} (hc : ctx < 1024) (hs : (FMap.find s.ctxs ctx).isSome = true)
    (hp : pasid < 2 ^ 20) : ∃ t, execHost (.bindPasid ctx pasid) s = .next t ∧ (t.ctx ctx).pasid = pasid ∧
      sameCtxs s t (fun k => k = ctx) ∧ { t with ctxs := s.ctxs } = s := by
  have hno : ¬ (1024 ≤ ctx || 2 ^ 20 ≤ pasid) = true := by
    simp only [Bool.or_eq_true, decide_eq_true_eq]; omega
  obtain ⟨hx, hother, hrest⟩ := modCtx_alone s hs fun x => { x with pasid }
  exact ⟨_, congrArg Host.Outcome.next (if_neg hno), (congrArg Context.pasid hx :), hother, hrest⟩

/-- Reads of BAR0: function registers. -/
theorem fn_reads {s : State} {fn : Nat} (hfn : fn < 64) :
    let reads := fun (fn off len : Nat) (bs : List Byte) =>
      execHost (.readReg fn off len) s = .next { s with hostRead := bs }
    reads fn 0 8 (leBytes 8 fn) ∧ reads fn 8 8 (leBytes 8 s.modnum.toNat) ∧
      reads fn 0x10 8 (leBytes 8 (s.fn fn).intstat.toNat) ∧
      reads fn 0x20 8 (leBytes 8 (if (s.fn fn).tlbBusy then 1 else 0)) ∧
      reads fn 0x28 8 (leBytes 8 (s.fn fn).bar2base.toNat) ∧
      (fn ≠ 0 → reads fn 0x30 8 (leBytes 8 0) ∧ reads fn 0x38 8 (leBytes 8 0)) := by
  refine ⟨?_, ?_, ?_, ?_, ?_, fun h0 => ⟨?_, ?_⟩⟩ <;> refine readReg_fn hfn (by decide) (by decide) ?_
  · rfl
  · rfl
  · rfl
  · cases h : (s.fn fn).tlbBusy <;> simp [readFn, h]
  · rfl
  · exact congrArg some (if_neg h0)
  · exact congrArg some (if_neg h0)

theorem window_reads {s : State} {ctx : Nat} (hc : ctx < 1024) :
    let at_ := fun (off v : Nat) => execHost (.readReg (ctx / 16) (0x10000 + 0x1000 * (ctx % 16) + off) 8) s =
      .next { s with hostRead := leBytes 8 v }
    let x := s.ctx ctx
    at_ 0x008 x.st.code ∧ at_ 0x010 x.ecfg.toNat ∧ at_ 0x018 x.priv.toNat ∧ at_ 0x020 x.csave.toNat ∧
    at_ 0x028 x.csaven.toNat ∧ at_ 0x030 x.ptbase.toNat ∧ at_ 0x040 x.allow ∧ at_ 0x050 x.edebt ∧ at_ 0x060 x.starve ∧
    (∀ i, i < 4 → at_ (0x080 + 8 * i) (x.faultrec / 2 ^ (64 * i))) ∧
    ∀ m, m < 64 → at_ (0x100 + 16 * m) (FMap.getD 0 x.hdr m).toNat ∧
      at_ (0x108 + 16 * m) (FMap.getD 0 x.discard m).toNat := by
  have at_ : ∀ {off v : Nat}, off % 8 = 0 → off < 0x1000 → readWindow s ctx off = some v → _ :=
    fun ha ho h => readReg_window hc ha ho h
  refine ⟨?_, ?_, ?_, ?_, ?_, ?_, ?_, ?_, ?_, fun i hi => at_ (by omega) (by omega) (readWindow_faultrec s ctx hi),
    fun m hm => ⟨at_ (by omega) (by omega) (readWindow_hdr s ctx hm),
      at_ (by omega) (by omega) (readWindow_discard s ctx hm)⟩⟩
  all_goals exact at_ (by decide) (by decide) rfl

theorem hostAccess : Claims.HostAccess := fun s =>
  ⟨fun _ off _ hc hs hv => dRegisters hc hs hv off,
    fun _ _ _ h1 h2 => let ⟨t, ht, hst⟩ := hostWrite_stores h1 h2; ⟨t, ht, hst.inside, hst.outside⟩,
    fun _ _ _ h => hostWrite_beyond h, fun _ _ _ h1 h2 => hostRead_bytes h1 h2,
    ⟨fun _ _ _ hfn ho h => readReg_other hfn ho h, fun _ hfn => fn_reads hfn, fun _ hc => window_reads hc,
      fun _ _ hfn ha h1 h2 => readReg_list hfn ha h1 h2⟩,
    fun _ _ wide k _ _ ha h1 h2 => by
      obtain ⟨t, ht, hread, hnew, hother⟩ := hostAtomic_stores ha h1 h2
      exact ⟨t, ht, hread, by cases k <;> exact hnew, hother⟩,
    fun _ _ hfn hs h1 h2 => resizeBar2_sets hfn hs h1 h2, fun _ _ hc hs hp => bindPasid_sets hc hs hp⟩

/-! ### The hypervisor call queue -/

/-- A store of bytes changes memory alone. -/
theorem setBytes_only (bs : List (Nat × Byte)) (s : State) : s.setBytes bs = { s with mem := (s.setBytes bs).mem } := by
  unfold State.setBytes forEach
  induction bs generalizing s with
  | nil => rfl
  | cons e r ih => exact ih (s.setByte e.1 e.2)

/-- A store at the host interface changes no operation, no function and nothing of the call queue. -/
theorem homeStore_host {line : Nat} (h : isHost line = true) (vreq ret : Nat) (bs : List (Nat × Byte)) (s : State) :
    (s.homeStore line vreq ret bs).1.hqTail = s.hqTail ∧ (s.homeStore line vreq ret bs).1.ops = s.ops ∧
      (s.homeStore line vreq ret bs).1.fns = s.fns := by
  have hstamp : s.stampWrite line vreq ret = { s with hostW := s.writeStamp line vreq } := by
    rw [State.stampWrite, State.setHome, if_pos h]
  rw [State.homeStore, hstamp, setBytes_only]
  exact ⟨rfl, rfl, rfl⟩

theorem isHost_hostKey (pasid a : Nat) : isHost (lineOf (hostKey pasid a)) = true := by
  refine decide_eq_true ((Nat.le_div_iff_mul_le (by decide)).2 ?_)
  unfold hostKey Config.lineBytes
  omega

theorem callRecord_length (ctx num : Nat) (arg : W64) (tag : Nat) : (callRecord ctx num arg tag).length = 32 := by
  simp [callRecord]

/-- R515: a posted call is in the ring, TAIL has advanced, the call is outstanding and the interrupt bit is set. -/
theorem postCall_posts {op ctx : Nat} {o : Op} {fn num dst : Nat} {arg : W64} {s : State} (ho : FMap.find s.ops op = some o)
    (hs : (FMap.find s.fns 0).isSome = true) :
    let key := hostKey 0 (s.hqBase.toNat + 32 * (s.hqTail.toNat % 2 ^ s.hqLog2.toNat))
    let t := postCall op ctx o fn num dst arg s
    t.hqTail = s.hqTail + 1 ∧ Stored s t key (callRecord ctx num arg op) ∧
      FMap.find t.ops op = some { o with kind := .hcall fn num dst arg true, busy := true } ∧
      (t.fn 0).intstat = (s.fn 0).intstat ||| 0x10000 := by
  intro key
  have hst := stored_homeStore (lineOf key) 0 0 key (callRecord ctx num arg op) s
  have hu := homeStore_host (isHost_hostKey 0 _ : isHost (lineOf key) = true) 0 0 (cellsOfL key (callRecord ctx num arg op)) s
  unfold postCall
  dsimp only
  generalize s.homeStore (lineOf key) 0 0 (cellsOfL key (callRecord ctx num arg op)) = p at hst hu ⊢
  obtain ⟨u, _⟩ := p
  obtain ⟨htail, hops, hfns⟩ : u.hqTail = s.hqTail ∧ u.ops = s.ops ∧ u.fns = s.fns := hu
  refine ⟨congrArg (· + 1) htail, ⟨hst.inside, hst.outside⟩, ?_, ?_⟩
  · refine (FMap.find_modify_self op _ u.ops).trans ?_
    rw [hops, ho]; rfl
  · rw [State.fn_modFn, if_pos ⟨rfl, hfns ▸ hs⟩]
    show (u.fn 0).intstat ||| BitVec.twoPow 64 16 = _
    rw [State.fn, State.fn, hfns]; rfl

theorem hcallPost_posts {s : State} {op : Nat} {o : Op} {fn num dst : Nat} {arg : W64} (ho : FMap.find s.ops op = some o)
    (hk : o.kind = .hcall fn num dst arg false) (hroom : ringRoom s = true) (hres : (s.coh o.coh).status = .resident) :
    exec (.hcallPost op) s = .next (postCall op (s.coh o.coh).ctx o fn num dst arg s) := by
  have hx : exec (.hcallPost op) s = execHcallPost op s := rfl
  rw [hx, execHcallPost, ho]
  simp only [hk, hroom, hres, decide_true, Bool.and_self, if_true]

theorem hcallReply_ignored {s : State} {tag v : Nat} (h : ∀ e ∈ s.hqOut, e.1 ≠ tag) :
    exec (.hcallReply tag v) s = .next { s with hqReply := BitVec.ofNat 64 v } := by
  have hnone : s.hqOut.find? (fun e => e.1 = tag) = none := List.find?_eq_none.2 fun e he => by simpa using h e he
  have hx : exec (.hcallReply tag v) s = execHcallReply tag v s := rfl
  rw [hx, execHcallReply]
  simp only [hnone]

/-- The state in which a reply finds the call that it answers: VALUE written, and the call no longer outstanding. -/
def answered (tag v : Nat) (s : State) : State :=
  { s with hqReply := BitVec.ofNat 64 v, hqOut := s.hqOut.filter fun x => x.1 ≠ tag }

theorem hcallReply_answers {s : State} {tag v op : Nat} {o : Op} {fn num dst : Nat} {arg : W64}
    (htag : s.hqOut.find? (fun e => e.1 = tag) = some (tag, op)) (ho : FMap.find s.ops op = some o)
    (hk : o.kind = .hcall fn num dst arg true) : exec (.hcallReply tag v) s =
      .next (completeOp op ((answered tag v s).writeS o.coh o.warp dst (BitVec.ofNat 64 v))) := by
  have hx : exec (.hcallReply tag v) s = execHcallReply tag v s := rfl
  rw [hx, execHcallReply]
  simp only [htag, ho, hk]
  rfl

theorem hcallReply_delivers {s : State} {tag v op : Nat} {o : Op} {fn num dst : Nat} {arg : W64}
    (htag : s.hqOut.find? (fun e => e.1 = tag) = some (tag, op)) (ho : FMap.find s.ops op = some o)
    (hk : o.kind = .hcall fn num dst arg true) (hd : dst < 63) (hw : HasWarp s o.coh o.warp)
    (hcalm : ∀ e ∈ s.ops, e.2.coh = o.coh → e.2.isWait = false) :
    ∃ t, exec (.hcallReply tag v) s = .next t ∧ (t.warp o.coh o.warp).readS dst = BitVec.ofNat 64 v ∧
      FMap.find t.ops op = none ∧ (∀ e ∈ t.hqOut, e.1 ≠ tag) ∧
      RegFrame s t none4 (fun k w r => k = o.coh ∧ w = o.warp ∧ r = dst) none4 none2 := by
  let u := (answered tag v s).writeS o.coh o.warp dst (BitVec.ofNat 64 v)
  have hsame : Same s (answered tag v s) := Same.of_eq rfl rfl rfl rfl rfl rfl rfl
  have hdone : completeOp op u = finishOp op u := completeOp_calm (o := o) ho hcalm
  obtain ⟨hout, -, hgone⟩ := finishOp_ops op u
  refine ⟨finishOp op u, (hcallReply_answers htag ho hk).trans (congrArg _ hdone), ?_, hgone, fun e he => ?_, ?_⟩
  · exact ((same_finishOp op u).readS _ _ _).trans ((readS_writeS _ _ _ _ _ hw).trans (if_neg (by omega)))
  · rw [hout] at he
    simpa using (List.mem_filter.1 he).2
  · exact RegFrame.same (hsame.thenFrame (writeS_same_but o.coh o.warp dst _ _)) (same_finishOp op u)

theorem hypervisorQueue : Claims.HypervisorQueue := fun s => by
  refine ⟨fun op o fn num dst arg ho hk hroom hres hs => ?_,
    fun tag v op o fn num dst arg htag ho hk hd hw hcalm => hcallReply_delivers htag ho hk hd hw hcalm,
    fun tag v h => hcallReply_ignored h, fun fn mask hs => ?_⟩
  · obtain ⟨htail, hst, hop, hint⟩ := postCall_posts (ctx := (s.coh o.coh).ctx) (fn := fn) (num := num) (dst := dst) (arg := arg)
      ho hs
    have hlen := callRecord_length (s.coh o.coh).ctx num arg op
    exact ⟨_, hcallPost_posts ho hk hroom hres, htail, hlen ▸ hst.inside, hlen ▸ hst.outside, hop, hint⟩
  · obtain ⟨hx, hother, hrest⟩ := modFn_alone s hs fun f => { f with intstat := f.intstat &&& ~~~(BitVec.ofNat 64 mask) }
    exact ⟨_, rfl, (congrArg Function.intstat hx :), hother, rfl, rfl, rfl⟩

/-- Settles O57, its three claims one by one. -/
theorem queueAndHostAccess : Obligations.QueueAndHostAccess := ⟨hypervisorQueue, hostAccess, registerWrites⟩

end Sys2Proof.Device

/-! ## Proofs of the assembly and objects family, part 1: what leaves Belfry's books alone -/

namespace Sys2Proof.Belfry

open Sys2Proof.Machine Sys2Proof.Safety Sys2Proof.Laws Sys2Proof.Device

/-- What every turn of a fold leaves alone, the fold does. -/
theorem foldl_keeps {α β γ : Type} (p : γ → β) {f : γ → α → γ} (h : ∀ r x, p (f r x) = p r) (l : List α) (r : γ) :
    p (l.foldl f r) = p r := by
  induction l generalizing r with
  | nil => rfl
  | cons x l ih => exact (ih (f r x)).trans (h r x)

theorem forEach_keeps {α β : Type} (p : State → β) (l : List α) {f : α → State → State} (h : ∀ x s, p (f x s) = p s)
    (s : State) : p (forEach l f s) = p s :=
  foldl_keeps p (fun s x => h x s) l s

/-- Belfry's books: the launches, the numbers that the next launch and the next cohort take, and the batches emitted. -/
structure Books where
  launches : FMap Launch
  seqNext : Nat
  ageNext : Nat
  batches : List Batch

/-- The books of a state. -/
def books (s : State) : Books := ⟨s.launches, s.seqNext, s.ageNext, s.batches⟩

theorem books_modCtx (k : Nat) (f : Context → Context) (s : State) : books (s.modCtx k f) = books s := rfl

/-! ### The end of an operation -/

theorem books_modThread (k w l : Nat) (f : Thread → Thread) (s : State) : books (s.modThread k w l f) = books s := rfl

theorem books_setPcs (k : Nat) (ths : List (Nat × Nat)) (pc : W32) (s : State) : books (setPcs k ths pc s) = books s :=
  forEach_keeps books ths (fun _ s => books_modThread _ _ _ _ s) s

theorem books_progress (core k : Nat) (ths : List (Nat × Nat)) (s : State) : books (progress core k ths s) = books s :=
  forEach_keeps books ths (fun _ s => books_modThread _ _ _ _ s) s

theorem books_finishOp (id : Nat) (s : State) : books (finishOp id s) = books s := by
  unfold finishOp
  split
  · rfl
  · exact forEach_keeps books _ (fun _ s => books_setPcs _ _ _ s) _

theorem books_wakeWaits (k : Nat) (s : State) : books (wakeWaits k s) = books s := by
  refine forEach_keeps books _ (fun e s => ?_) s
  dsimp only
  split
  · split
    · exact books_finishOp _ (s.writeS _ _ _ _)
    · rfl
  · split
    · rfl
    · exact books_finishOp _ s
  · rfl

theorem books_completeOp (id : Nat) (s : State) : books (completeOp id s) = books s := by
  unfold completeOp
  split
  · rfl
  · exact (books_wakeWaits _ _).trans (books_finishOp id s)

/-! ### Stores of the agents -/

theorem books_waitcReturn (id : Nat) (s : State) : books (waitcReturn id s) = books s := by
  unfold waitcReturn
  split
  · dsimp only
    split
    · exact (books_completeOp id _).trans (books_progress _ _ _ _)
    · rfl
  · rfl

theorem books_fireMonitors (line : Nat) (s : State) : books (fireMonitors line s) = books s :=
  forEach_keeps books _ books_waitcReturn s

theorem books_setHome (line w e ret : Nat) (s : State) : books (s.setHome line w e ret) = books s := by
  unfold State.setHome
  split
  · rfl
  · split
    · dsimp only
      split <;> rfl
    · exact forEach_keeps books _ (f := State.raiseFloor) (fun _ _ => rfl) _

theorem books_homeStore (line vreq ret : Nat) (bs : List (Nat × Byte)) (s : State) :
    books (s.homeStore line vreq ret bs).1 = books s :=
  (forEach_keeps books bs (f := fun e => State.setByte e.1 e.2) (fun _ _ => rfl) _).trans (books_setHome line _ _ ret s)

theorem books_devStore (ctx va n v vreq : Nat) (s : State) : books (devStore ctx va n v vreq s).1 = books s := by
  unfold devStore
  split
  · exact (books_fireMonitors _ _).trans (books_homeStore _ _ _ _ s)
  · rfl

theorem books_devPut (ctx va : Nat) (bs : List Byte) (s : State) : books (devPut ctx va bs s) = books s := by
  refine forEach_keeps books _ (fun ch s => ?_) s
  split
  · exact (books_fireMonitors _ _).trans (books_homeStore _ _ _ _ s)
  · rfl
  · rfl

/-! ### Cursors -/

/-- What is done where a change is possible. -/
theorem books_getD {o : Option State} {s : State} (h : ∀ t, o = some t → books t = books s) : books (o.getD s) = books s := by
  cases o with
  | none => rfl
  | some t => exact h t rfl

theorem books_lowerCount {ctx : Nat} {g : Geo} {va : Nat} {s t : State} (h : lowerCount ctx g va s = some t) :
    books t = books s := by
  unfold lowerCount at h
  split at h
  · rename_i n _
    split at h
    · exact absurd h (by simp)
    · have hs := books_devStore ctx va 4 n 0 s
      split at h
      · rename_i u w hu
        rw [hu] at hs
        exact Option.some.inj h ▸ hs
      · exact absurd h (by simp)
  · exact absurd h (by simp)
  · exact absurd h (by simp)

theorem books_releasePin {ctx : Nat} {g : Geo} {p : Nat × Nat} {s t : State} (h : releasePin ctx g p s = some t) :
    books t = books s := by
  obtain ⟨base, -, h⟩ := Option.bind_eq_some_iff.1 h
  obtain ⟨v, -, h⟩ := Option.bind_eq_some_iff.1 h
  split at h
  · exact absurd h (by simp)
  · exact books_lowerCount h

theorem books_closeCursor (wk cur : Nat) (s : State) : books (closeCursor wk cur s) = books s := by
  unfold closeCursor
  split
  · rfl
  · split
    · rfl
    · exact (books_getD fun _ => books_lowerCount).trans
        (forEach_keeps books _ (fun _ _ => books_getD fun _ => books_releasePin) s)

theorem books_put (vreq va : Nat) (bs : List Byte) (r : Rot) : books (r.put vreq va bs).s = books r.s := by
  unfold Rot.put
  split
  · rfl
  · refine foldl_keeps (fun r : Rot => books r.s) (fun r ch => ?_) _ r
    dsimp only
    split
    · exact (books_fireMonitors _ _).trans (books_homeStore _ _ _ _ _)
    · rfl
    · rfl

theorem rotOf_state {s : State} {ctx n : Nat} {r : Rot} (h : rotOf s ctx n = some r) : r.s = s := by
  obtain ⟨w, -, h⟩ := Option.bind_eq_some_iff.1 h
  obtain ⟨b, -, h⟩ := Option.bind_eq_some_iff.1 h
  dsimp only at h
  split at h
  · exact Option.some.inj h ▸ rfl
  · exact absurd h (by simp)

theorem books_openCursor {s t : State} {ctx n k stamp : Nat} {coh : Option Nat} {q : Query}
    (h : openCursor s ctx n coh q = .ok t k stamp) : books t = books s := by
  unfold openCursor at h
  split at h
  · cases h
  · rename_i r hr
    split at h
    · dsimp only at h
      split at h
      · cases h
      · split at h
        · cases h
        · split at h
          · cases h
          · cases h
            have hpins := foldl_keeps (fun r : Rot => books r.s) (fun r (t : Tab) =>
              books_put 0 (r.geo.tabBase + 128 * t.num + 52) (leBytes 4 (t.ccur + 1)) r)
            exact ((books_put _ _ _ _).trans (hpins _ r)).trans (congrArg books (rotOf_state hr))
    · cases h

/-! ### Waiting predecessors -/

theorem books_wakePreds (s : State) : books (wakePreds s) = books s := by
  refine forEach_keeps books _ (fun e s => ?_) s
  split
  · split
    · exact books_completeOp _ (predReturn _ _ _ _ s)
    · rfl
  · rfl

end Sys2Proof.Belfry

/-! ## Proofs of the assembly and objects family, part 2: a message taken and the launch it makes -/

namespace Sys2Proof.Belfry

open Sys2Proof.Machine Sys2Proof.Safety Sys2Proof.Laws Sys2Proof.Device

/-- The end of a launch that is not done: in the books, its own entry alone changes. -/
theorem completeLaunch_entry {seq status : Nat} {s : State} {l : Launch} (hl : FMap.find s.launches seq = some l)
    (hd : l.done = false) : ∃ u c, books u = books s ∧
      completeLaunch seq status s = wakePreds (u.modLaunch seq fun l => { l with done := true, status, c }) := by
  simp only [completeLaunch, hl, hd, Bool.false_eq_true, if_false]
  refine ⟨_, _, ?_, rfl⟩
  have hc : books (match l.cursor with
      | some (wk, cur) => closeCursor wk cur s
      | none => s) = books s := by
    split
    · exact books_closeCursor _ _ s
    · rfl
  refine (books_modCtx _ _ _).trans ?_
  split
  · exact hc
  · exact (books_devStore _ _ _ _ _ _).trans hc

/-- The launch that took a number, which was the last one given, is the one of a record. -/
structure Entered (seq ctx addr prio : Nat) (s : State) : Prop where
  next : s.seqNext = seq + 1
  entry : ∃ l, FMap.find s.launches seq = some l ∧ l.ctx = ctx ∧ l.addr = addr ∧ l.prio = prio

section
variable {seq ctx addr prio : Nat} {s t : State}

theorem Entered.of_books (h : Entered seq ctx addr prio s) (hb : books t = books s) : Entered seq ctx addr prio t where
  next := (congrArg Books.seqNext hb).trans h.next
  entry := by rw [show t.launches = s.launches from congrArg Books.launches hb]; exact h.entry

/-- A launch put in under the number given last. -/
theorem entered_put {l : Launch} (h : s.seqNext = seq + 1) (hl : s.launches = FMap.put seq l t.launches) :
    Entered seq l.ctx l.addr l.prio s :=
  ⟨h, l, hl ▸ FMap.find_put_self seq l _, rfl, rfl, rfl⟩

theorem Entered.modLaunch (h : Entered seq ctx addr prio s) (f : Launch → Launch)
    (hc : ∀ l, (f l).ctx = l.ctx := by exact fun _ => rfl) (ha : ∀ l, (f l).addr = l.addr := by exact fun _ => rfl)
    (hp : ∀ l, (f l).prio = l.prio := by exact fun _ => rfl) : Entered seq ctx addr prio (s.modLaunch seq f) := by
  obtain ⟨l, hl, h1, h2, h3⟩ := h.entry
  refine ⟨h.next, f l, ?_, (hc l).trans h1, (ha l).trans h2, (hp l).trans h3⟩
  exact (FMap.find_modify_self seq f s.launches).trans (congrArg (Option.map f) hl)

theorem Entered.completeLaunch (h : Entered seq ctx addr prio s) (status : Nat) :
    Entered seq ctx addr prio (completeLaunch seq status s) := by
  obtain ⟨l, hl, -, -, -⟩ := h.entry
  cases hd : l.done with
  | true =>
    simp only [Machine.completeLaunch, hl, hd, if_true]
    exact h
  | false =>
    obtain ⟨u, c, hu, he⟩ := completeLaunch_entry (status := status) hl hd
    rw [he]
    exact ((h.of_books hu).modLaunch _).of_books (books_wakePreds _)

theorem entered_startLaunch {l : Launch} (h : s.seqNext = seq + 1) :
    Entered seq l.ctx l.addr l.prio (startLaunch seq l s) := by
  have hput := entered_put (l := { l with base := s.ageNext }) (s := { s with
    ageNext := s.ageNext + l.grid, launches := s.launches.put seq { l with base := s.ageNext } }) h (t := s) rfl
  unfold startLaunch
  dsimp only
  split
  · exact hput.completeLaunch 0
  · exact hput

end

/-- R395: an accepted launch has the next number, whatever becomes of it. -/
theorem entered_acceptLaunch (ctx addr : Nat) (b : List Byte) (s : State) :
    Entered s.seqNext ctx addr (fieldN b 21 1) (acceptLaunch ctx addr b s) := by
  unfold acceptLaunch
  extract_lets seq l u query q
  have hu : Entered seq l.ctx l.addr l.prio u := entered_put (t := s) rfl rfl
  change Entered seq l.ctx l.addr l.prio _
  clear_value q u l
  split
  · exact hu.completeLaunch 3
  split
  · exact hu.completeLaunch 2
  split
  · exact hu.completeLaunch 4
  split
  · exact entered_startLaunch hu.next
  split
  · rename_i v k stamp ho
    have hv : Entered seq l.ctx l.addr l.prio v := hu.of_books (books_openCursor ho)
    extract_lets wk pins
    split
    · rename_i n _
      exact entered_startLaunch (l := { l with gx := n, gy := 1, gz := 1, cursor := some (wk, k) }) hv.next
    · exact (hv.of_books (books_closeCursor _ _ v)).completeLaunch 3
  · exact hu.completeLaunch 3
  · exact hu.completeLaunch 3

/-- The state after Belfry has taken message `i` of a mailbox: its place in the round, CLAIM and HEAD have advanced. -/
def taken (ctx m i : Nat) (s : State) : State :=
  let hdr := (FMap.getD 0 (s.ctx ctx).hdr m).toNat
  (devStore ctx (hdr + 24) 8 (i + 1) 0
    (devStore ctx (hdr + 16) 8 (i + 1) 0 { s with mboxAt := (64 * ctx + m + 1) % 65536 }).1).1

section
variable {s : State} {ctx m i slot : Nat} {msg : List Byte}

theorem launchAcceptance_eq (ho : mailboxOffer s ctx m = some (i, slot)) (ht : mailboxTurn s ctx m = true)
    (hr : s.readVirt ctx slot 64 = some msg) : exec (.launchAcceptance ctx m) s =
      if fieldN msg 8 56 ≠ 0 || fieldN msg 0 8 % 128 ≠ 0 then .next (discardMessage ctx m (taken ctx m i s))
      else match (taken ctx m i s).readVirt ctx (fieldN msg 0 8) 128 with
        | none => .next (discardMessage ctx m (taken ctx m i s))
        | some b => .next (acceptLaunch ctx (fieldN msg 0 8) b (taken ctx m i s)) := by
  have hx : exec (.launchAcceptance ctx m) s = execLaunchAcceptance ctx m s := rfl
  rw [hx, execLaunchAcceptance]
  simp only [ho, ht, hr, Bool.not_true, Bool.false_eq_true, if_false]
  rfl

/-- R394: a malformed message is discarded. -/
theorem launchAcceptance_discards (ho : mailboxOffer s ctx m = some (i, slot)) (ht : mailboxTurn s ctx m = true)
    (hr : s.readVirt ctx slot 64 = some msg)
    (hbad : fieldN msg 8 56 ≠ 0 ∨ fieldN msg 0 8 % 128 ≠ 0 ∨ (taken ctx m i s).readVirt ctx (fieldN msg 0 8) 128 = none) :
    exec (.launchAcceptance ctx m) s = .next (discardMessage ctx m (taken ctx m i s)) := by
  rw [launchAcceptance_eq ho ht hr]
  split
  · rfl
  · rename_i hgood
    obtain ⟨h1, h2⟩ : fieldN msg 8 56 = 0 ∧ fieldN msg 0 8 % 128 = 0 := by simpa using hgood
    rw [hbad.resolve_left (not_not_intro h1) |>.resolve_left (not_not_intro h2)]

/-- R395: a good one is a launch. -/
theorem launchAcceptance_accepts (ho : mailboxOffer s ctx m = some (i, slot)) (ht : mailboxTurn s ctx m = true)
    (hr : s.readVirt ctx slot 64 = some msg) {b : List Byte} (h1 : fieldN msg 8 56 = 0) (h2 : fieldN msg 0 8 % 128 = 0)
    (hb : (taken ctx m i s).readVirt ctx (fieldN msg 0 8) 128 = some b) :
    exec (.launchAcceptance ctx m) s = .next (acceptLaunch ctx (fieldN msg 0 8) b (taken ctx m i s)) := by
  rw [launchAcceptance_eq ho ht hr, if_neg (by simp [h1, h2]), hb]

end

theorem discard_discardMessage {s : State} {ctx : Nat} (m : Nat) (hs : (FMap.find s.ctxs ctx).isSome = true) :
    FMap.getD 0 ((discardMessage ctx m s).ctx ctx).discard m = FMap.getD 0 (s.ctx ctx).discard m + 1 := by
  rw [discardMessage, State.ctx_modCtx, if_pos ⟨rfl, hs⟩, FMap.getD_put_self]

end Sys2Proof.Belfry

/-! ## Proofs of the assembly and objects family, part 3: a cohort admitted -/

namespace Sys2Proof.Belfry

open Sys2Proof.Machine Sys2Proof.Safety Sys2Proof.Laws Sys2Proof.Device

/-! ### What a cohort keeps while it waits for its first run -/

/-- A thread but for its state. -/
def shapeThread (t : Thread) : Thread := { t with st := .grouped }

/-- A warp but for its threads' states. -/
def shapeWarp (w : Warp) : Warp := { w with threads := w.threads.map shapeThread }

/-- A cohort but for its threads' states and requests of pre-emption. -/
def shape (h : Cohort) : Cohort := { h with preq := none, preqWait := false, warps := h.warps.map shapeWarp }

/-- The cohort of an age stamp, so far. -/
def shapeAt (k : Nat) (s : State) : Option Cohort := (FMap.find s.cohorts k).map shape

theorem map_listModify {α β : Type} {g : α → β} {f : α → α} (h : ∀ x, g (f x) = g x) (n : Nat) (l : List α) :
    (listModify f n l).map g = l.map g := by
  induction l generalizing n with
  | nil => cases n <;> rfl
  | cons x r ih =>
    cases n with
    | zero => exact congrArg (· :: r.map g) (h x)
    | succ n => exact congrArg (g x :: ·) (ih n)

theorem shapeAt_modCoh (j k : Nat) (f : Cohort → Cohort) (s : State)
    (hf : ∀ h, shape (f h) = shape h := by exact fun _ => rfl) : shapeAt k (s.modCoh j f) = shapeAt k s := by
  unfold shapeAt State.modCoh
  rw [FMap.find_modify]
  split
  · rename_i hk
    subst hk
    cases FMap.find s.cohorts k with
    | none => rfl
    | some h => exact congrArg some (hf h)
  · rfl

theorem shapeAt_setSt (j : Nat) (ths : List (Nat × Nat)) (st : ThSt) (k : Nat) (s : State) :
    shapeAt k (setSt j ths st s) = shapeAt k s := by
  refine forEach_keeps (shapeAt k) ths (fun t s => shapeAt_modCoh j k _ s fun h => ?_) s
  have hthread : ∀ x : Thread, shapeThread { x with st } = shapeThread x := fun _ => rfl
  have hwarp : ∀ w : Warp, shapeWarp { w with threads := listModify (fun x => { x with st }) t.2 w.threads } = shapeWarp w :=
    fun w => congrArg (fun l => { w with threads := l }) (map_listModify hthread t.2 w.threads)
  exact congrArg (fun l => { h with preq := none, preqWait := false, warps := l }) (map_listModify hwarp t.1 h.warps)

theorem shapeAt_placePart (core : Nat) (g : Group) (k : Nat) (s : State) : shapeAt k (placePart core g s) = shapeAt k s := by
  unfold placePart
  split
  · exact shapeAt_setSt _ _ _ k s
  · exact shapeAt_setSt _ _ _ k s

theorem shapeAt_keep (q : Queue) (f : Nat → Nat → Option Nat → Nat × Nat × Option Nat) (k : Nat) (s : State) :
    shapeAt k (q.keep f s) = shapeAt k s := by
  unfold Queue.keep
  split <;> rfl

theorem shapeAt_ask (q : Queue) (k : Nat) (s : State) : shapeAt k (q.ask s) = shapeAt k s := by
  unfold Queue.ask
  split
  · split
    · exact (shapeAt_keep q _ k _).trans (shapeAt_modCoh _ k _ s)
    · rfl
  · rfl

theorem shapeAt_askAll (k : Nat) (s : State) : shapeAt k (askAll s) = shapeAt k s :=
  forEach_keeps (shapeAt k) _ (fun q s => shapeAt_ask q k s) s

/-- What Belfry counts beside an admission leaves the admitted cohort alone. -/
theorem shapeAt_admitHead (q : Queue) (core k : Nat) (s : State) : shapeAt k (q.admitHead core s) = shapeAt k (q.letIn core s) :=
  (shapeAt_keep q _ k _).trans (forEach_keeps (shapeAt k) _ (fun x s => shapeAt_keep x _ k s) _)

theorem shapeAt_enterCohort (age : Nat) (h : Cohort) (s : State) : ∃ resv,
    shapeAt age (enterCohort age h s) = some (shape { h with resv }) := by
  refine ⟨if energyChecked s h.ctx then (s.launchAt h.launch).energy else 0, ?_⟩
  refine (forEach_keeps (shapeAt age) _ (fun _ s => shapeAt_placePart _ _ age s) _).trans ?_
  exact congrArg (Option.map shape) (FMap.find_put_self age _ _)

/-- Reading a list by number, after a change of every element that leaves the default alone. -/
theorem getD_map_fixed {α : Type} {g : α → α} {d : α} (hd : g d = d) (l : List α) (n : Nat) :
    (l.map g).getD n d = g (l.getD n d) := by
  rw [List.getD_eq_getElem?_getD, List.getD_eq_getElem?_getD, List.getElem?_map]
  cases l[n]? with
  | none => exact hd.symm
  | some _ => rfl

theorem getD_replicate_lt {α : Type} {n i : Nat} (h : i < n) (x d : α) : (List.replicate n x).getD i d = x := by
  rw [List.getD_eq_getElem?_getD, List.getElem?_replicate_of_lt h, Option.getD_some]

/-- Cohorts of one shape have warps of one shape, and these threads of one shape. -/
theorem shape_warp {h h' : Cohort} (he : shape h = shape h') (w : Nat) : shapeWarp (h.warp w) = shapeWarp (h'.warp w) := by
  have hl : h.warps.map shapeWarp = h'.warps.map shapeWarp := congrArg Cohort.warps he
  have hd : shapeWarp {} = {} := rfl
  rw [Cohort.warp, Cohort.warp, ← getD_map_fixed hd, ← getD_map_fixed hd, hl]

theorem shapeWarp_thread {x y : Warp} (he : shapeWarp x = shapeWarp y) (l : Nat) :
    shapeThread (x.thread l) = shapeThread (y.thread l) := by
  have hl : x.threads.map shapeThread = y.threads.map shapeThread := congrArg Warp.threads he
  have hd : shapeThread {} = {} := rfl
  rw [Warp.thread, Warp.thread, ← getD_map_fixed hd, ← getD_map_fixed hd, hl]

/-! ### A fresh cohort -/

/-- The cohort that a launch's index makes on a core (04 R86 to R88), its task block aside. -/
def indexed (seq : Nat) (l : Launch) (cidx view core : Nat) : Cohort :=
  { freshCohort seq l l.kern core view with
    cidx, cx := l.place cidx % l.gx, cy := l.place cidx / l.gx % l.gy, cz := l.place cidx / l.gx / l.gy
    stage := cidx / l.sweep }

theorem shapeAt_admitFresh {seq : Nat} {l : Launch} {s : State} (hl : FMap.find s.launches seq = some l)
    (cidx view core : Nat) : ∃ record blockLen tiles resv, shapeAt (l.base + cidx) (admitFresh seq cidx view core s) =
      some (shape { indexed seq l cidx view core with record, blockLen, tiles, resv }) := by
  have hat : s.launchAt seq = l := by rw [State.launchAt, hl]; rfl
  subst hat
  obtain ⟨resv, he⟩ := shapeAt_enterCohort _ _ _
  exact ⟨_, _, _, resv, he⟩

theorem indexed_warp {seq : Nat} {l : Launch} {w : Nat} (hw : w < l.kern.warps) (cidx view core : Nat) :
    (indexed seq l cidx view core).warp w =
      { alloc := l.kern.vregs, view, threads := List.replicate 32 { pc := l.kern.entry } } :=
  getD_replicate_lt hw _ _

/-- What the shape of an admitted cohort says of it. -/
theorem shape_indexed {h : Cohort} {seq : Nat} {l : Launch} {cidx view core record blockLen resv : Nat} {tiles : List TileRef}
    (he : shape h = shape { indexed seq l cidx view core with record, blockLen, tiles, resv }) :
    (h.status = .resident ∧ h.core = core ∧ h.ctx = l.ctx ∧ h.launch = seq ∧ h.cidx = cidx ∧ h.stage = cidx / l.sweep) ∧
    (h.cx = l.place cidx % l.gx ∧ h.cy = l.place cidx / l.gx % l.gy ∧ h.cz = l.place cidx / l.gx / l.gy) ∧
    h.warps.length = l.kern.warps ∧ ∀ w, w < l.kern.warps → (h.warp w).alloc = l.kern.vregs ∧ (h.warp w).view = view ∧
      ∀ i, i < 32 → ((h.warp w).thread i).pc = l.kern.entry := by
  refine ⟨⟨congrArg Cohort.status he, congrArg Cohort.core he, congrArg Cohort.ctx he, congrArg Cohort.launch he,
    congrArg Cohort.cidx he, congrArg Cohort.stage he⟩,
    ⟨congrArg Cohort.cx he, congrArg Cohort.cy he, congrArg Cohort.cz he⟩, ?_, fun w hw => ?_⟩
  · have hl := congrArg (fun x => x.warps.length) he
    simpa [shape, indexed, freshCohort, freshWarps] using hl
  · have hx := (shape_warp he w).trans (congrArg shapeWarp (indexed_warp (seq := seq) hw cidx view core))
    refine ⟨congrArg Warp.alloc hx, congrArg Warp.view hx, fun i hi => ?_⟩
    exact congrArg Thread.pc ((shapeWarp_thread hx i).trans (congrArg shapeThread (getD_replicate_lt hi _ _)))

/-! ### The decision -/

theorem dispatchDecision_eq {s : State} {q : Queue} {cidx view core : Nat} {l : Launch} (hq : chooseQueue s = some q)
    (hh : q.head = .fresh cidx view) (hl : FMap.find s.launches q.launch = some l)
    (hc : chooseCore s l.ctx (q.tiles s) (q.cores s) = some core) :
    exec .dispatchDecision s = .next (askAll (q.admitHead core s)) := by
  have hat : s.launchAt q.launch = l := by rw [State.launchAt, hl]; rfl
  have hd : decision s = some (q, core) := by
    rw [decision, hq, Option.bind_some, Queue.place, hat, hc]; rfl
  have hlost : q.lost s = false := by rw [Queue.lost, hh]
  have hx : exec .dispatchDecision s = execDispatchDecision s := rfl
  rw [hx, execDispatchDecision, hd]
  simp only [hlost, Bool.false_eq_true, if_false]

/-- R397: the cohort that a decision admits is the one of the chosen index, whatever else the decision does. -/
theorem dispatchDecision_admits {s : State} {q : Queue} {cidx view core : Nat} {l : Launch} (hh : q.head = .fresh cidx view)
    (hl : FMap.find s.launches q.launch = some l) : ∃ h record blockLen tiles resv,
      FMap.find (askAll (q.admitHead core s)).cohorts (l.base + cidx) = some h ∧
      shape h = shape { indexed q.launch l cidx view core with record, blockLen, tiles, resv } := by
  obtain ⟨record, blockLen, tiles, resv, he⟩ := shapeAt_admitFresh hl cidx view core
  have hin : q.letIn core s = admitFresh q.launch cidx view core s := by rw [Queue.letIn, hh]
  rw [← hin, ← shapeAt_admitHead, ← shapeAt_askAll] at he
  obtain ⟨h, hf, hs⟩ := Option.map_eq_some_iff.1 he
  exact ⟨h, record, blockLen, tiles, resv, hf, hs⟩

end Sys2Proof.Belfry

/-! ## Proofs of the assembly and objects family, part 4: nodes and their bins, and the claims -/

namespace Sys2Proof.Belfry

open Sys2Proof.Machine Sys2Proof.Safety Sys2Proof.Laws Sys2Proof.Device

/-! ### Bins -/

theorem binOf_names {s : State} {launch node : Nat} {b : NodeBin} (h : binOf s launch node = some b) :
    b.launch = launch ∧ b.node = node := by
  simpa using List.find?_some h

/-- The bin that a change of a launch's bin for a node starts from. -/
def binAt (s : State) (launch node : Nat) : NodeBin := (binOf s launch node).getD { launch, node, recs := [] }

/-- It is the bin found there, or an empty one. -/
theorem binAt_cases {s : State} {launch node : Nat} {p : NodeBin → Prop} (found : ∀ b, binOf s launch node = some b → p b)
    (empty : binOf s launch node = none → p { launch, node, recs := [] }) : p (binAt s launch node) := by
  unfold binAt
  cases h : binOf s launch node with
  | none => exact empty h
  | some b => exact found b h

theorem binAt_names (s : State) (launch node : Nat) :
    (binAt s launch node).launch = launch ∧ (binAt s launch node).node = node :=
  binAt_cases (p := fun b => b.launch = launch ∧ b.node = node) (fun _ => binOf_names) fun _ => ⟨rfl, rfl⟩

theorem binAt_recs (s : State) (launch node : Nat) :
    (binAt s launch node).recs = ((binOf s launch node).map NodeBin.recs).getD [] :=
  binAt_cases (p := fun b => b.recs = _) (fun b h => by rw [h]; rfl) fun h => by rw [h]; rfl

/-- A changed bin that holds a record is the bin found there. -/
theorem binOf_modBin {s : State} {launch node : Nat} {f : NodeBin → NodeBin} {b : NodeBin} (hb : f (binAt s launch node) = b)
    (hn : b.launch = launch ∧ b.node = node) (hr : b.recs ≠ []) : binOf (modBin launch node f s) launch node = some b := by
  have hkeep : (!b.recs.isEmpty) = true := by simpa using hr
  unfold modBin
  unfold binAt at hb
  simp only [hb, hkeep, Bool.true_or, if_true]
  exact List.find?_cons_of_pos (by simp [hn])

/-- A bin that is not full and has no record that has waited for TIMER is not due while its launch is busy (22 R408). -/
theorem binDue_false {s : State} {b : NodeBin} {n : Node} (hfull : b.recs.length < n.count)
    (hwait : ∀ r ∈ b.recs, s.dclk < r.at_ + n.timer) (hbusy : launchBusy s b.launch = true) : binDue s b n = false := by
  unfold binDue
  split
  · rfl
  · rename_i r _ hr
    have h1 := hwait r (hr ▸ List.mem_cons_self)
    rw [hbusy]
    simp only [Bool.not_true, Bool.or_false, Bool.or_eq_false_iff, decide_eq_false_iff_not]
    omega

theorem books_takeOverflow {ctx len block : Nat} {s t : State} (h : takeOverflow ctx len s = some (t, block)) :
    books t = books s := by
  obtain ⟨off, -, h⟩ := Option.map_eq_some_iff.1 h
  exact congrArg (fun x => books x.1) h.symm

section
variable {s : State} {launch node : Nat} {b : NodeBin} {l : Launch} {n : Node}

theorem emitBatch_not_due (hb : binOf s launch node = some b) (hl : FMap.find s.launches launch = some l)
    (hn : nodeOf s l.ctx node = some n) (hd : binDue s b n = false) : emitBatch launch node s = s := by
  simp only [emitBatch, hb, hl, hn, hd, Bool.not_false, if_true]

/-- R404, R408: a bin that is due, with room for its block, emits at most COUNT records under the next stamp. -/
theorem emitBatch_emits (hb : binOf s launch node = some b) (hl : FMap.find s.launches launch = some l)
    (hn : nodeOf s l.ctx node = some n) (hd : binDue s b n = true)
    (hroom : (takeOverflow l.ctx (up128 (128 + (b.recs.take n.count).length * n.recsize)) s).isSome = true) :
    ∃ x : Batch, (emitBatch launch node s).batches = s.batches ++ [x] ∧ x.launch = launch ∧ x.node = node ∧
      x.recs = b.recs.take n.count ∧ x.age = s.ageNext ∧ x.cidx = l.grid + l.emitted ∧
      (emitBatch launch node s).ageNext = s.ageNext + 1 ∧
      FMap.find (emitBatch launch node s).launches launch = some { l with emitted := l.emitted + 1 } := by
  obtain ⟨⟨u, block⟩, hu⟩ := Option.isSome_iff_exists.1 hroom
  simp only [emitBatch, hb, hl, hn, hd, hu, Bool.not_true, Bool.false_eq_true, if_false]
  generalize padTo _ _ = bytes
  have hv : books (forEach ((b.recs.take n.count).filterMap Filed.spill) (freeOverflow l.ctx) (devPut l.ctx block bytes u)) =
      books s :=
    calc books (forEach _ (freeOverflow l.ctx) (devPut l.ctx block bytes u))
      _ = books (devPut l.ctx block bytes u) := forEach_keeps books _ (fun _ s => books_modCtx _ _ s) _
      _ = books u := books_devPut _ _ _ u
      _ = books s := books_takeOverflow hu
  generalize forEach _ (freeOverflow l.ctx) (devPut l.ctx block bytes u) = v at hv ⊢
  have hage : u.ageNext = s.ageNext := congrArg Books.ageNext (books_takeOverflow hu)
  refine ⟨_, congrArg (· ++ _) (congrArg Books.batches hv), rfl, rfl, rfl, hage, rfl, congrArg (· + 1) hage, ?_⟩
  refine (FMap.find_modify_self launch _ v.launches).trans ?_
  rw [show v.launches = s.launches from congrArg Books.launches hv, hl]
  rfl

theorem binTimerExpiry_eq (hl : FMap.find s.launches launch = some l)
    (hst : (s.ctx l.ctx).st = .active ∨ (s.ctx l.ctx).st = .saving) :
    exec (.binTimerExpiry launch node) s = .next (emitBatch launch node s) := by
  have hx : exec (.binTimerExpiry launch node) s = execBinTimerExpiry launch node s := rfl
  rw [hx, execBinTimerExpiry, hl]
  exact if_pos (by simpa using hst)

end

/-! ### Registration -/

/-- R81: the fields of a node entry are in range. -/
def entryGood (b : List Byte) : Prop :=
  fieldN b 20 12 = 0 ∧ fieldN b 8 4 = 0 ∧ fieldN b 18 2 % 16 = 0 ∧ 16 ≤ fieldN b 18 2 ∧ fieldN b 18 2 ≤ 512 ∧
    1 ≤ fieldN b 16 2 ∧ fieldN b 16 2 ≤ 1024 ∧ 1 ≤ fieldN b 12 4 ∧ fieldN b 12 4 ≤ 2 ^ 24

/-- The node of an entry, under the next number of its context. -/
def entryNode (s : State) (ctx addr : Nat) (b : List Byte) : Node :=
  { idx := (s.ctx ctx).nodes.length, addr, kdesc := fieldN b 0 8, timer := fieldN b 12 4, count := fieldN b 16 2
    recsize := fieldN b 18 2 }

section
variable {s : State} {ctx addr : Nat} {b : List Byte}

theorem nodeRegistration_good (hb : s.readVirt ctx addr 32 = some b) (hs : (FMap.find s.ctxs ctx).isSome = true)
    (hlen : (s.ctx ctx).nodes.length < 65535) (hnew : ∀ x ∈ (s.ctx ctx).nodes, x.addr ≠ addr) (hg : entryGood b) :
    exec (.nodeRegistration ctx addr) s =
      .next (s.modCtx ctx fun x => { x with nodes := x.nodes ++ [entryNode s ctx addr b] }) := by
  have hx : exec (.nodeRegistration ctx addr) s = execNodeRegistration ctx addr s := rfl
  have hany : ((s.ctx ctx).nodes.any fun x => x.addr = addr) = false :=
    List.any_eq_false.2 fun x h => by simpa using hnew x h
  obtain ⟨h1, h2, h3, h4, h5, h6, h7, h8, h9⟩ := hg
  rw [hx, execNodeRegistration, hb]
  refine if_pos ?_
  rw [hany, hs]
  simp only [h1, h2, h3, h4, h5, h6, h7, h8, h9, hlen, decide_true, Bool.and_self, Bool.not_false]

theorem nodeRegistration_bad (hb : s.readVirt ctx addr 32 = some b) (hg : ¬ entryGood b) :
    exec (.nodeRegistration ctx addr) s = .next s := by
  have hx : exec (.nodeRegistration ctx addr) s = execNodeRegistration ctx addr s := rfl
  rw [hx, execNodeRegistration, hb]
  refine if_neg fun h => hg ?_
  simp only [Bool.and_eq_true, decide_eq_true_eq] at h
  obtain ⟨⟨⟨⟨⟨⟨⟨⟨⟨⟨⟨h1, h2⟩, h3⟩, h4⟩, h5⟩, h6⟩, h7⟩, h8⟩, h9⟩, -⟩, -⟩, -⟩ := h
  exact ⟨h1, h2, h3, h4, h5, h6, h7, h8, h9⟩

end

/-! ### A record that arrives -/

/-- Record `i` of a TSPAWN without overflow slots, as it is filed. -/
def filed (s : State) (o : Op) (n : Node) (off i : Nat) (tiles : List TileRef) : Filed :=
  { bytes := (s.coh o.coh).readSpL (off + i * n.recsize) n.recsize, at_ := s.dclk, die := dieOf o.core, spill := none, tiles }

/-- The command of a cohort once record `i` has left it; a soft error in the record's bytes is noted (14 R245). -/
def sentOn (h : Cohort) (n : Node) (node off count i : Nat) (tiles : List TileRef) (o : Op) : Op :=
  { o with
    kind := .eng (.tspawn node off count tiles [] (i + 1))
    soft := o.soft || h.scratchBad.any fun a => off + i * n.recsize ≤ a && a < off + (i + 1) * n.recsize }

/-- The bin with a record filed last. -/
def addRec (r : Filed) (b : NodeBin) : NodeBin := { b with recs := b.recs ++ [r] }

section
variable {s : State} {op node off count i : Nat} {o : Op} {n : Node} {tiles : List TileRef}

theorem recordArrival_eq (ho : FMap.find s.ops op = some o) (hk : o.kind = .eng (.tspawn node off count tiles [] i))
    (hn : nodeOf s (s.coh o.coh).ctx node = some n) (hi : i < count) (ht : spawnTurn s op o node = true) :
    exec (.recordArrival op) s = .next (emitBatch (s.coh o.coh).launch node
      (modBin (s.coh o.coh).launch node (addRec (filed s o n off i tiles))
        (s.modOp op (sentOn (s.coh o.coh) n node off count i tiles)))) := by
  have hx : exec (.recordArrival op) s = execRecordArrival op s := rfl
  have hslot : ¬ count ≤ i := by omega
  rw [hx, execRecordArrival, ho]
  simp only [hk, hn, ht, hslot, List.length_nil, Nat.sub_zero, Bool.not_true, Bool.or_false, decide_false,
    Bool.false_eq_true, if_false]
  rfl

/-- R407: a record that arrives at a bin with room to wait is the bin's last, and the bin does not emit. -/
theorem recordArrival_files {l : Launch} (ho : FMap.find s.ops op = some o)
    (hk : o.kind = .eng (.tspawn node off count tiles [] i)) (hn : nodeOf s (s.coh o.coh).ctx node = some n) (hi : i < count)
    (ht : spawnTurn s op o node = true)
    (hroom : ∀ x, binOf s (s.coh o.coh).launch node = some x → x.recs.length + 1 < n.count) (hone : 1 < n.count)
    (hl : FMap.find s.launches (s.coh o.coh).launch = some l) (hc : l.ctx = (s.coh o.coh).ctx)
    (hbusy : launchBusy s (s.coh o.coh).launch = true)
    (hwait : ∀ x, binOf s (s.coh o.coh).launch node = some x → ∀ r ∈ x.recs, s.dclk < r.at_ + n.timer)
    (htimer : 0 < n.timer) : ∃ t x, exec (.recordArrival op) s = .next t ∧
      FMap.find t.ops op = some (sentOn (s.coh o.coh) n node off count i tiles o) ∧
      binOf t (s.coh o.coh).launch node = some x ∧
      x.recs = ((binOf s (s.coh o.coh).launch node).map NodeBin.recs).getD [] ++ [filed s o n off i tiles] ∧ t.mem = s.mem := by
  have hx := recordArrival_eq ho hk hn hi ht
  have hnew : s.dclk < (filed s o n off i tiles).at_ + n.timer := Nat.lt_add_of_pos_right htimer
  generalize filed s o n off i tiles = r at hx hnew ⊢
  obtain ⟨hlen, hold⟩ : (binAt s (s.coh o.coh).launch node).recs.length + 1 < n.count ∧
      ∀ r ∈ (binAt s (s.coh o.coh).launch node).recs, s.dclk < r.at_ + n.timer :=
    binAt_cases (p := fun b => b.recs.length + 1 < n.count ∧ ∀ r ∈ b.recs, s.dclk < r.at_ + n.timer)
      (fun b hb => ⟨hroom b hb, hwait b hb⟩) fun _ => ⟨hone, fun _ hr => absurd hr (by simp)⟩
  have hnames := binAt_names s (s.coh o.coh).launch node
  have hrecs := binAt_recs s (s.coh o.coh).launch node
  let u := modBin (s.coh o.coh).launch node (addRec r) (s.modOp op (sentOn (s.coh o.coh) n node off count i tiles))
  have hbin : binOf u (s.coh o.coh).launch node = some (addRec r (binAt s (s.coh o.coh).launch node)) :=
    binOf_modBin rfl hnames (by simp [addRec])
  generalize binAt s (s.coh o.coh).launch node = b at hlen hold hnames hrecs hbin
  have hdue : binDue u (addRec r b) n = false := by
    refine binDue_false (by simpa [addRec] using hlen) (fun x h => ?_) ((congrArg (launchBusy s) hnames.1).trans hbusy)
    rcases List.mem_append.1 h with h | h
    · exact hold x h
    · exact List.mem_singleton.1 h ▸ hnew
  rw [emitBatch_not_due hbin hl (hc ▸ hn) hdue] at hx
  exact ⟨u, _, hx, (FMap.find_modify_self op _ s.ops).trans (congrArg (Option.map _) ho), hbin, congrArg (· ++ [r]) hrecs, rfl⟩

end

/-! ### The claims -/

theorem belfryDecisions : Claims.BelfryDecisions := fun s => by
  refine ⟨fun ctx m i slot msg ho ht hr => ⟨fun hbad => ?_, fun b h1 h2 hb => ?_⟩,
    fun q cidx view l core hq hh hl hc => ?_, fun launch node l n b hl hn hb hst => ⟨fun hd => ?_, fun hd hroom => ?_⟩,
    fun _ => rfl⟩
  · exact ⟨_, launchAcceptance_discards ho ht hr hbad, rfl, rfl, fun hs => discard_discardMessage m hs⟩
  · have he := entered_acceptLaunch ctx (fieldN msg 0 8) b (taken ctx m i s)
    exact ⟨_, launchAcceptance_accepts ho ht hr h1 h2 hb, rfl, he.next, he.entry⟩
  · obtain ⟨h, _, _, _, _, hf, hs⟩ := dispatchDecision_admits (core := core) hh hl
    obtain ⟨⟨h1, h2, h3, h4, h5, h6⟩, ⟨h7, h8, h9⟩, h10, hw⟩ := shape_indexed hs
    have hat : (askAll (q.admitHead core s)).coh (l.base + cidx) = h := by rw [State.coh, hf]; rfl
    refine ⟨_, h, dispatchDecision_eq hq hh hl hc, hf, h1, h2, h3, h4, h5, h6, h7, h8, h9, h10, fun w i hk hi => ?_,
      fun w hk => ?_⟩
    · rw [State.thread, State.warp, hat]
      exact (hw w hk).2.2 i hi
    · rw [State.warp, hat]
      exact ⟨(hw w hk).1, (hw w hk).2.1⟩
  · rw [binTimerExpiry_eq hl hst, emitBatch_not_due hb hl hn hd]
  · obtain ⟨x, hx⟩ := emitBatch_emits hb hl hn hd hroom
    exact ⟨_, x, binTimerExpiry_eq hl hst, hx⟩

theorem nodesAndRecords : Claims.NodesAndRecords := fun s => by
  refine ⟨?_, fun op o node off count tiles i n ho hk hn hi ht hroom hone hbusy hctx hwait htimer => ?_⟩
  · intro ctx addr b hb hs n good hlen hnew
    refine ⟨fun hg => ?_, fun hg => nodeRegistration_bad hb hg⟩
    obtain ⟨hx, hother, -⟩ := modCtx_alone s hs fun x => { x with nodes := x.nodes ++ [entryNode s ctx addr b] }
    exact ⟨_, nodeRegistration_good hb hs hlen hnew hg, (congrArg Context.nodes hx :), hother, rfl, rfl⟩
  · obtain ⟨l, hl, -⟩ := (Option.any_eq_true _ _).1 hbusy
    obtain ⟨t, x, hx, hop, hbin, hrecs, hmem⟩ :=
      recordArrival_files ho hk hn hi ht hroom hone hl (hctx l hl) hbusy hwait htimer
    exact ⟨t, _, x, hx, hop, rfl, hbin, hrecs, hmem⟩

/-- Settles O52, its two claims one by one. -/
theorem belfryAndNodes : Obligations.BelfryAndNodes := ⟨belfryDecisions, nodesAndRecords⟩

end Sys2Proof.Belfry

/-! ## Proofs of the control family, part 1: the partition of a group, and branches -/

namespace Sys2Proof.Control

open Sys2Proof.Machine Sys2Proof.Safety Sys2Proof.Laws Sys2Proof.Device Sys2Proof.Belfry

/-! ### The parts of a group -/

section
variable {α : Type} [DecidableEq α] (key : Nat × Nat → α)

/-- The part of a key: its threads, in the group's order. -/
def partOf (ths : List (Nat × Nat)) (a : α) : α × List (Nat × Nat) := (a, ths.filter fun t => key t = a)

theorem partOf_concat_self (l : List (Nat × Nat)) (t : Nat × Nat) :
    partOf key (l ++ [t]) (key t) = (key t, (partOf key l (key t)).2 ++ [t]) := by simp [partOf]

theorem partOf_concat_ne {l : List (Nat × Nat)} {t : Nat × Nat} {a : α} (h : a ≠ key t) :
    partOf key (l ++ [t]) a = partOf key l a := by simp [partOf, h.symm]

/-- R111: the parts of a group are the parts of its keys, one for each, in the order in which the keys first occur. -/
theorem partsBy_eq (ths : List (Nat × Nat)) :
    partsBy key ths = (ths.map key).eraseDups.map (partOf key ths) := by
  obtain ⟨l, rfl⟩ : ∃ l : List (Nat × Nat), ths = l.reverse := ⟨ths.reverse, (List.reverse_reverse ths).symm⟩
  induction l with
  | nil => rfl
  | cons t l ih =>
    rw [List.reverse_cons]
    generalize l.reverse = l at ih ⊢
    have hstep : partsBy key (l ++ [t]) =
        if (partsBy key l).any (fun p => p.1 = key t) then
          (partsBy key l).map fun p => if p.1 = key t then (p.1, p.2 ++ [t]) else p
        else partsBy key l ++ [(key t, [t])] := by
      rw [partsBy, List.foldl_append]
      rfl
    have hany : (partsBy key l).any (fun p => p.1 = key t) = true ↔ key t ∈ l.map key := by
      simp only [List.any_eq_true, decide_eq_true_eq, ih]
      refine ⟨fun ⟨p, hp, hk⟩ => ?_, fun hm => ⟨_, List.mem_map_of_mem (List.mem_eraseDups.2 hm), rfl⟩⟩
      obtain ⟨a, ha, rfl⟩ := List.mem_map.1 hp
      exact hk ▸ List.mem_eraseDups.1 ha
    rw [hstep, List.map_append, List.eraseDups_append, List.map_append]
    by_cases hmem : key t ∈ l.map key
    · have hnone : ([t].map key).removeAll (l.map key) = [] := by simpa [List.removeAll] using hmem
      rw [if_pos (hany.2 hmem), hnone, ih, List.map_map]
      simp only [List.eraseDups_nil, List.map_nil, List.append_nil]
      refine List.map_congr_left fun a _ => ?_
      by_cases ha : a = key t
      · subst ha
        rw [partOf_concat_self]
        simp [partOf]
      · rw [partOf_concat_ne key ha]
        simp [partOf, ha]
    · have hnew : ([t].map key).removeAll (l.map key) = [key t] := by simpa [List.removeAll] using hmem
      have hold : ∀ a ∈ (l.map key).eraseDups, partOf key (l ++ [t]) a = partOf key l a := fun a ha =>
        partOf_concat_ne key fun h => hmem (h ▸ List.mem_eraseDups.1 ha)
      have hlast : partOf key (l ++ [t]) (key t) = (key t, [t]) := by
        rw [partOf_concat_self]
        simpa [partOf] using fun a b h hk => hmem (List.mem_map.2 ⟨(a, b), h, hk⟩)
      rw [if_neg (mt hany.1 hmem), hnew, ih, List.map_congr_left hold]
      simp [List.eraseDups_cons, hlast]

/-- The keys after a group's first. -/
def laterKeys (x : Nat × Nat) (r : List (Nat × Nat)) : List α := ((r.map key).filter fun b => !b == key x).eraseDups

theorem mem_laterKeys {x : Nat × Nat} {r : List (Nat × Nat)} {a : α} :
    a ∈ laterKeys key x r ↔ (∃ y ∈ r, key y = a) ∧ a ≠ key x := by
  simp [laterKeys, List.mem_eraseDups]

/-- The part of the first thread comes first. -/
theorem partsBy_cons (x : Nat × Nat) (r : List (Nat × Nat)) :
    partsBy key (x :: r) = partOf key (x :: r) (key x) :: (laterKeys key x r).map (partOf key (x :: r)) := by
  rw [partsBy_eq, List.map_cons, List.eraseDups_cons, List.map_cons]
  rfl

/-- A thread's part is the first thread's, or one of the later parts. -/
theorem key_first_or_later {x y : Nat × Nat} {r : List (Nat × Nat)} (h : y ∈ x :: r) :
    key y = key x ∨ key y ∈ laterKeys key x r := by
  by_cases hk : key y = key x
  · exact .inl hk
  · refine .inr ((mem_laterKeys key).2 ⟨⟨y, ?_, rfl⟩, hk⟩)
    exact (List.mem_cons.1 h).resolve_left fun e => hk (e ▸ rfl)

/-- There is one part alone where all threads have one key. -/
theorem laterKeys_eq_nil {x : Nat × Nat} {r : List (Nat × Nat)} :
    laterKeys key x r = [] ↔ ∀ y ∈ x :: r, ∀ z ∈ x :: r, key y = key z := by
  refine ⟨fun h => ?_, fun h => ?_⟩
  · have hx : ∀ y ∈ x :: r, key y = key x := fun y hy =>
      (key_first_or_later key hy).resolve_right (by simp [h])
    exact fun y hy z hz => (hx y hy).trans (hx z hz).symm
  · refine List.eq_nil_iff_forall_not_mem.2 fun a ha => ?_
    obtain ⟨⟨y, hy, rfl⟩, hne⟩ := (mem_laterKeys key).1 ha
    exact hne (h y (List.mem_cons_of_mem _ hy) x List.mem_cons_self)

end

/-! ### One core of the state -/

/-- The core is there. -/
def HasCore (s : State) (k : Nat) : Prop := (FMap.find s.cores k).isSome = true

section
variable {s t : State} {k e : Nat}

theorem core_modCore_self (h : HasCore s k) (f : Core → Core) : (s.modCore k f).core k = f (s.core k) := by
  rw [State.core_modCore, if_pos ⟨rfl, h⟩]

theorem HasCore.modCore (h : HasCore s k) (f : Core → Core) : HasCore (s.modCore k f) k :=
  (isSome_find_modify k k f s.cores).trans h

theorem HasCore.congr (h : HasCore s k) (hc : t.cores = s.cores) : HasCore t k := by rwa [HasCore, hc]

/-- A core that lists a group is there. -/
theorem hasCore_of_entry {g : Group} (h : FMap.find (s.core k).entries e = some g) : HasCore s k := by
  cases hf : FMap.find s.cores k with
  | some x => rw [HasCore, hf]; rfl
  | none => exact absurd h (by simp [State.core, hf, FMap.find])

theorem core_congr (h : t.cores = s.cores) (k : Nat) : t.core k = s.core k := by rw [State.core, State.core, h]

end

/-! ### What the issue machinery leaves of the cores -/

/-- Each thread is sent to its next PC; an exemption from a breakpoint is used up (07 R135). -/
def sendAll (coh : Nat) (next : Nat × Nat → W32) (ths : List (Nat × Nat)) (s : State) : State :=
  forEach ths (fun t => State.modThread coh t.1 t.2 fun x => { x with pc := next t, exempt := none }) s

@[simp] theorem cores_sendAll (coh : Nat) (next : Nat × Nat → W32) (ths : List (Nat × Nat)) (s : State) :
    (sendAll coh next ths s).cores = s.cores := forEach_keeps State.cores ths (fun _ _ => by exact State.modThread_cores ..) s

@[simp] theorem cores_setSt (coh : Nat) (ths : List (Nat × Nat)) (st : ThSt) (s : State) :
    (setSt coh ths st s).cores = s.cores := forEach_keeps State.cores ths (fun _ _ => by exact State.modThread_cores ..) s

@[simp] theorem cores_noteHang (c : Iss) (s : State) : (noteHang c s).cores = s.cores :=
  forEach_keeps State.cores _ (fun _ _ => by exact State.modThread_cores ..) s

/-- A core once the run of a group has ended (04 R106). -/
def ended (c : Iss) (k : Core) : Core :=
  { k with
    runNo := k.runNo + 1, slots := k.slots.set c.slot none
    entries := k.entries.modify c.ent fun g => { g with ranAt := k.runNo + 1 } }

theorem cores_endRun (c : Iss) (s : State) :
    (endRun c s).cores = (s.modCore c.core fun k => { k with
      runNo := (s.core c.core).runNo + 1, slots := k.slots.set c.slot none
      entries := k.entries.modify c.ent fun g => { g with ranAt := (s.core c.core).runNo + 1 } }).cores :=
  (forEach_keeps State.cores c.warps (fun _ _ => by exact State.modWarp_cores ..) _).trans
    (forEach_keeps State.cores c.ths (fun _ _ => by exact State.modThread_cores ..) _)

theorem core_endRun {c : Iss} {s : State} (h : HasCore s c.core) : (endRun c s).core c.core = ended c (s.core c.core) :=
  (core_congr (cores_endRun c s) c.core).trans (core_modCore_self h _)

theorem HasCore.endRun {c : Iss} {s : State} (h : HasCore s c.core) : HasCore (endRun c s) c.core :=
  HasCore.congr (HasCore.modCore h _) (cores_endRun c s)

theorem slot_ended (c : Iss) (k : Core) : (ended c k).slots.getD c.slot none = none := by
  rw [ended, List.getD_eq_getElem?_getD, List.getElem?_set_self']
  cases k.slots[c.slot]? <;> rfl

/-! ### The group in its slot -/

/-- The group stands in its slot, and its entry lists a group of its cohort. -/
structure InSlot (c : Iss) (s : State) : Prop where
  slot : (s.core c.core).slots.getD c.slot none = some c.ent
  entry : ∃ g, FMap.find (s.core c.core).entries c.ent = some g ∧ g.coh = c.coh

theorem inSlot_of_curIss {c : Iss} {s : State} (h : curIss s = some c) : InSlot c s := by
  unfold curIss issOf at h
  split at h
  · exact absurd h (by simp)
  · rename_i e he
    split at h
    · rename_i g hg
      obtain rfl := Option.some.inj h
      exact ⟨he, g, hg, rfl⟩
    · exact absurd h (by simp)

theorem InSlot.hasCore {c : Iss} {s : State} (h : InSlot c s) : HasCore s c.core :=
  have ⟨_, hg, _⟩ := h.entry
  hasCore_of_entry hg

theorem InSlot.congr {c : Iss} {s t : State} (h : InSlot c s) (hc : t.cores = s.cores) : InSlot c t := by
  have hk := core_congr hc c.core
  exact ⟨hk ▸ h.slot, hk ▸ h.entry⟩

/-! ### Where the parts go -/

/-- An entry of a core holds the threads as a group of the cohort at the PC. -/
def InEntry (k coh : Nat) (p : W32 × List (Nat × Nat)) (t : State) (e : Nat) : Prop :=
  ∃ g, FMap.find (t.core k).entries e = some g ∧ g.coh = coh ∧ g.pc = p.1 ∧ g.ths = p.2

/-- A part has an entry, or its threads are parked (R111). -/
def Placed (k coh : Nat) (p : W32 × List (Nat × Nat)) (t : State) : Prop :=
  (∃ e, InEntry k coh p t e) ∨ ∀ y ∈ p.2, (coh, y.1, y.2) ∈ (t.core k).parked

/-- A core keeps its slots, the groups it lists and the threads parked at it. -/
structure Keeps (k : Nat) (s t : State) : Prop where
  here : HasCore t k
  slots : (t.core k).slots = (s.core k).slots
  entries : ∀ e g, FMap.find (s.core k).entries e = some g → FMap.find (t.core k).entries e = some g
  parked : ∀ x ∈ (s.core k).parked, x ∈ (t.core k).parked

section
variable {k coh : Nat} {s t : State} {p : W32 × List (Nat × Nat)}

theorem Keeps.refl (h : HasCore s k) : Keeps k s s := ⟨h, rfl, fun _ _ h => h, fun _ h => h⟩

theorem Keeps.trans {u : State} (h : Keeps k s t) (g : Keeps k t u) : Keeps k s u :=
  ⟨g.here, g.slots.trans h.slots, fun e x hx => g.entries e x (h.entries e x hx), fun x hx => g.parked x (h.parked x hx)⟩

theorem Keeps.inEntry (h : Keeps k s t) {e : Nat} (hp : InEntry k coh p s e) : InEntry k coh p t e :=
  have ⟨g, hg, hrest⟩ := hp
  ⟨g, h.entries e g hg, hrest⟩

theorem Keeps.placed (h : Keeps k s t) (hp : Placed k coh p s) : Placed k coh p t :=
  hp.imp (fun ⟨e, he⟩ => ⟨e, h.inEntry he⟩) fun hq y hy => h.parked _ (hq y hy)

/-- R111: a part takes a free entry, or is parked; what had a place keeps it. -/
theorem placePart_places (h : HasCore s k) (coh : Nat) (p : W32 × List (Nat × Nat)) :
    Keeps k s (placePart k { coh, pc := p.1, ths := p.2 } s) ∧
      Placed k coh p (placePart k { coh, pc := p.1, ths := p.2 } s) := by
  have hset : ∀ st, HasCore (setSt coh p.2 st s) k ∧ (setSt coh p.2 st s).core k = s.core k := fun st =>
    ⟨HasCore.congr h (cores_setSt ..), core_congr (cores_setSt ..) k⟩
  unfold placePart
  split
  next e he =>
    obtain ⟨hh, hk⟩ := hset .grouped
    have hfree : FMap.find (s.core k).entries e = none := by simpa using List.find?_some he
    have hput : (putEntry k e { coh, pc := p.1, ths := p.2 } s).core k = { s.core k with
        entries := (s.core k).entries.put e { coh, pc := p.1, ths := p.2 } } :=
      (core_modCore_self hh _).trans (by rw [hk])
    have hfind : FMap.find ((putEntry k e { coh, pc := p.1, ths := p.2 } s).core k).entries e =
        some { coh, pc := p.1, ths := p.2 } := by rw [hput]; exact FMap.find_put_self ..
    refine ⟨⟨HasCore.modCore hh _, by rw [hput], fun j g hg => ?_, fun x hx => by rwa [hput]⟩,
      .inl ⟨e, _, hfind, rfl, rfl, rfl⟩⟩
    · have hj : j ≠ e := by rintro rfl; simp [hfree] at hg
      rw [hput]
      exact (FMap.find_put_ne hj ..).trans hg
  next =>
    obtain ⟨hh, hk⟩ := hset .parked
    have hpark : (park k coh p.2 s).core k = { s.core k with
        parked := (s.core k).parked ++ p.2.map fun t => (coh, t.1, t.2) } :=
      (core_modCore_self hh _).trans (by rw [hk])
    refine ⟨⟨HasCore.modCore hh _, by rw [hpark], fun j g hg => by rwa [hpark], fun x hx => ?_⟩, .inr fun y hy => ?_⟩
    · rw [hpark]
      exact List.mem_append_left _ hx
    · rw [hpark]
      exact List.mem_append_right _ (List.mem_map.2 ⟨y, hy, rfl⟩)

/-- Parts of a group of a cohort are placed in their order. -/
def placeAll (k coh : Nat) (ps : List (W32 × List (Nat × Nat))) (s : State) : State :=
  forEach ps (fun p => placePart k { coh, pc := p.1, ths := p.2 }) s

theorem placeAll_places (h : HasCore s k) (coh : Nat) (ps : List (W32 × List (Nat × Nat))) :
    Keeps k s (placeAll k coh ps s) ∧ ∀ p ∈ ps, Placed k coh p (placeAll k coh ps s) := by
  induction ps generalizing s with
  | nil => exact ⟨Keeps.refl h, fun p hp => absurd hp (by simp)⟩
  | cons q r ih =>
    obtain ⟨hk, hq⟩ := placePart_places h coh q
    obtain ⟨hr, hall⟩ := ih hk.here
    refine ⟨hk.trans hr, fun p hp => ?_⟩
    rcases List.mem_cons.1 hp with rfl | hp
    · exact hr.placed hq
    · exact hall p hp

end

/-! ### How a group leaves its instruction -/

section
variable {c : Iss} {bnd : Bool} {next : Nat × Nat → W32} {s : State} {p : W32 × List (Nat × Nat)}
  {more : List (W32 × List (Nat × Nat))}

/-- R111, R43: a group that stays whole, at an instruction without BND, keeps its entry and its slot. -/
theorem leave_whole (h : InSlot c s) (hp : partsBy next c.ths = [p]) :
    InEntry c.core c.coh p (leave c false next s) c.ent ∧
      ((leave c false next s).core c.core).slots.getD c.slot none = some c.ent := by
  have h1 : InSlot c (sendAll c.coh next c.ths s) := h.congr (cores_sendAll ..)
  obtain ⟨g, hg, hcoh⟩ := h1.entry
  have ht : leave c false next s = (sendAll c.coh next c.ths s).modCore c.core fun k => { k with
      entries := k.entries.put c.ent { g with pc := p.1, ths := p.2, ran := g.ran + 1, since := none } } := by
    unfold sendAll at hg
    simp only [leave, hp, hg]
    rfl
  rw [ht, InEntry, core_modCore_self h1.hasCore]
  exact ⟨⟨_, FMap.find_put_self .., hcoh, rfl, rfl⟩, h1.slot⟩

/-- R111, R43: with more parts than one, or at BND, the first part keeps the entry, the others are placed, and the run ends. -/
theorem leave_ends (h : InSlot c s) (hp : partsBy next c.ths = p :: more) (hend : more ≠ [] ∨ bnd = true) :
    InEntry c.core c.coh p (leave c bnd next s) c.ent ∧ (∀ q ∈ more, Placed c.core c.coh q (leave c bnd next s)) ∧
      ((leave c bnd next s).core c.core).slots.getD c.slot none = none := by
  have h1 : HasCore (sendAll c.coh next c.ths s) c.core := (h.congr (cores_sendAll ..)).hasCore
  let u := (endRun c (sendAll c.coh next c.ths s)).modCore c.core
    (Core.keepEntry c.ent { coh := c.coh, pc := p.1, ths := p.2 })
  have hu : HasCore u c.core := HasCore.modCore (HasCore.endRun h1) _
  have huc : u.core c.core = Core.keepEntry c.ent { coh := c.coh, pc := p.1, ths := p.2 }
      (ended c ((sendAll c.coh next c.ths s).core c.core)) :=
    (core_modCore_self (HasCore.endRun h1) _).trans (by rw [core_endRun h1])
  have hfirst : InEntry c.core c.coh p u c.ent := by
    rw [InEntry, huc]
    exact ⟨_, FMap.find_put_self .., rfl, rfl, rfl⟩
  obtain ⟨hk, hall⟩ := placeAll_places hu c.coh more
  have ht : leave c bnd next s = noteHang c (placeAll c.core c.coh more u) := by
    have hb : (more.isEmpty && !bnd) = false := by rcases hend with hm | rfl <;> simp [*]
    simp only [leave, hp, hb]
    rfl
  have hc := core_congr (cores_noteHang c (placeAll c.core c.coh more u)) c.core
  rw [ht]
  simp only [InEntry, Placed, hc]
  refine ⟨hk.inEntry hfirst, hall, ?_⟩
  rw [hk.slots, huc]
  exact slot_ended ..

/-- R111: a group that leaves its instruction is partitioned by next PC. -/
theorem parted_leave (h : InSlot c s) (bnd : Bool) (next : Nat × Nat → W32) : Parted c bnd (leave c bnd next s) next := by
  cases hths : c.ths with
  | nil => exact ⟨by simp [hths], by simp [hths], fun hne => absurd hths hne⟩
  | cons x r =>
    have hp : partsBy next c.ths = partOf next c.ths (next x) :: (laterKeys next x r).map (partOf next c.ths) :=
      hths ▸ partsBy_cons next x r
    have hone : laterKeys next x r = [] ↔ ∀ y ∈ c.ths, ∀ z ∈ c.ths, next y = next z := hths ▸ laterKeys_eq_nil next
    obtain ⟨hfirst, hlater⟩ : InEntry c.core c.coh (partOf next c.ths (next x)) (leave c bnd next s) c.ent ∧
        ∀ a ∈ laterKeys next x r, Placed c.core c.coh (partOf next c.ths a) (leave c bnd next s) := by
      by_cases hend : (laterKeys next x r).map (partOf next c.ths) ≠ [] ∨ bnd = true
      · obtain ⟨hf, hl, -⟩ := leave_ends h hp hend
        exact ⟨hf, fun a ha => hl _ (List.mem_map_of_mem ha)⟩
      · obtain ⟨hm, hb⟩ := not_or.1 hend
        obtain rfl : bnd = false := by simpa using hb
        have hnil : laterKeys next x r = [] := by simpa using hm
        rw [hnil] at hp ⊢
        exact ⟨(leave_whole h hp).1, by simp⟩
    refine ⟨fun y hy => ?_, fun y hy => ?_, fun _ => ⟨fun hend => ?_, fun hwhole hb => ?_⟩⟩
    · obtain rfl : x = y := by simpa [hths] using hy
      exact hfirst
    · rcases key_first_or_later next (hths ▸ hy) with hk | hk
      · rw [← hk] at hfirst
        exact .inl ⟨c.ent, hfirst⟩
      · exact hlater _ hk
    · refine (leave_ends h hp (hend.imp_left fun hn => ?_)).2.2
      exact fun hm => hn (hone.1 (by simpa using hm))
    · subst hb
      rw [hone.2 hwhole] at hp
      exact (leave_whole h hp).2

end

/-! ### Branches -/

/-- Where a branch sends a thread: to its target where its guard holds, and to PC + 1 where it fails. -/
def goTo (c : Iss) (f : Fields) (s : State) (target : Nat × Nat → W32) (x : Nat × Nat) : W32 :=
  if x ∈ c.on f s then target x else c.pc + 1

theorem branchTo_eq (c : Iss) (f : Fields) (s0 : State) (target : Nat × Nat → W32) (s : State) :
    branchTo c f s0 target s = leave c f.bnd (goTo c f s0 target) s := by
  have hgo : (fun t => if (c.on f s0).contains t then target t else c.pc + 1) = goTo c f s0 target := by
    funext t
    simp only [goTo, List.contains_iff_mem]
  rw [← hgo]
  rfl

section
variable {i : Instr} {f : Fields} {c : Iss} {s u : State} {act : Iss → State → State} {next : Nat × Nat → W32}

/-- A ready instruction whose effect keeps its threads and the cores in place, and then sends the threads on. -/
theorem transfers (hx : exec i s = issue i f noCheck act s) (h : Ready i f c s)
    (ha : act c (useWindows c s) = leave c f.bnd next u) (hu : SameThreads (useWindows c s) u) (hc : u.cores = s.cores) :
    exec i s = .next (leave c f.bnd next u) ∧ MovedTo c s (leave c f.bnd next u) next ∧
      Parted c f.bnd (leave c f.bnd next u) next :=
  ⟨exec_pass hx h rfl ha, (same_useWindows c s).movedTo (hu.movedTo (pc_leave c f.bnd next u)),
    parted_leave ((inSlot_of_curIss h.group).congr hc) f.bnd next⟩

/-- A branch that writes no register. -/
theorem transfers_quiet (hx : exec i s = issue i f noCheck act s) (h : Ready i f c s)
    (ha : act c (useWindows c s) = leave c f.bnd next (useWindows c s)) :
    ∃ t, exec i s = .next t ∧ MovedTo c s t next ∧ Parted c f.bnd t next ∧ RegFrame s t none4 none3 none4 none2 :=
  have ⟨hn, hm, hp⟩ := transfers hx h ha (SameThreads.refl _) rfl
  ⟨_, hn, hm, hp, ((same_useWindows c s).trans (same_leave ..)).regFrame ..⟩

theorem cores_writeLink (c : Iss) (f : Fields) (s0 s : State) : (writeLink c f s0 s).cores = s.cores :=
  forEach_keeps State.cores _ (fun _ _ => by exact State.modWarp_cores ..) s

/-- The link is a vector register that each guard-holding thread writes (R117). -/
theorem writeLink_eq (c : Iss) (f : Fields) (s : State) : writeLink c f s s = effV f (fun _ _ _ _ => c.pc + 1) c s := rfl

/-- A call: PC + 1 in the link register of each guard-holding thread (R117). -/
theorem transfers_linked (hx : exec i s = issue i f noCheck act s) (h : Ready i f c s)
    (ha : act c (useWindows c s) = leave c f.bnd next (writeLink c f (useWindows c s) (useWindows c s))) :
    ∃ t, exec i s = .next t ∧ MovedTo c s t next ∧ Parted c f.bnd t next ∧
      (∀ x ∈ c.on f s, HasWarp s c.coh x.1 → x.2 < 32 →
        (t.warp c.coh x.1).readV f.dst.idx.toNat x.2 = if f.dst.idx.toNat = 255 then 0 else c.pc + 1) ∧
      RegFrame s t (fun k w r l => k = c.coh ∧ (w, l) ∈ c.on f s ∧ r = f.dst.idx.toNat) none3 none4 none2 := by
  have hl := writeLink_eq c f (useWindows c s)
  obtain ⟨hn, hm, hp⟩ := transfers hx h ha (hl ▸ sameThreads_effV ..) (cores_writeLink ..)
  refine ⟨_, hn, hm, hp, fun x hx hw hlane => ?_, ?_⟩
  · rw [(same_leave ..).readV, hl]
    exact readV_effV f _ c (useWindows c s) x hx hw hlane
  · rw [hl]
    exact (same_useWindows c s).thenFrame (RegFrame.same (regFrame_effV f _ c (useWindows c s)) (same_leave ..))

/-- The counter of LOOPD after it: one less, a word that wraps (R119). -/
def lessOne (f : Fields) (c : Iss) (s : State) (w : Nat) : W64 := (s.warp c.coh w).readS f.dst.idx.toNat - 1

/-- LOOPD counts once for each warp that has a guard-holding thread (R119). -/
def countDown (f : Fields) (c : Iss) (s : State) : State :=
  perWarp c f s (fun w => State.writeS c.coh w f.dst.idx.toNat (lessOne f c s w)) s

theorem cores_countDown (f : Fields) (c : Iss) (s : State) : (countDown f c s).cores = s.cores :=
  forEach_keeps State.cores _ (fun _ _ => by exact State.modWarp_cores ..) s

theorem readS_countDown {w : Nat} (hw : w ∈ c.warpsOn f s) (hh : HasWarp s c.coh w) :
    ((countDown f c s).warp c.coh w).readS f.dst.idx.toNat = if f.dst.idx.toNat = 63 then 0 else lessOne f c s w := by
  refine (readS_writeAll c.coh f.dst.idx.toNat (lessOne f c s) (c.warpsOn f s) s w hh).trans ?_
  by_cases hz : f.dst.idx.toNat = 63
  · simp [hz, Warp.readS]
  · simp [hz, hw]

theorem loopd_transfers (h : Ready (.loopd f) f c s) :
    let next := goTo c f s fun x => if lessOne f c s x.1 ≠ 0 then c.pc + f.imm else c.pc + 1
    ∃ t, exec (.loopd f) s = .next t ∧ MovedTo c s t next ∧ Parted c f.bnd t next ∧
      (∀ w ∈ c.warpsOn f s, HasWarp s c.coh w → (t.warp c.coh w).readS f.dst.idx.toNat =
        if f.dst.idx.toNat = 63 then 0 else lessOne f c s w) ∧
      RegFrame s t none4 (fun k w r => k = c.coh ∧ w ∈ c.warpsOn f s ∧ r = f.dst.idx.toNat) none4 none2 := by
  obtain ⟨hn, hm, hp⟩ := transfers (u := countDown f c (useWindows c s)) (show exec (.loopd f) s = execLoopd f s from rfl) h
    (branchTo_eq ..) (sameThreads_perWarpS f (lessOne f c (useWindows c s)) c _ _) (cores_countDown ..)
  refine ⟨_, hn, hm, hp, fun w hw hh => ?_, ?_⟩
  · rw [(same_leave ..).readS]
    exact readS_countDown (s := useWindows c s) hw hh
  · exact (same_useWindows c s).thenFrame
      (RegFrame.same (regFrame_perWarpS f (lessOne f c (useWindows c s)) c (useWindows c s)) (same_leave ..))

end

theorem branchTargets : Claims.BranchTargets := fun f _ s =>
  ⟨fun h => transfers_quiet (show exec (.nop f) s = execNop f s from rfl) h rfl,
    fun h => transfers_quiet (show exec (.bra f) s = execBra f s from rfl) h (branchTo_eq ..),
    fun h => transfers_quiet (show exec (.brx f) s = execBrx f s from rfl) h (branchTo_eq ..),
    fun h => transfers_quiet (show exec (.ret f) s = execRet f s from rfl) h (branchTo_eq ..),
    fun h => transfers_linked (show exec (.call f) s = execCall f s from rfl) h (branchTo_eq ..),
    fun h => transfers_linked (show exec (.callx f) s = execCallx f s from rfl) h (branchTo_eq ..),
    fun h => transfers_quiet (show exec (.vbra f) s = execVbra f s from rfl) h rfl,
    fun h => loopd_transfers h⟩

end Sys2Proof.Control

/-! ## Proofs of the control family, part 2: REFORM and YIELD -/

namespace Sys2Proof.Control

open Sys2Proof.Machine Sys2Proof.Safety Sys2Proof.Laws Sys2Proof.Belfry

/-! ### Filing threads in bins -/

/-- A thread waits in the bin of its cohort and PC. -/
def InBin (k coh : Nat) (pc : W32) (x : Nat × Nat) (s : State) : Prop :=
  ∃ b ∈ (s.core k).bins, b.coh = coh ∧ b.pc = pc ∧ x ∈ b.ths

/-- R97: the bin of a cohort and PC is open, or a bin is free. -/
def BinRoom (k coh : Nat) (pc : W32) (s : State) : Prop :=
  (∃ b ∈ (s.core k).bins, b.coh = coh ∧ b.pc = pc) ∨ (s.core k).freeBin.isSome = true

theorem InBin.room {k coh : Nat} {pc : W32} {x : Nat × Nat} {s : State} (h : InBin k coh pc x s) : BinRoom k coh pc s :=
  have ⟨b, hb, hcoh, hpc, _⟩ := h
  .inl ⟨b, hb, hcoh, hpc⟩

/-- A bin once a thread of the cohort and PC has been filed: it is the last of the bin that is theirs. -/
def addTo (coh : Nat) (pc : W32) (x : Nat × Nat) (b : Bin) : Bin :=
  if b.coh = coh && b.pc = pc then { b with ths := b.ths ++ [x] } else b

theorem addTo_names (coh : Nat) (pc : W32) (x : Nat × Nat) (b : Bin) :
    (addTo coh pc x b).coh = b.coh ∧ (addTo coh pc x b).pc = b.pc ∧ ∀ y ∈ b.ths, y ∈ (addTo coh pc x b).ths := by
  unfold addTo
  split
  · exact ⟨rfl, rfl, fun y hy => List.mem_append_left _ hy⟩
  · exact ⟨rfl, rfl, fun y hy => hy⟩

theorem mem_addTo {coh : Nat} {pc : W32} {b : Bin} (hcoh : b.coh = coh) (hpc : b.pc = pc) (x : Nat × Nat) :
    x ∈ (addTo coh pc x b).ths := by simp [addTo, hcoh, hpc]

section
variable {k coh : Nat} {pc : W32} {s : State}

/-- A thread is sent to the PC and is binned, with these bins at the core. -/
def binned (k coh : Nat) (pc : W32) (x : Nat × Nat) (bs : List Bin) (s : State) : State :=
  (setSt coh [x] .binned (sendAll coh (fun _ => pc) [x] s)).modCore k fun c => { c with bins := bs }

/-- R97: a thread is filed into the open bin of its cohort and PC, or into a free bin; with neither it is parked. -/
theorem fileThread_cases (k coh : Nat) (pc : W32) (x : Nat × Nat) (s : State) :
    (fileThread k coh pc x s = binned k coh pc x ((s.core k).bins.map (addTo coh pc x)) s ∧
      ∃ b ∈ (s.core k).bins, b.coh = coh ∧ b.pc = pc) ∨
    (∃ n, fileThread k coh pc x s = binned k coh pc x ((s.core k).bins ++ [{ num := n, coh, pc, ths := [x] }]) s) ∨
    (fileThread k coh pc x s = park k coh [x] (sendAll coh (fun _ => pc) [x] s) ∧ ¬ BinRoom k coh pc s) := by
  have hany : ((s.core k).bins.any fun b => b.coh = coh && b.pc = pc) = true ↔
      ∃ b ∈ (s.core k).bins, b.coh = coh ∧ b.pc = pc := by simp
  by_cases hopen : ((s.core k).bins.any fun b => b.coh = coh && b.pc = pc) = true
  · exact .inl ⟨if_pos hopen, hany.1 hopen⟩
  · cases hfree : (s.core k).freeBin with
    | some n =>
      refine .inr (.inl ⟨n, ?_⟩)
      simp only [fileThread, State.modThread_core_at, hopen, hfree]
      rfl
    | none =>
      refine .inr (.inr ⟨?_, not_or.2 ⟨mt hany.2 hopen, by simp [hfree]⟩⟩)
      simp only [fileThread, State.modThread_core_at, hopen, hfree]
      rfl

theorem core_binned (h : HasCore s k) (x : Nat × Nat) (bs : List Bin) :
    HasCore (binned k coh pc x bs s) k ∧ (binned k coh pc x bs s).core k = { s.core k with bins := bs } := by
  have hc : (setSt coh [x] .binned (sendAll coh (fun _ => pc) [x] s)).cores = s.cores := by simp
  refine ⟨HasCore.modCore (HasCore.congr h hc) _, (core_modCore_self (HasCore.congr h hc) _).trans ?_⟩
  rw [core_congr hc]

/-- The core where one more thread has been filed, or parked. -/
theorem core_fileThread (h : HasCore s k) (coh : Nat) (pc : W32) (x : Nat × Nat) :
    HasCore (fileThread k coh pc x s) k ∧
    (((fileThread k coh pc x s).core k = { s.core k with bins := (s.core k).bins.map (addTo coh pc x) } ∧
      ∃ b ∈ (s.core k).bins, b.coh = coh ∧ b.pc = pc) ∨
    (∃ n, (fileThread k coh pc x s).core k =
      { s.core k with bins := (s.core k).bins ++ [{ num := n, coh, pc, ths := [x] }] }) ∨
    ((fileThread k coh pc x s).core k = { s.core k with parked := (s.core k).parked ++ [(coh, x.1, x.2)] } ∧
      ¬ BinRoom k coh pc s)) := by
  rcases fileThread_cases k coh pc x s with ⟨ht, hopen⟩ | ⟨n, ht⟩ | ⟨ht, hfull⟩ <;> rw [ht]
  · exact ⟨(core_binned h ..).1, .inl ⟨(core_binned h ..).2, hopen⟩⟩
  · exact ⟨(core_binned h ..).1, .inr (.inl ⟨n, (core_binned h ..).2⟩)⟩
  · have hc : (setSt coh [x] .parked (sendAll coh (fun _ => pc) [x] s)).cores = s.cores := by simp
    have hp := (core_modCore_self (HasCore.congr h hc) fun c => { c with parked := c.parked ++ [(coh, x.1, x.2)] })
    rw [core_congr hc] at hp
    exact ⟨HasCore.modCore (HasCore.congr h hc) _, .inr (.inr ⟨hp, hfull⟩)⟩

/-- Filing keeps the slots and the entries of the core. -/
theorem table_fileThread (h : HasCore s k) (coh : Nat) (pc : W32) (x : Nat × Nat) :
    ((fileThread k coh pc x s).core k).slots = (s.core k).slots ∧
      ((fileThread k coh pc x s).core k).entries = (s.core k).entries := by
  rcases (core_fileThread h coh pc x).2 with ⟨hc, -⟩ | ⟨n, hc⟩ | ⟨hc, -⟩ <;> rw [hc] <;> exact ⟨rfl, rfl⟩

theorem InBin.fileThread {y : Nat × Nat} (hy : InBin k coh pc y s) (h : HasCore s k) (x : Nat × Nat) :
    InBin k coh pc y (fileThread k coh pc x s) := by
  obtain ⟨b, hb, hcoh, hpc, hm⟩ := hy
  rcases (core_fileThread h coh pc x).2 with ⟨hc, -⟩ | ⟨n, hc⟩ | ⟨hc, -⟩ <;> rw [InBin, hc]
  · obtain ⟨h1, h2, h3⟩ := addTo_names coh pc x b
    exact ⟨_, List.mem_map_of_mem hb, h1.trans hcoh, h2.trans hpc, h3 y hm⟩
  · exact ⟨b, List.mem_append_left _ hb, hcoh, hpc, hm⟩
  · exact ⟨b, hb, hcoh, hpc, hm⟩

/-- R97: with room, a thread is filed in the bin of its cohort and PC. -/
theorem inBin_fileThread (h : HasCore s k) (hroom : BinRoom k coh pc s) (x : Nat × Nat) :
    InBin k coh pc x (fileThread k coh pc x s) := by
  rcases (core_fileThread h coh pc x).2 with ⟨hc, b, hb, hcoh, hpc⟩ | ⟨n, hc⟩ | ⟨-, hnone⟩
  · obtain ⟨h1, h2, -⟩ := addTo_names coh pc x b
    rw [InBin, hc]
    exact ⟨_, List.mem_map_of_mem hb, h1.trans hcoh, h2.trans hpc, mem_addTo hcoh hpc x⟩
  · rw [InBin, hc]
    exact ⟨_, List.mem_append_right _ (List.mem_singleton_self _), rfl, rfl, List.mem_singleton_self _⟩
  · exact absurd hroom hnone

theorem fileAll_keeps (h : HasCore s k) (coh : Nat) (pc : W32) (ths : List (Nat × Nat)) :
    let t := forEach ths (fileThread k coh pc) s
    HasCore t k ∧ (t.core k).slots = (s.core k).slots ∧ (t.core k).entries = (s.core k).entries ∧
      ∀ y, InBin k coh pc y s → InBin k coh pc y t := by
  induction ths generalizing s with
  | nil => exact ⟨h, rfl, rfl, fun _ hy => hy⟩
  | cons x r ih =>
    obtain ⟨hslots, hentries⟩ := table_fileThread h coh pc x
    obtain ⟨h1, h2, h3, h4⟩ := ih (core_fileThread h coh pc x).1
    exact ⟨h1, h2.trans hslots, h3.trans hentries, fun y hy => h4 y (hy.fileThread h x)⟩

/-- R97, R120: with room, threads are all filed in the bin of their cohort and PC. -/
theorem fileAll_files (h : HasCore s k) (hroom : BinRoom k coh pc s) (ths : List (Nat × Nat)) :
    ∀ x ∈ ths, InBin k coh pc x (forEach ths (fileThread k coh pc) s) := by
  induction ths generalizing s with
  | nil => simp
  | cons a r ih =>
    have ha := inBin_fileThread h hroom a
    have hk := (core_fileThread h coh pc a).1
    intro x hx
    rcases List.mem_cons.1 hx with rfl | hx
    · exact (fileAll_keeps hk coh pc r).2.2.2 x ha
    · exact ih hk ha.room x hx

/-! ### PCs and registers -/

/-- Filing sends a thread to the PC, and changes no other. -/
theorem samePc_fileThread (k coh : Nat) (pc : W32) (x : Nat × Nat) (s : State) :
    SamePc (sendAll coh (fun _ => pc) [x] s) (fileThread k coh pc x s) := by
  rcases fileThread_cases k coh pc x s with ⟨ht, -⟩ | ⟨n, ht⟩ | ⟨ht, -⟩ <;> rw [ht]
  · exact SamePc.modCore (samePc_setSt _ _ _ _)
  · exact SamePc.modCore (samePc_setSt _ _ _ _)
  · exact samePc_park _ _ _ _

theorem same_sendAll (coh : Nat) (next : Nat × Nat → W32) (ths : List (Nat × Nat)) (s : State) :
    Same s (sendAll coh next ths s) :=
  same_forEach ths _ (fun _ s => by exact same_modThread s _ _ _ _ fun _ => rfl) s

theorem same_fileThread (k coh : Nat) (pc : W32) (x : Nat × Nat) (s : State) : Same s (fileThread k coh pc x s) := by
  have hsend := same_sendAll coh (fun _ => pc) [x] s
  have hbin : ∀ bs, Same s (binned k coh pc x bs s) := fun bs =>
    Same.modCore (hsend.trans (same_setSt ..)) (f := fun c => { c with bins := bs }) fun _ => rfl
  rcases fileThread_cases k coh pc x s with ⟨ht, -⟩ | ⟨n, ht⟩ | ⟨ht, -⟩ <;> rw [ht]
  · exact hbin _
  · exact hbin _
  · exact hsend.trans (same_park ..)

theorem pc_fileAll (k coh : Nat) (pc : W32) (ths : List (Nat × Nat)) (s : State) (x : Nat × Nat)
    (hx : HasThread s coh x.1 x.2) :
    ((forEach ths (fileThread k coh pc) s).thread coh x.1 x.2).pc =
      if x ∈ ths then pc else (s.thread coh x.1 x.2).pc := by
  induction ths generalizing s with
  | nil => rfl
  | cons a r ih =>
    have hone : ((fileThread k coh pc a s).thread coh x.1 x.2).pc = if x = a then pc else (s.thread coh x.1 x.2).pc := by
      have hs := pc_sendAll coh (fun _ => pc) [a] s x hx
      simp only [List.mem_singleton] at hs
      exact (samePc_fileThread k coh pc a s _ _ _).trans hs
    refine (ih _ (((same_fileThread k coh pc a s).hasThread ..).2 hx)).trans ?_
    by_cases hr : x ∈ r
    · simp [hr]
    · simp [hr, hone]

end

/-! ### The parts a REFORM leaves -/

/-- The threads that a REFORM does not file. -/
def others (c : Iss) (on : List (Nat × Nat)) : List (Nat × Nat) := c.ths.filter fun x => !on.contains x

/-- A REFORM before what remains of its group is placed: the run has ended, the threads are filed or go on (R120). -/
def reformed (c : Iss) (on : List (Nat × Nat)) (s : State) : State :=
  sendAll c.coh (fun _ => c.pc + 1) (others c on)
    (forEach on (fileThread c.core c.coh (c.pc + 1)) (noteHang c (endRun c s)))

/-- What remains of the group after a REFORM. -/
def remains (c : Iss) (on : List (Nat × Nat)) : List Group :=
  if (others c on).isEmpty then [] else [{ coh := c.coh, pc := c.pc + 1, ths := others c on }]

theorem reform_eq {f : Fields} {c : Iss} {s : State} (h : Ready (.reform f) f c s) :
    exec (.reform f) s =
      .next (placeParts c.core c.ent (remains c (c.on f s)) (reformed c (c.on f s) (useWindows c s))) :=
  exec_pass (show exec (.reform f) s = execReform f s from rfl) h rfl rfl

section
variable {c : Iss} {s : State} {on : List (Nat × Nat)}

theorem same_reformed (c : Iss) (on : List (Nat × Nat)) (s : State) : Same s (reformed c on s) :=
  ((same_endRun c s).trans (same_noteHang ..)).trans
    ((same_forEach on _ (fun x s => same_fileThread _ _ _ x s) _).trans (same_sendAll ..))

theorem pc_reformed (c : Iss) (on : List (Nat × Nat)) (s : State) : Advanced c s (reformed c on s) := by
  intro x hx ht
  have h1 : Same s (noteHang c (endRun c s)) := (same_endRun c s).trans (same_noteHang ..)
  have h2 := h1.trans (same_forEach on _ (fun x s => same_fileThread c.core c.coh (c.pc + 1) x s) _)
  refine (pc_sendAll c.coh (fun _ => c.pc + 1) (others c on) _ x ((h2.hasThread ..).2 ht)).trans ?_
  by_cases hon : x ∈ on
  · rw [pc_fileAll _ _ _ _ _ _ ((h1.hasThread ..).2 ht), if_pos hon, ite_self]
  · rw [if_pos (by simp [others, hx, hon])]

/-- The core where a REFORM has ended its run: the slot is empty, and with room the threads are in their bin. -/
theorem core_reformed (h : HasCore s c.core) (on : List (Nat × Nat)) :
    HasCore (reformed c on s) c.core ∧ ((reformed c on s).core c.core).slots.getD c.slot none = none ∧
      (BinRoom c.core c.coh (c.pc + 1) s → ∀ x ∈ on, InBin c.core c.coh (c.pc + 1) x (reformed c on s)) := by
  have h0 : HasCore (noteHang c (endRun c s)) c.core := HasCore.congr (HasCore.endRun h) (cores_noteHang ..)
  have hc : (noteHang c (endRun c s)).core c.core = ended c (s.core c.core) :=
    (core_congr (cores_noteHang ..) _).trans (core_endRun h)
  obtain ⟨h1, hslots, -, -⟩ := fileAll_keeps h0 c.coh (c.pc + 1) on
  have hsend := cores_sendAll c.coh (fun _ => c.pc + 1) (others c on)
    (forEach on (fileThread c.core c.coh (c.pc + 1)) (noteHang c (endRun c s)))
  refine ⟨HasCore.congr h1 hsend, ?_, fun hroom x hx => ?_⟩
  · rw [reformed, core_congr hsend, hslots, hc]
    exact slot_ended ..
  · have hfiled := fileAll_files h0 (by rw [BinRoom, hc]; exact hroom) on x hx
    rwa [reformed, InBin, core_congr hsend]

end

/-! ### What remains is placed -/

section
variable {s : State}

/-- Forming a group of parked threads changes the parked threads and the entries of a core alone. -/
theorem core_formParked_proj {β : Type} (φ : Core → β) (hp : ∀ c ps, φ { c with parked := ps } = φ c)
    (he : ∀ c es, φ { c with entries := es } = φ c) (k e : Nat) (s : State) :
    φ ((formParked k e s).core k) = φ (s.core k) := by
  unfold formParked
  split
  · rfl
  · refine (State.core_modCore_proj _ φ k k _ fun c => he c _).trans ?_
    rw [core_congr (cores_setSt ..)]
    exact State.core_modCore_proj s φ k k _ fun c => hp c _

/-- Placing what remains of a group changes no bin. -/
theorem bins_placeParts_remains (c : Iss) (on : List (Nat × Nat)) (s : State) :
    ((placeParts c.core c.ent (remains c on) s).core c.core).bins = (s.core c.core).bins := by
  unfold remains
  split
  · exact (core_formParked_proj Core.bins (fun _ _ => rfl) (fun _ _ => rfl) ..).trans
      (State.core_modCore_proj s Core.bins _ _ _ fun _ => rfl)
  · exact (State.core_modCore_proj _ Core.bins _ _ (Core.keepEntry c.ent _) fun _ => rfl).trans
      (congrArg Core.bins (core_congr (cores_setSt ..) _))

/-- What a slot holds once an entry is freed: no longer that entry (04 R99). -/
def emptied (e : Nat) (x : Option Nat) : Option Nat := if x = some e then none else x

theorem emptied_none (e : Nat) : emptied e none = none := if_neg nofun

/-- A change that fills no empty slot reads, at each slot, as the change of what the slot held. -/
theorem getD_map_none {α : Type} {f : Option α → Option α} (hf : f none = none) (l : List (Option α)) (n : Nat) :
    (l.map f).getD n none = f (l.getD n none) := by
  rw [List.getD_eq_getElem?_getD, List.getD_eq_getElem?_getD, List.getElem?_map]
  cases l[n]? with
  | none => exact hf.symm
  | some x => rfl

/-- Placing what remains of a group fills no slot. -/
theorem slot_placeParts_remains (c : Iss) (on : List (Nat × Nat)) (h : HasCore s c.core)
    (hslot : (s.core c.core).slots.getD c.slot none = none) :
    ((placeParts c.core c.ent (remains c on) s).core c.core).slots.getD c.slot none = none := by
  let slot := fun x : Core => x.slots.getD c.slot none
  unfold remains
  split
  · refine (core_formParked_proj slot (fun _ _ => rfl) (fun _ _ => rfl) ..).trans ?_
    rw [core_modCore_self h]
    exact (getD_map_none (emptied_none c.ent) ..).trans ((congrArg (emptied c.ent) hslot).trans (emptied_none c.ent))
  · exact (State.core_modCore_proj _ slot _ _ (Core.keepEntry c.ent _) fun _ => rfl).trans
      ((congrArg slot (core_congr (cores_setSt ..) _)).trans hslot)

theorem entry_placeParts_remains {c : Iss} {on : List (Nat × Nat)} (h : HasCore s c.core) (hrest : others c on ≠ []) :
    InEntry c.core c.coh (c.pc + 1, others c on) (placeParts c.core c.ent (remains c on) s) c.ent := by
  have hput : placeParts c.core c.ent (remains c on) s =
      (setSt c.coh (others c on) .grouped s).modCore c.core
        (Core.keepEntry c.ent { coh := c.coh, pc := c.pc + 1, ths := others c on }) := by
    rw [remains, if_neg (by simpa using hrest)]
    rfl
  rw [hput, InEntry, core_modCore_self (HasCore.congr h (cores_setSt ..))]
  exact ⟨_, FMap.find_put_self .., rfl, rfl, rfl⟩

end

/-! ### The claims -/

theorem reform_ends {f : Fields} {c : Iss} {s : State} (h : Ready (.reform f) f c s) :
    ∃ t, exec (.reform f) s = .next t ∧ Advanced c s t ∧ RegFrame s t none4 none3 none4 none2 ∧
      (BinRoom c.core c.coh (c.pc + 1) s → ∀ x ∈ c.on f s, InBin c.core c.coh (c.pc + 1) x t) ∧
      (others c (c.on f s) ≠ [] → InEntry c.core c.coh (c.pc + 1, others c (c.on f s)) t c.ent) ∧
      (t.core c.core).slots.getD c.slot none = none := by
  have hs := same_useWindows c s
  obtain ⟨hk, hslot, hbin⟩ := core_reformed (s := useWindows c s) (inSlot_of_curIss h.group).hasCore (c.on f s)
  refine ⟨_, reform_eq h, fun x hx ht => ?_, ?_, fun hroom x hx => ?_, entry_placeParts_remains hk,
    slot_placeParts_remains c _ hk hslot⟩
  · exact (samePc_placeParts ..).trans (pc_reformed c _ _ x hx ((hs.hasThread ..).2 ht))
  · exact (hs.trans ((same_reformed ..).trans (same_placeParts ..))).regFrame ..
  · rw [InBin, bins_placeParts_remains]
    exact hbin hroom x hx

/-- The rounds a YIELD keeps its group out of arbitration (R123). -/
def yieldFor (f : Fields) (c : Iss) (s : State) : Option Nat :=
  if (c.on f s).isEmpty || f.immBits 15 0 = 0 then none else some (f.immBits 15 0)

/-- The group of an entry once it has backed off. -/
def backedOff (f : Fields) (c : Iss) (s : State) (g : Group) : Group :=
  { g with backoff := yieldFor f c s, yielded := (yieldFor f c s).isSome }

theorem yieldFor_isSome (f : Fields) (c : Iss) (s : State) :
    (yieldFor f c s).isSome = !((c.on f s).isEmpty || f.immBits 15 0 = 0) := by
  unfold yieldFor
  split <;> simp [*]

theorem yield_eq {f : Fields} {c : Iss} {s : State} (h : Ready (.yield f) f c s) :
    exec (.yield f) s = .next ((leaveNext c true (useWindows c s)).modCore c.core fun k =>
      { k with entries := k.entries.modify c.ent (backedOff f c s) }) :=
  exec_pass (show exec (.yield f) s = execYield f s from rfl) h rfl rfl

theorem yield_ends {f : Fields} {c : Iss} {s : State} (h : Ready (.yield f) f c s) :
    ∃ t, exec (.yield f) s = .next t ∧ Advanced c s t ∧ RegFrame s t none4 none3 none4 none2 ∧
      (c.ths ≠ [] → (∃ g, FMap.find (t.core c.core).entries c.ent = some (backedOff f c s g)) ∧
        (t.core c.core).slots.getD c.slot none = none) := by
  have hs := same_useWindows c s
  refine ⟨_, yield_eq h, hs.advanced (advanced_leaveNext c true _), ?_, fun hne => ?_⟩
  · exact (Same.modCore (hs.trans (same_leaveNext ..))
      (f := fun k => { k with entries := k.entries.modify c.ent (backedOff f c s) }) fun _ => rfl).regFrame ..
  · obtain ⟨hfirst, -, hend⟩ := parted_leave (s := useWindows c s) (inSlot_of_curIss h.group) true (fun _ => c.pc + 1)
    obtain ⟨x, r, hths⟩ := List.exists_cons_of_ne_nil hne
    obtain ⟨g, hg, -⟩ := hfirst x (by rw [hths]; rfl)
    rw [leaveNext, core_modCore_self (hasCore_of_entry hg)]
    exact ⟨⟨g, (FMap.find_modify_self ..).trans (congrArg _ hg)⟩, (hend hne).1 (.inr rfl)⟩

theorem runEndings : Claims.RunEndings := fun f c s => by
  refine ⟨fun h => ?_, fun h => ?_⟩
  · obtain ⟨t, hn, ha, hf, hbin, hentry, hslot⟩ := reform_ends h
    refine ⟨t, hn, ha, hf, hbin, fun hrest => ?_, hslot⟩
    obtain ⟨g, hg, -, hpc, hths⟩ := hentry hrest
    exact ⟨g, hg, hpc, hths⟩
  · obtain ⟨t, hn, ha, hf, hend⟩ := yield_ends h
    refine ⟨t, hn, ha, hf, fun hne => ?_⟩
    obtain ⟨⟨g, hg⟩, hslot⟩ := hend hne
    rw [hg]
    exact ⟨rfl, congrArg some (yieldFor_isSome f c s), hslot⟩

/-- Settles O8, its two claims one by one. -/
theorem controlTransfers : Obligations.ControlTransfers := ⟨branchTargets, runEndings⟩

end Sys2Proof.Control

/-! ## Proofs of the system-instruction family: results written once per warp, or per thread under a vector DST -/

namespace Sys2Proof.WarpResult

open Sys2Proof.Machine Sys2Proof.Safety Sys2Proof.Laws

/-! ### Shapes of effects -/

section
variable {i : Instr} {f : Fields} {c : Iss} {s : State} {chk : Iss → State → Gate}

/-- One scalar per warp of the group, which may depend on the group itself. -/
def effWarp (f : Fields) (val : Iss → State → Nat → W64) (c : Iss) (s : State) : State :=
  perWarp c f s (fun w => State.writeS c.coh w f.dst.idx.toNat (val c s w)) s

/-- The kind of DST decides: one vector register per thread, or one scalar per warp (11 R218; 08 R171, R174). -/
def effByDst (f : Fields) (vec : Iss → State → Nat → Nat → W32) (sca : Iss → State → Nat → W64) (c : Iss) (s : State) :
    State :=
  if f.dst.kind = .vec then effV f (fun s _ w l => vec c s w l) c s else effWarp f sca c s

theorem writesS_effWarp {val : Iss → State → Nat → W64}
    (hx : exec i s = issue i f chk (fun c s => leaveNext c f.bnd (effWarp f val c s)) s)
    (hc : chk c s = .pass s) (h : Ready i f c s) (v : Nat → W64) (hv : ∀ w, val c (useWindows c s) w = v w) :
    WritesS i f c s v := by
  refine writesS_of hx hc h v ?_
  rw [effWarp, show val c (useWindows c s) = v from funext hv]

section
variable {vec : Iss → State → Nat → Nat → W32} {sca : Iss → State → Nat → W64}

theorem writesV_effByDst (hx : exec i s = issue i f chk (fun c s => leaveNext c f.bnd (effByDst f vec sca c s)) s)
    (hc : chk c s = .pass s) (h : Ready i f c s) (hd : f.dst.kind = .vec) :
    WritesV i f c s (vec c (useWindows c s)) := by
  have he : effByDst f vec sca = fun c s => effV f (fun s _ w l => vec c s w l) c s :=
    funext fun c => funext fun s => if_pos hd
  rw [he] at hx
  exact writesV_of (val := fun c s _ w l => vec c s w l) hx hc h _ fun _ _ => rfl

theorem writesS_effByDst (hx : exec i s = issue i f chk (fun c s => leaveNext c f.bnd (effByDst f vec sca c s)) s)
    (hc : chk c s = .pass s) (h : Ready i f c s) (hd : f.dst.kind ≠ .vec) :
    WritesS i f c s (sca c (useWindows c s)) := by
  have he : effByDst f vec sca = effWarp f sca := funext fun c => funext fun s => if_neg hd
  rw [he] at hx
  exact writesS_effWarp hx hc h _ fun _ => rfl

end

/-! ### Checks that pass, and what a passing window leaves -/

/-- No thread reads a marked register of another lane: the check passes (02 R42). -/
theorem laneMarks_pass {lanes : State → Nat → Nat → List Nat}
    (h : ∀ x ∈ c.on f s, markOf (s.warp c.coh x.1) f.sa.idx.toNat (lanes s x.1 x.2) = none) :
    laneMarks f lanes c s = .pass s := by
  rw [laneMarks, List.findSome?_eq_none_iff.mpr h]

/-- A read of an assigned system register passes the checks of its index (08 R171). -/
theorem sysIdxCheck_read (h : sysAssigned (sysIdx f) = true) : sysIdxCheck false f c s = .pass s := by
  simp [sysIdxCheck, h]

/-- The lookahead windows are no part of what is pending (02 R40, R41). -/
theorem pendingS_useWindows (k w reg : Nat) : pendingS (useWindows c s) k w reg = pendingS s k w reg := by
  simp only [pendingS, State.opsOf, useWindows, FMap.mapVals, List.any_filter, List.any_map]
  congr 2
  funext e
  simp only [Function.comp_apply]
  split <;> rfl

/-- The three modes of VOTE: .ANY, .ALL and .BALLOT (11 R216). -/
theorem voteResult_eq (c : Iss) (f : Fields) (s : State) (w : Nat) :
    voteResult c f s w =
      let vs := c.lanesOn f s w
      let p := fun (l : Nat) => s.srcP c.coh w l f.sa
      if f.modn = 0 then (if vs.any p then 1 else 0)
      else if f.modn = 1 then (if vs.all p then 1 else 0)
      else (laneMask (vs.filter p)).setWidth 64 := by
  unfold voteResult
  split
  · next h => simp only [h, if_true]
  · next h => simp only [h, if_true, Nat.one_ne_zero, if_false]
  · next h0 h1 => rw [if_neg h0, if_neg h1]

/-! ### The instructions -/

theorem vote_writes (h : Ready (.vote f) f c s) : WritesS (.vote f) f c s (voteResult c f s) :=
  writesS_effWarp (chk := noCheck) (val := (voteResult · f)) rfl rfl h _ fun _ => rfl

/-- What RDL delivers to a warp: one lane of a vector register, zero- or sign-extended (11 R214). -/
def rdlResult (f : Fields) (c : Iss) (s : State) (w : Nat) : W64 :=
  let v := (s.warp c.coh w).readV f.sa.idx.toNat (rdlLane f s c.coh w)
  if f.modn = 0 then v.setWidth 64 else v.signExtend 64

theorem rdl_writes (h : Ready (.rdl f) f c s)
    (hm : ∀ x ∈ c.on f s, markOf (s.warp c.coh x.1) f.sa.idx.toNat [rdlLane f s c.coh x.1] = none) :
    WritesS (.rdl f) f c s (rdlResult f c s) :=
  writesS_effWarp (chk := fun c => laneMarks f (fun s w _ => [rdlLane f s c.coh w]) c) (val := rdlResult f)
    rfl (laneMarks_pass hm) h _ fun _ => rfl

theorem ftest_writes (h : Ready (.ftest f) f c s) :
    WritesS (.ftest f) f c s fun w => if pendingS s c.coh w f.sa.idx.toNat then 0 else 1 :=
  writesS_effWarp (chk := noCheck) (val := fun c s w => if pendingS s c.coh w f.sa.idx.toNat then 0 else 1)
    rfl rfl h _ fun w => by rw [pendingS_useWindows]

theorem exec_rdsp (f : Fields) (s : State) : exec (.rdsp f) s = issue (.rdsp f) f noCheck (fun c s => leaveNext c f.bnd
    (effByDst f (fun c s w l => BitVec.ofNat 32 (specialReg s c.core c.coh w l f.sa.idx.toNat))
      (fun c s w => BitVec.ofNat 64 (specialReg s c.core c.coh w ((c.lanesOn f s w).head?.getD 0) f.sa.idx.toNat)) c s)) s :=
  rfl

theorem exec_rdcyc (f : Fields) (s : State) : exec (.rdcyc f) s = issue (.rdcyc f) f noCheck (fun c s => leaveNext c f.bnd
    (effByDst f (fun c s _ _ => (BitVec.ofNat 64 (s.core c.core).cycle).setWidth 32)
      (fun c s _ => BitVec.ofNat 64 (s.core c.core).cycle) c s)) s := rfl

/-- The checks of RDSR: its index, and for FPFLAGS the outstanding long instructions (08 R171, R172). -/
def rdsrCheck (f : Fields) (c : Iss) (s : State) : Gate :=
  (sysIdxCheck false f c s).andThen fun s => if flagsReady f c s then .pass s else .hold s

theorem rdsrCheck_pass (ha : sysAssigned (sysIdx f) = true) (hr : flagsReady f c s = true) :
    rdsrCheck f c s = .pass s := by
  rw [rdsrCheck, sysIdxCheck_read ha]
  exact if_pos hr

theorem exec_rdsr (f : Fields) (s : State) : exec (.rdsr f) s = issue (.rdsr f) f (rdsrCheck f) (fun c s => leaveNext c f.bnd
    (effByDst f (fun c s w _ => (sysRead s c w (sysIdx f)).setWidth 32) (fun c s w => sysRead s c w (sysIdx f)) c s)) s := rfl

end

/-- Settles O6, instruction by instruction: each has one of the two shapes of effect, and what it reads is not what the
lookahead windows change. %nstage of a node cohort, one of the special registers, is the model's choice (log 82). -/
theorem warpResults : Obligations.WarpResults := fun f c s => by
  refine ⟨fun h => ?_, rdl_writes, ftest_writes, fun h hd => ?_, fun h hd => ?_, fun h hd => ?_, fun h hd => ?_,
    fun h ha hr hd => ?_, fun h ha hr hd => ?_⟩
  · exact funext (voteResult_eq c f s) ▸ vote_writes h
  · exact writesV_effByDst (exec_rdsp f s) rfl h hd
  · exact writesS_effByDst (exec_rdsp f s) rfl h hd
  · exact writesV_effByDst (exec_rdcyc f s) rfl h hd
  · exact writesS_effByDst (exec_rdcyc f s) rfl h hd
  · exact writesV_effByDst (exec_rdsr f s) (rdsrCheck_pass ha hr) h hd
  · exact writesS_effByDst (exec_rdsr f s) (rdsrCheck_pass ha hr) h hd

end Sys2Proof.WarpResult

/-! ## Proofs of the matrix family: a refused joint drain whose trap ends its own cohort -/

namespace Sys2Proof.MatrixRefusal

open Sys2Proof.Machine Sys2Proof.Safety

/-- A share of a joint MMDRAIN into v254 to v257, which overruns every allocation (20 R387). -/
def overrunShare (pc : W32) : Op :=
  { kind := .mat (.drain 0 0 1 false 254 true), coh := 1, warp := 0, core := 0, ths := [(0, 0)], pc, busy := false }

/-- The one warp of the joint set has issued two such drains from its trap handler, at PCs 7 and 8, and its handler still runs:
both commands have all their shares, and the unit's queue has room for the first. -/
def handlerShares : State :=
  { cores := [(0, {
      entries := [(0, { coh := 1, pc := 9, ths := [(0, 0)] })]
      mx := { owner := some 1, cfg := { joint := [0], shares := [(0, [(0, 0, 7)]), (1, [(0, 1, 8)])] } } })]
    cohorts := [(1, { warps := [{
      alloc := 256, mshare := 2, threads := [{ pc := 9 }], trapq := [{ code := 2 }], handler := true, hleft := 1 }] })]
    ops := [(0, overrunShare 7), (1, overrunShare 8)], nextOp := 2
    ctxs := [(0, { st := .active })], fns := [(0, {})] }

/-- The first drain is refused with DETAIL 10, and the trap reaches the handler's own thread, which is a context fault (07 R133).
The context's cohorts end with it, and the unit loses its owner and every share, that of the second command too (19 R353). -/
theorem enterFirst_handlerShares :
    drainRefused handlerShares 1 [0] 1 254 = some 10 ∧ ((enterFirst 0 handlerShares).ctx 0).st = .faulted
      ∧ (enterFirst 0 handlerShares).cohorts = [] ∧ (enterFirst 0 handlerShares).mx 0 = {} := by decide

/-- What `Claims.JointCommands` says of the shares when the first joint command enters or is refused: the others stay. It asks
nothing of the warps there. -/
theorem shares_of_jointCommands (h : Claims.JointCommands) {s : State} {core coh n : Nat} {y : Nat × Nat × W32}
    {rest : List (Nat × List (Nat × Nat × W32))} {o : Op} {cmd : MatCmd} (hcore : (FMap.find s.cores core).isSome = true)
    (howner : (s.mx core).owner = some coh) (hshares : (s.mx core).cfg.shares = (n, [y]) :: rest)
    (hfull : sharesFull (s.mx core).cfg [y] = true) (hroom : (s.mx core).room = true)
    (ho : FMap.find s.ops y.2.1 = some o) (hk : o.kind = .mat cmd) : ((enterFirst core s).mx core).cfg.shares = rest := by
  obtain ⟨-, -, -, hfirst, -⟩ := h core s hcore
  obtain ⟨hrest, -⟩ := hfirst coh n [y] rest y [] o cmd howner hshares hfull hroom rfl (List.pairwise_singleton _ _) ho hk
  exact hrest

/-- Refutes O33, by its third claim, which keeps the later commands' shares at every refusal, also at one whose trap is a context
fault. From `handlerShares` the first command is refused, the fault takes the owner off the unit, and
the second command's share is gone too. -/
theorem not_matrixSequence : ¬ Obligations.MatrixSequence := by
  rintro ⟨-, -, hjoint⟩
  have hrest : ((enterFirst 0 handlerShares).mx 0).cfg.shares = [(1, [(0, 1, 8)])] :=
    shares_of_jointCommands hjoint (o := overrunShare 7) (by decide) rfl rfl (by decide) (by decide) rfl rfl
  obtain ⟨-, -, -, hdropped⟩ := enterFirst_handlerShares
  rw [hdropped] at hrest
  exact absurd hrest (by decide)

end Sys2Proof.MatrixRefusal

/-! ## Proofs of the integer and lane family, part 1: one result per warp, per thread or per predicate -/

namespace Sys2Proof.IntegerLane

open Sys2Proof.Machine Sys2Proof.Safety Sys2Proof.Laws

/-! ### Shapes of operands (11 R197, R204) -/

section
variable {i : Instr} {f : Fields} {c : Iss} {s : State}

/-- Two scalar sources read as the type, an exact result, wrapped or saturated. -/
theorem writesS_scalar2 (op : Int → Int → Int) (hx : exec i s = issueFixed i f (effS f (scalar2 f op)) s)
    (h : Ready i f c s) : WritesS i f c s fun w => BitVec.ofInt 64 (fitTy f.modn f.sat
      (op (s.srcT c.coh w f.modn f.sa) (s.srcT c.coh w f.modn f.sb))) :=
  writesS_fixed hx h _ fun _ => rfl

/-- Two scalar sources as patterns of the type's width. -/
theorem writesS_scalarBits (op : Nat → Nat → Nat) (hx : exec i s = issueFixed i f (effS f (scalarBits f op)) s)
    (h : Ready i f c s) : WritesS i f c s fun w => BitVec.ofInt 64 (asTy f.modn
      (op ((s.srcS c.coh w f.sa).toNat % 2 ^ tyWidth f.modn) ((s.srcS c.coh w f.sb).toNat % 2 ^ tyWidth f.modn))) :=
  writesS_fixed hx h _ fun _ => rfl

/-- One scalar source as a pattern of the type's width. -/
theorem writesS_scalarBits1 (op : Nat → Nat) (hx : exec i s = issueFixed i f (effS f (scalarBits1 f op)) s)
    (h : Ready i f c s) : WritesS i f c s fun w => BitVec.ofInt 64 (asTy f.modn
      (op ((s.srcS c.coh w f.sa).toNat % 2 ^ tyWidth f.modn))) :=
  writesS_fixed hx h _ fun _ => rfl

/-- Two vector sources read as the type, an exact result, wrapped or saturated. -/
theorem writesV_int2 (op : Int → Int → Int) (hx : exec i s = issueFixed i f (effV f (int2 f op)) s)
    (h : Ready i f c s) : WritesV i f c s fun w l => BitVec.ofInt 32 (fitTy f.modn f.sat
      (op (s.srcI c.coh w l f.modn f.sa) (s.srcI c.coh w l f.modn f.sb))) :=
  writesV_fixed hx h _ fun _ _ => rfl

/-- One vector source read as the type, an exact result, wrapped or saturated. -/
theorem writesV_int1 (op : Int → Int) (hx : exec i s = issueFixed i f (effV f (int1 f op)) s)
    (h : Ready i f c s) : WritesV i f c s fun w l => BitVec.ofInt 32 (fitTy f.modn f.sat
      (op (s.srcI c.coh w l f.modn f.sa))) :=
  writesV_fixed hx h _ fun _ _ => rfl

/-- Two vector sources as 32-bit patterns. -/
theorem writesV_intBits (op : Nat → Nat → Nat) (hx : exec i s = issueFixed i f (effV f (intBits f op)) s)
    (h : Ready i f c s) : WritesV i f c s fun w l =>
      BitVec.ofNat 32 (op (s.srcN c.coh w l f.sa) (s.srcN c.coh w l f.sb)) :=
  writesV_fixed hx h _ fun _ _ => rfl

/-- One vector source as a 32-bit pattern. -/
theorem writesV_intBits1 (op : Nat → Nat) (hx : exec i s = issueFixed i f (effV f (intBits1 f op)) s)
    (h : Ready i f c s) : WritesV i f c s fun w l => BitVec.ofNat 32 (op (s.srcN c.coh w l f.sa)) :=
  writesV_fixed hx h _ fun _ _ => rfl

end

/-! ### Scalar and vector integer instructions -/

/-- Settles O1: each instruction has one of the three shapes of scalar operands, or a value of its own. -/
theorem scalarResults : Obligations.ScalarResults := fun f c s => by
  refine ⟨writesS_scalar2 (· + ·) rfl, writesS_scalar2 (· - ·) rfl, writesS_scalar2 (· * ·) rfl,
    writesS_scalar2 (fun a b => (a * b).fdiv (2 ^ tyWidth f.modn)) rfl,
    writesS_scalarBits (· &&& ·) rfl, writesS_scalarBits (· ||| ·) rfl, writesS_scalarBits (· ^^^ ·) rfl,
    fun h => ?sshl, fun h => ?sshr, writesS_scalar2 min rfl, writesS_scalar2 max rfl, fun h => ?ssel,
    writesS_scalarBits1 id rfl, fun h => ?smovi, writesS_scalarBits1 (clz (tyWidth f.modn)) rfl,
    writesS_scalarBits1 (popcount · 64) rfl, fun h => ?saddr⟩
  case sshl | sshr | ssel | smovi | saddr => exact writesS_fixed rfl h _ fun _ => rfl

/-- Settles O2: each instruction has one of the four shapes of vector operands, or a value of its own. -/
theorem vectorIntegerResults : Obligations.VectorIntegerResults := fun f c s => by
  refine ⟨writesV_int2 (· + ·) rfl, writesV_int2 (· - ·) rfl,
    writesV_int2 (fun a b => if f.opt = 0 then a * b else (a * b).fdiv (2 ^ 32)) rfl, fun h => ?imad,
    writesV_int2 min rfl, writesV_int2 max rfl, writesV_int1 (fun a => a.natAbs) rfl, writesV_int1 (- ·) rfl,
    writesV_intBits (· &&& ·) rfl, writesV_intBits (· ||| ·) rfl, writesV_intBits (· ^^^ ·) rfl, fun h => ?inot,
    fun h => ?ishl, fun h => ?ishr, writesV_intBits rotl32 rfl, fun h => ?isel, writesV_intBits1 (popcount · 32) rfl,
    writesV_intBits1 (clz 32) rfl, writesV_intBits (bitExtract f.modn) rfl, fun h => ?ibfi, fun h => ?idot4⟩
  case imad | inot | ishl | ishr | isel | ibfi | idot4 => exact writesV_fixed rfl h _ fun _ _ => rfl

/-! ### Moves, permutations, classifications, compares and predicate logic -/

section
variable {f : Fields} {c : Iss} {s : State}

/-- SHFL: no thread reads a marked lane, so its check passes, and each thread gets the register of the lane it reads
(11 R215). -/
theorem shfl_writes (h : Ready (.shfl f) f c s)
    (hm : ∀ x ∈ c.on f s, markOf (s.warp c.coh x.1) f.sa.idx.toNat [shflFrom f s c.coh x.1 x.2] = none) :
    WritesV (.shfl f) f c s fun w l => (s.warp c.coh w).readV f.sa.idx.toNat (shflFrom f s c.coh w l) :=
  writesV_of (chk := fun c => laneMarks f (fun s w l => [shflFrom f s c.coh w l]) c)
    (val := fun _ s k w l => (s.warp k w).readV f.sa.idx.toNat (shflFrom f s k w l))
    rfl (WarpResult.laneMarks_pass hm) h _ fun _ _ => rfl

/-- MATCH: a thread gets the lanes of its warp in the group that hold the same value (11 R216). -/
theorem matchv_writes (h : Ready (.matchv f) f c s) : WritesV (.matchv f) f c s fun w l =>
    laneMask ((c.lanesOn f s w).filter fun m => s.srcV c.coh w m f.sa = s.srcV c.coh w l f.sa) :=
  writesV_of (chk := noCheck)
    (val := fun c s k w l => laneMask ((c.lanesOn f s w).filter fun m => s.srcV k w m f.sa = s.srcV k w l f.sa))
    rfl rfl h _ fun _ _ => rfl

end

theorem moveResults : Claims.MoveResults := fun f c s => by
  refine ⟨fun h => ?mov, fun h => ?movi, fun h => ?movs, fun h => ?p2v, matchv_writes, shfl_writes, fun h => ?prmb,
    fun h => ?fclass, fun h => ?sclx⟩
  case mov | movi | movs | p2v | prmb | fclass | sclx => exact writesV_fixed rfl h _ fun _ _ => rfl

theorem predicateResults : Claims.PredicateResults := fun f c s => by
  refine ⟨fun h => ?scmp, fun h => ?icmp, fun h => ?v2p, fun h => ?plop⟩
  case scmp => exact writesP_fixed (val := fun c s w _ =>
    condHolds f.opt (s.srcT c.coh w f.modn f.sa) (s.srcT c.coh w f.modn f.sb)) rfl h _ fun _ _ => rfl
  case icmp => exact writesP_fixed (val := fun c s w l =>
    condHolds f.opt (s.srcI c.coh w l f.modn f.sa) (s.srcI c.coh w l f.modn f.sb)) rfl h _ fun _ _ => rfl
  case v2p => exact writesP_fixed (val := fun c s w l => s.srcV c.coh w l f.sa ≠ 0) rfl h _ fun _ _ => rfl
  case plop => exact writesP_fixed (val := fun c s w l => f.imm.getLsbD ((s.srcP c.coh w l f.sa).toNat +
    2 * (s.srcP c.coh w l f.sb).toNat + 4 * ((s.thread c.coh w l).readP (f.immBits 10 8)).toNat)) rfl h _ fun _ _ => rfl

/-- Settles O3: moves write vector registers, compares and predicate instructions predicates. -/
theorem movesAndPredicates : Obligations.MovesAndPredicates := ⟨moveResults, predicateResults⟩

end Sys2Proof.IntegerLane

/-! ## Proofs of the integer and lane family, part 2: results of several registers per thread -/

namespace Sys2Proof.IntegerLane

open Sys2Proof.Machine Sys2Proof.Safety Sys2Proof.Laws

/-! ### One change per thread of the group -/

section
variable {i : Instr} {f : Fields} {c : Iss} {s : State}

/-- An instruction whose effect is one change `g` per guard-holding thread: it completes, and the issue machinery keeps
what the changes made together. -/
theorem completes_perThread {g : Iss → State → Nat × Nat → State → State} {v r p x}
    (hx : exec i s = issueFixed i f (fun c s => forEach (c.on f s) (g c s) s) s) (h : Ready i f c s)
    (hthreads : ∀ y u, SameThreads u (g c (useWindows c s) y u))
    (hframe : ∀ y ∈ c.on f s, ∀ u, RegFrame u (g c (useWindows c s) y u) v r p x) :
    ∃ t, exec i s = .next t ∧ Advanced c s t ∧
      Same (forEach (c.on f s) (g c (useWindows c s)) (useWindows c s)) t ∧ RegFrame s t v r p x :=
  ⟨_, hx.trans (issueFixed_ready h _),
    advanced_of (fun s => forEach (c.on f s) (g c s) s) (sameThreads_forEach _ _ hthreads _) f.bnd,
    same_leaveNext c f.bnd _,
    frame_of (fun s => forEach (c.on f s) (g c s) s) (regFrame_forEach _ _ hframe _) f.bnd⟩

end

/-- A place that only the change of one thread `x` writes holds what that change wrote, whatever the other threads' changes
do before and after it. -/
theorem read_forEach {β : Type} {P : State → Prop} {φ : State → β} {b : β} {x : Nat × Nat} {g : Nat × Nat → State → State}
    (hP : ∀ y u, P u → P (g y u)) (hself : ∀ u, P u → φ (g x u) = b) (hother : ∀ y, y ≠ x → ∀ u, φ (g y u) = φ u)
    {l : List (Nat × Nat)} (hx : x ∈ l) {u : State} (hu : P u) : φ (forEach l g u) = b := by
  have keeps : ∀ (l : List (Nat × Nat)) (u : State), P u → φ u = b → φ (forEach l g u) = b := by
    intro l
    induction l with
    | nil => exact fun _ _ hb => hb
    | cons y q ih =>
      intro u hu hb
      refine ih (g y u) (hP y u hu) ?_
      by_cases hy : y = x
      · exact hy ▸ hself u hu
      · rw [hother y hy, hb]
  induction l generalizing u with
  | nil => cases hx
  | cons y q ih =>
    by_cases hy : y = x
    · exact keeps q (g y u) (hP y u hu) (hy ▸ hself u hu)
    · exact ih (List.mem_of_ne_of_mem (Ne.symm hy) hx) (hP y u hu)

section
variable {k : Nat} {g : Nat × Nat → State → State}

/-- A vector register lane of a thread, where each change writes vector registers of its own thread only. -/
theorem readV_forEach {r : Nat} {Q : Nat → Prop} {b : W32} {x : Nat × Nat} (hthreads : ∀ y u, SameThreads u (g y u))
    (hsame : ∀ y u, SameV u (g y u) fun k' w r' l => k' = k ∧ (w, l) ∈ [y] ∧ Q r')
    (hself : ∀ u, HasWarp u k x.1 → ((g x u).warp k x.1).readV r x.2 = b)
    {l : List (Nat × Nat)} (hx : x ∈ l) {u : State} (hw : HasWarp u k x.1) :
    ((forEach l g u).warp k x.1).readV r x.2 = b :=
  read_forEach (P := fun u => HasWarp u k x.1) (φ := fun u => (u.warp k x.1).readV r x.2)
    (fun y u => ((hthreads y u).hasWarp k x.1).2) hself
    (fun y hy u => hsame y u k x.1 r x.2 fun ⟨_, hxy, _⟩ => hy (List.mem_singleton.1 hxy).symm) hx hw

/-- A predicate of a thread, where each change writes predicates of its own thread only. -/
theorem readP_forEach {p : Nat} {Q : Nat → Prop} {b : Bool} {x : Nat × Nat} (hthreads : ∀ y u, SameThreads u (g y u))
    (hsame : ∀ y u, SameP u (g y u) fun k' w l p' => k' = k ∧ (w, l) ∈ [y] ∧ Q p') (hp : p < 8)
    (hself : ∀ u, HasThread u k x.1 x.2 → ((g x u).thread k x.1 x.2).readP p = b)
    {l : List (Nat × Nat)} (hx : x ∈ l) {u : State} (ht : HasThread u k x.1 x.2) :
    ((forEach l g u).thread k x.1 x.2).readP p = b :=
  read_forEach (P := fun u => HasThread u k x.1 x.2) (φ := fun u => (u.thread k x.1 x.2).readP p)
    (fun y u => ((hthreads y u).hasThread k x.1 x.2).2) hself
    (fun y hy u => hsame y u k x.1 x.2 p hp fun ⟨_, hxy, _⟩ => hy (List.mem_singleton.1 hxy).symm) hx ht

/-- Flags that each thread's change raises for its warp add up in the warp, in the order of the threads. -/
theorem flags_forEach {w : Nat} {v : Nat × Nat → BitVec 5} (hthreads : ∀ y u, SameThreads u (g y u))
    (hflags : ∀ y u, HasWarp u k w → ((g y u).warp k w).fpflags =
      if w = y.1 then (u.warp k w).fpflags ||| v y else (u.warp k w).fpflags)
    (l : List (Nat × Nat)) {u : State} (hw : HasWarp u k w) : ((forEach l g u).warp k w).fpflags =
      (l.filter fun y => y.1 = w).foldl (fun a y => a ||| v y) (u.warp k w).fpflags := by
  induction l generalizing u with
  | nil => rfl
  | cons y q ih =>
    refine (ih (((hthreads y u).hasWarp k w).2 hw)).trans ?_
    rw [hflags y u hw]
    by_cases hy : y.1 = w
    · simp [hy]
    · simp [hy, Ne.symm hy]

end

/-! ### Reading after a write of one thread -/

theorem readV_writeV_self {k w r l : Nat} (v : W32) {s : State} (hw : HasWarp s k w) (hl : l < 32) :
    ((s.writeV k w r l v).warp k w).readV r l = if r = 255 then 0 else v := by
  refine (readV_writeAll k r (fun _ _ => v) [(w, l)] s (w, l) hw hl).trans ?_
  by_cases h : r = 255 <;> simp [h, Warp.readV]

theorem readV_writeV_ne {k w r l w' r' l' : Nat} (v : W32) (s : State) (h : r' ≠ r) :
    ((s.writeV k w r l v).warp k w').readV r' l' = (s.warp k w').readV r' l' :=
  (writeV_same_but k w r l v s).vregs k w' r' l' fun ⟨_, _, hr, _⟩ => h hr

theorem readV_writeP (k w l p : Nat) (b : Bool) (s : State) (k' w' r l' : Nat) :
    ((s.writeP k w l p b).warp k' w').readV r l' = (s.warp k' w').readV r l' :=
  (writeP_same_but k w l p b s).vregs k' w' r l' id

theorem readP_raiseFlags (k w : Nat) (x : BitVec 5) (s : State) (k' w' l : Nat) {q : Nat} (hq : q < 8) :
    ((s.raiseFlags k w x).thread k' w' l).readP q = (s.thread k' w' l).readP q :=
  (raiseFlags_same_but k w x s).preds k' w' l q hq id

theorem flags_writeP (k w l p : Nat) (b : Bool) (s : State) (k' w' : Nat) :
    ((s.writeP k w l p b).warp k' w').fpflags = (s.warp k' w').fpflags :=
  (writeP_same_but k w l p b s).flags k' w' id

/-! ### IADDC (11 R208) -/

section
variable {k r p : Nat} {v : Nat × Nat → W32} {b : Nat × Nat → Bool}

/-- What IADDC does for one thread: `v` to register `r`, then `b` to predicate `p`. -/
def writeSumCarry (k r p : Nat) (v : Nat × Nat → W32) (b : Nat × Nat → Bool) (y : Nat × Nat) (u : State) : State :=
  (u.writeV k y.1 r y.2 (v y)).writeP k y.1 y.2 p (b y)

theorem sameThreads_writeSumCarry (y : Nat × Nat) (u : State) : SameThreads u (writeSumCarry k r p v b y u) :=
  (sameThreads_writeV ..).trans (sameThreads_writeP ..)

theorem regFrame_writeSumCarry {ths : List (Nat × Nat)} (y : Nat × Nat) (hy : y ∈ ths) (u : State) :
    RegFrame u (writeSumCarry k r p v b y u) (fun k' w r' l => k' = k ∧ (w, l) ∈ ths ∧ r' = r) none3
      (fun k' w l p' => k' = k ∧ (w, l) ∈ ths ∧ p' = p) none2 := by
  refine regFrame_trans (RegFrame.mono (writeV_same_but ..) ?_ none_mono3 none_mono4 none_mono2)
    (RegFrame.mono (writeP_same_but ..) none_mono4 none_mono3 ?_ none_mono2)
  · rintro _ _ _ _ ⟨rfl, rfl, rfl, rfl⟩; exact ⟨rfl, hy, rfl⟩
  · rintro _ _ _ _ ⟨rfl, rfl, rfl, rfl⟩; exact ⟨rfl, hy, rfl⟩

theorem readV_writeSumCarry {ths : List (Nat × Nat)} {x : Nat × Nat} (hx : x ∈ ths) {u : State} (hw : HasWarp u k x.1)
    (hl : x.2 < 32) : ((forEach ths (writeSumCarry k r p v b) u).warp k x.1).readV r x.2 = if r = 255 then 0 else v x :=
  readV_forEach sameThreads_writeSumCarry (fun y u => (regFrame_writeSumCarry y (List.mem_singleton_self y) u).vregs)
    (fun _ hu => (readV_writeP ..).trans (readV_writeV_self (v x) hu hl)) hx hw

theorem readP_writeSumCarry {ths : List (Nat × Nat)} {x : Nat × Nat} (hx : x ∈ ths) {u : State}
    (ht : HasThread u k x.1 x.2) (hp : p < 8) :
    ((forEach ths (writeSumCarry k r p v b) u).thread k x.1 x.2).readP p = if p = 7 then true else b x :=
  readP_forEach sameThreads_writeSumCarry (fun y u => (regFrame_writeSumCarry y (List.mem_singleton_self y) u).preds) hp
    (fun _ hu => readP_writeP k x.1 x.2 p (b x) _ (((sameThreads_writeV ..).hasThread k x.1 x.2).2 hu) hp) hx ht

end

/-! ### LEA (11 R210) -/

section
variable {k r : Nat} {v : Nat × Nat → W64}

/-- What LEA does for one thread: `v` to the register pair from `r` up. -/
def writeAddr (k r : Nat) (v : Nat × Nat → W64) (y : Nat × Nat) (u : State) : State := u.writePair k y.1 r y.2 (v y)

/-- A pair that starts at vz is discarded. -/
theorem writeAddr_vz (y : Nat × Nat) (u : State) : writeAddr k 255 v y u = u := rfl

theorem writeAddr_pair (hr : r ≠ 255) (y : Nat × Nat) (u : State) : writeAddr k r v y u =
    (u.writeV k y.1 r y.2 ((v y).setWidth 32)).writeV k y.1 (r + 1) y.2 ((v y >>> 32).setWidth 32) := if_neg hr

theorem sameThreads_writeAddr (y : Nat × Nat) (u : State) : SameThreads u (writeAddr k r v y u) := by
  by_cases hr : r = 255
  · rw [hr, writeAddr_vz]
    exact SameThreads.refl u
  · rw [writeAddr_pair hr]
    exact (sameThreads_writeV ..).trans (sameThreads_writeV ..)

theorem regFrame_writeAddr {ths : List (Nat × Nat)} (y : Nat × Nat) (hy : y ∈ ths) (u : State) :
    RegFrame u (writeAddr k r v y u)
      (fun k' w r' l => k' = k ∧ (w, l) ∈ ths ∧ r ≠ 255 ∧ (r' = r ∨ r' = r + 1)) none3 none4 none2 := by
  by_cases hr : r = 255
  · rw [hr, writeAddr_vz]
    exact regFrame_refl u _ _ _ _
  · rw [writeAddr_pair hr]
    refine regFrame_trans (RegFrame.mono (writeV_same_but ..) ?_ none_mono3 none_mono4 none_mono2)
      (RegFrame.mono (writeV_same_but ..) ?_ none_mono3 none_mono4 none_mono2)
    · rintro _ _ _ _ ⟨rfl, rfl, rfl, rfl⟩; exact ⟨rfl, hy, hr, .inl rfl⟩
    · rintro _ _ _ _ ⟨rfl, rfl, rfl, rfl⟩; exact ⟨rfl, hy, hr, .inr rfl⟩

theorem readV_writeAddr_low {ths : List (Nat × Nat)} {x : Nat × Nat} (hx : x ∈ ths) {u : State} (hw : HasWarp u k x.1)
    (hl : x.2 < 32) (hr : r ≠ 255) :
    ((forEach ths (writeAddr k r v) u).warp k x.1).readV r x.2 = (v x).setWidth 32 :=
  readV_forEach sameThreads_writeAddr (fun y u => (regFrame_writeAddr y (List.mem_singleton_self y) u).vregs)
    (fun u hu => by
      rw [writeAddr_pair hr, readV_writeV_ne _ _ (Nat.succ_ne_self r).symm, readV_writeV_self _ hu hl, if_neg hr]) hx hw

theorem readV_writeAddr_high {ths : List (Nat × Nat)} {x : Nat × Nat} (hx : x ∈ ths) {u : State} (hw : HasWarp u k x.1)
    (hl : x.2 < 32) (hr : r ≠ 255) : ((forEach ths (writeAddr k r v) u).warp k x.1).readV (r + 1) x.2 =
      (if r + 1 = 255 then 0 else (v x >>> 32).setWidth 32 : W32) :=
  readV_forEach sameThreads_writeAddr (fun y u => (regFrame_writeAddr y (List.mem_singleton_self y) u).vregs)
    (fun u hu => by
      rw [writeAddr_pair hr, readV_writeV_self _ (((sameThreads_writeV ..).hasWarp k x.1).2 hu) hl]) hx hw

end

/-! ### FCMP (12 R225) -/

section
variable {k p : Nat} {b : Nat × Nat → Bool} {v : Nat × Nat → BitVec 5}

/-- What FCMP does for one thread: `b` to predicate `p`, and the flags `v` to its warp. -/
def writePredFlags (k p : Nat) (b : Nat × Nat → Bool) (v : Nat × Nat → BitVec 5) (y : Nat × Nat) (u : State) : State :=
  (u.writeP k y.1 y.2 p (b y)).raiseFlags k y.1 (v y)

theorem sameThreads_writePredFlags (y : Nat × Nat) (u : State) : SameThreads u (writePredFlags k p b v y u) :=
  (sameThreads_writeP ..).trans (sameThreads_raiseFlags ..)

theorem regFrame_writePredFlags {ths : List (Nat × Nat)} (y : Nat × Nat) (hy : y ∈ ths) (u : State) :
    RegFrame u (writePredFlags k p b v y u) none4 none3 (fun k' w l p' => k' = k ∧ (w, l) ∈ ths ∧ p' = p)
      fun k' _ => k' = k := by
  refine regFrame_trans (RegFrame.mono (writeP_same_but ..) none_mono4 none_mono3 ?_ none_mono2)
    (RegFrame.mono (raiseFlags_same_but ..) none_mono4 none_mono3 none_mono4 fun _ _ h => h.1)
  rintro _ _ _ _ ⟨rfl, rfl, rfl, rfl⟩
  exact ⟨rfl, hy, rfl⟩

theorem readP_writePredFlags {ths : List (Nat × Nat)} {x : Nat × Nat} (hx : x ∈ ths) {u : State}
    (ht : HasThread u k x.1 x.2) (hp : p < 8) :
    ((forEach ths (writePredFlags k p b v) u).thread k x.1 x.2).readP p = if p = 7 then true else b x :=
  readP_forEach sameThreads_writePredFlags (fun y u => (regFrame_writePredFlags y (List.mem_singleton_self y) u).preds) hp
    (fun u hu => (readP_raiseFlags _ _ _ _ _ _ _ hp).trans (readP_writeP k x.1 x.2 p (b x) u hu hp)) hx ht

theorem flags_writePredFlags (ths : List (Nat × Nat)) {u : State} {w : Nat} (hw : HasWarp u k w) :
    ((forEach ths (writePredFlags k p b v) u).warp k w).fpflags =
      (ths.filter fun y => y.1 = w).foldl (fun a y => a ||| v y) (u.warp k w).fpflags := by
  refine flags_forEach sameThreads_writePredFlags (fun y u hu => ?_) ths hw
  rw [writePredFlags, flags_raiseFlags _ _ _ _ _ (((sameThreads_writeP ..).hasWarp k w).2 hu), flags_writeP]

end

/-- Settles O5: each of the three makes one change per guard-holding thread, in turn; the frame of the changes is that of
the instruction, and a place of a thread reads what that thread's own change wrote. The carry of IADDC is written also where
DST is vz, and its carry in comes from the state before any of the changes (11 R208). -/
theorem carryPairAndFlagResults : Obligations.CarryPairAndFlagResults := fun f c s => by
  refine ⟨fun h => ?iaddc, fun h => ?lea, fun h => ?fcmp⟩
  case iaddc =>
    obtain ⟨t, hx, hadv, hsame, hframe⟩ := completes_perThread
      (g := fun c s => writeSumCarry c.coh f.dst.idx.toNat (f.opt % 8)
        (fun x => BitVec.ofNat 32 (addcSum f s c.coh x.1 x.2)) fun x => 2 ^ 32 ≤ addcSum f s c.coh x.1 x.2)
      rfl h sameThreads_writeSumCarry regFrame_writeSumCarry
    refine ⟨t, hx, hadv, fun x hon ht => ⟨fun hl => ?_, ?_⟩, hframe⟩
    · exact (hsame.readV ..).trans (readV_writeSumCarry hon ht.1 hl)
    · exact (hsame.readP ..).trans (readP_writeSumCarry hon ht (Nat.mod_lt _ (by decide)))
  case lea =>
    obtain ⟨t, hx, hadv, hsame, hframe⟩ := completes_perThread
      (g := fun c s => writeAddr c.coh f.dst.idx.toNat fun x => leaAddr f s c.coh x.1 x.2)
      rfl h sameThreads_writeAddr regFrame_writeAddr
    refine ⟨t, hx, hadv, fun x hon hw hl hd => ⟨?_, ?_⟩, hframe⟩
    · exact (hsame.readV ..).trans (readV_writeAddr_low hon hw hl hd)
    · exact (hsame.readV ..).trans (readV_writeAddr_high hon hw hl hd)
  case fcmp =>
    obtain ⟨t, hx, hadv, hsame, hframe⟩ := completes_perThread
      (g := fun c s => writePredFlags c.coh f.dst.idx.toNat
        (fun x => fcmpHolds f.opt (s.srcF c.coh x.1 x.2 f.modn f.sa) (s.srcF c.coh x.1 x.2 f.modn f.sb))
        fun x => (s.srcF c.coh x.1 x.2 f.modn f.sa).sig ||| (s.srcF c.coh x.1 x.2 f.modn f.sb).sig)
      rfl h sameThreads_writePredFlags regFrame_writePredFlags
    refine ⟨t, hx, hadv, fun x hon ht hp => ?_, fun w hw => ?_, hframe⟩
    · exact (hsame.readP ..).trans (readP_writePredFlags hon ht hp)
    · exact (hsame.flags ..).trans (flags_writePredFlags (c.on f s) hw)

end Sys2Proof.IntegerLane

/-! ## Proofs of the float and conversion family: one rounded result per thread, with the flags it raises -/

namespace Sys2Proof.FloatConversion

open Sys2Proof.Machine Sys2Proof.Safety Sys2Proof.Laws

section
variable {i : Instr} {f : Fields} {c : Iss} {s : State}

/-! ### Shapes of operands (12 R222, R226)

The flags of a result are those of its signalling operands, of the invalid cases of its operation, and of Round. -/

/-- One source read as the type, an exact result, rounded. -/
theorem writesF_float1 (op : Val → Val × BitVec 5) (hx : exec i s = issueFixed i f (effF f (float1 f op)) s)
    (h : Ready i f c s) : WritesF i f c s fun w l =>
      let a := s.srcF c.coh w l f.modn f.sa
      deliver f (op a).1 (a.sig ||| (op a).2) :=
  writesF_of hx h _ fun _ _ => rfl

/-- Two sources read as the type, an exact result, rounded. -/
theorem writesF_float2 (op : Val → Val → Val × BitVec 5)
    (hx : exec i s = issueFixed i f (effF f (float2 f op)) s) (h : Ready i f c s) : WritesF i f c s fun w l =>
      let a := s.srcF c.coh w l f.modn f.sa
      let b := s.srcF c.coh w l f.modn f.sb
      deliver f (op a b).1 (a.sig ||| b.sig ||| (op a b).2) :=
  writesF_of hx h _ fun _ _ => rfl

/-- Three sources read as the type, an exact result, rounded once. -/
theorem writesF_float3 (op : Val → Val → Val → Val × BitVec 5)
    (hx : exec i s = issueFixed i f (effF f (float3 f op)) s) (h : Ready i f c s) : WritesF i f c s fun w l =>
      let a := s.srcF c.coh w l f.modn f.sa
      let b := s.srcF c.coh w l f.modn f.sb
      let x := s.srcF c.coh w l f.modn f.third
      deliver f (op a b x).1 (a.sig ||| b.sig ||| x.sig ||| (op a b x).2) :=
  writesF_of hx h _ fun _ _ => rfl

/-! ### Instructions with a result of their own -/

/-- A result that a thread's sources alone decide, not the lookahead windows that the issue has used (02 R40). -/
theorem writesF_sources (val : State → Nat → Nat → Nat → W32 × BitVec 5) (hx : exec i s = issueFixed i f (effF f val) s)
    (hval : val (useWindows c s) = val s) (h : Ready i f c s) : WritesF i f c s fun w l => val s c.coh w l :=
  writesF_of hx h _ fun _ _ => by rw [hval]

/-- CVTN: the second value stands in the position that follows the first one's (12 R235). -/
theorem cvtn_writes (h : Ready (.cvtn f) f c s) : WritesF (.cvtn f) f c s fun w l =>
    let n := codeWidth f.modn
    let p := n * (2 * (f.opt / 4 % 4))
    let x0 := deliverTo f (s.srcF c.coh w l (f.opt % 4) f.sa)
    let x1 := deliverTo f (s.srcF c.coh w l (f.opt % 4) f.sb)
    let d := ((s.warp c.coh w).readV f.dst.idx.toNat l).toNat
    (BitVec.ofNat 32 (placeBits (placeBits d p n x0.1.toNat) (p + n) n x1.1.toNat), x0.2 ||| x1.2) := by
  refine writesF_of rfl h _ fun w l => ?_
  simp only [Nat.mul_add_one, srcF_useWindows, warp_useWindows]

end

/-- Settles O4: the arithmetic instructions have one of the three shapes of operands (12 R222, R226, R228). Of the others
each has its own reading of the sources: the operands themselves for FMIN and FMAX (R224), an exponent for FLDEXP (R222),
elements for the packed ones (R230), and the source type of OPT for the conversions (R232 to R236). -/
theorem floatResults : Obligations.FloatResults := fun f c s => by
  refine ⟨writesF_float2 (addVal f.rc) rfl, writesF_float2 (fun a b => addVal f.rc a b.negate) rfl,
    writesF_float2 mulVal rfl, writesF_float3 (fmaVal f.rc) rfl, ?fmin, ?fmax, writesF_float1 fracVal rfl,
    writesF_float1 (rintVal f.rc) rfl, fun h => ?fldexp, ?hfma2, ?hadd2, ?hmul2, ?cvt, fun h => ?cvtfi, ?cvtif, cvtn_writes,
    fun h => ?cvtw⟩
  case fmin => exact writesF_sources (minMax f fun a b => ltVal true a b) rfl rfl
  case fmax => exact writesF_sources (minMax f fun a b => ltVal true b a) rfl rfl
  case hfma2 => exact writesF_sources (packed f (fmaVal f.rc) true) rfl rfl
  case hadd2 => exact writesF_sources (packed f (fun a b _ => addVal f.rc a b) false) rfl rfl
  case hmul2 => exact writesF_sources (packed f (fun a b _ => mulVal a b) false) rfl rfl
  case cvt => exact writesF_sources (fun s k w l => deliverTo f (s.srcConv k w l f)) rfl rfl
  case cvtif => exact writesF_sources (fun s k w l => deliverTo f (Val.ofInt (s.srcI k w l f.src f.sa))) rfl rfl
  case fldexp | cvtfi | cvtw => exact writesF_of rfl h _ fun _ _ => rfl

end Sys2Proof.FloatConversion
